-- ==== Sys2Proof/Word.lean ====
section
/-! DEFINITION. The words the manual names (R5, R101): bytes, 32-bit lane values, 64-bit scalars and lane masks. -/

namespace Sys2Proof

/-- One byte of memory. -/
abbrev Byte := BitVec 8

/-- One lane's 32 bits of a vector register (R78). -/
abbrev Word := BitVec 32

/-- One scalar register, or a mask with one bit per lane (R78, R59). -/
abbrev DWord := BitVec 64

/-- A mask of lanes: bit i stands for lane i. -/
abbrev Mask := BitVec 64

/-- The 32-bit values of the lanes of one vector, lane 0 first. -/
abbrev Lanes := List Word

end Sys2Proof
end

