-- ==== Sys2Proof/Config.lean ====
section
/-! DEFINITION. The fixed quantities of the VX4160 (R2, R211) and the free values: constants without a body, of which nothing can be
computed or proved. A free value is drawn with the counter `State.free` or applied to the operands it depends on. -/

namespace Sys2Proof

/-- A choice the manual leaves open, drawn with the counter of free values: which of several agents moves, which way a fill
replaces, which lane of a store remains (log entry 2). -/
opaque Config.pick : Nat → Nat

/-- The clocks that pass between two steps (log entry 6). -/
opaque Config.elapse : Nat → Nat

/-- Where the `i`-th entry of the capability list lies in extended configuration space, and at 5 the list's vendor-specific capability (R381, log
entry 14). -/
opaque Config.capAt : Nat → Nat

/-- Henem's vendor ID, and the next extended capability in configuration space (R381, log entry 14). -/
opaque Config.vendor : BitVec 16
opaque Config.capNext : BitVec 12

/-- The detail of a log record to which R435 gives none (log entry 13). -/
opaque Config.logDetail : Nat → Nat

/-- The byte that the distributor takes for one of a peer whose link is lost (R417, log entry 66), by its physical address. -/
opaque Config.lostByte : Nat → Byte

/-- A function of `FEX2`, `FLG2`, `FSIN` or `FCOS` (0 to 3) where the model's bounds do not decide the rounding (log entry 7). -/
opaque Config.transcendental : Nat → Nat → Word → Word

/-- The comparison of `ACCEPT` where the model's bounds do not decide it (log entry 7). -/
opaque Config.acceptClose : Word → Word → Bool

/-- Whether a firmware image's signature and version verify (R436), on its bytes and the rollback counter (log entry 8). -/
opaque Config.firmwareOk : List Byte → Nat → Bool

/-- The device attestation key (R436): the modulus and the private exponent of RSA-3072, and its certificate (log entry 8). -/
opaque Config.attestModulus : Nat
opaque Config.attestExponent : Nat
opaque Config.certificate : List Byte

namespace Config

/-- Dies, clusters, cores (R4, R381). -/
def dies : Nat := 4
def clusters : Nat := 20
def cores : Nat := 160
def slicesPerDie : Nat := 48
def clustersPerDie : Nat := 5
def coresPerCluster : Nat := 8
def coresPerDie : Nat := 40
def localBytes : Nat := 393216
/-- 2 KiB units of a quarter's vector file (R79). -/
def fileUnits : Nat := 128
def wavesPerQuarter : Nat := 16
def wavesPerCore : Nat := 64
def splitEntries : Nat := 64
def stackDepth : Nat := 8
def quantum : Nat := 400000
def swapWait : Nat := 2048
def xchgTimeout : Nat := 262144
def chartWays : Nat := 16
def mailEntries : Nat := 32
def copyQueue : Nat := 64
def scoreboard : Nat := 16
def switchDeadline : Nat := 6400
def exchangeClocks : Nat := 1600
def clocksPerUs : Nat := 4000
/-- Entries of a bank's conflict queue (R225). -/
def conflictQueue : Nat := 16
/-- Outstanding Page Request Capacity and Invalidate Queue Depth (R411). -/
def pageRequests : Nat := 1024
def invalidateDepth : Nat := 32

end Config

end Sys2Proof
end

