-- ==== Sys2Proof/Machine/Number.lean ====
section
/-! DEFINITION. Number formats (R102 to R105), exact values, rounding (R106, R107), flushing (R108), minimum and maximum (R109),
conversion to integers (R110), saturating conversion (R111), and the exact functions of R139 by bounds. -/

namespace Sys2Proof.Machine

/-- The value of an encoding: NaN, an infinity, or (−1)^neg × m × 2^e exactly; a zero keeps its sign (R106). -/
inductive Num where
  | nan
  | inf (neg : Bool)
  | fin (neg : Bool) (m : Nat) (e : Int)
  deriving DecidableEq, Repr

/-- What the all-ones exponent means (R102). -/
inductive Top where
  | ieee | e4m3 | normal
  deriving DecidableEq, Repr

/-- A binary floating-point format: exponent bits, fraction bits, bias. -/
structure Fmt where
  eb   : Nat
  mb   : Nat
  bias : Nat
  top  : Top
  deriving DecidableEq, Repr

def fp64 : Fmt := ⟨11, 52, 1023, .ieee⟩
def fp32 : Fmt := ⟨8, 23, 127, .ieee⟩
def fp16 : Fmt := ⟨5, 10, 15, .ieee⟩
def bf16 : Fmt := ⟨8, 7, 127, .ieee⟩
def e4m3 : Fmt := ⟨4, 3, 7, .e4m3⟩
def e5m2 : Fmt := ⟨5, 2, 15, .ieee⟩
def e2m1 : Fmt := ⟨2, 1, 1, .normal⟩

def Fmt.width (F : Fmt) : Nat := 1 + F.eb + F.mb
def Fmt.signBit (F : Fmt) (neg : Bool) : Nat := if neg then 2 ^ (F.eb + F.mb) else 0
/-- The canonical NaN; E2M1 has none and gives +0 (R102, R111). -/
def Fmt.nan (F : Fmt) : Nat :=
  match F.top with
  | .ieee => (2 ^ F.eb - 1) * 2 ^ F.mb + 2 ^ (F.mb - 1)
  | .e4m3 => 0x7F
  | .normal => 0
def Fmt.infBits (F : Fmt) (neg : Bool) : Nat := F.signBit neg + (2 ^ F.eb - 1) * 2 ^ F.mb
/-- The largest finite magnitude's bits. -/
def Fmt.maxBits (F : Fmt) (neg : Bool) : Nat :=
  F.signBit neg + (match F.top with
    | .ieee => (2 ^ F.eb - 1) * 2 ^ F.mb - 1
    | .e4m3 => 0x7E
    | .normal => 2 ^ (F.eb + F.mb) - 1)

/-- `ToReal` (R106). -/
def toReal (F : Fmt) (x : Nat) : Num :=
  let f := x % 2 ^ F.mb
  let e := x / 2 ^ F.mb % 2 ^ F.eb
  let neg := x / 2 ^ (F.eb + F.mb) % 2 == 1
  let special := e == 2 ^ F.eb - 1 && (match F.top with
    | .ieee => true
    | .e4m3 => f == 7
    | .normal => false)
  if special then (if F.top = .ieee ∧ f = 0 then .inf neg else .nan)
  else if e = 0 then .fin neg f (1 - (F.bias : Int) - F.mb)
  else .fin neg (2 ^ F.mb + f) ((e : Int) - F.bias - F.mb)

/-- Whether bits are a subnormal of the format. -/
def Fmt.isSub (F : Fmt) (x : Nat) : Bool := x / 2 ^ F.mb % 2 ^ F.eb == 0 && x % 2 ^ F.mb != 0

/-- Whether a discarded part rounds the magnitude up: `lo` compares it with half a unit (`lt`, `eq`, `gt`), `any` says it is not 0. -/
def roundsUp (rm : Nat) (neg odd any : Bool) (half : Ordering) : Bool :=
  match rm with
  | 0 => half == .gt || (half == .eq && odd)
  | 1 => false
  | 2 => any && !neg
  | _ => any && neg

/-- m × 2^e plus a positive tail below the last place if `tail`, rounded to a multiple of 2^q: the multiple (R106). -/
def roundAt (rm : Nat) (neg : Bool) (m : Nat) (e q : Int) (tail : Bool) : Nat :=
  if q ≤ e then
    let k := m * 2 ^ (e - q).toNat
    if tail && (rm = 2 && !neg || rm ≥ 3 && neg) then k + 1 else k
  else
    let s := (q - e).toNat
    let k := m / 2 ^ s
    let r := m % 2 ^ s
    let half := match compare (2 * r) (2 ^ s) with
      | .eq => if tail then .gt else .eq
      | o => o
    if roundsUp rm neg (k % 2 == 1) (r != 0 || tail) half then k + 1 else k

/-- Rounding a nonzero magnitude to a format with unbounded exponents above: none where it exceeds the largest finite value (R106). -/
def roundBits (F : Fmt) (rm : Nat) (neg : Bool) (m : Nat) (e : Int) (tail : Bool) : Option Nat :=
  let q := max ((Nat.log2 m : Int) + e - F.mb) (1 - (F.bias : Int) - F.mb)
  let k := roundAt rm neg m e q tail
  let (k, q) := if 2 ^ (F.mb + 1) ≤ k then (k / 2, q + 1) else (k, q)
  if k < 2 ^ F.mb then some (F.signBit neg + k)
  else
    let x := (q + F.mb + F.bias).toNat * 2 ^ F.mb + (k - 2 ^ F.mb)
    if F.maxBits false < x then none else some (F.signBit neg + x)

/-- Overflow within a format (R107). -/
def overflow (F : Fmt) (rm : Nat) (neg : Bool) : Nat :=
  match rm with
  | 0 => F.infBits neg
  | 1 => F.maxBits neg
  | 2 => if neg then F.maxBits true else F.infBits false
  | _ => if neg then F.infBits true else F.maxBits false

/-- `Round` with the special values of R107; `tail` marks an inexact value just above m × 2^e. -/
def roundNumT (F : Fmt) (rm : Nat) (tail : Bool) : Num → Nat
  | .nan => F.nan
  | .inf n => F.infBits n
  | .fin n m e =>
    if m = 0 then F.signBit n
    else match roundBits F rm n m e tail with
      | some x => x
      | none => overflow F rm n

def roundNum (F : Fmt) (rm : Nat) (y : Num) : Nat := roundNumT F rm false y

/-! ### `$mode` (R85, R108, R109) -/

/-- The arithmetic fields of `$mode`. -/
structure FMode where
  rnd     : Nat
  inF     : Bool
  outF    : Bool
  in16    : Bool
  out16   : Bool
  inB     : Bool
  outB    : Bool
  lcvt    : Bool
  lminmax : Bool
  deriving DecidableEq, Repr

def fmode (md : BitVec 32) : FMode :=
  { rnd := md.toNat % 4, inF := md.getLsbD 2, outF := md.getLsbD 3, in16 := md.getLsbD 4, out16 := md.getLsbD 5
    inB := md.getLsbD 6, outB := md.getLsbD 7, lcvt := md.getLsbD 8, lminmax := md.getLsbD 9 }

def FMode.inFlush (k : FMode) (F : Fmt) : Bool :=
  if F = fp32 then k.inF else if F = fp16 then k.in16 else if F = bf16 then k.inB else false
def FMode.outFlush (k : FMode) (F : Fmt) : Bool :=
  if F = fp32 then k.outF else if F = fp16 then k.out16 else if F = bf16 then k.outB else false

/-- An operand's bits after the input flush (R108). -/
def inBits (k : FMode) (F : Fmt) (x : Nat) : Nat :=
  if k.inFlush F && F.isSub x then x / 2 ^ (F.eb + F.mb) % 2 * 2 ^ (F.eb + F.mb) else x
/-- `In` (R124). -/
def inNum (k : FMode) (F : Fmt) (x : Nat) : Num := toReal F (inBits k F x)
/-- A result's bits after the output flush (R108). -/
def outBits (k : FMode) (F : Fmt) (x : Nat) : Nat :=
  if k.outFlush F && F.isSub x then x / 2 ^ (F.eb + F.mb) % 2 * 2 ^ (F.eb + F.mb) else x
/-- `RoundF` (R124). -/
def roundF (k : FMode) (F : Fmt) (rm : Nat) (y : Num) : Nat := outBits k F (roundNum F rm y)

/-! ### Exact arithmetic (R106, R107) -/

def sgn (neg : Bool) (m : Nat) : Int := if neg then -(m : Int) else m

/-- A sum: exact; an exact zero of opposite signs is +0, or −0 rounding down. -/
def addNum (rm : Nat) : Num → Num → Num
  | .nan, _ => .nan
  | _, .nan => .nan
  | .inf a, .inf b => if a = b then .inf a else .nan
  | .inf a, _ => .inf a
  | _, .inf b => .inf b
  | .fin a m e, .fin b n f =>
    let g := min e f
    let z := sgn a (m * 2 ^ (e - g).toNat) + sgn b (n * 2 ^ (f - g).toNat)
    if z = 0 then (if m = 0 ∧ n = 0 ∧ a = b then .fin a 0 g else .fin (decide (rm = 3)) 0 g)
    else .fin (decide (z < 0)) z.natAbs g

def negNum : Num → Num
  | .nan => .nan
  | .inf a => .inf !a
  | .fin a m e => .fin (!a) m e

def mulNum : Num → Num → Num
  | .nan, _ => .nan
  | _, .nan => .nan
  | .inf a, .inf b => .inf (a != b)
  | .inf a, .fin b n _ => if n = 0 then .nan else .inf (a != b)
  | .fin a m _, .inf b => if m = 0 then .nan else .inf (a != b)
  | .fin a m e, .fin b n f => .fin (a != b) (m * n) (e + f)

/-- Comparison of two values that are not NaN; −0 equals +0. -/
def cmpNum : Num → Num → Ordering
  | .inf a, .inf b => if a = b then .eq else if a then .lt else .gt
  | .inf a, _ => if a then .lt else .gt
  | _, .inf b => if b then .gt else .lt
  | .fin a m e, .fin b n f =>
    let g := min e f
    compare (sgn a (m * 2 ^ (e - g).toNat)) (sgn b (n * 2 ^ (f - g).toNat))
  | _, _ => .eq

def Num.isNan : Num → Bool
  | .nan => true
  | _ => false
def Num.neg : Num → Bool
  | .nan => false
  | .inf a => a
  | .fin a _ _ => a
def Num.isZero : Num → Bool
  | .fin _ 0 _ => true
  | _ => false

/-- Minimum (`mx = false`) or maximum of two encodings (R109), before the output flush. -/
def minMaxBits (k : FMode) (F : Fmt) (mx : Bool) (x y : Nat) : Nat :=
  let a := inNum k F x
  let b := inNum k F y
  let lt := cmpNum a b == (if mx then .gt else .lt)
  if k.lminmax then (if !a.isNan && !b.isNan && lt then inBits k F x else inBits k F y)
  else if a.isNan then (if b.isNan then F.nan else inBits k F y)
  else if b.isNan then inBits k F x
  else if a.isZero && b.isZero then (if a.neg != mx then inBits k F x else inBits k F y)
  else if lt then inBits k F x else inBits k F y

def minMax (k : FMode) (F : Fmt) (mx : Bool) (x y : Nat) : Nat := outBits k F (minMaxBits k F mx x y)

/-- No flush, no legacy behaviour: the arithmetic of atomics (R299). -/
def plainMode : FMode :=
  { rnd := 0, inF := false, outF := false, in16 := false, out16 := false, inB := false, outB := false, lcvt := false, lminmax := false }

/-! ### Reciprocal and roots: enough quotient bits, and a tail when inexact -/

/-- Integer square root, bit by bit from bit `n - 1` down. -/
def isqrtGo (x : Nat) : Nat → Nat → Nat
  | 0, r => r
  | n + 1, r => let t := r + 2 ^ n; isqrtGo x n (if t * t ≤ x then t else r)
def isqrt (x : Nat) : Nat := isqrtGo x (Nat.log2 x / 2 + 1) 0

/-- 1 / a, as a value and a tail. -/
def recipNum : Num → Num × Bool
  | .nan => (.nan, false)
  | .inf a => (.fin a 0 0, false)
  | .fin a m e =>
    if m = 0 then (.inf a, false)
    else let k := Nat.log2 m + 64; (.fin a (2 ^ k / m) (-e - k), 2 ^ k % m != 0)

/-- √a. -/
def sqrtNum : Num → Num × Bool
  | .nan => (.nan, false)
  | .inf a => if a then (.nan, false) else (.inf false, false)
  | .fin a m e =>
    if m = 0 then (.fin a 0 0, false)
    else if a then (.nan, false)
    else
      let (m, e) := if e % 2 = 0 then (m, e) else (2 * m, e - 1)
      let x := m * 2 ^ 128
      let r := isqrt x
      (.fin false r (e / 2 - 64), r * r != x)

/-- 1 / √a. -/
def rsqrtNum : Num → Num × Bool
  | .nan => (.nan, false)
  | .inf a => if a then (.nan, false) else (.fin false 0 0, false)
  | .fin a m e =>
    if m = 0 then (.inf a, false)
    else if a then (.nan, false)
    else
      let (m, e) := if e % 2 = 0 then (m, e) else (2 * m, e - 1)
      let k := Nat.log2 m / 2 * 2 + 192
      let x := 2 ^ k / m
      let r := isqrt x
      (.fin false r (-(e / 2) - k / 2), !(2 ^ k % m == 0 && r * r == x))

/-- A value rounded to an integer: the integer magnitude with its sign. -/
def roundInt (rm : Nat) (neg : Bool) (m : Nat) (e : Int) : Int := sgn neg (roundAt rm neg m e 0 false)

/-! ### Bounds for the exact functions (R139, R194)

A real is held as a number of units of 2^−P with an error of at most `err` units. -/

def precP : Nat := 512
def one : Nat := 2 ^ precP

/-- The series of atanh z = Σ z^(2k+1)/(2k+1) (`alt`: atan z), n terms, in units; z in units, below one. -/
def atanhGo (alt : Bool) (z2 : Nat) : Nat → Nat → Nat → Int → Int
  | 0, _, _, acc => acc
  | n + 1, k, p, acc =>
    let t : Int := (p / (2 * k + 1) : Nat)
    atanhGo alt z2 n (k + 1) (p * z2 / one) (if alt && k % 2 == 1 then acc - t else acc + t)
def atanhU (alt : Bool) (n z : Nat) : Int := atanhGo alt (z * z / one) n 0 z 0

/-- ln 2 = 2 atanh(1/3), and π by Machin's formula, in units with an error below 1,000 units. -/
def ln2U : Int := 2 * atanhU false 170 (one / 3)
def piU : Int := 16 * atanhU true 120 (one / 5) - 4 * atanhU true 40 (one / 239)

/-- ln of m/2^k in [1, 2), in units with an error below 2,000 units. -/
def lnU (m k : Nat) : Int := 2 * atanhU false 170 ((m - 2 ^ k) * one / (m + 2 ^ k))

/-- Σ x^k/k! for k from `k`, where `p` holds the term; x in units below one. `step` 1 sums all, 2 alternates every second term (sine
and cosine). -/
def expGo (x : Nat) : Nat → Nat → Nat → Nat → Nat
  | 0, _, _, acc => acc
  | n + 1, k, p, acc => expGo x n (k + 1) (p * x / one / (k + 1)) (acc + p)
/-- e^x, error below 1,000 units. -/
def expU (x : Nat) : Nat := expGo x 130 0 one 0

def trigGo (x2 : Nat) : Nat → Nat → Nat → Int → Int
  | 0, _, _, acc => acc
  | n + 1, k, p, acc => trigGo x2 n (k + 2) (p * x2 / one / (k * (k + 1))) (if k / 2 % 2 == 1 then acc + p else acc - p)
/-- sin x and cos x for x in [0, 1), error below 1,000 units. -/
def sinU (x : Nat) : Int := trigGo (x * x / one) 70 2 x 0
def cosU (x : Nat) : Int := trigGo (x * x / one) 70 3 (x * x / one / 2) 0 * -1 + one

/-- Rounding a positive real known within `err` units: none where the two bounds round differently. -/
def roundU (F : Fmt) (rm : Nat) (neg : Bool) (v : Int) (err : Nat) (sh : Int) : Option Nat :=
  if v ≤ err then none
  else
    let lo := roundNumT F rm true (.fin neg (v - err).toNat (sh - precP))
    let hi := roundNumT F rm true (.fin neg (v + err).toNat (sh - precP))
    if lo = hi then some lo else none

/-- 2^a of a finite nonzero value (R139). -/
def exp2Bits (F : Fmt) (rm : Nat) (neg : Bool) (m : Nat) (e : Int) : Option Nat :=
  if 0 ≤ e then
    let n := m * 2 ^ e.toNat
    some (roundNum F rm (.fin false 1 (if neg then -(min n 4096 : Nat) else (min n 4096 : Nat))))
  else
    let d := 2 ^ (-e).toNat
    if m % d = 0 then some (roundNum F rm (.fin false 1 (sgn neg (m / d))))
    else if (Nat.log2 m : Int) + e < -60 then
      some (roundNumT F rm true (if neg then .fin false (2 ^ 60 - 1) (-60) else .fin false 1 0))
    else
      let n : Int := if neg then -(m / d : Nat) - 1 else (m / d : Nat)
      let f := if neg then d - m % d else m % d
      let n := max (-4096) (min 4096 n)
      roundU F rm false (expU ((f * one / d) * ln2U.toNat / one)) 8192 n

/-- log2 of a positive value (R139). -/
def log2Bits (F : Fmt) (rm : Nat) (m : Nat) (e : Int) : Option Nat :=
  let k := Nat.log2 m
  let n : Int := k + e
  if m = 2 ^ k then some (roundNum F rm (.fin (decide (n < 0)) n.natAbs 0))
  else
    let v := n * (one : Int) + lnU m k * (one : Int) / ln2U
    roundU F rm (decide (v < 0)) v.natAbs 65536 0

/-- sin(π a) (`co`: cos) of a finite value, with exact zeros and ones (R139). -/
def sinPiBits (F : Fmt) (rm : Nat) (co neg : Bool) (m : Nat) (e : Int) : Option Nat :=
  if 0 ≤ e ∨ m = 0 then
    if co then some (roundNum F rm (.fin (decide (m * 2 ^ e.toNat % 2 = 1)) 1 0))
    else some (F.signBit (decide (m = 0) && neg))
  else
    let d := 2 ^ (-e).toNat
    let r := m % (2 * d)
    -- the angle r/d in [0, 2), as a quarter and a rest
    let quad := 2 * r / d
    let rest := 2 * r % d
    -- sine of (quad/2 + rest/(2d)); cosine shifts the quarter by one, and is even
    let q := if co then quad + 1 else quad
    let s := !co && neg
    let flip := (q / 2 % 2 == 1) != s
    if rest = 0 then
      if q % 2 = 0 then some (F.signBit false) else some (roundNum F rm (.fin flip 1 0))
    else
      -- the rest as a fraction of a quarter, reflected in odd quarters
      let t := if q % 2 = 0 then rest else d - rest
      if 2 * t ≤ d then roundU F rm flip (sinU (t * piU.toNat / (2 * d))) 8192 0
      else roundU F rm flip (cosU ((d - t) * piU.toNat / (2 * d))) 8192 0

/-- FP32 functions of R139 by number: 0 `FEX2`, 1 `FLG2`, 2 `FSIN`, 3 `FCOS`; where the bounds do not decide, a free value. -/
def transBits (fn rm : Nat) (x : Word) (a : Num) : Nat :=
  let or (o : Option Nat) : Nat := o.getD ((Config.transcendental fn rm x).toNat)
  match fn, a with
  | _, .nan => fp32.nan
  | 0, .inf n => if n then 0 else fp32.infBits false
  | 0, .fin n m e => if m = 0 then roundNum fp32 rm (.fin false 1 0) else or (exp2Bits fp32 rm n m e)
  | 1, .inf n => if n then fp32.nan else fp32.infBits false
  | 1, .fin n m e => if m = 0 then fp32.infBits true else if n then fp32.nan else or (log2Bits fp32 rm m e)
  | _, .inf _ => fp32.nan
  | 2, .fin n m e => or (sinPiBits fp32 rm false n m e)
  | _, .fin n m e => or (sinPiBits fp32 rm true n m e)

/-- Whether y ≥ ln((k + 0.5) × 2^−32) (R194), y not NaN. -/
def acceptNum (y : Word) (k : Word) (a : Num) : Bool :=
  match a with
  | .nan => false
  | .inf n => !n
  | .fin n m e =>
    if !n || m = 0 then true
    else
      let u := 2 * k.toNat + 1
      let b := Nat.log2 u
      -- ln u' = ln(u / 2^b) + (b − 33) ln 2, at most 0
      let v := lnU u b + ((b : Int) - 33) * ln2U
      let s := -(m : Int) * (if 0 ≤ e + precP then 2 ^ (e + precP).toNat else 0)
      let s := if 0 ≤ e + precP then s else -1
      if v + 131072 ≤ s then true
      else if s < v - 131072 then false
      else Config.acceptClose y k

/-! ### Saturating conversion (R110, R111) -/

/-- A value saturated to a float format: bits and whether it saturated. -/
def satFloat (k : FMode) (F : Fmt) (rm : Nat) : Num → Nat × Bool
  | .nan => (F.nan, decide (F.top = .normal))
  | .inf n => if F.top = .ieee then (F.infBits n, false) else (F.maxBits n, true)
  | .fin n m e =>
    if m = 0 then (F.signBit n, false)
    else match roundBits F rm n m e false with
      | some x => (outBits k F x, false)
      | none => (F.maxBits n, true)

/-- The least and greatest integer of a width. -/
def intMin (w : Nat) (sg : Bool) : Int := if sg then -(2 ^ (w - 1)) else 0
def intMax (w : Nat) (sg : Bool) : Int := if sg then 2 ^ (w - 1) - 1 else 2 ^ w - 1

/-- A float value to an integer (R110). -/
def floatToInt (k : FMode) (rm w : Nat) (sg : Bool) (y : Num) : Int × Bool :=
  let legacy : Int := if sg then intMin w sg else 0
  let hi := if k.lcvt then legacy else intMax w sg
  let lo := if k.lcvt then legacy else intMin w sg
  match y with
  | .nan => (if k.lcvt then legacy else 0, true)
  | .inf n => (if n then lo else hi, true)
  | .fin n m e =>
    let v := roundInt rm n m e
    if intMax w sg < v then (hi, true) else if v < intMin w sg then (lo, true) else (v, false)

/-- `SatToInt` of an integer. -/
def satInt (w : Nat) (sg : Bool) (v : Int) : Int × Bool :=
  if intMax w sg < v then (intMax w sg, true) else if v < intMin w sg then (intMin w sg, true) else (v, false)

/-- An integer as an exact value. -/
def intNum (v : Int) : Num := .fin (decide (v < 0)) v.natAbs 0

/-- The largest power: Floor(Log2(m × 2^e)) of a nonzero magnitude. -/
def floorLog2 (m : Nat) (e : Int) : Int := Nat.log2 m + e

end Sys2Proof.Machine
end

