-- ==== Sys2Proof/Syntax.lean ====
section
/-! DEFINITION. The instructions of Korweing-3 as the decoder hands them to the machine, and the events of the device and
its surroundings: one constructor of `Instr` for each row of the table of operations and events. -/

namespace Sys2Proof

/-- The three encodings (R68). -/
inductive DecodeMode where
  | k3 | k2 | k1
  deriving DecidableEq, Repr

/-- The length of an instruction (R47). -/
inductive Form where
  | f64 | f96 | f128
  deriving DecidableEq, Repr

/-- Length, guard negate and guard predicate, which every instruction has (R47, R53). -/
structure Hdr where
  form : Form
  gneg : Bool
  gp   : BitVec 4
  deriving DecidableEq, Repr

/-- A source operand (R60, R61). `dead` is the mark `~`, `empt` the mark `!`. `imm` is an 8-bit immediate code, `wide` an
immediate source that takes the wide operand (R55), `zero` the zero operand. -/
inductive Src where
  | v (n : BitVec 8) (dead empt : Bool)
  | s (n : BitVec 7) (dead empt : Bool)
  | o (k : BitVec 3)
  | la
  | lb
  | q (k : BitVec 2) (empt : Bool)
  | zero
  | imm (i : BitVec 8)
  | wide (w : BitVec 32)
  deriving DecidableEq, Repr

/-- The mirror of a vector destination (R12). -/
inductive Mirror where
  | none | la | lb
  | o (k : BitVec 3)
  deriving DecidableEq, Repr

/-- A destination operand (R61). -/
inductive Dst where
  | v (n : BitVec 8) (m : Mirror)
  | s (n : BitVec 7)
  | o (k : BitVec 3)
  | la
  | lb
  | q (k : BitVec 2)
  deriving DecidableEq, Repr

/-- The integer type field (R122). -/
inductive IType where
  | s32 | z32 | s64 | z64
  deriving DecidableEq, Repr

/-- The rounding field (R123): `dyn` takes `$mode.rnd`. -/
inductive Rnd where
  | dyn | rn | rz | ru | rd
  deriving DecidableEq, Repr

/-- Integer comparisons (R138). -/
inductive ICmp where
  | eq | ne | lt | le | gt | ge
  deriving DecidableEq, Repr

/-- Float comparisons (R141): the six orderings, ordered or unordered, and the two tests for NaN. -/
inductive FCmp where
  | ord (c : ICmp)
  | unord (c : ICmp)
  | num
  | nan
  deriving DecidableEq, Repr

/-- The operand formats of `FCLASS` (R142), of CVT float sources and results (R144). -/
inductive FFmt where
  | f64 | f32 | f16 | bf16
  deriving DecidableEq, Repr

/-- A conversion source (R144). -/
inductive CvtSrc where
  | f (t : FFmt)
  | i (t : IType)
  deriving DecidableEq, Repr

/-- Packed element formats of `CVT.Q` and `UNPK` (R145). -/
inductive QFmt where
  | f16 | bf16 | e4m3 | e5m2 | e2m1 | s16 | z16 | s8 | z8 | s4 | z4
  deriving DecidableEq, Repr

/-- Formats of `PACK` (R146). -/
inductive PackFmt where
  | f16 | bf16 | s16 | z16
  deriving DecidableEq, Repr

/-- What `VOTE` computes and where it writes (R126, R131). -/
inductive VoteOp where
  | any (pd : BitVec 4)
  | all (pd : BitVec 4)
  | eq (pd : BitVec 4)
  | ballot (sd : BitVec 7)
  deriving DecidableEq, Repr

/-- The five directions of `PMOV` (R153). -/
inductive PMovOp where
  | pp (pd pa : BitVec 4)
  | vp (d : Dst) (pa : BitVec 4)
  | pv (pd : BitVec 4) (a : Src)
  | sp (sd : BitVec 7) (pa : BitVec 4)
  | ps (pd : BitVec 4) (a : Src)
  deriving DecidableEq, Repr

/-- The modes of `SHFL` (R155). -/
inductive ShflMode where
  | idx | up | down | xor
  deriving DecidableEq, Repr

/-- Operations of `REDW` and `SCANW` (R156). -/
inductive WaveOp where
  | addS32 | addF32 | minS32 | minZ32 | minF32 | maxS32 | maxZ32 | maxF32 | and | or | xor
  deriving DecidableEq, Repr

/-- States that `FEMARK` sets and `FETEST` tests (R160), and the register states of R94. -/
inductive RegState where
  | full | empty | poison
  deriving DecidableEq, Repr

/-- A vector or scalar register by name. -/
inductive RegName where
  | v (n : BitVec 8)
  | s (n : BitVec 7)
  deriving DecidableEq, Repr

/-- Access sizes of lane accesses (R243): 1, 2, 4, 8, 16 bytes. -/
inductive Size where
  | b | h | w | d | q
  deriving DecidableEq, Repr

/-- Conversions of loads and stores (R243). -/
inductive Conv where
  | raw | f16 | bf16 | e4m3 | e5m2 | s8 | z8 | s16 | z16
  deriving DecidableEq, Repr

/-- Ordering field (R57). -/
inductive Ord where
  | plain | acq | rel | ar
  deriving DecidableEq, Repr

/-- Cache policy (R57, R245). -/
inductive Policy where
  | normal | cb | ev | lu | na
  deriving DecidableEq, Repr

/-- The eight scopes, narrowest first (R57, R304). -/
inductive Scope where
  | wave | team | core | cluster | die | device | node | system
  deriving DecidableEq, Repr

/-- The memory fields of a memory-field instruction (R56, R57). `bear = none` is bearing select 0. -/
structure MemF where
  scope : Scope
  pol   : Policy
  ord   : Ord
  bear  : Option (BitVec 8)
  deriving DecidableEq, Repr

/-- Result formats of `ADRAIN` (R179). -/
inductive DrainFmt where
  | f32 | f16 | bf16 | s32
  deriving DecidableEq, Repr

/-- Operations of `ATOM.I` (R295). -/
inductive AtomOp where
  | add | min | max | and | or | xor | exch
  deriving DecidableEq, Repr

/-- Operations of `ATOM.F` and `ATOM.X2` (R295). -/
inductive FAtomOp where
  | add | min | max
  deriving DecidableEq, Repr

/-- Widths of `ATOM.CAS` (R295). -/
inductive CasW where
  | b32 | b64 | b128
  deriving DecidableEq, Repr

/-- Operations of `RED` (R295). -/
inductive RedOp where
  | int (op : AtomOp) (t : IType)
  | addF32 | addF64 | add2F16 | add2BF16
  deriving DecidableEq, Repr

/-- Operations of `ATOMS` (R295). -/
inductive LAtomOp where
  | int (op : AtomOp) (t : IType)
  | cas (t : IType)
  | addF32 | add2F16 | add2BF16
  deriving DecidableEq, Repr

/-- Kinds of `FENCE` (R317). -/
inductive FenceKind where
  | acq | rel | ar
  deriving DecidableEq, Repr

/-- Where `RETH` resumes (R390). -/
inductive RethMode where
  | dflt | rs | nx | pc
  deriving DecidableEq, Repr

/-! Operand shapes: one structure for each pattern of operand fields. -/

/-- Header only. -/
structure H0 where
  h : Hdr
  deriving DecidableEq, Repr

/-- A branch or call offset, in units of 8 bytes (R55, R127). -/
structure HOff where
  h   : Hdr
  off : BitVec 32
  deriving DecidableEq, Repr

/-- `CALL` (R126). -/
structure HCall where
  h   : Hdr
  d   : BitVec 7
  off : BitVec 32
  deriving DecidableEq, Repr

/-- `CALLX` (R126). -/
structure HCallX where
  h : Hdr
  d : BitVec 7
  a : Src
  deriving DecidableEq, Repr

/-- One source. -/
structure HA where
  h : Hdr
  a : Src
  deriving DecidableEq, Repr

/-- Two sources, no destination. -/
structure HAB where
  h : Hdr
  a : Src
  b : Src
  deriving DecidableEq, Repr

/-- An 8-bit id or code in the modifiers (R126, R400). -/
structure HCode where
  h    : Hdr
  code : BitVec 8
  deriving DecidableEq, Repr

/-- `VOTE`. -/
structure HVote where
  h  : Hdr
  op : VoteOp
  pa : BitVec 4
  deriving DecidableEq, Repr

/-- A typed integer instruction of one source (R133). -/
structure I1 where
  h : Hdr
  t : IType
  d : Dst
  a : Src
  deriving DecidableEq, Repr

/-- A typed integer instruction of two sources. -/
structure I2 where
  h : Hdr
  t : IType
  d : Dst
  a : Src
  b : Src
  deriving DecidableEq, Repr

/-- A typed integer instruction of three sources. -/
structure I3 where
  h : Hdr
  t : IType
  d : Dst
  a : Src
  b : Src
  c : Src
  deriving DecidableEq, Repr

/-- `IADDC` (R134). -/
structure ICarry where
  h    : Hdr
  cin  : BitVec 4
  cout : BitVec 4
  d    : Dst
  a    : Src
  b    : Src
  deriving DecidableEq, Repr

/-- `LEA` (R137): `zext` is type `.z32`. -/
structure ILea where
  h    : Hdr
  zext : Bool
  sh   : BitVec 3
  d    : Dst
  a    : Src
  b    : Src
  deriving DecidableEq, Repr

/-- `SEL` (R138). -/
structure ISel where
  h    : Hdr
  t    : IType
  p    : BitVec 4
  pneg : Bool
  d    : Dst
  a    : Src
  b    : Src
  deriving DecidableEq, Repr

/-- `ISETP` (R138). -/
structure ISetp where
  h   : Hdr
  t   : IType
  cmp : ICmp
  pd  : BitVec 4
  a   : Src
  b   : Src
  deriving DecidableEq, Repr

/-- Float, one source, rounding field (R139). -/
structure F1 where
  h  : Hdr
  rm : Rnd
  d  : Dst
  a  : Src
  deriving DecidableEq, Repr

/-- Float, two sources. -/
structure F2 where
  h  : Hdr
  rm : Rnd
  d  : Dst
  a  : Src
  b  : Src
  deriving DecidableEq, Repr

/-- Float, three sources. -/
structure F3 where
  h  : Hdr
  rm : Rnd
  d  : Dst
  a  : Src
  b  : Src
  c  : Src
  deriving DecidableEq, Repr

/-- Two sources and a destination, no modifiers: `FMIN`, `FMAX`, `BCAST`. -/
structure D2 where
  h : Hdr
  d : Dst
  a : Src
  b : Src
  deriving DecidableEq, Repr

/-- One source and a destination, no modifiers. -/
structure D1 where
  h : Hdr
  d : Dst
  a : Src
  deriving DecidableEq, Repr

/-- Packed 16-bit, two sources, rounding (R140): `bf` selects BF16. -/
structure P2 where
  h  : Hdr
  bf : Bool
  rm : Rnd
  d  : Dst
  a  : Src
  b  : Src
  deriving DecidableEq, Repr

/-- Packed 16-bit, three sources. -/
structure P3 where
  h  : Hdr
  bf : Bool
  rm : Rnd
  d  : Dst
  a  : Src
  b  : Src
  c  : Src
  deriving DecidableEq, Repr

/-- Packed minimum and maximum. -/
structure PM where
  h  : Hdr
  bf : Bool
  d  : Dst
  a  : Src
  b  : Src
  deriving DecidableEq, Repr

/-- `FSETP`, `DSETP` (R141). -/
structure FSetp where
  h   : Hdr
  cmp : FCmp
  pd  : BitVec 4
  a   : Src
  b   : Src
  deriving DecidableEq, Repr

/-- `FCLASS` (R142). -/
structure FClass where
  h   : Hdr
  fmt : FFmt
  d   : Dst
  a   : Src
  deriving DecidableEq, Repr

/-- `CVT.F` (R144). -/
structure CvtF where
  h   : Hdr
  src : CvtSrc
  dst : FFmt
  rm  : Rnd
  d   : Dst
  a   : Src
  deriving DecidableEq, Repr

/-- `CVT.I` (R144). -/
structure CvtI where
  h   : Hdr
  src : CvtSrc
  dst : IType
  rm  : Rnd
  d   : Dst
  a   : Src
  deriving DecidableEq, Repr

/-- `CVT.Q` (R145). -/
structure CvtQ where
  h   : Hdr
  fmt : QFmt
  pos : BitVec 3
  d   : Dst
  a   : Src
  b   : Src
  deriving DecidableEq, Repr

/-- `UNPK` (R145). -/
structure Unpk where
  h   : Hdr
  fmt : QFmt
  pos : BitVec 3
  d   : Dst
  a   : Src
  deriving DecidableEq, Repr

/-- `PACK` (R146). -/
structure Pack where
  h   : Hdr
  fmt : PackFmt
  rm  : Rnd
  d   : Dst
  a   : Src
  b   : Src
  deriving DecidableEq, Repr

/-- `PLOP` (R152). -/
structure Plop where
  h  : Hdr
  tt : BitVec 4
  pd : BitVec 4
  pa : BitVec 4
  pb : BitVec 4
  deriving DecidableEq, Repr

/-- `PMOV` (R153). -/
structure PMov where
  h  : Hdr
  op : PMovOp
  deriving DecidableEq, Repr

/-- `SHFL` (R155). -/
structure Shfl where
  h    : Hdr
  mode : ShflMode
  d    : Dst
  a    : Src
  b    : Src
  deriving DecidableEq, Repr

/-- `REDW` and `SCANW` (R156); `excl` is `SCANW`'s. -/
structure WRed where
  h    : Hdr
  op   : WaveOp
  excl : Bool
  d    : Dst
  a    : Src
  deriving DecidableEq, Repr

/-- `XCHG` (R154): the key scalar `b` keeps its marks. -/
structure Xchg where
  h : Hdr
  g : BitVec 4
  d : BitVec 8
  m : Mirror
  a : Src
  b : Src
  deriving DecidableEq, Repr

/-- `FEMARK` (R160). -/
structure Femark where
  h    : Hdr
  st   : RegState
  pair : Bool
  d    : RegName
  deriving DecidableEq, Repr

/-- `FETEST` (R161). -/
structure Fetest where
  h  : Hdr
  st : RegState
  pd : BitVec 4
  a  : Src
  deriving DecidableEq, Repr

/-- `OCLD` (R162). -/
structure Ocld where
  h : Hdr
  k : BitVec 3
  a : Src
  deriving DecidableEq, Repr

/-- A scalar instruction of one source (R147). -/
structure S1 where
  h : Hdr
  d : BitVec 7
  a : Src
  deriving DecidableEq, Repr

/-- A scalar instruction of two sources. -/
structure S2 where
  h : Hdr
  d : BitVec 7
  a : Src
  b : Src
  deriving DecidableEq, Repr

/-- `SMOVI` (`flag` is `.z`). -/
structure S1F where
  h    : Hdr
  flag : Bool
  d    : BitVec 7
  a    : Src
  deriving DecidableEq, Repr

/-- `SSHR` (`flag` is `.a`). -/
structure S2F where
  h    : Hdr
  flag : Bool
  d    : BitVec 7
  a    : Src
  b    : Src
  deriving DecidableEq, Repr

/-- `SSETP`. -/
structure SSetp where
  h   : Hdr
  cmp : ICmp
  z64 : Bool
  pd  : BitVec 4
  a   : Src
  b   : Src
  deriving DecidableEq, Repr

/-- `RDS` (R148): special register number `n`. -/
structure Rds where
  h : Hdr
  d : Dst
  n : BitVec 8
  deriving DecidableEq, Repr

/-- `WRS` (R149). -/
structure Wrs where
  h : Hdr
  n : BitVec 8
  a : Src
  deriving DecidableEq, Repr

/-- `MXSTEP` (R179): accumulator base 0 or 4 as `hi`. -/
structure MxStep where
  h  : Hdr
  hi : Bool
  ta : BitVec 4
  tb : BitVec 4
  k  : Bool
  sc : Option Src
  deriving DecidableEq, Repr

/-- `MXLOOP` (R179). -/
structure MxLoop where
  h  : Hdr
  hi : Bool
  a  : Src
  b  : Src
  sc : Option Src
  deriving DecidableEq, Repr

/-- `AZERO` (R179): accumulators `d` to `d + m`, where `m` is the field [58:56]. -/
structure AZero where
  h : Hdr
  d : BitVec 3
  m : BitVec 3
  deriving DecidableEq, Repr

/-- `AMOV` (R179). -/
inductive AMovOp where
  | fromAcc (d : BitVec 8) (m : Mirror) (acc : BitVec 3)
  | intoAcc (acc : BitVec 3) (a : Src)
  deriving DecidableEq, Repr

/-- `AMOV` with its part. -/
structure AMov where
  h    : Hdr
  part : BitVec 4
  op   : AMovOp
  deriving DecidableEq, Repr

/-- `TMOV` (R179). -/
inductive TMovOp where
  | fromTile (d : BitVec 8) (m : Mirror) (t : BitVec 4)
  | intoTile (t : BitVec 4) (a : Src)
  deriving DecidableEq, Repr

/-- `TMOV` with its part. -/
structure TMov where
  h    : Hdr
  part : BitVec 3
  op   : TMovOp
  deriving DecidableEq, Repr

/-- `ADRAIN` (R179): `tq` holds source C of the `.t` form. -/
structure ADrain where
  h    : Hdr
  fmt  : DrainFmt
  acc  : BitVec 3
  base : Src
  off  : Src
  tq   : Option Src
  deriving DecidableEq, Repr

/-- One tile. -/
structure Tile1 where
  h : Hdr
  t : BitVec 4
  deriving DecidableEq, Repr

/-- `BPPACK`, `BPUNPK`. -/
structure VV where
  h : Hdr
  d : BitVec 8
  m : Mirror
  a : Src
  deriving DecidableEq, Repr

/-- `PROPOSE` (R208): window size code 0-2. -/
structure Propose where
  h    : Hdr
  base : BitVec 8
  size : BitVec 2
  deriving DecidableEq, Repr

/-- `ACCEPT`. -/
structure Accept where
  h  : Hdr
  pd : BitVec 4
  a  : Src
  deriving DecidableEq, Repr

/-- `RNG`. -/
structure Rng where
  h   : Hdr
  f32 : Bool
  d   : BitVec 8
  m   : Mirror
  deriving DecidableEq, Repr

/-- `LD` (R242, R243). -/
structure Ld where
  h    : Hdr
  sz   : Size
  conv : Conv
  i64  : Bool
  d    : BitVec 8
  r    : BitVec 7
  rm   : Bool × Bool
  idx  : Src
  off  : BitVec 32
  mf   : MemF
  deriving DecidableEq, Repr

/-- `ST`. -/
structure St where
  h    : Hdr
  sz   : Size
  conv : Conv
  i64  : Bool
  r    : BitVec 7
  rm   : Bool × Bool
  idx  : Src
  data : Src
  off  : BitVec 32
  mf   : MemF
  deriving DecidableEq, Repr

/-- `LDS`. -/
structure Lds where
  h    : Hdr
  sz   : Size
  conv : Conv
  d    : BitVec 8
  a    : Src
  off  : BitVec 32
  deriving DecidableEq, Repr

/-- `STS`. -/
structure Sts where
  h    : Hdr
  sz   : Size
  conv : Conv
  a    : Src
  b    : Src
  off  : BitVec 32
  deriving DecidableEq, Repr

/-- `LDSC`: `m` codes 1, 2, 4, 8 scalars. -/
structure Ldsc where
  h   : Hdr
  m   : BitVec 2
  d   : BitVec 7
  r   : BitVec 7
  rm  : Bool × Bool
  idx : Src
  off : BitVec 32
  mf  : MemF
  deriving DecidableEq, Repr

/-- `LDT`, `LDTT`, `STT`. -/
structure TileMem where
  h  : Hdr
  sw : Bool
  t  : BitVec 4
  a  : Src
  deriving DecidableEq, Repr

/-- `PF`, `CINV`, `CWB`, `UNPARK`: a byte range through a record; `lvl` is modifier bit [56]. -/
structure Range where
  h   : Hdr
  lvl : Bool
  r   : BitVec 7
  rm  : Bool × Bool
  idx : Src
  len : Src
  off : BitVec 32
  deriving DecidableEq, Repr

/-- `IPF`, `IPIN`, `IUNPIN`. -/
structure CodeRange where
  h   : Hdr
  lvl : Bool
  a   : Src
  b   : Src
  deriving DecidableEq, Repr

/-- `BRSET`, with its quad. -/
structure BrSet where
  h  : Hdr
  a  : Src
  q  : BitVec 7
  qm : Bool × Bool
  deriving DecidableEq, Repr

/-- `PARKQ`. -/
structure ParkQ where
  h   : Hdr
  d   : BitVec 7
  r   : BitVec 7
  rm  : Bool × Bool
  idx : Src
  off : BitVec 32
  deriving DecidableEq, Repr

/-- The addressing part shared by the global atomics (R294). -/
structure AtomAddr where
  i64  : Bool
  r    : BitVec 7
  rm   : Bool × Bool
  idx  : Src
  data : Src
  off  : BitVec 32
  mf   : MemF
  deriving DecidableEq, Repr

/-- `ATOM.I`. -/
structure AtomI where
  h  : Hdr
  op : AtomOp
  t  : IType
  d  : BitVec 8
  ad : AtomAddr
  deriving DecidableEq, Repr

/-- `ATOM.F` (`wide` is FP64) and `ATOM.X2` (`wide` is BF16). -/
structure AtomF where
  h    : Hdr
  op   : FAtomOp
  fmt1 : Bool
  d    : BitVec 8
  ad   : AtomAddr
  deriving DecidableEq, Repr

/-- `ATOM.CAS`. -/
structure AtomCas where
  h  : Hdr
  w  : CasW
  d  : BitVec 8
  ad : AtomAddr
  deriving DecidableEq, Repr

/-- `RED`. -/
structure Red where
  h  : Hdr
  op : RedOp
  ad : AtomAddr
  deriving DecidableEq, Repr

/-- `ATOMS`: `c` is source C of `.cas`. -/
structure Atoms where
  h   : Hdr
  op  : LAtomOp
  d   : BitVec 8
  a   : Src
  b   : Src
  c   : Option Src
  off : BitVec 32
  deriving DecidableEq, Repr

/-- `FENCE`. -/
structure Fence where
  h     : Hdr
  scope : Scope
  kind  : FenceKind
  deriving DecidableEq, Repr

/-- `BARA`: `tx` is source B of the `.tx` form. -/
structure Bara where
  h  : Hdr
  d  : BitVec 7
  a  : Src
  tx : Option Src
  deriving DecidableEq, Repr

/-- `CPY`. -/
structure Cpy where
  h     : Hdr
  scope : Scope
  d     : BitVec 7
  a     : Src
  b     : Src
  deriving DecidableEq, Repr

/-- `TLWAIT`, `TLADV`. -/
structure TlOp where
  h     : Hdr
  scope : Scope
  a     : Src
  b     : Src
  deriving DecidableEq, Repr

/-- `SPAWN`. -/
structure Spawn where
  h  : Hdr
  d  : BitVec 7
  r  : BitVec 7
  rm : Bool × Bool
  deriving DecidableEq, Repr

/-- `QPUSH`: `nb` holds the predicate of the `.nb` form. -/
structure QPush where
  h  : Hdr
  q  : BitVec 2
  a  : Src
  nb : Option (BitVec 4)
  deriving DecidableEq, Repr

/-- `QPOP`. -/
structure QPop where
  h    : Hdr
  d    : BitVec 8
  q    : BitVec 2
  empt : Bool
  nb   : Option (BitVec 4)
  deriving DecidableEq, Repr

/-- `QCNT`. -/
structure QCnt where
  h : Hdr
  d : BitVec 7
  q : BitVec 2
  deriving DecidableEq, Repr

/-- `RETH`. -/
structure Reth where
  h : Hdr
  m : RethMode
  deriving DecidableEq, Repr

/-- `RDTR`: the selector is an immediate source. -/
structure Rdtr where
  h   : Hdr
  d   : BitVec 8
  m   : Mirror
  sel : Src
  deriving DecidableEq, Repr

/-! Events. -/

/-- A fragment: its wave's identifier and its split-table entry. -/
structure FragRef where
  wave  : Nat
  entry : Nat
  deriving DecidableEq, Repr

/-- The causes a fetch or decode can raise for a word that names no operation (R66, R76). -/
inductive FetchFail where
  | pcWrap | fetchBounds | dataError | illegalLength | blockCrossing | nullOpcode | unimplemented
  | illegalOperand | reservedField | addressMap
  deriving DecidableEq, Repr

/-- Operand words 1-6 of a Sextant command descriptor (R431). -/
structure SxOps where
  w1 : BitVec 64
  w2 : BitVec 64
  w3 : BitVec 64
  w4 : BitVec 64
  w5 : BitVec 64
  w6 : BitVec 64
  deriving DecidableEq, Repr

/-- The operations of an AtomicOp over PCI Express (R411, R412). -/
inductive HostAtom where
  | fetchAdd (w64 : Bool) (x : BitVec 64)
  | swap (w64 : Bool) (x : BitVec 64)
  | cas (n : CasW) (cmp new : BitVec 128)
  deriving DecidableEq, Repr

/-- What a peer asks of this device's DRAM (R333). -/
inductive PeerOp where
  | read (n : Nat)
  | write (bs : List Byte)
  | atom (op : HostAtom)
  deriving DecidableEq, Repr

/-- The answer of an ATS Translation Completion: a mapping with its size as a power of two and its permissions, or none. -/
inductive AtsAnswer where
  | mapped (pa : Nat) (log2size : Nat) (rd wr : Bool)
  | absent
  deriving DecidableEq, Repr

/-- A PRI page group response (R413): success, or the response code of an invalid request or a response failure. -/
inductive PriAnswer where
  | success
  | invalid (code : BitVec 4)
  | failure (code : BitVec 4)
  deriving DecidableEq, Repr

/-- The memories of R211 that keep error counts, in that table's order (R431). -/
inductive ErrMem where
  | localMem | swapReserve | l1 | icache | l2 | chart | dram | shadow | sealList | remote
  deriving DecidableEq, Repr

/-- Where an uncorrectable error strikes (R239, R240, R392). -/
inductive ErrSite where
  | coreLogic (core : Nat)
  | localPage (team : Nat)
  | swapped (wave : Nat)
  | shadow (core : Nat)
  | sector (pa : Nat)
  | l1Sector (core : Nat) (pa : Nat)
  deriving DecidableEq, Repr

/-- One sensor reading (R434). -/
structure Reading where
  value : BitVec 16
  site  : BitVec 8
  kind  : BitVec 8
  deriving DecidableEq, Repr

/-- Ageing of one die (R439): eight monitors and the life estimate. -/
structure DieAge where
  mon  : List (BitVec 16)
  life : BitVec 32
  deriving DecidableEq, Repr

/-- What the Sextant finds at a cold reset: whether each firmware slot verifies (R433). -/
structure RomCheck where
  slot0 : Bool
  slot1 : Bool
  deriving DecidableEq, Repr

/-- The instructions and the events of the device: one constructor for each row of the table. -/
inductive Instr where
  | nop (x : H0)
  | bra (x : HOff)
  | brx (x : HA)
  | call (x : HCall)
  | callx (x : HCallX)
  | ret (x : HA)
  | hinge (x : HCode)
  | wpt (x : H0)
  | endFrag (x : H0)
  | yield (x : H0)
  | yieldEnd (f : FragRef)
  | sleep (x : HA)
  | sleepEnd (f : FragRef)
  | vote (x : HVote)
  | brkpt (x : HCode)
  | mov (x : I1)
  | movi (x : I1)
  | iadd (x : I2)
  | iaddc (x : ICarry)
  | isub (x : I2)
  | imul (x : I2)
  | imulh (x : I2)
  | imad (x : I3)
  | iabs (x : I1)
  | ineg (x : I1)
  | imin (x : I2)
  | imax (x : I2)
  | and (x : I2)
  | or (x : I2)
  | xor (x : I2)
  | not (x : I1)
  | shl (x : I2)
  | shr (x : I2)
  | sar (x : I2)
  | rot (x : I2)
  | bfe (x : I2)
  | bfi (x : I3)
  | popc (x : I1)
  | clz (x : I1)
  | brev (x : I1)
  | lea (x : ILea)
  | sel (x : ISel)
  | isetp (x : ISetp)
  | fadd (x : F2)
  | fmul (x : F2)
  | ffma (x : F3)
  | fmin (x : D2)
  | fmax (x : D2)
  | fsetp (x : FSetp)
  | fclass (x : FClass)
  | frcp (x : F1)
  | frsq (x : F1)
  | fsqrt (x : F1)
  | fex2 (x : F1)
  | flg2 (x : F1)
  | fsin (x : F1)
  | fcos (x : F1)
  | frnd (x : F1)
  | hadd2 (x : P2)
  | hmul2 (x : P2)
  | hfma2 (x : P3)
  | hmin2 (x : PM)
  | hmax2 (x : PM)
  | dadd (x : F2)
  | dmul (x : F2)
  | dfma (x : F3)
  | dsetp (x : FSetp)
  | cvtF (x : CvtF)
  | cvtI (x : CvtI)
  | cvtQ (x : CvtQ)
  | pack (x : Pack)
  | unpk (x : Unpk)
  | plop (x : Plop)
  | pmov (x : PMov)
  | shfl (x : Shfl)
  | bcast (x : D2)
  | redw (x : WRed)
  | scanw (x : WRed)
  | xchg (x : Xchg)
  | xchgArrival (id : Nat)
  | xchgWithdrawal (id : Nat)
  | femark (x : Femark)
  | fetest (x : Fetest)
  | ocld (x : Ocld)
  | smov (x : S1)
  | smovi (x : S1F)
  | sadd (x : S2)
  | ssub (x : S2)
  | smul (x : S2)
  | sand (x : S2)
  | sor (x : S2)
  | sxor (x : S2)
  | sshl (x : S2)
  | sshr (x : S2F)
  | ssetp (x : SSetp)
  | rds (x : Rds)
  | wrs (x : Wrs)
  | setfmt (x : HA)
  | setmode (x : HA)
  | mxbind (x : HA)
  | mxbindRel (x : H0)
  | mxstep (x : MxStep)
  | mxloop (x : MxLoop)
  | mxwait (x : H0)
  | azero (x : AZero)
  | amov (x : AMov)
  | adrain (x : ADrain)
  | adrainCompletion (wave : Nat)
  | tzero (x : Tile1)
  | tmov (x : TMov)
  | bppack (x : VV)
  | bpunpk (x : VV)
  | matrixStepStart (team first : Nat)
  | matrixStepCompletion (team first : Nat)
  | accumulatorEffect (wave : Nat)
  | propose (x : Propose)
  | accept (x : Accept)
  | reject (x : H0)
  | rngkey (x : HAB)
  | rng (x : Rng)
  | rngctr (x : HA)
  | ld (x : Ld)
  | st (x : St)
  | lds (x : Lds)
  | sts (x : Sts)
  | ldsc (x : Ldsc)
  | ldt (x : TileMem)
  | ldtt (x : TileMem)
  | stt (x : TileMem)
  | tileFillCompletion (wave tile : Nat)
  | pf (x : Range)
  | ipf (x : CodeRange)
  | ipin (x : CodeRange)
  | iunpin (x : CodeRange)
  | seal (x : HAB)
  | unseal (x : HAB)
  | cinv (x : Range)
  | cwb (x : Range)
  | brset (x : BrSet)
  | bradd (x : HAB)
  | brdel (x : HAB)
  | brrd (x : S1)
  | unpark (x : Range)
  | parkq (x : ParkQ)
  | atomI (x : AtomI)
  | atomF (x : AtomF)
  | atomCas (x : AtomCas)
  | atomX2 (x : AtomF)
  | red (x : Red)
  | atoms (x : Atoms)
  | fence (x : Fence)
  | bar (x : H0)
  | bara (x : Bara)
  | barw (x : HAB)
  | gbar (x : H0)
  | gridBarrierTeamMessage (team : Nat)
  | gridBarrierDieMessage (launch die : Nat)
  | gridBarrierRelease (launch die : Nat)
  | cpy (x : Cpy)
  | copyStart (core : Nat)
  | copyLocalWrite (id : Nat)
  | copyRetirement (id : Nat)
  | tlwait (x : TlOp)
  | spawn (x : Spawn)
  | qpush (x : QPush)
  | qpop (x : QPop)
  | qcnt (x : QCnt)
  | trap (x : HCode)
  | reth (x : Reth)
  | rdtr (x : Rdtr)
  | term (x : H0)
  | termTeam (x : H0)
  | cntrd (x : S1)
  | cntclr (x : HA)
  | tladv (x : TlOp)
  | memoryReply (id : Nat)
  | sliceRequest (id : Nat)
  | launchIntake (part : Nat)
  | teamPlacement (part : Nat)
  | swapReturn (wave : Nat)
  | dispatchHold (part : Nat)
  | quantumTick (part : Nat)
  | doorbell (part queue : Nat)
  | vacate (part : Nat) (mask : BitVec 64)
  | vacateComplete (part : Nat)
  | drain (part : Nat) (v : BitVec 64)
  | watchdogExpiry (part : Nat)
  | eventSize (part : Nat) (v : BitVec 64)
  | eventReadIndex (part : Nat) (v : BitVec 64)
  | switchAborts (part : Nat) (v : BitVec 64)
  | eventsLost (part : Nat) (v : BitVec 64)
  | descriptor (part queue : Nat) (v : BitVec 64)
  | registerWrite (bar2 : Bool) (off : Nat) (v : BitVec 64)
  | createContext (c : SxOps)
  | destroyContext (c : SxOps)
  | load (c : SxOps)
  | unload (c : SxOps)
  | writePartitionEntry (c : SxOps)
  | writePeerRoute (c : SxOps)
  | deviceConfiguration (c : SxOps)
  | readSensors (c : SxOps)
  | readEventLog (c : SxOps)
  | readAndClearErrorCounts (c : SxOps)
  | readAgeing (c : SxOps)
  | setPowerState (c : SxOps)
  | firmwareUpdate (c : SxOps)
  | attest (c : SxOps)
  | coldReset (rom : RomCheck)
  | functionLevelReset
  | thermalTrip
  | sensorRefresh (rs : List Reading)
  | ageingUpdate (as : List DieAge)
  | patrol (die : Nat) (mem : ErrMem) (pa : Nat)
  | correctedError (die : Nat) (mem : ErrMem) (pa : Nat)
  | uncorrectableError (site : ErrSite)
  | hostRead (pa n : Nat)
  | hostWrite (pa : Nat) (bs : List Byte)
  | hostAtomicop (pa : Nat) (op : HostAtom)
  | translationCompletion (id : Nat) (ans : AtsAnswer)
  | pageResponse (pasid page : Nat) (ans : PriAnswer)
  | invalidationRequest (tag : Nat) (pasid : Option Nat) (va : Nat) (log2size : Nat)
  | invalidationCompletion (tag : Nat)
  | peerRequest (peer pa : Nat) (op : PeerOp)
  | linkLoss (port : Nat)
  | timeSliceTick (part : Nat)
  | dieHalted (part die : Nat)
  | exchangeEnd (part die : Nat)
  | switchAbort (part : Nat)
  | unimplementedOpcode (why : FetchFail)
  | unknownOpcode
  | priEnable
  deriving DecidableEq, Repr

end Sys2Proof
end

