-- ==== Sys2Proof/Decode.lean ====
section
/-! DEFINITION. The decoders of K3, K2 and K1 words (R47 to R77), total on any bits, and the K3 encoder. A word that names no
instruction is refused with the name of the check that fails first, in the order of R66 (checks 3 to 8). -/

namespace Sys2Proof

/-- Bits [lo + len - 1 : lo] of a word. -/
def fld {n : Nat} (lo len : Nat) (w : BitVec n) : BitVec len := w.extractLsb' lo len

/-- One bit of a word. -/
def flag {n : Nat} (i : Nat) (w : BitVec n) : Bool := w.getLsbD i

/-- What the decode checks read of the fragment's surroundings: the decode mode (R68), the role's budgets (R80), handler mode
(R385), whether the wave is a bound quad member (R81), and the PC's place in its fetch block (R49). -/
structure Env where
  mode    : DecodeMode
  vN      : Nat
  sN      : Nat
  tN      : Nat
  handler : Bool
  bound   : Bool
  pcMod32 : Nat
  deriving DecidableEq, Repr

/-- The largest budgets: every register can be named (R79). -/
def Env.max : Env :=
  { mode := .k3, vN := 256, sN := 128, tN := 16, handler := false, bound := true, pcMod32 := 0 }

/-- One operand field (R12, R60): the code [9:0] and bits [11] and [10]. -/
structure Fld where
  code : BitVec 10
  m1   : Bool
  m0   : Bool
  deriving DecidableEq, Repr

/-- The fields of an instruction after its format is taken apart: K3 fields (R53, R54), into which the legacy formats are
carried (R69). `bad` is a nonzero reserved bit of the format. -/
structure Raw where
  op   : BitVec 10
  form : Form
  gneg : Bool
  gp   : BitVec 4
  d    : Fld
  a    : Fld
  b    : Fld
  c    : Fld
  slot : BitVec 3
  mods : BitVec 8
  wide : BitVec 32
  mem  : BitVec 20
  bad  : Bool
  deriving DecidableEq, Repr

/-- The zero field. -/
def Fld.zero : Fld := { code := 0, m1 := false, m0 := false }

/-- A 12-bit K3 operand field. -/
def Fld.of12 (x : BitVec 12) : Fld := { code := fld 0 10 x, m1 := flag 11 x, m0 := flag 10 x }

/-- The 12 bits of a field. -/
def Fld.to12 (f : Fld) : BitVec 12 :=
  BitVec.ofBool f.m1 ++ BitVec.ofBool f.m0 ++ f.code

/-- The length code of bits [1:0], none for `11` (R47). -/
def formOf (x : BitVec 2) : Option Form :=
  if x = 0 then some .f64 else if x = 1 then some .f96 else if x = 2 then some .f128 else none

/-- The PC step of a form (R47). -/
def Form.step : Form → Nat
  | .f64 => 8
  | .f96 => 16
  | .f128 => 16

/-- The fields of a K3 word (R53, R54). Bits beyond the form are not looked at. -/
def rawK3 (form : Form) (w : BitVec 128) : Raw :=
  { op := fld 2 10 w, form := form, gneg := flag 16 w, gp := fld 12 4 w
    d := .of12 (fld 17 12 w), a := .of12 (fld 29 12 w), b := .of12 (fld 41 12 w)
    c := if form = .f64 then .zero else .of12 (fld 64 12 w)
    slot := fld 53 3 w, mods := fld 56 8 w
    wide := match form with
      | .f64 => 0
      | .f96 => (fld 76 20 w).signExtend 32
      | .f128 => fld 76 32 w
    mem := if form = .f128 then fld 108 20 w else 0
    bad := false }

/-- A K2 operand code as a K3 field: codes K2 does not name become a reserved code (R71). -/
def Fld.ofK2 (x : BitVec 10) : Fld :=
  { code := if (0x180 ≤ x.toNat ∧ x.toNat < 0x200) ∨ 0x300 ≤ x.toNat then 0x3FF else x, m1 := false, m0 := false }

/-- The K3 opcode of a K2 opcode (R72); none where K2 names no operation. -/
def k2Op (x : BitVec 9) : Option (BitVec 10) :=
  let n := x.toNat
  let row (lo hi base : Nat) (k : Option (BitVec 10)) : Option (BitVec 10) :=
    if lo ≤ n ∧ n ≤ hi then some (BitVec.ofNat 10 (base + (n - lo))) else k
  row 0x000 0x007 0x000 <| row 0x008 0x00C 0x009 <| row 0x010 0x02B 0x040 <| row 0x030 0x03E 0x080 <|
  row 0x040 0x044 0x08F <| row 0x048 0x04B 0x094 <| row 0x050 0x054 0x0C0 <| row 0x058 0x064 0x100 <|
  row 0x065 0x065 0x10E <| row 0x068 0x069 0x0C8 <| row 0x06C 0x06F 0x0D0 <| row 0x070 0x074 0x180 <|
  row 0x075 0x075 0x188 <| row 0x076 0x077 0x18E <| row 0x078 0x07A 0x1A0 <| row 0x07B 0x07C 0x1A4 <|
  row 0x080 0x083 0x1C0 <| row 0x084 0x087 0x1D0 <| row 0x088 0x088 0x1D8 none

/-- The fields of a K2 word (R70). The memory fields take their K3 places, with bearing select and index 0 (R69). -/
def rawK2 (form : Form) (op : BitVec 10) (w : BitVec 128) : Raw :=
  let long := form ≠ .f64
  { op := op, form := form, gneg := flag 15 w, gp := fld 11 4 w
    d := .ofK2 (fld 16 10 w), a := .ofK2 (fld 26 10 w), b := .ofK2 (fld 36 10 w)
    c := if long then .ofK2 (fld 64 10 w) else .zero
    slot := 0, mods := fld 46 8 w
    wide := match form with
      | .f64 => 0
      | .f96 => (fld 76 20 w).signExtend 32
      | .f128 => fld 76 32 w
    mem := if form = .f128 then
        (0 : BitVec 4) ++ fld 114 2 w ++ fld 111 3 w ++ fld 108 3 w ++ (0 : BitVec 8) else 0
    bad := (fld 54 10 w ≠ 0) || (long && (fld 74 2 w ≠ 0)) || (decide (form = .f128) && (fld 116 12 w ≠ 0)) }

/-- A K1 operand code as a K3 field; `0x1FF`, which names the wide operand, becomes `0x200` (R74). -/
def Fld.ofK1 (x : BitVec 9) : Fld :=
  { code := if x.toNat < 0x140 then x.setWidth 10 else if x = 0x1FF then 0x200 else 0x3FF, m1 := false, m0 := false }

/-- The K3 opcode and modifiers of a K1 opcode (R75); none where K1 names no operation. -/
def k1Op (x : BitVec 8) : Option (BitVec 10 × BitVec 8) :=
  match x.toNat with
  | 0x00 => some (0x000, 0)
  | 0x01 => some (0x001, 0) | 0x02 => some (0x002, 0) | 0x03 => some (0x003, 0) | 0x04 => some (0x004, 0)
  | 0x05 => some (0x006, 0) | 0x06 => some (0x007, 0) | 0x07 => some (0x009, 0) | 0x08 => some (0x00A, 0)
  | 0x09 => some (0x00B, 0) | 0x0A => some (0x00D, 0)
  | 0x10 => some (0x040, 0) | 0x11 => some (0x042, 0) | 0x12 => some (0x044, 0) | 0x13 => some (0x045, 0)
  | 0x14 => some (0x046, 0) | 0x15 => some (0x047, 0) | 0x16 => some (0x04C, 0) | 0x17 => some (0x04D, 0)
  | 0x18 => some (0x04E, 0) | 0x19 => some (0x04F, 0) | 0x1A => some (0x050, 0) | 0x1B => some (0x051, 0)
  | 0x1C => some (0x052, 0) | 0x1D => some (0x05A, 0) | 0x1E => some (0x04A, 0) | 0x1F => some (0x04B, 0)
  | 0x20 => some (0x05B, 0x00) | 0x21 => some (0x05B, 0x20) | 0x22 => some (0x05B, 0x40)
  | 0x23 => some (0x05B, 0x60) | 0x24 => some (0x05B, 0x80) | 0x25 => some (0x05B, 0xA0)
  | 0x28 => some (0x080, 0) | 0x29 => some (0x081, 0) | 0x2A => some (0x082, 0) | 0x2B => some (0x083, 0)
  | 0x2C => some (0x084, 0) | 0x2D => some (0x087, 0) | 0x2E => some (0x088, 0) | 0x2F => some (0x089, 0)
  | 0x30 => some (0x085, 0x00) | 0x31 => some (0x085, 0x10) | 0x32 => some (0x085, 0x20)
  | 0x33 => some (0x085, 0x30) | 0x34 => some (0x085, 0x40) | 0x35 => some (0x085, 0x50)
  | 0x38 => some (0x094, 0) | 0x39 => some (0x095, 0) | 0x3A => some (0x096, 0)
  | 0x40 => some (0x0C0, 0x88)
  | 0x41 => some (0x0C1, 0x20)
  | 0x48 => some (0x100, 0) | 0x49 => some (0x102, 0) | 0x4A => some (0x10B, 0)
  | 0x50 => some (0x180, 0x02) | 0x51 => some (0x181, 0x02) | 0x52 => some (0x182, 0x02) | 0x53 => some (0x183, 0x02)
  | 0x58 => some (0x1A0, 0) | 0x59 => some (0x1A2, 0)
  | 0x60 => some (0x1C1, 0)
  | 0x61 => some (0x1C0, 0x17)
  | 0x68 => some (0x1D0, 0) | 0x69 => some (0x1D1, 0)
  | _ => none

/-- The K1 predicate index of a code, none outside 0 to 7 (R73, R74). -/
def k1Pred (x : BitVec 10) : Option (BitVec 4) :=
  if x.toNat < 7 then some (x.setWidth 4) else if x = 7 then some 15 else none

/-- The fields of a K1 word (R73). -/
def rawK1 (op : BitVec 10) (mods : BitVec 8) (w : BitVec 128) : Raw :=
  { op := op, form := .f64, gneg := flag 11 w
    gp := if fld 8 3 w = (7 : BitVec 3) then 15 else (fld 8 3 w).setWidth 4
    d := .ofK1 (fld 12 9 w), a := .ofK1 (fld 21 9 w), b := .ofK1 (fld 30 9 w), c := .ofK1 (fld 39 9 w)
    slot := 0, mods := mods, wide := (fld 48 16 w).signExtend 32, mem := 0, bad := false }

/-- The guard of a word: whether it is inverted, and its predicate (R53, R59, R70, R73). -/
def guardOf (m : DecodeMode) (w : BitVec 128) : Bool × BitVec 4 := match m with
  | .k3 => (flag 16 w, fld 12 4 w)
  | .k2 => (flag 15 w, fld 11 4 w)
  | .k1 => ((rawK1 0 0 w).gneg, (rawK1 0 0 w).gp)

/-! ### Positions -/

/-- The outcome of a decode check. -/
abbrev Dec := Except FetchFail

/-- An illegal-operand trap (check 7) unless the condition holds. -/
def legal (b : Bool) : Dec Unit := if b then .ok () else .error .illegalOperand

/-- Whether a field can be read in some way. -/
def reads {α : Type} (x : Dec α) : Bool := match x with
  | .ok _ => true
  | .error _ => false

/-- A reserved-field trap (check 8) unless the condition holds. -/
def clear (b : Bool) : Dec Unit := if b then .ok () else .error .reservedField

/-- An illegal-length trap (check 3) unless the condition holds. -/
def length (b : Bool) : Dec Unit := if b then .ok () else .error .illegalLength

/-- The operand, or the illegal-operand trap. -/
def legalOr {α : Type} (o : Option α) : Dec α :=
  match o with
  | some x => .ok x
  | none => .error .illegalOperand

/-- The value, or the reserved-field trap. -/
def clearOr {α : Type} (o : Option α) : Dec α :=
  match o with
  | some x => .ok x
  | none => .error .reservedField

/-- Whether scalar `n` may be named: below the budget, or a handler scalar in handler mode (R80, R385). -/
def Env.sOk (e : Env) (n : Nat) : Bool := decide (n < e.sN) || (e.handler && decide (120 ≤ n))

/-- Which of sources A, B, C (0, 1, 2) takes the wide operand of an immediate role (R55); 3 for none. -/
def Raw.wideAt (e : Env) (r : Raw) : Nat :=
  if e.mode ≠ .k1 ∧ r.form = .f64 then 3
  else if r.a.code = 0x200 then 0
  else if r.b.code = 0x200 then 1
  else if r.c.code = 0x200 then 2
  else 3

/-- A field read as a source (R60, R61, R74). `takesWide` says that this field's `0x200` is the wide operand. -/
def Fld.src (e : Env) (takesWide : Bool) (wide : BitVec 32) (f : Fld) : Option Src :=
  let n := f.code.toNat
  let plain := !f.m1 && !f.m0
  if n < 0x100 then
    if n < e.vN then some (.v (f.code.setWidth 8) f.m1 f.m0) else none
  else if n < 0x180 then
    if e.sOk (n - 0x100) then some (.s (f.code.setWidth 7) f.m1 f.m0) else none
  else if n < 0x188 then
    if plain then some (.o (f.code.setWidth 3)) else none
  else if n = 0x188 then
    if plain then some .la else none
  else if n = 0x189 then
    if plain then some .lb else none
  else if n = 0x18A then
    if plain then some .zero else none
  else if 0x18C ≤ n ∧ n < 0x190 then
    if f.m1 then none else some (.q (f.code.setWidth 2) f.m0)
  else if 0x200 ≤ n ∧ n < 0x300 then
    if !plain then none
    else if n = 0x200 ∧ takesWide then some (.wide wide)
    else some (.imm (f.code.setWidth 8))
  else none

/-- Source position `i` (0 A, 1 B, 2 C). `imm` says that the wide operand's role is an immediate source; in K1 code every
`0x1FF` is the wide operand there, and is illegal where it is not (R74). -/
def Raw.srcAt (e : Env) (r : Raw) (imm : Bool) (i : Nat) : Dec Src :=
  let f := if i = 0 then r.a else if i = 1 then r.b else r.c
  if e.mode = .k1 then
    if f.code = 0x200 ∧ !imm then .error .illegalOperand else legalOr (f.src e true r.wide)
  else legalOr (f.src e (imm && decide (r.wideAt e = i)) r.wide)

/-- Whether a source names a role queue. -/
def Src.isQ : Src → Bool
  | .q _ _ => true
  | _ => false

/-- Whether a destination names a role queue. -/
def Dst.isQ : Dst → Bool
  | .q _ => true
  | _ => false

/-- A source at width 32 or 64: at 64 a vector must be even, and slots, latches and queues are not permitted (R119). -/
def Src.okW (w64 : Bool) : Src → Bool
  | .v n _ _ => !w64 || decide (n.toNat % 2 = 0)
  | .o _ => !w64
  | .la => !w64
  | .lb => !w64
  | .q _ _ => !w64
  | _ => true

/-- A scalar or immediate (R147). -/
def Src.isSI : Src → Bool
  | .s _ _ _ => true
  | .zero => true
  | .imm _ => true
  | .wide _ => true
  | _ => false

/-- An immediate. -/
def Src.isImm : Src → Bool
  | .zero => true
  | .imm _ => true
  | .wide _ => true
  | _ => false

/-- A scalar register. -/
def Src.isS : Src → Bool
  | .s _ _ _ => true
  | _ => false

/-- A vector register. -/
def Src.isV : Src → Bool
  | .v _ _ _ => true
  | _ => false

/-- Whether a source takes the wide operand. -/
def Src.isWide : Src → Bool
  | .wide _ => true
  | _ => false

/-- A general source at width `w64`. -/
def Raw.srcW (e : Env) (r : Raw) (imm w64 : Bool) (i : Nat) : Dec Src := do
  let x ← r.srcAt e imm i
  legal (x.okW w64)
  return x

/-- A source of a class. -/
def Raw.srcP (e : Env) (r : Raw) (imm : Bool) (i : Nat) (p : Src → Bool) : Dec Src := do
  let x ← r.srcAt e imm i
  legal (p x)
  return x

/-- The mirror of a destination field (R12, R63). -/
def Raw.mirror (r : Raw) : Mirror :=
  if r.d.m1 then (if r.d.m0 then .o r.slot else .lb) else (if r.d.m0 then .la else .none)

/-- The destination field (R61, R120): at 64 bits an even vector without mirror. `scalarOk` permits a scalar. -/
def Raw.dst (e : Env) (r : Raw) (w64 scalarOk : Bool) : Dec Dst :=
  let n := r.d.code.toNat
  let plain := !r.d.m1 && !r.d.m0
  if n < 0x100 then
    if n < e.vN ∧ (!w64 || (plain && decide (n % 2 = 0))) then .ok (.v (r.d.code.setWidth 8) r.mirror)
    else .error .illegalOperand
  else if !plain then .error .illegalOperand
  else if n < 0x180 then
    if scalarOk && e.sOk (n - 0x100) then .ok (.s (r.d.code.setWidth 7)) else .error .illegalOperand
  else if w64 then .error .illegalOperand
  else if n < 0x188 then .ok (.o (r.d.code.setWidth 3))
  else if n = 0x188 then .ok .la
  else if n = 0x189 then .ok .lb
  else if 0x18C ≤ n ∧ n < 0x190 then .ok (.q (r.d.code.setWidth 2))
  else .error .illegalOperand

/-- A scalar destination. -/
def Raw.dstS (e : Env) (r : Raw) : Dec (BitVec 7) := do
  match ← r.dst e true true with
  | .s n => return n
  | _ => .error .illegalOperand

/-- A vector destination that may carry a mirror; `mult` is the register multiple it needs (1, 2, 4). -/
def Raw.dstVM (e : Env) (r : Raw) (mult : Nat) : Dec (BitVec 8 × Mirror) := do
  match ← r.dst e false false with
  | .v n m =>
    legal (decide (n.toNat % mult = 0) && decide (n.toNat + mult ≤ e.vN) && (decide (mult = 1) || decide (m = .none)))
    return (n, m)
  | _ => .error .illegalOperand

/-- A vector destination without mirror. -/
def Raw.dstV (e : Env) (r : Raw) (mult : Nat) : Dec (BitVec 8) := do
  let (n, m) ← r.dstVM e mult
  legal (decide (m = .none))
  return n

/-- A record or quad position: a scalar at a multiple of 4 with all four within the budget (R242, R283). -/
def Raw.quadAt (e : Env) (r : Raw) (i : Nat) : Dec (BitVec 7 × (Bool × Bool)) := do
  match ← r.srcAt e false i with
  | .s n d t =>
    legal (decide (n.toNat % 4 = 0) && e.sOk (n.toNat + 3))
    return (n, (d, t))
  | _ => .error .illegalOperand

/-- A typed position (R62, R74): index in [7:0] with [11:8] zero, below `bound`. -/
def Fld.typed (e : Env) (bound : Nat) (f : Fld) : Dec Nat := do
  legal (!f.m1 && !f.m0)
  legal (decide (f.code.toNat < (if e.mode = .k1 then min bound 16 else bound)))
  return f.code.toNat

/-- A typed predicate position. -/
def Fld.pred (e : Env) (f : Fld) : Dec (BitVec 4) := do
  if e.mode = .k1 then legalOr (k1Pred f.code)
  else
    let n ← f.typed e 16
    return BitVec.ofNat 4 n

/-- A typed tile position within the budget (R80). -/
def Fld.tile (e : Env) (f : Fld) : Dec (BitVec 4) := do
  let n ← f.typed e 16
  legal (decide (n < e.tN))
  return BitVec.ofNat 4 n

/-- A typed accumulator position of a bound member (R62, R81). -/
def Fld.acc (e : Env) (f : Fld) : Dec (BitVec 3) := do
  let n ← f.typed e 8
  legal e.bound
  return BitVec.ofNat 3 n

/-- At most one queue field (R121). -/
def oneQ (d : Bool) (ss : List Src) : Dec Unit :=
  legal (decide ((if d then 1 else 0) + (ss.filter Src.isQ).length ≤ 1))

/-- The operand fields an instruction leaves unused, and whether its wide operand has a role of its own. -/
structure Use where
  d    : Bool := false
  a    : Bool := false
  b    : Bool := false
  c    : Bool := false
  wide : Bool := false
  mods : BitVec 8 := 0
  memf : Bool := false

/-- The reserved-field checks that every instruction shares (R58, R63). `srcs` are the sources read, one of which may have
taken the wide operand; `mir` says that the destination carries a slot mirror. -/
def Raw.rsv (r : Raw) (u : Use) (srcs : List Src) (mir : Mirror) : Dec Unit := do
  clear (u.d || decide (r.d = .zero))
  clear (u.a || decide (r.a = .zero))
  clear (u.b || decide (r.b = .zero))
  clear (u.c || decide (r.c = .zero))
  clear (decide (r.mods &&& ~~~u.mods = 0))
  clear (u.wide || srcs.any Src.isWide || decide (r.wide = 0))
  clear (u.memf || decide (r.mem = 0))
  clear (match mir with
    | .o _ => true
    | _ => decide (r.slot = 0))
  clear (!r.bad)

/-- The mirror a destination carries. -/
def Dst.mirror : Dst → Mirror
  | .v _ m => m
  | _ => .none

/-- The header of an instruction. -/
def Raw.hdr (r : Raw) : Hdr := { form := r.form, gneg := r.gneg, gp := r.gp }

/-- The form check (R54); K1 has no lengths (R73). -/
def Raw.forms (e : Env) (r : Raw) (f64 f96 f128 : Bool) : Dec Unit :=
  length (decide (e.mode = .k1) || (match r.form with
    | .f64 => f64
    | .f96 => f96
    | .f128 => f128))

/-! ### Modifier fields -/

def itypeOf (x : BitVec 2) : IType :=
  if x = 0 then .s32 else if x = 1 then .z32 else if x = 2 then .s64 else .z64

def IType.w64 : IType → Bool
  | .s32 => false
  | .z32 => false
  | .s64 => true
  | .z64 => true

/-- The rounding field [58:56] (R123): 1 to 3 are reserved. -/
def rndOf (x : BitVec 3) : Option Rnd :=
  if x = 0 then some .dyn else if x = 4 then some .rn else if x = 5 then some .rz else if x = 6 then some .ru
  else if x = 7 then some .rd else none

/-- Comparison codes of R138: 6 and 7 are reserved. -/
def icmpOf (x : BitVec 3) : Option ICmp :=
  if x = 0 then some .eq else if x = 1 then some .ne else if x = 2 then some .lt else if x = 3 then some .le
  else if x = 4 then some .gt else if x = 5 then some .ge else none

/-- Comparison codes of R141: 6 and 7 are reserved. -/
def fcmpOf (x : BitVec 4) : Option FCmp :=
  if x = 14 then some .num
  else if x = 15 then some .nan
  else match icmpOf (x.setWidth 3) with
    | some c => some (if flag 3 x then .unord c else .ord c)
    | none => none

def ffmtOf (x : BitVec 2) : FFmt :=
  if x = 0 then .f64 else if x = 1 then .f32 else if x = 2 then .f16 else .bf16

/-- The format of `FCLASS`, [57:56] (R142). -/
def fclassOf (x : BitVec 2) : FFmt :=
  if x = 0 then .f32 else if x = 1 then .f16 else if x = 2 then .bf16 else .f64

def FFmt.w64 : FFmt → Bool
  | .f64 => true
  | _ => false

def cvtSrcOf (x : BitVec 3) : CvtSrc :=
  if flag 2 x then .i (itypeOf (x.setWidth 2)) else .f (ffmtOf (x.setWidth 2))

def CvtSrc.w64 : CvtSrc → Bool
  | .f t => t.w64
  | .i t => t.w64

/-- Packed format codes (R145): 11 to 15 are reserved. -/
def qfmtOf (x : BitVec 4) : Option QFmt :=
  match x.toNat with
  | 0 => some .f16 | 1 => some .bf16 | 2 => some .e4m3 | 3 => some .e5m2 | 4 => some .e2m1 | 5 => some .s16
  | 6 => some .z16 | 7 => some .s8 | 8 => some .z8 | 9 => some .s4 | 10 => some .z4 | _ => none

/-- Elements per lane (R145). -/
def QFmt.count : QFmt → Nat
  | .f16 => 2 | .bf16 => 2 | .e4m3 => 4 | .e5m2 => 4 | .e2m1 => 8 | .s16 => 2 | .z16 => 2 | .s8 => 4 | .z8 => 4
  | .s4 => 8 | .z4 => 8

def packOf (x : BitVec 2) : PackFmt :=
  if x = 0 then .f16 else if x = 1 then .bf16 else if x = 2 then .s16 else .z16

def waveOpOf (x : BitVec 4) : Option WaveOp :=
  match x.toNat with
  | 0 => some .addS32 | 1 => some .addF32 | 2 => some .minS32 | 3 => some .minZ32 | 4 => some .minF32
  | 5 => some .maxS32 | 6 => some .maxZ32 | 7 => some .maxF32 | 8 => some .and | 9 => some .or | 10 => some .xor
  | _ => none

def shflOf (x : BitVec 2) : ShflMode :=
  if x = 0 then .idx else if x = 1 then .up else if x = 2 then .down else .xor

/-- Register states, [57:56] (R160): 3 is reserved. -/
def regStOf (x : BitVec 2) : Option RegState :=
  if x = 0 then some .full else if x = 1 then some .empty else if x = 2 then some .poison else none

/-- Access sizes (R243): 5 to 7 are reserved. -/
def sizeOf? (x : BitVec 3) : Option Size :=
  match x.toNat with
  | 0 => some .b | 1 => some .h | 2 => some .w | 3 => some .d | 4 => some .q | _ => none

def Size.bytes : Size → Nat
  | .b => 1 | .h => 2 | .w => 4 | .d => 8 | .q => 16

/-- Registers of a lane's data (R243). -/
def Size.regs : Size → Nat
  | .d => 2 | .q => 4 | _ => 1

def convOf (x : BitVec 4) : Option Conv :=
  match x.toNat with
  | 0 => some .raw | 1 => some .f16 | 2 => some .bf16 | 3 => some .e4m3 | 4 => some .e5m2 | 5 => some .s8
  | 6 => some .z8 | 7 => some .s16 | 8 => some .z16 | _ => none

/-- The size a conversion needs (R243). -/
def Conv.fits : Conv → Size → Bool
  | .raw, _ => true
  | .f16, .h => true
  | .bf16, .h => true
  | .e4m3, .b => true
  | .e5m2, .b => true
  | .s8, .b => true
  | .z8, .b => true
  | .s16, .h => true
  | .z16, .h => true
  | _, _ => false

def scopeOf (x : BitVec 3) : Scope :=
  match x.toNat with
  | 0 => .wave | 1 => .team | 2 => .core | 3 => .cluster | 4 => .die | 5 => .device | 6 => .node | _ => .system

def policyOf (x : BitVec 3) : Option Policy :=
  match x.toNat with
  | 0 => some .normal | 1 => some .cb | 2 => some .ev | 3 => some .lu | 4 => some .na | _ => none

def ordOf (x : BitVec 2) : Ord :=
  if x = 0 then .plain else if x = 1 then .acq else if x = 2 then .rel else .ar

def fenceOf (x : BitVec 2) : Option FenceKind :=
  if x = 1 then some .acq else if x = 2 then some .rel else if x = 3 then some .ar else none

def atomOpOf (x : BitVec 3) : Option AtomOp :=
  match x.toNat with
  | 0 => some .add | 1 => some .min | 2 => some .max | 3 => some .and | 4 => some .or | 5 => some .xor
  | 6 => some .exch | _ => none

def fatomOf (x : BitVec 2) : Option FAtomOp :=
  if x = 0 then some .add else if x = 1 then some .min else if x = 2 then some .max else none

def casOf (x : BitVec 2) : Option CasW :=
  if x = 0 then some .b32 else if x = 1 then some .b64 else if x = 2 then some .b128 else none

def CasW.bytes : CasW → Nat
  | .b32 => 4 | .b64 => 8 | .b128 => 16

/-- `RED`'s operation and type (R295). -/
def redOf (op : BitVec 4) (t : BitVec 2) : Option RedOp :=
  match op.toNat with
  | 0 => some (.int .add (itypeOf t)) | 1 => some (.int .min (itypeOf t)) | 2 => some (.int .max (itypeOf t))
  | 3 => some (.int .and (itypeOf t)) | 4 => some (.int .or (itypeOf t)) | 5 => some (.int .xor (itypeOf t))
  | 6 => if t = 0 then some .addF32 else none
  | 7 => if t = 0 then some .addF64 else none
  | 8 => if t = 0 then some .add2F16 else none
  | 9 => if t = 0 then some .add2BF16 else none
  | _ => none

/-- `ATOMS`' operation and type (R295). -/
def latomOf (op : BitVec 4) (t : BitVec 2) : Option LAtomOp :=
  match op.toNat with
  | 0 => some (.int .add (itypeOf t)) | 1 => some (.int .min (itypeOf t)) | 2 => some (.int .max (itypeOf t))
  | 3 => some (.int .and (itypeOf t)) | 4 => some (.int .or (itypeOf t)) | 5 => some (.int .xor (itypeOf t))
  | 6 => some (.int .exch (itypeOf t)) | 7 => some (.cas (itypeOf t))
  | 8 => if t = 0 then some .addF32 else none
  | 9 => if t = 0 then some .add2F16 else none
  | 10 => if t = 0 then some .add2BF16 else none
  | _ => none

def RedOp.w64 : RedOp → Bool
  | .int _ t => t.w64
  | .addF64 => true
  | _ => false

def LAtomOp.w64 : LAtomOp → Bool
  | .int _ t => t.w64
  | .cas t => t.w64
  | _ => false

/-- The default memory fields (R56). -/
def MemF.dflt : MemF := { scope := .device, pol := .normal, ord := .plain, bear := none }

/-- The memory fields of bits [127:108] (R54, R57): reserved values, a bearing index without its select, and a plain access
whose scope is not `.device` raise the reserved-field trap. -/
def Raw.memf (r : Raw) : Option MemF :=
  if r.form ≠ .f128 then some .dflt
  else
    let m := r.mem
    let sel := flag 16 m
    match policyOf (fld 11 3 m) with
    | none => none
    | some p =>
      let o := ordOf (fld 14 2 m)
      if fld 17 3 m ≠ 0 ∨ (!sel ∧ fld 0 8 m ≠ 0) ∨ (o = .plain ∧ scopeOf (fld 8 3 m) ≠ .device) then none
      else some { scope := scopeOf (fld 8 3 m), pol := p, ord := o, bear := if sel then some (fld 0 8 m) else none }

/-- Which memory fields an instruction accepts (R244, R296). -/
structure MemOk where
  acq  : Bool := false
  rel  : Bool := false
  ar   : Bool := false
  pols : List Policy := [.normal]
  bear : Bool := false

def MemOk.ok (k : MemOk) (m : MemF) : Bool :=
  (match m.ord with
    | .plain => true
    | .acq => k.acq
    | .rel => k.rel
    | .ar => k.ar) && k.pols.contains m.pol && (k.bear || m.bear.isNone)

/-- The memory fields, or the reserved-field trap. -/
def Raw.memfOk (r : Raw) (k : MemOk) : Dec MemF := do
  let m ← clearOr r.memf
  clear (k.ok m)
  return m

/-- The byte-lane index or address width bit (R243). -/
def Raw.m (r : Raw) (i : Nat) : Bool := flag i r.mods

/-- The type field [57:56]. -/
def Raw.ty (r : Raw) : IType := itypeOf (fld 0 2 r.mods)

/-- The rounding field [58:56], or the reserved-field trap. -/
def Raw.rnd (r : Raw) : Dec Rnd := clearOr (rndOf (fld 0 3 r.mods))

/-! ### Shapes -/

def decH0 (e : Env) (r : Raw) (mods : BitVec 8) (mk : H0 → Instr) : Dec Instr := do
  r.forms e true false false
  r.rsv { mods := mods } [] .none
  return mk ⟨r.hdr⟩

def decHCode (e : Env) (r : Raw) (mk : HCode → Instr) : Dec Instr := do
  r.forms e true false false
  r.rsv { mods := 0xFF } [] .none
  return mk ⟨r.hdr, r.mods⟩

/-- A 64-bit target: a scalar or an even vector (R126). -/
def Src.isTarget (s : Src) : Bool := s.isS || (s.isV && s.okW true)

def decTarget (e : Env) (r : Raw) (mk : HA → Instr) : Dec Instr := do
  r.forms e true false false
  let a ← r.srcP e false 0 Src.isTarget
  r.rsv { a := true } [a] .none
  return mk ⟨r.hdr, a⟩

/-- Width of the destination: `POPC` and `CLZ` write 32 bits at every width (R133). -/
def decI1 (e : Env) (r : Raw) (narrow immOnly : Bool) (mk : I1 → Instr) : Dec Instr := do
  r.forms e true true true
  let t := r.ty
  let d ← r.dst e (t.w64 && !narrow) false
  let a ← r.srcW e true t.w64 0
  legal (!immOnly || a.isImm)
  oneQ d.isQ [a]
  r.rsv { d := true, a := true, mods := 0x03 } [a] d.mirror
  return mk ⟨r.hdr, t, d, a⟩

/-- The shift family reads its count, and `BFE` its control, at 32 bits (R135, R136): `b32`. -/
def decI2 (e : Env) (r : Raw) (b32 : Bool) (mk : I2 → Instr) : Dec Instr := do
  r.forms e true true true
  let t := r.ty
  let d ← r.dst e t.w64 false
  let a ← r.srcW e true t.w64 0
  let b ← r.srcW e true (t.w64 && !b32) 1
  oneQ d.isQ [a, b]
  r.rsv { d := true, a := true, b := true, mods := 0x03 } [a, b] d.mirror
  return mk ⟨r.hdr, t, d, a, b⟩

def decI3 (e : Env) (r : Raw) (c32 : Bool) (mk : I3 → Instr) : Dec Instr := do
  r.forms e false true true
  let t := r.ty
  let d ← r.dst e t.w64 false
  let a ← r.srcW e true t.w64 0
  let b ← r.srcW e true t.w64 1
  let c ← r.srcW e true (t.w64 && !c32) 2
  oneQ d.isQ [a, b, c]
  r.rsv { d := true, a := true, b := true, c := true, mods := 0x03 } [a, b, c] d.mirror
  return mk ⟨r.hdr, t, d, a, b, c⟩

def decF1 (e : Env) (r : Raw) (mk : F1 → Instr) : Dec Instr := do
  r.forms e true true true
  let d ← r.dst e false false
  let a ← r.srcW e true false 0
  oneQ d.isQ [a]
  r.rsv { d := true, a := true, mods := 0x07 } [a] d.mirror
  return mk ⟨r.hdr, ← r.rnd, d, a⟩

def decF2 (e : Env) (r : Raw) (w64 : Bool) (mk : F2 → Instr) : Dec Instr := do
  r.forms e true true true
  let d ← r.dst e w64 false
  let a ← r.srcW e true w64 0
  let b ← r.srcW e true w64 1
  oneQ d.isQ [a, b]
  r.rsv { d := true, a := true, b := true, mods := 0x07 } [a, b] d.mirror
  return mk ⟨r.hdr, ← r.rnd, d, a, b⟩

def decF3 (e : Env) (r : Raw) (w64 : Bool) (mk : F3 → Instr) : Dec Instr := do
  r.forms e false true true
  let d ← r.dst e w64 false
  let a ← r.srcW e true w64 0
  let b ← r.srcW e true w64 1
  let c ← r.srcW e true w64 2
  oneQ d.isQ [a, b, c]
  r.rsv { d := true, a := true, b := true, c := true, mods := 0x07 } [a, b, c] d.mirror
  return mk ⟨r.hdr, ← r.rnd, d, a, b, c⟩

def decD2 (e : Env) (r : Raw) (bSI : Bool) (mk : D2 → Instr) : Dec Instr := do
  r.forms e true true true
  let d ← r.dst e false false
  let a ← r.srcW e true false 0
  let b ← r.srcW e true false 1
  legal (!bSI || b.isSI)
  oneQ d.isQ [a, b]
  r.rsv { d := true, a := true, b := true } [a, b] d.mirror
  return mk ⟨r.hdr, d, a, b⟩

def decP2 (e : Env) (r : Raw) (mk : P2 → Instr) : Dec Instr := do
  r.forms e true true true
  let d ← r.dst e false false
  let a ← r.srcW e true false 0
  let b ← r.srcW e true false 1
  oneQ d.isQ [a, b]
  r.rsv { d := true, a := true, b := true, mods := 0x0F } [a, b] d.mirror
  return mk ⟨r.hdr, r.m 3, ← r.rnd, d, a, b⟩

def decP3 (e : Env) (r : Raw) (mk : P3 → Instr) : Dec Instr := do
  r.forms e false true true
  let d ← r.dst e false false
  let a ← r.srcW e true false 0
  let b ← r.srcW e true false 1
  let c ← r.srcW e true false 2
  oneQ d.isQ [a, b, c]
  r.rsv { d := true, a := true, b := true, c := true, mods := 0x0F } [a, b, c] d.mirror
  return mk ⟨r.hdr, r.m 3, ← r.rnd, d, a, b, c⟩

def decPM (e : Env) (r : Raw) (mk : PM → Instr) : Dec Instr := do
  r.forms e true true true
  let d ← r.dst e false false
  let a ← r.srcW e true false 0
  let b ← r.srcW e true false 1
  oneQ d.isQ [a, b]
  r.rsv { d := true, a := true, b := true, mods := 0x08 } [a, b] d.mirror
  return mk ⟨r.hdr, r.m 3, d, a, b⟩

def decFSetp (e : Env) (r : Raw) (w64 : Bool) (mk : FSetp → Instr) : Dec Instr := do
  r.forms e true true true
  let pd ← r.d.pred e
  let a ← r.srcW e true w64 0
  let b ← r.srcW e true w64 1
  oneQ false [a, b]
  r.rsv { d := true, a := true, b := true, mods := 0xF0 } [a, b] .none
  return mk ⟨r.hdr, ← clearOr (fcmpOf (fld 4 4 r.mods)), pd, a, b⟩

/-- Conversions that are exact for every input take no rounding field (R144). -/
def CvtSrc.exactTo (d : FFmt) : CvtSrc → Bool
  | .f .f64 => decide (d = .f64)
  | .f .f32 => decide (d = .f64 ∨ d = .f32)
  | .f .f16 => decide (d = .f64 ∨ d = .f32 ∨ d = .f16)
  | .f .bf16 => decide (d = .f64 ∨ d = .f32 ∨ d = .bf16)
  | .i .s32 => decide (d = .f64)
  | .i .z32 => decide (d = .f64)
  | .i _ => false

def decCvtF (e : Env) (r : Raw) : Dec Instr := do
  r.forms e true true true
  let src := cvtSrcOf (fld 5 3 r.mods)
  let dst := ffmtOf (fld 3 2 r.mods)
  let d ← r.dst e dst.w64 false
  let a ← r.srcW e true src.w64 0
  oneQ d.isQ [a]
  r.rsv { d := true, a := true, mods := 0xFF } [a] d.mirror
  let rm ← r.rnd
  clear (!src.exactTo dst || decide (rm = .dyn))
  return .cvtF ⟨r.hdr, src, dst, rm, d, a⟩

def CvtSrc.isInt : CvtSrc → Bool
  | .i _ => true
  | .f _ => false

def decCvtI (e : Env) (r : Raw) : Dec Instr := do
  r.forms e true true true
  let src := cvtSrcOf (fld 5 3 r.mods)
  let dst := itypeOf (fld 3 2 r.mods)
  let d ← r.dst e dst.w64 false
  let a ← r.srcW e true src.w64 0
  oneQ d.isQ [a]
  r.rsv { d := true, a := true, mods := 0xFF } [a] d.mirror
  let rm ← r.rnd
  clear (!src.isInt || decide (rm = .dyn))
  return .cvtI ⟨r.hdr, src, dst, rm, d, a⟩

def decQPos (r : Raw) : Dec (QFmt × BitVec 3) := do
  let f ← clearOr (qfmtOf (fld 4 4 r.mods))
  let pos : BitVec 3 := fld 1 3 r.mods
  clear (decide (pos.toNat < f.count))
  return (f, pos)

/-- `PMOV` (R153). -/
def decPMov (e : Env) (r : Raw) : Dec Instr := do
  r.forms e true true true
  match (fld 0 3 r.mods : BitVec 3).toNat with
  | 0 => do
    let pd ← r.d.pred e
    let pa ← r.a.pred e
    r.rsv { d := true, a := true, mods := 0x07 } [] .none
    return .pmov ⟨r.hdr, .pp pd pa⟩
  | 1 => do
    let (n, m) ← r.dstVM e 1
    let pa ← r.a.pred e
    r.rsv { d := true, a := true, mods := 0x07 } [] m
    return .pmov ⟨r.hdr, .vp (.v n m) pa⟩
  | 2 => do
    let pd ← r.d.pred e
    let a ← r.srcP e false 0 Src.isV
    r.rsv { d := true, a := true, mods := 0x07 } [] .none
    return .pmov ⟨r.hdr, .pv pd a⟩
  | 3 => do
    let sd ← r.dstS e
    let pa ← r.a.pred e
    r.rsv { d := true, a := true, mods := 0x07 } [] .none
    return .pmov ⟨r.hdr, .sp sd pa⟩
  | 4 => do
    let pd ← r.d.pred e
    let a ← r.srcP e false 0 Src.isS
    r.rsv { d := true, a := true, mods := 0x07 } [] .none
    return .pmov ⟨r.hdr, .ps pd a⟩
  | _ => do
    legal (reads (r.d.pred e) || reads (r.dstVM e 1) || reads (r.dstS e))
    legal (reads (r.a.pred e) || reads (r.srcP e false 0 Src.isV) || reads (r.srcP e false 0 Src.isS))
    .error .reservedField

def decWRed (e : Env) (r : Raw) (scan : Bool) (mk : WRed → Instr) : Dec Instr := do
  r.forms e true true true
  let d ← r.dst e false (!scan)
  legal (scan || !d.isQ)
  let a ← r.srcW e true false 0
  oneQ d.isQ [a]
  r.rsv { d := true, a := true, mods := if scan then 0x1F else 0x0F } [a] d.mirror
  return mk ⟨r.hdr, ← clearOr (waveOpOf (fld 0 4 r.mods)), scan && r.m 4, d, a⟩

def decS1 (e : Env) (r : Raw) (immOnly : Bool) (f64 f96 f128 : Bool) (mk : S1 → Instr) : Dec Instr := do
  r.forms e f64 f96 f128
  let d ← r.dstS e
  let a ← r.srcP e true 0 (if immOnly then Src.isImm else Src.isSI)
  r.rsv { d := true, a := true } [a] .none
  return mk ⟨r.hdr, d, a⟩

def decS2 (e : Env) (r : Raw) (mk : S2 → Instr) : Dec Instr := do
  r.forms e true true true
  let d ← r.dstS e
  let a ← r.srcP e true 0 Src.isSI
  let b ← r.srcP e true 1 Src.isSI
  r.rsv { d := true, a := true, b := true } [a, b] .none
  return mk ⟨r.hdr, d, a, b⟩

/-- Special registers of 64 bits (R83). -/
def special64 (n : Nat) : Bool :=
  n == 13 || n == 14 || n == 17 || n == 20 || n == 21 || n == 22 || n == 23 || (32 ≤ n && n ≤ 63)

/-- Numbers in the special-register table (R83). -/
def specialKnown (n : Nat) : Bool := decide (n ≤ 23) || (decide (32 ≤ n) && decide (n ≤ 63))

/-- Special registers `WRS` may write; `$trapnext` in handler mode only (R83, R387). -/
def specialRW (handler : Bool) (n : Nat) : Bool :=
  n == 14 || n == 15 || n == 16 || n == 18 || n == 19 || n == 20 || n == 21 || n == 22 || (n == 34 && handler)

/-- `RDS` (R148). -/
def decRds (e : Env) (r : Raw) : Dec Instr := do
  r.forms e true true true
  let n ← r.a.typed e 256
  legal (specialKnown n)
  let code := r.d.code.toNat
  let d ← r.dst e (special64 n && decide (code < 0x100 ∨ 0x180 ≤ code)) true
  legal (!d.isQ)
  r.rsv { d := true, a := true } [] d.mirror
  return .rds ⟨r.hdr, d, BitVec.ofNat 8 n⟩

/-- `WRS` (R149). -/
def decWrs (e : Env) (r : Raw) : Dec Instr := do
  r.forms e true true true
  let n ← r.d.typed e 256
  legal (specialRW e.handler n)
  let a ← r.srcAt e true 0
  legal (if n == 22 then a.isS || (a.isV && a.okW true) else a.isSI)
  r.rsv { d := true, a := true } [a] .none
  return .wrs ⟨r.hdr, BitVec.ofNat 8 n, a⟩

def decHA (e : Env) (r : Raw) (f64 f96 f128 : Bool) (p : Src → Bool) (mk : HA → Instr) : Dec Instr := do
  r.forms e f64 f96 f128
  let a ← r.srcP e true 0 p
  r.rsv { a := true } [a] .none
  return mk ⟨r.hdr, a⟩

def decHAB (e : Env) (r : Raw) (f96 : Bool) (pa pb : Src → Bool) (mk : HAB → Instr) : Dec Instr := do
  r.forms e true f96 false
  let a ← r.srcP e true 0 pa
  let b ← r.srcP e true 1 pb
  r.rsv { a := true, b := true } [a, b] .none
  return mk ⟨r.hdr, a, b⟩

/-- An accumulator base 0 or 4 (R179). -/
def Fld.accBase (e : Env) (f : Fld) : Dec Bool := do
  let n ← f.acc e
  legal (decide (n = 0) || decide (n = 4))
  return decide (n = 4)

/-- The destination vector of a single register, with its mirror. -/
def decVV (e : Env) (r : Raw) (mk : VV → Instr) : Dec Instr := do
  r.forms e true false false
  let (d, m) ← r.dstVM e 1
  let a ← r.srcP e false 0 Src.isV
  r.rsv { d := true, a := true } [] m
  return mk ⟨r.hdr, d, m, a⟩

/-- A value that is no queue: index, local offset, data (R242). At 64 bits R119 applies. -/
def Src.isVal (w64 : Bool) (s : Src) : Bool := !s.isQ && s.okW w64

/-- Size and conversion (R243). A reserved size is checked after the operands, so operands are read as for `.w` then. -/
def Raw.size (r : Raw) : Size := (sizeOf? (fld 0 3 r.mods)).getD .w

def decSizeConv (r : Raw) : Dec (Size × Conv) := do
  let sz ← clearOr (sizeOf? (fld 0 3 r.mods))
  let cv ← clearOr (convOf (fld 3 4 r.mods))
  clear (cv.fits sz)
  return (sz, cv)

/-- Store data of a size (R243): a pair or scalar for `.d`, four vectors for `.q`. -/
def Src.isData (vN : Nat) (sz : Size) (s : Src) : Bool :=
  match sz with
  | .d => s.isVal true
  | .q => match s with
    | .v n _ _ => decide (n.toNat % 4 = 0) && decide (n.toNat + 4 ≤ vN)
    | _ => false
  | _ => s.isVal false

def decLd (e : Env) (r : Raw) : Dec Instr := do
  r.forms e true true true
  let d ← r.dstV e r.size.regs
  let (n, rm) ← r.quadAt e 0
  let idx ← r.srcP e false 1 (Src.isVal (r.m 7))
  let (sz, cv) ← decSizeConv r
  r.rsv { d := true, a := true, b := true, wide := true, mods := 0xFF, memf := true } [] .none
  let mf ← r.memfOk { acq := true, pols := [.normal, .cb, .ev, .lu, .na] }
  return .ld ⟨r.hdr, sz, cv, r.m 7, d, n, rm, idx, r.wide, mf⟩

def decSt (e : Env) (r : Raw) : Dec Instr := do
  r.forms e false true true
  let (n, rm) ← r.quadAt e 0
  let idx ← r.srcP e false 1 (Src.isVal (r.m 7))
  let data ← r.srcP e false 2 (Src.isData e.vN r.size)
  let (sz, cv) ← decSizeConv r
  r.rsv { a := true, b := true, c := true, wide := true, mods := 0xFF, memf := true } [] .none
  let mf ← r.memfOk { rel := true, pols := [.normal, .cb, .ev, .lu, .na], bear := true }
  return .st ⟨r.hdr, sz, cv, r.m 7, n, rm, idx, data, r.wide, mf⟩

def decLds (e : Env) (r : Raw) : Dec Instr := do
  r.forms e true true false
  let d ← r.dstV e r.size.regs
  let a ← r.srcP e false 0 (Src.isVal false)
  clear (!r.m 7)
  let (sz, cv) ← decSizeConv r
  r.rsv { d := true, a := true, wide := true, mods := 0x7F } [] .none
  return .lds ⟨r.hdr, sz, cv, d, a, r.wide⟩

def decSts (e : Env) (r : Raw) : Dec Instr := do
  r.forms e true true false
  let a ← r.srcP e false 0 (Src.isVal false)
  let b ← r.srcP e false 1 (Src.isData e.vN r.size)
  clear (!r.m 7)
  let (sz, cv) ← decSizeConv r
  r.rsv { a := true, b := true, wide := true, mods := 0x7F } [] .none
  return .sts ⟨r.hdr, sz, cv, a, b, r.wide⟩

def decLdsc (e : Env) (r : Raw) : Dec Instr := do
  r.forms e true true true
  let m : BitVec 2 := fld 0 2 r.mods
  let k := 2 ^ m.toNat
  let d ← r.dstS e
  legal (decide (d.toNat % k = 0) && e.sOk (d.toNat + k - 1))
  let (n, rm) ← r.quadAt e 0
  let idx ← r.srcP e false 1 Src.isSI
  r.rsv { d := true, a := true, b := true, wide := true, mods := 0x03, memf := true } [] .none
  let mf ← r.memfOk { acq := true, pols := [.normal, .cb, .ev, .lu, .na] }
  return .ldsc ⟨r.hdr, m, d, n, rm, idx, r.wide, mf⟩

def decTileMem (e : Env) (r : Raw) (store : Bool) (mk : TileMem → Instr) : Dec Instr := do
  r.forms e true true false
  if store then do
    let a ← r.srcP e true 0 Src.isSI
    let t ← r.b.tile e
    r.rsv { a := true, b := true, mods := 0x01 } [a] .none
    return mk ⟨r.hdr, r.m 0, t, a⟩
  else do
    let t ← r.d.tile e
    let a ← r.srcP e true 0 Src.isSI
    r.rsv { d := true, a := true, mods := 0x01 } [a] .none
    return mk ⟨r.hdr, r.m 0, t, a⟩

/-- A range through a record (R253, R283). `memf` names the memory-field instructions. -/
def decRange (e : Env) (r : Raw) (lvl memf : Bool) (mk : Range → Instr) : Dec Instr := do
  r.forms e false true true
  let (n, rm) ← r.quadAt e 0
  let idx ← r.srcP e false 1 Src.isSI
  let len ← r.srcP e false 2 Src.isSI
  r.rsv { a := true, b := true, c := true, wide := true, mods := if lvl then 0x01 else 0, memf := memf } [] .none
  if memf then let _ ← r.memfOk {}
  return mk ⟨r.hdr, r.m 0, n, rm, idx, len, r.wide⟩

def decCodeRange (e : Env) (r : Raw) (mk : CodeRange → Instr) : Dec Instr := do
  r.forms e true true false
  let a ← r.srcP e true 0 Src.isS
  let b ← r.srcP e true 1 Src.isSI
  r.rsv { a := true, b := true, mods := 0x01 } [a, b] .none
  return mk ⟨r.hdr, r.m 0, a, b⟩

/-- A quad destination of scalars (R283). -/
def decBrrd (e : Env) (r : Raw) : Dec Instr := do
  r.forms e true true false
  let d ← r.dstS e
  legal (decide (d.toNat % 4 = 0) && e.sOk (d.toNat + 3))
  let a ← r.srcP e true 0 Src.isSI
  r.rsv { d := true, a := true } [a] .none
  return .brrd ⟨r.hdr, d, a⟩

/-- The addressing operands of a global atomic (R294): `data` is the class its data takes. -/
def decAtomAddr (e : Env) (r : Raw) (data : Src → Bool) : Dec (BitVec 7 × (Bool × Bool) × Src × Src) := do
  let (n, rm) ← r.quadAt e 0
  let idx ← r.srcP e false 1 (Src.isVal (r.m 7))
  let c ← r.srcP e false 2 data
  return (n, rm, idx, c)

def atomOk : MemOk := { acq := true, rel := true, ar := true }

def decAtomI (e : Env) (r : Raw) : Dec Instr := do
  r.forms e false true true
  let t := r.ty
  let d ← r.dstV e (if t.w64 then 2 else 1)
  let (n, rm, idx, c) ← decAtomAddr e r (Src.okW t.w64)
  oneQ false [c]
  r.rsv { d := true, a := true, b := true, c := true, wide := true, mods := 0x9F, memf := true } [] .none
  let op ← clearOr (atomOpOf (fld 2 3 r.mods))
  let mf ← r.memfOk atomOk
  return .atomI ⟨r.hdr, op, t, d, ⟨r.m 7, n, rm, idx, c, r.wide, mf⟩⟩

/-- `ATOM.F` (`x2 = false`) and `ATOM.X2`: formats 2 and 3 are not listed (R295). -/
def decAtomF (e : Env) (r : Raw) (x2 : Bool) (mk : AtomF → Instr) : Dec Instr := do
  r.forms e false true true
  let w64 := !x2 && r.m 0
  let d ← r.dstV e (if w64 then 2 else 1)
  let (n, rm, idx, c) ← decAtomAddr e r (Src.okW w64)
  oneQ false [c]
  r.rsv { d := true, a := true, b := true, c := true, wide := true, mods := 0x8D, memf := true } [] .none
  let op ← clearOr (fatomOf (fld 2 2 r.mods))
  let mf ← r.memfOk atomOk
  return mk ⟨r.hdr, op, r.m 0, d, ⟨r.m 7, n, rm, idx, c, r.wide, mf⟩⟩

/-- Compare and new of `ATOM.CAS` (R298). -/
def Src.isCas (vN : Nat) (sOk : Nat → Bool) (w : CasW) : Src → Bool
  | .v n _ _ =>
    let k := match w with
      | .b32 => 2
      | .b64 => 4
      | .b128 => 8
    decide (n.toNat % k = 0) && decide (n.toNat + k ≤ vN)
  | .s n _ _ =>
    let k := match w with
      | .b32 => 1
      | .b64 => 2
      | .b128 => 4
    decide (n.toNat % k = 0) && sOk (n.toNat + k - 1)
  | _ => false

def decAtomCas (e : Env) (r : Raw) : Dec Instr := do
  r.forms e false true true
  let w := (casOf (fld 0 2 r.mods)).getD .b32
  let d ← r.dstV e (match w with
    | .b32 => 1
    | .b64 => 2
    | .b128 => 4)
  let (n, rm, idx, c) ← decAtomAddr e r (Src.isCas e.vN e.sOk w)
  r.rsv { d := true, a := true, b := true, c := true, wide := true, mods := 0x83, memf := true } [] .none
  let w ← clearOr (casOf (fld 0 2 r.mods))
  let mf ← r.memfOk atomOk
  return .atomCas ⟨r.hdr, w, d, ⟨r.m 7, n, rm, idx, c, r.wide, mf⟩⟩

def decRed (e : Env) (r : Raw) : Dec Instr := do
  r.forms e false true true
  let w64 := ((redOf (fld 2 4 r.mods) (fld 0 2 r.mods)).map RedOp.w64).getD false
  let (n, rm, idx, c) ← decAtomAddr e r (Src.okW w64)
  oneQ false [c]
  r.rsv { a := true, b := true, c := true, wide := true, mods := 0xBF, memf := true } [] .none
  let op ← clearOr (redOf (fld 2 4 r.mods) (fld 0 2 r.mods))
  let mf ← r.memfOk { rel := true, pols := [.normal, .cb] }
  return .red ⟨r.hdr, op, ⟨r.m 7, n, rm, idx, c, r.wide, mf⟩⟩

def LAtomOp.isCas : LAtomOp → Bool
  | .cas _ => true
  | _ => false

/-- `ATOMS`: `.cas` names source C and so needs the 96-bit form (R294, R54). -/
def decAtoms (e : Env) (r : Raw) : Dec Instr := do
  let op? := latomOf (fld 2 4 r.mods) (fld 0 2 r.mods)
  let cas := (op?.map LAtomOp.isCas).getD false
  r.forms e (!cas) true false
  let w64 := (op?.map LAtomOp.w64).getD false
  let d ← r.dstV e (if w64 then 2 else 1)
  let a ← r.srcP e false 0 (Src.isVal false)
  let b ← r.srcW e false w64 1
  if cas then do
    let c ← r.srcW e false w64 2
    oneQ false [b, c]
    r.rsv { d := true, a := true, b := true, c := true, wide := true, mods := 0x3F } [] .none
    let op ← clearOr op?
    return .atoms ⟨r.hdr, op, d, a, b, some c, r.wide⟩
  else do
    oneQ false [b]
    r.rsv { d := true, a := true, b := true, wide := true, mods := 0x3F } [] .none
    let op ← clearOr op?
    return .atoms ⟨r.hdr, op, d, a, b, none, r.wide⟩

def decTl (e : Env) (r : Raw) (mk : TlOp → Instr) : Dec Instr := do
  r.forms e true true false
  let a ← r.srcP e true 0 Src.isSI
  let b ← r.srcP e true 1 Src.isSI
  r.rsv { a := true, b := true, mods := 0x1C } [a, b] .none
  return mk ⟨r.hdr, scopeOf (fld 2 3 r.mods), a, b⟩

/-- The predicate of a `.nb` form in [63:60], zero without `.nb` (R368). -/
def decNb (r : Raw) : Dec (Option (BitVec 4)) := do
  if r.m 0 then return some (fld 4 4 r.mods)
  else
    clear (decide (fld 4 4 r.mods = (0 : BitVec 4)))
    return none

/-- The predicate of `SEL` in K1 code, from source C (R75). -/
def Raw.selK1 (e : Env) (r : Raw) : Dec (BitVec 4) := legal (decide (e.mode = .k1)) >>= fun _ => legalOr (k1Pred r.c.code)

/-- The K3 opcode map (R64): check 5, check 6, and then each operation's own checks 3, 7 and 8. The length checks come first:
every shape begins with its form check, and `decodeRaw` makes the block check before the null and unassigned opcodes. `FEMARK`, which writes no value,
takes no mirror (R160, log entry 62). -/
def decodeOp (e : Env) (r : Raw) : Dec Instr :=
  match r.op.toNat with
  | 0x001 => do
    r.forms e true true true
    r.rsv {} [] .none
    return .nop ⟨r.hdr⟩
  | 0x002 => do
    r.forms e false true true
    r.rsv { wide := true } [] .none
    return .bra ⟨r.hdr, r.wide⟩
  | 0x003 => decTarget e r .brx
  | 0x004 => do
    r.forms e false true true
    let d ← r.dstS e
    r.rsv { d := true, wide := true } [] .none
    return .call ⟨r.hdr, d, r.wide⟩
  | 0x005 => do
    r.forms e true false false
    let d ← r.dstS e
    let a ← r.srcP e false 0 Src.isTarget
    r.rsv { d := true, a := true } [] .none
    return .callx ⟨r.hdr, d, a⟩
  | 0x006 => decTarget e r .ret
  | 0x007 => decHCode e r .hinge
  | 0x008 => decH0 e r 0 .wpt
  | 0x009 => decH0 e r 0 .endFrag
  | 0x00A => decH0 e r 0 .yield
  | 0x00B => decHA e r true true true Src.isSI .sleep
  | 0x00C => do
    r.forms e true false false
    let pa ← r.a.pred e
    let op ← (match (fld 0 2 r.mods : BitVec 2).toNat with
      | 0 => VoteOp.any <$> r.d.pred e
      | 1 => VoteOp.all <$> r.d.pred e
      | 2 => VoteOp.eq <$> r.d.pred e
      | _ => VoteOp.ballot <$> r.dstS e)
    r.rsv { d := true, a := true, mods := 0x03 } [] .none
    return .vote ⟨r.hdr, op, pa⟩
  | 0x00D => decHCode e r .brkpt
  | 0x040 => decI1 e r false false .mov
  | 0x041 => decI1 e r false true .movi
  | 0x042 => decI2 e r false .iadd
  | 0x043 => do
    r.forms e true true true
    let d ← r.dst e false false
    let a ← r.srcW e true false 0
    let b ← r.srcW e true false 1
    oneQ d.isQ [a, b]
    r.rsv { d := true, a := true, b := true, mods := 0xFF } [a, b] d.mirror
    return .iaddc ⟨r.hdr, fld 0 4 r.mods, fld 4 4 r.mods, d, a, b⟩
  | 0x044 => decI2 e r false .isub
  | 0x045 => decI2 e r false .imul
  | 0x046 => decI2 e r false .imulh
  | 0x047 => decI3 e r false .imad
  | 0x048 => decI1 e r false false .iabs
  | 0x049 => decI1 e r false false .ineg
  | 0x04A => decI2 e r false .imin
  | 0x04B => decI2 e r false .imax
  | 0x04C => decI2 e r false .and
  | 0x04D => decI2 e r false .or
  | 0x04E => decI2 e r false .xor
  | 0x04F => decI1 e r false false .not
  | 0x050 => decI2 e r true .shl
  | 0x051 => decI2 e r true .shr
  | 0x052 => decI2 e r true .sar
  | 0x053 => decI2 e r true .rot
  | 0x054 => decI2 e r true .bfe
  | 0x055 => decI3 e r true .bfi
  | 0x056 => decI1 e r true false .popc
  | 0x057 => decI1 e r true false .clz
  | 0x058 => decI1 e r false false .brev
  | 0x059 => do
    r.forms e true true true
    let d ← r.dst e true false
    let a ← r.srcW e true true 0
    let b ← r.srcW e true false 1
    oneQ false [b]
    r.rsv { d := true, a := true, b := true, mods := 0xE3 } [a, b] .none
    clear (!r.m 1)
    return .lea ⟨r.hdr, r.m 0, fld 5 3 r.mods, d, a, b⟩
  | 0x05A => do
    r.forms e true true true
    let t := r.ty
    let d ← r.dst e t.w64 false
    let a ← r.srcW e true t.w64 0
    let b ← r.srcW e true t.w64 1
    oneQ d.isQ [a, b]
    if e.mode = .k1 then do
      let p ← r.selK1 e
      r.rsv { d := true, a := true, b := true, c := true, mods := 0xFB } [a, b] d.mirror
      return .sel ⟨r.hdr, t, p, false, d, a, b⟩
    else do
      r.rsv { d := true, a := true, b := true, mods := 0xFB } [a, b] d.mirror
      return .sel ⟨r.hdr, t, fld 4 4 r.mods, r.m 3, d, a, b⟩
  | 0x05B => do
    r.forms e true true true
    let t := r.ty
    let pd ← r.d.pred e
    let a ← r.srcW e true t.w64 0
    let b ← r.srcW e true t.w64 1
    oneQ false [a, b]
    r.rsv { d := true, a := true, b := true, mods := 0xE3 } [a, b] .none
    return .isetp ⟨r.hdr, t, ← clearOr (icmpOf (fld 5 3 r.mods)), pd, a, b⟩
  | 0x080 => decF2 e r false .fadd
  | 0x081 => decF2 e r false .fmul
  | 0x082 => decF3 e r false .ffma
  | 0x083 => decD2 e r false .fmin
  | 0x084 => decD2 e r false .fmax
  | 0x085 => decFSetp e r false .fsetp
  | 0x086 => do
    r.forms e true true true
    let f := fclassOf (fld 0 2 r.mods)
    let d ← r.dst e false false
    let a ← r.srcW e true f.w64 0
    oneQ d.isQ [a]
    r.rsv { d := true, a := true, mods := 0x03 } [a] d.mirror
    return .fclass ⟨r.hdr, f, d, a⟩
  | 0x087 => decF1 e r .frcp
  | 0x088 => decF1 e r .frsq
  | 0x089 => decF1 e r .fsqrt
  | 0x08A => decF1 e r .fex2
  | 0x08B => decF1 e r .flg2
  | 0x08C => decF1 e r .fsin
  | 0x08D => decF1 e r .fcos
  | 0x08E => decF1 e r .frnd
  | 0x08F => decP2 e r .hadd2
  | 0x090 => decP2 e r .hmul2
  | 0x091 => decP3 e r .hfma2
  | 0x092 => decPM e r .hmin2
  | 0x093 => decPM e r .hmax2
  | 0x094 => decF2 e r true .dadd
  | 0x095 => decF2 e r true .dmul
  | 0x096 => decF3 e r true .dfma
  | 0x097 => decFSetp e r true .dsetp
  | 0x0C0 => decCvtF e r
  | 0x0C1 => decCvtI e r
  | 0x0C2 => do
    r.forms e true true true
    let d ← r.dst e false false
    let a ← r.srcW e true false 0
    let b ← r.srcW e true false 1
    oneQ d.isQ [a, b]
    r.rsv { d := true, a := true, b := true, mods := 0xFE } [a, b] d.mirror
    let (f, pos) ← decQPos r
    return .cvtQ ⟨r.hdr, f, pos, d, a, b⟩
  | 0x0C3 => do
    r.forms e true true true
    let d ← r.dst e false false
    let a ← r.srcW e true false 0
    let b ← r.srcW e true false 1
    oneQ d.isQ [a, b]
    r.rsv { d := true, a := true, b := true, mods := 0x1F } [a, b] d.mirror
    let f := packOf (fld 3 2 r.mods)
    let rm ← r.rnd
    clear (decide (f = .f16 ∨ f = .bf16) || decide (rm = .dyn))
    return .pack ⟨r.hdr, f, rm, d, a, b⟩
  | 0x0C4 => do
    r.forms e true true true
    let d ← r.dst e false false
    let a ← r.srcW e true false 0
    oneQ d.isQ [a]
    r.rsv { d := true, a := true, mods := 0xFE } [a] d.mirror
    let (f, pos) ← decQPos r
    return .unpk ⟨r.hdr, f, pos, d, a⟩
  | 0x0C8 => do
    r.forms e true true true
    let pd ← r.d.pred e
    let pa ← r.a.pred e
    let pb ← r.b.pred e
    r.rsv { d := true, a := true, b := true, mods := 0x0F } [] .none
    return .plop ⟨r.hdr, fld 0 4 r.mods, pd, pa, pb⟩
  | 0x0C9 => decPMov e r
  | 0x0D0 => do
    r.forms e true true true
    let d ← r.dst e false false
    let a ← r.srcW e true false 0
    let b ← r.srcW e true false 1
    oneQ d.isQ [a, b]
    r.rsv { d := true, a := true, b := true, mods := 0x03 } [a, b] d.mirror
    return .shfl ⟨r.hdr, shflOf (fld 0 2 r.mods), d, a, b⟩
  | 0x0D1 => decD2 e r true .bcast
  | 0x0D2 => decWRed e r false .redw
  | 0x0D3 => decWRed e r true .scanw
  | 0x0D4 => do
    r.forms e true true true
    let (d, m) ← r.dstVM e 1
    let a ← r.srcW e true false 0
    let b ← r.srcP e true 1 Src.isS
    r.rsv { d := true, a := true, b := true, mods := 0x0F } [a] m
    return .xchg ⟨r.hdr, fld 0 4 r.mods, d, m, a, b⟩
  | 0x0D8 => do
    r.forms e true true true
    legal (!r.d.m1 && !r.d.m0)
    let pair := r.m 2
    let d ← (do
      let n := r.d.code.toNat
      if n < 0x100 then
        legal (decide (n < e.vN) && (!pair || decide (n % 2 = 0)))
        return RegName.v (r.d.code.setWidth 8)
      else if n < 0x180 then
        legal (e.sOk (n - 0x100) && (!pair || (decide (n % 2 = 0) && e.sOk (n - 0xFF))))
        return RegName.s (r.d.code.setWidth 7)
      else .error .illegalOperand)
    r.rsv { d := true, mods := 0x07 } [] .none
    return .femark ⟨r.hdr, ← clearOr (regStOf (fld 0 2 r.mods)), pair, d⟩
  | 0x0D9 => do
    r.forms e true true true
    let pd ← r.d.pred e
    let a ← r.srcP e false 0 (fun s => s.isV || s.isS)
    r.rsv { d := true, a := true, mods := 0x03 } [] .none
    return .fetest ⟨r.hdr, ← clearOr (regStOf (fld 0 2 r.mods)), pd, a⟩
  | 0x0DA => do
    r.forms e true true true
    match ← r.dst e false false with
    | .o k => do
      let a ← r.srcP e false 0 Src.isV
      r.rsv { d := true, a := true } [] .none
      return .ocld ⟨r.hdr, k, a⟩
    | _ => .error .illegalOperand
  | 0x100 => decS1 e r false true true true .smov
  | 0x101 => do
    r.forms e true true true
    let d ← r.dstS e
    let a ← r.srcP e true 0 Src.isImm
    r.rsv { d := true, a := true, mods := 0x01 } [a] .none
    return .smovi ⟨r.hdr, r.m 0, d, a⟩
  | 0x102 => decS2 e r .sadd
  | 0x103 => decS2 e r .ssub
  | 0x104 => decS2 e r .smul
  | 0x105 => decS2 e r .sand
  | 0x106 => decS2 e r .sor
  | 0x107 => decS2 e r .sxor
  | 0x108 => decS2 e r .sshl
  | 0x109 => do
    r.forms e true true true
    let d ← r.dstS e
    let a ← r.srcP e true 0 Src.isSI
    let b ← r.srcP e true 1 Src.isSI
    r.rsv { d := true, a := true, b := true, mods := 0x01 } [a, b] .none
    return .sshr ⟨r.hdr, r.m 0, d, a, b⟩
  | 0x10A => do
    r.forms e true true true
    let pd ← r.d.pred e
    let a ← r.srcP e true 0 Src.isSI
    let b ← r.srcP e true 1 Src.isSI
    r.rsv { d := true, a := true, b := true, mods := 0xE1 } [a, b] .none
    return .ssetp ⟨r.hdr, ← clearOr (icmpOf (fld 5 3 r.mods)), r.m 0, pd, a, b⟩
  | 0x10B => decRds e r
  | 0x10C => decWrs e r
  | 0x10D => decHA e r true true true Src.isSI .setfmt
  | 0x10E => decHA e r true true true Src.isSI .setmode
  | 0x140 => do
    r.forms e true false false
    if r.m 0 then do
      r.rsv { mods := 0x01 } [] .none
      return .mxbindRel ⟨r.hdr⟩
    else do
      let a ← r.srcP e true 0 Src.isImm
      r.rsv { a := true, mods := 0x01 } [a] .none
      return .mxbind ⟨r.hdr, a⟩
  | 0x141 => do
    r.forms e true true false
    let hi ← r.d.accBase e
    let ta ← r.a.tile e
    let tb ← r.b.tile e
    let sc ← (if r.form = .f64 then pure none else some <$> r.srcP e false 2 Src.isV)
    r.rsv { d := true, a := true, b := true, c := true, mods := 0x01 } [] .none
    return .mxstep ⟨r.hdr, hi, ta, tb, r.m 0, sc⟩
  | 0x142 => do
    r.forms e true true false
    let hi ← r.d.accBase e
    let a ← r.srcP e false 0 Src.isS
    let b ← r.srcP e false 1 Src.isS
    let sc ← (if r.form = .f64 then pure none else some <$> r.srcP e false 2 Src.isS)
    r.rsv { d := true, a := true, b := true, c := true } [] .none
    return .mxloop ⟨r.hdr, hi, a, b, sc⟩
  | 0x143 => decH0 e r 0 .mxwait
  | 0x144 => do
    r.forms e true false false
    let d ← r.d.acc e
    let m : BitVec 3 := fld 0 3 r.mods
    legal (decide (d.toNat + m.toNat + 1 ≤ 8))
    r.rsv { d := true, mods := 0x07 } [] .none
    return .azero ⟨r.hdr, d, m⟩
  | 0x145 => do
    r.forms e true false false
    if r.m 0 then do
      let acc ← r.d.acc e
      let a ← r.srcP e false 0 Src.isV
      r.rsv { d := true, a := true, mods := 0xF1 } [] .none
      return .amov ⟨r.hdr, fld 4 4 r.mods, .intoAcc acc a⟩
    else do
      let (d, m) ← r.dstVM e 1
      let acc ← r.a.acc e
      r.rsv { d := true, a := true, mods := 0xF1 } [] m
      return .amov ⟨r.hdr, fld 4 4 r.mods, .fromAcc d m acc⟩
  | 0x146 => do
    let t := r.m 2
    r.forms e (!t) true false
    let acc ← r.d.acc e
    let base ← r.srcP e true 0 Src.isS
    let off ← r.srcP e true 1 Src.isSI
    let fmt := match (fld 0 2 r.mods : BitVec 2).toNat with
      | 0 => DrainFmt.f32
      | 1 => .f16
      | 2 => .bf16
      | _ => .s32
    if t then do
      let c ← r.srcP e true 2 Src.isS
      r.rsv { d := true, a := true, b := true, c := true, mods := 0x07 } [off] .none
      clear (decide (fmt ≠ .s32))
      return .adrain ⟨r.hdr, fmt, acc, base, off, some c⟩
    else do
      r.rsv { d := true, a := true, b := true, mods := 0x07 } [off] .none
      return .adrain ⟨r.hdr, fmt, acc, base, off, none⟩
  | 0x147 => do
    r.forms e true false false
    let t ← r.d.tile e
    r.rsv { d := true } [] .none
    return .tzero ⟨r.hdr, t⟩
  | 0x148 => do
    r.forms e true false false
    if r.m 0 then do
      let t ← r.d.tile e
      let a ← r.srcP e false 0 Src.isV
      r.rsv { d := true, a := true, mods := 0x0F } [] .none
      return .tmov ⟨r.hdr, fld 1 3 r.mods, .intoTile t a⟩
    else do
      let (d, m) ← r.dstVM e 1
      let t ← r.a.tile e
      r.rsv { d := true, a := true, mods := 0x0F } [] m
      return .tmov ⟨r.hdr, fld 1 3 r.mods, .fromTile d m t⟩
  | 0x149 => decVV e r .bppack
  | 0x14A => decVV e r .bpunpk
  | 0x150 => do
    r.forms e true false false
    let sz : BitVec 2 := fld 0 2 r.mods
    let n := r.a.code.toNat
    legal (!r.a.m1 && !r.a.m0 && decide (n < 0x100) && decide (n % 8 = 0) && decide (n < e.vN)
      && (decide (sz = 3) || decide (n + 8 * 2 ^ sz.toNat ≤ e.vN)))
    r.rsv { a := true, mods := 0x03 } [] .none
    clear (decide (sz ≠ 3))
    return .propose ⟨r.hdr, r.a.code.setWidth 8, sz⟩
  | 0x151 => do
    r.forms e true false false
    let pd ← r.d.pred e
    let a ← r.srcP e false 0 (fun s => match s with
      | .v _ _ _ => true
      | .o _ => true
      | .la => true
      | .lb => true
      | _ => false)
    r.rsv { d := true, a := true } [] .none
    return .accept ⟨r.hdr, pd, a⟩
  | 0x152 => decH0 e r 0 .reject
  | 0x153 => decHAB e r false Src.isS Src.isS .rngkey
  | 0x154 => do
    r.forms e true false false
    let (d, m) ← r.dstVM e 1
    r.rsv { d := true, mods := 0x01 } [] m
    return .rng ⟨r.hdr, r.m 0, d, m⟩
  | 0x155 => decHA e r true false false (fun s => s.isSI || (s.isV && s.okW true)) .rngctr
  | 0x180 => decLd e r
  | 0x181 => decSt e r
  | 0x182 => decLds e r
  | 0x183 => decSts e r
  | 0x184 => decLdsc e r
  | 0x185 => decTileMem e r false .ldt
  | 0x186 => decTileMem e r false .ldtt
  | 0x187 => decTileMem e r true .stt
  | 0x188 => decRange e r true true .pf
  | 0x189 => decCodeRange e r .ipf
  | 0x18A => decCodeRange e r .ipin
  | 0x18B => decCodeRange e r .iunpin
  | 0x18C => decHAB e r true Src.isS Src.isSI .seal
  | 0x18D => decHAB e r true Src.isS Src.isSI .unseal
  | 0x18E => decRange e r true true .cinv
  | 0x18F => decRange e r false true .cwb
  | 0x190 => do
    r.forms e true true false
    let a ← r.srcP e true 0 Src.isSI
    let (q, qm) ← r.quadAt e 1
    r.rsv { a := true, b := true } [a] .none
    return .brset ⟨r.hdr, a, q, qm⟩
  | 0x191 => decHAB e r true Src.isSI Src.isSI .bradd
  | 0x192 => decHAB e r true Src.isSI Src.isSI .brdel
  | 0x193 => decBrrd e r
  | 0x194 => decRange e r false false .unpark
  | 0x195 => do
    r.forms e true true true
    let d ← r.dstS e
    let (n, rm) ← r.quadAt e 0
    let idx ← r.srcP e false 1 Src.isSI
    r.rsv { d := true, a := true, b := true, wide := true } [] .none
    return .parkq ⟨r.hdr, d, n, rm, idx, r.wide⟩
  | 0x1A0 => decAtomI e r
  | 0x1A1 => decAtomF e r false .atomF
  | 0x1A2 => decAtomCas e r
  | 0x1A3 => decAtomF e r true .atomX2
  | 0x1A4 => decRed e r
  | 0x1A5 => decAtoms e r
  | 0x1C0 => do
    r.forms e true false false
    r.rsv { mods := 0x1F } [] .none
    return .fence ⟨r.hdr, scopeOf (fld 2 3 r.mods), ← clearOr (fenceOf (fld 0 2 r.mods))⟩
  | 0x1C1 => decH0 e r 0 .bar
  | 0x1C2 => do
    r.forms e true true false
    let d ← r.dstS e
    let a ← r.srcP e true 0 Src.isSI
    if r.m 0 then do
      let b ← r.srcP e true 1 Src.isSI
      r.rsv { d := true, a := true, b := true, mods := 0x01 } [a, b] .none
      return .bara ⟨r.hdr, d, a, some b⟩
    else do
      r.rsv { d := true, a := true, mods := 0x01 } [a] .none
      return .bara ⟨r.hdr, d, a, none⟩
  | 0x1C3 => decHAB e r true Src.isSI Src.isSI .barw
  | 0x1C4 => decH0 e r 0 .gbar
  | 0x1C5 => do
    r.forms e true true false
    let d ← r.dstS e
    let a ← r.srcP e true 0 Src.isSI
    let b ← r.srcP e true 1 Src.isSI
    r.rsv { d := true, a := true, b := true, mods := 0x1C } [a, b] .none
    return .cpy ⟨r.hdr, scopeOf (fld 2 3 r.mods), d, a, b⟩
  | 0x1C6 => decTl e r .tlwait
  | 0x1C8 => do
    r.forms e true false false
    let d ← r.dstS e
    let (n, rm) ← r.quadAt e 0
    r.rsv { d := true, a := true } [] .none
    return .spawn ⟨r.hdr, d, n, rm⟩
  | 0x1C9 => do
    r.forms e true false false
    match ← r.dst e false false with
    | .q q => do
      let a ← r.srcP e false 0 (Src.isVal false)
      r.rsv { d := true, a := true, mods := 0xF1 } [] .none
      return .qpush ⟨r.hdr, q, a, ← decNb r⟩
    | _ => .error .illegalOperand
  | 0x1CA => do
    r.forms e true false false
    let d ← r.dstV e 1
    match ← r.srcAt e false 0 with
    | .q q empt => do
      legal (!(empt && r.m 0))
      r.rsv { d := true, a := true, mods := 0xF1 } [] .none
      return .qpop ⟨r.hdr, d, q, empt, ← decNb r⟩
    | _ => .error .illegalOperand
  | 0x1CB => do
    r.forms e true false false
    let d ← r.dstS e
    match ← r.srcAt e false 0 with
    | .q q false => do
      r.rsv { d := true, a := true } [] .none
      return .qcnt ⟨r.hdr, d, q⟩
    | _ => .error .illegalOperand
  | 0x1D0 => decHCode e r .trap
  | 0x1D1 => do
    r.forms e true false false
    r.rsv { mods := 0x03 } [] .none
    let m := match (fld 0 2 r.mods : BitVec 2).toNat with
      | 0 => RethMode.dflt
      | 1 => .rs
      | 2 => .nx
      | _ => .pc
    return .reth ⟨r.hdr, m⟩
  | 0x1D2 => do
    r.forms e true false false
    let a ← r.srcP e true 0 Src.isImm
    let (d, m) ← r.dstVM e (if a = .zero ∨ a = .imm 0 then 2 else 1)
    r.rsv { d := true, a := true } [a] m
    return .rdtr ⟨r.hdr, d, m, a⟩
  | 0x1D3 => do
    r.forms e true false false
    r.rsv { mods := 0x01 } [] .none
    return (if r.m 0 then .termTeam ⟨r.hdr⟩ else .term ⟨r.hdr⟩)
  | 0x1D8 => decS1 e r false true true false .cntrd
  | 0x1D9 => decHA e r true true false Src.isSI .cntclr
  | 0x1DA => decTl e r .tladv
  | _ => .error .unimplemented

/-- Checks 3 to 8 of R66 on taken-apart fields. A form that the entry excludes (check 3) is reported before block crossing
(check 4); the null opcode (check 5) and an unassigned opcode (check 6) after it. -/
def decodeRaw (e : Env) (r : Raw) : Dec Instr :=
  let crossing := decide (e.mode ≠ .k1) && decide (e.pcMod32 + r.form.step > 32)
  match decodeOp e r with
  | .error .illegalLength => .error .illegalLength
  | x =>
    if crossing then .error .blockCrossing
    else if r.op = 0 then .error .nullOpcode
    else x

/-- The instruction of a word in a decode mode: bit 0 is the first bit of the first word (R5). In K1 code the null and unlisted
opcodes are found in K1's own table (R75), in K2 code in K2's (R72). -/
def decode (e : Env) (w : BitVec 128) : Dec Instr :=
  match e.mode with
  | .k3 =>
    match formOf (fld 0 2 w) with
    | none => .error .illegalLength
    | some f => decodeRaw e (rawK3 f w)
  | .k2 =>
    match formOf (fld 0 2 w) with
    | none => .error .illegalLength
    | some f =>
      match k2Op (fld 2 9 w) with
      | some op => decodeRaw e (rawK2 f op w)
      | none => if e.pcMod32 + f.step > 32 then .error .blockCrossing else .error .unimplemented
  | .k1 =>
    match k1Op (fld 0 8 w) with
    | some (op, mods) => decodeRaw e (rawK1 op mods w)
    | none => .error .unimplemented

/-- Bytes an instruction's fetch decodes (R47): the PC step in a mode, 8 for the length code `11` and for K1. -/
def stepOf (m : DecodeMode) (w : BitVec 128) : Nat :=
  match m with
  | .k1 => 8
  | _ => match formOf (fld 0 2 w) with
    | some f => f.step
    | none => 8

/-- The instruction a K3 word of `nbits` bits names, with every register within the budget. -/
def decodeTableWord (nbits w : Nat) : Option Instr :=
  match decode .max (BitVec.ofNat 128 (w % 2 ^ nbits)) with
  | .ok i => some i
  | .error _ => none

/-! ### The operand record (R76, R77) -/

/-- One operand field as the trap record holds it: class code, index or value, and the 16 bits of `$trapopf`. -/
structure OpRec where
  cls : Nat := 0
  val : BitVec 64 := 0
  f   : Nat := 0
  deriving DecidableEq, Repr

/-- Class and value of a code of the K3 or K2 operand table; `raw` is the whole field, `w` the wide value of a `0x200`. -/
def recK3 (code : Nat) (raw : Nat) (w : BitVec 64) : Nat × BitVec 64 :=
  if code < 0x100 then (1, BitVec.ofNat 64 code)
  else if code < 0x180 then (2, BitVec.ofNat 64 (code - 0x100))
  else if code < 0x188 then (3, BitVec.ofNat 64 (code - 0x180))
  else if code < 0x18A then (4, BitVec.ofNat 64 (code - 0x188))
  else if code = 0x18A then (6, 0)
  else if 0x18C ≤ code ∧ code < 0x190 then (5, BitVec.ofNat 64 (code - 0x18C))
  else if code = 0x200 then (6, w)
  else if 0x200 < code ∧ code < 0x300 then (6, (BitVec.ofNat 8 code).signExtend 64)
  else (7, BitVec.ofNat 64 raw)

/-- The records of a K3 field: `dst` fields record the mirror select and slot, source fields the marks. -/
def opRecK3 (dst : Bool) (slot : Nat) (w : BitVec 64) (f : Fld) : OpRec :=
  let (c, v) := recK3 f.code.toNat f.to12.toNat w
  let hi := f.m1.toNat * 2 + f.m0.toNat
  { cls := c, val := v
    f := if dst then c + hi * 64 + (if hi = 3 then slot * 256 else 0) else c + f.m1.toNat * 16 + f.m0.toNat * 32 }

/-- The K2 operand table: latches, slots and queues are not named (R71). -/
def opRecK2 (w : BitVec 64) (x : BitVec 10) : OpRec :=
  let n := x.toNat
  let (c, v) := if 0x180 ≤ n ∧ n < 0x200 then (7, BitVec.ofNat 64 n) else recK3 n n w
  { cls := c, val := v, f := c }

/-- The K1 operand table (R74). -/
def opRecK1 (w : BitVec 64) (x : BitVec 9) : OpRec :=
  let n := x.toNat
  let (c, v) := if n < 0x100 then (1, BitVec.ofNat 64 n) else if n < 0x140 then (2, BitVec.ofNat 64 (n - 0x100))
    else if n = 0x1FF then (6, w) else (7, BitVec.ofNat 64 n)
  { cls := c, val := v, f := c }

/-- The wide values of sources A, B, C: the first `0x200` takes the wide operand, a later one reads 0 (R55). -/
def wideVals (long : Bool) (wide : BitVec 64) (a b c : Bool) : BitVec 64 × BitVec 64 × BitVec 64 :=
  if !long then (0, 0, 0)
  else (if a then wide else 0, if b && !a then wide else 0, if c && !a && !b then wide else 0)

/-- The operand records of D, A, B, C for a word whose format is known; all absent where it is not (R76, R387). A destination field that names
the wide operand (`0x200` of K3 or K2 in a longer form, `0x1FF` of K1) is recorded as an immediate with value 0 (log entry 54). -/
def operandRecs (m : DecodeMode) (w : BitVec 128) : List OpRec :=
  match m with
  | .k1 =>
    let x : BitVec 64 := (fld 48 16 w).signExtend 64
    [opRecK1 0 (fld 12 9 w), opRecK1 x (fld 21 9 w), opRecK1 x (fld 30 9 w), opRecK1 x (fld 39 9 w)]
  | .k3 =>
    match formOf (fld 0 2 w) with
    | none => [{}, {}, {}, {}]
    | some f =>
      let r := rawK3 f w
      let (x, y, z) := wideVals (decide (f ≠ .f64)) (r.wide.signExtend 64) (r.a.code == 0x200) (r.b.code == 0x200)
        (r.c.code == 0x200)
      [opRecK3 true r.slot.toNat 0 r.d, opRecK3 false 0 x r.a, opRecK3 false 0 y r.b,
       if f = .f64 then {} else opRecK3 false 0 z r.c]
  | .k2 =>
    match formOf (fld 0 2 w) with
    | none => [{}, {}, {}, {}]
    | some f =>
      let a : BitVec 10 := fld 26 10 w
      let b : BitVec 10 := fld 36 10 w
      let c : BitVec 10 := fld 64 10 w
      let wide : BitVec 32 := match f with
        | .f64 => 0
        | .f96 => (fld 76 20 w).signExtend 32
        | .f128 => fld 76 32 w
      let (x, y, z) := wideVals (decide (f ≠ .f64)) (wide.signExtend 64) (a == 0x200) (b == 0x200) (c == 0x200)
      [opRecK2 0 (fld 16 10 w), opRecK2 x a, opRecK2 y b, if f = .f64 then {} else opRecK2 z c]

/-- Length field of `$trapcause` and whether the length is known (R388). -/
def lengthField (m : DecodeMode) (w : BitVec 128) : Nat :=
  match m with
  | .k1 => 0
  | _ => match formOf (fld 0 2 w) with
    | some .f96 => 1
    | some .f128 => 2
    | _ => 0

/-! ### The K3 encoder (R53 to R58, R60 to R64) -/

/-- The K3 word of taken-apart fields: bits beyond the form are 0. -/
def Raw.word (r : Raw) : BitVec 128 :=
  let len : BitVec 2 := match r.form with
    | .f64 => 0
    | .f96 => 1
    | .f128 => 2
  let low : BitVec 64 := r.mods ++ r.slot ++ r.b.to12 ++ r.a.to12 ++ r.d.to12 ++ BitVec.ofBool r.gneg ++ r.gp ++ r.op ++ len
  match r.form with
  | .f64 => (0 : BitVec 64) ++ low
  | .f96 => (0 : BitVec 32) ++ (r.wide.setWidth 20 : BitVec 20) ++ r.c.to12 ++ low
  | .f128 => r.mem ++ r.wide ++ r.c.to12 ++ low

/-- A field of a plain code. -/
def Fld.code' (n : Nat) : Fld := { code := BitVec.ofNat 10 n, m1 := false, m0 := false }

/-- The field of a source (R60). -/
def Src.fld : Src → Fld
  | .v n d e => { code := (0 : BitVec 2) ++ n, m1 := d, m0 := e }
  | .s n d e => { code := (2 : BitVec 3) ++ n, m1 := d, m0 := e }
  | .o k => .code' (0x180 + k.toNat)
  | .la => .code' 0x188
  | .lb => .code' 0x189
  | .zero => .code' 0x18A
  | .q k e => { code := (99 : BitVec 8) ++ k, m1 := false, m0 := e }
  | .imm b => { code := (2 : BitVec 2) ++ b, m1 := false, m0 := false }
  | .wide _ => .code' 0x200

/-- The field of an optional source. -/
def Src.fld? : Option Src → Fld
  | some x => x.fld
  | none => .zero

/-- The wide operand of the sources that may take it (R55). -/
def wideOf (xs : List Src) : BitVec 32 :=
  match xs.findSome? fun x => match x with
    | .wide w => some w
    | _ => none with
  | some w => w
  | none => 0

/-- The mirror bits of a destination field (R12). -/
def Mirror.bits : Mirror → Bool × Bool
  | .none => (false, false)
  | .la => (false, true)
  | .lb => (true, false)
  | .o _ => (true, true)

/-- The mirrored slot (R12). -/
def Mirror.slot : Mirror → BitVec 3
  | .o k => k
  | _ => 0

/-- A vector destination with its mirror. -/
def vFld (n : BitVec 8) (m : Mirror) : Fld := { code := (0 : BitVec 2) ++ n, m1 := m.bits.1, m0 := m.bits.2 }

/-- A scalar field without marks. -/
def sFld (n : BitVec 7) : Fld := { code := (2 : BitVec 3) ++ n, m1 := false, m0 := false }

/-- A record or quad field with its marks. -/
def quadFld (n : BitVec 7) (m : Bool × Bool) : Fld := { code := (2 : BitVec 3) ++ n, m1 := m.1, m0 := m.2 }

/-- The field of a destination (R61). -/
def Dst.fld : Dst → Fld
  | .v n m => vFld n m
  | .s n => sFld n
  | .o k => .code' (0x180 + k.toNat)
  | .la => .code' 0x188
  | .lb => .code' 0x189
  | .q k => .code' (0x18C + k.toNat)

/-- A typed field (R62). -/
def tFld {n : Nat} (x : BitVec n) : Fld := .code' x.toNat

def IType.enc : IType → BitVec 2
  | .s32 => 0 | .z32 => 1 | .s64 => 2 | .z64 => 3

def Rnd.enc : Rnd → BitVec 3
  | .dyn => 0 | .rn => 4 | .rz => 5 | .ru => 6 | .rd => 7

def ICmp.enc : ICmp → BitVec 3
  | .eq => 0 | .ne => 1 | .lt => 2 | .le => 3 | .gt => 4 | .ge => 5

def FCmp.enc : FCmp → BitVec 4
  | .ord c => (0 : BitVec 1) ++ c.enc
  | .unord c => (1 : BitVec 1) ++ c.enc
  | .num => 14
  | .nan => 15

def FFmt.enc : FFmt → BitVec 2
  | .f64 => 0 | .f32 => 1 | .f16 => 2 | .bf16 => 3

def FFmt.encClass : FFmt → BitVec 2
  | .f32 => 0 | .f16 => 1 | .bf16 => 2 | .f64 => 3

def CvtSrc.enc : CvtSrc → BitVec 3
  | .f t => (0 : BitVec 1) ++ t.enc
  | .i t => (1 : BitVec 1) ++ t.enc

def QFmt.enc : QFmt → BitVec 4
  | .f16 => 0 | .bf16 => 1 | .e4m3 => 2 | .e5m2 => 3 | .e2m1 => 4 | .s16 => 5 | .z16 => 6 | .s8 => 7 | .z8 => 8 | .s4 => 9
  | .z4 => 10

def PackFmt.enc : PackFmt → BitVec 2
  | .f16 => 0 | .bf16 => 1 | .s16 => 2 | .z16 => 3

def WaveOp.enc : WaveOp → BitVec 4
  | .addS32 => 0 | .addF32 => 1 | .minS32 => 2 | .minZ32 => 3 | .minF32 => 4 | .maxS32 => 5 | .maxZ32 => 6 | .maxF32 => 7
  | .and => 8 | .or => 9 | .xor => 10

def ShflMode.enc : ShflMode → BitVec 2
  | .idx => 0 | .up => 1 | .down => 2 | .xor => 3

def RegState.enc : RegState → BitVec 2
  | .full => 0 | .empty => 1 | .poison => 2

def Size.enc : Size → BitVec 3
  | .b => 0 | .h => 1 | .w => 2 | .d => 3 | .q => 4

def Conv.enc : Conv → BitVec 4
  | .raw => 0 | .f16 => 1 | .bf16 => 2 | .e4m3 => 3 | .e5m2 => 4 | .s8 => 5 | .z8 => 6 | .s16 => 7 | .z16 => 8

def Scope.enc : Scope → BitVec 3
  | .wave => 0 | .team => 1 | .core => 2 | .cluster => 3 | .die => 4 | .device => 5 | .node => 6 | .system => 7

def Policy.enc : Policy → BitVec 3
  | .normal => 0 | .cb => 1 | .ev => 2 | .lu => 3 | .na => 4

def Ord.enc : Ord → BitVec 2
  | .plain => 0 | .acq => 1 | .rel => 2 | .ar => 3

def FenceKind.enc : FenceKind → BitVec 2
  | .acq => 1 | .rel => 2 | .ar => 3

def AtomOp.enc : AtomOp → BitVec 3
  | .add => 0 | .min => 1 | .max => 2 | .and => 3 | .or => 4 | .xor => 5 | .exch => 6

def FAtomOp.enc : FAtomOp → BitVec 2
  | .add => 0 | .min => 1 | .max => 2

def CasW.enc : CasW → BitVec 2
  | .b32 => 0 | .b64 => 1 | .b128 => 2

/-- Operation and type of `RED`, bits [61:56]. -/
def RedOp.enc : RedOp → BitVec 6
  | .int op t => (0 : BitVec 1) ++ op.enc ++ t.enc
  | .addF32 => 24
  | .addF64 => 28
  | .add2F16 => 32
  | .add2BF16 => 36

/-- Operation and type of `ATOMS`, bits [61:56]. -/
def LAtomOp.enc : LAtomOp → BitVec 6
  | .int op t => (0 : BitVec 1) ++ op.enc ++ t.enc
  | .cas t => (7 : BitVec 4) ++ t.enc
  | .addF32 => 32
  | .add2F16 => 36
  | .add2BF16 => 40

/-- The memory fields (R57), bits [127:108]; a form without them holds none. -/
def MemF.enc (f : Form) (m : MemF) : BitVec 20 :=
  match f with
  | .f128 => (0 : BitVec 3) ++ BitVec.ofBool m.bear.isSome ++ m.ord.enc ++ m.pol.enc ++ m.scope.enc ++ (match m.bear with
      | some b => b
      | none => (0 : BitVec 8))
  | _ => 0

/-- Fields of an instruction with the header `h` and every operand field zero. -/
def Hdr.raw (h : Hdr) (op : Nat) : Raw :=
  { op := BitVec.ofNat 10 op, form := h.form, gneg := h.gneg, gp := h.gp, d := .zero, a := .zero, b := .zero, c := .zero
    slot := 0, mods := 0, wide := 0, mem := 0, bad := false }

/-- A destination with its mirrored slot. -/
def Raw.withD (r : Raw) (d : Dst) : Raw := { r with d := d.fld, slot := d.mirror.slot }
/-- A vector destination with its mirrored slot. -/
def Raw.withV (r : Raw) (n : BitVec 8) (m : Mirror) : Raw := { r with d := vFld n m, slot := m.slot }

def H0.enc (x : H0) (op : Nat) : Raw := x.h.raw op
def HCode.enc (x : HCode) (op : Nat) : Raw := { x.h.raw op with mods := x.code }
def HA.enc (x : HA) (op : Nat) : Raw := { x.h.raw op with a := x.a.fld, wide := wideOf [x.a] }
def HAB.enc (x : HAB) (op : Nat) : Raw := { x.h.raw op with a := x.a.fld, b := x.b.fld, wide := wideOf [x.a, x.b] }
def I1.enc (x : I1) (op : Nat) : Raw :=
  { (x.h.raw op).withD x.d with a := x.a.fld, mods := (0 : BitVec 6) ++ x.t.enc, wide := wideOf [x.a] }
def I2.enc (x : I2) (op : Nat) : Raw :=
  { (x.h.raw op).withD x.d with a := x.a.fld, b := x.b.fld, mods := (0 : BitVec 6) ++ x.t.enc, wide := wideOf [x.a, x.b] }
def I3.enc (x : I3) (op : Nat) : Raw :=
  { (x.h.raw op).withD x.d with
    a := x.a.fld, b := x.b.fld, c := x.c.fld, mods := (0 : BitVec 6) ++ x.t.enc, wide := wideOf [x.a, x.b, x.c] }
def F1.enc (x : F1) (op : Nat) : Raw :=
  { (x.h.raw op).withD x.d with a := x.a.fld, mods := (0 : BitVec 5) ++ x.rm.enc, wide := wideOf [x.a] }
def F2.enc (x : F2) (op : Nat) : Raw :=
  { (x.h.raw op).withD x.d with a := x.a.fld, b := x.b.fld, mods := (0 : BitVec 5) ++ x.rm.enc, wide := wideOf [x.a, x.b] }
def F3.enc (x : F3) (op : Nat) : Raw :=
  { (x.h.raw op).withD x.d with
    a := x.a.fld, b := x.b.fld, c := x.c.fld, mods := (0 : BitVec 5) ++ x.rm.enc, wide := wideOf [x.a, x.b, x.c] }
def D1.enc (x : D1) (op : Nat) : Raw := { (x.h.raw op).withD x.d with a := x.a.fld, wide := wideOf [x.a] }
def D2.enc (x : D2) (op : Nat) : Raw :=
  { (x.h.raw op).withD x.d with a := x.a.fld, b := x.b.fld, wide := wideOf [x.a, x.b] }
def P2.enc (x : P2) (op : Nat) : Raw :=
  { (x.h.raw op).withD x.d with
    a := x.a.fld, b := x.b.fld, mods := (0 : BitVec 4) ++ BitVec.ofBool x.bf ++ x.rm.enc, wide := wideOf [x.a, x.b] }
def P3.enc (x : P3) (op : Nat) : Raw :=
  { (x.h.raw op).withD x.d with
    a := x.a.fld, b := x.b.fld, c := x.c.fld, mods := (0 : BitVec 4) ++ BitVec.ofBool x.bf ++ x.rm.enc
    wide := wideOf [x.a, x.b, x.c] }
def PM.enc (x : PM) (op : Nat) : Raw :=
  { (x.h.raw op).withD x.d with
    a := x.a.fld, b := x.b.fld, mods := (0 : BitVec 4) ++ BitVec.ofBool x.bf ++ (0 : BitVec 3), wide := wideOf [x.a, x.b] }
def FSetp.enc (x : FSetp) (op : Nat) : Raw :=
  { x.h.raw op with
    d := tFld x.pd, a := x.a.fld, b := x.b.fld, mods := x.cmp.enc ++ (0 : BitVec 4), wide := wideOf [x.a, x.b] }
def WRed.enc (x : WRed) (op : Nat) : Raw :=
  { (x.h.raw op).withD x.d with
    a := x.a.fld, mods := (0 : BitVec 3) ++ BitVec.ofBool x.excl ++ x.op.enc, wide := wideOf [x.a] }
def S1.enc (x : S1) (op : Nat) : Raw := { x.h.raw op with d := sFld x.d, a := x.a.fld, wide := wideOf [x.a] }
def S2.enc (x : S2) (op : Nat) : Raw :=
  { x.h.raw op with d := sFld x.d, a := x.a.fld, b := x.b.fld, wide := wideOf [x.a, x.b] }
def TileMem.enc (x : TileMem) (op : Nat) (store : Bool) : Raw :=
  let r := { x.h.raw op with a := x.a.fld, mods := (0 : BitVec 7) ++ BitVec.ofBool x.sw, wide := wideOf [x.a] }
  if store then { r with b := tFld x.t } else { r with d := tFld x.t }
/-- `memf` gives a 128-bit form its default memory fields (R56). -/
def Range.enc (x : Range) (op : Nat) (memf : Bool) : Raw :=
  { x.h.raw op with
    a := quadFld x.r x.rm, b := x.idx.fld, c := x.len.fld, mods := (0 : BitVec 7) ++ BitVec.ofBool x.lvl, wide := x.off
    mem := if memf then MemF.dflt.enc x.h.form else 0 }
def CodeRange.enc (x : CodeRange) (op : Nat) : Raw :=
  { x.h.raw op with
    a := x.a.fld, b := x.b.fld, mods := (0 : BitVec 7) ++ BitVec.ofBool x.lvl, wide := wideOf [x.a, x.b] }
def TlOp.enc (x : TlOp) (op : Nat) : Raw :=
  { x.h.raw op with
    a := x.a.fld, b := x.b.fld, mods := (0 : BitVec 3) ++ x.scope.enc ++ (0 : BitVec 2), wide := wideOf [x.a, x.b] }
def VV.enc (x : VV) (op : Nat) : Raw := { (x.h.raw op).withV x.d x.m with a := x.a.fld }
/-- The addressing fields of a global atomic (R294). -/
def AtomAddr.enc (x : AtomAddr) (h : Hdr) (op : Nat) (mods : BitVec 7) : Raw :=
  { h.raw op with
    a := quadFld x.r x.rm, b := x.idx.fld, c := x.data.fld, mods := BitVec.ofBool x.i64 ++ mods, wide := x.off, mem := x.mf.enc h.form }
def AtomF.enc (x : AtomF) (op : Nat) : Raw :=
  { x.ad.enc x.h op ((0 : BitVec 3) ++ x.op.enc ++ (0 : BitVec 1) ++ BitVec.ofBool x.fmt1) with d := vFld x.d .none }
/-- The predicate of a `.nb` form (R368). -/
def nbBits : Option (BitVec 4) → BitVec 8
  | some p => p ++ (1 : BitVec 4)
  | none => 0

def RethMode.enc : RethMode → BitVec 8
  | .dflt => 0 | .rs => 1 | .nx => 2 | .pc => 3

def VoteOp.enc (h : Hdr) : VoteOp → Raw
  | .any p => { h.raw 0x00C with d := tFld p, mods := 0 }
  | .all p => { h.raw 0x00C with d := tFld p, mods := 1 }
  | .eq p => { h.raw 0x00C with d := tFld p, mods := 2 }
  | .ballot d => { h.raw 0x00C with d := sFld d, mods := 3 }

def PMovOp.enc (h : Hdr) : PMovOp → Raw
  | .pp pd pa => { h.raw 0x0C9 with d := tFld pd, a := tFld pa, mods := 0 }
  | .vp d pa => { (h.raw 0x0C9).withD d with a := tFld pa, mods := 1 }
  | .pv pd a => { h.raw 0x0C9 with d := tFld pd, a := a.fld, mods := 2 }
  | .sp sd pa => { h.raw 0x0C9 with d := sFld sd, a := tFld pa, mods := 3 }
  | .ps pd a => { h.raw 0x0C9 with d := tFld pd, a := a.fld, mods := 4 }

def RegName.fld : RegName → Fld
  | .v n => vFld n .none
  | .s n => sFld n

def DrainFmt.enc : DrainFmt → BitVec 2
  | .f32 => 0 | .f16 => 1 | .bf16 => 2 | .s32 => 3

/-- The fields of an instruction; none for an event, which has no word. -/
def encodeRaw : Instr → Option Raw
  | .nop x => some (x.enc 0x001)
  | .bra x => some { x.h.raw 0x002 with wide := x.off }
  | .brx x => some (x.enc 0x003)
  | .call x => some { x.h.raw 0x004 with d := sFld x.d, wide := x.off }
  | .callx x => some { x.h.raw 0x005 with d := sFld x.d, a := x.a.fld }
  | .ret x => some (x.enc 0x006)
  | .hinge x => some (x.enc 0x007)
  | .wpt x => some (x.enc 0x008)
  | .endFrag x => some (x.enc 0x009)
  | .yield x => some (x.enc 0x00A)
  | .sleep x => some (x.enc 0x00B)
  | .vote x => some { x.op.enc x.h with a := tFld x.pa }
  | .brkpt x => some (x.enc 0x00D)
  | .mov x => some (x.enc 0x040)
  | .movi x => some (x.enc 0x041)
  | .iadd x => some (x.enc 0x042)
  | .iaddc x => some { (x.h.raw 0x043).withD x.d with
      a := x.a.fld, b := x.b.fld, mods := x.cout ++ x.cin, wide := wideOf [x.a, x.b] }
  | .isub x => some (x.enc 0x044)
  | .imul x => some (x.enc 0x045)
  | .imulh x => some (x.enc 0x046)
  | .imad x => some (x.enc 0x047)
  | .iabs x => some (x.enc 0x048)
  | .ineg x => some (x.enc 0x049)
  | .imin x => some (x.enc 0x04A)
  | .imax x => some (x.enc 0x04B)
  | .and x => some (x.enc 0x04C)
  | .or x => some (x.enc 0x04D)
  | .xor x => some (x.enc 0x04E)
  | .not x => some (x.enc 0x04F)
  | .shl x => some (x.enc 0x050)
  | .shr x => some (x.enc 0x051)
  | .sar x => some (x.enc 0x052)
  | .rot x => some (x.enc 0x053)
  | .bfe x => some (x.enc 0x054)
  | .bfi x => some (x.enc 0x055)
  | .popc x => some (x.enc 0x056)
  | .clz x => some (x.enc 0x057)
  | .brev x => some (x.enc 0x058)
  | .lea x => some { (x.h.raw 0x059).withD x.d with
      a := x.a.fld, b := x.b.fld, mods := x.sh ++ (0 : BitVec 4) ++ BitVec.ofBool x.zext, wide := wideOf [x.a, x.b] }
  | .sel x => some { (x.h.raw 0x05A).withD x.d with
      a := x.a.fld, b := x.b.fld, mods := x.p ++ BitVec.ofBool x.pneg ++ (0 : BitVec 1) ++ x.t.enc, wide := wideOf [x.a, x.b] }
  | .isetp x => some { x.h.raw 0x05B with
      d := tFld x.pd, a := x.a.fld, b := x.b.fld, mods := x.cmp.enc ++ (0 : BitVec 3) ++ x.t.enc, wide := wideOf [x.a, x.b] }
  | .fadd x => some (x.enc 0x080)
  | .fmul x => some (x.enc 0x081)
  | .ffma x => some (x.enc 0x082)
  | .fmin x => some (x.enc 0x083)
  | .fmax x => some (x.enc 0x084)
  | .fsetp x => some (x.enc 0x085)
  | .fclass x => some { (x.h.raw 0x086).withD x.d with
      a := x.a.fld, mods := (0 : BitVec 6) ++ x.fmt.encClass, wide := wideOf [x.a] }
  | .frcp x => some (x.enc 0x087)
  | .frsq x => some (x.enc 0x088)
  | .fsqrt x => some (x.enc 0x089)
  | .fex2 x => some (x.enc 0x08A)
  | .flg2 x => some (x.enc 0x08B)
  | .fsin x => some (x.enc 0x08C)
  | .fcos x => some (x.enc 0x08D)
  | .frnd x => some (x.enc 0x08E)
  | .hadd2 x => some (x.enc 0x08F)
  | .hmul2 x => some (x.enc 0x090)
  | .hfma2 x => some (x.enc 0x091)
  | .hmin2 x => some (x.enc 0x092)
  | .hmax2 x => some (x.enc 0x093)
  | .dadd x => some (x.enc 0x094)
  | .dmul x => some (x.enc 0x095)
  | .dfma x => some (x.enc 0x096)
  | .dsetp x => some (x.enc 0x097)
  | .cvtF x => some { (x.h.raw 0x0C0).withD x.d with
      a := x.a.fld, mods := x.src.enc ++ x.dst.enc ++ x.rm.enc, wide := wideOf [x.a] }
  | .cvtI x => some { (x.h.raw 0x0C1).withD x.d with
      a := x.a.fld, mods := x.src.enc ++ x.dst.enc ++ x.rm.enc, wide := wideOf [x.a] }
  | .cvtQ x => some { (x.h.raw 0x0C2).withD x.d with
      a := x.a.fld, b := x.b.fld, mods := x.fmt.enc ++ x.pos ++ (0 : BitVec 1), wide := wideOf [x.a, x.b] }
  | .pack x => some { (x.h.raw 0x0C3).withD x.d with
      a := x.a.fld, b := x.b.fld, mods := (0 : BitVec 3) ++ x.fmt.enc ++ x.rm.enc, wide := wideOf [x.a, x.b] }
  | .unpk x => some { (x.h.raw 0x0C4).withD x.d with
      a := x.a.fld, mods := x.fmt.enc ++ x.pos ++ (0 : BitVec 1), wide := wideOf [x.a] }
  | .plop x => some { x.h.raw 0x0C8 with d := tFld x.pd, a := tFld x.pa, b := tFld x.pb, mods := (0 : BitVec 4) ++ x.tt }
  | .pmov x => some (x.op.enc x.h)
  | .shfl x => some { (x.h.raw 0x0D0).withD x.d with
      a := x.a.fld, b := x.b.fld, mods := (0 : BitVec 6) ++ x.mode.enc, wide := wideOf [x.a, x.b] }
  | .bcast x => some (x.enc 0x0D1)
  | .redw x => some (x.enc 0x0D2)
  | .scanw x => some (x.enc 0x0D3)
  | .xchg x => some { (x.h.raw 0x0D4).withV x.d x.m with
      a := x.a.fld, b := x.b.fld, mods := (0 : BitVec 4) ++ x.g, wide := wideOf [x.a] }
  | .femark x => some { x.h.raw 0x0D8 with d := x.d.fld, mods := (0 : BitVec 5) ++ BitVec.ofBool x.pair ++ x.st.enc }
  | .fetest x => some { x.h.raw 0x0D9 with d := tFld x.pd, a := x.a.fld, mods := (0 : BitVec 6) ++ x.st.enc }
  | .ocld x => some { (x.h.raw 0x0DA).withD (.o x.k) with a := x.a.fld }
  | .smov x => some (x.enc 0x100)
  | .smovi x => some { x.h.raw 0x101 with
      d := sFld x.d, a := x.a.fld, mods := (0 : BitVec 7) ++ BitVec.ofBool x.flag, wide := wideOf [x.a] }
  | .sadd x => some (x.enc 0x102)
  | .ssub x => some (x.enc 0x103)
  | .smul x => some (x.enc 0x104)
  | .sand x => some (x.enc 0x105)
  | .sor x => some (x.enc 0x106)
  | .sxor x => some (x.enc 0x107)
  | .sshl x => some (x.enc 0x108)
  | .sshr x => some { x.h.raw 0x109 with
      d := sFld x.d, a := x.a.fld, b := x.b.fld, mods := (0 : BitVec 7) ++ BitVec.ofBool x.flag, wide := wideOf [x.a, x.b] }
  | .ssetp x => some { x.h.raw 0x10A with
      d := tFld x.pd, a := x.a.fld, b := x.b.fld, mods := x.cmp.enc ++ (0 : BitVec 4) ++ BitVec.ofBool x.z64
      wide := wideOf [x.a, x.b] }
  | .rds x => some { (x.h.raw 0x10B).withD x.d with a := tFld x.n }
  | .wrs x => some { x.h.raw 0x10C with d := tFld x.n, a := x.a.fld, wide := wideOf [x.a] }
  | .setfmt x => some (x.enc 0x10D)
  | .setmode x => some (x.enc 0x10E)
  | .mxbind x => some (x.enc 0x140)
  | .mxbindRel x => some { x.h.raw 0x140 with mods := 1 }
  | .mxstep x => some { x.h.raw 0x141 with
      d := .code' (if x.hi then 4 else 0), a := tFld x.ta, b := tFld x.tb, c := Src.fld? x.sc
      mods := (0 : BitVec 7) ++ BitVec.ofBool x.k }
  | .mxloop x => some { x.h.raw 0x142 with d := .code' (if x.hi then 4 else 0), a := x.a.fld, b := x.b.fld, c := Src.fld? x.sc }
  | .mxwait x => some (x.enc 0x143)
  | .azero x => some { x.h.raw 0x144 with d := tFld x.d, mods := (0 : BitVec 5) ++ x.m }
  | .amov x => some (match x.op with
      | .fromAcc d m acc => { (x.h.raw 0x145).withV d m with a := tFld acc, mods := x.part ++ (0 : BitVec 4) }
      | .intoAcc acc a => { x.h.raw 0x145 with d := tFld acc, a := a.fld, mods := x.part ++ (1 : BitVec 4) })
  | .adrain x => some { x.h.raw 0x146 with
      d := tFld x.acc, a := x.base.fld, b := x.off.fld, c := Src.fld? x.tq
      mods := (0 : BitVec 5) ++ BitVec.ofBool x.tq.isSome ++ x.fmt.enc, wide := wideOf [x.off] }
  | .tzero x => some { x.h.raw 0x147 with d := tFld x.t }
  | .tmov x => some (match x.op with
      | .fromTile d m t => { (x.h.raw 0x148).withV d m with a := tFld t, mods := (0 : BitVec 4) ++ x.part ++ (0 : BitVec 1) }
      | .intoTile t a => { x.h.raw 0x148 with d := tFld t, a := a.fld, mods := (0 : BitVec 4) ++ x.part ++ (1 : BitVec 1) })
  | .bppack x => some (x.enc 0x149)
  | .bpunpk x => some (x.enc 0x14A)
  | .propose x => some { x.h.raw 0x150 with a := vFld x.base .none, mods := (0 : BitVec 6) ++ x.size }
  | .accept x => some { x.h.raw 0x151 with d := tFld x.pd, a := x.a.fld }
  | .reject x => some (x.enc 0x152)
  | .rngkey x => some (x.enc 0x153)
  | .rng x => some { (x.h.raw 0x154).withV x.d x.m with mods := (0 : BitVec 7) ++ BitVec.ofBool x.f32 }
  | .rngctr x => some (x.enc 0x155)
  | .ld x => some { x.h.raw 0x180 with
      d := vFld x.d .none, a := quadFld x.r x.rm, b := x.idx.fld, mods := BitVec.ofBool x.i64 ++ x.conv.enc ++ x.sz.enc, wide := x.off
      mem := x.mf.enc x.h.form }
  | .st x => some { x.h.raw 0x181 with
      a := quadFld x.r x.rm, b := x.idx.fld, c := x.data.fld, mods := BitVec.ofBool x.i64 ++ x.conv.enc ++ x.sz.enc, wide := x.off
      mem := x.mf.enc x.h.form }
  | .lds x => some { x.h.raw 0x182 with
      d := vFld x.d .none, a := x.a.fld, mods := (0 : BitVec 1) ++ x.conv.enc ++ x.sz.enc, wide := x.off }
  | .sts x => some { x.h.raw 0x183 with
      a := x.a.fld, b := x.b.fld, mods := (0 : BitVec 1) ++ x.conv.enc ++ x.sz.enc, wide := x.off }
  | .ldsc x => some { x.h.raw 0x184 with
      d := sFld x.d, a := quadFld x.r x.rm, b := x.idx.fld, mods := (0 : BitVec 6) ++ x.m, wide := x.off, mem := x.mf.enc x.h.form }
  | .ldt x => some (x.enc 0x185 false)
  | .ldtt x => some (x.enc 0x186 false)
  | .stt x => some (x.enc 0x187 true)
  | .pf x => some (x.enc 0x188 true)
  | .ipf x => some (x.enc 0x189)
  | .ipin x => some (x.enc 0x18A)
  | .iunpin x => some (x.enc 0x18B)
  | .seal x => some (x.enc 0x18C)
  | .unseal x => some (x.enc 0x18D)
  | .cinv x => some (x.enc 0x18E true)
  | .cwb x => some (x.enc 0x18F true)
  | .brset x => some { x.h.raw 0x190 with a := x.a.fld, b := quadFld x.q x.qm, wide := wideOf [x.a] }
  | .bradd x => some (x.enc 0x191)
  | .brdel x => some (x.enc 0x192)
  | .brrd x => some (x.enc 0x193)
  | .unpark x => some (x.enc 0x194 false)
  | .parkq x => some { x.h.raw 0x195 with d := sFld x.d, a := quadFld x.r x.rm, b := x.idx.fld, wide := x.off }
  | .atomI x => some { x.ad.enc x.h 0x1A0 ((0 : BitVec 2) ++ x.op.enc ++ x.t.enc) with d := vFld x.d .none }
  | .atomF x => some (x.enc 0x1A1)
  | .atomCas x => some { x.ad.enc x.h 0x1A2 ((0 : BitVec 5) ++ x.w.enc) with d := vFld x.d .none }
  | .atomX2 x => some (x.enc 0x1A3)
  | .red x => some (x.ad.enc x.h 0x1A4 ((0 : BitVec 1) ++ x.op.enc))
  | .atoms x => some { x.h.raw 0x1A5 with
      d := vFld x.d .none, a := x.a.fld, b := x.b.fld, c := Src.fld? x.c, mods := (0 : BitVec 2) ++ x.op.enc, wide := x.off }
  | .fence x => some { x.h.raw 0x1C0 with mods := (0 : BitVec 3) ++ x.scope.enc ++ x.kind.enc }
  | .bar x => some (x.enc 0x1C1)
  | .bara x => some { x.h.raw 0x1C2 with
      d := sFld x.d, a := x.a.fld, b := Src.fld? x.tx, mods := (0 : BitVec 7) ++ BitVec.ofBool x.tx.isSome
      wide := wideOf (x.a :: x.tx.toList) }
  | .barw x => some (x.enc 0x1C3)
  | .gbar x => some (x.enc 0x1C4)
  | .cpy x => some { x.h.raw 0x1C5 with
      d := sFld x.d, a := x.a.fld, b := x.b.fld, mods := (0 : BitVec 3) ++ x.scope.enc ++ (0 : BitVec 2), wide := wideOf [x.a, x.b] }
  | .tlwait x => some (x.enc 0x1C6)
  | .spawn x => some { x.h.raw 0x1C8 with d := sFld x.d, a := quadFld x.r x.rm }
  | .qpush x => some { (x.h.raw 0x1C9).withD (.q x.q) with a := x.a.fld, mods := nbBits x.nb }
  | .qpop x => some { x.h.raw 0x1CA with d := vFld x.d .none, a := (Src.q x.q x.empt).fld, mods := nbBits x.nb }
  | .qcnt x => some { x.h.raw 0x1CB with d := sFld x.d, a := (Src.q x.q false).fld }
  | .trap x => some (x.enc 0x1D0)
  | .reth x => some { x.h.raw 0x1D1 with mods := x.m.enc }
  | .rdtr x => some { (x.h.raw 0x1D2).withV x.d x.m with a := x.sel.fld, wide := wideOf [x.sel] }
  | .term x => some { x.h.raw 0x1D3 with mods := 0 }
  | .termTeam x => some { x.h.raw 0x1D3 with mods := 1 }
  | .cntrd x => some (x.enc 0x1D8)
  | .cntclr x => some (x.enc 0x1D9)
  | .tladv x => some (x.enc 0x1DA)
  | .yieldEnd _ => none
  | .sleepEnd _ => none
  | .xchgArrival _ => none
  | .xchgWithdrawal _ => none
  | .adrainCompletion _ => none
  | .matrixStepStart _ _ => none
  | .matrixStepCompletion _ _ => none
  | .accumulatorEffect _ => none
  | .tileFillCompletion _ _ => none
  | .gridBarrierTeamMessage _ => none
  | .gridBarrierDieMessage _ _ => none
  | .gridBarrierRelease _ _ => none
  | .copyStart _ => none
  | .copyLocalWrite _ => none
  | .copyRetirement _ => none
  | .memoryReply _ => none
  | .sliceRequest _ => none
  | .launchIntake _ => none
  | .teamPlacement _ => none
  | .swapReturn _ => none
  | .dispatchHold _ => none
  | .quantumTick _ => none
  | .doorbell _ _ => none
  | .vacate _ _ => none
  | .vacateComplete _ => none
  | .drain _ _ => none
  | .watchdogExpiry _ => none
  | .eventSize _ _ => none
  | .eventReadIndex _ _ => none
  | .switchAborts _ _ => none
  | .eventsLost _ _ => none
  | .descriptor _ _ _ => none
  | .registerWrite _ _ _ => none
  | .createContext _ => none
  | .destroyContext _ => none
  | .load _ => none
  | .unload _ => none
  | .writePartitionEntry _ => none
  | .writePeerRoute _ => none
  | .deviceConfiguration _ => none
  | .readSensors _ => none
  | .readEventLog _ => none
  | .readAndClearErrorCounts _ => none
  | .readAgeing _ => none
  | .setPowerState _ => none
  | .firmwareUpdate _ => none
  | .attest _ => none
  | .coldReset _ => none
  | .functionLevelReset => none
  | .thermalTrip => none
  | .sensorRefresh _ => none
  | .ageingUpdate _ => none
  | .patrol _ _ _ => none
  | .correctedError _ _ _ => none
  | .uncorrectableError _ => none
  | .hostRead _ _ => none
  | .hostWrite _ _ => none
  | .hostAtomicop _ _ => none
  | .translationCompletion _ _ => none
  | .pageResponse _ _ _ => none
  | .invalidationRequest _ _ _ _ => none
  | .invalidationCompletion _ => none
  | .peerRequest _ _ _ => none
  | .linkLoss _ => none
  | .timeSliceTick _ => none
  | .dieHalted _ _ => none
  | .exchangeEnd _ _ => none
  | .switchAbort _ => none
  | .unimplementedOpcode _ => none
  | .unknownOpcode => none
  | .priEnable => none

/-- The K3 word of an instruction, in the low bits its length counts (R47); none for an event. -/
def encode (i : Instr) : Option (BitVec 128) := (encodeRaw i).map Raw.word

end Sys2Proof
end

