-- ==== Sys2Proof/Machine/Mem.lean ====
section
/-! DEFINITION. Byte memories in one canonical form, and tables of numbered entries. Every memory of the machine is a list of
(address, byte) pairs with addresses strictly rising and no entry of value 0, which is what an unlisted address reads as. -/

namespace Sys2Proof.Machine

/-- A memory: listed (address, byte) pairs; an unlisted address reads 0 (R433; host and peer memory: log entry 4). -/
abbrev Memory := List (Nat × Byte)

/-- What an unlisted address reads as. -/
def Memory.unlisted : Byte := 0

/-- The canonical form: addresses at least `lo` and strictly rising, no listed byte equal to the unlisted one. -/
def Memory.wfFrom (lo : Nat) : Memory → Bool
  | [] => true
  | (a, b) :: m => decide (lo ≤ a) && decide (b ≠ Memory.unlisted) && Memory.wfFrom (a + 1) m

/-- The canonical form. -/
def Memory.wf (m : Memory) : Bool := Memory.wfFrom 0 m

/-- One byte. -/
def Memory.get : Memory → Nat → Byte
  | [], _ => Memory.unlisted
  | (a, b) :: m, x => if a = x then b else Memory.get m x

/-- Listing a byte in its place. -/
def Memory.put : Memory → Nat → Byte → Memory
  | [], x, v => [(x, v)]
  | (a, b) :: m, x, v => if x < a then (x, v) :: (a, b) :: m else if x = a then (a, v) :: m else (a, b) :: Memory.put m x v

/-- Writing one byte keeps the canonical form: writing the unlisted value removes the entry. -/
def Memory.set (m : Memory) (x : Nat) (v : Byte) : Memory :=
  if v = Memory.unlisted then m.filter fun e => e.1 ≠ x else Memory.put m x v

/-- `n` bytes from an address. -/
def Memory.bytes (m : Memory) (a n : Nat) : List Byte := (List.range n).map fun i => m.get (a + i)

/-- Writing bytes from an address on. -/
def Memory.setBytes (m : Memory) (a : Nat) : List Byte → Memory
  | [] => m
  | b :: bs => Memory.setBytes (m.set a b) (a + 1) bs

/-- `n` bytes from an address become 0. -/
def Memory.zero (m : Memory) (a n : Nat) : Memory := m.filter fun e => !(decide (a ≤ e.1) && decide (e.1 < a + n))

/-- The first `n` bytes, from address `a`, of a memory that lists none below. -/
def Memory.image : Nat → Memory → Nat → List Byte
  | 0, _, _ => []
  | n + 1, [], a => Memory.unlisted :: Memory.image n [] (a + 1)
  | n + 1, (x, b) :: m, a => if x = a then b :: Memory.image n m (a + 1) else Memory.unlisted :: Memory.image n ((x, b) :: m) (a + 1)

/-- A memory with bytes from an address on and nothing else. -/
def Memory.ofBytes : Nat → List Byte → Memory
  | _, [] => []
  | a, b :: bs => if b = Memory.unlisted then Memory.ofBytes (a + 1) bs else (a, b) :: Memory.ofBytes (a + 1) bs

/-- A little-endian number (R5). -/
def leNat : List Byte → Nat
  | [] => 0
  | b :: bs => b.toNat + 256 * leNat bs

/-- The little-endian bytes of a number. -/
def leBytes : Nat → Nat → List Byte
  | 0, _ => []
  | n + 1, x => BitVec.ofNat 8 x :: leBytes n (x / 256)

/-- A little-endian value of `n` bytes. -/
def Memory.num (m : Memory) (a n : Nat) : Nat := leNat (m.bytes a n)

/-- Writing a little-endian value of `n` bytes. -/
def Memory.setNum (m : Memory) (a n x : Nat) : Memory := m.setBytes a (leBytes n x)

/-! ### Tables of numbered entries -/

/-- Entries by number; a missing entry has the default. -/
abbrev Tab (α : Type) := List (Nat × α)

def Tab.get? {α : Type} : Tab α → Nat → Option α
  | [], _ => none
  | (k, v) :: t, x => if k = x then some v else Tab.get? t x

def Tab.getD {α : Type} (d : α) (t : Tab α) (x : Nat) : α :=
  match Tab.get? t x with
  | some v => v
  | none => d

/-- Setting an entry keeps the others in their places. -/
def Tab.set {α : Type} : Tab α → Nat → α → Tab α
  | [], x, v => [(x, v)]
  | (k, w) :: t, x, v => if k = x then (x, v) :: t else (k, w) :: Tab.set t x v

/-- Changing an entry that is present. -/
def Tab.mod {α : Type} (f : α → α) : Tab α → Nat → Tab α
  | [], _ => []
  | (k, w) :: t, x => if k = x then (k, f w) :: t else (k, w) :: Tab.mod f t x

def Tab.del {α : Type} (t : Tab α) (x : Nat) : Tab α := t.filter fun e => e.1 ≠ x

/-- A counted event: the count of key `x` plus `n`. -/
def Tab.add (t : Tab Nat) (x n : Nat) : Tab Nat := if n = 0 then t else Tab.set t x (Tab.getD 0 t x + n)

end Sys2Proof.Machine
end

