-- ==== Sys2Proof/Machine/State.lean ====
section
/-! DEFINITION. The state of the whole device as plain data, the reasons a step can stop, and the state after reset. -/

namespace Sys2Proof.Machine

/-! ### Registers of a wave (R78) -/

/-- A vector register: its lanes' values, the dead lanes and the lanes with a pending kill (R90), its state (R94), whether a
variable-latency producer has written it and no read has followed (R33), and its written-in-region bit (R92). -/
structure VReg where
  val  : Lanes    := []
  dead : Mask     := BitVec.allOnes 64
  kill : Mask     := 0
  st   : RegState := .full
  owed : Bool     := false
  wir  : Bool     := false
  deriving DecidableEq, Repr

/-- A scalar register. -/
structure SReg where
  val  : DWord    := 0
  dead : Bool     := true
  kill : Bool     := false
  st   : RegState := .full
  owed : Bool     := false
  deriving DecidableEq, Repr

/-- A last-result latch (R87). -/
structure Latch where
  val   : Lanes := []
  valid : Mask  := 0
  deriving DecidableEq, Repr

/-- The state of an operand-cache slot (R88). -/
inductive SlotSt where
  | empty
  | eph
  | clean (v : Nat)
  deriving DecidableEq, Repr

/-- An operand-cache slot (R88). -/
structure Slot where
  st    : SlotSt := .empty
  val   : Lanes  := []
  valid : Mask   := 0
  deriving DecidableEq, Repr

/-- An open proposal (R188 to R201): window, shadow values, written bits, entry copy and primary states by window register. -/
structure Proposal where
  base : Nat
  n    : Nat
  sh   : Tab Lanes    := []
  w    : Tab Mask     := []
  e    : Tab Mask     := []
  prim : Tab RegState := []
  deriving DecidableEq, Repr

/-! ### Fragments (R29 to R35, R373) -/

/-- The class of a cause (R382). -/
inductive TClass where
  | t | f | h | a
  deriving DecidableEq, Repr

/-- What the trapping instruction captured for one lane, which `RDTR` reads (R401). -/
structure Cap where
  va   : DWord      := 0
  data : BitVec 256 := 0
  idx  : Word       := 0
  deriving DecidableEq, Repr

/-- A raised cause with the record it writes at its handler's entry (registers 32 to 46, R387). -/
structure Trap where
  cause : Nat
  cls   : TClass
  trec  : List DWord := []
  cap   : Tab Cap    := []
  op    : Option Nat := none
  deriving DecidableEq, Repr

/-- A deferred record (R30). -/
structure Rec where
  mask    : Mask
  pc      : Nat
  bound   : Option (Nat × Nat) := none
  arrived : Mask := 0
  deriving DecidableEq, Repr

/-- What a waiting instruction does once its release is made: operands captured at issue (R35). -/
inductive Cont where
  | fence (aq : Bool)
  | bar
  | bara (d : BitVec 7) (o t : Nat) (trec : List DWord)
  | gbar
  | cpy (d : BitVec 7) (c : Nat) (rq : BitVec 256)
  | tladv (c n : Nat)
  | spawn (d : BitVec 7) (rq : BitVec 256)
  | send (op : Nat)
  deriving DecidableEq, Repr

/-- The waits of a fragment (R35). `op` is the wait for an operation or an exchange, `tile` that of a tile load which makes a region entry at its
completion (R33). -/
inductive Wait where
  | none
  | yield
  | sleep
  | rel (sc : Scope) (upto : Nat) (c : Cont)
  | acq (sc : Scope) (upto : Nat)
  | bar
  | barw (o : Nat) (tok : Bool)
  | gbar
  | tlwait (sc : Scope) (c n : Nat) (trec : List DWord)
  | op (id : Nat)
  | tile (t : Nat)
  | xlate (id : Nat)
  | mxwait
  | pop (q : Nat)
  | push (q : Nat)
  | spawn (d : BitVec 7) (rq : BitVec 256)
  | cpyq (d : BitVec 7) (c : Nat) (rq : BitVec 256)
  deriving DecidableEq, Repr

/-- The state of a fragment (R373). `parked` is replay-parked or held on operation `op`; `pending` is trap-pending (R384). -/
inductive FragSt where
  | running
  | held (pc id : Nat)
  | waiting
  | parked (op : Nat)
  | pending (t : Trap)
  deriving DecidableEq, Repr

/-- The operands of an instruction that waits to push or pop, as they were at its issue (R35): the lanes that take part, the registers and `$mode`
(R109). -/
structure Captured where
  part : Mask
  md   : BitVec 32
  v    : Tab VReg
  s    : Tab SReg
  hs   : Tab SReg
  la   : Latch
  lb   : Latch
  o    : Tab Slot
  prop : Option Proposal
  deriving DecidableEq, Repr

/-- A fragment (R373). `born` is its creation order, `rctr` the counters recorded at the region entry (R203), `wake` the clock
before which it is not ready, `since` the start of its wait, `late` the class-A causes to raise before its next issue, `refetch` whether the
4 clocks of its next instruction's refetch have been waited for (R89), `hinged` the operations that a hinge which merged lanes into it orders before
its later accesses (R308), `prior` the operations that lanes of it had issued before a split and that a hinge will order so (R308), `capt` the operands
of an instruction that waits at a role queue, `readV` and `readS` the registers whose first reads since its region entry have ended a producer's
obligation, which a restart brings back (R33). -/
structure Frag where
  entry  : Nat
  born   : Nat         := 0
  pc     : Nat         := 0
  mask   : Mask        := 0
  st     : FragSt      := .running
  slip   : Nat         := 0
  fmt    : DWord       := 0
  stack  : List Rec    := []
  rpc    : Nat         := 0
  rmask  : Mask        := 0
  rstack : List Rec    := []
  rctr   : Tab DWord   := []
  wake   : Nat         := 0
  wait   : Wait        := .none
  since  : Nat         := 0
  late   : List Trap   := []
  refetch : Bool       := false
  hinged : List Nat    := []
  prior  : List Nat    := []
  capt   : Option Captured := none
  readV  : List Nat    := []
  readS  : List Nat    := []
  deriving DecidableEq, Repr

/-- What the fragment in handler mode held when it entered, and the code range that bounds it (R51, R384, R390). `since` is one more than the clock in
which the cause was raised, 0 where the fragment was trap-pending before another left handler mode. -/
structure HCtx where
  entry : Nat
  cause : Nat
  cls   : TClass
  pc    : Nat
  mask  : Mask
  stack : List Rec
  st    : FragSt
  wait  : Wait
  op    : Option Nat := none
  cap   : Tab Cap    := []
  lo    : Nat := 0
  hi    : Nat := 0
  since : Nat := 0
  deriving DecidableEq, Repr

/-! ### Matrix quads (R165 to R183) -/

/-- One member's operands of a quad operation: tiles and half with a captured scale image, or the loop scalars. -/
inductive MxOpnd where
  | step (ta tb : Nat) (k : Bool) (sc : Option Lanes)
  | loop (a b n : Nat) (ia ib : Int) (ls : Nat) (sb : Option Nat)
  deriving DecidableEq, Repr

/-- A quad operation (R175): what the first member recorded, and each member's operands. -/
structure QuadOp where
  i     : Nat
  loop  : Bool
  steps : Nat
  hi    : Bool
  snap  : DWord
  who   : Tab MxOpnd := []
  next  : Nat  := 0
  busy  : Bool := false
  deriving DecidableEq, Repr

/-- An accepted accumulator operation of a member that has not completed, in the order accepted (R176). -/
inductive AccOp where
  | azero (d n : Nat)
  | amov (d part : Nat) (mask : Mask) (vals : Lanes)
  | quad (i : Nat)
  deriving DecidableEq, Repr

/-- A bound member (R165, R173): accumulators a0 to a7 as byte images, operation number N, high mark H, the recorded N, the quad
count, and the operations accepted and not completed. -/
structure Member where
  first : Nat
  acc   : Tab Memory := []
  n     : Nat := 0
  h     : Nat := 0
  recN  : Nat := 0
  quads : Nat := 0
  pend  : List AccOp := []
  deriving DecidableEq, Repr

/-- A quad of a team: the operations recorded, and whether a member has left (R167). -/
structure Quad where
  first : Nat
  ops   : List QuadOp := []
  part  : Bool := false
  leftAt : Nat := 0
  deriving DecidableEq, Repr

/-! ### Waves and teams -/

/-- A wave, or a half-wave at width 32 (R38). `dm` is the decode mode, `md` is `$mode`, `hs`, `hla`, `hlb`, `hp14` are the
handler's own registers (R385), `trec` the trap record registers (R387), `tfill` and `towed` the filling tiles and those whose
first read is a consuming read (R252), `pBusy` the predicates an exchange has not written yet (R158); `away` says that its team is saved (R356, R399). -/
structure Wave where
  id     : Nat
  team   : Nat
  num    : Nat
  half   : Nat := 0
  core   : Nat := 0
  q      : Nat := 0
  slot   : Nat := 0
  role   : Nat := 0
  w32    : Bool := false
  dm     : DecodeMode := .k3
  vN     : Nat := 0
  sN     : Nat := 0
  tN     : Nat := 0
  obj    : Nat := 0
  base   : Nat := 0
  limit  : Nat := 0
  live   : Bool := true
  swapped : Bool := false
  away   : Bool := false
  v      : Tab VReg := []
  s      : Tab SReg := []
  p      : Tab Mask := []
  pBusy  : List Nat := []
  t      : Tab Memory := []
  tfill  : List Nat := []
  towed  : List Nat := []
  la     : Latch := {}
  lb     : Latch := {}
  o      : Tab Slot := []
  md     : BitVec 32 := 0
  flags  : BitVec 32 := 0
  wpc    : DWord := 0
  acc    : BitVec 32 := 0
  rej    : BitVec 32 := 0
  keyLo  : DWord := 0
  keyHi  : DWord := 0
  rngctr : Tab DWord := []
  trec   : Tab DWord := []
  hs     : Tab SReg := []
  hla    : Latch := {}
  hlb    : Latch := {}
  hp14   : Mask := 0
  h      : Option HCtx := none
  prop   : Option Proposal := none
  mx     : Option Member := none
  frags  : List Frag := []
  born   : Nat := 0
  deriving DecidableEq, Repr

/-- Where a team is (R376). -/
inductive TLoc where
  | resident | swapPart | displaced | queued | gone
  deriving DecidableEq, Repr

/-- A copy request accepted by a core's copy request queue (R340 to R344, R363): its number `k` on counter `c`, the bytes done,
and the first error cause. `running` says that the engine has started it; `wait` are translation requests awaited, `pwait` pages awaited
and `bad` pages refused. -/
structure Copy where
  id      : Nat
  core    : Nat
  team    : Nat
  pasid   : Nat
  rq      : BitVec 256
  c       : Nat
  k       : Nat
  gtag    : Nat := 0
  tidx    : Nat := 0
  running : Bool := false
  done    : Nat  := 0
  err     : Nat  := 0
  wait    : List Nat := []
  pwait   : List Nat := []
  bad     : List Nat := []
  away    : Bool := false
  deriving DecidableEq, Repr

/-- A team: its launch and place (R17, R376), local memory (R217), the hardware barrier's arrivals (R319), the grid barrier's
arrivals and round (R336), role queues (R360) and quads. -/
structure Team where
  id     : Nat
  launch : Nat
  part   : Nat
  pasid  : Nat
  obj    : Nat
  tag    : Nat := 0
  idx    : Nat := 0
  gx     : Nat := 1
  gy     : Nat := 1
  gz     : Nat := 1
  depth  : Nat := 0
  rootQ  : Option Nat := none
  relaunch : Nat := 0
  cores  : Bool := false
  loc    : TLoc := .resident
  core   : Nat := 0
  waves  : List Nat := []
  lsize  : Nat := 0
  lmem   : Memory := []
  bar    : List Nat := []
  gb     : List Nat := []
  gbSent : Bool := false
  q      : Tab (List Lanes) := []
  quads  : List Quad := []
  prod   : Tab Nat := []
  nroles : Nat := 1
  args   : Nat := 0
  placed : Nat := 0
  copies : List Copy := []
  deriving DecidableEq, Repr

/-! ### Memory operations in flight -/

/-- One lane of a memory instruction: its element index, virtual address, physical address once translated, and captured data
(for a compare-and-swap the compare in the low half and the new value in the high half). -/
structure LaneAcc where
  lane : Nat
  idx  : Word := 0
  va   : DWord
  pa   : Nat := 0
  data : BitVec 512 := 0
  deriving DecidableEq, Repr

/-- The phase of a memory operation: its release is awaited, its lines are translated, its requests are out, or it waits for the
host with lanes unfinished or refused. -/
inductive Phase where
  | release | xlate | sent | parked
  deriving DecidableEq, Repr

/-- An instruction in the memory system (R246 to R248, R270, R289): its captured lanes. `lanes` are all of them, `out` those not yet answered,
`absent` those without a page, `refused` those refused (with cause 35, 37 or 38), `late` those refused late (R237); `held` are sectors not yet sent
(R313), `xw` translation requests awaited, `nout` the replies awaited. `wait` says that its fragment waits for its completion, `trec` is the record
its causes use, `bear` the bearing of a store, `fail` marks of its own: what a store has counted, or that an `ADRAIN` saturated, `part` the lanes that
took part in an instruction that fills scalars (R40), `lbytes` the local bytes that an `ADRAIN` writes at its completion (R186), `oob` the lanes out
of bounds, whose destinations read 0 once the access sets out (R235), `left` the lanes that have ended before it was complete (R414), `killed` says that
its team was killed or drained, which ends the loop of an emulated atomic (R366, R392). -/
structure Op where
  id     : Nat
  wave   : Nat
  entry  : Nat
  core   : Nat
  instr  : Instr
  size   : Nat
  pasid  : Nat
  pc     : Nat := 0
  trec   : List DWord := []
  phase  : Phase := .sent
  lanes  : List LaneAcc := []
  out    : List LaneAcc := []
  absent : List LaneAcc := []
  refused : List LaneAcc := []
  rcause : Nat := 0
  rdet0  : DWord := 0
  rdet1  : DWord := 0
  late   : List LaneAcc := []
  held   : List Nat := []
  xw     : List Nat := []
  nout   : Nat := 0
  poison : Bool := false
  mtype  : Nat := 0
  pol    : Policy := .normal
  bear   : Nat := 0
  part   : Mask := 0
  aq     : Bool := false
  sc     : Scope := .device
  wait   : Bool := false
  dead   : Bool := false
  hm     : Bool := false
  lbytes : List (Nat × Byte) := []
  fail   : Nat := 0
  oob    : Mask := 0
  left   : List LaneAcc := []
  killed : Bool := false
  deriving DecidableEq, Repr

/-- What a reply carries. -/
inductive RepKind where
  | data (bs : List Byte) (poison fill : Bool)
  | ack (bs : List (Nat × Byte))
  | old (vals : List LaneAcc) (poison : Bool)
  | refused (cause : Nat) (d0 d1 : DWord)
  | done
  | scal (v : List DWord)
  deriving DecidableEq, Repr

/-- What a request asks of a slice. `cas` is a remote atomic that the unit emulates (R291): the lanes still to perform, those performed, the value it
read for the first of them, and which hold of an `ATOM.X2` this is. `spread` is a store or atomic to a fan-out line in progress (R266): the bytes, the
dies whose copy does not hold them yet, the answer, and whether an `ATOM.X2` has `more` to do; `told` a changed bearing entry that cached copies do
not all hold yet (R273). -/
inductive ReqKind where
  | read (fill : Bool)
  | write (lanes : List LaneAcc)
  | atom (lanes : List LaneAcc) (second : Bool)
  | cas (todo done : List LaneAcc) (seen : Option Nat) (second : Bool)
  | red (lanes : List LaneAcc)
  | line
  | spread (bs : List (Nat × Byte)) (dies : List Nat) (ans : RepKind) (more : Bool)
  | told
  deriving DecidableEq, Repr

/-- A request on a network (R229): the operation, its source port, the slice that meets it, its sector. `joined` are the
operations that joined an ordinary fill, `mark` the mark of an acquire (R313, R314), `rt` the routing entry or host path register as it read
when the request was sent (R416), `queued` its place in the order in which requests reached their banks, once it has reached its own (R225). -/
structure Req where
  id    : Nat
  op    : Nat
  port  : Nat
  core  : Nat
  slice : Nat
  pa    : Nat
  kind  : ReqKind
  joined : List Nat := []
  mark  : Bool := false
  rt    : DWord := 0
  queued : Option Nat := none
  deriving DecidableEq, Repr

/-- A reply on a network. `sealed` says that its data fills a sealed replica (R237), `parked` that a store has been performed at a bearing's berth
(R223). -/
structure Rep where
  id    : Nat
  op    : Nat
  port  : Nat
  core  : Nat
  slice : Nat
  pa    : Nat
  kind  : RepKind
  joined : List Nat := []
  mark  : Bool := false
  sealed : Bool := false
  parked : Bool := false
  deriving DecidableEq, Repr

/-- An arrival of `XCHG` at or on its way to a mailbox (R157): the key, each lane's value, the mask, where it writes (the handler's
`p14` if `hm`), its mirror, the clock at which it reached the slice, and the lanes that have ended meanwhile (`gone`). -/
structure Xch where
  id    : Nat
  wave  : Nat
  pasid : Nat
  key   : DWord
  vals  : Lanes
  mask  : Mask
  d     : Nat
  g     : Nat
  box   : Nat
  at?   : Option Nat := none
  deposited : Bool := false
  entry : Nat := 0
  hm    : Bool := false
  mir   : Mirror := .none
  gone  : Mask := 0
  deriving DecidableEq, Repr

/-! ### Caches and the chart -/

/-- Kinds of cache line (R223). In an L2 `parked` is a copy in a park way. -/
inductive LineKind where
  | ordinary | update | parked | sealed
  deriving DecidableEq, Repr

/-- A cache line of an L1 (`loc` a core; ways 16 to 19 are park ways saved in the core's shadow storage, R223), an L2 (`loc` is 48 times the die plus
the slice) or an instruction cache (`loc` a cluster): data by byte offset with valid and dirty bytes, poisoned sectors, deltas of an update-only line
by word (R290), the contexts that pinned it with their code addresses, the update-pending bit, whether it is a first candidate for replacement (R245),
and the PASID and bearing index of a park tag (R265). `wrote` are the waves that have written a line of remote memory since it was last written back
and `users` the contexts that have used it (R227); of an update-only line `users` are the contexts whose reductions it holds (R414). -/
structure Line where
  loc    : Nat
  set    : Nat
  way    : Nat
  line   : Nat
  kind   : LineKind := .ordinary
  data   : Memory := []
  valid  : BitVec 128 := 0
  dirty  : BitVec 128 := 0
  poison : BitVec 4 := 0
  delta  : Tab (RedOp × DWord) := []
  pins   : List (Nat × Nat) := []
  pend   : Bool := false
  first  : Bool := false
  pasid  : Nat := 0
  bear   : Nat := 0
  wrote  : List Nat := []
  users  : List Nat := []
  deriving DecidableEq, Repr

/-- A bearing entry as a die (`at?` below 4) or a core (`at?` its number and 4) holds it (R258). -/
structure BearC where
  at?   : Nat
  pasid : Nat
  b     : Nat
  e     : BitVec 256
  deriving DecidableEq, Repr

/-- A chart entry (R267); `loc` is the home slice. -/
structure ChartE where
  loc   : Nat
  set   : Nat
  line  : Nat
  pasid : Nat
  bear  : Nat
  berth : Nat
  core  : Nat := 0
  dies  : BitVec 4 := 0
  order : Nat := 0
  deriving DecidableEq, Repr

/-- An ATC entry (R377); `again` says that the host has since answered a Page Request for it, so that a line which it does not permit is translated
again (R413). -/
structure AtcE where
  die   : Nat
  pasid : Nat
  va    : Nat
  pa    : Nat
  log   : Nat
  rd    : Bool
  wr    : Bool
  again : Bool := false
  deriving DecidableEq, Repr

/-- An outstanding ATS Translation Request for a 4 KiB page; `invs` are the ranges of addresses, from the first to below the last, that invalidations
have covered since it was sent (R414), `dist` when the distributor or a fetch waits for it. -/
structure AtsReq where
  id    : Nat
  die   : Nat
  pasid : Nat
  page  : Nat
  invs  : List (Nat × Nat) := []
  dist  : Bool := false
  deriving DecidableEq, Repr

/-- A PRI Page Request (R413): outstanding, or waiting inside the device until the host's allocation has room. -/
structure PageReq where
  pasid : Nat
  page  : Nat
  sent  : Bool := true
  deriving DecidableEq, Repr

/-- An invalidation whose completion is still owed: its PASID, none for all, and the operations that used a matching entry (R414). -/
structure Inval where
  tag  : Nat
  pasid : Option Nat := none
  ops  : List Nat
  deriving DecidableEq, Repr

/-! ### Contexts, launches and partitions -/

/-- A role of a code object (R374). -/
structure Role where
  entry : Nat
  prod  : BitVec 4
  tiles : Nat
  sgran : Nat
  vgran : Nat
  waves : Nat
  deriving DecidableEq, Repr

/-- A loaded code object (R426, R432); `top` is the end of its loaded image, `image` its stored bytes, whose digest `attest` reports. -/
structure Obj where
  handle : Nat
  base   : Nat
  csize  : Nat
  top    : Nat
  dm     : DecodeMode
  w32    : Bool
  idem   : Bool
  cores  : Bool
  mode   : BitVec 32
  lsize  : Nat
  nargs  : Nat
  roles  : List Role
  image  : List Byte := []
  deriving DecidableEq, Repr

/-- A timeline counter (R339): V, I, E and the numbers above V that have retired. `eNow` and `eNowCause` are the lowest number reported as erring in
the clock `eAt`, which a clear in that clock leaves (R404). -/
structure TL where
  v    : Nat := 0
  i    : Nat := 0
  e    : Nat := 0
  ecause : Nat := 0
  done : List Nat := []
  eAt  : Nat := 0
  eNow : Nat := 0
  eNowCause : Nat := 0
  deriving DecidableEq, Repr

/-- A context (R431, R432). Its trap vector table and bearing table are bytes of device DRAM at `desc`. `cnt` holds counts
`0x300` to `0x308` in full, of which a read saturates (R403), `cnt0` those at the start of this clock (R404). -/
structure Ctx where
  pasid  : Nat
  part   : Nat
  tenant : Nat
  desc   : Nat
  seals  : List (Nat × Nat) := []
  tl     : Tab TL := []
  cnt    : Tab Nat := []
  cnt0   : Tab Nat := []
  nextTag : Nat := 0
  objs   : List Obj := []
  handles : Nat := 1
  deriving DecidableEq, Repr

/-- A launch or task taken into the dispatch queue and not yet complete (R351 to R355, R358, R359). -/
structure Launch where
  id     : Nat
  part   : Nat
  pasid  : Nat
  queue  : Option Nat
  tag    : DWord := 0
  obj    : Nat
  gx     : Nat
  gy     : Nat
  gz     : Nat
  args   : Nat
  evt    : Bool := false
  cact   : Option (Nat × Nat) := none
  task   : Option (Nat × Nat) := none
  isTask : Bool := false
  depth  : Nat := 0
  gtag   : Nat := 0
  next   : Nat := 0
  ended  : Nat := 0
  since  : Nat := 0
  held   : Bool := false
  ws     : List Nat := []
  cs     : List Nat := []
  deriving DecidableEq, Repr

/-- A task record in the device task queue (R358); `res` says that it holds the reserved entry of its depth. -/
structure Task where
  rq    : BitVec 256
  pasid : Nat
  depth : Nat
  k     : Nat
  rootQ : Option Nat
  res   : Bool
  deriving DecidableEq, Repr

/-- A launch queue: the descriptor register (R420), the distributor's copy of the descriptor (R348) and the watchdog timer
(R365). -/
structure LQueue where
  reg   : DWord := 0
  en    : Bool := false
  base  : Nat := 0
  wr    : Nat := 0
  rd    : Nat := 0
  pasid : Nat := 0
  wdog  : Nat := 0
  prio  : Nat := 0
  size  : Nat := 0
  timer : Nat := 0
  busy  : Bool := false
  deriving DecidableEq, Repr

/-- A record of the host event queue (R364). -/
structure Event where
  kind   : Nat
  cause  : Nat := 0
  queue  : Nat := 255
  clock  : Nat := 0
  detail : Nat := 0
  tag    : DWord := 0
  deriving DecidableEq, Repr

/-- The state of one die during a time-slice switch (R422 to R424): halting, exchanging since a clock, exchanged, exchanging back
until a clock, or back. -/
inductive DieSw where
  | halting
  | exchanging (since : Nat)
  | exchanged
  | backing (until? : Nat)
  | back
  deriving DecidableEq, Repr

/-- A switch in progress: its tick and the dies of the gang. -/
structure Switch where
  tick : Nat
  dies : Tab DieSw
  aborted : Bool := false
  deriving DecidableEq, Repr

/-- A partition: its table entry (R379), launch queues, distributor queues (R347), registers (R420) and time-slice state. `vacSet` is the mask of
the vacate in progress; `vacWant`, `drainHost` and `drainWant` are a vacate, a host's drain and a watchdog's drain that wait for a switch. -/
structure Part where
  entry  : BitVec 128 := 0
  queues : Tab LQueue := []
  served : Tab Nat := []
  dispatch : List Nat := []
  readmit : List Nat := []
  headAt : Nat := 0
  tasks  : List Task := []
  vac    : BitVec 192 := 0
  vacBusy : Bool := false
  vacWant : Bool := false
  vacSet : BitVec 192 := 0
  drainWant : Option (List Nat) := none
  drainHost : Bool := false
  evBase : DWord := 0
  evSize : Nat := 0
  evW    : Nat := 0
  evR    : Nat := 0
  evHeld : List Event := []
  evLost : Nat := 0
  aborts : Nat := 0
  lost   : Nat := 0
  tenant : Nat := 0
  sw     : Option Switch := none
  consec : Nat := 0
  tick   : Nat := 0
  deriving DecidableEq, Repr

/-! ### Core, management and outside -/

/-- What one core holds of its own (R211): cores fenced off, being vacated, cores that have left their partition after a vacate, local
memory pages withdrawn, and the teams and counts of the tenant in its shadow storage (R399). -/
structure CoreSt where
  fenced  : Bool := false
  vacating : Bool := false
  left    : Bool := false
  pages   : Nat := 0
  shadow  : List Nat := []
  shCnt   : Tab Nat := []
  deriving DecidableEq, Repr

/-- A message to the host or a peer. -/
inductive Out where
  | invalDone (tag : Nat)
  | atsReq (pasid page : Nat)
  | pageReq (pasid page : Nat)
  | readData (bs : List Byte) (ep : Bool)
  | atomOld (old : Nat) (ep : Bool)
  | unsupported
  | peerReply (peer : Nat) (bs : List Byte)
  deriving DecidableEq, Repr

/-- A record of the Sextant's event log (R435). -/
structure LogRec where
  clock  : Nat
  source : Nat
  die    : Nat
  detail : Nat
  deriving DecidableEq, Repr

/-- The Sextant (R430, R433, R436): its registers, the two firmware slots with the active mark, the rollback counter, and the destination pages that a
load in progress waits for or was refused (R432). -/
structure Sextant where
  ready  : Bool := true
  failed : Bool := false
  slot   : Nat := 0
  base   : DWord := 0
  size   : Nat := 0
  wr     : Nat := 0
  rd     : Nat := 0
  fw     : Tab (List Byte) := []
  active : Nat := 0
  roll   : Nat := 0
  want   : List (Nat × Nat) := []
  bad    : List (Nat × Nat) := []
  deriving DecidableEq, Repr

/-- One arrival of a grid-barrier message (R336): the launch and team, or the launch and die. -/
structure GBar where
  launch : Nat
  round  : Nat := 0
  teams  : List Nat := []
  dies   : List Nat := []
  rels   : List Nat := []
  deriving DecidableEq, Repr

/-- The instruction being issued: its fragment, its bits, its length and its decode mode. -/
structure Cur where
  wave  : Nat := 0
  entry : Nat := 0
  word  : BitVec 128 := 0
  step  : Nat := 8
  deriving DecidableEq, Repr

/-- The whole device. `cnt0` holds the quarter and core counts at the start of this clock (R404). The last five fields are the model's own: the counter
that free values are drawn with, the events that arrive from outside (`none` is a turn of the device itself), the instruction being issued, whether
it was found not ready, and the next unused identifier. -/
structure State where
  clock  : Nat
  mem    : Memory
  poison : List Nat
  linkDown : List Nat
  routes : Tab DWord
  hostPath : BitVec 7
  l2park : Tab Nat
  patrol : Nat
  parts  : Tab Part
  ctxs   : List Ctx
  power  : Nat
  tripped : Bool
  sx     : Sextant
  log    : List LogRec
  sensors : List Reading
  ageing : List DieAge
  priOn  : Bool
  priAlloc : Nat
  pages  : List PageReq
  ats    : List AtsReq
  invals : List Inval
  outbox : List Out
  atc    : List AtcE
  l2     : List Line
  chart  : List ChartE
  parkCount : Tab Nat
  bears  : List BearC
  mail   : List Xch
  reqs   : List Req
  reps   : List Rep
  ops    : List Op
  gbars  : List GBar
  errs   : Tab Nat
  icache : List Line
  l1     : List Line
  copies : List Copy
  cores  : Tab CoreSt
  cnt    : Tab Nat
  cnt0   : Tab Nat
  launches : List Launch
  teams  : Tab Team
  waves  : Tab Wave
  busy   : Tab Nat
  free   : Nat
  arrivals : List (Option Instr)
  cur    : Cur
  stalled : Bool
  nextId : Nat
  deriving DecidableEq, Repr

/-- Why the machine stops with a fault. -/
inductive Fault where
  /-- Every step while the device is shut down by a thermal trip and no cold reset arrives (R438): the device has no clock, so it
  takes no step. Safe: the hardware does nothing either. -/
  | shutDown
  deriving DecidableEq, Repr

/-- Why the model refuses an instruction. -/
inductive Refusal where
  /-- Raised by an arm of `exec` whose instruction has no meaning yet. Safe: nothing is claimed of such an instruction. -/
  | notModelled (mnemonic : String)
  deriving DecidableEq, Repr

/-- The device at the end of step 6 of R433: no partition, context or peer route, caches and tables empty, DRAM zero, the clock at
0. Log entries 2 to 5 name the values the manual does not give. -/
def State.reset : State :=
  { clock := 0, mem := [], poison := [], linkDown := [], routes := [], hostPath := 0, l2park := [], patrol := 0
    parts := [], ctxs := [], power := 0, tripped := false, sx := {}, log := [], sensors := [], ageing := []
    priOn := true, priAlloc := 1024, pages := [], ats := [], invals := [], outbox := [], atc := [], l2 := [], chart := [], parkCount := [], bears := []
    mail := [], reqs := [], reps := [], ops := [], gbars := [], errs := [], icache := [], l1 := [], copies := []
    cores := [], cnt := [], cnt0 := [], launches := [], teams := [], waves := [], busy := []
    free := 0, arrivals := [], cur := {}, stalled := false, nextId := 0 }

end Sys2Proof.Machine
end

