-- ==== Sys2Proof/Machine/Cache.lean ====
section
/-! DEFINITION. Physical addresses and homing (R212 to R215), cache lines (R222 to R227), the value of a byte at its point of order
(R305), and ATC lookup (R377). -/

namespace Sys2Proof.Machine

/-! ### Choices and counts -/

/-- The clock that lies `n` enabled clocks ahead: power states 1 and 2 enable one clock in 2 or 4 (R437). -/
def State.clockIn (s : State) (n : Nat) : Nat := s.clock + n * 2 ^ s.power

/-- Whether the clock of cores, copy engines and matrix arrays is enabled: never at power state 3, in one clock of 2 or 4 at states 1 and 2 (R437). -/
def State.coreClock (s : State) : Bool := decide (s.power < 3) && decide (s.clock % 2 ^ s.power = 0)

/-- A free choice among `n` (log entry 2). With one candidate nothing is chosen. -/
def State.choose (s : State) (n : Nat) : Nat := if n ≤ 1 then 0 else Config.pick s.free % n

/-- The next free value is drawn from here on. -/
def State.drawn (s : State) : State := { s with free := s.free + 1 }

/-- The element of a list that a free choice names. -/
def State.chooseOf {α : Type} (s : State) (l : List α) : Option α := l[s.choose l.length]?

/-! ### Addresses -/

/-- XOR of the 3-bit groups of a physical address from bit 12 up (R213). -/
def stackOf (pa : Nat) : Nat :=
  (List.range 14).foldl (fun x i => Nat.xor x (pa / 2 ^ (3 * i + 12) % 8)) 0

/-- Kinds of memory an address reaches (R212). -/
inductive MemKind where
  | dram | peer (n : Nat) | host | reserved
  deriving DecidableEq, Repr

def memKind (pa : Nat) : MemKind :=
  if 2 ^ 51 ≤ pa then .host
  else if 2 ^ 48 ≤ pa then .reserved
  else if pa / 2 ^ 40 % 256 = 0 then .dram
  else .peer (pa / 2 ^ 40 % 256)

/-- A peer's routing entry (R416). -/
def State.route (s : State) (n : Nat) : DWord := Tab.getD 0 s.routes n

def State.peerPort (s : State) (n : Nat) : Nat := (s.route n).toNat / 2 ^ 56 % 16

/-- The kind of memory with the routing table applied: an invalid peer is a reserved range (R416). -/
def State.kindOf (s : State) (pa : Nat) : MemKind :=
  match memKind pa with
  | .peer n => if (s.route n).getLsbD 63 then .peer n else .reserved
  | k => k

/-- The home die of a line (R213, R215). -/
def State.homeDie (s : State) (pa : Nat) : Nat :=
  match memKind pa with
  | .peer n => s.peerPort n / 3
  | .host => 0
  | _ => stackOf pa / 2

/-- The slice of a line on any die (R214). -/
def sliceOf (pa : Nat) : Nat :=
  let l := pa / 128
  Nat.xor (Nat.xor (l % 65536) (l / 65536 % 65536)) (l / 2 ^ 32 % 8192) % 48

/-- The home slice, as 48 times its die plus its number. -/
def State.home (s : State) (pa : Nat) : Nat := s.homeDie pa * 48 + sliceOf pa

/-- The slice that meets a request of a core first (R265). -/
def localSlice (core pa : Nat) : Nat := core / 40 * 48 + sliceOf pa

/-- The L2 and chart set of a line: R214's replacement of Set[9:10-k] by the tenant key's low k bits. -/
def setOf (k t pa : Nat) : Nat := t % 2 ^ k * 2 ^ (10 - k) + pa / 128 % 1024 % 2 ^ (10 - k)

def l1Set (pa : Nat) : Nat := pa / 128 % 512

def icSet (pa : Nat) : Nat := pa / 128 % 384

/-! ### Partition fields (R379) -/

def Part.valid (p : Part) : Bool := p.entry.getLsbD 127
def Part.level (p : Part) : Nat := p.entry.toNat / 2 ^ 125 % 4
def Part.parent (p : Part) : Nat := p.entry.toNat / 2 ^ 119 % 64
def Part.tkey (p : Part) : Nat := p.entry.toNat / 2 ^ 115 % 16
def Part.setw (p : Part) : Nat := p.entry.toNat / 2 ^ 112 % 8
def Part.bw (p : Part) : Nat := p.entry.toNat / 2 ^ 105 % 128
def Part.swap (p : Part) : Nat := p.entry.toNat / 2 ^ 97 % 256
def Part.l1park (p : Part) : Nat := p.entry.toNat / 2 ^ 94 % 8
def Part.budget (p : Part) : Nat := p.entry.toNat / 2 ^ 32 % 2 ^ 32
def Part.clusters (p : Part) : Nat := p.entry.toNat % 2 ^ 20

def State.part (s : State) (i : Nat) : Part := Tab.getD {} s.parts i
def State.modPart (s : State) (i : Nat) (f : Part → Part) : State := { s with parts := Tab.set s.parts i (f (s.part i)) }

def State.ctx (s : State) (pasid : Nat) : Ctx :=
  (s.ctxs.find? fun c => c.pasid == pasid).getD { pasid := pasid, part := 0, tenant := 0, desc := 0 }
def State.modCtx (s : State) (pasid : Nat) (f : Ctx → Ctx) : State :=
  { s with ctxs := s.ctxs.map fun c => if c.pasid = pasid then f c else c }

/-- The tenant-replaced set for a context's partition. -/
def State.setFor (s : State) (pasid pa : Nat) : Nat :=
  let p := s.part (s.ctx pasid).part
  setOf p.setw p.tkey pa

def State.core (s : State) (c : Nat) : CoreSt := Tab.getD {} s.cores c
def State.modCore (s : State) (c : Nat) (f : CoreSt → CoreSt) : State := { s with cores := Tab.set s.cores c (f (s.core c)) }

/-- The partition whose configuration a cluster takes: the deepest valid one that holds it (R418). -/
def State.partOfCluster (s : State) (cl : Nat) : Option Nat :=
  let holds := s.parts.filter fun e => e.2.valid && e.2.clusters.testBit cl
  (holds.foldl (fun (b : Option (Nat × Nat)) e => match b with
    | none => some (e.1, e.2.level)
    | some (i, l) => if l < e.2.level then some (e.1, e.2.level) else some (i, l)) none).map Prod.fst

/-- The partition a core runs for, none after the core has been vacated. -/
def State.partOfCore (s : State) (c : Nat) : Option Nat :=
  if (s.core c).left then none else s.partOfCluster (c / 8)

/-! ### Counts (R403): quarter and core counts by key -/

def State.count (s : State) (key n : Nat) : State := { s with cnt := Tab.add s.cnt key n }
def qKey (core q i : Nat) : Nat := (core * 4 + q) * 8 + i
def cKey (core i : Nat) : Nat := 5120 + core * 8 + i
/-- A quarter or core count wraps at 48 bits. -/
def State.cntOf (s : State) (key : Nat) : Nat := Tab.getD 0 s.cnt key % 2 ^ 48
/-- A context count is kept in full; a read of it saturates at 64 bits. -/
def State.ctxCount (s : State) (pasid i n : Nat) : State := s.modCtx pasid fun c => { c with cnt := Tab.add c.cnt i n }
def Ctx.count (c : Ctx) (i : Nat) : Nat := min (Tab.getD 0 c.cnt i) (2 ^ 64 - 1)

/-- Error counts of a die and memory: corrected (0) or uncorrectable (1), saturating (R402). -/
def errKey (die mem kind : Nat) : Nat := (die * 10 + mem) * 2 + kind
def State.errCount (s : State) (die mem kind : Nat) : State :=
  { s with errs := Tab.set s.errs (errKey die mem kind) (min (Tab.getD 0 s.errs (errKey die mem kind) + 1) (2 ^ 32 - 1)) }

/-- A record in the Sextant's event log, a ring of 4,096 (R435). -/
def State.logRec (s : State) (source die detail : Nat) : State :=
  let r : LogRec := { clock := s.clock, source := source, die := die, detail := detail }
  { s with log := (s.log ++ [r]).drop (s.log.length + 1 - 4096) }

/-- A record whose die or detail the manual does not state: free values stand there (log entry 13). -/
def State.logOpen (s : State) (source : Nat) (die detail : Option Nat) : State :=
  (s.logRec source (die.getD (Config.pick s.free % 4)) (detail.getD (Config.logDetail s.free % 2 ^ 176))).drawn

/-! ### Lines -/

/-- The line a cache holds for an address at a location. -/
def findLine (ls : List Line) (loc pa : Nat) : Option Line := ls.find? fun l => l.loc == loc && l.line == pa / 128

/-- Changing the line. -/
def modLine (ls : List Line) (loc pa : Nat) (f : Line → Line) : List Line :=
  ls.map fun l => if l.loc = loc ∧ l.line = pa / 128 then f l else l

def dropLine (ls : List Line) (loc pa : Nat) : List Line := ls.filter fun l => !(l.loc == loc && l.line == pa / 128)

/-- Lines invalidated: a pinned line keeps its way and its pins, and one whose update-pending bit is set that bit (R290), with no byte valid. -/
def invalidated (ls : List Line) (p : Line → Bool) : List Line :=
  (ls.filter fun l => !(p l && l.pins.isEmpty && !l.pend)).map fun l => if p l then { l with valid := 0, dirty := 0, poison := 0, wrote := [] } else l

def Line.has (l : Line) (pa : Nat) : Bool := l.valid.getLsbD (pa % 128)
/-- Whether every byte of the 32-byte sector is valid. -/
def Line.hasSector (l : Line) (pa : Nat) : Bool := (List.range 32).all fun i => l.valid.getLsbD (pa % 128 / 32 * 32 + i)
def Line.byte (l : Line) (pa : Nat) : Byte := l.data.get (pa % 128)

/-- Writing bytes into a line: valid, and dirty if `d`. -/
def Line.put (d : Bool) (l : Line) (pa : Nat) (b : Byte) : Line :=
  let bit : BitVec 128 := 1#128 <<< (pa % 128)
  { l with data := l.data.set (pa % 128) b, valid := l.valid ||| bit, dirty := if d then l.dirty ||| bit else l.dirty }

def Line.puts (d : Bool) (l : Line) (bs : List (Nat × Byte)) : Line := bs.foldl (fun l e => l.put d e.1 e.2) l

/-- The bytes of a list that lie in one line. -/
def inLine (pa : Nat) (bs : List (Nat × Byte)) : List (Nat × Byte) := bs.filter fun e => e.1 / 128 == pa / 128

/-- Bytes from an address on, with their addresses. -/
def addrs (a : Nat) : List Byte → List (Nat × Byte)
  | [] => []
  | b :: bs => (a, b) :: addrs (a + 1) bs

/-- The dirty bytes of a line. -/
def Line.dirtyBytes (l : Line) : List (Nat × Byte) :=
  ((List.range 128).filter fun i => l.dirty.getLsbD i).map fun i => (l.line * 128 + i, l.data.get i)

/-- Whether a peer's port has lost its link (R417). -/
def State.cut (s : State) (pa : Nat) : Option Nat := match memKind pa with
  | .peer n => if s.linkDown.contains (s.peerPort n) then some (s.peerPort n) else none
  | _ => none

/-- A request ended by a lost link is recorded with its port (R417, R435). -/
def State.logLink (s : State) (port : Nat) : State := s.logRec 4 (port / 3) port

/-- The poison that a write-back leaves of a sector in its memory: the line's where the whole sector is dirty, else that of either (R240). -/
def Line.backPoison (l : Line) (old : List Nat) (i : Nat) : Bool :=
  l.poison.getLsbD i || (old.contains (l.line * 4 + i) && !(List.range 32).all fun k => l.dirty.getLsbD (32 * i + k))

/-- Writing back a line's dirty bytes, with the poison of its sectors (R226, R240); over a lost link they are dropped, with a record (R417). -/
def State.writeBack (s : State) (l : Line) : State :=
  if l.dirty = 0 then s
  else match s.cut (l.line * 128) with
  | some p => s.logLink p
  | none =>
    { s with mem := l.dirtyBytes.foldl (fun m e => m.set e.1 e.2) s.mem
             poison := s.poison.filter (fun p => p / 4 ≠ l.line) ++ ((List.range 4).filter (l.backPoison s.poison)).map fun i => l.line * 4 + i }

/-- Ways of a set in use. -/
def usedWays (ls : List Line) (loc set : Nat) : List Nat := (ls.filter fun l => l.loc == loc && l.set == set).map Line.way

/-- A way in `lo` to `hi - 1` for a new line: a free one, else a line that may go; which one is a free choice among the first
candidates (R222, R226, R245). -/
def State.wayFor (s : State) (ls : List Line) (loc set lo hi : Nat) (may : Line → Bool) : Option (Nat × Option Line) :=
  let used := usedWays ls loc set
  match ((List.range (hi - lo)).map (lo + ·)).find? fun w => !used.contains w with
  | some w => some (w, none)
  | none =>
    let cs := ls.filter fun l => l.loc == loc && l.set == set && decide (lo ≤ l.way) && decide (l.way < hi) && may l
    let fs := cs.filter Line.first
    match s.chooseOf (if fs.isEmpty then cs else fs) with
    | some l => some (l.way, some l)
    | none => none

/-- Whether an L2 line may be evicted (R226). -/
def l2MayGo (l : Line) : Bool := l.kind != .parked && l.pins.isEmpty && !l.pend

/-- The L2 line of an address at a slice, allocated in a non-park way if absent; unchanged where no way can be had. -/
def State.l2Alloc (s : State) (loc set pa : Nat) (kind : LineKind) : State :=
  match findLine s.l2 loc pa with
  | some _ => s
  | none =>
    match s.wayFor s.l2 loc set (Tab.getD 0 s.l2park (loc / 48)) 16 l2MayGo with
    | none => s
    | some (w, v) =>
      let s := match v with
        | some l => { (s.writeBack l).drawn with l2 := dropLine s.l2 l.loc (l.line * 128) }
        | none => s
      let po := (List.range 4).foldl (fun (m : BitVec 4) i => if s.poison.contains (pa / 128 * 4 + i) then m ||| (1#4 <<< i) else m) 0
      { s with l2 := s.l2 ++ [{ loc := loc, set := set, way := w, line := pa / 128, kind := kind, poison := po }] }

/-! ### The point of order -/

/-- The chart entry of a parked line. -/
def State.chartOf (s : State) (pa : Nat) : Option ChartE := s.chart.find? fun e => e.line == pa / 128

/-- The dies of a set, lowest first. -/
def diesOf (d : BitVec 4) : List Nat := (List.range 4).filter fun i => d.getLsbD i

/-- The slice copies of an L2 berth. -/
def copyLocs (e : ChartE) : List Nat := (diesOf e.dies).map fun d => d * 48 + sliceOf (e.line * 128)

/-- The line that holds a parked line's data, none for the home stack. -/
def State.berthLine (s : State) (e : ChartE) : Option Line :=
  if e.berth = 0 then findLine s.l1 e.core (e.line * 128)
  else if e.berth = 1 then (copyLocs e).head?.bind fun l => findLine s.l2 l (e.line * 128)
  else none

/-- The line from which a core reads a parked line (R269): at an L2 berth the copy on its own die, else that on the lowest die. -/
def State.readerLine (s : State) (e : ChartE) (core : Nat) : Option Line :=
  if e.berth = 1 ∧ e.dies.getLsbD (core / 40) = true then findLine s.l2 (localSlice core (e.line * 128)) (e.line * 128) else s.berthLine e

/-- The value of a byte at its point of order (R305): the berth of a parked line, else the home slice, else the memory itself. -/
def State.peek (s : State) (pa : Nat) : Byte :=
  match s.chartOf pa with
  | some e => match s.berthLine e with
    | some l => l.byte pa
    | none => s.mem.get pa
  | none =>
    match findLine s.l2 (s.home pa) pa with
    | some l => if l.has pa then l.byte pa else s.mem.get pa
    | none => s.mem.get pa

def State.peeks (s : State) (pa n : Nat) : List Byte := (List.range n).map fun i => s.peek (pa + i)
def State.peekNum (s : State) (pa n : Nat) : Nat := leNat (s.peeks pa n)

/-- Whether the sector of an address is poisoned at its point of order (R240): in the line that holds it, or in the memory where the home line lacks bytes
of it. -/
def State.poisoned (s : State) (pa : Nat) : Bool :=
  let inL (l : Line) : Bool := l.poison.getLsbD (pa % 128 / 32)
  match s.chartOf pa with
  | some e => match s.berthLine e with
    | some l => inL l
    | none => s.poison.contains (pa / 32)
  | none =>
    match findLine s.l2 (s.home pa) pa with
    | some l => inL l || (!l.hasSector pa && s.poison.contains (pa / 32))
    | none => s.poison.contains (pa / 32)

/-- The bytes of a sector that its home line lacks come from the memory. -/
def Line.fillSector (l : Line) (mem : Memory) (pa : Nat) : Line :=
  let b := pa / 32 * 32
  (List.range 32).foldl (fun (l : Line) i => if l.has (b + i) then l else l.put false (b + i) (mem.get (b + i))) l

/-- A sector of a home line that becomes poisoned is dirty, so that its poison reaches the memory with its write-back (R240). -/
def Line.soil (mem : Memory) (pa : Nat) (l : Line) : Line :=
  let l := l.fillSector mem pa
  { l with poison := l.poison ||| (1#4 <<< (pa % 128 / 32)), dirty := l.dirty ||| (0xFFFFFFFF#128 <<< (pa % 128 / 32 * 32)) }

/-- Clearing or setting the poison of a sector wherever the line is held. -/
def State.setPoison (s : State) (pa : Nat) (b : Bool) : State :=
  let bit : BitVec 4 := 1#4 <<< (pa % 128 / 32)
  let f (l : Line) : Line := { l with poison := if b then l.poison ||| bit else l.poison &&& ~~~bit }
  let inMem (s : State) : State :=
    { s with poison := s.poison.filter (fun p => p ≠ pa / 32) ++ (if b then [pa / 32] else []) }
  match s.chartOf pa with
  | some e =>
    if e.berth = 0 then { s with l1 := modLine s.l1 e.core pa f }
    else if e.berth = 1 then { s with l2 := (copyLocs e).foldl (fun ls l => modLine ls l pa f) s.l2 }
    else inMem s
  | none =>
    match findLine s.l2 (s.home pa) pa with
    | some _ => if b then { s with l2 := modLine s.l2 (s.home pa) pa (Line.soil s.mem pa) } else inMem { s with l2 := modLine s.l2 (s.home pa) pa f }
    | none => inMem s

/-- The sectors that a list of bytes covers whole (R240). -/
def wholeSectors (bs : List (Nat × Byte)) : List Nat :=
  (bs.filter fun e => e.1 % 32 == 0 && (List.range 32).all fun i => bs.any fun x => x.1 == e.1 + i).map Prod.fst

/-- Sectors written whole lose their poison (R240). -/
def State.clearPoison (s : State) (bs : List (Nat × Byte)) : State := (wholeSectors bs).foldl (fun s a => s.setPoison a false) s

/-- The lost port at which a write of bytes is dropped, none where the line is held on this device (R417). -/
def State.dropsAt (s : State) (pa : Nat) : Option Nat :=
  if (s.chartOf pa).isSome || (findLine s.l2 (s.home pa) pa).isSome then none else s.cut pa

/-- Bytes of one line enter the line that holds it at its point of order, or the memory itself. -/
def State.putBytesAt (s : State) (pa : Nat) (bs : List (Nat × Byte)) : State :=
  let direct (s : State) : State := { s with mem := bs.foldl (fun m e => m.set e.1 e.2) s.mem }
  match s.chartOf pa with
  | some e =>
    if e.berth = 0 then { s with l1 := modLine s.l1 e.core pa fun l => l.puts true bs }
    else if e.berth = 1 then { s with l2 := (copyLocs e).foldl (fun ls l => modLine ls l pa fun x => x.puts true bs) s.l2 }
    else direct s
  | none =>
    match findLine s.l2 (s.home pa) pa with
    | some _ => { s with l2 := modLine s.l2 (s.home pa) pa fun l => l.puts true bs }
    | none => direct s

/-- Writing bytes of one line at the point of order; a home-stack or uncached line is written in its memory. `alloc` says that an
absent home L2 line is allocated (R226, R245). A whole sector written clears its poison (R240). Over a lost link the bytes are dropped, with a record,
and nothing else changes (R417). -/
def State.pokes (s : State) (pasid : Nat) (alloc : Bool) (pa : Nat) (bs : List (Nat × Byte)) : State :=
  let s := if alloc && (s.chartOf pa).isNone then s.l2Alloc (s.home pa) (s.setFor pasid pa) pa .ordinary else s
  match s.dropsAt pa with
  | some p => s.logLink p
  | none => (s.putBytesAt pa bs).clearPoison bs

/-- Writing any bytes at their points of order, a byte at a time, without allocating (device bookkeeping in DRAM); a sector written whole loses its
poison (R240). -/
def State.pokeNum (s : State) (pa n x : Nat) : State :=
  let t := (addrs pa (leBytes n x)).foldl (fun s e => s.pokes 0 false e.1 [e]) s
  if (s.dropsAt pa).isSome then t else t.clearPoison (addrs pa (leBytes n x))

/-! ### Translation (R377, R413) -/

/-- The 57-bit part of a pointer. -/
def low57 (va : DWord) : Nat := va.toNat % 2 ^ 57

/-- The ATC entry of a die for a page. -/
def State.atcOf (s : State) (die pasid va : Nat) : Option AtcE :=
  s.atc.find? fun e => e.die == die && e.pasid == pasid && decide (e.va / 2 ^ e.log = va / 2 ^ e.log)

/-- The physical address of an entry. -/
def AtcE.addr (e : AtcE) (va : Nat) : Nat := (e.pa + va % 2 ^ e.log) % 2 ^ 52

/-- A translated address on any die, for the distributor's reads. -/
def State.xlateAny (s : State) (pasid va : Nat) : Option Nat :=
  (s.atc.find? fun e => e.pasid == pasid && decide (e.va / 2 ^ e.log = va / 2 ^ e.log) && e.rd).map fun e => e.addr va

/-- A pointer is canonical: bits [63:57] all equal to bit 56 (R52). -/
def canonical (va : DWord) : Bool := (va.toNat / 2 ^ 56 == 0) || (va.toNat / 2 ^ 56 == 255)

/-- Canonical pointer of a 57-bit address. -/
def toPtr (pc : Nat) : DWord := (BitVec.ofNat 57 pc).signExtend 64

end Sys2Proof.Machine
end

