-- ==== Sys2Proof/Machine/Reduce.lean ====
section
/-! DEFINITION. The arithmetic of reductions (R295, R299) with their identities (R290), and the update-only lines that hold them: merges and recalls
(R290, R300). -/

namespace Sys2Proof.Machine

/-! ### Arithmetic -/

def IType.width : IType → Nat
  | .s32 => 32
  | .z32 => 32
  | _ => 64

def itSigned : IType → Bool
  | .s32 => true
  | .s64 => true
  | _ => false

/-- An integer operation at `w` bits (R299). -/
def atomInt (op : AtomOp) (w : Nat) (sg : Bool) (old x : Nat) : Nat :=
  let lt (a b : Nat) : Bool := if sg then (BitVec.ofNat w a).slt (BitVec.ofNat w b) else decide (a < b)
  match op with
  | .add => (old + x) % 2 ^ w
  | .min => if lt x old then x else old
  | .max => if lt old x then x else old
  | .and => Nat.land old x
  | .or => Nat.lor old x
  | .xor => Nat.xor old x
  | .exch => x

/-- A float operation (R299): nearest-even, subnormals kept, the `lminmax` = 0 row of R109. -/
def atomFloat (op : FAtomOp) (F : Fmt) (old x : Nat) : Nat :=
  match op with
  | .add => roundNum F 0 (addNum 0 (toReal F old) (toReal F x))
  | .min => minMax plainMode F false old x
  | .max => minMax plainMode F true old x

/-- Both halves of a word, each alone (R299). -/
def atomHalves (op : FAtomOp) (F : Fmt) (old x : Nat) : Nat :=
  atomFloat op F (old % 2 ^ 16) (x % 2 ^ 16) + 2 ^ 16 * atomFloat op F (old / 2 ^ 16 % 2 ^ 16) (x / 2 ^ 16 % 2 ^ 16)

/-- A reduction (R295). -/
def redApply (op : RedOp) (old x : Nat) : Nat :=
  match op with
  | .int o t => atomInt o (IType.width t) (itSigned t) old x
  | .addF32 => atomFloat .add fp32 old x
  | .addF64 => atomFloat .add fp64 old x
  | .add2F16 => atomHalves .add fp16 old x
  | .add2BF16 => atomHalves .add bf16 old x

/-- The identity of a reduction (R290). -/
def redIdentity (op : RedOp) : Nat :=
  match op with
  | .int o t =>
    let w := IType.width t
    match o with
    | .min => (intMax w (itSigned t)).toNat
    | .max => if itSigned t then 2 ^ (w - 1) else 0
    | .and => 2 ^ w - 1
    | _ => 0
  | .addF32 => 2 ^ 31
  | .addF64 => 2 ^ 63
  | _ => 2 ^ 31 + 2 ^ 15

/-- A record that poison was consumed (R240, R300). -/
def State.logPoison (s : State) (pa : Nat) : State := s.logRec 3 (s.homeDie pa) pa

/-! ### Update-only lines (R290) -/

/-- Whether a core other than those merged still holds an update-only line. -/
def State.updateCores (s : State) (pa : Nat) : List Nat := (s.l1.filter fun l => l.line == pa / 128 && l.kind == LineKind.update).map Line.loc

/-- One word's delta is applied at the home slice, rounded once; dropped where the sector is poisoned (R300). -/
def State.applyDelta (s : State) (pasid pa : Nat) (op : RedOp) (x : DWord) : State :=
  let n := if op.w64 then 8 else 4
  if s.poisoned pa then s
  else s.pokes pasid true pa (addrs pa (leBytes n (redApply op (s.peekNum pa n) (x.toNat % 2 ^ (8 * n)))))

/-- Every valid word of the sectors `secs` of an update-only line is merged; a poisoned sector poisons the home sector, which is dirty then. The merge
of a sector that is dropped for its poisoned home sector is recorded, each once (R300). -/
def State.mergeSectors (s : State) (l : Line) (secs : List Nat) : State :=
  let s := secs.foldl (fun s i => match l.delta.find? fun e => e.1 / 8 == i && !l.poison.getLsbD i && s.poisoned (l.line * 128 + 4 * e.1) with
    | some e => s.logPoison (l.line * 128 + 4 * e.1)
    | none => s) s
  let s := (l.delta.filter fun e => secs.contains (e.1 / 8)).foldl (fun s e =>
    if l.poison.getLsbD (e.1 / 8) then s else s.applyDelta l.pasid (l.line * 128 + 4 * e.1) e.2.1 e.2.2) s
  secs.foldl (fun s i => if l.poison.getLsbD i then s.setPoison (l.line * 128 + 32 * i) true else s) s

/-- A core's update-only line is merged and invalidated; the update-pending bit is cleared with the last one. -/
def State.mergeLine (s : State) (l : Line) : State :=
  let pa := l.line * 128
  let s := s.mergeSectors l (List.range 4)
  let s := { s with l1 := dropLine s.l1 l.loc pa }
  if (s.updateCores pa).isEmpty then { s with l2 := modLine s.l2 (s.home pa) pa fun (l : Line) => { l with pend := false } } else s

/-- A recall: every update-only line of the address is merged and invalidated. -/
def State.recall (s : State) (pa : Nat) : State :=
  (s.l1.filter fun l => l.line == pa / 128 && l.kind == LineKind.update).foldl State.mergeLine s

/-- A release at `.core` or wider merges the core's update-only lines (R223). -/
def State.mergeCore (s : State) (core : Nat) : State :=
  (s.l1.filter fun l => l.loc == core && l.kind == LineKind.update).foldl State.mergeLine s

end Sys2Proof.Machine
end

