-- ==== Sys2Proof/Machine/Team.lean ====
section
/-! DEFINITION. Host events (R364), timeline counters (R339), the completion of launches (R355), and the retirement and kill of
teams (R40, R41, R392, R393). -/

namespace Sys2Proof.Machine

/-! ### Accessors -/

def State.team (s : State) (i : Nat) : Team :=
  Tab.getD { id := i, launch := 0, part := 0, pasid := 0, obj := 0 } s.teams i
def State.modTeam (s : State) (i : Nat) (f : Team → Team) : State := { s with teams := Tab.mod f s.teams i }
def State.wave (s : State) (i : Nat) : Wave := Tab.getD { id := i, team := 0, num := 0 } s.waves i
def State.modWave (s : State) (i : Nat) (f : Wave → Wave) : State := { s with waves := Tab.mod f s.waves i }
def State.launch? (s : State) (i : Nat) : Option Launch := s.launches.find? fun l => l.id == i
def State.modLaunch (s : State) (i : Nat) (f : Launch → Launch) : State :=
  { s with launches := s.launches.map fun l => if l.id = i then f l else l }
def Part.queue (p : Part) (q : Nat) : LQueue := Tab.getD {} p.queues q
def State.modQueue (s : State) (p q : Nat) (f : LQueue → LQueue) : State :=
  s.modPart p fun x => { x with queues := Tab.set x.queues q (f (x.queue q)) }
def Ctx.obj? (c : Ctx) (h : Nat) : Option Obj := c.objs.find? fun o => o.handle == h

/-- A fresh identifier. -/
def State.fresh (s : State) : Nat × State := (s.nextId, { s with nextId := s.nextId + 1 })

/-! ### Cores that stand still -/

/-- The state of a die in a switch. -/
def Switch.die? (w : Switch) (d : Nat) : Option DieSw := Tab.get? w.dies d

/-- Whether a core works for its partition: no switch, or its die is back (R422). -/
def State.mayIssue (s : State) (core : Nat) : Bool :=
  match s.partOfCore core with
  | none => true
  | some p => match (s.part p).sw with
    | none => true
    | some w => match w.die? (core / Config.coresPerDie) with
      | some .back => true
      | none => true
      | _ => false

/-! ### The host event queue (R364) -/

/-- Bytes written to host memory itself, under a release at `.system`; a cached copy of the line takes them too, and a sector written whole loses its
poison (R240). -/
def State.hostPut (s : State) (a : Nat) (bs : List Byte) : State :=
  ((addrs (2 ^ 51 + a) bs).foldl (fun s e =>
    { s with mem := s.mem.set e.1 e.2, l2 := modLine s.l2 (s.home e.1) e.1 fun l => if l.has e.1 then l.put false e.1 e.2 else l }) s).clearPoison
      (addrs (2 ^ 51 + a) bs)

/-- The 32 bytes of a record. -/
def Event.num (p : Nat) (e : Event) : Nat :=
  e.tag.toNat * 2 ^ 192 + e.detail % 2 ^ 64 * 2 ^ 128 + e.clock % 2 ^ 64 * 2 ^ 64 + e.queue * 2 ^ 40 + p * 2 ^ 32 + e.cause * 2 ^ 16
    + e.kind

def Part.ringSize (p : Part) : Nat := 2 ^ (6 + p.evSize)
def Part.ringFull (p : Part) : Bool := decide (p.ringSize ≤ (p.evW + 2 ^ 64 - p.evR) % 2 ^ 64)

/-- Writing a record that has room. -/
def State.putEvent (s : State) (i : Nat) (e : Event) : State :=
  let p := s.part i
  let a := p.evBase.toNat % 2 ^ 51 + 32 * (p.evW % p.ringSize)
  (s.hostPut a (leBytes 32 (e.num i))).modPart i fun p => { p with evW := (p.evW + 1) % 2 ^ 64 }

/-- Posting a record now: a full ring holds a record of kind 4 and drops any other, counting it (R364). -/
def State.post (s : State) (i : Nat) (e : Event) : State :=
  let e := { e with clock := s.clock }
  if (s.part i).ringFull then
    if e.kind = 4 then s.modPart i fun p => { p with evHeld := p.evHeld ++ [e] }
    else s.modPart i fun p => { p with evLost := p.evLost + 1, lost := min (p.lost + 1) (2 ^ 32 - 1) }
  else s.putEvent i e

/-- Records held for space, then kind 9 for the records lost, once space has returned (R364). -/
def State.flushEvents (s : State) (i : Nat) : State :=
  let s := (s.part i).evHeld.foldl (fun s e =>
    if (s.part i).ringFull then s
    else (s.putEvent i e).modPart i fun p => { p with evHeld := p.evHeld.drop 1 }) s
  let p := s.part i
  if p.evLost = 0 || p.ringFull then s
  else (s.putEvent i { kind := 9, detail := p.evLost, clock := s.clock }).modPart i fun p => { p with evLost := 0 }

/-! ### Timeline counters (R339) -/

def Ctx.tlc (c : Ctx) (k : Nat) : TL := Tab.getD {} c.tl k
def State.modTL (s : State) (pasid k : Nat) (f : TL → TL) : State :=
  s.modCtx pasid fun c => { c with tl := Tab.set c.tl k (f (c.tlc k)) }

/-- V takes every number that has retired next to it. -/
def TL.settle : Nat → TL → TL
  | 0, t => t
  | n + 1, t => if t.done.contains (t.v + 1) then TL.settle n { t with v := t.v + 1, done := t.done.filter (· ≠ t.v + 1) } else t

/-- A direct advance to n (R339, R408). -/
def TL.advance (n : Nat) (t : TL) : TL :=
  let t := { t with v := max t.v n, i := max t.i n, done := t.done.filter (max t.v n < ·) }
  t.settle t.done.length

/-- Operation k retires. -/
def TL.retire (k : Nat) (t : TL) : TL :=
  if k ≤ t.v then t else let t := { t with done := t.done ++ [k] }; t.settle t.done.length

/-- The next operation number is taken. -/
def TL.take (t : TL) : TL := { t with i := t.i + 1 }

/-- E takes the lowest number of an erroring operation (R344); the lowest of this clock is kept beside it for a clear in this clock (R404). -/
def TL.error (clock k cause : Nat) (t : TL) : TL :=
  let t := if t.eAt = clock ∧ t.eNow ≠ 0 ∧ t.eNow ≤ k then t else { t with eAt := clock, eNow := k, eNowCause := cause }
  if t.e = 0 ∨ k < t.e then { t with e := k, ecause := cause } else t

/-- E is cleared: an error of the same clock, which comes about after the clear, stands (R404, R410). -/
def TL.clear (clock : Nat) (t : TL) : TL := if t.eAt = clock then { t with e := t.eNow, ecause := t.eNowCause } else { t with e := 0, ecause := 0 }

/-! ### Launch completion (R355) -/

/-- One more team of the launch has retired or been killed for good. -/
def State.launchEnd (s : State) (id : Nat) : State := s.modLaunch id fun l => { l with ended := l.ended + 1 }

/-- A team of a launch has ended on its core: the launch's completion releases what its waves have stored. -/
def State.noteTeam (s : State) (tm : Team) : State :=
  s.modLaunch tm.launch fun l => { l with ws := l.ws ++ tm.waves, cs := if l.cs.contains tm.core then l.cs else l.cs ++ [tm.core] }

/-- A launch completes when all its teams have ended and nothing that they have sent is left. -/
def State.launchOver (s : State) (l : Launch) : Bool :=
  decide (l.gx * l.gy * l.gz ≤ l.ended) && s.ops.all fun o => !l.ws.contains o.wave

/-- What the completion of a launch does: its completion action, a task's numbered operation, and its event. -/
def State.launchDone (s : State) (l : Launch) : State :=
  let s : State := { s with launches := s.launches.filter fun x => x.id ≠ l.id, gbars := s.gbars.filter fun (g : GBar) => g.launch ≠ l.id }
  let s := match l.cact with
    | some (c, n) => s.modTL l.pasid c (TL.advance n)
    | none => s
  let s := match l.task with
    | some (c, k) => s.modTL l.pasid c (TL.retire k)
    | none => s
  if l.evt then s.post l.part { kind := 1, queue := l.queue.getD 255, tag := l.tag } else s

/-! ### The end of a team (R40, R41, R392) -/

/-- A copy leaves its queue; its number counts as retired (R339, R344). -/
def State.cancelCopies (s : State) (p : Copy → Bool) : State :=
  let gone := s.copies.filter p
  let s := { s with copies := s.copies.filter fun c => !p c }
  gone.foldl (fun s c => s.modTL c.pasid c.c (TL.retire c.k)) s

/-- Requests already sent are performed and their replies discarded; lanes not yet sent are discarded (R392, R366). -/
def State.orphanOps (s : State) (ws : List Nat) : State :=
  { s with ops := (s.ops.map fun o => if ws.contains o.wave then { o with dead := true, killed := true, out := [], held := [], absent := [] } else o)
             |>.filter fun o => !(o.dead && o.nout == 0) }

/-- A copy with no local side, which has started, outlives its team (R41, R344, R363). -/
def Copy.outlives (c : Copy) : Bool := c.running && c.rq.toNat / 2 ^ 180 % 4 == 2

/-- What a team releases (R41): its waves, local memory and barrier objects, its copies, and its role queues' entries. -/
def State.freeTeam (s : State) (t : Nat) : State :=
  let tm := s.team t
  let s := (s.noteTeam tm).cancelCopies fun c => c.team == t && !c.outlives
  { s with waves := s.waves.filter fun e => !tm.waves.contains e.1, teams := Tab.del s.teams t }

/-- The retirement of a team's last wave: release, the watchdog's restart, the launch's count (R41, R365). A team of a live grid
counts as arrived in its grid barriers (R337), which the combiners read off the launch. -/
def State.retireTeam (s : State) (t : Nat) : State :=
  let tm := s.team t
  let s := s.freeTeam t
  let s := match tm.rootQ with
    | some q => s.modQueue tm.part q fun x => { x with timer := 0 }
    | none => s
  s.launchEnd tm.launch

/-- The kill of a team (R392) for a cause code, with the inner cause of code 63. Codes 60 and 61 relaunch an idempotent kernel's
team at most 3 times (R393). -/
def State.killTeam (s : State) (t code inner : Nat) : State :=
  match Tab.get? s.teams t with
  | none => s
  | some tm =>
    let s := s.orphanOps tm.waves
    let s := { s with mail := s.mail.filter fun x => !tm.waves.contains x.wave }
    let s := { s with gbars := s.gbars.map fun (g : GBar) => if g.launch = tm.launch then { g with teams := g.teams.filter (· ≠ t) } else g }
    let s := s.freeTeam t
    let s := { s with cores := s.cores.map fun (e : Nat × CoreSt) => (e.1, { e.2 with shadow := e.2.shadow.filter (· ≠ t) }) }
    let s := s.modPart tm.part fun p => { p with readmit := p.readmit.filter (· ≠ t) }
    let idem := (((s.ctx tm.pasid).obj? tm.obj).map Obj.idem).getD false
    if (code = 60 ∨ code = 61) ∧ idem ∧ tm.relaunch < 3 then
      let (i, s) := s.fresh
      let n : Team := { id := i, launch := tm.launch, part := tm.part, pasid := tm.pasid, obj := tm.obj, tag := tm.tag, idx := tm.idx
                        gx := tm.gx, gy := tm.gy, gz := tm.gz, depth := tm.depth, rootQ := tm.rootQ, relaunch := tm.relaunch + 1
                        cores := tm.cores, loc := .queued, lsize := tm.lsize, args := tm.args, prod := tm.prod, nroles := tm.nroles }
      let s := { s with teams := s.teams ++ [(i, n)] }
      let s := s.modPart tm.part fun p => { p with readmit := p.readmit ++ [i], headAt := if p.readmit.isEmpty then s.clock else p.headAt }
      s.post tm.part { kind := 7, queue := tm.rootQ.getD 255, detail := tm.idx, tag := ((s.launch? tm.launch).map Launch.tag).getD 0 }
    else
      let tag := ((s.launch? tm.launch).map Launch.tag).getD 0
      let s := s.post tm.part { kind := 6, queue := tm.rootQ.getD 255, cause := code, detail := tm.idx + inner * 2 ^ 32, tag := tag }
      s.launchEnd tm.launch

end Sys2Proof.Machine
end

