-- ==== Sys2Proof/Machine/Ops.lean ====
section
/-! DEFINITION. Registers of a wave, writes with their mirrors, region entries (R34), restarts (R36), taking a trap (R383 to R386) and
the return from one (R390). -/

namespace Sys2Proof.Machine

/-! ### Lanes and masks -/

/-- The mask of the lanes that satisfy `p`. -/
def maskOf (p : Nat → Bool) : Mask :=
  (List.range 64).foldl (fun m i => if p i then m ||| (1#64 <<< i) else m) 0

def full : Mask := BitVec.allOnes 64
def fullOf (w32 : Bool) : Mask := if w32 then 0xFFFFFFFF else full
def lanesOf (m : Mask) : List Nat := (List.range 64).filter fun i => m.getLsbD i
def popMask (m : Mask) : Nat := (lanesOf m).length

def laneAt (l : Lanes) (i : Nat) : Word := l.getD i 0
def mkLanes (f : Nat → Word) : Lanes := (List.range 64).map f
/-- `new` in the lanes of the mask, `old` elsewhere. -/
def mergeLanes (m : Mask) (new old : Lanes) : Lanes := mkLanes fun i => if m.getLsbD i then laneAt new i else laneAt old i

/-! ### The wave's registers -/

def Wave.vreg (w : Wave) (n : Nat) : VReg := Tab.getD {} w.v n
def Wave.setV (w : Wave) (n : Nat) (r : VReg) : Wave := { w with v := Tab.set w.v n r }
def Wave.slotAt (w : Wave) (k : Nat) : Slot := Tab.getD {} w.o k
def Wave.setSlot (w : Wave) (k : Nat) (x : Slot) : Wave := { w with o := Tab.set w.o k x }

/-- Whether a register lies in the window of an open proposal, and its place there. -/
def Proposal.inWin (p : Proposal) (n : Nat) : Bool := decide (p.base ≤ n) && decide (n < p.base + p.n)
def Proposal.wbits (p : Proposal) (j : Nat) : Mask := Tab.getD 0 p.w j
def Proposal.ebits (p : Proposal) (j : Nat) : Mask := Tab.getD 0 p.e j
def Proposal.shad (p : Proposal) (j : Nat) : Lanes := Tab.getD [] p.sh j

/-- The lanes of a register that are written in an open proposal's shadow (R190). -/
def Wave.shadowed (w : Wave) (n : Nat) : Mask :=
  match w.prop with
  | some p => if p.inWin n then p.wbits (n - p.base) else 0
  | none => 0

/-- The dead lanes of a register's view (R90, R192). -/
def Wave.deadLanes (w : Wave) (n : Nat) : Mask := (w.vreg n).dead &&& ~~~(w.shadowed n)

/-- A lane of a register's view: the shadow where written, 0 where dead (R90, R190). -/
def Wave.vlane (w : Wave) (n i : Nat) : Word :=
  match w.prop with
  | some p =>
    if p.inWin n && (p.wbits (n - p.base)).getLsbD i then laneAt (p.shad (n - p.base)) i
    else if (w.vreg n).dead.getLsbD i then 0 else laneAt (w.vreg n).val i
  | none => if (w.vreg n).dead.getLsbD i then 0 else laneAt (w.vreg n).val i

/-- Scalar `n`: in handler mode `s120` to `s127` are the handler scalars (R385). -/
def Wave.sreg (w : Wave) (hm : Bool) (n : Nat) : SReg :=
  if hm && decide (120 ≤ n) then Tab.getD { dead := false } w.hs n else Tab.getD {} w.s n
def Wave.setS (w : Wave) (hm : Bool) (n : Nat) (r : SReg) : Wave :=
  if hm && decide (120 ≤ n) then { w with hs := Tab.set w.hs n r } else { w with s := Tab.set w.s n r }
/-- The value of a scalar: a dead scalar reads 0 (R90). -/
def Wave.sval (w : Wave) (hm : Bool) (n : Nat) : DWord := if (w.sreg hm n).dead then 0 else (w.sreg hm n).val

/-- A predicate: `p15` reads 1 (R78); `p14` is the handler's in handler mode (R385). -/
def Wave.pred (w : Wave) (hm : Bool) (n : Nat) : Mask :=
  if n = 15 then full else if hm && n == 14 then w.hp14 else Tab.getD 0 w.p n
/-- Writing lanes of a predicate; `p15` discards (R78). -/
def Wave.setP (w : Wave) (hm : Bool) (n : Nat) (m v : Mask) : Wave :=
  let x := (w.pred hm n &&& ~~~m) ||| (v &&& m)
  if n = 15 then w else if hm && n == 14 then { w with hp14 := x } else { w with p := Tab.set w.p n x }

def Wave.latch (w : Wave) (hm b : Bool) : Latch := if hm then (if b then w.hlb else w.hla) else (if b then w.lb else w.la)
def Wave.setLatch (w : Wave) (hm b : Bool) (l : Latch) : Wave :=
  if hm then (if b then { w with hlb := l } else { w with hla := l }) else (if b then { w with lb := l } else { w with la := l })

def Wave.ctr (w : Wave) (i : Nat) : DWord := Tab.getD 0 w.rngctr i
def Wave.tile (w : Wave) (t : Nat) : Memory := Tab.getD [] w.t t

/-! ### Writes (R12, R78, R87 to R90, R190) -/

/-- Writing lanes of the latch: valid in those lanes, the others as they were (R87). -/
def Wave.writeLatch (w : Wave) (hm b : Bool) (m : Mask) (x : Lanes) : Wave :=
  let l := w.latch hm b
  w.setLatch hm b { val := mergeLanes m x l.val, valid := l.valid ||| m }

/-- Filling a slot: the lanes of the mask valid, all others not (R88). -/
def Wave.writeSlot (w : Wave) (k : Nat) (st : SlotSt) (m : Mask) (x : Lanes) : Wave :=
  w.setSlot k { st := st, val := mergeLanes m x [], valid := m }

/-- Every slot clean-backed by register `n`, but slot `keep`, loses its valid lanes (R89). -/
def Wave.dirtySlots (w : Wave) (n : Nat) (keep : Option Nat) : Wave :=
  { w with o := w.o.map fun (e : Nat × Slot) => if e.2.st = .clean n ∧ keep ≠ some e.1 then (e.1, { e.2 with valid := 0 }) else e }

/-- The lanes of a register take values: in an open window the shadow with its written bits, else the register, live (R90, R190).
A pending kill of those lanes is cancelled. State, obligation and written bit are not touched. -/
def Wave.putV (w : Wave) (n : Nat) (m : Mask) (x : Lanes) : Wave :=
  let r := w.vreg n
  match w.prop with
  | some p =>
    if p.inWin n then
      let j := n - p.base
      { w.setV n { r with kill := r.kill &&& ~~~m } with
        prop := some { p with sh := Tab.set p.sh j (mergeLanes m x (p.shad j)), w := Tab.set p.w j (p.wbits j ||| m) } }
    else w.setV n { r with val := mergeLanes m x r.val, dead := r.dead &&& ~~~m, kill := r.kill &&& ~~~m }
  | none => w.setV n { r with val := mergeLanes m x r.val, dead := r.dead &&& ~~~m, kill := r.kill &&& ~~~m }

/-- The register is full, by a fixed-latency write if `fixed` (R94), which also ends a producer's obligation (R33). -/
def Wave.fillV (w : Wave) (n : Nat) (fixed : Bool) : Wave :=
  let r := w.vreg n
  w.setV n { r with st := .full, owed := if fixed then false else r.owed }

/-- The mirror of a write of lanes to a register (R87, R88); slots backed by the register and not mirrored into are invalidated (R89). -/
def Wave.mirrorV (w : Wave) (hm : Bool) (n : Nat) (mir : Mirror) (m : Mask) (x : Lanes) : Wave :=
  match mir with
  | .none => w.dirtySlots n none
  | .la => (w.writeLatch hm false m x).dirtySlots n none
  | .lb => (w.writeLatch hm true m x).dirtySlots n none
  | .o k => (w.dirtySlots n (some k.toNat)).writeSlot k.toNat (.clean n) m x

/-- A fixed-latency write of a vector register with its mirror. Only lanes of the mask are written. -/
def Wave.writeV (w : Wave) (hm : Bool) (n : Nat) (mir : Mirror) (m : Mask) (x : Lanes) : Wave :=
  ((w.putV n m x).fillV n true).mirrorV hm n mir m x

/-- A write of a scalar. -/
def Wave.writeS (w : Wave) (hm : Bool) (n : Nat) (x : DWord) : Wave := w.setS hm n { val := x, dead := false }

/-- A reply's write of lanes of a vector register, whose clean slots lose their lanes (R89). -/
def Wave.replyV (w : Wave) (n : Nat) (m : Mask) (x : Lanes) : Wave := (w.putV n m x).dirtySlots n none

/-- A reply's write of a scalar, which cancels a pending kill (R90); its state is not touched. -/
def Wave.replyS (w : Wave) (hm : Bool) (n : Nat) (x : DWord) : Wave := w.setS hm n { w.sreg hm n with val := x, dead := false, kill := false }

/-- Marking a destination that a reply fills at issue: empty, its slots and written bit as for any write (R92, R94), and owed a consuming
read if the instruction is one of the producers of R33. -/
def Wave.emptyV (w : Wave) (hm owes : Bool) (n : Nat) : Wave :=
  let r := w.vreg n
  (w.setV n { r with st := .empty, owed := owes, wir := r.wir || !hm }).dirtySlots n none
def Wave.emptyS (w : Wave) (hm owes : Bool) (n : Nat) : Wave :=
  let r := w.sreg hm n
  w.setS hm n { r with st := .empty, owed := owes }

/-- The written-in-region bit (R92); not set in handler mode (R385). -/
def Wave.markWir (w : Wave) (hm : Bool) (n : Nat) : Wave :=
  if hm then w else w.setV n { w.vreg n with wir := true }

/-- A mark `~` makes a kill pending in the lanes that take part (R90). -/
def Wave.killV (w : Wave) (n : Nat) (m : Mask) : Wave := let r := w.vreg n; w.setV n { r with kill := r.kill ||| m }
def Wave.killS (w : Wave) (hm : Bool) (n : Nat) : Wave := w.setS hm n { w.sreg hm n with kill := true }

/-! ### Kills and region entries (R34, R90 to R92, R192, R201, R203) -/

/-- The pending kills of one register take effect; a register dead in every lane is full, and slots it backs are empty (R89, R94). Under an open proposal
the recorded primary state stays as it is (R192, log entry 63). -/
def Wave.applyKill (w : Wave) (n : Nat) : Wave :=
  let r := w.vreg n
  if r.kill = 0 then w
  else
    let w := match w.prop with
      | some p => if p.inWin n then
          { w with prop := some { p with w := Tab.set p.w (n - p.base) (p.wbits (n - p.base) &&& ~~~r.kill) } } else w
      | none => w
    let dead := r.dead ||| r.kill
    let all := w.w32 && decide (dead &&& 0xFFFFFFFF = 0xFFFFFFFF) || decide (dead = full)
    let gone := all && decide (w.shadowed n = 0)
    let w := w.setV n { r with dead := dead, kill := 0, st := if gone then .full else r.st, owed := if gone then false else r.owed }
    if gone then { w with o := w.o.map fun (e : Nat × Slot) => if e.2.st = .clean n then (e.1, {}) else e } else w

def Wave.applyKillS (r : SReg) : SReg := if r.kill then { dead := true } else r

/-- The wave-wide effects of a region entry that are deferred while the wave has more than one live fragment (R34). -/
def Wave.settleRegion (w : Wave) : Wave :=
  let w := (w.v.map Prod.fst).foldl Wave.applyKill w
  { w with
    v := w.v.map fun (e : Nat × VReg) => (e.1, { e.2 with wir := false })
    s := w.s.map fun (e : Nat × SReg) => (e.1, Wave.applyKillS e.2)
    hs := w.hs.map fun (e : Nat × SReg) => (e.1, Wave.applyKillS e.2)
    prop := w.prop.map fun p => { p with e := p.w } }

/-- Latches and ephemeral slots become invalid (R87, R89). -/
def Wave.dropLatches (w : Wave) : Wave :=
  { w with
    la := { w.la with valid := 0 }, lb := { w.lb with valid := 0 }
    o := w.o.map fun (e : Nat × Slot) => if e.2.st = .eph then (e.1, { e.2 with valid := 0 }) else e }

/-! ### Fragments -/

def Wave.frag (w : Wave) (e : Nat) : Frag := (w.frags.find? fun f => f.entry == e).getD { entry := e }
def Wave.modFrag (w : Wave) (e : Nat) (g : Frag → Frag) : Wave :=
  { w with frags := w.frags.map fun f => if f.entry = e then g f else f }
def State.frag (s : State) (r : FragRef) : Frag := (s.wave r.wave).frag r.entry
def State.modFrag (s : State) (r : FragRef) (g : Frag → Frag) : State := s.modWave r.wave fun w => w.modFrag r.entry g

/-- The PC after an instruction. One that would lie at 2^57 or beyond is held as 2^57 beside the completed instruction's PC, which the
PC-wrap fault of the next fetch records (R52). -/
def nextPc (pc step : Nat) : Nat := if pc + step < 2 ^ 57 then pc + step else 2 ^ 57 + pc

/-- Whether the fragment is the one in handler mode (R384). -/
def Wave.inHandler (w : Wave) (e : Nat) : Bool := match w.h with
  | some h => h.entry == e
  | none => false

/-- The lanes of deferred records: deferred and arrived ones (R30). -/
def stackLanes (st : List Rec) : Mask := st.foldl (fun m r => m ||| r.mask ||| r.arrived) 0
/-- Every lane of a fragment: its running lanes and those of its records. -/
def Frag.lanes (f : Frag) : Mask := f.mask ||| stackLanes f.stack

/-- A region entry of a fragment at its PC (R33, R34): none is made in handler mode (R385). -/
def Wave.regionEntry (w : Wave) (e : Nat) : Wave :=
  if w.inHandler e then w
  else
    let w : Wave := { w.dropLatches with wpc := w.wpc + 1 }
    let w := w.modFrag e fun f =>
      { f with rpc := f.pc, rmask := f.mask, rstack := f.stack, rctr := (lanesOf f.lanes).map fun i => (i, w.ctr i), readV := [], readS := [] }
    let w : Wave := { w with mx := w.mx.map fun m => { m with recN := m.n } }
    if w.frags.length ≤ 1 then w.settleRegion else w

def State.regionEntry (s : State) (r : FragRef) : State := s.modWave r.wave fun w => w.regionEntry r.entry

/-- A fragment that waits no more goes on. -/
def Frag.goOn (f : Frag) : Frag := { f with st := .running, wait := .none }

/-- A fragment whose instruction completes later waits for it where it has to (R33). -/
def State.awaitIf (s : State) (wait : Bool) (r : FragRef) (k : Wait) : State :=
  if wait then s.modFrag r fun f => { f with st := .waiting, wait := k, since := s.clock } else s

/-- The fragment of a wave that stands in a wait, if one does, goes on with a region entry (R33). -/
def State.waitEnds (s : State) (wave : Nat) (k : Wait) : State :=
  match (s.wave wave).frags.find? fun f => f.wait == k with
  | some f => (s.modFrag ⟨wave, f.entry⟩ Frag.goOn).regionEntry ⟨wave, f.entry⟩
  | none => s

/-- The lanes of the wave's other fragments: running lanes, and those their deferred records hold. -/
def Wave.otherLanes (w : Wave) (e : Nat) : Mask :=
  w.frags.foldl (fun m f => if f.entry = e then m else m ||| f.lanes) 0

/-- Lanes that have left the fragment are removed from a recorded mask and stack (R30). -/
def cutStack (m : Mask) (st : List Rec) : List Rec := st.map fun r => { r with mask := r.mask &&& ~~~m, arrived := r.arrived &&& ~~~m }

/-- A fragment's lanes take back the counters recorded at its region entry, and the written bits of an open proposal their entry copy (R203, R204),
but for lanes of other fragments (log entry 18). -/
def Wave.undraw (w : Wave) (e : Nat) (m : Mask) : Wave :=
  let f := w.frag e
  { w with
    rngctr := f.rctr.foldl (fun (t : Tab DWord) (c : Nat × DWord) => if m.getLsbD c.1 then Tab.set t c.1 c.2 else t) w.rngctr
    prop := w.prop.map fun p => { p with w := (List.range p.n).map fun j => (j, (p.wbits j &&& ~~~m) ||| (p.ebits j &&& m)) } }

/-- The first reads that a fragment made since its region entry are first reads again when its region runs again (R33). -/
def Wave.oweAgain (w : Wave) (f : Frag) : Wave :=
  f.readS.foldl (fun w n => w.setS false n { w.sreg false n with owed := true })
    (f.readV.foldl (fun w n => w.setV n { w.vreg n with owed := true }) w)

/-- A restart of a fragment at its restart point (R30, R36, R173, R201, R203): its mask and stack as recorded, from which lanes that left
for a new fragment are gone, its lanes' counters, the member's operation number, and an open proposal's written bits but in other fragments'
lanes (R204, log entry 18); latches and ephemeral slots are invalid, and reads that were consuming ones are so again (R33). -/
def Wave.restart (w : Wave) (e : Nat) : Wave :=
  let gone := w.otherLanes e
  let w := (w.dropLatches.undraw e (~~~gone)).oweAgain (w.frag e)
  let w : Wave := { w with mx := w.mx.map fun m => { m with n := m.recN } }
  w.modFrag e fun f =>
    { f with pc := f.rpc, mask := f.rmask &&& ~~~gone, stack := cutStack gone f.rstack, st := .running, wait := .none, refetch := false, capt := none
             readV := [], readS := [] }

/-! ### Traps -/

/-- The vector table entry of a cause, read at its point of order (R378), as it is once its line is recalled (R290). -/
def State.vector (s : State) (pasid cause : Nat) : DWord :=
  let a := (s.ctx pasid).desc + 8 * cause
  BitVec.ofNat 64 ((s.recall a).peekNum a 8)

/-- The code range of the context that holds a PC (R51). -/
def Ctx.rangeOf (c : Ctx) (pc : Nat) : Nat × Nat :=
  match c.objs.find? fun o => decide (o.base ≤ pc) && decide (pc < o.base + o.csize) with
  | some o => (o.base, o.base + o.csize)
  | none => (0, 0)

/-- Entering a handler (R383): the record, the handler's PC, its latches invalid (R385). Restart point, `$wpc`, the wave's latches,
slots and written bits stand. -/
def State.enterHandler (s : State) (r : FragRef) (t : Trap) (pc : Nat) : State :=
  let rng := (s.ctx (s.team (s.wave r.wave).team).pasid).rangeOf pc
  s.modWave r.wave fun w =>
    let f := w.frag r.entry
    let h : HCtx := { entry := r.entry, cause := t.cause, cls := t.cls, pc := f.pc, mask := f.mask, stack := f.stack, st := f.st
                      wait := f.wait, op := t.op, cap := t.cap, lo := rng.1, hi := rng.2, since := s.clock + 1 }
    let w := { w with h := some h, hla := {}, hlb := {}
                      trec := (List.range t.trec.length).map fun i => (32 + i, t.trec.getD i 0) }
    w.modFrag r.entry fun f => { f with pc := pc, st := .running, wait := .none, wake := s.clockIn 40, refetch := false, capt := none }

/-- Raising a cause (R383, R384, R386): in handler mode it kills the team with code 63; while another fragment of the wave is in
handler mode the fragment is trap-pending; an unhandled trap kills the team with its own code. -/
def State.raise (s : State) (r : FragRef) (t : Trap) : State :=
  let w := s.wave r.wave
  match w.h with
  | some h =>
    if h.entry = r.entry then s.killTeam w.team 63 t.cause
    else s.modFrag r fun f => { f with st := .pending t }
  | none =>
    let v := s.vector (s.team w.team).pasid t.cause
    if v.getLsbD 0 && v.toNat / 2 ^ 57 == 0 && v.toNat / 2 % 4 == 0 then s.enterHandler r t (v.toNat / 8 % 2 ^ 54 * 8)
    else s.killTeam w.team t.cause 0

/-- Raising a cause that may come about in one clock with others of the wave (R384): the fragment is trap-pending until the wave's lowest such
fragment enters its handler; in handler mode it kills the team with code 63 (R386). -/
def State.raiseSoon (s : State) (r : FragRef) (t : Trap) : State :=
  if (s.wave r.wave).inHandler r.entry then s.killTeam (s.wave r.wave).team 63 t.cause else s.modFrag r fun f => { f with st := .pending t }

/-- What a cause adds to its record. -/
structure Info where
  code  : Nat := 0
  lanes : Option Mask := none
  addr  : DWord := 0
  det0  : DWord := 0
  det1  : DWord := 0
  next  : Option Nat := none
  known : Bool := true
  cap   : Tab Cap := []
  op    : Option Nat := none

/-- Default resume classes (R382). -/
def causeClass (c : Nat) : TClass :=
  if c = 35 ∨ c = 37 ∨ c = 38 then .h
  else if c = 12 ∨ c = 45 ∨ c = 51 then .a
  else if c = 1 ∨ c = 2 ∨ c = 3 ∨ c = 11 ∨ c = 15 ∨ c = 18 ∨ c = 32 ∨ c = 34 ∨ c = 36 ∨ c = 40 ∨ c = 47 then .f
  else .t

def TClass.code : TClass → Nat
  | .t => 0 | .f => 1 | .h => 2 | .a => 3

def modeCode : DecodeMode → Nat
  | .k3 => 0 | .k2 => 1 | .k1 => 2

/-- The pointer of a next PC: one that would lie at 2^57 or beyond has none, and its 57 bits are 0 (R52, log entry 59). -/
def nextPtr (pc : Nat) : DWord := toPtr (min pc (2 ^ 57))

/-- The record of an instruction at `pc` (R76, R387 to R389). -/
def trapRecord (w : Wave) (f : Frag) (dm : DecodeMode) (word : BitVec 128) (step pc cause : Nat) (part : Mask) (i : Info) :
    List DWord :=
  let cls := causeClass cause
  let tc := i.code * 2 ^ 32 + step * 2 ^ 24 + (if i.known then lengthField dm word else 0) * 2 ^ 20 + f.entry * 2 ^ 14
    + w.half * 2 ^ 12 + modeCode dm * 2 ^ 10 + cls.code * 2 ^ 8 + cause
  let bits := if step = 8 then word.toNat % 2 ^ 64 else if lengthField dm word = 1 then word.toNat % 2 ^ 96 else word.toNat
  let ops := if i.known then operandRecs dm word else [{}, {}, {}, {}]
  let opf := (List.range 4).foldl (fun a k => a + (ops.getD k {}).f * 2 ^ (16 * k)) 0
  [BitVec.ofNat 64 tc, toPtr pc, nextPtr (i.next.getD (pc + step)), f.mask, i.lanes.getD part, i.addr,
   BitVec.ofNat 64 (bits % 2 ^ 64), BitVec.ofNat 64 (bits / 2 ^ 64),
   (ops.getD 0 {}).val, (ops.getD 1 {}).val, (ops.getD 2 {}).val, (ops.getD 3 {}).val, BitVec.ofNat 64 opf, i.det0, i.det1]

/-- The decode mode a fragment runs in: K3 in handler mode (R68). -/
def Wave.mode (w : Wave) (e : Nat) : DecodeMode := if w.inHandler e then .k3 else w.dm

/-- The trap of a cause at the instruction being issued. -/
def State.trapNow (s : State) (cause : Nat) (part : Mask) (i : Info) : Trap :=
  let w := s.wave s.cur.wave
  let f := w.frag s.cur.entry
  { cause := cause, cls := causeClass cause, cap := i.cap, op := i.op
    trec := trapRecord w f (w.mode f.entry) s.cur.word s.cur.step f.pc cause part i }

def State.curRef (s : State) : FragRef := { wave := s.cur.wave, entry := s.cur.entry }

/-- Taking an exception at the instruction being issued. -/
def State.trap (s : State) (cause : Nat) (part : Mask) (i : Info) : State := s.raise s.curRef (s.trapNow cause part i)

/-- A record names the split-table entry that its fragment has when its cause is raised, which a merge, a split or a restore may have changed since the
record was captured (R76, R388). -/
def Trap.of (e : Nat) (t : Trap) : Trap :=
  { t with trec := match t.trec with
      | a :: r => BitVec.ofNat 64 (a.toNat - a.toNat / 2 ^ 14 % 2 ^ 6 * 2 ^ 14 + e % 2 ^ 6 * 2 ^ 14) :: r
      | [] => [] }

/-- The lowest trap-pending fragment enters its handler once handler mode has ended (R40, R384). -/
def State.nextPending (s : State) (wave : Nat) : State :=
  let w := s.wave wave
  let ps := w.frags.filter fun f => match f.st with
    | .pending _ => true
    | _ => false
  match ps.foldl (fun (b : Option Frag) f => match b with
    | none => some f
    | some g => if f.entry < g.entry then some f else some g) none with
  | some f =>
    match f.st with
    | .pending t => (s.modFrag ⟨wave, f.entry⟩ fun f => { f with st := if f.wait = .none then .running else .waiting }).raise ⟨wave, f.entry⟩ (t.of f.entry)
    | _ => s
  | none => s

/-- The lowest fragment that was trap-pending while another was in handler mode enters its handler; what raises a cause later in this clock does not
enter before it (R384). -/
def State.pendingEnters (s : State) (wave : Nat) : State :=
  if (s.wave wave).h.isNone then
    (s.nextPending wave).modWave wave fun w => { w with h := w.h.map fun h => { h with since := 0 } }
  else s.nextPending wave

/-- Of fragments that raise causes in one clock the lowest enters first (R384): a higher one that has entered in this clock, and has issued nothing
of its handler yet, is trap-pending after all. -/
def State.lowestEnters (s : State) (wave : Nat) : State :=
  let w := s.wave wave
  match w.h with
  | none => s
  | some h =>
    if h.since = s.clock + 1 ∧ (w.frags.any fun f => decide (f.entry < h.entry) && match f.st with
      | .pending _ => true
      | _ => false) = true then
      let t : Trap := { cause := h.cause, cls := h.cls, trec := (List.range 15).map fun k => Tab.getD 0 w.trec (32 + k), cap := h.cap, op := h.op }
      let s := s.modWave wave fun w => { w with h := none }
      (s.modFrag ⟨wave, h.entry⟩ fun f => { f with pc := h.pc, mask := h.mask, stack := h.stack, st := .pending t, wait := h.wait }).nextPending wave
    else s

/-- A held memory instruction whose fragment resumes other than by replaying it is dropped, and its destination registers are
full with the finished lanes' values (R94). -/
def Wave.fillAll (w : Wave) (hm : Bool) (vs : List Nat) (ss : List Nat) : Wave :=
  let w := vs.foldl (fun w n => w.setV n { w.vreg n with st := .full }) w
  ss.foldl (fun w n => w.setS hm n { w.sreg hm n with st := .full }) w

/-- Destination vectors of a memory instruction, and its destination scalars. -/
def memDst : Instr → List Nat × List Nat
  | .ld x => ((List.range x.sz.regs).map (x.d.toNat + ·), [])
  | .lds x => ((List.range x.sz.regs).map (x.d.toNat + ·), [])
  | .ldsc x => ([], (List.range (2 ^ x.m.toNat)).map (x.d.toNat + ·))
  | .atomI x => ((List.range (if x.t.w64 then 2 else 1)).map (x.d.toNat + ·), [])
  | .atomF x => ((List.range (if x.fmt1 then 2 else 1)).map (x.d.toNat + ·), [])
  | .atomX2 x => ([x.d.toNat], [])
  | .atomCas x => ((List.range (x.w.bytes / 4)).map (x.d.toNat + ·), [])
  | .atoms x => ((List.range (if x.op.w64 then 2 else 1)).map (x.d.toNat + ·), [])
  | .brrd x => ([], (List.range 4).map (x.d.toNat + ·))
  | .parkq x => ([], [x.d.toNat])
  | .cntrd x => ([], [x.d.toNat])
  | .qpop x => ([x.d.toNat], [])
  | _ => ([], [])

def State.op? (s : State) (id : Nat) : Option Op := s.ops.find? fun o => o.id == id
def State.modOp (s : State) (id : Nat) (f : Op → Op) : State := { s with ops := s.ops.map fun o => if o.id = id then f o else o }
def State.dropOp (s : State) (id : Nat) : State := { s with ops := s.ops.filter fun o => o.id ≠ id }

/-- A wave whose handler keeps an instruction no longer. -/
def Wave.letGo (w : Wave) (id : Nat) : Wave :=
  { w with h := w.h.map fun h => if h.op = some id then { h with op := none } else h }

/-- The held instruction of an operation is given up, by a handler that keeps it too. -/
def State.abandon (s : State) (id : Nat) : State :=
  match s.op? id with
  | none => s
  | some o =>
    let (vs, ss) := memDst o.instr
    (s.modWave o.wave fun w => (w.fillAll o.hm vs ss).letGo id).dropOp id

/-- A fragment that goes back to its restart point gives up its instructions with lanes that were refused or wait for the host, of which no cause may
come about any more (R36, R390, R394); `keep` are those whose lanes stay. What is on its way comes back. -/
def State.giveUp (s : State) (r : FragRef) (keep : Op → Bool) : State :=
  (s.ops.filter fun o => o.wave == r.wave && o.entry == r.entry && !o.dead && !keep o && !(o.refused.isEmpty && o.absent.isEmpty)).foldl
    (fun s o => if o.nout = 0 then s.abandon o.id else s.modOp o.id fun o => { o with refused := [], absent := [], held := [] }) s

/-- How a fragment resumes (R390). -/
inductive Resume where
  | restart | replay | next | atPc
  deriving DecidableEq, Repr

/-- The default resume of a cause (R382). -/
def defaultResume (cause : Nat) (held : Bool) : Resume :=
  if cause = 35 ∨ cause = 37 ∨ cause = 38 then (if held then .replay else .restart)
  else if cause = 7 ∨ cause = 12 ∨ cause = 24 ∨ cause = 25 ∨ cause = 45 ∨ cause = 51 then .next
  else if cause = 19 then .atPc
  else .restart

/-- Leaving handler mode and resuming the fragment (R390). `$trapnext` and `$trappc` give the PC of the last two ways. A replay
leaves the fragment where it stood, with its held instruction parked again for the host of its lanes to be sent. A `$trapnext` that the handler wrote
is taken as it is, in its low 57 bits; where the next PC would lie at 2^57 it reads 0, and 0 then stands for that PC (R52, log entry 52). -/
def State.resume (s : State) (r : FragRef) (m : Resume) : State :=
  let w := s.wave r.wave
  match w.h with
  | none => s
  | some h =>
    let s := s.modWave r.wave fun w => { w with h := none }
    let at? (n : Nat) : Nat := low57 (Tab.getD 0 w.trec n)
    let past := if h.cls = TClass.a then h.pc else nextPc h.pc ((Tab.getD 0 w.trec 32).toNat / 2 ^ 24 % 256)
    let next := if at? 34 = 0 ∧ 2 ^ 57 ≤ past then past else at? 34
    let back (pc : Nat) (st : FragSt) (wt : Wait) (f : Frag) : Frag :=
      { f with pc := pc, mask := h.mask, stack := h.stack, st := st, wait := wt, wake := s.clockIn 8 }
    let give (s : State) : State := match h.op with
      | some o => s.abandon o
      | none => s
    let s := match m with
      | .restart => (((give s).giveUp r fun _ => false).modWave r.wave fun w => w.restart r.entry).modFrag r fun f => { f with wake := s.clockIn 8 }
      | .replay => match h.op with
        | some o => (s.modFrag r (back h.pc (.parked o) h.wait)).modOp o fun o => { o with phase := .xlate }
        | none => (s.modWave r.wave fun w => w.restart r.entry).modFrag r fun f => { f with wake := s.clockIn 8 }
      | .next =>
        if h.cls = TClass.a then (give s).modFrag r (back next h.st h.wait)
        else (give s).modFrag r (back next .running .none)
      | .atPc => (give s).modFrag r (back (at? 33) .running .none)
    s.pendingEnters r.wave

end Sys2Proof.Machine
end

