-- ==== Sys2Proof/Machine/Operands.lean ====
section
/-! DEFINITION. Source operands as an instruction reads them (R60, R119), what an instruction uses, and the issue of an instruction:
the check of R92, readiness (R95), the traps of its operands, its effect, and the region entries of R33. -/

namespace Sys2Proof.Machine

/-- What an issuing instruction sees: its wave and fragment before it, the handler mode, the lanes that take part, and the entry it
pops from a role queue. -/
structure Iss where
  w    : Wave
  f    : Frag
  hm   : Bool
  part : Mask
  q    : Lanes

/-- The lane of a slot as a read returns it: a clean slot's invalid lane is refetched from the backing register (R88, R89), which leaves the slot's lane
invalid (log entry 55). -/
def Iss.slotLane (i : Iss) (k l : Nat) : Word :=
  let o := i.w.slotAt k
  if o.valid.getLsbD l then laneAt o.val l
  else match o.st with
    | .clean n => i.w.vlane n l
    | _ => 0

/-- A source at 32 bits in one lane (R119). -/
def Iss.v32 (i : Iss) (x : Src) (l : Nat) : Word :=
  match x with
  | .v n _ _ => i.w.vlane n.toNat l
  | .s n _ _ => (i.w.sval i.hm n.toNat).setWidth 32
  | .o k => i.slotLane k.toNat l
  | .la => laneAt (i.w.latch i.hm false).val l
  | .lb => laneAt (i.w.latch i.hm true).val l
  | .q _ _ => laneAt i.q l
  | .zero => 0
  | .imm b => b.signExtend 32
  | .wide b => b

/-- A source at 64 bits in one lane: the pair of an even vector, a scalar, or a sign-extended immediate (R119). -/
def Iss.v64 (i : Iss) (x : Src) (l : Nat) : DWord :=
  match x with
  | .v n _ _ => i.w.vlane (n.toNat + 1) l ++ i.w.vlane n.toNat l
  | .s n _ _ => i.w.sval i.hm n.toNat
  | .imm b => b.signExtend 64
  | .wide b => b.signExtend 64
  | x => (i.v32 x l).setWidth 64

/-- A scalar or immediate source (R147). -/
def Iss.s64 (i : Iss) (x : Src) : DWord := i.v64 x 0

/-- A source of the uses list: how many registers it covers as a vector and as a scalar. -/
structure SU where
  x  : Src
  kv : Nat := 1
  ks : Nat := 1

/-- Issue classes of R98. -/
inductive ICls where
  | vec | trans | fp64 | move | tree | mem | once | onceConf | plus1
  deriving DecidableEq, Repr

/-- What an instruction uses: sources, destination vectors and scalars of the destination field, predicates it reads or writes, the queue it pushes
to; `whole` for whole-fragment instructions (R59), `vl` for those whose destination is empty until a reply fills it (R94), `owes` for the producers of
R33, whose first read is a consuming one, `atom` for those that make no region entry with no lane taking part in any decode mode (R293), `entry` for
those whose completion is a region entry (R33), `first` the cause of a failed check that precedes the operands (R172, R209), `hold` that what the
instruction tests is not settled yet (R113), `win` the window registers that it needs full (R200), `tr` and `tw` the tiles read and written (R164,
R252). -/
structure Uses where
  srcs  : List SU := []
  dv    : List Nat := []
  ds    : List Nat := []
  ps    : List Nat := []
  push  : Option Nat := none
  whole : Bool := false
  vl    : Bool := false
  owes  : Bool := false
  atom  : Bool := false
  entry : Bool := false
  first : Option Nat := none
  hold  : Bool := false
  win   : List Nat := []
  tr    : List Nat := []
  tw    : List Nat := []
  cls   : ICls := .vec

/-- A register by number. -/
inductive RR where
  | v (n : Nat)
  | s (n : Nat)
  deriving DecidableEq, Repr

/-- Whether a source is a clean slot with an invalid lane that takes part, whose lanes are read from the backing register (R88, R89). -/
def Wave.refetches (w : Wave) (part : Mask) (x : Src) : Bool := match x with
  | .o k => match (w.slotAt k.toNat).st with
    | .clean _ => decide (part &&& ~~~(w.slotAt k.toNat).valid ≠ 0)
    | _ => false
  | _ => false

/-- The registers a source reads: its own, or a slot's backing register when a lane that takes part must be refetched (R89). -/
def SU.regs (w : Wave) (part : Mask) (u : SU) : List RR :=
  match u.x with
  | .v n _ _ => (List.range u.kv).map fun k => .v (n.toNat + k)
  | .s n _ _ => (List.range u.ks).map fun k => .s (n.toNat + k)
  | .o k => match (w.slotAt k.toNat).st with
    | .clean n => if part &&& ~~~(w.slotAt k.toNat).valid = 0 then [] else [.v n]
    | _ => []
  | _ => []

/-- The empty-trap mark of a source. -/
def Src.empt : Src → Bool
  | .v _ _ e => e
  | .s _ _ e => e
  | .q _ e => e
  | _ => false

/-- The dead mark of a source. -/
def Src.deadMark : Src → Bool
  | .v _ d _ => d
  | .s _ d _ => d
  | _ => false

def Wave.stateOf (w : Wave) (hm : Bool) : RR → RegState
  | .v n => (w.vreg n).st
  | .s n => (w.sreg hm n).st

/-- The lanes in which a source reads its registers: those that take part, of a slot the invalid ones only (R89). -/
def Wave.readLanes (w : Wave) (part : Mask) (x : Src) : Mask := match x with
  | .o k => part &&& ~~~(w.slotAt k.toNat).valid
  | _ => part

/-- Whether a read meets a dead lane, or a dead scalar (R90). -/
def Wave.readsDead (w : Wave) (hm : Bool) (part : Mask) : RR → Bool
  | .v n => decide (w.deadLanes n &&& part ≠ 0)
  | .s n => (w.sreg hm n).dead

/-- Whether a source meets a dead lane or scalar (R89, R90). -/
def Wave.srcDead (w : Wave) (hm : Bool) (part : Mask) (u : SU) : Bool :=
  (SU.regs w part u).any (w.readsDead hm (w.readLanes part u.x))

/-- Whether a read of a latch or slot is stale in a lane that takes part (R87, R88). -/
def Wave.readsStale (w : Wave) (hm : Bool) (part : Mask) : Src → Bool
  | .la => decide (part &&& ~~~(w.latch hm false).valid ≠ 0)
  | .lb => decide (part &&& ~~~(w.latch hm true).valid ≠ 0)
  | .o k => match (w.slotAt k.toNat).st with
    | .clean _ => false
    | _ => decide (part &&& ~~~(w.slotAt k.toNat).valid ≠ 0)
  | _ => false

/-- Whether the producer role of a queue is gone: no producer, or every wave of it retired (R362). -/
def State.prodGone (s : State) (t : Team) (q : Nat) : Bool :=
  match Tab.get? t.prod q with
  | none => true
  | some r => t.waves.all fun i => !((s.wave i).live && (s.wave i).role == r)

def Team.queue (t : Team) (q : Nat) : List Lanes := Tab.getD [] t.q q

/-- The lanes a wave sees of a queue entry: a half-wave's own half (R360). -/
def Wave.entryLanes (w : Wave) (e : Lanes) : Lanes :=
  if w.w32 && w.half == 1 then mkLanes fun i => laneAt e (32 + i) else e

/-- The not-converged check (R172). -/
def State.converge (s : State) : Option Nat := if 1 < (s.wave s.cur.wave).frags.length then some 14 else none

/-- What stands before an instruction's effect. -/
inductive Pre where
  | stall
  | refetch
  | wait (w : Wait)
  | trap (cause : Nat)
  | go

/-- The register or queue check that a queue source makes (R95, R360, R362). -/
def queuePre (s : State) (t : Team) (srcs : List SU) : Option Pre :=
  srcs.findSome? fun u => match u.x with
    | .q q e =>
      if !(t.queue q.toNat).isEmpty then none
      else if e then some (.trap 17)
      else if s.prodGone t q.toNat then some (.trap 47)
      else some (.wait (.pop q.toNat))
    | _ => none

/-- A push needs the producer's role (R360) and room. -/
def pushPre (t : Team) (w : Wave) (q : Option Nat) : Option Pre :=
  match q with
  | some q =>
    if Tab.get? t.prod q ≠ some w.role then some (.trap 46)
    else if 8 ≤ (t.queue q).length then some (.wait (.push q))
    else none
  | none => none

/-- The idempotence check (R92, R202), in K3 code outside handler mode (R385). -/
def idemFails (w : Wave) (hm : Bool) (part : Mask) (u : Uses) : Bool :=
  let named := u.srcs.flatMap fun x => match x.x with
    | .v n _ _ => (List.range x.kv).map (n.toNat + ·)
    | _ => []
  decide (w.dm = .k3) && !hm && u.dv.any fun n => named.contains n && !(w.vreg n).wir &&
    !(match w.prop with
      | some p => p.inWin n && decide (p.ebits (n - p.base) &&& part = 0)
      | none => false)

/-- Whether an accepted `MXSTEP` of the wave that has not completed reads a tile (R164). -/
def State.stepReads (s : State) (w : Wave) (t : Nat) : Bool :=
  match w.mx with
  | none => false
  | some m => (s.team w.team).quads.any fun q => q.first == m.first && q.ops.any fun o =>
      match Tab.get? o.who w.num with
      | some (.step ta tb _ _) => ta == t || tb == t
      | _ => false

/-- A predicate's place in the list of those an exchange will write: the handler's `p14` has its own (R158, R385). -/
def predKey (hm : Bool) (p : Nat) : Nat := if hm && p == 14 then 16 else p

/-- Every check before an instruction's own: the idempotence check, interlocks, empty, queue, poison, dead and stale reads, in an order among the
causes 17, 18, 16 and 15 that the manual does not give (R95, log entry 60). The checks of R209 do not wait for a guard that an exchange still owes (log
entry 65). With no lane taking part nothing is read, and only the interlocks hold the instruction. -/
def preCheck (s : State) (u : Uses) (i : Iss) (gp : Nat) : Pre :=
  let w := i.w
  let t := s.team w.team
  let regs := u.srcs.flatMap (SU.regs w i.part)
  let none' := decide (i.part = 0)
  let bad (st : RegState) : Bool := (regs.any fun r => w.stateOf i.hm r = st) || u.win.any fun n => (w.vreg n).st = st
  if idemFails w i.hm i.part u then .trap 10
  else if u.hold && !(none' && u.whole) then .stall
  else if u.first.isSome && !(none' && u.whole) then .trap (u.first.getD 0)
  else if (gp :: u.ps).any fun p => w.pBusy.contains (predKey i.hm p) then .stall
  else if u.dv.any (fun n => (w.vreg n).st = .empty) || u.ds.any (fun n => (w.sreg i.hm n).st = .empty) then .stall
  else if (u.tr ++ u.tw).any (fun t => w.tfill.contains t) || u.tw.any (s.stepReads w) then .stall
  else if u.win.any fun n => (w.vreg n).st = .empty then .stall
  else if !none' && u.srcs.any (fun x => Src.empt x.x && (SU.regs w i.part x).any fun r => w.stateOf i.hm r = .empty) then .trap 17
  else if bad .empty then .stall
  else if !u.win.isEmpty && bad .poison then .trap 18
  else if none' then .go
  else match queuePre s t u.srcs with
    | some p => p
    | none => match pushPre t w u.push with
      | some p => p
      | none =>
        if !i.f.refetch && u.srcs.any (fun x => w.refetches i.part x.x) then .refetch
        else if regs.any fun r => w.stateOf i.hm r = .poison then .trap 18
        else if w.md.getLsbD 12 && u.srcs.any (w.srcDead i.hm i.part) then .trap 16
        else if u.srcs.any fun x => w.readsStale i.hm i.part x.x then .trap 15
        else .go

/-- The effect of an instruction: it is not ready, it traps, or it changes the state. -/
inductive Body where
  | stall
  | trap (cause : Nat) (info : Info)
  | go (f : State → State)

/-- Whether the instruction is a consuming read (R33). -/
def consumes (i : Iss) (u : Uses) : Bool :=
  decide (i.part ≠ 0) && ((u.srcs.flatMap (SU.regs i.w i.part)).any (fun r => match r with
    | .v n => (i.w.vreg n).owed
    | .s n => (i.w.sreg i.hm n).owed) || u.tr.any fun t => i.w.towed.contains t)

/-- The marks `~` of sources make kills pending (R90). -/
def Wave.markKills (w : Wave) (i : Iss) (srcs : List SU) : Wave :=
  srcs.foldl (fun w x => if Src.deadMark x.x then
    (SU.regs i.w i.part x).foldl (fun w r => match r with
      | .v n => w.killV n i.part
      | .s n => w.killS i.hm n) w else w) w

/-- The registers whose first read is a consuming one are noted for a restart of the region (R33); in handler mode none is. -/
def Wave.noteReads (w : Wave) (i : Iss) (u : Uses) : Wave :=
  let rs := u.srcs.flatMap (SU.regs i.w i.part)
  if i.hm || i.part = 0 then w
  else w.modFrag i.f.entry fun f =>
    { f with
      readV := f.readV ++ rs.filterMap fun r => match r with
        | .v n => if (i.w.vreg n).owed then some n else none
        | .s _ => none
      readS := f.readS ++ rs.filterMap fun r => match r with
        | .s n => if (i.w.sreg i.hm n).owed then some n else none
        | .v _ => none }

/-- A wave after its instruction's reads: obligations ended, kills pending, the destination's written bits set and, for a
variable-latency producer, its destination empty. An obligation is the wave's, one for each register: the first read by any of its fragments ends it (log
entry 68), a read in handler mode too, though it makes no region entry (log entry 69). -/
def Wave.afterReads (w : Wave) (i : Iss) (u : Uses) : Wave :=
  let act := decide (i.part ≠ 0)
  let w := w.noteReads i u
  let w := if act then (u.srcs.flatMap (SU.regs i.w i.part)).foldl (fun w r => match r with
    | .v n => w.setV n { w.vreg n with owed := false }
    | .s n => w.setS i.hm n { w.sreg i.hm n with owed := false }) w else w
  let w := if act then w.markKills i u.srcs else w
  let w : Wave := if act then { w with towed := w.towed.filter fun t => !(u.tr.contains t || u.tw.contains t) } else w
  let w := u.dv.foldl (fun w n => w.markWir i.hm n) w
  if u.vl && act then u.ds.foldl (fun w n => w.emptyS i.hm u.owes n) (u.dv.foldl (fun w n => w.emptyV i.hm u.owes n) w) else w

/-- Conflict clocks of one pass (R99). -/
def conflicts (u : Uses) : Nat :=
  let vs := (u.srcs.flatMap fun x => match x.x with
    | .v n _ _ => (List.range x.kv).map (n.toNat + ·)
    | _ => []).dedup
  let bank (b : Nat) : Nat := (vs.filter fun n => n % 4 == b).length
  max (max (bank 0) (bank 1)) (max (bank 2) (bank 3)) - 1

/-- Occupancy and conflict clocks (R98, R99). -/
def occupancy (i : Iss) (u : Uses) : Nat × Nat :=
  let passes := (if i.part &&& 0xFFFFFFFF = 0 then 0 else 1) + (if i.part >>> 32 = 0 then 0 else 1)
  let x := passes * conflicts u
  let per (k : Nat) (add : Bool) : Nat × Nat := (max 1 (passes * k + if add then x else 0), if add then x else 0)
  match u.cls with
  | .vec => per 1 true
  | .trans => per 4 false
  | .fp64 => per 8 false
  | .move => per 1 true
  | .tree => per 2 true
  | .mem => per 1 true
  | .once => (1, 0)
  | .onceConf => (1 + x, x)
  | .plus1 => (1 + passes, 0)

/-- The issue is counted and its quarter is busy for the occupancy (R28, R403), where the instruction raises a cause at its issue too (log entry 79). -/
def State.issued (s : State) (i : Iss) (u : Uses) : State :=
  let (occ, x) := occupancy i u
  let s := (s.count (qKey i.w.core i.w.q 0) 1).count (qKey i.w.core i.w.q 2) x
  { s with busy := Tab.set s.busy (i.w.core * 4 + i.w.q) (s.clockIn occ) }

/-- The lanes that take part (R59). -/
def partOf (w : Wave) (hm : Bool) (f : Frag) (h : Hdr) : Mask :=
  let g := w.pred hm h.gp.toNat
  f.mask &&& (if h.gneg then ~~~g else g) &&& fullOf w.w32

/-- A queue entry leaves for its reader. -/
def State.popQueue (s : State) (w : Wave) (u : Uses) : Lanes × State :=
  match u.srcs.findSome? fun x => match x.x with
    | .q q _ => some q.toNat
    | _ => none with
  | some q =>
    let t := s.team w.team
    match t.queue q with
    | e :: r => (w.entryLanes e, s.modTeam w.team fun t => { t with q := Tab.set t.q q r })
    | [] => ([], s)
  | none => ([], s)

def usesQueue (u : Uses) : Bool := u.push.isSome || u.srcs.any fun x => Src.isQ x.x

/-- Whether the instruction makes a region entry at its completion (R33, R69, R361), so that its fragment waits for one that does not complete at its
issue. -/
def Iss.owesEntry (i : Iss) (u : Uses) : Bool :=
  !i.hm && decide (i.part ≠ 0) && (u.entry || consumes i u || usesQueue u || decide (i.w.dm ≠ .k3))

/-- The fragment that an instruction's completion concerns: the one that issued it, or after a merge the one that holds its lanes now. -/
def Wave.heirOf (w : Wave) (e : Nat) (m : Mask) : Nat :=
  if w.frags.any fun f => f.entry == e then e else ((w.frags.find? fun f => f.lanes &&& m != 0).map Frag.entry).getD e

/-- Whether a fragment has not completed the instruction that it issued. -/
def Frag.busy (f : Frag) : Bool :=
  (match f.wait with
    | .none => false
    | .sleep => false
    | .yield => false
    | _ => true) || (match f.st with
    | .parked _ => true
    | .pending _ => true
    | _ => false)

/-- The end of an instruction: a region entry where R33, R69 or R361 makes one at completion, unless the fragment now waits. That of an instruction
which ended its fragment is the wave's only, and a `HINGE` that holds its fragment completes at the hold (log entry 71). A whole-fragment
instruction of legacy code with no lane taking part makes none (R59, R293; log entry 53). -/
def State.finish (s : State) (r : FragRef) (i : Iss) (u : Uses) : State :=
  let w := s.wave r.wave
  let e := w.heirOf r.entry i.f.mask
  let act := decide (i.part ≠ 0)
  let entry := (u.entry && (act || !u.whole)) || (act && (consumes i u || usesQueue u)) || (decide (w.dm ≠ .k3) && (act || !(u.whole || u.atom)))
  if entry && !i.hm && !(w.frag e).busy then s.regionEntry ⟨r.wave, e⟩ else s

/-- The operands that a waiting instruction captures, `$mode` among them (R109), and a wave as one with captured operands reads it (R35). -/
def Iss.captured (i : Iss) : Captured :=
  { part := i.part, md := i.w.md, v := i.w.v, s := i.w.s, hs := i.w.hs, la := i.w.latch i.hm false, lb := i.w.latch i.hm true, o := i.w.o
    prop := i.w.prop }
def Wave.under (w : Wave) (hm : Bool) (c : Captured) : Wave :=
  ({ w with md := c.md, v := c.v, s := c.s, hs := c.hs, o := c.o, prop := c.prop }.setLatch hm false c.la).setLatch hm true c.lb

/-- What an instruction with header `h` sees at its issue. -/
def State.iss (s : State) (h : Hdr) : Iss :=
  let w := s.wave s.cur.wave
  let f := w.frag s.cur.entry
  let hm := w.inHandler s.cur.entry
  match f.capt with
  | some c => { w := w.under hm c, f := f, hm := hm, part := c.part, q := [] }
  | none => { w := w, f := f, hm := hm, part := partOf w hm f h, q := [] }

/-- Issuing an instruction with header `h` and uses `u`. The PC moves to the next instruction before the effect `body` gives, so that
a branch may set it. The beginning of a slot's refetch is a pick of the fragment (R27, R89; log entry 70). A violation of the idempotence check is found
at decode (R92), so that nothing is issued; every other cause is raised at the issue (log entry 79). -/
def issue (u : Uses) (h : Hdr) (body : Iss → State → Body) (s : State) : Host.Outcome State Fault Refusal :=
  let r := s.curRef
  let i0 := s.iss h
  match preCheck s u i0 h.gp.toNat with
  | .stall => .next { s with stalled := true }
  | .refetch => .next (s.modFrag r fun f => { f with refetch := true, wake := s.clockIn 4 })
  | .wait x => .next (s.modFrag r fun f => { f with st := .waiting, wait := x, since := s.clock, capt := some i0.captured })
  | .trap c => .next ((if c = 10 then s else s.issued i0 u).trap c i0.part {})
  | .go =>
    if u.whole && decide (i0.part = 0) then
      let s1 := (s.issued i0 u).modFrag r fun f => { f with pc := nextPc f.pc s.cur.step, refetch := false, capt := none }
      .next (s1.finish r i0 u)
    else
      let (q, s1) := if i0.part = 0 then ([], s) else s.popQueue i0.w u
      let i : Iss := { i0 with q := q }
      match body i s with
      | .stall => .next { s with stalled := true }
      | .trap c info => .next ((s.issued i u).trap c i.part info)
      | .go eff =>
        let s2 := (s1.issued i u).modWave r.wave fun w =>
          (w.afterReads i u).modFrag r.entry fun f => { f with pc := nextPc f.pc s.cur.step, refetch := false, capt := none }
        .next ((eff s2).finish r i u)

/-! ### Destinations -/

/-- The vectors a destination writes. -/
def dstRegs (d : Dst) (w64 : Bool) : List Nat :=
  match d with
  | .v n _ => if w64 then [n.toNat, n.toNat + 1] else [n.toNat]
  | _ => []
def dstScal (d : Dst) : List Nat :=
  match d with
  | .s n => [n.toNat]
  | _ => []
def dstPush (d : Dst) : Option Nat :=
  match d with
  | .q k => some k.toNat
  | _ => none

/-- One entry joins a role queue: the lanes that take part, 0 elsewhere; a half-wave's lanes in its half (R360). -/
def State.pushQueue (s : State) (w : Wave) (part : Mask) (q : Nat) (x : Nat → Word) : State :=
  if part = 0 then s
  else
    let e := mkLanes fun i =>
      if w.w32 then (if i / 32 = (if w.half == 1 then 1 else 0) ∧ part.getLsbD (i % 32) then x (i % 32) else 0)
      else (if part.getLsbD i then x i else 0)
    s.modTeam w.team fun t => { t with q := Tab.set t.q q (t.queue q ++ [e]) }

/-- Writing a 32-bit result of the lanes that take part to any destination (R61, R78, R87, R88). -/
def State.putDst (s : State) (i : Iss) (d : Dst) (x : Nat → Word) : State :=
  if i.part = 0 then s else
  match d with
  | .v n m => s.modWave i.w.id fun w => w.writeV i.hm n.toNat m i.part (mkLanes x)
  | .s n => s.modWave i.w.id fun w => w.writeS i.hm n.toNat ((x ((lanesOf i.part).headD 0)).setWidth 64)
  | .o k => s.modWave i.w.id fun w => w.writeSlot k.toNat .eph i.part (mkLanes x)
  | .la => s.modWave i.w.id fun w => w.writeLatch i.hm false i.part (mkLanes x)
  | .lb => s.modWave i.w.id fun w => w.writeLatch i.hm true i.part (mkLanes x)
  | .q k => s.pushQueue i.w i.part k.toNat x

/-- Writing a 64-bit result to an even pair (R120). -/
def State.putDst64 (s : State) (i : Iss) (d : Dst) (x : Nat → DWord) : State :=
  if i.part = 0 then s else
  match d with
  | .v n m => s.modWave i.w.id fun w =>
      (w.writeV i.hm n.toNat m i.part (mkLanes fun l => (x l).setWidth 32)).writeV i.hm (n.toNat + 1) .none i.part
        (mkLanes fun l => (x l >>> 32).setWidth 32)
  | d => s.putDst i d fun l => (x l).setWidth 32

/-- Writing a predicate in the lanes that take part (R62, R78). -/
def State.putP (s : State) (i : Iss) (p : BitVec 4) (f : Nat → Bool) : State :=
  s.modWave i.w.id fun w => w.setP i.hm p.toNat i.part (maskOf f)

/-- A source of one or two registers. -/
def su (w64 : Bool) (x : Src) : SU := { x := x, kv := if w64 then 2 else 1 }

/-- Uses of a per-lane instruction with sources and a destination. -/
def laneUses (cls : ICls) (w64 : Bool) (d : Dst) (srcs : List SU) : Uses :=
  { srcs := srcs, dv := dstRegs d w64, ds := dstScal d, push := dstPush d, cls := cls }

end Sys2Proof.Machine
end

