-- ==== Sys2Proof/Machine/Flags.lean ====
section
/-! DEFINITION. The saturation flag (R86, R112, R113), comparisons (R138, R141) and classes (R142). -/

namespace Sys2Proof.Machine

/-- Setting `$flags.sat` (R112). -/
def Wave.setSat (w : Wave) (b : Bool) : Wave := if b then { w with flags := w.flags ||| 1 } else w
def State.setSat (s : State) (wave : Nat) (b : Bool) : State := if b then s.modWave wave (fun w => w.setSat true) else s

/-- Whether a barrier instruction raises the saturation trap (R113). -/
def Wave.satTraps (w : Wave) : Bool := w.md.getLsbD 11 && w.flags.getLsbD 0

/-- Integer comparison (R138). -/
def ICmp.holds (c : ICmp) (a b : Int) : Bool :=
  match c with
  | .eq => decide (a = b)
  | .ne => decide (a ≠ b)
  | .lt => decide (a < b)
  | .le => decide (a ≤ b)
  | .gt => decide (b < a)
  | .ge => decide (b ≤ a)

/-- One of the six orderings. -/
def ICmp.ofOrd (c : ICmp) (o : Ordering) : Bool :=
  match c with
  | .eq => o == .eq
  | .ne => o != .eq
  | .lt => o == .lt
  | .le => o != .gt
  | .gt => o == .gt
  | .ge => o != .lt

/-- Float comparison (R141). -/
def FCmp.holds (c : FCmp) (a b : Num) : Bool :=
  let un := a.isNan || b.isNan
  match c with
  | .ord c => !un && ICmp.ofOrd c (cmpNum a b)
  | .unord c => un || ICmp.ofOrd c (cmpNum a b)
  | .num => !un
  | .nan => un

/-- The class mask of an encoding (R142), after the input flush. -/
def classMask (k : FMode) (F : Fmt) (x : Nat) : Nat :=
  let x := inBits k F x
  match toReal F x with
  | .nan => 2 ^ 8
  | .inf n => if n then 1 else 2 ^ 7
  | .fin n m _ =>
    if m = 0 then (if n then 2 ^ 3 else 2 ^ 4)
    else if F.isSub x then (if n then 2 ^ 2 else 2 ^ 5)
    else (if n then 2 ^ 1 else 2 ^ 6)

end Sys2Proof.Machine
end

