-- ==== Sys2Proof/Machine/Control.lean ====
section
/-! DEFINITION. The control family (R126 to R132), splits and hinges (R29 to R32), and the end of a fragment and a wave (R40, R391). -/

namespace Sys2Proof.Machine

/-- Uses of a control instruction: one clock, whole-fragment (R98, R125). -/
def ctl : Uses := { whole := true, cls := .once }

/-! ### Splits -/

/-- Whether a wave is in its quarter. -/
def Wave.here (w : Wave) : Bool := w.live && !w.swapped && !w.away

/-- Entries of a quarter's split table in use by resident waves. -/
def State.entriesUsed (s : State) (core q : Nat) : List Nat :=
  (s.waves.filter fun e => e.2.here && e.2.core == core && e.2.q == q).flatMap fun e => e.2.frags.map Frag.entry

/-- The entry a new fragment takes: a free reserved one of its wave slot, else the lowest free shared one (R29). -/
def State.freeEntry (s : State) (w : Wave) : Option Nat :=
  let used := s.entriesUsed w.core w.q
  ([2 * w.slot, 2 * w.slot + 1] ++ (List.range 32).map (32 + ·)).find? fun e => !used.contains e

/-- A new fragment of lanes that leave (R29): its own PC and mask, the parent's `$fmt` and restart point, in legacy code too (log entry 46), what a hinge
has put before it and the first reads of its region (R33, R308). Its lanes leave the mask and stack that the parent's restart point holds (R30). -/
def Wave.splitOff (w : Wave) (parent e : Nat) (pc : Nat) (m : Mask) (wake : Nat) : Wave :=
  let p := w.frag parent
  let w := w.modFrag parent fun f =>
    { f with rmask := f.rmask &&& ~~~m, rstack := cutStack m f.rstack, rctr := f.rctr.filter fun c => !m.getLsbD c.1 }
  { w with
    born := w.born + 1
    frags := w.frags ++ [{ entry := e, born := w.born + 1, pc := pc, mask := m, fmt := p.fmt, rpc := p.rpc, rmask := m
                           rctr := p.rctr.filter fun c => m.getLsbD c.1, wake := wake, hinged := p.hinged, prior := p.prior, readV := p.readV, readS := p.readS }] }

/-- A deferred record is pushed (R30). -/
def Wave.defer (w : Wave) (e pc : Nat) (m : Mask) : Wave :=
  w.modFrag e fun f => { f with stack := { mask := m, pc := pc } :: f.stack }

/-- The operations still in flight that come before what a fragment does next in its program order (R308). -/
def State.inOrder (s : State) (r : FragRef) : List Nat :=
  let f := s.frag r
  (s.ops.filter fun o => o.wave == r.wave && (o.entry == r.entry || f.prior.contains o.id)).map Op.id

/-- One group of lanes leaves its fragment: as a new fragment, or as a deferred record, which is counted outside handler mode (R30,
R31, R385). -/
def State.leave (s : State) (r : FragRef) (hm : Bool) (pc : Nat) (m : Mask) (wake : Nat) : State :=
  let w := s.wave r.wave
  match if hm then none else s.freeEntry w with
  | some e =>
    let ids := s.inOrder r
    s.modWave r.wave fun w => (w.modFrag r.entry fun f => { f with prior := ids }).splitOff r.entry e pc m wake
  | none =>
    let s := s.modWave r.wave fun w => w.defer r.entry pc m
    if hm then s else s.count (qKey w.core w.q 4) 1

/-- How many of `n` leaving groups become deferred records. -/
def State.defers (s : State) (w : Wave) (hm : Bool) (n : Nat) : Nat :=
  if hm then n
  else
    let used := s.entriesUsed w.core w.q
    n - (([2 * w.slot, 2 * w.slot + 1] ++ (List.range 32).map (32 + ·)).filter fun e => !used.contains e).length

/-- The lanes `stay` go on at `pc`, every other group leaves in order (R29 to R31, R127). `s0` is the state at the issue, whose record
the split-overflow trap takes. -/
def State.diverge (s : State) (s0 : State) (i : Iss) (pc : Nat) (stay : Mask) (others : List (Nat × Mask)) (wake : Nat) : State :=
  let r := s0.curRef
  let d := s.defers i.w i.hm others.length
  let s := others.foldl (fun s g => s.leave r i.hm g.1 g.2 wake) s
  let s := s.modFrag r fun f => { f with pc := pc, mask := stay, wake := wake }
  let s := if others.isEmpty then s else s.count (qKey i.w.core i.w.q 7) 1
  if d = 0 || i.hm || !i.w.md.getLsbD 10 then s
  else s.modFrag r fun f => { f with late := f.late ++ [s0.trapNow 12 i.part { next := some pc }] }

/-- Whether a target pointer can be a PC, and its cause if not (R52). -/
def badTarget (t : DWord) : Option Nat :=
  if !canonical t || decide (2 ^ 57 - 8 < low57 t) then some 1 else if low57 t % 8 ≠ 0 then some 3 else none

/-- The target of `BRA` and `CALL`, none outside the address space (R52). -/
def relTarget (pc : Nat) (off : BitVec 32) : Option Nat :=
  let t := (pc : Int) + 8 * off.toInt
  if t < 0 ∨ 2 ^ 57 - 8 < t then none else some t.toNat

/-- The lanes that take part go to a target, the other active lanes fall through (R29, R127). `link` is what happens before any lane
moves. -/
def branchBody (link : State → State) (off : BitVec 32) (i : Iss) (s0 : State) : Body :=
  match relTarget i.f.pc off with
  | none => .trap 1 {}
  | some t =>
    let r := s0.curRef
    let nxt := nextPc i.f.pc s0.cur.step
    let rest := i.f.mask &&& ~~~i.part
    let moved (s : State) : State := if t = nxt then s else s.count (qKey i.w.core i.w.q 5) 1
    if rest = 0 || t = nxt then
      .go fun s => (moved (link s)).modFrag r fun f => { f with pc := t, wake := if t = nxt then f.wake else s.clockIn 4 }
    else if s0.defers i.w i.hm 1 = 0 then
      .go fun s =>
        if popMask i.part > popMask rest then (moved (link s)).diverge s0 i t i.part [(nxt, rest)] (s.clockIn 4)
        else (moved (link s)).diverge s0 i nxt rest [(t, i.part)] (s.clockIn 4)
    else if 8 ≤ i.f.stack.length then .trap 11 {}
    else .go fun s => (moved (link s)).diverge s0 i t i.part [(nxt, rest)] (s.clockIn 4)

/-- Groups of lanes by the PC they reach, in ascending order of their lowest lane. -/
def groups (pcOf : Nat → Nat) (m : Mask) : List (Nat × Mask) :=
  (lanesOf m).foldl (fun gs l =>
    if gs.any fun g => g.1 == pcOf l then gs.map fun g => if g.1 = pcOf l then (g.1, g.2 ||| (1#64 <<< l)) else g
    else gs ++ [(pcOf l, 1#64 <<< l)]) []

/-- The first of the largest groups. -/
def largest (gs : List (Nat × Mask)) : Nat × Mask :=
  gs.foldl (fun b g => if popMask b.2 < popMask g.2 then g else b) (0, 0)

/-- Every lane that takes part goes to its own target (R127). `ctr` is the count of branches or returns. Where one lane's target cannot be a PC and
another's is misaligned, PC-wrap is raised first: the manual gives no order (log entry 47). -/
def indirectBody (ctr : Nat) (link : State → State) (a : Src) (i : Iss) (s0 : State) : Body :=
  let nxt := nextPc i.f.pc s0.cur.step
  let bad := (lanesOf i.part).filterMap fun l => badTarget (i.v64 a l)
  if bad.contains 1 then .trap 1 {}
  else if bad.contains 3 then .trap 3 {}
  else
    let gs := groups (fun l => if i.part.getLsbD l then low57 (i.v64 a l) else nxt) i.f.mask
    let keep := largest gs
    let others := gs.filter fun g => g.1 ≠ keep.1
    let moved (s : State) : State := if gs.all (fun g => g.1 == nxt) then s else s.count (qKey i.w.core i.w.q ctr) 1
    if 8 < i.f.stack.length + s0.defers i.w i.hm others.length then .trap 11 {}
    else .go fun s =>
      let wake := if gs.all (fun g => g.1 == nxt) then i.f.wake else s.clockIn 4
      (moved (link s)).diverge s0 i keep.1 keep.2 others wake

/-- The return pointer goes to a scalar, once (R128). Where the next PC would lie at 2^57 it has no pointer and 0 is written; a call or branch there
whose lanes all leave has no sequential successor and raises no PC-wrap (R52, log entry 59). -/
def link (i : Iss) (d : BitVec 7) (s : State) : State :=
  s.modWave i.w.id fun w => w.writeS i.hm d.toNat (nextPtr (i.f.pc + s.cur.step))

/-! ### Hinges (R30, R32) -/

/-- Fragments held at one hinge become one: the earliest-created keeps its entry, `$fmt` and restart point; lanes that joined it
restart with it. -/
def mergeInto (a b : Frag) : Frag :=
  { a with
    mask := a.mask ||| b.mask, stack := b.stack ++ a.stack, rmask := a.rmask ||| (b.lanes &&& ~~~stackLanes a.rstack)
    rctr := a.rctr ++ b.rctr.filter (fun c => !(a.rctr.any fun x => x.1 == c.1)), late := a.late ++ b.late
    hinged := a.hinged ++ b.hinged, prior := a.prior ++ b.prior, readV := a.readV ++ b.readV, readS := a.readS ++ b.readS }

/-- The fragment just held merges with those held at the same hinge; where their deferred stacks together would not go into one entry it stays apart, and
is released with them (R373, log entry 78). -/
def Wave.mergeHeld (w : Wave) (e : Nat) : Wave :=
  let f := w.frag e
  match w.frags.find? fun g => g.entry ≠ e && g.st == f.st && decide (g.stack.length + f.stack.length ≤ 8) with
  | none => w
  | some g =>
    let (a, b) := if g.born < f.born then (g, f) else (f, g)
    let w := w.modFrag a.entry fun _ => mergeInto a b
    { w with frags := w.frags.filter fun x => x.entry ≠ b.entry }

/-- When every live fragment is held, those at the lowest PC go on (R32). -/
def Wave.releaseHeld (w : Wave) : Wave :=
  let pcs := w.frags.map fun f => match f.st with
    | .held pc _ => some pc
    | _ => none
  match pcs.foldr (fun p b => match p, b with
    | some p, some b => some (min p b)
    | _, _ => none) (some (2 ^ 57)) with
  | none => w
  | some low => { w with frags := w.frags.map fun f => match f.st with
      | .held pc _ => if pc = low then { f with st := .running } else f
      | _ => f }

/-- `HINGE` with an id by the running lanes of a fragment whose PC has moved on. -/
def Wave.hinge (w : Wave) (e pc id : Nat) : Wave :=
  let f := w.frag e
  match f.stack with
  | t :: rest =>
    match t.bound with
    | none => w.modFrag e fun f =>
        { f with pc := t.pc, mask := t.mask, stack := { t with mask := 0, bound := some (pc, id), arrived := f.mask } :: rest }
    | some b =>
      if b = (pc, id) then w.modFrag e fun f => { f with mask := f.mask ||| t.arrived, stack := rest }
      else ((w.modFrag e fun f => { f with st := .held pc id }).mergeHeld e).releaseHeld
  | [] => ((w.modFrag e fun f => { f with st := .held pc id }).mergeHeld e).releaseHeld

/-- What names fragments that a hinge has merged follows them: their operations are the merged fragment's, whose later accesses come after
them and after those that lanes of it had issued before a split (R308). `old` is the wave before the hinge. -/
def State.joined (old : Wave) (s : State) : State :=
  let w := s.wave old.id
  let own (e : Nat) : Nat :=
    if w.frags.any fun f => f.entry == e then e
    else ((w.frags.find? fun f => f.lanes &&& (old.frag e).lanes != 0).map Frag.entry).getD e
  let grown (f : Frag) : Bool := let m := (old.frag f.entry).mask; m &&& ~~~f.mask == 0 && m != f.mask
  let ops := s.ops.map fun o => if o.wave = old.id then { o with entry := own o.entry } else o
  let before (f : Frag) : List Nat :=
    (ops.filter fun o => o.wave == old.id && (o.entry == f.entry || f.prior.contains o.id || f.hinged.contains o.id)).map Op.id
  { s.modWave old.id fun w => { w with frags := w.frags.map fun f => if grown f then { f with hinged := before f } else f } with ops := ops }

/-! ### The end of a fragment and of a wave (R40, R391) -/

/-- A member leaves its quad (R167): quad operations beyond its count are discarded unrun, and the last member's leaving dissolves
the quad. -/
def State.leaveQuad (s : State) (id : Nat) : State :=
  let w := s.wave id
  match w.mx with
  | none => s
  | some m =>
    let s := s.modWave id fun w => { w with mx := none }
    let rest := (s.team w.team).waves.filter fun x => ((s.wave x).mx.map Member.first) == some m.first
    if rest.isEmpty then s.modTeam w.team fun t => { t with quads := t.quads.filter fun q => q.first ≠ m.first }
    else
      let s := s.modTeam w.team fun t => { t with quads := t.quads.map fun (q : Quad) =>
        if q.first = m.first then { q with part := true, leftAt := m.quads, ops := q.ops.filter fun o => decide (o.i ≤ m.quads) } else q }
      rest.foldl (fun s x => s.modWave x fun w => { w with mx := w.mx.map fun k =>
        { k with pend := k.pend.filter fun p => match p with
            | .quad i => decide (i ≤ m.quads)
            | _ => true } }) s

/-- A wave retires: its budgets return; a wave that was a member leaves its quad (R167). -/
def State.retireWave (s : State) (id : Nat) : State :=
  let w := s.wave id
  let s := (s.leaveQuad id).modWave id fun w => { w with live := false, frags := [], h := none, prop := none }
  let t := s.team w.team
  if t.waves.all fun x => !(s.wave x).live then s.retireTeam w.team else s

/-- Operations that only store. -/
def storesOnly : Instr → Bool
  | .st _ => true
  | .red _ => true
  | .adrain _ => true
  | _ => false

/-- Operations with an access or a result of their own for each lane. -/
def perLane : Instr → Bool
  | .ld _ => true
  | .st _ => true
  | .lds _ => true
  | .atomI _ => true
  | .atomF _ => true
  | .atomX2 _ => true
  | .atomCas _ => true
  | .red _ => true
  | .atoms _ => true
  | .qpop _ => true
  | _ => false

def maskOfLanes (ls : List LaneAcc) : Mask := ls.foldl (fun m l => m ||| (1#64 <<< l.lane)) 0
/-- The sectors that a lane's access of `n` bytes touches. -/
def LaneAcc.sectors (l : LaneAcc) (n : Nat) : List Nat := (List.range ((l.pa + n - 1) / 32 + 1 - l.pa / 32)).map (l.pa / 32 + ·)

/-- An operation keeps the lanes of a mask; what no lane of it needs is not sent, and with none left it is dead. -/
def Op.shed (live : Mask) (o : Op) : Op :=
  let keep (ls : List LaneAcc) : List LaneAcc := ls.filter fun l => live.getLsbD l.lane
  let o := { o with lanes := keep o.lanes, out := keep o.out, absent := keep o.absent, refused := keep o.refused
                    left := o.left ++ o.lanes.filter (fun (l : LaneAcc) => !live.getLsbD l.lane) }
  { o with held := o.held.filter fun sec => o.out.any fun l => (l.sectors o.size).contains sec, dead := o.dead || o.lanes.isEmpty }

/-- What becomes of a wave's operation when lanes of it end (R40): pending writes of their registers are discarded, stores complete without them, a
drain as before, and scalars are filled while a lane that took part goes on. `live` are the lanes that go on and `w` is the wave after the end. -/
def Op.ended (w : Wave) (live : Mask) (o : Op) : Op :=
  match o.instr with
  | .adrain _ => o
  | i =>
    if storesOnly i then { o with dead := o.dead || decide (maskOfLanes o.lanes &&& live = 0) }
    else if perLane i then o.shed live
    else if (if o.part = 0 then w.frags.any fun f => f.entry == o.entry else decide (o.part &&& live ≠ 0)) then o
    else { o with dead := true, held := [], absent := [] }

/-- Pending variable-latency writes of a wave's ended lanes are discarded (R40). An operation with nothing left to send or await is dropped, and its
destinations are full, as those of any other are once its replies are back (log entry 17). -/
def State.discardOps (s : State) (wave : Nat) : State :=
  let w := s.wave wave
  let live := w.frags.foldl (fun m f => m ||| f.lanes) 0
  let s : State := { s with
    ops := s.ops.map fun o => if o.wave = wave then o.ended w live else o
    mail := s.mail.map fun (x : Xch) => if x.wave = wave then { x with gone := x.mask &&& ~~~live } else x }
  (s.ops.filter fun o => o.wave == wave && o.dead && o.nout == 0 && (o.phase == .parked || !storesOnly o.instr)).foldl (fun s o => s.abandon o.id) s

/-- The top record resumes when the running lanes have retired (R30); a `HINGE` is 8 bytes. -/
def Frag.popRecord (f : Frag) (t : Rec) (rest : List Rec) : Frag :=
  match t.bound with
  | some (pc, _) => { f with mask := t.arrived, pc := nextPc pc 8, stack := rest }
  | none => { f with mask := t.mask, pc := t.pc, stack := rest }

/-- Lanes that end in a handler are no more among those that it resumes or restarts (R40, R390). -/
def Wave.endInHandler (w : Wave) (e : Nat) (m : Mask) : Wave :=
  ({ w with h := w.h.map fun h => { h with mask := h.mask &&& ~~~m, stack := cutStack m h.stack } } : Wave).modFrag e fun f =>
    { f with rmask := f.rmask &&& ~~~m, rstack := cutStack m f.rstack }

/-- The running lanes of a fragment retire. -/
def State.endFragment (s : State) (r : FragRef) : State :=
  let w := s.wave r.wave
  let f := w.frag r.entry
  let hm := w.inHandler r.entry
  let user := match w.h with
    | some h => if hm then h.stack.length else 0
    | none => 0
  let leaveHandler (s : State) : State :=
    if hm then
      let s := match w.h.bind HCtx.op with
        | some o => s.abandon o
        | none => s
      s.modWave r.wave fun w => { w with h := none }
    else s
  match f.stack with
  | t :: rest =>
    let s := if hm then s.modWave r.wave fun w => w.endInHandler r.entry f.mask else s
    let s := if user ≤ rest.length then s else leaveHandler s
    ((s.modFrag r fun f => f.popRecord t rest).discardOps r.wave).pendingEnters r.wave
  | [] =>
    let s := (leaveHandler s).modWave r.wave fun w => { w with frags := w.frags.filter fun f => f.entry ≠ r.entry }
    let s := s.discardOps r.wave
    if (s.wave r.wave).frags.isEmpty then s.retireWave r.wave
    else (s.pendingEnters r.wave).modWave r.wave Wave.releaseHeld

/-- `TERM`: every fragment of the wave ends (R391). -/
def State.endWave (s : State) (id : Nat) : State :=
  ((s.modWave id fun w => { w with frags := [] }).discardOps id).retireWave id

/-! ### The instructions -/

/-- `NOP` (R65). -/
def execNop (x : H0) (s : State) : Host.Outcome State Fault Refusal := issue ctl x.h (fun _ _ => .go id) s

/-- `BRA` (R127). -/
def execBra (x : HOff) (s : State) : Host.Outcome State Fault Refusal := issue ctl x.h (branchBody id x.off) s

/-- `BRX` (R127). -/
def execBrx (x : HA) (s : State) : Host.Outcome State Fault Refusal :=
  issue { ctl with srcs := [⟨x.a, 2, 1⟩] } x.h (indirectBody 5 id x.a) s

/-- `CALL` (R128). -/
def execCall (x : HCall) (s : State) : Host.Outcome State Fault Refusal :=
  issue { ctl with ds := [x.d.toNat] } x.h (fun i => branchBody (link i x.d) x.off i) s

/-- `CALLX` (R128). -/
def execCallx (x : HCallX) (s : State) : Host.Outcome State Fault Refusal :=
  issue { ctl with srcs := [⟨x.a, 2, 1⟩], ds := [x.d.toNat] } x.h (fun i => indirectBody 5 (link i x.d) x.a i) s

/-- `RET` (R128). -/
def execRet (x : HA) (s : State) : Host.Outcome State Fault Refusal :=
  issue { ctl with srcs := [⟨x.a, 2, 1⟩] } x.h (indirectBody 6 id x.a) s

/-- `HINGE` (R30, R32, R129). -/
def execHinge (x : HCode) (s : State) : Host.Outcome State Fault Refusal :=
  issue ctl x.h (fun i s => .go fun t =>
    (t.modWave s.cur.wave fun w => w.hinge s.cur.entry i.f.pc x.code.toNat).joined (t.wave s.cur.wave)) s

/-- `WPT` (R33, R129). -/
def execWpt (x : H0) (s : State) : Host.Outcome State Fault Refusal :=
  issue { ctl with entry := true } x.h (fun _ _ => .go id) s

/-- Whether a bound member has accepted operations that have not completed (R167). -/
def Wave.owesMatrix (w : Wave) : Bool :=
  match w.mx with
  | some m => !m.pend.isEmpty
  | none => false

/-- `END` (R40, R129): the last one of a bound wave waits for its accepted operations (R167). -/
def execEndFrag (x : H0) (s : State) : Host.Outcome State Fault Refusal :=
  issue ctl x.h (fun i s =>
    if i.w.owesMatrix && i.w.frags.length == 1 && i.f.stack.isEmpty then .stall
    else .go fun t => t.endFragment s.curRef) s

/-- `YIELD` (R130): 16 enabled clocks (R437, log entry 6). -/
def execYield (x : H0) (s : State) : Host.Outcome State Fault Refusal :=
  issue ctl x.h (fun _ s => .go fun t => t.modFrag s.curRef fun f =>
    { f with slip := 0, st := .waiting, wait := .yield, wake := s.clockIn 16 }) s

/-- The end of a `YIELD` or `SLEEP` whose clocks have passed. -/
def State.wakeUp (s : State) (r : FragRef) (k : Wait) : State :=
  let f := s.frag r
  if f.st = .waiting ∧ f.wait = k ∧ f.wake ≤ s.clock then s.modFrag r fun f => { f with st := .running, wait := .none }
  else { s with stalled := true }

/-- The 16 clocks of a `YIELD` have passed (R130). -/
def execYieldEnd (r : FragRef) (s : State) : Host.Outcome State Fault Refusal := .next (s.wakeUp r .yield)

/-- The clocks of `SLEEP`, clamped to 1 to 1,048,576 (R130). -/
def sleepClocks (n : DWord) : Nat := max 1 (min 1048576 n.toNat)

/-- `SLEEP` (R130): its clocks are counted whether the cores' clock is enabled in them or not (R437, log entry 6). -/
def execSleep (x : HA) (s : State) : Host.Outcome State Fault Refusal :=
  issue { ctl with srcs := [⟨x.a, 1, 1⟩] } x.h (fun i s => .go fun t => t.modFrag s.curRef fun f =>
    { f with st := .waiting, wait := .sleep, wake := s.clock + sleepClocks (i.s64 x.a) }) s

/-- The clocks of a `SLEEP` have passed (R130). -/
def execSleepEnd (r : FragRef) (s : State) : Host.Outcome State Fault Refusal := .next (s.wakeUp r .sleep)

/-- The predicates a `VOTE` uses and its scalar. -/
def votePs : VoteOp → List Nat
  | .any p => [p.toNat]
  | .all p => [p.toNat]
  | .eq p => [p.toNat]
  | .ballot _ => []
def voteDs : VoteOp → List Nat
  | .ballot d => [d.toNat]
  | _ => []

/-- The result of `VOTE` over the bits of the lanes that take part (R131). -/
def voteWrite (op : VoteOp) (i : Iss) (a : Mask) (w : Wave) : Wave :=
  let x := a &&& i.part
  let put (p : BitVec 4) (b : Bool) : Wave := w.setP i.hm p.toNat i.part (if b then full else 0)
  match op with
  | .any p => put p (decide (x ≠ 0))
  | .all p => put p (decide (x = i.part))
  | .eq p => put p (decide (x = 0 ∨ x = i.part))
  | .ballot d => w.writeS i.hm d.toNat x

/-- `VOTE` (R131). -/
def execVote (x : HVote) (s : State) : Host.Outcome State Fault Refusal :=
  issue { ctl with ps := x.pa.toNat :: votePs x.op, ds := voteDs x.op } x.h (fun i _ => .go fun t => t.modWave i.w.id fun w =>
    voteWrite x.op i (i.w.pred i.hm x.pa.toNat) w) s

/-- `BRKPT` (R132). -/
def execBrkpt (x : HCode) (s : State) : Host.Outcome State Fault Refusal :=
  issue ctl x.h (fun _ _ => .trap 24 { code := x.code.toNat }) s

end Sys2Proof.Machine
end

