-- ==== Sys2Proof/Machine/Float.lean ====
section
/-! DEFINITION. Float instructions (R139 to R143): operands by `In`, results by `RoundF`, under the rounding of R123. -/

namespace Sys2Proof.Machine

/-- The rounding mode of a rounding field (R123). -/
def rmOf (w : Wave) (r : Rnd) : Nat :=
  match r with
  | .dyn => w.md.toNat % 4
  | .rn => 0
  | .rz => 1
  | .ru => 2
  | .rd => 3

/-- The arithmetic fields of `$mode` that an instruction sees. -/
def Iss.k (i : Iss) : FMode := fmode i.w.md

/-- `RoundF` of an exact value given with a tail. -/
def roundTail (k : FMode) (F : Fmt) (rm : Nat) (y : Num × Bool) : Nat := outBits k F (roundNumT F rm y.2 y.1)

/-- FP32 instructions of one source: `f` gives the result's bits from the mode, the rounding, the operand and its value. -/
def flt1 (cls : ICls) (x : F1) (f : FMode → Nat → Word → Num → Nat) (s : State) : Host.Outcome State Fault Refusal :=
  issue (laneUses cls false x.d [su false x.a]) x.h (fun i _ => .go fun t =>
    t.putDst i x.d fun l =>
      BitVec.ofNat 32 (f i.k (rmOf i.w x.rm) (i.v32 x.a l) (inNum i.k fp32 (i.v32 x.a l).toNat))) s

/-- A format's value of a source: 32-bit formats from one register, FP64 from a pair. -/
def Iss.num (i : Iss) (F : Fmt) (x : Src) (l : Nat) : Num :=
  if F = fp64 then inNum i.k F (i.v64 x l).toNat else inNum i.k F (i.v32 x l).toNat

/-- Writing a result of a format. -/
def State.putF (s : State) (i : Iss) (F : Fmt) (d : Dst) (f : Nat → Nat) : State :=
  if F = fp64 then s.putDst64 i d fun l => BitVec.ofNat 64 (f l) else s.putDst i d fun l => BitVec.ofNat 32 (f l)

/-- FP32 or FP64 instructions of two sources. -/
def flt2 (F : Fmt) (x : F2) (f : Nat → Num → Num → Num) (s : State) : Host.Outcome State Fault Refusal :=
  let w := decide (F = fp64)
  issue (laneUses (if w then .fp64 else .vec) w x.d [su w x.a, su w x.b]) x.h (fun i _ => .go fun t =>
    t.putF i F x.d fun l => roundF i.k F (rmOf i.w x.rm) (f (rmOf i.w x.rm) (i.num F x.a l) (i.num F x.b l))) s

/-- Fused multiply-add: one rounding (R139). -/
def flt3 (F : Fmt) (x : F3) (s : State) : Host.Outcome State Fault Refusal :=
  let w := decide (F = fp64)
  issue (laneUses (if w then .fp64 else .vec) w x.d [su w x.a, su w x.b, su w x.c]) x.h (fun i _ => .go fun t =>
    t.putF i F x.d fun l => roundF i.k F (rmOf i.w x.rm)
      (addNum (rmOf i.w x.rm) (mulNum (i.num F x.a l) (i.num F x.b l)) (i.num F x.c l))) s

/-- FP32 minimum or maximum (R109). -/
def fltMM (mx : Bool) (x : D2) (s : State) : Host.Outcome State Fault Refusal :=
  issue (laneUses .vec false x.d [su false x.a, su false x.b]) x.h (fun i _ => .go fun t =>
    t.putDst i x.d fun l => BitVec.ofNat 32 (minMax i.k fp32 mx (i.v32 x.a l).toNat (i.v32 x.b l).toNat)) s

/-- Comparisons (R141). -/
def fltCmp (F : Fmt) (x : FSetp) (s : State) : Host.Outcome State Fault Refusal :=
  let w := decide (F = fp64)
  issue { srcs := [su w x.a, su w x.b], ps := [x.pd.toNat], cls := if w then .fp64 else .vec } x.h (fun i _ => .go fun t =>
    t.putP i x.pd fun l => FCmp.holds x.cmp (i.num F x.a l) (i.num F x.b l)) s

/-- The two 16-bit elements of a lane (R101). -/
def half (x : Word) (e : Nat) : Nat := x.toNat / 2 ^ (16 * e) % 2 ^ 16

/-- Both elements at once (R140). -/
def pack2 (f : Nat → Nat) : Word := BitVec.ofNat 32 (f 0 + 2 ^ 16 * f 1)

def packFmt16 (bf : Bool) : Fmt := if bf then bf16 else fp16

/-- Packed instructions of two sources. -/
def packed2 (x : P2) (f : Nat → Num → Num → Num) (s : State) : Host.Outcome State Fault Refusal :=
  issue (laneUses .vec false x.d [su false x.a, su false x.b]) x.h (fun i _ => .go fun t =>
    let F := packFmt16 x.bf
    t.putDst i x.d fun l => pack2 fun e =>
      roundF i.k F (rmOf i.w x.rm) (f (rmOf i.w x.rm) (inNum i.k F (half (i.v32 x.a l) e)) (inNum i.k F (half (i.v32 x.b l) e)))) s

/-- Packed minimum or maximum. -/
def packedMM (mx : Bool) (x : PM) (s : State) : Host.Outcome State Fault Refusal :=
  issue (laneUses .vec false x.d [su false x.a, su false x.b]) x.h (fun i _ => .go fun t =>
    t.putDst i x.d fun l => pack2 fun e => minMax i.k (packFmt16 x.bf) mx (half (i.v32 x.a l) e) (half (i.v32 x.b l) e)) s

/-- A value rounded to an integral value of its format: ±∞ and the sign of zero stay (R139). -/
def integral (rm : Nat) : Num → Num
  | .fin n m e => .fin n (roundAt rm n m e 0 false) 0
  | y => y

/-! ### The instructions -/

/-- `FADD`. -/
def execFadd (x : F2) (s : State) : Host.Outcome State Fault Refusal := flt2 fp32 x addNum s

/-- `FMUL`. -/
def execFmul (x : F2) (s : State) : Host.Outcome State Fault Refusal := flt2 fp32 x (fun _ => mulNum) s

/-- `FFMA`. -/
def execFfma (x : F3) (s : State) : Host.Outcome State Fault Refusal := flt3 fp32 x s

/-- `FMIN`. -/
def execFmin (x : D2) (s : State) : Host.Outcome State Fault Refusal := fltMM false x s

/-- `FMAX`. -/
def execFmax (x : D2) (s : State) : Host.Outcome State Fault Refusal := fltMM true x s

/-- `FSETP`. -/
def execFsetp (x : FSetp) (s : State) : Host.Outcome State Fault Refusal := fltCmp fp32 x s

def fmtOf (t : FFmt) : Fmt :=
  match t with
  | .f64 => fp64
  | .f32 => fp32
  | .f16 => fp16
  | .bf16 => bf16

/-- A source read as a format's bits: 16-bit formats from bits [15:0] (R142, R144). -/
def Iss.fbits (i : Iss) (t : FFmt) (x : Src) (l : Nat) : Nat :=
  match t with
  | .f64 => (i.v64 x l).toNat
  | .f32 => (i.v32 x l).toNat
  | _ => half (i.v32 x l) 0

/-- `FCLASS` (R142). -/
def execFclass (x : FClass) (s : State) : Host.Outcome State Fault Refusal :=
  issue (laneUses .vec false x.d [su x.fmt.w64 x.a]) x.h (fun i _ => .go fun t =>
    t.putDst i x.d fun l => BitVec.ofNat 32 (classMask i.k (fmtOf x.fmt) (i.fbits x.fmt x.a l))) s

/-- `FRCP`. -/
def execFrcp (x : F1) (s : State) : Host.Outcome State Fault Refusal := flt1 .trans x (fun k rm _ a => roundTail k fp32 rm (recipNum a)) s

/-- `FRSQ`. -/
def execFrsq (x : F1) (s : State) : Host.Outcome State Fault Refusal := flt1 .trans x (fun k rm _ a => roundTail k fp32 rm (rsqrtNum a)) s

/-- `FSQRT`. -/
def execFsqrt (x : F1) (s : State) : Host.Outcome State Fault Refusal := flt1 .trans x (fun k rm _ a => roundTail k fp32 rm (sqrtNum a)) s

/-- `FEX2`. -/
def execFex2 (x : F1) (s : State) : Host.Outcome State Fault Refusal := flt1 .trans x (fun k rm b a => outBits k fp32 (transBits 0 rm b a)) s

/-- `FLG2`. -/
def execFlg2 (x : F1) (s : State) : Host.Outcome State Fault Refusal := flt1 .trans x (fun k rm b a => outBits k fp32 (transBits 1 rm b a)) s

/-- `FSIN`. -/
def execFsin (x : F1) (s : State) : Host.Outcome State Fault Refusal := flt1 .trans x (fun k rm b a => outBits k fp32 (transBits 2 rm b a)) s

/-- `FCOS`. -/
def execFcos (x : F1) (s : State) : Host.Outcome State Fault Refusal := flt1 .trans x (fun k rm b a => outBits k fp32 (transBits 3 rm b a)) s

/-- `FRND`. -/
def execFrnd (x : F1) (s : State) : Host.Outcome State Fault Refusal := flt1 .vec x (fun k rm _ a => roundF k fp32 rm (integral rm a)) s

/-- `HADD2`. -/
def execHadd2 (x : P2) (s : State) : Host.Outcome State Fault Refusal := packed2 x addNum s

/-- `HMUL2`. -/
def execHmul2 (x : P2) (s : State) : Host.Outcome State Fault Refusal := packed2 x (fun _ => mulNum) s

/-- `HFMA2`. -/
def execHfma2 (x : P3) (s : State) : Host.Outcome State Fault Refusal :=
  issue (laneUses .vec false x.d [su false x.a, su false x.b, su false x.c]) x.h (fun i _ => .go fun t =>
    let F := packFmt16 x.bf
    let rm := rmOf i.w x.rm
    let at? (y : Src) (l e : Nat) : Num := inNum i.k F (half (i.v32 y l) e)
    t.putDst i x.d fun l => pack2 fun e => roundF i.k F rm (addNum rm (mulNum (at? x.a l e) (at? x.b l e)) (at? x.c l e))) s

/-- `HMIN2`. -/
def execHmin2 (x : PM) (s : State) : Host.Outcome State Fault Refusal := packedMM false x s

/-- `HMAX2`. -/
def execHmax2 (x : PM) (s : State) : Host.Outcome State Fault Refusal := packedMM true x s

/-- `DADD`. -/
def execDadd (x : F2) (s : State) : Host.Outcome State Fault Refusal := flt2 fp64 x addNum s

/-- `DMUL`. -/
def execDmul (x : F2) (s : State) : Host.Outcome State Fault Refusal := flt2 fp64 x (fun _ => mulNum) s

/-- `DFMA`. -/
def execDfma (x : F3) (s : State) : Host.Outcome State Fault Refusal := flt3 fp64 x s

/-- `DSETP`. -/
def execDsetp (x : FSetp) (s : State) : Host.Outcome State Fault Refusal := fltCmp fp64 x s

end Sys2Proof.Machine
end

