-- ==== Sys2Proof/Machine/Convert.lean ====
section
/-! DEFINITION. Conversions (R144 to R146), which saturate under R111 and set `$flags.sat` once (R112). -/

namespace Sys2Proof.Machine

/-- An integer source's value (R144). -/
def Iss.int (i : Iss) (t : IType) (x : Src) (l : Nat) : Int :=
  match t with
  | .s32 => (i.v32 x l).toInt
  | .z32 => (i.v32 x l).toNat
  | .s64 => (i.v64 x l).toInt
  | .z64 => (i.v64 x l).toNat

/-- A conversion source as an exact value. -/
def Iss.cvt (i : Iss) (t : CvtSrc) (x : Src) (l : Nat) : Num :=
  match t with
  | .f t => inNum i.k (fmtOf t) (i.fbits t x l)
  | .i t => intNum (i.int t x l)

/-- A conversion source to an integer of `w` bits, and whether it saturated (R110, R144). -/
def Iss.cvtInt (i : Iss) (rm w : Nat) (sg : Bool) (t : CvtSrc) (x : Src) (l : Nat) : Int × Bool :=
  match t with
  | .f t => floatToInt i.k rm w sg (inNum i.k (fmtOf t) (i.fbits t x l))
  | .i t => satInt w sg (i.int t x l)

def cvtClass (wide : Bool) : ICls := if wide then .fp64 else .vec

def isF64 : CvtSrc → Bool
  | .f .f64 => true
  | _ => false

/-- Whether a lane that takes part saturates. -/
def anySat (i : Iss) (f : Nat → Bool) : Bool := (lanesOf i.part).any f

/-- `CVT.F` (R144). -/
def execCvtF (x : CvtF) (s : State) : Host.Outcome State Fault Refusal :=
  issue (laneUses (cvtClass (isF64 x.src || x.dst == .f64)) x.dst.w64 x.d [su x.src.w64 x.a]) x.h (fun i _ => .go fun t =>
    let r (l : Nat) : Nat × Bool := satFloat i.k (fmtOf x.dst) (rmOf i.w x.rm) (i.cvt x.src x.a l)
    (t.putF i (fmtOf x.dst) x.d fun l => (r l).1).setSat i.w.id (anySat i fun l => (r l).2)) s

/-- `CVT.I` (R144). -/
def execCvtI (x : CvtI) (s : State) : Host.Outcome State Fault Refusal :=
  issue (laneUses (cvtClass (isF64 x.src)) x.dst.w64 x.d [su x.src.w64 x.a]) x.h (fun i _ => .go fun t =>
    let r (l : Nat) : Int × Bool := i.cvtInt (rmOf i.w x.rm) (IType.width x.dst) (itSigned x.dst) x.src x.a l
    let t := if x.dst.w64 then t.putDst64 i x.d fun l => BitVec.ofInt 64 (r l).1 else t.putDst i x.d fun l => BitVec.ofInt 32 (r l).1
    t.setSat i.w.id (anySat i fun l => (r l).2)) s

/-- An element format: a float format, or an integer of a width and sign (R145). -/
inductive Elem where
  | f (F : Fmt)
  | i (w : Nat) (sg : Bool)

def elemOf (q : QFmt) : Elem :=
  match q with
  | .f16 => .f fp16
  | .bf16 => .f bf16
  | .e4m3 => .f e4m3
  | .e5m2 => .f e5m2
  | .e2m1 => .f e2m1
  | .s16 => .i 16 true
  | .z16 => .i 16 false
  | .s8 => .i 8 true
  | .z8 => .i 8 false
  | .s4 => .i 4 true
  | .z4 => .i 4 false

def Elem.width : Elem → Nat
  | .f F => F.width
  | .i w _ => w

/-- An FP32 value, or a signed 32-bit integer, converted to an element (R111, R145, R146). -/
def toElem (k : FMode) (rm : Nat) (e : Elem) (x : Word) : Nat × Bool :=
  match e with
  | .f F => satFloat k F rm (inNum k fp32 x.toNat)
  | .i w sg => let r := satInt w sg x.toInt; ((r.1 % 2 ^ w).toNat, r.2)

/-- An element widened exactly to 32 bits (R145). -/
def fromElem (k : FMode) (e : Elem) (x : Nat) : Word :=
  match e with
  | .f F => BitVec.ofNat 32 (roundF k fp32 0 (inNum k F x))
  | .i w sg => if sg && x / 2 ^ (w - 1) % 2 == 1 then BitVec.ofInt 32 ((x : Int) - 2 ^ w) else BitVec.ofNat 32 x

/-- Element `p` of a lane, and a lane with it replaced (R101). -/
def getElem (w p : Nat) (x : Word) : Nat := x.toNat / 2 ^ (w * p) % 2 ^ w
def setElem (w p : Nat) (x : Word) (e : Nat) : Word :=
  BitVec.ofNat 32 (x.toNat - getElem w p x * 2 ^ (w * p) + e % 2 ^ w * 2 ^ (w * p))

/-- `CVT.Q` (R145). -/
def execCvtQ (x : CvtQ) (s : State) : Host.Outcome State Fault Refusal :=
  issue (laneUses .vec false x.d [su false x.a, su false x.b]) x.h (fun i _ => .go fun t =>
    let e := elemOf x.fmt
    let r (l : Nat) : Nat × Bool := toElem i.k i.k.rnd e (i.v32 x.a l)
    (t.putDst i x.d fun l => setElem e.width x.pos.toNat (i.v32 x.b l) (r l).1).setSat i.w.id (anySat i fun l => (r l).2)) s

def packElem (f : PackFmt) : Elem :=
  match f with
  | .f16 => .f fp16
  | .bf16 => .f bf16
  | .s16 => .i 16 true
  | .z16 => .i 16 false

/-- `PACK` (R146). -/
def execPack (x : Pack) (s : State) : Host.Outcome State Fault Refusal :=
  issue (laneUses .vec false x.d [su false x.a, su false x.b]) x.h (fun i _ => .go fun t =>
    let r (y : Src) (l : Nat) : Nat × Bool := toElem i.k (rmOf i.w x.rm) (packElem x.fmt) (i.v32 y l)
    (t.putDst i x.d fun l => pack2 fun e => (if e = 0 then r x.a l else r x.b l).1).setSat i.w.id
      (anySat i fun l => (r x.a l).2 || (r x.b l).2)) s

/-- `UNPK` (R145). -/
def execUnpk (x : Unpk) (s : State) : Host.Outcome State Fault Refusal :=
  issue (laneUses .vec false x.d [su false x.a]) x.h (fun i _ => .go fun t =>
    let e := elemOf x.fmt
    t.putDst i x.d fun l => fromElem i.k e (getElem e.width x.pos.toNat (i.v32 x.a l))) s

end Sys2Proof.Machine
end

