-- ==== Sys2Proof/Machine/Local.lean ====
section
/-! DEFINITION. Local memory (R217 to R221): copy request fields (R340), the range scoreboard, bank conflicts, checks of local accesses. -/

namespace Sys2Proof.Machine

/-! ### Copy requests (R340) -/

def rqSrc (q : BitVec 256) : DWord := q.extractLsb' 0 64
def rqDst (q : BitVec 256) : DWord := q.extractLsb' 64 64
def rqLen (q : BitVec 256) : Nat := (q.extractLsb' 128 32).toNat
def rqBarrier (q : BitVec 256) : Nat := (q.extractLsb' 160 19).toNat
def rqBar (q : BitVec 256) : Bool := q.getLsbD 179
def rqKind (q : BitVec 256) : Nat := (q.extractLsb' 180 2).toNat
def rqPolicy (q : BitVec 256) : Nat := (q.extractLsb' 186 3).toNat
/-- A local offset is bits [18:0] of its side. -/
def localSide (x : DWord) : Nat := x.toNat % 2 ^ 19

/-- The local bytes of a request, and whether it writes them; none for kind 2. -/
def rqLocal (q : BitVec 256) : Option (Bool × Nat × Nat) :=
  if rqKind q = 0 then some (true, localSide (rqDst q), rqLen q)
  else if rqKind q = 1 then some (false, localSide (rqSrc q), rqLen q) else none

/-! ### The range scoreboard (R221) -/

/-- The scoreboard entries that a core holds. -/
def State.entries (s : State) (core : Nat) : List Copy := s.copies.filter fun c => c.core == core && c.running && !c.away && (rqLocal c.rq).isSome

/-- Whether two byte ranges overlap, the first widened to multiples of 64. -/
def overlaps64 (lo len a n : Nat) : Bool :=
  decide (0 < len) && decide (0 < n) && decide (lo / 64 * 64 < a + n) && decide (a < (lo + len + 63) / 64 * 64)

/-- A local access of a team waits for a copy that writes bytes it touches, and a store or atomic also for one that reads them. -/
def State.clash (s : State) (team : Nat) (store : Bool) (rs : List (Nat × Nat)) : Bool :=
  s.copies.any fun c => c.team == team && c.running && match rqLocal c.rq with
    | some (wr, lo, len) => (wr || store) && rs.any fun r => overlaps64 lo len r.1 r.2
    | none => false

/-- Whether an `ADRAIN` of the wave still has to write one of the bytes (R186). -/
def State.draining (s : State) (wave : Nat) (rs : List (Nat × Nat)) : Bool :=
  s.ops.any fun o => o.wave == wave && o.lbytes.any fun b => rs.any fun r => decide (r.1 ≤ b.1) && decide (b.1 < r.1 + r.2)

/-- Whether a local access of a wave has to wait. -/
def State.localBusy (s : State) (w : Wave) (store : Bool) (rs : List (Nat × Nat)) : Bool :=
  s.clash w.team store rs || s.draining w.id rs

/-! ### Banks (R218) -/

/-- Clocks of one pass beyond the first: the distinct 8-byte words of the busiest bank, less one. -/
def bankExtra (rs : List (Nat × Nat)) : Nat :=
  let ws := (rs.flatMap fun r => (List.range ((r.1 + r.2 + 7) / 8 - r.1 / 8)).map (r.1 / 8 + ·)).dedup
  ((List.range 32).map fun b => (ws.filter fun x => x % 32 == b).length).foldl max 1 - 1

/-- The extra clocks of both passes of a per-lane access. -/
def laneExtra (at? : Nat → Nat × Nat) (part : Mask) : Nat :=
  let pass (lo : Nat) : Nat := bankExtra (((lanesOf part).filter fun l => l / 32 == lo).map at?)
  pass 0 + pass 1

def State.countLocal (s : State) (core n : Nat) : State := s.count (cKey core 2) n

/-! ### Local bytes -/

def State.lmem (s : State) (team : Nat) : Memory := (s.team team).lmem
def State.setLmem (s : State) (team : Nat) (f : Memory → Memory) : State := s.modTeam team fun t => { t with lmem := f t.lmem }
/-- Writing bytes at their offsets. -/
def putBytes (m : Memory) (bs : List (Nat × Byte)) : Memory := bs.foldl (fun m e => m.set e.1 e.2) m

end Sys2Proof.Machine
end

