-- ==== Sys2Proof/Machine/Combine.lean ====
section
/-! DEFINITION. The arithmetic of atomics (R298) and the conversions of loads and stores (R243). -/

namespace Sys2Proof.Machine

/-! ### Conversions of loads and stores -/

/-- The element a conversion names in memory; none for raw bytes. -/
def convElem (c : Conv) : Option Elem :=
  match c with
  | .raw => none
  | .f16 => some (.f fp16)
  | .bf16 => some (.f bf16)
  | .e4m3 => some (.f e4m3)
  | .e5m2 => some (.f e5m2)
  | .s8 => some (.i 8 true)
  | .z8 => some (.i 8 false)
  | .s16 => some (.i 16 true)
  | .z16 => some (.i 16 false)

/-- The registers a load writes in one lane, from its memory bytes as a number (R243): exact, without a flush. -/
def loadWords (c : Conv) (n : Nat) (x : Nat) : List Word :=
  match convElem c with
  | some e => [fromElem plainMode e x]
  | none => (List.range ((n + 3) / 4)).map fun k => BitVec.ofNat 32 (x / 2 ^ (32 * k))

/-- One lane's stored number of a source, and whether the conversion saturates (R243). -/
def storeNum (i : Iss) (c : Conv) (n : Nat) (a : Src) (l : Nat) : Nat × Bool :=
  match convElem c with
  | some e => toElem i.k i.k.rnd e (i.v32 a l)
  | none =>
    if n = 16 then
      match a with
      | .v r _ _ => ((List.range 4).foldl (fun x k => x + (i.w.vlane (r.toNat + k) l).toNat * 2 ^ (32 * k)) 0, false)
      | _ => (0, false)
    else if n = 8 then ((i.v64 a l).toNat, false)
    else ((i.v32 a l).toNat % 2 ^ (8 * n), false)

/-! ### Atomics -/

/-- A local atomic, with the new value of `.cas` (R298). -/
def localApply (op : LAtomOp) (old x nw : Nat) : Nat :=
  match op with
  | .int o t => atomInt o (IType.width t) (itSigned t) old x
  | .cas _ => if old = x then nw else old
  | .addF32 => atomFloat .add fp32 old x
  | .add2F16 => atomHalves .add fp16 old x
  | .add2BF16 => atomHalves .add bf16 old x

/-- A lane of a global atomic: the operand holds the data, or for a compare-and-swap the compare in its low half and the new value in
its high half. -/
def globalApply (i : Instr) (old : Nat) (d : BitVec 512) : Nat :=
  match i with
  | .atomI x => atomInt x.op (IType.width x.t) (itSigned x.t) old (d.toNat % 2 ^ IType.width x.t)
  | .atomF x => atomFloat x.op (if x.fmt1 then fp64 else fp32) old (d.toNat % 2 ^ (if x.fmt1 then 64 else 32))
  | .atomCas x => if old = d.toNat % 2 ^ (8 * x.w.bytes) then d.toNat / 2 ^ 128 % 2 ^ (8 * x.w.bytes) else old
  | .red x => redApply x.op old (d.toNat % 2 ^ (if x.op.w64 then 64 else 32))
  | _ => old

/-- One half (`hi` the upper) of an `ATOM.X2` lane (R292). -/
def halfApply (x : AtomF) (hi : Bool) (old : Nat) (d : BitVec 512) : Nat :=
  atomFloat x.op (if x.fmt1 then bf16 else fp16) old (d.toNat / (if hi then 2 ^ 16 else 1) % 2 ^ 16)

end Sys2Proof.Machine
end

