-- ==== Sys2Proof/Machine/Slice.lean ====
section
/-! DEFINITION. What a slice does at the point of order: bearings and reader checks (R258 to R262, R268), update-only lines and recalls
(R290), fills (R226, R245), parking, drift, eviction and unparking (R263 to R267, R275 to R280). -/

namespace Sys2Proof.Machine

/-! ### Bearings -/

/-- Where entry `b` of a context's bearing table lies (R432). -/
def State.bearAddr (s : State) (pasid b : Nat) : Nat := (s.ctx pasid).desc + 0x200 + 32 * b

/-- Entry `b`, as it is once its line is recalled (R290); entry 0 reads as 0 (R258). -/
def State.bearing (s : State) (pasid b : Nat) : BitVec 256 :=
  if b = 0 then 0 else BitVec.ofNat 256 ((s.recall (s.bearAddr pasid b)).peekNum (s.bearAddr pasid b) 32)

/-- The place of a die's or a core's cached bearing entries (R258). -/
def dieAt (slice : Nat) : Nat := slice / 48
def coreAt (core : Nat) : Nat := 4 + core

/-- The cached copy of an entry at a place. -/
def State.bearCopy (s : State) (at? pasid b : Nat) : Option BearC := s.bears.find? fun c => c.at? == at? && c.pasid == pasid && c.b == b

/-- Entry `b` as a place sees it: its cached copy, else the descriptor (R258, R273). -/
def State.bearingAt (s : State) (at? pasid b : Nat) : BitVec 256 := match s.bearCopy at? pasid b with
  | some c => c.e
  | none => s.bearing pasid b

/-- A place that uses an entry caches it, from the recalled line of the descriptor (R258, R290). -/
def State.useBearing (s : State) (at? pasid b : Nat) : State :=
  if b = 0 ∨ (s.bearCopy at? pasid b).isSome then s
  else { s.recall (s.bearAddr pasid b) with bears := s.bears ++ [{ at? := at?, pasid := pasid, b := b, e := s.bearing pasid b }] }

/-- The cached copies of an entry that do not hold what its descriptor does. -/
def State.staleBearings (s : State) (pasid b : Nat) : List BearC := s.bears.filter fun c => c.pasid == pasid && c.b == b && c.e != s.bearing pasid b

def bValid (e : BitVec 256) : Bool := e.getLsbD 255
def bKind (e : BitVec 256) : Nat := e.toNat / 2 ^ 253 % 4
def bPolicy (e : BitVec 256) : Nat := e.toNat / 2 ^ 251 % 4
def bGrid (e : BitVec 256) : Nat := e.toNat / 2 ^ 160 % 2 ^ 16
def bFirst (e : BitVec 256) : Nat := e.toNat % 2 ^ 32
def bLast (e : BitVec 256) : Nat := e.toNat / 2 ^ 32 % 2 ^ 32

/-- Who makes an access: its context, core, grid tag and team index. -/
structure Asker where
  pasid : Nat
  core  : Nat
  tag   : Nat
  idx   : Nat

/-- Whether an asker is a declared reader under an entry (R260). -/
def declared (e : BitVec 256) (a : Asker) : Bool :=
  bValid e && (if bKind e = 0 then e.getLsbD a.core
    else if bKind e = 1 then a.tag == bGrid e && decide (bFirst e ≤ a.idx) && decide (a.idx ≤ bLast e)
    else if bKind e = 2 then e.getLsbD (a.core / 40) else false)

/-- The reader cores of an entry for a store of a context (R261). -/
def State.readerCores (s : State) (pasid : Nat) (e : BitVec 256) : List Nat :=
  let part := (s.ctx pasid).part
  (List.range Config.cores).filter fun c =>
    s.partOfCore c == some part && !(s.core c).fenced && !(s.core c).vacating &&
    (if bKind e = 0 then e.getLsbD c
     else if bKind e = 1 then s.teams.any fun t => t.2.pasid == pasid && t.2.tag == bGrid e && decide (bFirst e ≤ t.2.idx) &&
       decide (t.2.idx ≤ bLast e) && (t.2.loc == .resident || t.2.loc == .swapPart) && t.2.core == c
     else e.getLsbD (c / 40))

/-- The detail registers of a locate or park-full record (R270, R389). -/
def refusal (a : Asker) (bear kind core : Nat) (dies : BitVec 4) (loc : Nat) : DWord × DWord :=
  (BitVec.ofNat 64 (bear + a.core * 2 ^ 8 + a.tag * 2 ^ 16 + a.idx * 2 ^ 32),
   BitVec.ofNat 64 (kind + core * 2 ^ 2 + dies.toNat * 2 ^ 10 + loc / 48 * 2 ^ 14 + loc % 48 * 2 ^ 16))

/-- The slice that checks a read: the local slice for a copy it holds, else the home slice (R265, R268). It is also the slice that a refusal's record
names; where the berth core's own L1 refuses a read, no slice has met it, and the record names the line's home slice (log entry 67). -/
def State.meets (s : State) (e : ChartE) (core : Nat) : Nat :=
  let l := localSlice core (e.line * 128)
  if e.berth = 1 ∧ (copyLocs e).contains l then l else s.home (e.line * 128)

/-- The place whose copy of the entry checks a reader (R265, R268): the berth core for its own park way, else the die of the slice. -/
def State.checkAt (s : State) (e : ChartE) (core : Nat) : Nat :=
  if e.berth = 0 ∧ e.core = core then coreAt core else dieAt (s.meets e core)

/-- The refusal of a read of a parked line, none where it passes or the line is not parked (R268, R270). -/
def State.refuses (s : State) (a : Asker) (pa : Nat) : Option (DWord × DWord) :=
  match s.chartOf pa with
  | none => none
  | some e =>
    if e.pasid = a.pasid ∧ declared (s.bearingAt (s.checkAt e a.core) e.pasid e.bear) a then none
    else some (refusal a (if e.pasid = a.pasid then e.bear else 0) e.berth e.core e.dies (s.meets e a.core))

/-- The check of a read caches the entry that it uses (R258). -/
def State.useCheck (s : State) (a : Asker) (pa : Nat) : State :=
  match s.chartOf pa with
  | some e => s.useBearing (s.checkAt e a.core) e.pasid e.bear
  | none => s

/-! ### Sealed pages -/

/-- The pages of the canonical space in ascending order, negative addresses first, so that every range of pages is one of numbers. -/
def sealPage (va : DWord) : Nat := (low57 va / 4096 + 2 ^ 44) % 2 ^ 45

/-- Whether a page of a context is sealed (R236). -/
def Ctx.sealed (c : Ctx) (va : DWord) : Bool := let p := sealPage va; c.seals.any fun r => decide (r.1 ≤ p) && decide (p ≤ r.2)

/-! ### Writing whole lines -/

/-- Poison of the sectors of one line in the memory itself. -/
def State.memPoison (s : State) (line : Nat) (po : BitVec 4) : State :=
  { s with poison := s.poison.filter (fun p => p / 4 ≠ line) ++ ((List.range 4).filter fun i => po.getLsbD i).map fun i => line * 4 + i }

/-- A whole line goes to its memory. -/
def State.storeLine (s : State) (pa : Nat) (bs : List Byte) (po : BitVec 4) : State :=
  { s with mem := s.mem.setBytes (pa / 128 * 128) bs }.memPoison (pa / 128) po

/-- The bytes and poison of a whole line at its point of order. -/
def State.wholeLine (s : State) (pa : Nat) : List Byte × BitVec 4 :=
  (s.peeks (pa / 128 * 128) 128,
   (List.range 4).foldl (fun m i => if s.poisoned (pa / 128 * 128 + 32 * i) then m ||| (1#4 <<< i) else m) 0)

/-- A line with all 128 bytes. -/
def Line.filled (l : Line) (bs : List Byte) (po : BitVec 4) (dirty : Bool) : Line :=
  { l with data := Memory.ofBytes 0 bs, valid := BitVec.allOnes 128, dirty := if dirty then BitVec.allOnes 128 else l.dirty, poison := po }

/-! ### Fills (R226, R245) -/

/-- The home slice holds the sector, allocating its line where it may: bytes that it lacks are filled from the memory with the sector's poison
(R240); a line that is filled with `first` becomes a first candidate for replacement (R245). -/
def State.fetchSector (s : State) (pasid pa : Nat) (first : Bool) : State :=
  let h := s.home pa
  let s := s.l2Alloc h (s.setFor pasid pa) pa .ordinary
  { s with l2 := modLine s.l2 h pa fun l =>
      if l.hasSector pa then l
      else { l.fillSector s.mem pa with
        first := l.first || first, poison := if s.poison.contains (pa / 32) then l.poison ||| (1#4 <<< (pa % 128 / 32)) else l.poison } }

/-- Whether the home slice holds the sector of an address. -/
def State.l2Holds (s : State) (pa : Nat) : Bool := match findLine s.l2 (s.home pa) pa with
  | some l => l.hasSector pa
  | none => false

/-! ### L1 lines (R222, R223) -/

/-- Park ways of a core's L1 (R222). -/
def State.l1Park (s : State) (core : Nat) : Nat := match s.partOfCore core with
  | some p => (s.part p).l1park
  | none => 0

/-- A line of a kind in a non-park way of the core's L1, replacing what is there; an update-only victim is merged. -/
def State.l1Alloc (s : State) (core pasid pa : Nat) (kind : LineKind) : State :=
  match findLine s.l1 core pa with
  | some l => if l.kind = kind ∨ l.kind = .parked then s
    else
      let s := if l.kind = .update then s.mergeLine l else { s with l1 := dropLine s.l1 core pa }
      { s with l1 := s.l1 ++ [{ loc := core, set := l1Set pa, way := l.way, line := pa / 128, kind := kind, pasid := pasid }] }
  | none =>
    match s.wayFor s.l1 core (l1Set pa) (s.l1Park core) 10 (fun l => l.kind != .parked) with
    | none => s
    | some (w, v) =>
      let s : State := match v with
        | some (l : Line) => if l.kind = LineKind.update then (s.mergeLine l).drawn
          else { s.drawn with l1 := dropLine s.l1 core (l.line * 128) }
        | none => s
      { s with l1 := s.l1 ++ [{ loc := core, set := l1Set pa, way := w, line := pa / 128, kind := kind, pasid := pasid }] }

/-- A sector of data enters the core's L1 as an ordinary line or sealed replica. -/
def State.l1Fill (s : State) (core pasid pa : Nat) (kind : LineKind) (first : Bool) (bs : List Byte) (po : Bool) : State :=
  let b := pa / 32 * 32
  let s := s.l1Alloc core pasid pa kind
  { s with l1 := modLine s.l1 core pa fun l => if l.kind = kind then
      let l := l.puts false (addrs b bs)
      { l with poison := if po then l.poison ||| (1#4 <<< (b % 128 / 32)) else l.poison &&& ~~~(1#4 <<< (b % 128 / 32))
               first := l.first || first } else l }

/-- An ordinary line of the core is invalidated. -/
def State.l1DropOrdinary (s : State) (core pa : Nat) : State :=
  { s with l1 := s.l1.filter fun l => !(l.loc == core && l.line == pa / 128 && l.kind == .ordinary) }

/-! ### Reductions into update-only lines (R289, R290) -/

/-- The words of a line that an operand at `pa` touches, with the 64-bit delta that holds an odd word. -/
def touched (pa : Nat) (w64 : Bool) : List Nat := let w := pa % 128 / 4; if w64 then [w, w + 1] else [w]

/-- Whether an existing delta of these words has another operation or type. -/
def redClash (l : Line) (pa : Nat) (op : RedOp) : Bool :=
  l.delta.any fun e =>
    let own := if e.2.1.w64 then [e.1, e.1 + 1] else [e.1]
    (own.any fun w => (touched pa op.w64).contains w) && !(e.2.1 == op && e.1 == pa % 128 / 4)

/-- One lane's operand joins the delta of its word; the line keeps whose reductions it holds (R414). -/
def redAdd (l : Line) (pasid pa : Nat) (op : RedOp) (x : Nat) : Line :=
  let w := pa % 128 / 4
  let old := match Tab.get? l.delta w with
    | some d => d.2.toNat
    | none => redIdentity op
  { l with delta := Tab.set l.delta w (op, BitVec.ofNat 64 (redApply op old x)), users := l.users.insert pasid }

/-- A lane is accepted into the core's update-only line; a sector whose word has another operation is merged first. -/
def State.redInto (s : State) (core pasid pa : Nat) (op : RedOp) (x : Nat) : State :=
  match findLine s.l1 core pa with
  | none => s
  | some l =>
    let s := if redClash l pa op then
        let s := s.mergeSectors l [pa % 128 / 32]
        { s with l1 := modLine s.l1 core pa fun l =>
          { l with delta := l.delta.filter fun e => e.1 / 8 ≠ pa % 128 / 32, poison := l.poison &&& ~~~(1#4 <<< (pa % 128 / 32)) } }
      else s
    { s with l1 := modLine s.l1 core pa fun l => redAdd l pasid pa op x }

/-- The core's update-only line for an address, with the home line's update-pending bit; false where none can be had. -/
def State.updateLine (s : State) (core pasid pa : Nat) : State × Bool :=
  let s := (s.l1Alloc core pasid pa .update).fetchSector pasid pa false
  let home := (findLine s.l2 (s.home pa) pa).isSome
  let mine := match findLine s.l1 core pa with
    | some l => l.kind == .update
    | none => false
  if home && mine then ({ s with l2 := modLine s.l2 (s.home pa) pa fun l => { l with pend := true } }, true)
  else if mine then ({ s with l1 := dropLine s.l1 core pa }, false)
  else (s, false)

/-! ### Fan-out lines (R266) -/

/-- The dies of a line's fan-out copies, none for any other line. -/
def State.fanOut (s : State) (pa : Nat) : List Nat := match s.chartOf pa with
  | some e => if e.berth = 1 then diesOf e.dies else []
  | none => []

/-- Stored bytes enter a parked copy; a sector written whole loses its poison (R240). -/
def Line.store (bs : List (Nat × Byte)) (l : Line) : Line :=
  { l.puts true bs with poison := (wholeSectors bs).foldl (fun p a => p &&& ~~~(1#4 <<< (a % 128 / 32))) l.poison }

/-- The copy on one die takes a store's bytes. -/
def State.spreadTo (s : State) (pa d : Nat) (bs : List (Nat × Byte)) : State :=
  { s with l2 := modLine s.l2 (d * 48 + sliceOf pa) pa (Line.store bs) }

/-- A store in progress to a fan-out line reaches every copy before the line leaves its berth or is written from outside (R266). -/
def State.spreadOut (s : State) (pa : Nat) : State :=
  s.reqs.foldl (fun s r => match r.kind with
    | .spread bs ds a m => if r.pa / 128 = pa / 128 then
        let t := ds.foldl (fun s d => s.spreadTo r.pa d bs) s
        { t with reqs := t.reqs.map fun (q : Req) => if q.id = r.id then { q with kind := .spread bs [] a m } else q }
      else s
    | _ => s) s

/-- The bytes of a sector and its poison as a core reads them of a parked line (R269). -/
def State.readerBytes (s : State) (e : ChartE) (core pa : Nat) : List Byte × Bool :=
  match s.readerLine e core with
  | some l => ((List.range 32).map fun k => l.byte (pa + k), l.poison.getLsbD (pa % 128 / 32))
  | none => (s.peeks pa 32, s.poisoned pa)

/-! ### Berths (R263) -/

inductive Berth where
  | l1 (core : Nat)
  | l2 (dies : BitVec 4)
  | stack
  deriving DecidableEq, Repr

def Berth.code : Berth → Nat
  | .l1 _ => 0 | .l2 _ => 1 | .stack => 2
def Berth.core : Berth → Nat
  | .l1 c => c | _ => 0
def Berth.dies : Berth → BitVec 4
  | .l2 d => d | _ => 0

def ChartE.place (e : ChartE) : Berth := if e.berth = 0 then .l1 e.core else if e.berth = 1 then .l2 e.dies else .stack

/-- The berth that reader cores choose. -/
def berthOf (rs : List Nat) : Berth :=
  match rs with
  | [c] => .l1 c
  | rs => .l2 (rs.foldl (fun d c => d ||| (1#4 <<< (c / 40))) 0)

/-- The next level outward (R276). -/
def Berth.outward : Berth → Berth
  | .l1 c => .l2 (1#4 <<< (c / 40))
  | _ => .stack

/-- Park ways in use of a set, but those of the line itself. -/
def parkUsed (ls : List Line) (loc set k pa : Nat) : Nat :=
  (ls.filter fun l => l.loc == loc && l.set == set && decide (l.way < k) && l.line != pa / 128).length

/-- The places of a berth whose set has no free park way, in ascending order (R276). -/
def State.fullAt (s : State) (pasid pa : Nat) (b : Berth) : List Nat :=
  match b with
  | .l1 c => if s.l1Park c ≤ parkUsed s.l1 c (l1Set pa) (s.l1Park c) pa then [c] else []
  | .l2 d => ((diesOf d).map fun x => x * 48 + sliceOf pa).filter fun loc =>
      let k := Tab.getD 0 s.l2park (loc / 48)
      decide (k ≤ parkUsed s.l2 loc (s.setFor pasid pa) k pa)
  | .stack => []

/-- Freeing an entry's lines. -/
def State.dropBerth (s : State) (e : ChartE) : State :=
  let other (l : Line) : Bool := !(l.line == e.line && l.kind == .parked)
  { s with l1 := s.l1.filter other, l2 := s.l2.filter other }

/-- Unparking (R279): the line becomes an ordinary dirty line of the home slice; it goes to its memory too if `dram`, or where the home slice has no
way. -/
def State.unpark (s : State) (e : ChartE) (dram : Bool) : State :=
  let pa := e.line * 128
  let s := s.spreadOut pa
  if 2 ≤ e.berth then { s.dropBerth e with chart := s.chart.filter fun x => x.line ≠ e.line }
  else
    let (bs, po) := s.wholeLine pa
    let s := { s.dropBerth e with chart := s.chart.filter fun x => x.line ≠ e.line }
    let s := s.l2Alloc (s.home pa) (s.setFor e.pasid pa) pa .ordinary
    match findLine s.l2 (s.home pa) pa with
    | some _ =>
      let s := { s with l2 := modLine s.l2 (s.home pa) pa fun l => l.filled bs po !dram }
      if dram then s.storeLine pa bs po else s
    | none => s.storeLine pa bs po

def State.unparkAt (s : State) (pa : Nat) (dram : Bool) : State := match s.chartOf pa with
  | some e => s.unpark e dram
  | none => s

/-- How far an entry's order lies behind its slice's count (R441). -/
def State.age (s : State) (e : ChartE) : Nat := (Tab.getD 0 s.parkCount e.loc + 2 ^ 32 - e.order) % 2 ^ 32

/-- The line that `EVICT` takes from a full set: of the bearing and context, the oldest (R276). -/
def State.victim (s : State) (pasid bear pa : Nat) (l1 : Bool) (loc : Nat) : Option ChartE :=
  let set := if l1 then l1Set pa else s.setFor pasid pa
  let cs := s.chart.filter fun e => e.pasid == pasid && e.bear == bear && e.line != pa / 128 &&
    (if l1 then e.berth == 0 && e.core == loc && l1Set (e.line * 128) == set
     else e.berth == 1 && s.l2.any fun l => l.loc == loc && l.set == set && l.line == e.line && l.kind == .parked)
  cs.foldl (fun b e => match b with
    | none => some e
    | some x => if s.age x < s.age e then some e else some x) none

/-- `EVICT` in the full sets of a level, each once; a set that an earlier victim has left too is no longer full. False when a full set
holds no line of the bearing. -/
def State.evictAt (s : State) (pasid bear pa : Nat) (b : Berth) (l1 : Bool) : List Nat → State × Bool
  | [] => (s, true)
  | loc :: r =>
    if !(s.fullAt pasid pa b).contains loc then State.evictAt s pasid bear pa b l1 r
    else match s.victim pasid bear pa l1 loc with
      | none => (s, false)
      | some e => State.evictAt ((s.unpark e true).ctxCount pasid 3 1) pasid bear pa b l1 r

/-- The berth a store takes, from the level it computed outward (R276), or the full place that refuses it. -/
def State.findBerth (pasid bear pol pa : Nat) : Nat → State → Berth → State × Option Nat × Berth
  | 0, s, _ => (s, none, .stack)
  | n + 1, s, b =>
    match s.fullAt pasid pa b with
    | [] => (s, none, b)
    | loc :: r =>
      if pol = 2 then (s, some (match b with
        | .l1 _ => s.home pa
        | _ => loc), b)
      else
        let isL1 := match b with
          | .l1 _ => true
          | _ => false
        let e := if pol = 1 then s.evictAt pasid bear pa b isL1 (loc :: r) else (s, false)
        if e.2 then (e.1, none, b) else State.findBerth pasid bear pol pa n (e.1.ctxCount pasid 2 1) b.outward

/-- A line takes a berth with its data (R264, R441). -/
def State.install (s : State) (pasid bear pa : Nat) (bs : List Byte) (po : BitVec 4) (b : Berth) : State :=
  let h := s.home pa
  let s := match s.chartOf pa with
    | some e => s.dropBerth e
    | none => { s with l2 := dropLine s.l2 h pa }
  let n := Tab.getD 0 s.parkCount h
  let e : ChartE := { loc := h, set := s.setFor pasid pa, line := pa / 128, pasid := pasid, bear := bear, berth := b.code, core := b.core
                      dies := b.dies, order := n }
  let s := { s with parkCount := Tab.set s.parkCount h ((n + 1) % 2 ^ 32), chart := s.chart.filter (fun x => x.line ≠ pa / 128) ++ [e] }
  let fresh (ls : List Line) (loc set k : Nat) : Line :=
    let used := usedWays ls loc set
    let w := ((List.range k).find? fun w => !used.contains w).getD 0
    Line.filled { loc := loc, set := set, way := w, line := pa / 128, kind := .parked, pasid := pasid, bear := bear } bs po true
  match b with
  | .l1 c =>
    let ls := s.l1.filter fun l => !(l.loc == c && l.line == pa / 128)
    { s with l1 := ls ++ [fresh ls c (l1Set pa) (s.l1Park c)] }
  | .l2 d => (diesOf d).foldl (fun s x =>
      let loc := x * 48 + sliceOf pa
      let ls := dropLine s.l2 loc pa
      { s with l2 := ls ++ [fresh ls loc e.set (Tab.getD 0 s.l2park x)] }) s
  | .stack => s.storeLine pa bs po

/-- The line is recalled from where it lies, merged with the stored bytes and installed at the berth it can take (R275). -/
def State.moveTo (s : State) (a : Asker) (bear pa : Nat) (bs : List (Nat × Byte)) (pol : Nat) (b : Berth) : State × Option (DWord × DWord) :=
  match State.findBerth a.pasid bear pol pa 3 (s.spreadOut pa) b with
  | (s, some loc, _) => (s, some (refusal a bear b.code b.core b.dies loc))
  | (s, none, t) =>
    let (old, po) := s.wholeLine pa
    let m := bs.foldl (fun (m : Memory) (x : Nat × Byte) => m.set (x.1 % 128) x.2) (Memory.ofBytes 0 old)
    let po := (wholeSectors bs).foldl (fun po x => po &&& ~~~(1#4 <<< (x % 128 / 32))) po
    (s.install a.pasid bear pa (Memory.image 128 m 0) po t, none)

/-- Whether a parked store finds its line at the berth it computes (R275). -/
def State.inPlace (s : State) (a : Asker) (bear pa : Nat) : Bool := match s.chartOf pa with
  | some c => c.bear == bear && c.pasid == a.pasid &&
      decide (c.place = berthOf (s.readerCores a.pasid (s.bearingAt (dieAt (s.home pa)) a.pasid bear)))
  | none => false

/-- Whether the chart has no room for a line that is not parked, so that a store to it is an ordinary one (R277). -/
def State.chartFull (s : State) (pasid pa : Nat) : Bool :=
  (s.chartOf pa).isNone &&
    decide (Config.chartWays ≤ (s.chart.filter fun x => x.loc == s.home pa && x.set == s.setFor pasid pa).length)

/-- A parked store of bytes of one line that the chart has room for (R275, R276), decided with the entry as the home slice's die holds it: the new state,
or its refusal under `FAULT`. -/
def State.parkStore (s : State) (a : Asker) (bear pa : Nat) (bs : List (Nat × Byte)) : State × Option (DWord × DWord) :=
  let e := s.bearingAt (dieAt (s.home pa)) a.pasid bear
  let b := berthOf (s.readerCores a.pasid e)
  if s.inPlace a bear pa then (s.pokes a.pasid false pa bs, none)
  else s.moveTo a bear pa bs (bPolicy e) b

/-- A line parked in a core's L1 drifts to the L2 berth of its die, else to the home stack (R280). -/
def State.driftCore (s : State) (core : Nat) : State :=
  (s.chart.filter fun e => e.berth == 0 && e.core == core).foldl (fun s e =>
    let pa := e.line * 128
    let b := (Berth.l1 core).outward
    let t := if (s.fullAt e.pasid pa b).isEmpty then b else .stack
    let s := s.ctxCount e.pasid 2 (if t = .stack then 2 else 1)
    let (bs, po) := s.wholeLine pa
    s.install e.pasid e.bear pa bs po t) s

/-! ### Host and peer memory -/

/-- Whether an address reaches host or peer memory. -/
def remote (pa : Nat) : Bool := match memKind pa with
  | .host => true
  | .peer _ => true
  | _ => false

/-- The home slice writes back and invalidates its copy of a line (R291). -/
def State.flushLine (s : State) (pa : Nat) : State :=
  match findLine s.l2 (s.home pa) pa with
  | some l => if l.kind = .parked then s else { s.writeBack l with l2 := dropLine s.l2 (s.home pa) pa }
  | none => s

/-- The home slice writes a line's dirty bytes to its memory and keeps it (R253). -/
def State.cleanLine (s : State) (pa : Nat) : State :=
  match findLine s.l2 (s.home pa) pa with
  | some l => if l.kind = .parked then s else { s.writeBack l with l2 := modLine s.l2 (s.home pa) pa fun l => { l with dirty := 0, wrote := [] } }
  | none => s

/-- The lines of remote memory that a scope reaches: peers at `.node`, host and peers at `.system` (R227). -/
def scopeReaches (sc : Scope) (pa : Nat) : Bool :=
  match memKind pa, sc with
  | .host, .system => true
  | .peer _, .system => true
  | .peer _, .node => true
  | _, _ => false

/-- The home line of a remote address has been used by a context, and written by the wave or copy `who` (R227). -/
def State.noteUse (s : State) (pasid : Nat) (who : Option Nat) (pa : Nat) : State :=
  if remote pa then { s with l2 := modLine s.l2 (s.home pa) pa fun l => { l with
    users := l.users.insert pasid
    wrote := match who with
      | some w => l.wrote.insert w
      | none => l.wrote } }
  else s

/-- The write-backs of a release at `.node` or `.system`: of the lines that the releasing wave or copy wrote (R227). -/
def State.cleanRemote (s : State) (sc : Scope) (who : Nat) : State :=
  (s.l2.filter fun l => scopeReaches sc (l.line * 128) && l.wrote.contains who).foldl (fun s l => s.cleanLine (l.line * 128)) s

/-- A home line is written back and invalidated; a pinned line keeps its way and its pins, with no byte valid (R226, R227). -/
def State.invalLine (s : State) (pa : Nat) : State :=
  match findLine s.l2 (s.home pa) pa with
  | some l => if l.pins.isEmpty then s.flushLine pa
    else { s.writeBack l with l2 := invalidated s.l2 fun l => l.loc == s.home pa && l.line == pa / 128 }
  | none => s

/-- The invalidations of an acquire at `.node` or `.system`: of the lines that the acquiring context uses (R227). -/
def State.dropRemote (s : State) (sc : Scope) (pasid : Nat) : State :=
  (s.l2.filter fun l => scopeReaches sc (l.line * 128) && l.users.contains pasid).foldl (fun s l => s.invalLine (l.line * 128)) s

end Sys2Proof.Machine
end

