-- ==== Sys2Proof/Machine/Access.lean ====
section
/-! DEFINITION. The path of an access: buffer records (R232 to R235), translation and parking (R247, R248, R413), requests and the waits
for acknowledgements (R313), completion (R94, R237, R248, R270, R293), releases and acquires (R314). -/

namespace Sys2Proof.Machine

/-! ### Buffer records -/

def recOf (i : Iss) (r : BitVec 7) : BitVec 256 :=
  let v (k : Nat) : DWord := i.w.sval i.hm (r.toNat + k)
  (v 3 ++ v 2) ++ (v 1 ++ v 0)

def rcBase (q : BitVec 256) : DWord := q.extractLsb' 0 64
def rcExtent (q : BitVec 256) : Nat := (q.extractLsb' 64 32).toNat
def rcStride (q : BitVec 256) : Nat := (q.extractLsb' 96 24).toNat
def rcBear (q : BitVec 256) : Nat := (q.extractLsb' 120 8).toNat
def rcType (q : BitVec 256) : Nat := (q.extractLsb' 128 2).toNat
def rcSwz (q : BitVec 256) : Nat := (q.extractLsb' 130 2).toNat
def rcLdTrap (q : BitVec 256) : Bool := q.getLsbD 132
def rcStTrap (q : BitVec 256) : Bool := q.getLsbD 133
def rcKind (q : BitVec 256) : Nat := (q.extractLsb' 136 4).toNat

/-- The record-format check for lane accesses of `n` bytes (R233, R234). -/
def rcBad (q : BitVec 256) (n : Nat) : Bool :=
  decide (rcKind q ≠ 1) || decide (rcStride q = 0) || decide (rcType q = 3) || decide (q.extractLsb' 134 2 ≠ 0)
    || decide (q.extractLsb' 140 52 ≠ 0) || !canonical (rcBase q)
    || (decide (rcSwz q ≠ 0) && (decide ((rcBase q).toNat % 4096 ≠ 0) || decide (rcExtent q * rcStride q % 128 ≠ 0) || decide (16 < n)))

/-- The swizzle of a byte offset. -/
def rcSwizzle (k : Nat) (a : Int) : Int :=
  if k = 0 then a
  else a - a / 16 % 8 * 16 + Nat.xor (a / 16 % 8).toNat (a / 2 ^ (k + 6) % 8).toNat * 16

/-- A lane's address and whether it is in bounds (R234). -/
def rcAddr (q : BitVec 256) (i : Nat) (off : Int) (n : Nat) : DWord × Bool :=
  let a : Int := i * rcStride q + off
  let inb := decide (0 ≤ a) && decide (a + n ≤ rcExtent q * rcStride q)
  let va := (rcBase q).toInt + rcSwizzle (rcSwz q) a
  (BitVec.ofInt 64 va, inb && decide (-(2 ^ 56) ≤ va) && decide (va + n - 1 < 2 ^ 56))

/-! ### Who asks, and what an instruction needs -/

def Op.asker (s : State) (o : Op) : Asker :=
  let t := s.team (s.wave o.wave).team
  { pasid := o.pasid, core := o.core, tag := t.tag, idx := t.idx }

/-- Read and write permission that an access needs (R413). -/
def needs : Instr → Bool × Bool
  | .ld _ => (true, false)
  | .ldsc _ => (true, false)
  | .parkq _ => (true, false)
  | .st _ => (false, true)
  | .atomI _ => (true, true)
  | .atomF _ => (true, true)
  | .atomCas _ => (true, true)
  | .atomX2 _ => (true, true)
  | .red _ => (true, true)
  | _ => (false, false)

/-- Whether lanes without a page are left out instead of parked: the pages of `SEAL` and `UNSEAL` (R255). -/
def skipsAbsent : Instr → Bool
  | .seal _ => true
  | .unseal _ => true
  | _ => false

def AtcE.allows (e : AtcE) (i : Instr) : Bool := (!(needs i).1 || e.rd) && (!(needs i).2 || e.wr)

/-- Whether a line of an instruction has to be translated by the host: without an entry, or with one that lacks a permission which a Page Request has
since been answered for (R413). -/
def missing (x : Option AtcE) (i : Instr) : Bool := match x with
  | some e => e.again && !e.allows i
  | none => true

/-- The operation and width of a remote atomic as a path-capability bit, none where only a CAS serves; and the width of the CAS it falls
back to (R291, R416). -/
def pathNeeds : Instr → Option (Option Nat × Nat)
  | .atomI x => some (match x.op with
      | .add => some (if x.t.w64 then 1 else 0)
      | .exch => some (if x.t.w64 then 3 else 2)
      | _ => none, if x.t.w64 then 64 else 32)
  | .atomF x => some (none, if x.fmt1 then 64 else 32)
  | .atomX2 _ => some (none, 32)
  | .atomCas x => some (none, 8 * x.w.bytes)
  | .red x => some (match x.op with
      | .int .add t => some (if t.w64 then 1 else 0)
      | _ => none, if x.op.w64 then 64 else 32)
  | _ => none

/-- The path-capability set of the memory an address lies in (R416). -/
def State.pathCaps (s : State) (pa : Nat) : BitVec 8 := match memKind pa with
  | .host => s.hostPath.setWidth 8
  | .peer n => (s.route n).setWidth 8
  | _ => 0xFF

/-- Whether a path carries an operation as such: every operation, or the one of a capability bit (R291). -/
def State.native (s : State) (own : Option Nat) (pa : Nat) : Bool := (s.pathCaps pa).getLsbD 7 || (match own with
  | some b => (s.pathCaps pa).getLsbD b
  | none => false)

/-- Whether a path carries an atomic (R291): natively, as its own operation, or by a CAS of its width. -/
def State.carries (s : State) (i : Instr) (pa : Nat) : Bool :=
  match pathNeeds i with
  | none => true
  | some (own, w) => s.native own pa || (s.pathCaps pa).getLsbD (if w = 128 then 6 else if w = 64 then 5 else 4)

/-- Whether the remote atomic unit performs an atomic by a loop of CAS operations (R291). -/
def State.emulates (s : State) (i : Instr) (pa : Nat) : Bool :=
  match i, pathNeeds i with
  | .atomCas _, _ => false
  | _, some (own, _) => memKind pa != .dram && !s.native own pa
  | _, none => false

/-! ### Traps of an operation -/

/-- The lowest lane of a list. -/
def lowest (ls : List LaneAcc) : Option LaneAcc := ls.foldl (fun (b : Option LaneAcc) l => match b with
  | none => some l
  | some x => if l.lane < x.lane then some l else some x) none
def lowVa (ls : List LaneAcc) : DWord := match lowest ls with
  | some l => l.va
  | none => 0
/-- The lowest address of a list of lanes (R237). -/
def leastVa (ls : List LaneAcc) : DWord := BitVec.ofNat 64 (ls.foldl (fun m l => min m l.va.toNat) (lowVa ls).toNat)
/-- The captured data of a lane as `RDTR` reads it: a compare-and-swap's new value follows its compare value of `n` bytes (R401). -/
def capData (i : Instr) (n : Nat) (d : BitVec 512) : BitVec 256 := match i with
  | .atomCas _ => BitVec.ofNat 256 (d.toNat % 2 ^ 128 + d.toNat / 2 ^ 128 * 2 ^ (8 * n))
  | _ => d.setWidth 256

/-- What `RDTR` reads of an instruction's lanes (R401). -/
def capOf (i : Instr) (n : Nat) (ls : List LaneAcc) : Tab Cap := ls.map fun l => (l.lane, { va := l.va, data := capData i n l.data, idx := l.idx })

/-- The trap of a cause that an operation raises, from the record captured at its issue. -/
def Op.trap (o : Op) (cause : Nat) (lanes : Mask) (va d0 d1 : DWord) (held : Bool) : Trap :=
  let cls := causeClass cause
  let r := o.trec.set 0 (o.trec.getD 0 0 + BitVec.ofNat 64 (cls.code * 2 ^ 8 + cause))
  let r := ((r.set 4 lanes).set 5 va).set 13 d0 |>.set 14 d1
  { cause := cause, cls := cls, trec := r, cap := capOf o.instr o.size o.lanes, op := if held then some o.id else none }

/-- The opcode and the modifiers of a recorded instruction in its decode mode (R48, R70, R73), from the first and the seventh register of its
record. -/
def opcodeMods (tc w : DWord) : Nat × Nat :=
  let m := tc.toNat / 2 ^ 10 % 4
  if m = 0 then (w.toNat / 4 % 2 ^ 10, w.toNat / 2 ^ 56) else if m = 1 then (w.toNat / 4 % 2 ^ 9, w.toNat / 2 ^ 46 % 2 ^ 8) else (w.toNat % 2 ^ 8, 0)

/-! ### Releases and acquires (R314) -/

def scopeRank : Scope → Nat
  | .wave => 0 | .team => 1 | .core => 2 | .cluster => 3 | .die => 4 | .device => 5 | .node => 6 | .system => 7

/-- Whether every access that a wave made before a point is complete. -/
def State.relDone (s : State) (wave upto : Nat) : Bool := s.ops.all fun o => o.wave != wave || decide (upto ≤ o.id)

/-- What a wave's release does beside waiting: merges at `.core` or wider, write-backs of the lines it wrote at `.node` and `.system` (R223, R227). -/
def State.release (s : State) (wave core : Nat) (sc : Scope) : State :=
  (if 2 ≤ scopeRank sc then s.mergeCore core else s).cleanRemote sc wave

/-- Fills of a line that are in flight to a core install nothing, and no later load joins them. -/
def State.markFills (s : State) (core pa : Nat) : State :=
  { s with reqs := s.reqs.map fun (r : Req) => if r.core = core ∧ r.pa / 128 = pa / 128 then { r with mark := true } else r
           reps := s.reps.map fun (r : Rep) => if r.core = core ∧ r.pa / 128 = pa / 128 then { r with mark := true } else r }

/-- Every fill in flight to a core installs nothing (R314, R327). -/
def State.markCore (s : State) (core : Nat) : State :=
  { s with reqs := s.reqs.map fun (r : Req) => if r.core = core then { r with mark := true } else r
           reps := s.reps.map fun (r : Rep) => if r.core = core then { r with mark := true } else r }

/-- The completion of an acquire by a wave or task of a context on a core. -/
def State.acquire (s : State) (pasid core : Nat) (sc : Scope) : State :=
  if scopeRank sc < 3 then s
  else
    ({ s with l1 := s.l1.filter fun l => !(l.loc == core && l.kind == LineKind.ordinary) }.markCore core).dropRemote sc pasid

/-- Whether an acquire of the wave is pending, so that its memory instructions are not ready. -/
def State.acqPending (s : State) (wave : Nat) : Bool :=
  (s.ops.any fun o => o.wave == wave && o.aq && !o.dead) || (s.wave wave).frags.any fun f => match f.wait with
    | .acq _ _ => true
    | .rel _ _ (.fence b) => b
    | _ => false

/-- Whether a fragment's memory instruction is not ready: an acquire of its wave is pending, or a hinge that merged lanes into the fragment still
orders it after an earlier access (R308, R314). -/
def State.memHeld (s : State) (i : Iss) : Bool :=
  s.acqPending i.w.id || s.ops.any fun o => i.f.hinged.contains o.id

/-! ### Requests -/

def ReqKind.stores : ReqKind → Bool
  | .write _ => true
  | .atom _ _ => true
  | .cas _ _ _ _ => true
  | .red _ => true
  | .spread _ _ _ _ => true
  | _ => false

def RepKind.acks : RepKind → Bool
  | .ack _ => true
  | .old _ _ => true
  | _ => false

/-- An ordinary fill in flight that a load may join (R313). -/
def ReqKind.fills : ReqKind → Bool
  | .read f => f
  | _ => false
def RepKind.fills : RepKind → Bool
  | .data _ _ f => f
  | _ => false

/-- Whether the core has an unacknowledged store or atomic in a sector (R313, R223). -/
def State.unacked (s : State) (core sec : Nat) : Bool :=
  (s.reqs.any fun r => r.core == core && r.pa / 32 == sec && r.kind.stores)
    || s.reps.any fun r => r.core == core && r.pa / 32 == sec && r.kind.acks

/-- Whether an operation reads as a load that may be served by the L1. -/
def isLoad : Instr → Bool
  | .ld _ => true
  | .ldsc _ => true
  | _ => false

/-- Whether an earlier access of the core to the sector has not been sent. -/
def State.heldBefore (s : State) (core sec id : Nat) : Bool :=
  s.ops.any fun o => o.core == core && decide (o.id < id) && o.held.contains sec

def Op.inSector (o : Op) (sec : Nat) : List LaneAcc := o.out.filter fun l => (l.sectors o.size).contains sec

/-- Whether some of these lanes of an operation touch a sector, or one of the addresses that another operation has there: a lane that waits for the host
may have lost its physical address. -/
def Op.touches (o : Op) (ls vs : List LaneAcc) (sec : Nat) : Bool :=
  ls.any fun l => (l.sectors o.size).contains sec || vs.any fun v => v.va.toNat / 32 == l.va.toNat / 32

/-- Whether an earlier instruction of the wave has still to access a sector again: its lanes were refused, or wait to be replayed (R309, R316, R329).
A handler's accesses do not wait for it. -/
def State.behindRefused (s : State) (o : Op) (sec : Nat) : Bool :=
  !o.hm && s.ops.any fun q => q.wave == o.wave && decide (q.id < o.id) && !q.dead &&
    (q.touches (q.refused ++ q.absent ++ if q.phase == .sent then [] else q.out) (o.inSector sec) sec
      || s.reps.any fun r => (r.op == q.id || r.joined.contains q.id) && r.pa / 32 == sec && match r.kind with
        | .refused _ _ _ => true
        | _ => false)

/-- Whether an earlier load of the wave has not been answered for a sector, so that the L1 does not serve a later one before it (R329). -/
def State.behindLoad (s : State) (o : Op) (sec : Nat) : Bool :=
  s.ops.any fun q => q.wave == o.wave && decide (q.id < o.id) && !q.dead && isLoad q.instr && !(q.inSector sec).isEmpty

/-- Global atomics, whose parked lanes survive a deschedule (R293). -/
def globalAtomic : Instr → Bool
  | .atomI _ => true
  | .atomF _ => true
  | .atomCas _ => true
  | .atomX2 _ => true
  | .red _ => true
  | _ => false

/-- Whether the loads of an operation use ordinary lines (R235, R245). -/
def Op.ordinary (o : Op) : Bool := isLoad o.instr && o.mtype == 0 && o.pol != .cb

/-- The request that an operation sends for a sector. -/
def Op.request (o : Op) (sec : Nat) : ReqKind :=
  match o.instr with
  | .ld _ => .read o.ordinary
  | .ldsc _ => .read o.ordinary
  | .st _ => .write (o.inSector sec)
  | .red _ => .red (o.inSector sec)
  | .atomI _ => .atom (o.inSector sec) false
  | .atomF _ => .atom (o.inSector sec) false
  | .atomCas _ => .atom (o.inSector sec) false
  | .atomX2 _ => .atom (o.inSector sec) false
  | _ => .line

/-- The routing entry, or the host path register, that a request to an address reads when it is sent (R416). -/
def State.routeNow (s : State) (pa : Nat) : DWord := match memKind pa with
  | .host => s.hostPath.setWidth 64
  | .peer n => s.route n
  | _ => 0

/-- The chart entry of a line that is parked in the core's own L1 (R223). -/
def State.ownPark (s : State) (core pa : Nat) : Option ChartE := (s.chartOf pa).filter fun e => e.berth == 0 && e.core == core

/-- The L1 line that serves a load without a request: an ordinary line for ordinary loads, a sealed replica for any (R223). -/
def State.l1Hit (s : State) (o : Op) (sec : Nat) : Option Line :=
  match findLine s.l1 o.core (32 * sec) with
  | some l => if l.hasSector (32 * sec) && ((l.kind == .ordinary && o.ordinary) || (l.kind == .sealed && isLoad o.instr)) then some l else none
  | none => none

/-- What a core's L1 answers a load's sector without a request: a hit, or in its own park way the bytes or a refusal (R223, R268, R269). -/
def State.l1Serves (s : State) (o : Op) (sec : Nat) : Option RepKind :=
  let pa := 32 * sec
  match s.l1Hit o sec with
  | some l => some (.data ((List.range 32).map fun k => l.byte (pa + k)) (l.poison.getLsbD (pa % 128 / 32)) false)
  | none =>
    if !isLoad o.instr then none
    else (s.ownPark o.core pa).map fun e => match s.refuses (o.asker s) pa with
      | some d => .refused 37 d.1 d.2
      | none => let b := s.readerBytes e o.core pa; .data b.1 b.2 false

def RepKind.poisoned : RepKind → Bool
  | .data _ b _ => b
  | _ => false

/-- What the L1's answer counts as hits: a refused read of its own park way is none (R403). -/
def RepKind.hits : RepKind → Nat
  | .data _ _ _ => 1
  | _ => 0

/-- A sector of an operation is sent, served by the L1, joined to a fill in flight, or held (R247, R309, R313, R329); only the L1's own lines count as
hits (R403). -/
def State.sendSector (s : State) (id sec : Nat) : State :=
  match s.op? id with
  | none => s
  | some o =>
    let pa := 32 * sec
    let sent (s : State) : State := s.modOp id fun o => { o with nout := o.nout + 1, held := o.held.filter (· ≠ sec) }
    if (isLoad o.instr && s.unacked o.core sec) || s.heldBefore o.core sec id || s.behindRefused o sec
        || ((s.l1Serves o sec).isSome && s.behindLoad o sec) then
      s.modOp id fun o => if o.held.contains sec then o else { o with held := o.held ++ [sec] }
    else
      match s.l1Serves o sec with
      | some k =>
        let (r, s) := (s.useCheck (o.asker s) pa).fresh
        let rep : Rep := { id := r, op := id, port := o.core / 8, core := o.core, slice := 1000 + o.core, pa := pa, kind := k }
        sent ((if k.poisoned then s.logPoison pa else s : State).count (cKey o.core 0) k.hits |> fun t => { t with reps := t.reps ++ [rep] })
      | none =>
        let joins (c p : Nat) (fills mk : Bool) : Bool := o.ordinary && c == o.core && p / 32 == sec && fills && !mk
        if s.reqs.any fun r => joins r.core r.pa r.kind.fills r.mark then
          sent { s with reqs := s.reqs.map fun (r : Req) => if joins r.core r.pa r.kind.fills r.mark then { r with joined := r.joined ++ [id] } else r }
        else if s.reps.any fun r => joins r.core r.pa r.kind.fills r.mark then
          sent { s with reps := s.reps.map fun (r : Rep) => if joins r.core r.pa r.kind.fills r.mark then { r with joined := r.joined ++ [id] } else r }
        else
          let (r, s) := s.fresh
          let s := if isLoad o.instr then s.count (cKey o.core 1) 1 else s
          let req : Req := { id := r, op := id, port := o.core / 8, core := o.core, slice := s.home pa, pa := pa, kind := o.request sec
                             rt := s.routeNow pa }
          sent { s with reqs := s.reqs ++ [req] }

/-- Held sectors are sent again, oldest operation first. -/
def State.sendHeld (s : State) : State :=
  s.ops.foldl (fun s o => o.held.foldl (fun s sec => s.sendSector o.id sec) s) s

/-! ### Translation -/

/-- The outstanding or new ATS request for a page of a die (R413). -/
def State.askAts (s : State) (die pasid page : Nat) : Nat × State :=
  match s.ats.find? fun a => a.die == die && a.pasid == pasid && a.page == page with
  | some a => (a.id, s)
  | none =>
    let (id, s) := s.fresh
    (id, { s with ats := s.ats ++ [{ id := id, die := die, pasid := pasid, page := page }], outbox := s.outbox ++ [.atsReq pasid page] })

/-- Whether one more Page Request may be outstanding: within the host's allocation and the device's capacity (R411, R413). -/
def State.pageRoom (s : State) : Bool := decide ((s.pages.filter PageReq.sent).length < min s.priAlloc Config.pageRequests)

/-- A Page Request, shared by every wave that waits for the page (R413); without room it waits inside the device. -/
def State.askPage (s : State) (pasid page : Nat) : State :=
  if s.pages.any fun p => p.pasid == pasid && p.page == page then s
  else if s.pageRoom then { s with pages := s.pages ++ [{ pasid := pasid, page := page }], outbox := s.outbox ++ [.pageReq pasid page] }
  else { s with pages := s.pages ++ [{ pasid := pasid, page := page, sent := false }] }

/-- The first Page Request that waits inside the device is sent where there is room. -/
def State.sendPage (s : State) : State :=
  if !s.pageRoom || !s.priOn then s
  else match s.pages.find? fun p => !p.sent with
    | none => s
    | some q => { s with pages := s.pages.map fun p => if p = q then { p with sent := true } else p, outbox := s.outbox ++ [.pageReq q.pasid q.page] }

def LaneAcc.page (l : LaneAcc) : Nat := low57 l.va / 4096

/-- The code of a Response Failure in PRI (log entry 9). -/
def priFailure : Nat := 15

/-- Lanes without a page: Page Requests go out, or while PRI is off they are refused (R413). -/
def State.askPages (s : State) (id : Nat) : State :=
  match s.op? id with
  | none => s
  | some o =>
    if o.absent.isEmpty then s
    else if s.priOn then (o.absent.map LaneAcc.page).dedup.foldl (fun s p => s.askPage o.pasid p) s
    else s.modOp id fun o => { o with refused := o.refused ++ o.absent, absent := [], rcause := 35, rdet0 := BitVec.ofNat 64 priFailure, rdet1 := 0 }

/-- The fragment of an operation, where the operation still concerns it. -/
def State.opFrag (s : State) (o : Op) (g : Frag → Frag) : State := if o.dead then s else s.modFrag ⟨o.wave, o.entry⟩ g

/-- A fragment that another operation has held goes on, or is replay-parked again on one of its own that still lacks a page (R248). -/
def State.goOnOrPark (s : State) (r : FragRef) (id : Nat) : State :=
  match s.ops.find? fun q => q.id != id && q.wave == r.wave && q.entry == r.entry && !q.dead && !q.absent.isEmpty with
  | some q => s.modFrag r fun f => { f with st := .parked q.id, wait := .none }
  | none => s.modFrag r Frag.goOn

/-- A waiting operation is over for its fragment: it goes on, with a region entry (R33, R256, R285, R293). -/
def State.opOver (s : State) (o : Op) : State :=
  if o.dead then s
  else
    let r : FragRef := ⟨o.wave, o.entry⟩
    let f := s.frag r
    if f.wait = .op o.id ∨ (f.wait = .xlate o.id ∧ o.wait) then (s.modFrag r Frag.goOn).regionEntry r
    else if f.wait = .xlate o.id then s.modFrag r Frag.goOn
    else if f.st = .parked o.id ∧ f.wait = .none then s.goOnOrPark r o.id
    else if f.st = .parked o.id then s.modFrag r fun f => { f with st := .waiting }
    else s

/-- Whether a waiting store goes on once it has been sent. -/
def Op.early (o : Op) : Bool := match o.instr with
  | .st _ => o.wait && o.bear == 0
  | _ => false

/-- Poisoned or full destinations (R94, R240). -/
def State.fillDst (s : State) (o : Op) : State :=
  let (vs, ss) := memDst o.instr
  let st : RegState := if o.poison then .poison else .full
  s.modWave o.wave fun w =>
    let w := vs.foldl (fun w n => w.setV n { w.vreg n with st := st }) w
    ss.foldl (fun w n => w.setS o.hm n { w.sreg o.hm n with st := st }) w

/-- Reads of dropped lanes return 0 once the access sets out (R235, R246). -/
def State.zeroDst (s : State) (o : Op) : State :=
  if o.oob = 0 then s
  else
    let (vs, ss) := memDst o.instr
    (s.modWave o.wave fun w =>
      let w := vs.foldl (fun w n => w.replyV n o.oob []) w
      ss.foldl (fun w n => w.replyS o.hm n 0) w).modOp o.id fun o => { o with oob := 0 }

/-- Translating the lanes of an operation and sending those that have a page (R247): all lines are resolved first, then the address-map
and atomic path faults, then the requests. -/
def State.proceed (s : State) (id : Nat) : State :=
  match s.op? id with
  | none => s
  | some o =>
    let die := o.core / 40
    let miss := ((o.out.filter fun l => missing (s.atcOf die o.pasid (low57 l.va)) o.instr).map LaneAcc.page).dedup
    if !miss.isEmpty then
      let (ws, s) := miss.foldl (fun (a : List Nat × State) p => let (i, s) := a.2.askAts die o.pasid p; (a.1 ++ [i], s)) ([], s)
      (s.modOp id fun o => { o with phase := .xlate, xw := ws }).opFrag o fun f =>
        if f.st = .parked id ∨ f.wait = .op id then f else { f with st := .waiting, wait := .xlate id, since := s.clock }
    else
      let ent (l : LaneAcc) : Option AtcE := s.atcOf die o.pasid (low57 l.va)
      let good := (o.out.filter fun l => match ent l with
        | some e => e.allows o.instr
        | none => false).map fun l => { l with pa := ((ent l).map fun e => e.addr (low57 l.va)).getD 0 }
      let bad := o.out.filter fun l => match ent l with
        | some e => !e.allows o.instr
        | none => true
      let absent := if skipsAbsent o.instr then [] else o.absent ++ bad
      let fault (s : State) (cause : Nat) (ls : List LaneAcc) (d0 d1 : DWord) : State :=
        let t := o.trap cause (o.trec.getD 4 0) (lowVa ls) d0 d1 false
        let s := ((s.fillDst { o with poison := true }).dropOp id).opFrag o Frag.goOn
        if o.dead then s else s.raiseSoon ⟨o.wave, o.entry⟩ t
      let unmapped := good.filter fun l => s.kindOf l.pa == .reserved
      let blocked := good.filter fun l => remote l.pa && !s.carries o.instr l.pa
      if !unmapped.isEmpty then fault s 34 unmapped 0 0
      else if !blocked.isEmpty then
        let pa := ((lowest blocked).map LaneAcc.pa).getD 0
        let w := opcodeMods (o.trec.getD 0 0) (o.trec.getD 6 0)
        let link := if memKind pa = .host then 0 else 2 ^ 18
        fault (s.ctxCount o.pasid 7 1) 40 blocked (BitVec.ofNat 64 (w.1 + w.2 * 2 ^ 10 + link))
          (BitVec.ofNat 64 (if memKind pa = .host then pa % 2 ^ 51 else pa % 2 ^ 40))
      else
        let s := (s.zeroDst o).modOp id fun o => { o with phase := .sent, xw := [], out := good, absent := absent }
        let s := s.askPages id
        let s := (good.flatMap fun l => l.sectors o.size).dedup.foldl (fun s sec => s.sendSector id sec) s
        let held := !absent.isEmpty
        if o.dead then s
        else if held then s.opFrag o fun f =>
          if f.st = .parked id then f else { f with st := .parked id, wait := if o.wait then .op id else .none }
        else if (s.frag ⟨o.wave, o.entry⟩).st = .parked id then s
        else if o.early then s.opOver o
        else if o.wait then s.opFrag o fun f => { f with st := .waiting, wait := .op id }
        else s.opOver o

/-! ### Completion -/

/-- The scalars that `LDSC` loads, in ascending address order (R246). -/
def State.fillScalars (s : State) (o : Op) : State :=
  match o.instr with
  | .ldsc x => match o.out with
    | l :: _ => s.modWave o.wave fun w => (List.range (2 ^ x.m.toNat)).foldl (fun w k =>
        w.replyS o.hm (x.d.toNat + k) (l.data.extractLsb' (64 * k) 64)) w
    | [] => s
  | _ => s

/-- The late-sealed-store cause reaches its fragment, or the event log where the fragment has ended (R237). -/
def State.lateSealed (s : State) (o : Op) : State :=
  if o.late.isEmpty then s
  else if o.dead || !((s.wave o.wave).frags.any fun f => f.entry == o.entry) then
    s.logOpen 8 (some (o.core / 40)) none
  else
    s.opFrag o fun f => { f with late := f.late ++ [o.trap 51 (maskOfLanes o.late) (leastVa o.late) 0 0 false] }

/-- An operation is complete: its destinations are full, its acquire is made, its fragment goes on. -/
def State.opDoneMem (s : State) (o : Op) : State :=
  let s := if o.dead then s else s.fillScalars o
  let s := (s.fillDst o).lateSealed o
  let s := if o.aq && !o.dead then s.acquire o.pasid o.core o.sc else s
  (s.dropOp o.id).opOver o

/-- Whether an operation's refused lanes hold back a later operation, which stays so until they are replayed or given up (R309). -/
def State.holdsBack (s : State) (o : Op) (id : Nat) : Bool := match s.op? id with
  | none => false
  | some p => p.held.any fun sec => o.touches o.refused (p.inSector sec) sec

/-- Whether an operation has only to raise the cause of its refused lanes. -/
def State.refusedOnly (s : State) (id : Nat) : Bool := match s.op? id with
  | none => false
  | some p => !p.refused.isEmpty && p.nout == 0 && p.held.isEmpty && p.xw.isEmpty

/-- Whether a fragment may raise the cause of an operation now: not while it is trap-pending, is held on or waits for another operation, unless this
one holds that back or that has only a cause to raise; and the causes of its operations are raised in program order (R270, R309, R329). -/
def State.mayRaise (s : State) (o : Op) : Bool :=
  let f := (s.wave o.wave).frag o.entry
  (match f.st, f.wait with
    | .pending _, _ => false
    | .parked i, _ => i == o.id || s.holdsBack o i || s.refusedOnly i
    | .waiting, .op i => i == o.id || s.holdsBack o i || s.refusedOnly i
    | .waiting, .xlate i => i == o.id
    | _, _ => true)
  && !s.ops.any fun q => q.wave == o.wave && q.entry == o.entry && decide (q.id < o.id) && !q.dead &&
    (decide (0 < q.nout) || !q.refused.isEmpty || !q.absent.isEmpty)

/-- The fragment that an operation concerns: the one that holds its lowest lane now, which a split may have taken from the one that issued it; of one
that fills scalars, another that holds a lane which took part, once the issuing one has none (R40). -/
def State.ownerOf (s : State) (o : Op) : Nat :=
  let holder (m : Mask) : Nat := (((s.wave o.wave).frags.find? fun f => f.lanes &&& m != 0).map Frag.entry).getD o.entry
  if !perLane o.instr then (if o.part = 0 || (s.frag ⟨o.wave, o.entry⟩).lanes &&& o.part != 0 then o.entry else holder o.part)
  else match lowest o.lanes with
    | some l => holder (1#64 <<< l.lane)
    | none => o.entry

/-- An operation whose every line has been answered completes, or raises the cause of its refused lanes (R270, R276, R413); the held
lanes are those refused and those without a page. A bearing change refused at the descriptor holds nothing (R284). -/
def State.opCheck (s : State) (id : Nat) : State :=
  match s.op? id with
  | none => s
  | some o' =>
    let o := { o' with entry := s.ownerOf o' }
    let s := if o = o' then s else s.modOp id fun _ => o
    if o.phase ≠ .sent ∨ 0 < o.nout ∨ !o.xw.isEmpty ∨ !o.held.isEmpty then s
    else if o.dead then (if o.absent.isEmpty then s.opDoneMem o else s)
    else if !o.refused.isEmpty then
      if s.mayRaise o then
        let held := o.refused ++ o.absent
        let va := lowVa o.refused
        if o.rcause = 39 then ((s.dropOp id).opFrag o Frag.goOn).raiseSoon ⟨o.wave, o.entry⟩ (o.trap 39 (o.trec.getD 4 0) 0 0 0 false)
        else
        let s := s.ctxCount o.pasid (if o.rcause = 37 then 0 else 1) (if o.rcause = 35 then 0 else 1)
        let s := s.modOp id fun o => { o with phase := .parked, absent := held, refused := [] }
        (s.opFrag o fun f => { f with st := .parked id }).raiseSoon ⟨o.wave, o.entry⟩ (o.trap o.rcause (maskOfLanes held) va o.rdet0 o.rdet1 true)
      else s
    else if !o.absent.isEmpty then s
    else s.opDoneMem o

/-- Held lanes are translated again and sent, in ascending lane order (R292): after a page response, or a replay (R248, R271). -/
def State.replay (s : State) (id : Nat) : State :=
  (s.modOp id fun o => { o with phase := .xlate, out := (o.out ++ o.absent).insertionSort fun a b => a.lane ≤ b.lane, absent := [] }).proceed id

/-- Starting an operation whose lanes are captured: its release first, then its translation. -/
def State.startOp (s : State) (o : Op) (rel : Bool) : State :=
  if rel then
    { s with ops := s.ops ++ [{ o with phase := .release }] }.modFrag ⟨o.wave, o.entry⟩ fun f => { f with st := .waiting, wait := .rel o.sc o.id (.send o.id), since := s.clock }
  else { s with ops := s.ops ++ [o] }.proceed o.id

end Sys2Proof.Machine
end

