-- ==== Sys2Proof/Machine/Lane.lean ====
section
/-! DEFINITION. Predicate instructions (R152, R153), lane operations (R154 to R156), the exchange (R157 to R159), and full, empty and
operand-cache control (R160 to R162). -/

namespace Sys2Proof.Machine

/-! ### Predicates -/

/-- `PLOP` (R152). -/
def execPlop (x : Plop) (s : State) : Host.Outcome State Fault Refusal :=
  issue { ps := [x.pd.toNat, x.pa.toNat, x.pb.toNat] } x.h (fun i _ => .go fun t =>
    t.putP i x.pd fun l =>
      x.tt.getLsbD (2 * ((i.w.pred i.hm x.pa.toNat).getLsbD l).toNat + ((i.w.pred i.hm x.pb.toNat).getLsbD l).toNat)) s

/-- What a `PMOV` uses. -/
def pmovUses (op : PMovOp) : Uses :=
  match op with
  | .pp pd pa => { ps := [pd.toNat, pa.toNat] }
  | .vp d pa => { laneUses .vec false d [] with ps := [pa.toNat] }
  | .pv pd a => { srcs := [su false a], ps := [pd.toNat] }
  | .sp sd pa => { ds := [sd.toNat], ps := [pa.toNat] }
  | .ps pd a => { srcs := [su false a], ps := [pd.toNat] }

/-- The effect of `PMOV` (R153). -/
def pmovWrite (op : PMovOp) (i : Iss) (t : State) : State :=
  match op with
  | .pp pd pa => t.putP i pd fun l => (i.w.pred i.hm pa.toNat).getLsbD l
  | .vp d pa => t.putDst i d fun l => if (i.w.pred i.hm pa.toNat).getLsbD l then 1 else 0
  | .pv pd a => t.putP i pd fun l => decide (i.v32 a l ≠ 0)
  | .sp sd pa => if i.part = 0 then t else
      t.modWave i.w.id fun w => w.writeS i.hm sd.toNat (i.w.pred i.hm pa.toNat &&& i.part)
  | .ps pd a => t.putP i pd fun l => (i.s64 a).getLsbD l

/-- `PMOV` (R153). -/
def execPmov (x : PMov) (s : State) : Host.Outcome State Fault Refusal :=
  issue (pmovUses x.op) x.h (fun i _ => .go (pmovWrite x.op i)) s

/-! ### Lanes -/

/-- Lanes of the wave: 64, or 32 in a half-wave. -/
def Iss.n (i : Iss) : Nat := if i.w.w32 then 32 else 64

/-- The lane that `SHFL` reads (R155). -/
def shflLane (m : ShflMode) (n i : Nat) (b : Word) : Option Nat :=
  let j : Int := match m with
    | .idx => (b.toNat % n : Nat)
    | .up => (i : Int) - b.toNat
    | .down => (i : Int) + b.toNat
    | .xor => (Nat.xor i b.toNat : Nat)
  if 0 ≤ j ∧ j < n then some j.toNat else none

/-- `SHFL` (R155). -/
def execShfl (x : Shfl) (s : State) : Host.Outcome State Fault Refusal :=
  issue (laneUses .move false x.d [su false x.a, su false x.b]) x.h (fun i _ => .go fun t =>
    t.putDst i x.d fun l => match shflLane x.mode i.n l (i.v32 x.b l) with
      | some j => if i.part.getLsbD j then i.v32 x.a j else i.v32 x.a l
      | none => i.v32 x.a l) s

/-- `BCAST` (R155). -/
def execBcast (x : D2) (s : State) : Host.Outcome State Fault Refusal :=
  issue (laneUses .move false x.d [su false x.a, su false x.b]) x.h (fun i _ => .go fun t =>
    let j := (i.v32 x.b 0).toNat % i.n
    let j := if i.part.getLsbD j then j else (lanesOf i.part).headD 0
    t.putDst i x.d fun _ => i.v32 x.a j) s

/-- The combine of an operation (R109, R156): the lower lane's operand first. -/
def waveCombine (op : WaveOp) (k : FMode) (a b : Word) : Word :=
  match op with
  | .addS32 => a + b
  | .addF32 => BitVec.ofNat 32 (roundF k fp32 k.rnd (addNum k.rnd (toReal fp32 a.toNat) (toReal fp32 b.toNat)))
  | .minS32 => if b.slt a then b else a
  | .minZ32 => if b.ult a then b else a
  | .minF32 => BitVec.ofNat 32 (minMax k fp32 false a.toNat b.toNat)
  | .maxS32 => if a.slt b then b else a
  | .maxZ32 => if a.ult b then b else a
  | .maxF32 => BitVec.ofNat 32 (minMax k fp32 true a.toNat b.toNat)
  | .and => a &&& b
  | .or => a ||| b
  | .xor => a ^^^ b

/-- The identity (R156). -/
def waveIdentity (op : WaveOp) : Word :=
  match op with
  | .minS32 => 0x7FFFFFFF
  | .minZ32 => 0xFFFFFFFF
  | .minF32 => 0x7F800000
  | .maxS32 => 0x80000000
  | .maxF32 => 0xFF800000
  | .and => 0xFFFFFFFF
  | _ => 0

def waveFloat (op : WaveOp) : Bool := op == .addF32 || op == .minF32 || op == .maxF32

/-- `Combine` where a node may be empty (R117). -/
def combineOpt (f : Word → Word → Word) : Option Word → Option Word → Option Word
  | none, b => b
  | some a, none => some a
  | some a, some b => some (f a b)

/-- One level of the tree (R117). -/
def treeLevel (f : Word → Word → Word) : List (Option Word) → List (Option Word)
  | a :: b :: r => combineOpt f a b :: treeLevel f r
  | r => r

/-- The levels of the tree over 64 leaves, the leaves first; with 32 lanes the upper half is empty. -/
def treeLevels (f : Word → Word → Word) (x : List (Option Word)) : List (List (Option Word)) :=
  (List.range 6).foldl (fun ls _ => ls ++ [treeLevel f (ls.getLastD [])]) [x]

/-- The result of `REDW` (R117). -/
def treeRoot (f : Word → Word → Word) (x : List (Option Word)) : Option Word :=
  ((treeLevels f x).getLastD []).headD none

/-- The scan of the first `m` lanes (R117). -/
def treeScan (f : Word → Word → Word) (ls : List (List (Option Word))) (m : Nat) : Option Word :=
  ((List.range 7).reverse.foldl (fun (a : Option Word × Nat) l =>
    if m.testBit l then (combineOpt f a.1 ((ls.getD l []).getD (a.2 / 2 ^ l) none), a.2 + 2 ^ l) else a) (none, 0)).1

/-- The leaves: lanes that take part, floats after the input flush (R156). -/
def waveLeaves (op : WaveOp) (i : Iss) (a : Src) : List (Option Word) :=
  (List.range 64).map fun l =>
    if i.part.getLsbD l then
      some (if waveFloat op then BitVec.ofNat 32 (inBits i.k fp32 (i.v32 a l).toNat) else i.v32 a l)
    else none

/-- `REDW` (R156): a scalar takes the result sign-extended for `.s32`. -/
def execRedw (x : WRed) (s : State) : Host.Outcome State Fault Refusal :=
  issue (laneUses .tree false x.d [su false x.a]) x.h (fun i _ => .go fun t =>
    let r := (treeRoot (waveCombine x.op i.k) (waveLeaves x.op i x.a)).getD (waveIdentity x.op)
    match x.d with
    | .s n => if i.part = 0 then t else t.modWave i.w.id fun w => w.writeS i.hm n.toNat
        (if x.op = .addS32 ∨ x.op = .minS32 ∨ x.op = .maxS32 then r.signExtend 64 else r.setWidth 64)
    | d => t.putDst i d fun _ => r) s

/-- `SCANW` (R156). -/
def execScanw (x : WRed) (s : State) : Host.Outcome State Fault Refusal :=
  issue (laneUses .tree false x.d [su false x.a]) x.h (fun i _ => .go fun t =>
    let f := waveCombine x.op i.k
    let ls := treeLevels f (waveLeaves x.op i x.a)
    t.putDst i x.d fun l => (treeScan f ls (if x.excl then l else l + 1)).getD (waveIdentity x.op)) s

/-! ### Exchange -/

/-- The mailbox of a key, as 48 times its die plus its slice (R157). -/
def boxOf (key : DWord) : Nat :=
  let h := (leBytes 8 key.toNat).foldl (fun x b => x ^^^ b) 0
  h.toNat % 4 * 48 + h.toNat / 4 % 48

/-- What an `XCHG` uses. -/
def xchgUses (x : Xchg) : Uses := { srcs := [su false x.a, su false x.b], dv := [x.d.toNat], ps := [x.g.toNat], vl := true, owes := true }

/-- `XCHG` (R157): an arrival sets out; the destination is empty and the predicate not ready until it completes (R158). A mirror is
written with the destination, at the completion (log entry 44). Where the exchange makes a region entry its fragment waits for the completion (R33). -/
def execXchg (x : Xchg) (s : State) : Host.Outcome State Fault Refusal :=
  issue (xchgUses x) x.h (fun i s => .go fun t =>
    if i.part = 0 then t
    else
      let (id, t) := t.fresh
      let key := i.s64 x.b
      let a : Xch := { id := id, wave := i.w.id, pasid := (s.team i.w.team).pasid, key := key, vals := mkLanes (i.v32 x.a)
                       mask := i.part, d := x.d.toNat, g := x.g.toNat, box := boxOf key, entry := s.cur.entry, hm := i.hm, mir := x.m }
      let t := { t with mail := t.mail ++ [a] }.modWave i.w.id fun w =>
        if x.g = 15 then w else { w with pBusy := predKey i.hm x.g.toNat :: w.pBusy }
      t.awaitIf (i.owesEntry (xchgUses x)) s.curRef (.op id)) s

/-- A variable-latency result of lanes reaches a register, which is then full and whose clean slots lose their lanes (R89); lanes of a fragment that
has ended are discarded. -/
def Wave.deliverV (w : Wave) (n : Nat) (m : Mask) (x : Lanes) : Wave :=
  let w := w.replyV n m x
  w.setV n { w.vreg n with st := .full }

/-- One side of an exchange completes (R158): lanes in both masks take the other side's value, the others their own; nothing is written in
lanes that have ended (R40). -/
def Wave.xchgDone (w : Wave) (x : Xch) (both : Mask) (other : Lanes) : Wave :=
  let m := x.mask &&& ~~~x.gone
  let v := mkLanes fun l => if both.getLsbD l then laneAt other l else laneAt x.vals l
  let w := w.deliverV x.d m v
  let w := if x.mir = .none then w else w.mirrorV x.hm x.d x.mir m v
  { w.setP x.hm x.g m both with pBusy := w.pBusy.erase (predKey x.hm x.g) }

/-- One side leaves the mailbox; a fragment that waits for it goes on with its region entry (R33). -/
def State.xchgDone (s : State) (x : Xch) (both : Mask) (other : Lanes) : State :=
  { s.modWave x.wave fun w => w.xchgDone x both other with mail := s.mail.filter fun y => y.id ≠ x.id }.waitEnds x.wave (.op x.id)

/-- Whether an arrival has stood unmatched for 262,144 clocks since it reached its slice (R158). -/
def State.overdue (s : State) (x : Xch) : Bool := match x.at? with
  | some c => decide (c + Config.xchgTimeout ≤ s.clock)
  | none => false

/-- The deposit that an arrival finds; one that is due to be withdrawn matches nothing more. -/
def State.deposit (s : State) (x : Xch) : Option Xch :=
  s.mail.find? fun y => y.deposited && y.pasid == x.pasid && y.key == x.key && y.id != x.id && !s.overdue y

/-- An arrival at its mailbox: it matches a deposit of its key, deposits itself in a free entry, or waits (R157). One that finds its deposit matches at
once, though an earlier arrival still waits there for a free entry (log entry 61). -/
def execXchgArrival (id : Nat) (s : State) : Host.Outcome State Fault Refusal :=
  match s.mail.find? fun x => x.id == id && !x.deposited && !s.overdue x with
  | none => .next { s with stalled := true }
  | some x =>
    let at? := x.at?.getD s.clock
    let set (f : Xch → Xch) : State := { s with mail := s.mail.map fun y => if y.id = id then f y else y }
    match s.deposit x with
    | some y =>
      let both := x.mask &&& y.mask
      .next ((s.xchgDone x both y.vals).xchgDone y both x.vals)
    | none =>
      let full := decide (Config.mailEntries ≤ (s.mail.filter fun y => y.deposited && y.box == x.box).length)
      let ahead := s.mail.any fun y => y.box == x.box && !y.deposited && y.id != id && (match y.at?, x.at? with
        | some a, some b => decide (a < b) || (a == b && decide (y.id < id))
        | some _, none => true
        | _, _ => false)
      if !full && !ahead then .next (set fun x => { x with deposited := true, at? := some at? })
      else if x.at?.isNone then .next (set fun x => { x with at? := some at? })
      else .next { s with stalled := true }

/-- An arrival unmatched for 262,144 clocks is withdrawn and completes with its own values (R158). -/
def execXchgWithdrawal (id : Nat) (s : State) : Host.Outcome State Fault Refusal :=
  match s.mail.find? fun x => x.id == id with
  | none => .next { s with stalled := true }
  | some x => if s.overdue x then .next (s.xchgDone x 0 []) else .next { s with stalled := true }

/-! ### Full, empty, and the operand cache -/

def regDv (d : RegName) (pair : Bool) : List Nat :=
  match d with
  | .v n => if pair then [n.toNat, n.toNat + 1] else [n.toNat]
  | .s _ => []
def regDs (d : RegName) (pair : Bool) : List Nat :=
  match d with
  | .s n => if pair then [n.toNat, n.toNat + 1] else [n.toNat]
  | .v _ => []

/-- `FEMARK` (R160). -/
def execFemark (x : Femark) (s : State) : Host.Outcome State Fault Refusal :=
  issue { ctl with dv := regDv x.d x.pair, ds := regDs x.d x.pair } x.h (fun i _ => .go fun t => t.modWave i.w.id fun w =>
    let w := (regDv x.d x.pair).foldl (fun w n => w.setV n { w.vreg n with st := x.st }) w
    (regDs x.d x.pair).foldl (fun w n => w.setS i.hm n { w.sreg i.hm n with st := x.st }) w) s

/-- Whether the register a source names is in a state. -/
def Iss.inState (i : Iss) (a : Src) (st : RegState) : Bool :=
  match a with
  | .v n _ _ => (i.w.vreg n.toNat).st == st
  | .s n _ _ => (i.w.sreg i.hm n.toNat).st == st
  | _ => false

/-- A dead mark of a source that is named but not read. -/
def Wave.markOnly (w : Wave) (i : Iss) (a : Src) : Wave :=
  if i.part = 0 then w else
  match a with
  | .v n true _ => w.killV n.toNat i.part
  | .s n true _ => w.killS i.hm n.toNat
  | _ => w

/-- `FETEST` (R161): A's state is tested, its value is not read. -/
def execFetest (x : Fetest) (s : State) : Host.Outcome State Fault Refusal :=
  issue { ps := [x.pd.toNat] } x.h (fun i _ => .go fun t =>
    (t.putP i x.pd fun _ => i.inState x.a x.st).modWave i.w.id fun w => w.markOnly i x.a) s

/-- `OCLD` (R162). -/
def execOcld (x : Ocld) (s : State) : Host.Outcome State Fault Refusal :=
  issue { srcs := [su false x.a] } x.h (fun i _ => .go fun t =>
    match x.a with
    | .v n _ _ => if i.part = 0 then t else
        t.modWave i.w.id fun w => w.writeSlot x.k.toNat (.clean n.toNat) i.part (mkLanes (i.v32 x.a))
    | _ => t) s

end Sys2Proof.Machine
end

