-- ==== Sys2Proof/Machine/Matrix.lean ====
section
/-! DEFINITION. Tiles, accumulators and the matrix quad (R163 to R187), with the step arithmetic of R116. -/

namespace Sys2Proof.Machine

/-! ### Snapshots (R114, R115) -/

structure Snap where
  a  : Nat
  b  : Nat
  ac : Nat
  sa : Bool
  sb : Bool
  pa : Nat
  pb : Nat
  deriving DecidableEq, Repr

/-- The fields of `$fmt` that a quad operation records (R175). -/
def snapOf (f : DWord) : Snap :=
  { a := f.toNat % 16, b := f.toNat / 16 % 16, ac := f.toNat / 256 % 4, sa := f.getLsbD 12, sb := f.getLsbD 13
    pa := f.toNat / 2 ^ 16 % 16, pb := f.toNat / 2 ^ 20 % 16 }

/-- The combinations of R115. -/
def Snap.ok (x : Snap) : Bool :=
  let plain := !x.sa && !x.sb
  if x.a = 0 ∨ x.a = 1 then x.b == x.a && x.ac == 0 && plain
  else if x.a = 2 ∨ x.a = 3 then (x.b == 2 || x.b == 3) && x.ac == 0
  else if x.a = 4 then x.b == 4 && x.ac == 0
  else if x.a = 5 then x.b == 5 && x.ac == 1 && plain
  else if x.a = 6 then
    x.b == 6 && x.ac == 1 && plain && decide (2 ≤ x.pa ∧ x.pa ≤ 8 ∧ 2 ≤ x.pb ∧ x.pb ≤ 8)
  else false

def Snap.planes (x : Snap) : Bool := x.a == 6
/-- The K-group G (R115). -/
def Snap.group (x : Snap) : Nat := if x.a ≤ 1 then 16 else if x.a = 4 ∨ x.a = 6 then 64 else 32

/-! ### Operands of a step (R163, R169, R170) -/

/-- Element κ of a line's half as an exact value: 0 FP16, 1 BF16, 2 E4M3, 3 E5M2, 4 E2M1. -/
def lineNum (fmt half : Nat) (byte : Nat → Nat) (κ : Nat) : Num :=
  if fmt ≤ 1 then toReal (if fmt = 0 then fp16 else bf16) (byte (32 * half + 2 * κ) + 256 * byte (32 * half + 2 * κ + 1))
  else if fmt = 4 then toReal e2m1 (byte (32 * half + κ / 2) / 16 ^ (κ % 2) % 16)
  else toReal (if fmt = 2 then e4m3 else e5m2) (byte (32 * half + κ))

/-- Element κ of an integer line: INT8, or the first `k` planes of its group (R105). -/
def lineInt (planes half k : Nat) (byte : Nat → Nat) (κ : Nat) : Int :=
  if planes = 0 then (BitVec.ofNat 8 (byte (32 * half + κ))).toInt
  else
    let bit (j : Nat) : Int := (byte (32 * (κ / 32) + 4 * j + κ % 32 / 8) / 2 ^ (κ % 8) % 2 : Nat)
    (List.range k).foldl (fun (v : Int) j => if j = 0 then -(2 ^ (k - 1)) * bit 0 else v + 2 ^ (k - 1 - j) * bit j) 0

/-- An E8M0 scale (R103). -/
def scaleNum (e : Nat) : Num := if e = 255 then .nan else .fin false 1 ((e : Int) - 127)

/-- The scale of line `l` for element κ: bytes 4l and 4l + 1 from `off` on (R170). -/
def scaleAt (use : Bool) (img : Nat → Nat) (off l κ : Nat) : Num := if use then scaleNum (img (off + 4 * l + κ / 32)) else .fin false 1 0

/-- One accumulator element after a float group (R116). -/
def macFloat (c : Nat) (a b : List Num) : Nat :=
  roundNum fp32 0 ((a.zip b).foldl (fun y (p : Num × Num) => addNum 0 y (mulNum p.1 p.2)) (toReal fp32 c))

/-- One accumulator element after an integer group. -/
def macInt (c : Nat) (a b : List Int) : Nat :=
  (((c : Int) + (a.zip b).foldl (fun (y : Int) (p : Int × Int) => y + p.1 * p.2) 0) % 2 ^ 32).toNat

/-- One member's operand: bytes of its lines for A and B, their halves, and its scale image. -/
structure StepIn where
  a    : Nat → Nat → Nat
  b    : Nat → Nat → Nat
  half : Nat
  img  : Nat → Nat

/-- A member's A lines as values with their scales, and its B lines. -/
def StepIn.aF (x : StepIn) (p : Snap) (l : Nat) : List Num :=
  (List.range p.group).map fun κ => mulNum (lineNum p.a x.half (x.a l) κ) (scaleAt p.sa x.img 0 l κ)
def StepIn.bF (x : StepIn) (p : Snap) (l : Nat) : List Num :=
  (List.range p.group).map fun κ => mulNum (lineNum p.b x.half (x.b l) κ) (scaleAt p.sb x.img 128 l κ)
def StepIn.aI (x : StepIn) (p : Snap) (l : Nat) : List Int :=
  (List.range p.group).map fun κ => lineInt (if p.planes then 1 else 0) x.half p.pa (x.a l) κ
def StepIn.bI (x : StepIn) (p : Snap) (l : Nat) : List Int :=
  (List.range p.group).map fun κ => lineInt (if p.planes then 1 else 0) x.half p.pb (x.b l) κ

/-- Words of an image. -/
def imgWord (bs : List Byte) : List Nat := (List.range 1024).map fun i => leNat ((bs.drop (4 * i)).take 4)

/-- A member's accumulator after a step with B from one member (R169): element (r, c). -/
def stepAcc (p : Snap) (acc : Memory) (me other : StepIn) : Memory :=
  let old := (imgWord (Memory.image 4096 acc 0)).toArray
  let new : List Nat :=
    if p.ac = 1 then
      let b := (List.range 32).map (other.bI p)
      (List.range 32).flatMap fun r => let a := me.aI p r; (List.range 32).map fun c => macInt (old.getD (32 * r + c) 0) a (b.getD c [])
    else
      let b := (List.range 32).map (other.bF p)
      (List.range 32).flatMap fun r => let a := me.aF p r; (List.range 32).map fun c => macFloat (old.getD (32 * r + c) 0) a (b.getD c [])
  Memory.ofBytes 0 (new.flatMap (leBytes 4))

/-- A member's operand for step `n` of its operation (R180, R181). -/
def stepIn (w : Wave) (lm : Memory) (n : Nat) (o : MxOpnd) : StepIn :=
  match o with
  | .step ta tb k sc =>
    let a := (Memory.image 2048 (w.tile ta) 0).toArray
    let b := (Memory.image 2048 (w.tile tb) 0).toArray
    { a := fun l i => (a.getD (64 * l + i) 0).toNat, b := fun l i => (b.getD (64 * l + i) 0).toNat, half := if k then 1 else 0
      img := fun i => match sc with
        | some v => (laneAt v (i / 4)).toNat / 256 ^ (i % 4) % 256
        | none => 127 }
  | .loop a b _ ia ib ls sb =>
    { a := fun l i => (lm.get ((a : Int) + n * ia + l * ls + i).toNat).toNat
      b := fun l i => (lm.get ((b : Int) + n * ib + l * ls + i).toNat).toNat, half := 0
      img := fun i => match sb with
        | some x => (lm.get (x + 256 * n + i)).toNat
        | none => 127 }

/-! ### Members -/

/-- The live members of a quad, in order of their numbers. -/
def State.members (s : State) (team first : Nat) : List Wave :=
  ((s.team team).waves.map s.wave).filter fun w => (w.mx.map Member.first) == some first

def Wave.modMx (w : Wave) (f : Member → Member) : Wave := { w with mx := w.mx.map f }
def Team.quad? (t : Team) (first : Nat) : Option Quad := t.quads.find? fun q => q.first == first
def State.modQuad (s : State) (team first : Nat) (f : Quad → Quad) : State :=
  s.modTeam team fun t => { t with quads := t.quads.map fun (q : Quad) => if q.first = first then f q else q }

def Member.accOf (m : Member) (a : Nat) : Memory := Tab.getD [] m.acc a

/-- Whether an accepted operation writes accumulator `a` (R177). -/
def accWrites (q : Quad) (a : Nat) (p : AccOp) : Bool :=
  match p with
  | .azero d n => decide (d ≤ a) && decide (a < d + n)
  | .amov d _ _ _ => d == a
  | .quad i => q.ops.any fun o => o.i == i && (o.hi == decide (4 ≤ a))

def State.accBusy (s : State) (w : Wave) (a : Nat) : Bool :=
  match w.mx with
  | none => false
  | some m => m.pend.any (accWrites (((s.team w.team).quad? m.first).getD { first := m.first }) a)

/-- An operation takes a number: dropped up to the high mark, else accepted with `p` (R173). -/
def Member.number (m : Member) (p : AccOp) : Member :=
  if m.n + 1 ≤ m.h then { m with n := m.n + 1 } else { m with n := m.n + 1, h := m.n + 1, pend := m.pend ++ [p] }

/-- Binding is not ready while another wave of the quarter is bound, or a quad of the same first wave is partial (R165, R167). -/
def State.bindWaits (s : State) (w : Wave) (first : Nat) : Bool :=
  (s.waves.any fun e => e.2.live && !e.2.away && e.2.core == w.core && e.2.q == w.q && e.2.id != w.id && e.2.mx.isSome)
    || (s.team w.team).quads.any fun q => q.first == first && q.part

/-- `MXBIND` (R165). A first wave that is none is found before a wave that is bound already (log entry 36). -/
def execMxbind (x : HA) (s : State) : Host.Outcome State Fault Refusal :=
  issue ctl x.h (fun i s =>
    let first := (i.s64 x.a).toNat
    if i.w.w32 then .trap 13 {}
    else if !(first = 0 ∨ first = 4 ∨ first = 8 ∨ first = 12) then .trap 8 {}
    else if (s.team i.w.team).waves.length < first + 4 ∨ i.w.num < first ∨ first + 3 < i.w.num then .trap 8 {}
    else if i.w.mx.isSome then .trap 21 {}
    else if s.bindWaits i.w first then .stall
    else .go fun t =>
      let t := t.modWave i.w.id fun w => { w with mx := some { first := first } }
      t.modTeam i.w.team fun k => if k.quads.any fun q => q.first == first then k else { k with quads := k.quads ++ [{ first := first }] }) s

/-- `MXBIND.rel` (R167): nothing in an unbound wave; not ready while the member owes operations. -/
def execMxbindRel (x : H0) (s : State) : Host.Outcome State Fault Refusal :=
  issue ctl x.h (fun i _ => if i.w.owesMatrix then .stall else .go fun t => t.leaveQuad i.w.id) s

/-- The record of a quad operation that a member issues as its i-th, if another has made it. -/
def Quad.op? (q : Quad) (i : Nat) : Option QuadOp := q.ops.find? fun o => o.i == i

/-- Whether the issuing wave's next accumulator operation is dropped (R173). -/
def State.drops (s : State) : Bool := match (s.wave s.cur.wave).mx with
  | some m => decide (m.n + 1 ≤ m.h)
  | none => false

/-- The operands that an accumulator operation reads: none where it is dropped (R173). -/
def State.accSrcs {α : Type} (s : State) (l : List α) : List α := if s.drops then [] else l

/-- A dropped operation takes its number and completes; the marks `~` of its operands `srcs` hold (R90, R173; log entry 48). -/
def State.dropAcc (t : State) (i : Iss) (srcs : List SU) : State :=
  t.modWave i.w.id fun w => (w.markKills i srcs).modMx fun m => { m with n := m.n + 1 }

/-- Issuing a quad operation that has passed its own checks (R167, R173, R175). It completes at its acceptance, where its reads end (log entry 81). One
that a restart issues again is dropped before the test of the quad's state (log entry 48). -/
def quadIssue (i : Iss) (s : State) (m : Member) (srcs : List SU) (loop : Bool) (steps : Nat) (hi : Bool) (opnd : MxOpnd) : Body :=
  let q := ((s.team i.w.team).quad? m.first).getD { first := m.first }
  let k := m.quads + 1
  let snap := i.f.fmt
  if m.n + 1 ≤ m.h then .go fun t => t.dropAcc i srcs
  else if q.part then .trap 21 {}
  else if 8 ≤ m.pend.length then .stall
  else
    match q.op? k with
    | some o =>
      if o.loop ≠ loop ∨ o.steps ≠ steps ∨ o.hi ≠ hi ∨ snapOf o.snap ≠ snapOf snap then .trap 22 {}
      else .go fun t =>
        (t.modWave i.w.id fun w => w.modMx fun m => { m.number (.quad k) with quads := k }).modQuad i.w.team m.first fun q =>
          { q with ops := q.ops.map fun (o : QuadOp) => if o.i = k then { o with who := Tab.set o.who i.w.num opnd } else o }
    | none => .go fun t =>
        (t.modWave i.w.id fun w => w.modMx fun m => { m.number (.quad k) with quads := k }).modQuad i.w.team m.first fun q =>
          { q with ops := q.ops ++ [{ i := k, loop := loop, steps := steps, hi := hi, snap := snap, who := [(i.w.num, opnd)] }] }

/-- Whether the snapshot of the issuing fragment has a scale flag. -/
def State.scaled (s : State) : Bool := let p := snapOf (s.frag s.curRef).fmt; p.sa || p.sb

/-- The sources a scale operand adds: none where the snapshot has no flag (R179). -/
def scaleSrc (s : State) (sc : Option Src) : List SU :=
  match sc with
  | some a => if s.scaled then [⟨a, 1, 1⟩] else []
  | none => []

/-- The format-combination checks (R115, R171). -/
def badFormat (p : Snap) (k : Bool) (sc : Option Src) : Bool :=
  !p.ok || (p.planes && k) || ((p.sa || p.sb) && sc.isNone)

/-- `MXSTEP` (R180). -/
def execMxstep (x : MxStep) (s : State) : Host.Outcome State Fault Refusal :=
  issue { ctl with srcs := s.accSrcs (scaleSrc s x.sc), first := s.converge, tr := s.accSrcs [x.ta.toNat, x.tb.toNat] } x.h (fun i s =>
    match i.w.mx with
    | none => .trap 8 {}
    | some m =>
      let p := snapOf i.f.fmt
      if badFormat p x.k x.sc then .trap 20 {}
      else quadIssue i s m (scaleSrc s x.sc) false 1 x.hi (.step x.ta.toNat x.tb.toNat x.k
        (if p.sa || p.sb then x.sc.map fun a => mkLanes (i.v32 a) else none))) s

/-- The fields of an `MXLOOP` (R181). -/
structure LoopF where
  a  : Nat
  b  : Nat
  n  : Nat
  ia : Int
  ib : Int
  ls : Nat
  sb : Option Nat

def loopFields (sa sb : DWord) (sc : Option DWord) : LoopF :=
  { a := sa.toNat % 2 ^ 19, b := sa.toNat / 2 ^ 32 % 2 ^ 19, n := sb.toNat % 2 ^ 16, ia := (sb.extractLsb' 16 16).toInt
    ib := (sb.extractLsb' 32 16).toInt, ls := sb.toNat / 2 ^ 48, sb := sc.map fun c => c.toNat % 2 ^ 19 }

/-- The lowest and one past the highest byte that `n` steps read from a base (R181). -/
def loopSpan (base n : Nat) (inc : Int) (ls w : Nat) : Int × Int :=
  let last : Int := base + (n - 1 : Nat) * inc
  (min (base : Int) last, max (base : Int) last + 31 * ls + w)

/-- The operands of an `MXLOOP`. -/
def loopSrcs (s : State) (x : MxLoop) : List SU := [⟨x.a, 1, 1⟩, ⟨x.b, 1, 1⟩] ++ scaleSrc s x.sc

/-- `MXLOOP` (R181). The format check comes before those of addresses, and both before those of the quad's state (log entry 36); a dropped one reads no
operand, so its addresses are not checked (log entry 48). -/
def execMxloop (x : MxLoop) (s : State) : Host.Outcome State Fault Refusal :=
  issue { ctl with srcs := s.accSrcs (loopSrcs s x), first := s.converge } x.h (fun i s =>
    match i.w.mx with
    | none => .trap 8 {}
    | some m =>
      let p := snapOf i.f.fmt
      if badFormat p false x.sc then .trap 20 {}
      else if m.n + 1 ≤ m.h then .go fun t => t.dropAcc i (loopSrcs s x)
      else if s.memHeld i then .stall
      else
        let f := loopFields (i.s64 x.a) (i.s64 x.b) (if p.sa || p.sb then x.sc.map i.s64 else none)
        let size : Int := (s.team i.w.team).lsize
        let w := if p.planes then 64 else 32
        let ra := loopSpan f.a f.n f.ia f.ls w
        let rb := loopSpan f.b f.n f.ib f.ls w
        if f.a % 32 ≠ 0 ∨ f.b % 32 ≠ 0 ∨ f.ia % 32 ≠ 0 ∨ f.ib % 32 ≠ 0 ∨ f.ls % 32 ≠ 0 ∨ f.sb.getD 0 % 4 ≠ 0 then .trap 26 {}
        else if f.n ≠ 0 ∧ (ra.1 < 0 ∨ rb.1 < 0 ∨ size < ra.2 ∨ size < rb.2) then .trap 27 {}
        else if f.n ≠ 0 ∧ f.sb.isSome ∧ size < (f.sb.getD 0 + 256 * f.n : Nat) then .trap 27 {}
        else quadIssue i s m (loopSrcs s x) true f.n x.hi (.loop f.a f.b f.n f.ia f.ib f.ls f.sb)) s

/-- `MXWAIT` (R183): a wait that ends when no accepted operation of the member is left. -/
def execMxwait (x : H0) (s : State) : Host.Outcome State Fault Refusal :=
  issue { ctl with entry := true } x.h (fun i s =>
    if i.w.owesMatrix then .go fun t => t.modFrag s.curRef fun f => { f with st := .waiting, wait := .mxwait, since := s.clock }
    else .go id) s

/-- Issuing an `AZERO` or an `AMOV` into an accumulator (R172, R173, R175). -/
def accIssue (i : Iss) (srcs : List SU) (p : AccOp) : Body :=
  match i.w.mx with
  | none => .trap 8 {}
  | some m =>
    if m.n + 1 ≤ m.h then .go fun t => t.dropAcc i srcs
    else if 8 ≤ m.pend.length then .stall
    else .go fun t => t.modWave i.w.id fun w => w.modMx fun m => m.number p

/-- `AZERO` (R184). -/
def execAzero (x : AZero) (s : State) : Host.Outcome State Fault Refusal :=
  issue { ctl with first := s.converge } x.h (fun i _ => accIssue i [] (.azero x.d.toNat (x.m.toNat + 1))) s

/-- The 64 lane values at an image offset, and an image with those of a mask replaced. -/
def imgLanes (m : Memory) (off : Nat) : Lanes := mkLanes fun l => BitVec.ofNat 32 (m.num (off + 4 * l) 4)
def imgPut (m : Memory) (off : Nat) (mask : Mask) (v : Lanes) : Memory :=
  (lanesOf mask).foldl (fun m l => m.setNum (off + 4 * l) 4 (laneAt v l).toNat) m

/-- `AMOV` (R184): rows 2i and 2i + 1, lane l at byte 256i + 4l of the image. -/
def execAmov (x : AMov) (s : State) : Host.Outcome State Fault Refusal :=
  match x.op with
  | .intoAcc acc a =>
    issue { srcs := s.accSrcs [su false a], first := s.converge } x.h (fun i _ =>
      if i.part = 0 then .go id else accIssue i [su false a] (.amov acc.toNat x.part.toNat i.part (mkLanes (i.v32 a)))) s
  | .fromAcc d m acc =>
    issue (laneUses .vec false (.v d m) []) x.h (fun i s =>
      match i.w.mx with
      | none => .trap 8 {}
      | some k =>
        if s.accBusy i.w acc.toNat then .stall
        else .go fun t => t.putDst i (.v d m) (laneAt (imgLanes (k.accOf acc.toNat) (256 * x.part.toNat)))) s

/-- An accepted `AZERO` or `AMOV` takes effect after every earlier operation of its member (R176). -/
def execAccumulatorEffect (wave : Nat) (s : State) : Host.Outcome State Fault Refusal :=
  let w := s.wave wave
  match if w.away then none else w.mx with
  | none => .next { s with stalled := true }
  | some m =>
    match m.pend with
    | .azero d n :: r => .next (s.modWave wave fun w => w.modMx fun m =>
        { m with pend := r, acc := (List.range n).foldl (fun a k => Tab.set a (d + k) []) m.acc })
    | .amov d part mask v :: r => .next (s.modWave wave fun w => w.modMx fun m =>
        { m with pend := r, acc := Tab.set m.acc d (imgPut (m.accOf d) (256 * part) mask v) })
    | _ => .next { s with stalled := true }

/-! ### The sequencer (R175, R176) -/

/-- The oldest operation of a quad, where it is matched and every member has come to it: all four members resident, their team not being saved (R178). -/
def State.matched (s : State) (team first : Nat) : Option QuadOp :=
  match (s.team team).quad? first with
  | none => none
  | some q => match q.ops with
    | [] => none
    | o :: _ =>
      let ms := s.members team first
      if (s.team team).loc ≠ .displaced ∧ ms.length = 4 ∧ o.who.length = 4 ∧
        ms.all (fun w => w.here && (match w.mx with
          | some m => m.pend.head? == some (.quad o.i)
          | none => false)) then some o else none

/-- The local bytes that a member's step reads (R181). -/
def stepReadsLocal (w : Nat) (n : Nat) (o : MxOpnd) : List (Nat × Nat) :=
  match o with
  | .step _ _ _ _ => []
  | .loop a b _ ia ib ls sb =>
    ((List.range 32).flatMap fun l => [(((a : Int) + n * ia + l * ls).toNat, w), (((b : Int) + n * ib + l * ls).toNat, w)])
      ++ (match sb with
        | some x => [(x + 256 * n, 256)]
        | none => [])

/-- Whether a step of a matched operation has to wait (R178, R182, R422, R437): the one before it is running, its core stands still, the
clock of its array is not enabled, or a copy or an earlier `ADRAIN` of a member still writes bytes it reads. -/
def State.stepWaits (s : State) (team first : Nat) (o : QuadOp) : Bool :=
  let w := if (snapOf o.snap).planes then 64 else 32
  let reads (k : Nat) : List (Nat × Nat) := ((Tab.get? o.who k).map (stepReadsLocal w o.next)).getD []
  o.busy || !s.coreClock || (s.members team first).any fun m =>
    !s.mayIssue m.core || s.clash team false (reads m.num) || s.draining m.id (reads m.num)

/-- A matched operation has completed: it leaves the quad and its members. -/
def State.opDone (s : State) (team first i : Nat) : State :=
  let s := s.modQuad team first fun q => { q with ops := q.ops.filter fun o => o.i ≠ i }
  (s.members team first).foldl (fun s w => s.modWave w.id fun w => w.modMx fun m => { m with pend := m.pend.drop 1 }) s

/-- A matched step starts on all four arrays (R176): operands are read and the sums formed, which no reader sees before the
operation completes (R177). An operation of no steps takes no array clock and waits for no byte: it completes (R181). -/
def execMatrixStepStart (team first : Nat) (s : State) : Host.Outcome State Fault Refusal :=
  match s.matched team first with
  | none => .next { s with stalled := true }
  | some o =>
    let p := snapOf o.snap
    if o.steps = 0 then .next (s.opDone team first o.i)
    else if s.stepWaits team first o then .next { s with stalled := true }
    else
      let ms := s.members team first
      let ins := ms.map fun w => stepIn w (s.lmem team) o.next (Tab.getD (.step 0 0 false none) o.who w.num)
      let base := if o.hi then 4 else 0
      let s := (ms.zip ins).foldl (fun s e => s.modWave e.1.id fun w => w.modMx fun m =>
        { m with acc := (ins.zip (List.range 4)).foldl (fun a j => Tab.set a (base + j.2) (stepAcc p (m.accOf (base + j.2)) e.2 j.1)) m.acc }) s
      .next (s.modQuad team first fun q => { q with ops := q.ops.map fun (x : QuadOp) => if x.i = o.i then { x with busy := true } else x })

/-- A quad's step that is running, a displaced team's too (R178). -/
def State.stepRunning (s : State) (team first : Nat) : Option QuadOp :=
  ((s.team team).quad? first).bind fun q => q.ops.head?.filter QuadOp.busy

/-- A step completes; the last one completes the operation (R176). -/
def execMatrixStepCompletion (team first : Nat) (s : State) : Host.Outcome State Fault Refusal :=
  match s.stepRunning team first with
  | none => .next { s with stalled := true }
  | some o =>
    if o.next + 1 = o.steps then .next (s.opDone team first o.i)
    else .next (s.modQuad team first fun q =>
      { q with ops := q.ops.map fun (x : QuadOp) => if x.i = o.i then { x with busy := false, next := x.next + 1 } else x })

/-! ### Drains (R186) -/

/-- The quantised format of a transposed copy, and Emax. -/
def drainFmt (q : Nat) : Fmt × Nat := if q = 0 then (e4m3, 8) else if q = 1 then (e5m2, 15) else (e2m1, 2)

/-- The scale byte of a column of values. -/
def drainScale (emax : Nat) (col : List Num) : Nat :=
  let bigger (a b : Num) : Bool := cmpNum a b == .lt
  let m := col.foldl (fun (b : Num) y => match y with
    | .fin _ k e => if bigger b (.fin false k e) then .fin false k e else b
    | _ => b) (.fin false 0 0)
  match m with
  | .fin _ k e => if k = 0 then 127 else (max 0 (min 254 (floorLog2 k e - emax + 127))).toNat
  | _ => 127

/-- A value divided by 2^(e − 127). -/
def scaleBy (e : Nat) (y : Num) : Num :=
  match y with
  | .fin n m x => .fin n m (x - ((e : Int) - 127))
  | y => y

/-- The main copy: bytes from `base` on, and whether an element saturated. -/
def drainMain (k : FMode) (fmt : DrainFmt) (words : List Nat) (base : Nat) : List (Nat × Byte) × Bool :=
  match fmt with
  | .f32 => (addrs base (words.flatMap (leBytes 4)), false)
  | .s32 => (addrs base (words.flatMap (leBytes 4)), false)
  | f =>
    let r := words.map fun x => satFloat k (if f = .f16 then fp16 else bf16) k.rnd (toReal fp32 x)
    (addrs base (r.flatMap fun e => leBytes 2 e.1), r.any Prod.snd)

/-- The transposed copy and its scales, in the order of R186's pseudocode: a column's scale, then its elements. -/
def drainT (q : Nat) (words : List Nat) (tb sb : Nat) : List (Nat × Byte) × Bool :=
  let (F, emax) := drainFmt q
  (List.range 32).foldl (fun (a : List (Nat × Byte) × Bool) c =>
    let col := (List.range 32).map fun r => toReal fp32 (words.getD (32 * r + c) 0)
    let e := drainScale emax col
    let el := col.map fun y => satFloat plainMode F 0 (scaleBy e y)
    let bytes := if F = e2m1 then (List.range 16).map fun b => BitVec.ofNat 8 ((el.getD (2 * b) (0, false)).1 + 16 * (el.getD (2 * b + 1) (0, false)).1)
      else el.map fun x => BitVec.ofNat 8 x.1
    (a.1 ++ (sb + c, BitVec.ofNat 8 e) :: addrs (tb + 64 * c) bytes, a.2 || el.any Prod.snd)) ([], false)

/-- What an `ADRAIN` uses. -/
def adrainUses (s : State) (x : ADrain) : Uses :=
  { ctl with srcs := [⟨x.base, 1, 1⟩, ⟨x.off, 1, 1⟩] ++ (x.tq.toList.map fun a => ⟨a, 1, 1⟩), first := s.converge }

/-- The base of an `ADRAIN`, exact (R16): the base scalar with the offset, an immediate being signed and a scalar not (log entry 76). -/
def drainBase (x : ADrain) (i : Iss) : Int :=
  ((i.s64 x.base).toNat : Int) + (match x.off with
    | .s _ _ _ => ((i.s64 x.off).toNat : Int)
    | _ => (i.s64 x.off).toInt)

/-- `ADRAIN` (R186): its local writes are made at its completion (R312), for which the fragment waits where it makes a region entry (R33). -/
def execAdrain (x : ADrain) (s : State) : Host.Outcome State Fault Refusal :=
  issue (adrainUses s x) x.h (fun i s =>
    match i.w.mx with
    | none => .trap 8 {}
    | some m =>
      if s.memHeld i then .stall else
      let at? := drainBase x i
      let base := at?.toNat
      let n := if x.fmt = .f32 ∨ x.fmt = .s32 then 4096 else 2048
      let c := (x.tq.map i.s64).getD 0
      let tb := c.toNat % 2 ^ 19
      let sb := c.toNat / 2 ^ 32 % 2 ^ 19
      let q := i.f.fmt.toNat / 2 ^ 24 % 16
      let size := (s.team i.w.team).lsize
      let tlen := if q = 2 then 2000 else 2016
      let rs := (base, n) :: (if x.tq.isSome then [(tb, tlen), (sb, 32)] else [])
      if x.tq.isSome ∧ 3 ≤ q then .trap 20 {}
      else if at? % 8 ≠ 0 ∨ (x.tq.isSome ∧ tb % 16 ≠ 0) then .trap 26 {}
      else if decide (at? < 0) || rs.any fun r => decide (size < r.1 + r.2) then .trap 27 {}
      else if s.accBusy i.w x.acc.toNat || s.localBusy i.w true rs then .stall
      else .go fun t =>
        let words := imgWord (Memory.image 4096 (m.accOf x.acc.toNat) 0)
        let main := drainMain i.k x.fmt words base
        let cp := if x.tq.isSome then drainT q words tb sb else ([], false)
        let (id, t) := t.fresh
        let owes := i.owesEntry (adrainUses s x)
        let o : Op := { id := id, wave := i.w.id, entry := i.f.entry, core := i.w.core, instr := .adrain x, size := 0
                        pasid := (t.team i.w.team).pasid, lbytes := main.1 ++ cp.1, wait := owes
                        fail := if main.2 || cp.2 then 1 else 0, nout := 1 }
        { t with ops := t.ops ++ [o] }.awaitIf owes ⟨i.w.id, i.f.entry⟩ (.op id)) s

/-- Whether an operation is a drain. -/
def isDrain (o : Op) : Bool :=
  match o.instr with
  | .adrain _ => true
  | _ => false

/-- The wave's oldest `ADRAIN` completes: its writes are made, and `$flags.sat` is set if an element saturated (R112, R186). -/
def execAdrainCompletion (wave : Nat) (s : State) : Host.Outcome State Fault Refusal :=
  match s.ops.find? fun o => o.wave == wave && isDrain o with
  | none => .next { s with stalled := true }
  | some o =>
    let t := (s.wave wave).team
    if o.dead || (Tab.get? s.waves wave).isNone then .next (s.dropOp o.id)
    else if s.clash t true (o.lbytes.map fun b => (b.1, 1)) then .next { s with stalled := true }
    else .next ((((s.setLmem t fun m => putBytes m o.lbytes).setSat wave (decide (o.fail = 1))).dropOp o.id).opOver o)

/-! ### Tiles and bit planes (R184, R185) -/

/-- `TZERO`. -/
def execTzero (x : Tile1) (s : State) : Host.Outcome State Fault Refusal :=
  issue { ctl with tw := [x.t.toNat] } x.h (fun i _ => .go fun t => t.modWave i.w.id fun w => { w with t := Tab.set w.t x.t.toNat [] }) s

/-- `TMOV`: lines 4i to 4i + 3, lane l at byte 256i + 4l of the image. -/
def execTmov (x : TMov) (s : State) : Host.Outcome State Fault Refusal :=
  match x.op with
  | .intoTile n a =>
    issue { srcs := [su false a], tw := [n.toNat] } x.h (fun i _ => .go fun t => t.modWave i.w.id fun w =>
      { w with t := Tab.set w.t n.toNat (imgPut (w.tile n.toNat) (256 * x.part.toNat) i.part (mkLanes (i.v32 a))) }) s
  | .fromTile d m n =>
    issue { laneUses .vec false (.v d m) [] with tr := [n.toNat] } x.h (fun i _ => .go fun t =>
      t.putDst i (.v d m) (laneAt (imgLanes (i.w.tile n.toNat) (256 * x.part.toNat)))) s

/-- Bit `e` of a word built from a test. -/
def wordOf (f : Nat → Bool) : Word := BitVec.ofNat 32 ((List.range 32).foldl (fun x e => if f e then x + 2 ^ e else x) 0)

/-- `BPPACK`: lane 8g + j takes plane j of its block's 32 elements. -/
def execBppack (x : VV) (s : State) : Host.Outcome State Fault Refusal :=
  issue (laneUses .vec false (.v x.d x.m) [su false x.a]) x.h (fun i _ => .go fun t =>
    t.putDst i (.v x.d x.m) fun l => wordOf fun e => (i.v32 x.a (l / 8 * 8 + e / 4)).getLsbD (8 * (e % 4) + (7 - l % 8))) s

/-- `BPUNPK`: byte b of lane 8g + q is element 4q + b. -/
def execBpunpk (x : VV) (s : State) : Host.Outcome State Fault Refusal :=
  issue (laneUses .vec false (.v x.d x.m) [su false x.a]) x.h (fun i _ => .go fun t =>
    t.putDst i (.v x.d x.m) fun l => wordOf fun e => (i.v32 x.a (l / 8 * 8 + (7 - e % 8))).getLsbD (4 * (l % 8) + e / 8)) s

end Sys2Proof.Machine
end

