-- ==== Sys2Proof/Machine/Memory.lean ====
section
/-! DEFINITION. Loads, stores, tiles in memory and the range instructions (R242 to R257). -/

namespace Sys2Proof.Machine

/-! ### Lane accesses through a buffer record (R246) -/

/-- What a lane access is: its operands, its size in bytes, whether it writes, whether it is one access for the lowest lane, its
destinations, each lane's captured data, and whether it saturates. -/
structure GA where
  instr : Instr
  h    : Hdr
  r    : BitVec 7
  rm   : Bool × Bool
  idx  : Src
  i64  : Bool
  off  : BitVec 32
  mf   : MemF
  n    : Nat
  wr   : Bool
  one  : Bool := false
  rest : List SU := []
  dv   : List Nat := []
  ds   : List Nat := []
  data : Iss → Nat → BitVec 512 := fun _ _ => 0
  sat  : Iss → Nat → Bool := fun _ _ => false

/-- The record as a source of four scalars. -/
def recSU (r : BitVec 7) (rm : Bool × Bool) : SU := { x := .s r rm.1 rm.2, ks := 4 }

/-- The accesses that count as loads, whose first read is a consuming one (R33, R94, R287). -/
def produces : Instr → Bool
  | .parkq _ => true
  | i => isLoad i

def GA.uses (g : GA) : Uses :=
  { srcs := recSU g.r g.rm :: su g.i64 g.idx :: g.rest, dv := g.dv, ds := g.ds, vl := true, owes := produces g.instr
    atom := globalAtomic g.instr, whole := g.one, cls := if g.one then .once else .mem }

/-- The bearing of a store (R69, R262). -/
def GA.bearing (g : GA) (i : Iss) (q : BitVec 256) : Nat :=
  match g.instr with
  | .st _ => if i.w.mode i.f.entry = .k3 then (match g.mf.bear with
      | some b => b.toNat
      | none => rcBear q) else 0
  | _ => 0

/-- The instructions of which every one is a wait until its operation completes (R256, R285, R286, R293). -/
def opWaits : Instr → Bool
  | .atomI _ => true
  | .atomF _ => true
  | .atomCas _ => true
  | .atomX2 _ => true
  | .red _ => true
  | .atoms _ => true
  | .brset _ => true
  | .bradd _ => true
  | .brdel _ => true
  | .unpark _ => true
  | .cinv _ => true
  | .cwb _ => true
  | .seal _ => true
  | .unseal _ => true
  | _ => false

/-- The lanes of an access with whether each is in bounds. -/
def GA.lanes (g : GA) (i : Iss) (q : BitVec 256) : List (LaneAcc × Bool) :=
  (if g.one then (lanesOf i.part).take 1 else lanesOf i.part).map fun l =>
    let x := if g.i64 then (i.v64 g.idx l).toNat else (i.v32 g.idx l).toNat
    let a := rcAddr q x g.off.toInt g.n
    ({ lane := l, idx := BitVec.ofNat 32 x, va := a.1, data := g.data i l }, a.2)

/-- The checks of R246 in order, then the access sets out. -/
def GA.body (g : GA) (i : Iss) (s : State) : Body :=
  if i.part = 0 then .go id
  else
    let q := recOf i g.r
    let ls := g.lanes i q
    let oob := (ls.filter fun l => !l.2).map Prod.fst
    let ok := (ls.filter Prod.snd).map Prod.fst
    let all := ls.map Prod.fst
    let t := s.team i.w.team
    if s.memHeld i then .stall
    else if rcBad q g.n then .trap 29 {}
    else if !oob.isEmpty && (if g.wr then rcStTrap q else rcLdTrap q) then
      .trap 30 { lanes := some (maskOfLanes oob), addr := lowVa oob, cap := capOf g.instr g.n all }
    else
      let mis := ok.filter fun l => l.va.toNat % g.n ≠ 0
      let shut := if g.wr then ok.filter fun l => (s.ctx t.pasid).sealed l.va else []
      if !mis.isEmpty then .trap 28 { addr := lowVa mis, cap := capOf g.instr g.n all }
      else if !shut.isEmpty then .trap 31 { addr := lowVa shut, cap := capOf g.instr g.n all }
      else .go fun t' =>
        let (id, t') := t'.fresh
        let o : Op := { id := id, wave := i.w.id, entry := i.f.entry, core := i.w.core, instr := g.instr, size := g.n, pasid := t.pasid
                        pc := i.f.pc, trec := (s.trapNow 0 i.part {}).trec, lanes := all, out := ok, mtype := rcType q, pol := g.mf.pol
                        bear := g.bearing i q, part := i.part, aq := g.mf.ord == .acq || g.mf.ord == .ar, sc := g.mf.scope, hm := i.hm
                        wait := opWaits g.instr || i.owesEntry g.uses, oob := maskOfLanes oob }
        (t'.setSat i.w.id (ok.any fun l => g.sat i l.lane)).startOp o (g.mf.ord == .rel || g.mf.ord == .ar)

def GA.exec (g : GA) (s : State) : Host.Outcome State Fault Refusal := issue g.uses g.h g.body s

/-- The access of an `LD`. -/
def gaLd (x : Ld) : GA :=
  { instr := .ld x, h := x.h, r := x.r, rm := x.rm, idx := x.idx, i64 := x.i64, off := x.off, mf := x.mf, n := x.sz.bytes, wr := false
    dv := (List.range x.sz.regs).map (x.d.toNat + ·) }

/-- `LD` (R246, R248). -/
def execLd (x : Ld) (s : State) : Host.Outcome State Fault Refusal := GA.exec (gaLd x) s

/-- Registers of stored data: how many a vector supplies. -/
def dataSU (sz : Size) (a : Src) : SU := { x := a, kv := sz.regs }

/-- A lane's stored data as captured. -/
def storeData (c : Conv) (n : Nat) (a : Src) (i : Iss) (l : Nat) : BitVec 512 := BitVec.ofNat 512 (storeNum i c n a l).1
/-- Whether a lane's stored data saturates (R112). -/
def laneSat (c : Conv) (n : Nat) (a : Src) (i : Iss) (l : Nat) : Bool := (storeNum i c n a l).2
def storeSat (c : Conv) (n : Nat) (a : Src) (i : Iss) : Bool := anySat i (laneSat c n a i)

/-- The access of an `ST`. -/
def gaSt (x : St) : GA :=
  { instr := .st x, h := x.h, r := x.r, rm := x.rm, idx := x.idx, i64 := x.i64, off := x.off, mf := x.mf, n := x.sz.bytes, wr := true
    rest := [dataSU x.sz x.data], data := storeData x.conv x.sz.bytes x.data, sat := laneSat x.conv x.sz.bytes x.data }

/-- `ST` (R246, R248, R262). -/
def execSt (x : St) (s : State) : Host.Outcome State Fault Refusal := GA.exec (gaSt x) s

/-- The access of an `LDSC`. -/
def gaLdsc (x : Ldsc) : GA :=
  { instr := .ldsc x, h := x.h, r := x.r, rm := x.rm, idx := x.idx, i64 := false, off := x.off, mf := x.mf, n := 8 * 2 ^ x.m.toNat
    wr := false, one := true, ds := (List.range (2 ^ x.m.toNat)).map (x.d.toNat + ·) }

/-- `LDSC` (R246): one access for the lowest lane. -/
def execLdsc (x : Ldsc) (s : State) : Host.Outcome State Fault Refusal := GA.exec (gaLdsc x) s

/-! ### Local accesses (R217, R249) -/

/-- A lane's local offset. -/
def localAt (i : Iss) (a : Src) (off : BitVec 32) (l : Nat) : Int := (i.v32 a l).toNat + off.toInt

/-- The cause that stops a per-lane local access of `n` bytes: bounds over every lane, then alignment. -/
def localBad (i : Iss) (size n : Nat) (a : Src) (off : BitVec 32) : Option Nat :=
  let ls := lanesOf i.part
  if ls.any fun l => decide (localAt i a off l < 0) || decide ((size : Int) < localAt i a off l + n) then some 27
  else if ls.any fun l => decide (localAt i a off l % n ≠ 0) then some 26 else none

/-- The bytes a per-lane local access touches. -/
def localRanges (i : Iss) (n : Nat) (a : Src) (off : BitVec 32) : List (Nat × Nat) :=
  (lanesOf i.part).map fun l => ((localAt i a off l).toNat, n)

/-- Conflict clocks of a per-lane local access (R218). -/
def localExtra (i : Iss) (n : Nat) (a : Src) (off : BitVec 32) : Nat :=
  laneExtra (fun l => ((localAt i a off l).toNat, n)) i.part

/-- A per-lane local access: checks, waits, then its effect. -/
def localBody (n : Nat) (a : Src) (off : BitVec 32) (store : Bool) (eff : Iss → State → State → State) (i : Iss) (s : State) : Body :=
  if i.part = 0 then .go id
  else if s.memHeld i then .stall
  else match localBad i (s.team i.w.team).lsize n a off with
    | some c => .trap c {}
    | none =>
      if s.localBusy i.w store (localRanges i n a off) then .stall
      else .go fun t => (eff i s t).countLocal i.w.core (localExtra i n a off)

/-- A local operation whose destination fills when its reply returns. -/
def State.localReply (t : State) (i : Iss) (instr : Instr) (lanes : List LaneAcc) (wait : Bool) : State :=
  let (id, t) := t.fresh
  let (r, t) := t.fresh
  let o : Op := { id := id, wave := i.w.id, entry := i.f.entry, core := i.w.core, instr := instr, size := 0
                  pasid := (t.team i.w.team).pasid, lanes := lanes, out := lanes, hm := i.hm, wait := wait, nout := 1 }
  let rep : Rep := { id := r, op := id, port := i.w.core / 8, core := i.w.core, slice := 2000 + i.w.core, pa := 0, kind := .done }
  { t with ops := t.ops ++ [o], reps := t.reps ++ [rep] }.awaitIf wait ⟨i.w.id, i.f.entry⟩ (.op id)

/-- What an `LDS` uses. -/
def ldsUses (x : Lds) : Uses :=
  { srcs := [su false x.a], dv := (List.range x.sz.regs).map (x.d.toNat + ·), vl := true, owes := true, cls := .mem }

/-- `LDS` (R249): the bytes are read in issue order (R312); the destination fills later. -/
def execLds (x : Lds) (s : State) : Host.Outcome State Fault Refusal :=
  issue (ldsUses x) x.h
    (localBody x.sz.bytes x.a x.off false fun i s t =>
      let m := s.lmem i.w.team
      t.localReply i (.lds x) ((lanesOf i.part).map fun l =>
        { lane := l, va := 0, data := BitVec.ofNat 512 (m.num (localAt i x.a x.off l).toNat x.sz.bytes) }) (i.owesEntry (ldsUses x))) s

/-- Lanes in the order in which their writes are applied: any order where two write the same bytes (R307). -/
def State.writeOrder (s : State) (ls : List (Nat × List (Nat × Byte))) : List (Nat × List (Nat × Byte)) :=
  let clash := ls.any fun a => ls.any fun b => a.1 != b.1 && a.2.any fun x => b.2.any fun y => x.1 == y.1
  if clash then ls.insertionSort fun a b => Config.pick (s.free + a.1) ≤ Config.pick (s.free + b.1) else ls

/-- `STS` (R249). -/
def execSts (x : Sts) (s : State) : Host.Outcome State Fault Refusal :=
  issue { srcs := [su false x.a, dataSU x.sz x.b], cls := .mem } x.h
    (localBody x.sz.bytes x.a x.off true fun i s t =>
      let ls := (lanesOf i.part).map fun l =>
        (l, addrs (localAt i x.a x.off l).toNat (leBytes x.sz.bytes (storeNum i x.conv x.sz.bytes x.b l).1))
      let t := t.setLmem i.w.team fun m => putBytes m ((s.writeOrder ls).flatMap Prod.snd)
      { t.setSat i.w.id (storeSat x.conv x.sz.bytes x.b i) with free := t.free + 64 }) s

/-! ### Tiles (R250 to R252) -/

def tileSwz (sw : Bool) (x : Nat) : Nat := if sw then Nat.xor x (x / 256 % 8 * 8) else x

/-- The checks of a tile access. -/
def tileBad (sw : Bool) (base size : Nat) : Option Nat :=
  if base % (if sw then 256 else 64) ≠ 0 then some 26 else if size < base + 2048 then some 27 else none

/-- Conflict clocks of a tile's rounds (R251). -/
def tileExtra (tr sw : Bool) (base : Nat) : Nat :=
  ((List.range 8).map fun r => bankExtra (if tr
    then (List.range 32).map fun κ => (base + tileSwz sw (64 * κ + 8 * r), 8)
    else (List.range 32).map fun w => (base + tileSwz sw (256 * r + 8 * w), 8))).sum

/-- The tile that an image gives (R251): as it is, or with its 16-bit elements transposed. -/
def tileOf (tr sw : Bool) (m : Memory) (base : Nat) : Memory :=
  let img := ((List.range 2048).map fun x => m.get (base + tileSwz sw x)).toArray
  Memory.ofBytes 0 ((List.range 2048).map fun x =>
    if tr then img.getD (64 * (x / 2 % 32) + 2 * (x / 64) + x % 2) 0 else img.getD x 0)

/-- What an `LDT` or `LDTT` uses. -/
def tileUses (x : TileMem) : Uses := { ctl with srcs := [⟨x.a, 1, 1⟩], tw := [x.t.toNat] }

/-- `LDT` and `LDTT`: the tile is filling until its rounds are done (R252); a fragment whose load makes a region entry waits for that (R33). -/
def tileLoad (tr : Bool) (x : TileMem) (s : State) : Host.Outcome State Fault Refusal :=
  issue (tileUses x) x.h (fun i s =>
    let base := (i.s64 x.a).toNat
    if s.memHeld i then .stall
    else match tileBad x.sw base (s.team i.w.team).lsize with
      | some c => .trap c {}
      | none =>
        if s.localBusy i.w false [(base, 2048)] then .stall
        else .go fun t =>
          let t := (t.modWave i.w.id fun w =>
            { w with t := Tab.set w.t x.t.toNat (tileOf tr x.sw (s.lmem i.w.team) base), tfill := w.tfill ++ [x.t.toNat]
                     towed := w.towed ++ [x.t.toNat] }).countLocal i.w.core (tileExtra tr x.sw base)
          t.awaitIf (i.owesEntry (tileUses x)) ⟨i.w.id, i.f.entry⟩ (.tile x.t.toNat)) s

/-- `LDT`. -/
def execLdt (x : TileMem) (s : State) : Host.Outcome State Fault Refusal := tileLoad false x s

/-- `LDTT`. -/
def execLdtt (x : TileMem) (s : State) : Host.Outcome State Fault Refusal := tileLoad true x s

/-- `STT`: the tile is read and written at issue. -/
def execStt (x : TileMem) (s : State) : Host.Outcome State Fault Refusal :=
  issue { ctl with srcs := [⟨x.a, 1, 1⟩], tr := [x.t.toNat] } x.h (fun i s =>
    let base := (i.s64 x.a).toNat
    if s.memHeld i then .stall
    else match tileBad x.sw base (s.team i.w.team).lsize with
      | some c => .trap c {}
      | none =>
        if s.localBusy i.w true [(base, 2048)] then .stall
        else .go fun t => (t.setLmem i.w.team fun m =>
          (List.range 2048).foldl (fun m k => m.set (base + tileSwz x.sw k) ((i.w.tile x.t.toNat).get k)) m).countLocal i.w.core
            (tileExtra false x.sw base)) s

/-- A filling tile is ready (R252); a fragment that waits for it goes on with its region entry. -/
def execTileFillCompletion (wave tile : Nat) (s : State) : Host.Outcome State Fault Refusal :=
  if (s.wave wave).tfill.contains tile then
    .next ((s.modWave wave fun w => { w with tfill := w.tfill.erase tile }).waitEnds wave (.tile tile))
  else .next { s with stalled := true }

/-! ### Range instructions (R253 to R256) -/

/-- The 128-byte virtual lines that the clipped range of a record touches (R253), as their first addresses. A range that runs past the canonical space
goes on in the low 57 bits of its addresses (log entry 73). -/
def rangeLines (q : BitVec 256) (idx : Nat) (off : Int) (len : Nat) : List DWord :=
  let a : Int := idx * rcStride q + off
  let lo := max 0 a
  let hi := min (a + len) ((rcExtent q * rcStride q : Nat) : Int)
  if hi ≤ lo then []
  else
    let b := (rcBase q).toInt
    let first := (b + lo) / 128
    let last := (b + hi - 1) / 128
    (List.range (last - first + 1).toNat).map fun k => BitVec.ofInt 64 ((first + k) * 128)

/-- Operands of a range instruction: the record, a 64-bit index and a length. -/
def rangeUses (x : Range) : Uses :=
  { ctl with srcs := [recSU x.r x.rm, ⟨x.idx, 1, 1⟩, ⟨x.len, 1, 1⟩] }

/-- The lines of a range instruction. -/
def Iss.rangeOf (i : Iss) (x : Range) : List DWord :=
  rangeLines (recOf i x.r) (i.s64 x.idx).toNat x.off.toInt ((i.s64 x.len).toNat % 2 ^ 32)

/-- An operation over lines or pages, whose fragment waits for it (R256). -/
def State.rangeOp (t s : State) (i : Iss) (instr : Instr) (vas : List DWord) : State :=
  let (id, t) := t.fresh
  let ls := vas.map fun va => { lane := 0, va := va : LaneAcc }
  let o : Op := { id := id, wave := i.w.id, entry := i.f.entry, core := i.w.core, instr := instr, size := 1
                  pasid := (s.team i.w.team).pasid, pc := i.f.pc, trec := (s.trapNow 0 i.part {}).trec, out := ls, hm := i.hm, wait := true }
  (t.modFrag ⟨i.w.id, i.f.entry⟩ fun f => { f with st := .waiting, wait := .op id, since := t.clock }).startOp o false

/-- `CINV`, `CWB` and `UNPARK`: waits over the lines of a range, which park on a missing page. -/
def rangeWait (instr : Instr) (x : Range) (s : State) : Host.Outcome State Fault Refusal :=
  issue (rangeUses x) x.h (fun i s =>
    if s.memHeld i then .stall
    else if rcBad (recOf i x.r) 1 then .trap 29 {}
    else .go fun t => t.rangeOp s i instr (i.rangeOf x)) s

/-- `CINV`. -/
def execCinv (x : Range) (s : State) : Host.Outcome State Fault Refusal := rangeWait (.cinv x) x s

/-- `CWB`. -/
def execCwb (x : Range) (s : State) : Host.Outcome State Fault Refusal := rangeWait (.cwb x) x s

/-- The lost port over which a line would have to be fetched that its home slice does not hold whole (R417). -/
def State.lineCut (s : State) (pa : Nat) : Option Nat :=
  if (List.range 4).all fun k => s.l2Holds (pa / 128 * 128 + 32 * k) then none else s.cut pa

/-- A whole line is recalled and fetched into its home slice for a context (R226, R290). -/
def State.fetchLine (s : State) (pasid pa : Nat) : State :=
  ((List.range 4).foldl (fun s k => s.fetchSector pasid (pa / 128 * 128 + 32 * k) false) (s.recall pa)).noteUse pasid none pa

/-- A line is filled into its home slice and, if `l1`, into the core's L1, which requests each sector (R403); parked and untranslated lines are skipped. A
record of type 1 fills no L1 line, one of type 2 no line at all (R235). A line that the slice does not hold is dropped over a lost link, with a record
(R417). Fills of the line that are in flight install nothing over it (R329). A line of a sealed page enters the L1 as a sealed replica (R223, log entry
74), and one of a page without read permission is skipped as an untranslated one is (log entry 75). -/
def State.prefetch (s : State) (core pasid mtype : Nat) (l1 : Bool) (va : DWord) : State :=
  match s.atcOf (core / 40) pasid (low57 va) with
  | none => s
  | some e =>
    let pa := e.addr (low57 va)
    if mtype == 2 || !e.rd || s.kindOf pa == .reserved || (s.chartOf pa).isSome then s
    else match s.lineCut pa with
    | some p => s.logLink p
    | none =>
      let s := s.fetchLine pasid pa
      if !l1 || mtype == 1 then s
      else
        let kind : LineKind := if (s.ctx pasid).sealed va then .sealed else .ordinary
        let s := (s.count (cKey core 1) 4).markFills core pa
        (List.range 4).foldl (fun s k =>
          let b := pa / 128 * 128 + 32 * k
          s.l1Fill core pasid b kind false (s.peeks b 32) (s.poisoned b)) s

/-- `PF` (R253): it completes at issue. -/
def execPf (x : Range) (s : State) : Host.Outcome State Fault Refusal :=
  issue (rangeUses x) x.h (fun i s =>
    if s.memHeld i then .stall
    else if rcBad (recOf i x.r) 1 then .trap 29 {}
    else .go fun t => (i.rangeOf x).foldl (fun t va => t.prefetch i.w.core (s.team i.w.team).pasid (rcType (recOf i x.r)) x.lvl va) t) s

/-- The lines of a code range: canonical ones inside a loaded code range of the context (R254). -/
def State.codeLines (s : State) (pasid : Nat) (start : DWord) (len : Nat) : List Nat :=
  let a := start.toNat
  let n := if len = 0 then 0 else (a + len - 1) / 128 + 1 - a / 128
  ((((List.range n).map fun k => BitVec.ofNat 64 ((a / 128 + k) * 128)).filter canonical).map low57).filter fun v =>
    (s.ctx pasid).objs.any fun o => decide (o.base / 128 ≤ v / 128) && decide (v < o.base + o.csize)

/-- Cluster instruction cache lines hold a whole line, recalled first (R290); one that would have to come over a lost link is dropped, with a record
(R417). -/
def State.icFill (s : State) (cl pa : Nat) : State :=
  let s := s.recall pa
  let po := (List.range 4).foldl (fun (m : BitVec 4) k => if s.poisoned (pa / 128 * 128 + 32 * k) then m ||| (1#4 <<< k) else m) 0
  let bs := s.peeks (pa / 128 * 128) 128
  if ((findLine s.icache cl pa).map fun l => l.has pa) = some true then s
  else match s.lineCut pa with
  | some p => s.logLink p
  | none => match findLine s.icache cl pa with
    | some _ => { s with icache := modLine s.icache cl pa fun l => l.filled bs po false }
    | none =>
      match s.wayFor s.icache cl (icSet pa) 0 8 (fun l => l.pins.isEmpty) with
      | none => s
      | some (w, v) =>
        let s : State := match v with
          | some (l : Line) => { s.drawn with icache := dropLine s.icache cl (l.line * 128) }
          | none => s
        let l : Line := { loc := cl, set := icSet pa, way := w, line := pa / 128 }
        { s with icache := s.icache ++ [l.filled bs po false] }

/-- A code line is filled into a cache level; over a lost link it is not, and that is recorded (R417). -/
def State.codeFill (s : State) (core pasid _ : Nat) (l2 : Bool) (pa : Nat) : State :=
  if l2 then (if (s.chartOf pa).isSome then s
    else match s.lineCut pa with
      | some p => s.logLink p
      | none => s.fetchLine pasid pa)
  else s.icFill (core / 8) pa

/-- Pinned lines of a set: at most 6 ways of an instruction cache, 2 of an L2 (R224, R254). -/
def pinnedWays (ls : List Line) (loc set : Nat) : Nat := (ls.filter fun l => l.loc == loc && l.set == set && !l.pins.isEmpty).length

/-- Pinning a filled line for a context at its code address `va`, or counting a refusal. -/
def State.pinLine (s : State) (core pasid va : Nat) (l2 : Bool) (pa : Nat) : State :=
  let s := s.codeFill core pasid va l2 pa
  let loc := if l2 then s.home pa else core / 8
  let ls := if l2 then s.l2 else s.icache
  match findLine ls loc pa with
  | none => s.ctxCount pasid 8 1
  | some l =>
    let add (ls : List Line) : List Line := modLine ls loc pa fun l => { l with pins := if l.pins.contains (pasid, va) then l.pins else l.pins ++ [(pasid, va)] }
    if l.kind = .parked ∨ (l.pins.isEmpty ∧ (if l2 then 2 else 6) ≤ pinnedWays ls loc l.set) then s.ctxCount pasid 8 1
    else if l2 then { s with l2 := add s.l2 } else { s with icache := add s.icache }

/-- Releasing the context's pin of a line. -/
def State.unpinLine (s : State) (core pasid _ : Nat) (l2 : Bool) (pa : Nat) : State :=
  let del (ls : List Line) (loc : Nat) : List Line := modLine ls loc pa fun l => { l with pins := l.pins.filter fun k => k.1 ≠ pasid }
  if l2 then { s with l2 := del s.l2 (s.home pa) } else { s with icache := del s.icache (core / 8) }

/-- A code-range instruction completes at issue over its translated lines. -/
def codeRange (x : CodeRange) (f : State → Nat → Nat → Nat → Bool → Nat → State) (s : State) : Host.Outcome State Fault Refusal :=
  issue { ctl with srcs := [⟨x.a, 1, 1⟩, ⟨x.b, 1, 1⟩] } x.h (fun i s =>
    if s.memHeld i then .stall
    else .go fun t =>
      let pasid := (s.team i.w.team).pasid
      (s.codeLines pasid (i.s64 x.a) ((i.s64 x.b).toNat % 2 ^ 24)).foldl (fun t v =>
        match t.atcOf (i.w.core / 40) pasid v with
        | some e => if t.kindOf (e.addr v) = .reserved then t else f t i.w.core pasid v x.lvl (e.addr v)
        | none => t) t) s

/-- `IPF` (R254). -/
def execIpf (x : CodeRange) (s : State) : Host.Outcome State Fault Refusal := codeRange x State.codeFill s

/-- `IPIN` (R224, R254). -/
def execIpin (x : CodeRange) (s : State) : Host.Outcome State Fault Refusal := codeRange x State.pinLine s

/-- `IUNPIN` (R254). -/
def execIunpin (x : CodeRange) (s : State) : Host.Outcome State Fault Refusal := codeRange x State.unpinLine s

/-! ### Seals (R236, R237, R255) -/

/-- Joining pages `a` to `b` to a list of ranges: ranges it meets become one. -/
def sealAdd (rs : List (Nat × Nat)) (a b : Nat) : List (Nat × Nat) :=
  let meets (r : Nat × Nat) : Bool := decide (r.1 ≤ b + 1) && decide (a ≤ r.2 + 1)
  let ms := rs.filter meets
  rs.filter (fun r => !meets r) ++ [(ms.foldl (fun m r => min m r.1) a, ms.foldl (fun m r => max m r.2) b)]

/-- Removing pages `a` to `b`, which may split a range. -/
def sealDel (rs : List (Nat × Nat)) (a b : Nat) : List (Nat × Nat) :=
  rs.flatMap fun r => (if r.1 < a then [(r.1, min r.2 (a - 1))] else []) ++ (if b < r.2 then [(max r.1 (b + 1), r.2)] else [])

/-- Whether a range of bytes is whole pages of the canonical space; one of no page has none that could lie outside it (R255). -/
def pagesOk (start len : DWord) : Bool :=
  decide (start.toNat % 4096 = 0) && decide (len.toNat % 4096 = 0) &&
    (decide (len.toNat = 0) || (canonical start && decide (start.toInt + len.toNat ≤ 2 ^ 56)))

/-- Sealed replicas leave every L1 and every L2, and those on their way are not installed (R223, R237): they are clean copies, and those of
other pages may be dropped at any time. -/
def State.dropReplicas (s : State) : State :=
  { s with l1 := s.l1.filter fun l => l.kind != LineKind.sealed, l2 := s.l2.filter fun l => l.kind != LineKind.sealed
           reps := s.reps.map fun (r : Rep) => if r.sealed then { r with mark := true } else r }

/-- The seal list as its descriptor holds it: for each range the first page, then the last with bit 63 set (R236, R432; log entry 45). -/
def sealBytes (rs : List (Nat × Nat)) : List Byte :=
  (List.range 64).flatMap fun k => match rs[k]? with
    | some r => leBytes 8 ((r.1 + 2 ^ 44) % 2 ^ 45) ++ leBytes 8 ((r.2 + 2 ^ 44) % 2 ^ 45 + 2 ^ 63)
    | none => List.replicate 16 0

/-- A context's seal list changes, in its descriptor too, whose lines are recalled first (R290). -/
def State.setSeals (s : State) (pasid : Nat) (rs : List (Nat × Nat)) : State :=
  let d := (s.ctx pasid).desc + 0x2200
  let bs := sealBytes rs
  (List.range 8).foldl (fun s k =>
      (s.recall (d + 128 * k)).pokes pasid false (d + 128 * k) (addrs (d + 128 * k) ((bs.drop (128 * k)).take 128)))
    (s.modCtx pasid fun c => { c with seals := rs })

/-- `SEAL` and `UNSEAL`: the context's list changes at issue by `f`; then the pages of `vas` are served at their home slices. -/
def sealWait (instr : Instr) (f : List (Nat × Nat) → Nat → Nat → List (Nat × Nat)) (add : Bool) (x : HAB) (s : State) :
    Host.Outcome State Fault Refusal :=
  issue { ctl with srcs := [⟨x.a, 1, 1⟩, ⟨x.b, 1, 1⟩] } x.h (fun i s =>
    let start := i.s64 x.a
    let len := i.s64 x.b
    let n := len.toNat / 4096
    let p := sealPage start
    let pasid := (s.team i.w.team).pasid
    let rs := if n = 0 then (s.ctx pasid).seals else f (s.ctx pasid).seals p (p + n - 1)
    if s.memHeld i then .stall
    else if !pagesOk start len then .trap 33 { addr := start }
    else if 64 < rs.length then .trap 32 { addr := start }
    else .go fun t =>
      let t := if n = 0 then t else t.setSeals pasid rs
      if add then t.rangeOp s i instr ((List.range n).map fun k => start + BitVec.ofNat 64 (4096 * k))
      else (if n = 0 then t else t.dropReplicas).rangeOp s i instr []) s

/-- `SEAL`. -/
def execSeal (x : HAB) (s : State) : Host.Outcome State Fault Refusal := sealWait (.seal x) sealAdd true x s

/-- `UNSEAL`. -/
def execUnseal (x : HAB) (s : State) : Host.Outcome State Fault Refusal := sealWait (.unseal x) sealDel false x s

end Sys2Proof.Machine
end

