-- ==== Sys2Proof/Machine/Network.lean ====
section
/-! DEFINITION. The two ends of a request: it is served at its slice (R225, R237, R268 to R277, R289 to R292, R300), and its reply reaches
the core (R94, R223, R240, R248, R270, R313). -/

namespace Sys2Proof.Machine

/-! ### Serving a request -/

/-- Replying to a request. -/
def State.reply (s : State) (r : Req) (k : RepKind) : State :=
  let p : Rep := { id := r.id, op := r.op, port := r.port, core := r.core, slice := r.slice, pa := r.pa, kind := k, joined := r.joined, mark := r.mark }
  { s with reqs := s.reqs.filter fun x => x.id ≠ r.id, reps := s.reps ++ [p] }

/-- Whether a request is the first one of its access, so that nothing of it has been performed. -/
def ReqKind.unbegun : ReqKind → Bool
  | .read _ => true
  | .write _ => true
  | .atom _ second => !second
  | .red _ => true
  | _ => false

/-- An access of an operation is refused: later ones of its wave to the sector that have been sent come back and wait in the core until its lanes have
been replayed (R309, R316, R329). So do loads of the wave that joined another wave's fill, and loads that joined one that comes back are sent again. The
request `but` stays. -/
def State.pullBack (s : State) (op sec but : Nat) : State :=
  let wave := (s.op? op).map Op.wave
  let mine (id : Nat) : Bool := decide (op < id) && (s.op? id).map Op.wave == wave
  let here (q : Req) : Bool := q.id != but && q.pa / 32 == sec && q.kind.unbegun
  let ids := (s.reqs.filter here).flatMap fun q => if mine q.op then q.op :: q.joined else q.joined.filter mine
  let stays := s.reqs.filter fun q => !(here q && mine q.op)
  let s : State := { s with reqs := stays.map fun (q : Req) => if here q then { q with joined := q.joined.filter fun j => !mine j } else q }
  ids.foldl (fun s id => s.modOp id fun o => { o with nout := o.nout - 1, held := o.held.insert sec }) s

/-- The replies of the operations that joined a fill of a line that is now parked: each is checked as a read of its own (R268, R313), and one that
takes poison is recorded (R240). A refused one holds back the later accesses of its wave. -/
def State.replyJoined (s : State) (r : Req) (d : RepKind) : State :=
  r.joined.foldl (fun s j => match s.op? j with
    | none => s
    | some o =>
      let (id, s) := (s.useCheck (o.asker s) r.pa).fresh
      let no := s.refuses (o.asker s) r.pa
      let k := match no with
        | some x => .refused 37 x.1 x.2
        | none => d
      let s := if k.poisoned then s.logPoison r.pa else if no.isSome then s.pullBack j (r.pa / 32) r.id else s
      { s with reps := s.reps ++ [{ id := id, op := j, port := r.port, core := r.core, slice := r.slice, pa := r.pa, kind := k }] }) s

/-- A refused access is answered, and what its wave has sent behind it comes back. -/
def State.refuseReq (s : State) (r : Req) (cause : Nat) (d : DWord × DWord) : State :=
  (s.reply { r with joined := [] } (.refused cause d.1 d.2)).pullBack r.op (r.pa / 32) r.id

/-- A sealed replica at the reader's own die (R236). -/
def State.replica (s : State) (o : Op) (pa : Nat) : State :=
  let loc := localSlice o.core pa
  if s.homeDie pa = o.core / 40 then s
  else
    let s := s.l2Alloc loc (s.setFor o.pasid pa) pa .sealed
    { s with l2 := modLine s.l2 loc pa fun l => if l.kind = .sealed then l.puts false (addrs (pa / 32 * 32) (s.peeks (pa / 32 * 32) 32)) else l }

/-- The replica of a sector that the reader's own die holds (R236, R265). -/
def State.localReplica (s : State) (o : Op) (pa : Nat) : Option Line :=
  (findLine s.l2 (localSlice o.core pa) pa).filter fun l => l.kind == .sealed && l.hasSector pa

/-- Replying with data, which fills a sealed replica if `b` (R237). -/
def State.replySealed (s : State) (r : Req) (k : RepKind) (b : Bool) : State :=
  let p : Rep := { id := r.id, op := r.op, port := r.port, core := r.core, slice := r.slice, pa := r.pa, kind := k, joined := r.joined, mark := r.mark
                   sealed := b }
  { s with reqs := s.reqs.filter fun x => x.id ≠ r.id, reps := s.reps ++ [p] }

/-- The virtual address of an operation's access to a sector. -/
def Op.vaOf (o : Op) (pa : Nat) : DWord := match o.lanes.find? fun l => (l.sectors o.size).contains (pa / 32) with
  | some l => l.va
  | none => match o.out.find? fun l => (l.sectors o.size).contains (pa / 32) with
    | some l => l.va
    | none => 0

/-- What a read finds at the point of order; a read of type 2 reaches host memory itself, but for bytes not written back yet (R235, R330). -/
def State.readBytes (s : State) (o : Op) (pa : Nat) : List Byte :=
  if o.mtype = 2 ∧ memKind pa = .host then (List.range 32).map fun k => match findLine s.l2 (s.home pa) pa with
    | some l => if l.dirty.getLsbD ((pa + k) % 128) then l.byte (pa + k) else s.mem.get (pa + k)
    | none => s.mem.get (pa + k)
  else s.peeks pa 32

/-- The home slice serves a read without a request beyond it: it holds the sector, and the access is not one that goes to the host every
time (R235, R417). -/
def State.heldHome (s : State) (o : Op) (pa : Nat) : Bool := s.l2Holds pa && (o.mtype != 2 || memKind pa != .host)

/-- A read of a sector of a parked line (R268, R269): each reader is checked, and served from the berth. -/
def State.serveParked (s : State) (r : Req) (o : Op) (e : ChartE) : State :=
  let s := s.useCheck (o.asker s) r.pa
  let b := s.readerBytes e o.core r.pa
  let no := s.refuses (o.asker s) r.pa
  let s := (if b.2 && no.isNone then s.logPoison r.pa else s).replyJoined r (.data b.1 b.2 false)
  match no with
  | some d => s.refuseReq r 37 d
  | none => s.reply { r with joined := [] } (.data b.1 b.2 false)

/-- A read of a sector of a line that is not parked: from a sealed replica of the reader's die, the home slice, DRAM or a remote memory. -/
def State.serveHome (s : State) (r : Req) (o : Op) (fill : Bool) : State :=
  let pa := r.pa
  let sealed := (s.ctx o.pasid).sealed (o.vaOf pa)
  let rep (s : State) (k : RepKind) : State := s.replySealed r k sealed
  match if sealed then s.localReplica o pa else none with
  | some l => rep (if l.poison.getLsbD (pa % 128 / 32) then s.logPoison pa else s)
      (.data ((List.range 32).map fun k => l.byte (pa + k)) (l.poison.getLsbD (pa % 128 / 32)) fill)
  | none => match if s.heldHome o pa then none else s.cut pa with
    | some p => rep (s.logLink p) (.data (List.replicate 32 0) true false)
    | none =>
      let s := if o.pol = .na ∨ o.mtype = 2 then s else s.fetchSector o.pasid pa (decide (o.pol = .ev))
      let po := s.poisoned pa
      let bs := s.readBytes o pa
      let s := if sealed && !po && o.mtype != 2 && o.pol != .na then s.replica o pa else s
      rep (if po then s.logPoison pa else s) (.data bs po fill)

/-- A read of a sector (R268, R269). -/
def State.serveRead (s : State) (r : Req) (o : Op) (fill : Bool) : State :=
  let s := s.recall r.pa
  match s.chartOf r.pa with
  | some e => s.serveParked r o e
  | none => s.serveHome r o fill

/-- A store of type 2 to remote memory goes there at once; a cached copy takes it too, and sectors written whole lose their poison (R235, R240,
R334). -/
def State.through (s : State) (pa : Nat) (bs : List (Nat × Byte)) : State :=
  let s : State := { s with mem := bs.foldl (fun m e => m.set e.1 e.2) s.mem, l2 := modLine s.l2 (s.home pa) pa fun l => l.puts false bs }
  (wholeSectors bs).foldl (fun s a => { s.setPoison a false with poison := s.poison.filter (· ≠ a / 32) }) s

/-- Whether a store has to be sent on beyond the home slice at once: a type-2 store, or one that finds no line and allocates none (R245). -/
def State.goesOn (s : State) (o : Op) (pa : Nat) : Bool :=
  remote pa && (o.mtype == 2 || (o.pol == .na && (findLine s.l2 (s.home pa) pa).isNone))

/-- An ordinary store at the home slice (R226, R245); a parked line is unparked first (R275). Under `.ev` and `.lu` the line that the slice then holds is
first for replacement. -/
def State.plainStore (s : State) (pasid : Nat) (pol : Policy) (mtype pa : Nat) (bs : List (Nat × Byte)) : State :=
  let s := s.unparkAt pa false
  let s := if mtype = 2 && remote pa then s.through pa bs else s.pokes pasid (decide (pol ≠ .na)) pa bs
  if pol = .ev ∨ pol = .lu then { s with l2 := modLine s.l2 (s.home pa) pa fun l => { l with first := true } } else s

/-- Whether the bearing of a store is ignored (R262). -/
def State.ignoresBearing (s : State) (o : Op) (pa : Nat) : Bool :=
  let e := s.bearingAt (dieAt (s.home pa)) o.pasid o.bear
  remote pa || o.mtype == 2 || !bValid e || (s.readerCores o.pasid e).isEmpty

/-- Lanes whose page is sealed by now are refused late (R237). -/
def State.refuseLate (s : State) (o : Op) (ls : List LaneAcc) : State × List LaneAcc :=
  let c := s.ctx o.pasid
  let bad := ls.filter fun l => c.sealed l.va
  if bad.isEmpty then (s, ls) else (s.modOp o.id fun o => { o with late := o.late ++ bad }, ls.filter fun l => !c.sealed l.va)

/-- A request of another kind stands where one stood: its access has begun, and it waits in no queue any more. -/
def State.becomes (s : State) (r : Req) (k : ReqKind) : State :=
  { s with reqs := s.reqs.map fun (q : Req) => if q.id = r.id then { q with kind := k, queued := none } else q }

/-- A store performed at a bearing's berth, or an atomic, is answered (R223). -/
def State.replyParked (s : State) (r : Req) (k : RepKind) : State :=
  let p : Rep := { id := r.id, op := r.op, port := r.port, core := r.core, slice := r.slice, pa := r.pa, kind := k, joined := r.joined, mark := r.mark
                   parked := true }
  { s with reqs := s.reqs.filter fun x => x.id ≠ r.id, reps := s.reps ++ [p] }

/-- A store or atomic that every copy holds is answered, or an `ATOM.X2` goes on with its second hold. -/
def State.spreadEnd (s : State) (r : Req) (ans : RepKind) (more : Bool) : State := match ans, more with
  | .old vals _, true => s.becomes r (.atom vals true)
  | a, _ => s.replyParked r a

/-- One more copy of a fan-out line takes the bytes of a store or atomic in progress; in which order is a free choice (R266). -/
def State.serveSpread (s : State) (r : Req) (bs : List (Nat × Byte)) (dies : List Nat) (ans : RepKind) (more : Bool) : State :=
  match s.chooseOf dies with
  | none => s.spreadEnd r ans more
  | some d =>
    let s := s.drawn.spreadTo r.pa d bs
    let rest := dies.erase d
    if rest.isEmpty then s.spreadEnd r ans more else s.becomes r (.spread bs rest ans more)

/-- An atomic has been applied to a line, which gives the state `t`: it is answered, or the copies of a fan-out line begin to take the bytes of
its lanes (R266). -/
def State.applied (s t : State) (r : Req) (o : Op) (ls : List LaneAcc) (ans : RepKind) (more : Bool) : State :=
  if (s.fanOut r.pa).isEmpty ∨ ls = [] then t.spreadEnd r ans more
  else s.becomes r (.spread (ls.flatMap fun l => addrs l.pa (t.peeks l.pa o.size)) (s.fanOut r.pa) ans more)

/-- A context count that a store adds to once, however many of its lines give rise to it; `fail` keeps bit `k` for it (R403). -/
def State.countOnce (s : State) (o : Op) (id k : Nat) : State :=
  if o.fail.testBit k then s else (s.ctxCount o.pasid id 1).modOp o.id fun o => { o with fail := o.fail + 2 ^ k }

/-- The acknowledgement of an ordinary store of bytes: of none where a lost link has dropped them (R417). -/
def State.ackOf (s : State) (pa : Nat) (bs : List (Nat × Byte)) : RepKind := if (s.dropsAt pa).isSome then .ack [] else .ack bs

/-- An ordinary store is performed and answered. -/
def State.storePlain (s : State) (r : Req) (o : Op) (bs : List (Nat × Byte)) : State :=
  let t := s.plainStore o.pasid o.pol o.mtype r.pa bs
  t.reply r (t.ackOf r.pa bs)

/-- Bytes of a store to a line at a bearing's berth: a fan-out line's copies take them one after another (R266). Where the chart has no room the store
is an ordinary one (R277). -/
def State.storeParked (s : State) (r : Req) (o : Op) (bs : List (Nat × Byte)) : State :=
  let s := s.useBearing (dieAt (s.home r.pa)) o.pasid o.bear
  if s.chartFull o.pasid r.pa then (s.countOnce o 4 1).storePlain r o bs
  else if s.inPlace (o.asker s) o.bear r.pa && !(s.fanOut r.pa).isEmpty then s.becomes r (.spread bs (s.fanOut r.pa) (.ack bs) false)
  else match s.parkStore (o.asker s) o.bear r.pa bs with
    | (s, some d) => s.refuseReq r 38 d
    | (s, none) => s.replyParked r (.ack bs)

/-- A store of lanes to one sector (R262, R275 to R277, R300, R417). -/
def State.serveWrite (s : State) (r : Req) (o : Op) (ls : List LaneAcc) : State :=
  let pa := r.pa
  let s := s.recall pa
  let (s, ls) := s.refuseLate o ls
  let ws := ls.map fun l => (l.lane, addrs l.pa (leBytes o.size (l.data.toNat % 2 ^ (8 * o.size))))
  let bs := (s.writeOrder ws).flatMap Prod.snd
  let s : State := { s with free := s.free + 64 }
  if ls.isEmpty then s.reply r (.ack [])
  else match if s.goesOn o pa then s.cut pa else none with
    | some p => (s.logLink p).reply r (.ack [])
    | none =>
      if o.bear = 0 then s.storePlain r o bs
      else if s.ignoresBearing o pa then (s.countOnce o 5 0).storePlain r o bs
      else s.storeParked r o bs

/-- Sealed replicas of a line go, those on their way too: an atomic that reached its home slice before its page was sealed may write the line after
it, and no replica may differ from the home line (R237). -/
def State.dropReplicasAt (s : State) (pa : Nat) : State :=
  let other (l : Line) : Bool := !(l.kind == LineKind.sealed && l.line == pa / 128)
  { s with l1 := s.l1.filter other, l2 := s.l2.filter other
           reps := s.reps.map fun (p : Rep) => if p.sealed && p.pa / 128 == pa / 128 then { p with mark := true } else p }

/-- A number is read and written at the place of an atomic (R289, R291): at the point of order, or in the remote memory itself. -/
def State.atomGet (s : State) (pa n : Nat) : Nat := if remote pa then s.mem.num pa n else s.peekNum pa n
def State.atomPut (s : State) (pasid pa n x : Nat) : State :=
  (if remote pa then { s with mem := s.mem.setNum pa n x } else s.pokes pasid false pa (addrs pa (leBytes n x))).dropReplicasAt pa

/-- The line of an atomic is ready at its place (R291): fetched, or written back and invalidated for a remote memory. -/
def State.atomPlace (s : State) (pasid pa : Nat) : State :=
  if remote pa then s.invalLine pa
  else if (s.chartOf pa).isSome then s
  else s.fetchSector pasid pa false

/-- The lanes of an instruction are applied in ascending lane order, each answering the value before it (R292, R298). -/
def State.applyLanes (s : State) (o : Op) (ls : List LaneAcc) : State × List LaneAcc :=
  ls.foldl (fun (a : State × List LaneAcc) l =>
    let old := a.1.atomGet l.pa o.size
    (a.1.atomPut o.pasid l.pa o.size (globalApply o.instr old l.data), a.2 ++ [{ l with data := BitVec.ofNat 512 old }])) (s, [])

/-- One hold of an `ATOM.X2`: a half of every lane (R292). Bits [47:32] of a lane's data keep its old low half. -/
def State.applyHalves (s : State) (o : Op) (x : AtomF) (hi : Bool) (ls : List LaneAcc) : State × List LaneAcc :=
  ls.foldl (fun (a : State × List LaneAcc) l =>
    let pa := l.pa + if hi then 2 else 0
    let old := a.1.atomGet pa 2
    (a.1.atomPut o.pasid pa 2 (halfApply x hi old l.data),
     a.2 ++ [{ l with data := if hi then BitVec.ofNat 512 (l.data.toNat / 2 ^ 32 % 2 ^ 16 + old * 2 ^ 16)
                      else BitVec.ofNat 512 (l.data.toNat % 2 ^ 32 + old * 2 ^ 32) }])) (s, [])

/-- The value a CAS of the remote atomic unit writes for a lane, from the value it read: the result of the operation, or the word with one
half replaced (R291, R292). -/
def casNew (i : Instr) (hi : Bool) (old : Nat) (l : LaneAcc) : Nat := match i with
  | .atomX2 x =>
    let k := if hi then 2 ^ 16 else 1
    let half := old / k % 2 ^ 16
    old - half * k + halfApply x hi half l.data % 2 ^ 16 * k
  | _ => globalApply i old l.data

/-- What a lane holds once its CAS has succeeded: its old value, or that of its half beside what the other hold needs (R292). -/
def casOld (i : Instr) (hi : Bool) (old : Nat) (l : LaneAcc) : LaneAcc := match i with
  | .atomX2 _ => { l with data := if hi then BitVec.ofNat 512 (l.data.toNat / 2 ^ 32 % 2 ^ 16 + old / 2 ^ 16 % 2 ^ 16 * 2 ^ 16)
                                  else BitVec.ofNat 512 (l.data.toNat % 2 ^ 32 + old % 2 ^ 16 * 2 ^ 32) }
  | _ => { l with data := BitVec.ofNat 512 old }

/-- The answer of an emulated atomic: an acknowledgement for `RED`, else the old values. -/
def Op.casAnswer (o : Op) (ls : List LaneAcc) (poison : Bool) : RepKind := match o.instr with
  | .red _ => .ack []
  | _ => .old ls poison

/-- The CAS loop of the remote atomic unit (R291): a step reads the word of the next lane, or sends the CAS on the value read; one that
finds another value has failed, which is counted, and is a retry from that value (R403). After a kill or drain it ends with the CAS in flight (R366,
R392). -/
def State.serveCas (s : State) (r : Req) (o : Op) (todo done : List LaneAcc) (seen : Option Nat) (hi : Bool) : State :=
  match s.cut r.pa with
  | some p => (s.logLink p).reply r (o.casAnswer ((todo ++ done).map fun l => { l with data := 0 }) true)
  | none =>
    match todo with
    | [] => s.reply r (o.casAnswer done false)
    | l :: rest =>
      let s := s.invalLine r.pa
      let cur := s.mem.num l.pa o.size
      let failed (s : State) : State := if seen.isSome then s.ctxCount o.pasid 6 1 else s
      if o.killed && seen != some cur then (failed s).reply r (o.casAnswer done false)
      else if seen = some cur then
        let s := s.atomPut o.pasid l.pa o.size (casNew o.instr hi cur l)
        let done := done ++ [casOld o.instr hi cur l]
        if o.killed then s.reply r (o.casAnswer done false)
        else if !rest.isEmpty then s.becomes r (.cas rest done none hi)
        else match o.instr with
          | .atomX2 _ => if hi then s.reply r (o.casAnswer done false) else s.becomes r (.atom done true)
          | _ => s.reply r (o.casAnswer done false)
      else (failed s).becomes r (.cas todo done (some cur) hi)

/-- The lanes of an atomic that are performed at the slice, and the others: those refused late at its first hold (R237), which take no part in the second
either (R292). -/
def State.atomLanes (s : State) (o : Op) (ls : List LaneAcc) (second : Bool) : State × List LaneAcc × List LaneAcc :=
  let x := if second then (s, ls.filter fun l => !o.late.any fun b => b.lane == l.lane) else s.refuseLate o ls
  (x.1, x.2, (ls.filter fun l => !x.2.any fun g => g.lane == l.lane).map fun l => { l with data := 0 })

/-- A value-returning atomic on one sector (R266, R289 to R292, R300). -/
def State.serveAtom (s : State) (r : Req) (o : Op) (ls : List LaneAcc) (second : Bool) : State :=
  let pa := r.pa
  match s.cut pa with
  | some p => (s.logLink p).reply r (.old (ls.map fun l => { l with data := 0 }) true)
  | none =>
    let s := (s.recall pa).useCheck (o.asker s) pa
    match s.refuses (o.asker s) pa with
    | some d => s.refuseReq r 37 d
    | none =>
      let (s, good, bad) := s.atomLanes o ls second
      let s := s.atomPlace o.pasid pa
      if s.poisoned pa then (s.logPoison pa).reply r (.old (ls.map fun l => { l with data := 0 }) true)
      else if s.emulates o.instr pa then s.becomes r (.cas good bad none second)
      else match o.instr with
        | .atomX2 x =>
          let a := s.applyHalves o x second good
          s.applied a.1 r o good (.old (a.2 ++ bad) false) !second
        | _ =>
          let a := s.applyLanes o good
          s.applied a.1 r o good (.old (a.2 ++ bad) false) false

/-- Reductions applied at the home slice, the berth or the remote memory, where a CAS loop may emulate them (R291); a poisoned sector drops
them (R300). -/
def State.redHere (s : State) (r : Req) (o : Op) (ls : List LaneAcc) : State :=
  let s := (s.recall r.pa).atomPlace o.pasid r.pa
  if s.poisoned r.pa then (s.logPoison r.pa).reply r (.ack [])
  else if s.emulates o.instr r.pa then s.becomes r (.cas ls [] none false)
  else s.applied (s.applyLanes o ls).1 r o ls (.ack []) false

/-- `RED` on one sector (R289, R290): at the berth, in the core's update-only line, at the home slice, or remotely. -/
def State.serveRed (s : State) (r : Req) (o : Op) (ls : List LaneAcc) : State :=
  let pa := r.pa
  match s.cut pa with
  | some p => (s.logLink p).reply r (.ack [])
  | none =>
    let (s, ls) := s.refuseLate o ls
    match o.instr with
    | .red x =>
      if ls.isEmpty then s.reply r (.ack [])
      else if remote pa || (s.chartOf pa).isSome || o.pol != .normal || o.mtype != 0 then s.redHere r o ls
      else match s.updateLine o.core o.pasid pa with
        | (s, true) =>
          (ls.foldl (fun s l => s.redInto o.core o.pasid l.pa x.op (l.data.toNat % 2 ^ (8 * o.size))) s).reply r (.ack [])
        | (s, false) => s.redHere r o ls
    | _ => s.reply r (.ack [])

/-! ### Lines and descriptors -/

/-- The core's part of `CINV` and `CWB` on a line (R253): update-only lines merged, and for `CINV` ordinary lines and replicas dropped,
those on their way among them. -/
def State.coreLine (s : State) (core pa : Nat) (inv : Bool) : State :=
  let s := if inv then s.markFills core pa else s
  match findLine s.l1 core pa with
  | some l =>
    if l.kind = .update then s.mergeLine l
    else if inv && l.kind != .parked then { s with l1 := dropLine s.l1 core pa } else s
  | none => s

/-- The kinds of line that the home slice keeps from `CINV`: sealed replicas and parked lines. -/
def State.dropHome (s : State) (pa : Nat) : State :=
  match findLine s.l2 (s.home pa) pa with
  | some l => if l.kind = .parked ∨ l.kind = .sealed then s else s.invalLine pa
  | none => s

/-- An entry of the bearing table is written (R285). -/
def State.setBearing (s : State) (pasid b : Nat) (e : BitVec 256) : State := s.pokeNum (s.bearAddr pasid b) 32 e.toNat

/-- `BRADD` (`add`) or `BRDEL` of a member in a valid entry (R285). -/
def memberChange (add : Bool) (m : Nat) (e : BitVec 256) : BitVec 256 :=
  let bit : BitVec 256 := if m < 160 then 1#256 <<< m else 0
  let set (first last : Nat) : BitVec 256 := BitVec.ofNat 256 (e.toNat - e.toNat % 2 ^ 64 + first % 2 ^ 32 + last % 2 ^ 32 * 2 ^ 32)
  if !bValid e then e
  else if bKind e = 1 then
    if add then set (min (bFirst e) m) (max (bLast e) m)
    else if m = bFirst e ∧ m = bLast e then e &&& ~~~(1#256 <<< 255)
    else if m = bFirst e then set (m + 1) (bLast e)
    else if m = bLast e then set (bFirst e) (m - 1)
    else e
  else if add then e ||| bit else e &&& ~~~bit

/-- Whether a member is out of range for an entry's kind, or is removed from inside a range (R284). -/
def memberBad (add : Bool) (e : BitVec 256) (m : Nat) : Bool :=
  !bValid e || (if bKind e = 0 then decide (159 < m)
    else if bKind e = 1 then decide (2 ^ 32 ≤ m) || (!add && decide (bFirst e < m ∧ m < bLast e))
    else decide (3 < m))

/-- Index, member or image of a bearing instruction, as captured in its one lane. -/
def Op.index (o : Op) : Nat := match o.lanes with
  | l :: _ => l.va.toNat
  | [] => 0
def Op.image (o : Op) : BitVec 256 := match o.lanes with
  | l :: _ => l.data.setWidth 256
  | [] => 0

/-- A changed entry completes when every cached copy holds it; which copy takes it next is a free choice (R273). -/
def State.serveTold (s : State) (r : Req) (o : Op) : State :=
  match s.chooseOf (s.staleBearings o.pasid o.index) with
  | none => s.reply r .done
  | some c => { s.drawn with bears := s.bears.map fun x => if x = c then { x with e := s.bearing o.pasid o.index } else x }

/-- A bearing entry takes its new value, which the cached copies then take one after another (R273). -/
def State.changeBearing (s : State) (r : Req) (o : Op) (e : BitVec 256) : State := ((s.setBearing o.pasid o.index e).becomes r .told)

/-- `BRADD` (`add`) or `BRDEL` as one read-modify-write; the entry as it is now decides whether the member is refused (R273, R284). -/
def State.serveMember (s : State) (r : Req) (o : Op) (add : Bool) : State :=
  let e := s.bearing o.pasid o.index
  if memberBad add e o.image.toNat then s.reply r (.refused 39 0 0) else s.changeBearing r o (memberChange add o.image.toNat e)

/-- What `PARKQ` answers (R287). -/
def State.parkAnswer (s : State) (pasid pa : Nat) : DWord :=
  match s.chartOf pa with
  | none => 0
  | some e => if e.pasid ≠ pasid then 1
    else BitVec.ofNat 64 (1 + e.berth * 2 ^ 42 + e.dies.toNat * 2 ^ 44 + e.core * 2 ^ 48 + e.bear * 2 ^ 56)

/-- Every update-only line of a page is recalled, and every parked line of it written back and unparked (R237, R281, R290). -/
def State.unparkPage (s : State) (pa : Nat) : State :=
  let s := (List.range 32).foldl (fun s k => s.recall (pa / 4096 * 4096 + 128 * k)) s
  (s.chart.filter fun e => e.line / 32 == pa / 4096).foldl (fun s e => s.unpark e true) s

/-- A request that is no access of lanes. -/
def State.serveLine (s : State) (r : Req) (o : Op) : State :=
  let pa := r.pa
  match o.instr with
  | .cinv x =>
    let s := (if x.lvl then s.recall pa else s).coreLine o.core pa true
    (if x.lvl then s.dropHome pa else s).reply r .done
  | .cwb _ => (((s.coreLine o.core pa false).recall pa).cleanLine pa).reply r .done
  | .unpark _ =>
    let s := s.recall pa
    match s.chartOf pa with
    | some e => (if e.pasid = o.pasid then s.unpark e false else s).reply r .done
    | none => s.reply r .done
  | .seal _ => (s.unparkPage pa).reply r .done
  | .parkq _ => (s.recall pa).reply r (.scal [s.parkAnswer o.pasid ((o.out.head?.map LaneAcc.pa).getD pa)])
  | .brset _ => (s.recall pa).changeBearing r o o.image
  | .bradd _ => (s.recall pa).serveMember r o true
  | .brdel _ => (s.recall pa).serveMember r o false
  | .brrd _ =>
    let s := s.recall pa
    let e := s.bearing o.pasid o.index
    s.reply r (.scal ((List.range 4).map fun k => e.extractLsb' (64 * k) 64))
  | _ => s.reply r .done

/-- Whether a request writes its home line for the wave that made it (R227). -/
def ReqKind.writes : ReqKind → Bool
  | .write _ => true
  | _ => false

/-- A request is served at the point of order; a line of remote memory keeps who has used and written it (R227). -/
def State.serve (s : State) (r : Req) : State :=
  match s.op? r.op with
  | none => { s with reqs := s.reqs.filter fun x => x.id ≠ r.id }
  | some o => (match r.kind with
    | .read f => s.serveRead r o f
    | .write ls => s.serveWrite r o ls
    | .atom ls b => s.serveAtom r o ls b
    | .cas todo done seen b => s.serveCas r o todo done seen b
    | .red ls => s.serveRed r o ls
    | .line => s.serveLine r o
    | .spread bs ds a m => s.serveSpread r bs ds a m
    | .told => s.serveTold r o).noteUse o.pasid (if r.kind.writes then some o.wave else none) r.pa

/-- The routes as a request read them when it was sent (R416). -/
def State.asSent (s : State) (r : Req) : State := match memKind r.pa with
  | .host => { s with hostPath := r.rt.setWidth 7 }
  | .peer n => { s with routes := Tab.set s.routes n r.rt }
  | _ => s

/-- A request is served under the routes that it read. -/
def State.serveSent (s : State) (r : Req) : State := { (s.asSent r).serve r with routes := s.routes, hostPath := s.hostPath }

/-- Whether a request to a line waits for the store or atomic that a fan-out line is taking: any but a read that the reader's own die serves. -/
def State.spreading (s : State) (r : Req) : Bool :=
  (s.reqs.any fun q => q.id != r.id && q.pa / 128 == r.pa / 128 && match q.kind with
    | .spread _ _ _ _ => true
    | _ => false) && !((s.fanOut r.pa).contains (r.core / 40) && match r.kind with
    | .read _ => true
    | _ => false)

/-- The requests that were sent before one on its port to its slice, and have not been begun. -/
def State.sentBefore (s : State) (r : Req) : List Req :=
  (s.reqs.takeWhile fun q => q.id != r.id).filter fun q => q.port == r.port && q.slice == r.slice && (q.kind.unbegun || q.kind == .line)

/-- The requests in the conflict queue of bank `b` of a slice if `r` has arrived: those that had before, of every port, and those sent before it. -/
def State.bankQueue (s : State) (r : Req) (b : Nat) : List Req :=
  s.reqs.filter fun q => q.id != r.id && q.slice == r.slice && q.pa / 128 % 4 == b && (q.queued.isSome || (s.sentBefore r).any fun x => x.id == q.id)

/-- The requests to a line that have reached its bank before `r` can have: of its own port those sent before it, of any other those that were in the
queue when `r` was sent. When a request of another port that was sent earlier has arrived is open, so it may come before or after them (R225). -/
def State.ahead (s : State) (r : Req) : List Req :=
  ((s.sentBefore r) ++ s.reqs.filter fun q => q.id != r.id && q.slice == r.slice && (match q.queued with
    | some n => decide (n ≤ r.id)
    | none => false)).filter fun q => q.pa / 128 == r.pa / 128

/-- Whether a request may be served now (R225, R229). Requests of one port arrive at a slice in the order sent, and those to one line are served in the
order in which they reached its bank; to other lines a request may pass those in the conflict queues of their banks, which hold 16 requests of all ports
each. A bank whose queue is full accepts nothing. -/
def State.reaches (s : State) (r : Req) : Bool :=
  (s.ahead r).isEmpty
    && ((List.range 4).all fun b => decide ((s.bankQueue r b).length ≤ Config.conflictQueue))
    && (r.queued.isSome || decide ((s.bankQueue r (r.pa / 128 % 4)).length < Config.conflictQueue)) && !s.spreading r

/-- The requests that a request has been sent behind have reached their banks once it is served, before any that is sent from now on. -/
def State.arrived (s : State) (r : Req) : State :=
  { s with reqs := s.reqs.map fun (q : Req) =>
      if q.queued.isNone && (s.sentBefore r).any fun x => x.id == q.id then { q with queued := some s.nextId } else q }

/-- A request is served at its slice. -/
def execSliceRequest (id : Nat) (s : State) : Host.Outcome State Fault Refusal :=
  match s.reqs.find? fun r => r.id == id with
  | none => .next { s with stalled := true }
  | some r => if s.reaches r then .next ((s.arrived r).serveSent r) else .next { s with stalled := true }

/-! ### Replies -/

/-- A loaded value enters the registers of some lanes, whose clean slots lose their lanes (R89). -/
def Wave.loadLanes (w : Wave) (instr : Instr) (ls : List LaneAcc) : Wave :=
  let put (dv : List Nat) (words : LaneAcc → List Word) (w : Wave) : Wave :=
    (dv.zip (List.range dv.length)).foldl (fun w e =>
      w.replyV e.1 (maskOfLanes ls) (mkLanes fun i => match ls.find? fun l => l.lane == i with
        | some l => (words l).getD e.2 0
        | none => 0)) w
  let raw (l : LaneAcc) : List Word := (List.range 8).map fun k => BitVec.ofNat 32 (l.data.toNat / 2 ^ (32 * k))
  match instr with
  | .ld x => put (memDst instr).1 (fun l => loadWords x.conv x.sz.bytes (l.data.toNat % 2 ^ (8 * x.sz.bytes))) w
  | .lds x => put (memDst instr).1 (fun l => loadWords x.conv x.sz.bytes (l.data.toNat % 2 ^ (8 * x.sz.bytes))) w
  | i => put (memDst i).1 raw w

/-- A lane's bytes of a sector join those it has. -/
def LaneAcc.take (l : LaneAcc) (n pa : Nat) (bs : List Byte) : LaneAcc :=
  { l with data := BitVec.ofNat 512 ((List.range n).foldl (fun x k =>
      let a := l.pa + k
      if a / 32 = pa / 32 then x - x / 256 ^ k % 256 * 256 ^ k + (bs.getD (a % 32) 0).toNat * 256 ^ k else x) l.data.toNat) }

/-- Lanes leave those not yet answered. -/
def Op.answered (o : Op) (ls : List LaneAcc) : Op := { o with out := o.out.filter fun l => !ls.any fun x => x.lane == l.lane }

/-- A refusal reaches the operation: its record is that of the lowest refused lane (R270). -/
def Op.refuse (o : Op) (ls : List LaneAcc) (c : Nat) (d0 d1 : DWord) : Op :=
  let lower := match lowest ls, lowest o.refused with
    | some a, some b => decide (a.lane < b.lane)
    | _, none => true
    | none, _ => false
  let o := { o.answered ls with refused := o.refused ++ ls }
  if lower then { o with rcause := c, rdet0 := d0, rdet1 := d1 } else o

/-- A reply reaches one operation. -/
def State.deliver (s : State) (p : Rep) (id : Nat) : State :=
  match s.op? id with
  | none => s
  | some o =>
    let sec := p.pa / 32
    let s := s.modOp id fun o => { o with nout := o.nout - 1 }
    let ls := o.inSector sec
    match p.kind with
    | .data bs po _ =>
      if o.dead then s
      else
        let got := ls.map fun l => l.take o.size p.pa bs
        match o.instr with
        | .ldsc _ => s.modOp id fun o => { o with poison := o.poison || po, out := o.out.map fun l => l.take o.size p.pa bs }
        | i => (s.modWave o.wave fun w => w.loadLanes i got).modOp id fun o => { o.answered ls with poison := o.poison || po }
    | .ack _ => s.modOp id fun o => o.answered ls
    | .old vals po =>
      let vals := vals.filter fun v => o.out.any fun l => l.lane == v.lane
      if o.dead then s
      else (s.modWave o.wave fun w => if po then w else w.loadLanes o.instr vals).modOp id fun o => { o.answered vals with poison := o.poison || po }
    | .refused c d0 d1 => if o.dead then s else s.modOp id fun o => o.refuse ls c d0 d1
    | .done =>
      if o.dead then s
      else match o.instr with
        | .lds _ => (s.modWave o.wave fun w => w.loadLanes o.instr o.out).modOp id fun o => { o with out := [] }
        | .atoms _ => (s.modWave o.wave fun w => w.loadLanes o.instr o.out).modOp id fun o => { o with out := [] }
        | .qpop _ => (s.modWave o.wave fun w => w.loadLanes o.instr o.out).modOp id fun o => { o with out := [] }
        | _ => s.modOp id fun o => { o with out := o.out.filter fun l => l.pa / 128 ≠ p.pa / 128 }
    | .scal vs =>
      if o.dead then s
      else (s.modWave o.wave fun w => ((memDst o.instr).2.zip vs).foldl (fun w e =>
        w.replyS o.hm e.1 e.2) w).modOp id fun o => { o with out := [] }

/-- The valid bytes of a line that a store wrote take its values; a sector written whole loses its poison (R240). -/
def Line.refresh (l : Line) (bs : List (Nat × Byte)) : Line :=
  let l := bs.foldl (fun l e => if l.has e.1 then l.put false e.1 e.2 else l) l
  { l with poison := (wholeSectors bs).foldl (fun p a => p &&& ~~~(1#4 <<< (a % 128 / 32))) l.poison }

/-- What a reply does to the core's L1 (R223, R245, R313): a store's bytes enter a present ordinary line, or the line goes, as where the store has been
performed at a berth; an atomic's line goes; a fill installs its sector unless it is marked or the line is taken. -/
def State.l1Reply (s : State) (p : Rep) (o : Op) : State :=
  match p.kind with
  | .ack bs =>
    match o.instr with
    | .st _ =>
      if p.parked = true ∨ o.pol = .cb ∨ o.pol = .lu then s.l1DropOrdinary p.core p.pa
      else { s with l1 := s.l1.map fun l => if l.loc = p.core ∧ l.line = p.pa / 128 ∧ l.kind = .ordinary then l.refresh bs else l }
    | _ => s.l1DropOrdinary p.core p.pa
  | .old _ _ => s.l1DropOrdinary p.core p.pa
  | .data bs po true =>
    let kind : LineKind := if p.sealed then .sealed else .ordinary
    let taken := match findLine s.l1 p.core p.pa with
      | some l => l.kind != kind
      | none => false
    if p.mark || taken then s else s.l1Fill p.core o.pasid p.pa kind (decide (o.pol = .ev)) bs po
  | _ => s

/-- A load's last use of a line (R245): once its data is back the L1 line goes, and the L2 line is first for replacement. -/
def State.lastUse (s : State) (p : Rep) (id : Nat) : State :=
  match p.kind, s.op? id with
  | .data _ _ _, some o =>
    if o.pol = .lu ∧ isLoad o.instr = true then
      let t := s.l1DropOrdinary p.core p.pa
      { t with l2 := modLine t.l2 (t.home p.pa) p.pa fun l => if l.kind = .ordinary then { l with first := true } else l }
    else s
  | _, _ => s

/-- An operation that joined a fill takes its poison, which is recorded (R240). -/
def State.logJoined (s : State) (p : Rep) (id : Nat) : State := if p.kind.poisoned && (s.op? id).isSome then s.logPoison p.pa else s

/-- A reply that stands first from its slice to its port reaches the core; the operations it answers complete where nothing is left. -/
def execMemoryReply (id : Nat) (s : State) : Host.Outcome State Fault Refusal :=
  match s.reps.find? fun r => r.id == id with
  | none => .next { s with stalled := true }
  | some p =>
    match s.reps.find? fun q => q.port == p.port && q.slice == p.slice with
    | some q =>
      if q.id ≠ id then .next { s with stalled := true }
      else
        let s : State := { s with reps := s.reps.filter fun r => r.id ≠ id }
        let s := match s.op? p.op with
          | some o => s.l1Reply p o
          | none => s
        let s := (p.op :: p.joined).foldl (fun s j => s.lastUse p j) s
        let s := (p.op :: p.joined).foldl (fun s j => s.deliver p j) (p.joined.foldl (fun s j => s.logJoined p j) s)
        .next ((p.op :: p.joined).foldl State.opCheck s.sendHeld)
    | none => .next { s with stalled := true }

end Sys2Proof.Machine
end

