-- ==== Sys2Proof/Machine/Atomics.lean ====
section
/-! DEFINITION. Atomics and reductions (R289 to R301): every one is a wait. -/

namespace Sys2Proof.Machine

/-- A global atomic over its addressing part. -/
def atomGA (instr : Instr) (h : Hdr) (ad : AtomAddr) (n : Nat) (kv ks : Nat) (dv : List Nat) (data : Iss → Nat → BitVec 512) : GA :=
  { instr := instr, h := h, r := ad.r, rm := ad.rm, idx := ad.idx, i64 := ad.i64, off := ad.off, mf := ad.mf, n := n, wr := true
    rest := [{ x := ad.data, kv := kv, ks := ks }], dv := dv, data := data }

def regsFrom (d : BitVec 8) (n : Nat) : List Nat := (List.range n).map (d.toNat + ·)

/-- A lane's operand of one or two words. -/
def atomData (a : Src) (w64 : Bool) (i : Iss) (l : Nat) : BitVec 512 :=
  if w64 then (i.v64 a l).setWidth 512 else (i.v32 a l).setWidth 512

/-- The accesses of `ATOM.I` and `ATOM.F`. -/
def gaAtomI (x : AtomI) : GA :=
  let w := x.t.w64
  atomGA (.atomI x) x.h x.ad (if w then 8 else 4) (if w then 2 else 1) 1 (regsFrom x.d (if w then 2 else 1)) (atomData x.ad.data w)
def gaAtomF (x : AtomF) : GA :=
  let w := x.fmt1
  atomGA (.atomF x) x.h x.ad (if w then 8 else 4) (if w then 2 else 1) 1 (regsFrom x.d (if w then 2 else 1)) (atomData x.ad.data w)

/-- `ATOM.I`. -/
def execAtomI (x : AtomI) (s : State) : Host.Outcome State Fault Refusal := GA.exec (gaAtomI x) s

/-- `ATOM.F`. -/
def execAtomF (x : AtomF) (s : State) : Host.Outcome State Fault Refusal := GA.exec (gaAtomF x) s

/-- Compare and new value of `ATOM.CAS` in one lane: the words of a vector group, or the halves or registers of scalars (R298). -/
def casData (x : AtomCas) (i : Iss) (l : Nat) : BitVec 512 :=
  let n := x.w.bytes / 4
  match x.ad.data with
  | .v r _ _ =>
    let num (b : Nat) : Nat := (List.range n).foldl (fun y k => y + (i.w.vlane (r.toNat + b + k) l).toNat * 2 ^ (32 * k)) 0
    BitVec.ofNat 512 (num 0 + num n * 2 ^ 128)
  | .s r _ _ =>
    let v (k : Nat) : Nat := (i.w.sval i.hm (r.toNat + k)).toNat
    match x.w with
    | .b32 => BitVec.ofNat 512 (v 0 % 2 ^ 32 + v 0 / 2 ^ 32 * 2 ^ 128)
    | .b64 => BitVec.ofNat 512 (v 0 + v 1 * 2 ^ 128)
    | .b128 => BitVec.ofNat 512 (v 0 + v 1 * 2 ^ 64 + v 2 * 2 ^ 128 + v 3 * 2 ^ 192)
  | _ => 0

/-- The accesses of `ATOM.CAS`, `ATOM.X2` and `RED`. -/
def gaAtomCas (x : AtomCas) : GA :=
  let n := x.w.bytes
  atomGA (.atomCas x) x.h x.ad n (n / 2) (if n = 4 then 1 else n / 4) (regsFrom x.d (n / 4)) (casData x)
def gaAtomX2 (x : AtomF) : GA := atomGA (.atomX2 x) x.h x.ad 4 1 1 (regsFrom x.d 1) (atomData x.ad.data false)
def gaRed (x : Red) : GA :=
  let w := x.op.w64
  atomGA (.red x) x.h x.ad (if w then 8 else 4) (if w then 2 else 1) 1 [] (atomData x.ad.data w)

/-- `ATOM.CAS`. -/
def execAtomCas (x : AtomCas) (s : State) : Host.Outcome State Fault Refusal := GA.exec (gaAtomCas x) s

/-- `ATOM.X2`. -/
def execAtomX2 (x : AtomF) (s : State) : Host.Outcome State Fault Refusal := GA.exec (gaAtomX2 x) s

/-- `RED`. -/
def execRed (x : Red) (s : State) : Host.Outcome State Fault Refusal := GA.exec (gaRed x) s

/-- The lanes of an `ATOMS` applied in ascending order to local memory, each with the value before it (R292, R298). -/
def atomsLanes (x : Atoms) (i : Iss) (m : Memory) : Memory × List LaneAcc :=
  let n := if x.op.w64 then 8 else 4
  let v (a : Src) (l : Nat) : Nat := if x.op.w64 then (i.v64 a l).toNat else (i.v32 a l).toNat
  (lanesOf i.part).foldl (fun (a : Memory × List LaneAcc) l =>
    let p := (localAt i x.a x.off l).toNat
    let old := a.1.num p n
    (a.1.setNum p n (localApply x.op old (v x.b l) ((x.c.map fun c => v c l).getD 0)),
     a.2 ++ [{ lane := l, va := 0, data := BitVec.ofNat 512 old }])) (m, [])

/-- `ATOMS` (R297, R298): performed in the order of the local unit; its fragment waits for the old values. -/
def execAtoms (x : Atoms) (s : State) : Host.Outcome State Fault Refusal :=
  let n := if x.op.w64 then 8 else 4
  issue { srcs := [su false x.a, su x.op.w64 x.b] ++ (x.c.toList.map fun c => su x.op.w64 c), dv := regsFrom x.d (n / 4), vl := true
          atom := true, cls := .mem } x.h
    (localBody n x.a x.off true fun i s t =>
      let r := atomsLanes x i (s.lmem i.w.team)
      (t.setLmem i.w.team fun _ => r.1).localReply i (.atoms x) r.2 true) s

end Sys2Proof.Machine
end

