-- ==== Sys2Proof/Machine/Placement.lean ====
section
/-! DEFINITION. The placement instructions (R283 to R288). -/

namespace Sys2Proof.Machine

/-- An operation at entry `b` of the context's bearing table: its index and image or member captured, one request to the descriptor. -/
def State.descOp (t s : State) (i : Iss) (instr : Instr) (b : Nat) (image : BitVec 256) (wait : Bool) : State :=
  let (id, t) := t.fresh
  let (r, t) := t.fresh
  let pasid := (s.team i.w.team).pasid
  let pa := s.bearAddr pasid b
  let l : LaneAcc := { lane := 0, va := BitVec.ofNat 64 b, pa := pa, data := image.setWidth 512 }
  let o : Op := { id := id, wave := i.w.id, entry := i.f.entry, core := i.w.core, instr := instr, size := 1, pasid := pasid, hm := i.hm
                  part := i.part, pc := i.f.pc, trec := (s.trapNow 0 i.part {}).trec, lanes := [l], out := [l], wait := wait, nout := 1 }
  let q : Req := { id := r, op := id, port := i.w.core / 8, core := i.w.core, slice := s.home pa, pa := pa, kind := .line }
  { t with ops := t.ops ++ [o], reqs := t.reqs ++ [q] }.awaitIf wait ⟨i.w.id, i.f.entry⟩ (.op id)

/-- Whether a `BRSET` image is refused (R284). -/
def imageBad (e : BitVec 256) : Bool :=
  bValid e && (decide (bKind e = 3) || decide (bPolicy e = 3) || decide (e.extractLsb' 176 75 ≠ 0)
    || (decide (bKind e = 1) && (decide (e.extractLsb' 64 96 ≠ 0) || decide (bLast e < bFirst e)))
    || (decide (bKind e = 2) && decide (e.extractLsb' 4 156 ≠ 0)))

/-- The entry that `BRSET` writes: invalid, or the image with the grid tag of the issuing wave for kind 1 (R285). -/
def imageFor (e : BitVec 256) (tag : Nat) : BitVec 256 :=
  if !bValid e then 0
  else BitVec.ofNat 256 (e.toNat - bGrid e * 2 ^ 160 + (if bKind e = 1 then tag % 2 ^ 16 * 2 ^ 160 else 0))

/-- `BRSET` (R285). -/
def execBrset (x : BrSet) (s : State) : Host.Outcome State Fault Refusal :=
  issue { ctl with srcs := [⟨x.a, 1, 1⟩, recSU x.q x.qm] } x.h (fun i s =>
    let b := (i.s64 x.a).toNat
    let e := recOf i x.q
    if s.memHeld i then .stall
    else if b = 0 ∨ 255 < b ∨ imageBad e then .trap 39 {}
    else .go fun t => t.descOp s i (.brset x) b (imageFor e (s.team i.w.team).tag) true) s

/-- `BRADD` and `BRDEL`: one indivisible change at the descriptor (R273). -/
def memberOp (add : Bool) (instr : Instr) (x : HAB) (s : State) : Host.Outcome State Fault Refusal :=
  issue { ctl with srcs := [⟨x.a, 1, 1⟩, ⟨x.b, 1, 1⟩] } x.h (fun i s =>
    let b := (i.s64 x.a).toNat
    let m := (i.s64 x.b).toNat
    if s.memHeld i then .stall
    else if b = 0 ∨ 255 < b ∨ memberBad add (s.bearing (s.team i.w.team).pasid b) m then .trap 39 {}
    else .go fun t => t.descOp s i instr b (BitVec.ofNat 256 m) true) s

/-- `BRADD` (R285). -/
def execBradd (x : HAB) (s : State) : Host.Outcome State Fault Refusal := memberOp true (.bradd x) x s

/-- `BRDEL` (R285). -/
def execBrdel (x : HAB) (s : State) : Host.Outcome State Fault Refusal := memberOp false (.brdel x) x s

/-- What a `BRRD` uses. -/
def brrdUses (x : S1) : Uses := { ctl with srcs := [⟨x.a, 1, 1⟩], ds := (List.range 4).map (x.d.toNat + ·), vl := true, owes := true }

/-- `BRRD` (R285): its four scalars fill as a load's do, and their first read is a consuming one (R33). -/
def execBrrd (x : S1) (s : State) : Host.Outcome State Fault Refusal :=
  issue (brrdUses x) x.h (fun i s =>
    let b := (i.s64 x.a).toNat
    if s.memHeld i then .stall
    else if 255 < b then .trap 39 {}
    else .go fun t => t.descOp s i (.brrd x) b 0 (i.owesEntry (brrdUses x))) s

/-- `UNPARK` (R286). -/
def execUnpark (x : Range) (s : State) : Host.Outcome State Fault Refusal := rangeWait (.unpark x) x s

/-- The access of a `PARKQ`. -/
def gaParkq (x : ParkQ) : GA :=
  { instr := .parkq x, h := x.h, r := x.r, rm := x.rm, idx := x.idx, i64 := true, off := x.off, mf := .dflt, n := 1, wr := false
    one := true, ds := [x.d.toNat] }

/-- `PARKQ` (R287). -/
def execParkq (x : ParkQ) (s : State) : Host.Outcome State Fault Refusal := GA.exec (gaParkq x) s

end Sys2Proof.Machine
end

