-- ==== Sys2Proof/Machine/Ordering.lean ====
section
/-! DEFINITION. Fences and barriers (R314 to R322), grid barriers (R335 to R337). -/

namespace Sys2Proof.Machine

/-! ### Waits -/

/-- A fragment starts a wait (R35). -/
def Frag.waitFor (k : Wait) (since : Nat) (f : Frag) : Frag := { f with st := .waiting, wait := k, since := since }

/-- The instruction being issued waits. -/
def State.waitCur (s : State) (k : Wait) : State := s.modFrag s.curRef (Frag.waitFor k s.clock)

/-- A wait is over: its fragment goes on with a region entry. -/
def State.waitOver (s : State) (r : FragRef) : State := (s.modFrag r Frag.goOn).regionEntry r

/-- The fragments of the waves `ws` whose wait satisfies `p`. -/
def State.waiters (s : State) (ws : List Nat) (p : Wait → Bool) : List FragRef :=
  ws.flatMap fun w => (((s.wave w).frags.filter fun f => p f.wait).map fun f => ⟨w, f.entry⟩)

/-- The agents of a team that have not retired. -/
def State.agents (s : State) (t : Team) : List Nat := t.waves.filter fun w => (s.wave w).live

/-! ### Fences (R318) -/

/-- `FENCE`. -/
def execFence (x : Fence) (s : State) : Host.Outcome State Fault Refusal :=
  issue ctl x.h (fun _ _ => .go fun t => t.waitCur (match x.kind with
    | .acq => .acq x.scope t.nextId
    | .rel => .rel x.scope t.nextId (.fence false)
    | .ar => .rel x.scope t.nextId (.fence true))) s

/-- Whether every load and atomic that a wave made before a point has returned. -/
def State.acqDone (s : State) (wave upto : Nat) : Bool :=
  s.ops.all fun o => o.wave != wave || decide (upto ≤ o.id) || storesOnly o.instr

/-- The end of a fence or of the acquire of a wait. -/
def State.acquired (s : State) (r : FragRef) (sc : Scope) : State :=
  (s.acquire (s.team (s.wave r.wave).team).pasid (s.wave r.wave).core sc).waitOver r

/-! ### The hardware barrier (R319) -/

/-- What a barrier instruction checks first: one live fragment, then the saturation flag (R113, R172, R317). -/
def State.barrierFirst (s : State) : Option Nat :=
  match s.converge with
  | some c => some c
  | none => if (s.wave s.cur.wave).satTraps then some 19 else none

/-- Whether an earlier `ADRAIN` of the wave may still set the saturation flag that a barrier tests under `sattrap` (R113, R186). -/
def State.satHold (s : State) : Bool :=
  let w := s.wave s.cur.wave
  s.converge.isNone && w.md.getLsbD 11 && s.ops.any fun o => o.wave == w.id && isDrain o

/-- `BAR`: a release at `.team`, then the arrival. -/
def execBar (x : H0) (s : State) : Host.Outcome State Fault Refusal :=
  issue { ctl with first := s.barrierFirst, hold := s.satHold } x.h (fun _ _ => .go fun t => t.waitCur (.rel .team t.nextId .bar)) s

/-- An agent's arrival is recorded. -/
def State.arrive (s : State) (r : FragRef) : State :=
  (s.modFrag r fun f => { f with wait := .bar }).modTeam (s.wave r.wave).team fun t => { t with bar := t.bar ++ [r.wave] }

/-- Whether every agent of the team that has not retired has arrived. -/
def State.allIn (s : State) (t : Team) (arrived : List Nat) : Bool := !arrived.isEmpty && (s.agents t).all fun w => arrived.contains w

/-- The barrier releases every arrived agent. -/
def State.barRelease (s : State) (team : Nat) : State :=
  let t := s.team team
  if !s.allIn t t.bar then s
  else
    let s := s.modTeam team fun t => { t with bar := [] }
    (s.waiters t.waves fun k => k == .bar).foldl State.waitOver s

/-! ### Barrier objects (R219, R220, R320, R321) -/

def boArrived (b : BitVec 128) : Nat := (b.extractLsb' 0 16).toNat
def boExpected (b : BitVec 128) : Nat := (b.extractLsb' 16 16).toNat
def boPhase (b : BitVec 128) : Bool := b.getLsbD 32
def boBytes (b : BitVec 128) : Nat := (b.extractLsb' 64 32).toNat

/-- The object with its arrivals, phase and byte countdown changed. -/
def boPut (b : BitVec 128) (arrived bytes : Nat) (phase : Bool) : BitVec 128 :=
  (b.extractLsb' 96 32 ++ BitVec.ofNat 32 bytes) ++ ((b.extractLsb' 33 31 ++ BitVec.ofBool phase) ++ (b.extractLsb' 16 16 ++ BitVec.ofNat 16 arrived))

/-- The update flips the phase when the arrivals are complete and no bytes are left. -/
def boFlip (b : BitVec 128) (arrived bytes : Nat) : BitVec 128 :=
  if arrived = boExpected b ∧ bytes = 0 then boPut b 0 0 (!boPhase b) else boPut b arrived bytes (boPhase b)

/-- Whether an arrival is refused. -/
def boBad (b : BitVec 128) (tx : Nat) : Bool :=
  decide (boExpected b = 0) || decide (boExpected b ≤ boArrived b) || decide (2 ^ 32 ≤ boBytes b + tx)

def State.barObj (s : State) (team o : Nat) : BitVec 128 := BitVec.ofNat 128 ((s.lmem team).num o 16)
def State.setBarObj (s : State) (team o : Nat) (b : BitVec 128) : State := s.setLmem team fun m => m.setNum o 16 b.toNat

/-- The address check of a barrier object. -/
def boAddr (o size : Nat) : Option Nat := if o % 16 ≠ 0 then some 26 else if size < o + 16 then some 27 else none

/-- `BARA`: its address is checked at issue, then it releases at `.team`. -/
def execBara (x : Bara) (s : State) : Host.Outcome State Fault Refusal :=
  issue { ctl with srcs := ⟨x.a, 1, 1⟩ :: (x.tx.toList.map fun b => ⟨b, 1, 1⟩), ds := [x.d.toNat], first := s.barrierFirst, hold := s.satHold } x.h (fun i s =>
    let o := (i.s64 x.a).toNat
    match boAddr o (s.team i.w.team).lsize with
    | some c => .trap c {}
    | none => .go fun t => t.waitCur (.rel .team t.nextId
        (.bara x.d o (match x.tx with
          | some b => (i.s64 b).toNat % 2 ^ 32
          | none => 0) (s.trapNow 41 i.part {}).trec))) s

/-- The update of a `BARA` whose release is made. -/
def State.baraUpdate (s : State) (r : FragRef) (d o tx : Nat) (trec : List DWord) : State :=
  let w := s.wave r.wave
  let b := s.barObj w.team o
  if boBad b tx then (s.modFrag r Frag.goOn).raiseSoon r { cause := 41, cls := causeClass 41, trec := trec }
  else
    let s := s.modWave r.wave fun w => w.writeS (w.inHandler r.entry) d (if boPhase b then 1 else 0)
    (s.setBarObj w.team o (boFlip b (boArrived b + 1) (boBytes b + tx))).waitOver r

/-- `BARW`: a wait while the object's phase equals the token. -/
def execBarw (x : HAB) (s : State) : Host.Outcome State Fault Refusal :=
  issue { ctl with srcs := [⟨x.a, 1, 1⟩, ⟨x.b, 1, 1⟩], first := s.barrierFirst, hold := s.satHold } x.h (fun i s =>
    let o := (i.s64 x.a).toNat
    match boAddr o (s.team i.w.team).lsize with
    | some c => .trap c {}
    | none =>
      if s.memHeld i || s.localBusy i.w false [(o, 16)] then .stall else .go fun t => t.waitCur (.barw o ((i.s64 x.b).getLsbD 0))) s

/-! ### Grid barriers (R335 to R337) -/

/-- What `GBAR` checks first (R335). -/
def State.gbarFirst (s : State) : Option Nat := if (s.team (s.wave s.cur.wave).team).cores then s.barrierFirst else some 42

/-- `GBAR`: a release at `.device`, then the arrival. -/
def execGbar (x : H0) (s : State) : Host.Outcome State Fault Refusal :=
  issue { ctl with first := s.gbarFirst, hold := s.satHold } x.h (fun _ _ => .go fun t => t.waitCur (.rel .device t.nextId .gbar)) s

/-- An agent's arrival at the grid barrier is recorded with its team. -/
def State.gbArrive (s : State) (r : FragRef) : State :=
  (s.modFrag r fun f => { f with wait := .gbar }).modTeam (s.wave r.wave).team fun t => { t with gb := t.gb ++ [r.wave] }

def State.gbar (s : State) (launch : Nat) : GBar := (s.gbars.find? fun g => g.launch == launch).getD { launch := launch }
def State.setGbar (s : State) (g : GBar) : State := { s with gbars := s.gbars.filter (fun x => x.launch ≠ g.launch) ++ [g] }

/-- The teams of a launch that have not retired. -/
def State.teamsOf (s : State) (launch : Nat) : List Team := (s.teams.map Prod.snd).filter fun t => t.launch == launch

/-- Whether a team has a core: resident, or swapped out in part. -/
def Team.onCore (t : Team) : Bool := t.loc == .resident || t.loc == .swapPart

/-- A team may send its message: all its agents have arrived, it has not sent one in this round, and it lies on a die. -/
def State.gbMayTeam (s : State) (t : Team) : Bool := Team.onCore t && !(s.core t.core).shadow.contains t.id && !t.gbSent && s.allIn t t.gb

/-- A die may send its message: every team of the grid resident on it has sent one. -/
def State.gbMayDie (s : State) (launch die : Nat) : Bool :=
  let g := s.gbar launch
  let ts := (s.teamsOf launch).filter fun t => Team.onCore t && t.core / 40 == die
  !ts.isEmpty && !g.dies.contains die && ts.all fun t => g.teams.contains t.id

/-- Agents of a team that the package has released and whose die has passed the release on. -/
def State.gbFree (s : State) (launch : Nat) : State :=
  let g := s.gbar launch
  (s.teamsOf launch).foldl (fun s t =>
    if t.gbSent && !g.teams.contains t.id && !g.rels.contains (t.core / 40) then
      let s := s.modTeam t.id fun t => { t with gb := [], gbSent := false }
      (s.waiters t.waves fun k => k == .gbar).foldl (fun s r => s.acquired r .device) s
    else s) s

/-- The package combiner holds one message from every die on which the grid has teams: the round ends and the releases set out. -/
def State.gbRound (s : State) (launch : Nat) : State :=
  let g := s.gbar launch
  let ts := s.teamsOf launch
  let dies := (ts.map fun t => t.core / 40).dedup
  if !g.teams.isEmpty && g.rels.isEmpty && ts.all (fun t => g.teams.contains t.id) && dies.all (fun d => g.dies.contains d) then
    s.setGbar { g with round := g.round + 1, teams := [], dies := [], rels := dies }
  else s

/-- A team's message reaches its die's combiner. -/
def execGridBarrierTeamMessage (team : Nat) (s : State) : Host.Outcome State Fault Refusal :=
  let t := s.team team
  if !s.gbMayTeam t then .next { s with stalled := true }
  else
    let g := s.gbar t.launch
    .next ((s.modTeam team fun t => { t with gbSent := true }).setGbar { g with teams := g.teams ++ [team] })

/-- A die's message reaches the package combiner. -/
def execGridBarrierDieMessage (launch die : Nat) (s : State) : Host.Outcome State Fault Refusal :=
  if !s.gbMayDie launch die then .next { s with stalled := true }
  else
    let g := s.gbar launch
    .next ((s.setGbar { g with dies := g.dies ++ [die] }).gbRound launch)

/-- A release reaches a die, which passes it to its teams. -/
def execGridBarrierRelease (launch die : Nat) (s : State) : Host.Outcome State Fault Refusal :=
  let g := s.gbar launch
  if !g.rels.contains die then .next { s with stalled := true }
  else .next ((s.setGbar { g with rels := g.rels.filter (· ≠ die) }).gbFree launch)

end Sys2Proof.Machine
end

