-- ==== Sys2Proof/Machine/Copy.lean ====
section
/-! DEFINITION. The copy engines (R340 to R344, R363) and timeline waits (R345). -/

namespace Sys2Proof.Machine

/-! ### `CPY` (R341) -/

/-- A side that is a pointer. -/
def ptrBad (x : DWord) : Bool := !canonical x || decide (x.toNat % 16 ≠ 0)

/-- A side that is a local offset, in a local memory of `size` bytes. -/
def sideBad (size len : Nat) (x : DWord) : Bool := decide (localSide x % 16 ≠ 0) || decide (size < localSide x + len)

/-- Whether a request raises the copy-request trap. -/
def rqBad (q : BitVec 256) (size : Nat) : Bool :=
  let n := rqLen q
  decide (rqKind q = 3) || decide (q.extractLsb' 189 67 ≠ 0) || decide (q.extractLsb' 182 4 ≠ 0) || decide (4 < rqPolicy q)
    || decide (n % 16 ≠ 0)
    || (if rqKind q = 0 then sideBad size n (rqDst q) else ptrBad (rqDst q))
    || (if rqKind q = 1 then sideBad size n (rqSrc q) else ptrBad (rqSrc q))
    || (rqBar q && (decide (rqKind q ≠ 0) || decide (rqBarrier q % 16 ≠ 0) || decide (size < rqBarrier q + 16)))

/-- `CPY`: the request is read and checked at issue; then a release, then a place in the queue. Its scalar is empty until it has its number
(R94). -/
def execCpy (x : Cpy) (s : State) : Host.Outcome State Fault Refusal :=
  issue { ctl with srcs := [⟨x.a, 1, 1⟩, ⟨x.b, 1, 1⟩], ds := [x.d.toNat], vl := true, owes := true } x.h (fun i s =>
    let a := (i.s64 x.a).toNat
    let c := (i.s64 x.b).toNat
    let size := (s.team i.w.team).lsize
    let q := BitVec.ofNat 256 ((s.lmem i.w.team).num a 32)
    if a % 32 ≠ 0 then .trap 26 {}
    else if size < a + 32 then .trap 27 {}
    else if 63 < c then .trap 43 {}
    else if s.memHeld i || s.localBusy i.w false [(a, 32)] then .stall
    else if rqBad q size then .trap 44 {}
    else .go fun t => t.waitCur (.rel x.scope t.nextId (.cpy x.d c q))) s

/-- The requests of a core's queue that the engine has not started. -/
def State.queued (s : State) (core : Nat) : List Copy := s.copies.filter fun c => c.core == core && !c.running && !c.away

/-- Whether a core's copy engine works in this clock: not in a switch or at power state 3, and in one clock of 2 or 4 at states 1 and 2 (R422, R437). -/
def State.engineOn (s : State) (core : Nat) : Bool := s.mayIssue core && s.coreClock

/-- A request is accepted where the queue has room: it takes its number, which goes to the scalar (R339, R341). -/
def State.acceptCopy (s : State) (r : FragRef) (d c : Nat) (q : BitVec 256) : State :=
  let w := s.wave r.wave
  if Config.copyQueue ≤ (s.queued w.core).length then s
  else
    let t := s.team w.team
    let k := ((s.ctx t.pasid).tlc c).i + 1
    let (id, s) := s.fresh
    let y : Copy := { id := id, core := w.core, team := t.id, pasid := t.pasid, rq := q, c := c, k := k, gtag := t.tag, tidx := t.idx }
    let s := { s with copies := s.copies ++ [y] }.modTL t.pasid c TL.take
    (s.modWave r.wave fun w =>
      let hm := w.inHandler r.entry
      w.setS hm d { w.sreg hm d with val := BitVec.ofNat 64 k, dead := false, kill := false, st := .full }).waitOver r

/-! ### The engine (R342 to R344) -/

/-- Whether the head of a core's queue may start: a request with a local side needs one of the 16 scoreboard entries (R221); requests of a
team that is being saved are not started (R356). -/
def State.mayStart (s : State) (core : Nat) : Option Copy :=
  if !s.engineOn core then none
  else match (s.queued core).filter fun c => (s.team c.team).loc != .displaced with
  | c :: _ => if (rqLocal c.rq).isSome && decide (Config.scoreboard ≤ (s.entries core).length) then none else some c
  | [] => none

def State.modCopy (s : State) (id : Nat) (f : Copy → Copy) : State :=
  { s with copies := s.copies.map fun c => if c.id = id then f c else c }

/-- The engine starts the head request. -/
def execCopyStart (core : Nat) (s : State) : Host.Outcome State Fault Refusal :=
  match s.mayStart core with
  | some c => .next (s.modCopy c.id fun c => { c with running := true })
  | none => .next { s with stalled := true }

/-- A global side of a piece: its physical address, refused, or a translation that is awaited. -/
inductive CopyX where
  | at (pa : Nat)
  | refused (cause : Nat)
  | stall (s : State)

/-- Translating a global side. A missing page sends a page request and stalls this request only. -/
def State.copyX (s : State) (c : Copy) (va : DWord) (wr : Bool) : CopyX :=
  let page := low57 va / 4096
  if c.bad.contains page then .refused 35
  else match (s.atcOf (c.core / 40) c.pasid (low57 va)).filter fun e => (if wr then e.wr else e.rd) || !e.again with
    | none =>
      let (i, s) := s.askAts (c.core / 40) c.pasid page
      .stall (s.modCopy c.id fun c => { c with wait := c.wait ++ [i] })
    | some e =>
      if if wr then e.wr else e.rd then
        let pa := e.addr (low57 va)
        if s.kindOf pa = .reserved then .refused 34
        else if wr && (s.ctx c.pasid).sealed va then .refused 31 else .at pa
      else if s.priOn then .stall ((s.askPage c.pasid page).modCopy c.id fun c => { c with pwait := c.pwait ++ [page] })
      else .refused 35

/-- The engine reads 16 bytes at the point of order, as a read of the issuing core (R269, R281): the bytes and whether they are poisoned. -/
def State.copyRead (s : State) (c : Copy) (pa : Nat) : State × Except Nat (List Byte × Bool) :=
  let a : Asker := { pasid := c.pasid, core := c.core, tag := c.gtag, idx := c.tidx }
  let s := (s.recall pa).useCheck a pa
  match s.refuses a pa with
  | some _ => (s, .error 37)
  | none =>
    let out (s : State) (bs : List Byte) (po : Bool) : State × Except Nat (List Byte × Bool) :=
      (if po then s.logPoison pa else s, .ok (if po then List.replicate 16 0 else bs, po))
    match s.chartOf pa with
    | some e =>
      let b := s.readerBytes e c.core (pa / 32 * 32)
      out s ((b.1.drop (pa % 32)).take 16) b.2
    | none => match if s.l2Holds pa then none else s.cut pa with
      | some p => (s.logLink p, .ok (List.replicate 16 0, true))
      | none =>
        let s := if rqPolicy c.rq = 4 then s else s.fetchSector c.pasid pa (decide (rqPolicy c.rq = 2 ∨ rqPolicy c.rq = 3))
        let s := s.noteUse c.pasid none pa
        out s (s.peeks pa 16) (s.poisoned pa)

/-- The first error of a request, and the lowest cause recorded. -/
def Copy.fail (cause : Nat) (c : Copy) : Copy := if c.err = 0 then { c with err := cause } else c

/-- The countdown on the barrier object after a local write of 16 bytes (R343). -/
def State.countdown (s : State) (c : Copy) : State :=
  if !rqBar c.rq then s
  else
    let o := rqBarrier c.rq
    let b := s.barObj c.team o
    let s := s.setBarObj c.team o (boFlip b (boArrived b) (boBytes b - 16))
    if boBytes b < 16 then s.modCopy c.id (Copy.fail 41) else s

/-- The policy of a request's global side. -/
def polOf (n : Nat) : Policy := if n = 1 then .cb else if n = 2 then .ev else if n = 3 then .lu else if n = 4 then .na else .normal

/-- The writes of a piece: local bytes with their countdown, or global bytes at the point of order, which unpark a parked line. A poisoned
source writes zero locally and poisons the sector globally (R344). Bytes that a lost link drops are not counted (R403, R417). -/
def State.copyWrite (s : State) (c : Copy) (dst : Option Nat) (bs : List Byte) (po : Bool) : State :=
  let counted (s : State) : State := s.count (cKey c.core 4) 16
  match dst with
  | none => ((counted s).setLmem c.team fun m => putBytes m (addrs (localSide (rqDst c.rq) + c.done) bs)).countdown c
  | some pa =>
    let s := (((s.recall pa).plainStore c.pasid (polOf (rqPolicy c.rq)) 0 pa (addrs pa bs))).noteUse c.pasid (some c.id) pa
    if (s.dropsAt pa).isSome then s else if po then (counted s).setPoison pa true else counted s

/-- One piece of 16 bytes in ascending order: read, checked and written. -/
def State.copyPiece (s : State) (c : Copy) : State :=
  let off := BitVec.ofNat 64 c.done
  let src : CopyX := if rqKind c.rq = 1 then .at 0 else s.copyX c (rqSrc c.rq + off) false
  let dst : CopyX := if rqKind c.rq = 0 then .at 0 else s.copyX c (rqDst c.rq + off) true
  let step (f : Copy → Copy) (s : State) : State := s.modCopy c.id fun c => f { c with done := c.done + 16 }
  match src, dst with
  | .stall s, _ => s
  | _, .stall s => s
  | .refused e, _ => step (Copy.fail e) s
  | _, .refused e => step (Copy.fail e) s
  | .at a, .at b =>
    let r : State × Except Nat (List Byte × Bool) :=
      if rqKind c.rq = 1 then (s, .ok ((List.range 16).map fun k => (s.lmem c.team).get (localSide (rqSrc c.rq) + c.done + k), false))
      else s.copyRead c a
    match r with
    | (s, .error e) => step (Copy.fail e) s
    | (s, .ok (bs, po)) =>
      let s := s.copyWrite c (if rqKind c.rq = 0 then none else some b) bs po
      step (if po then Copy.fail 18 else id) s

/-- Whether a started request has a piece to move now. -/
def Copy.moves (c : Copy) : Bool := c.running && !c.away && c.wait.isEmpty && c.pwait.isEmpty && decide (c.done < rqLen c.rq)

/-- A piece of a request is moved. -/
def execCopyLocalWrite (id : Nat) (s : State) : Host.Outcome State Fault Refusal :=
  match s.copies.find? fun c => c.id == id with
  | some c => if c.moves && s.engineOn c.core then .next (s.copyPiece c) else .next { s with stalled := true }
  | none => .next { s with stalled := true }

/-- A request whose writes are all performed retires: a release at `.system`, its error, its number (R339, R342, R344). -/
def execCopyRetirement (id : Nat) (s : State) : Host.Outcome State Fault Refusal :=
  match s.copies.find? fun c => c.id == id with
  | some c =>
    if c.running && !c.away && decide (rqLen c.rq ≤ c.done) && s.engineOn c.core then
      let s := { s.cleanRemote .system c.id with copies := s.copies.filter fun x => x.id ≠ id }
      .next (s.modTL c.pasid c.c fun t => TL.retire c.k (if c.err = 0 then t else t.error s.clock c.k c.err))
    else .next { s with stalled := true }
  | none => .next { s with stalled := true }

/-! ### `TLWAIT` (R345) -/

/-- `TLWAIT`. -/
def execTlwait (x : TlOp) (s : State) : Host.Outcome State Fault Refusal :=
  issue { ctl with srcs := [⟨x.a, 1, 1⟩, ⟨x.b, 1, 1⟩] } x.h (fun i s =>
    let c := (i.s64 x.a).toNat
    if 63 < c then .trap 43 {}
    else .go fun t => t.waitCur (.tlwait x.scope c (i.s64 x.b).toNat (s.trapNow 45 i.part {}).trec)) s

/-- The end of a `TLWAIT`: its acquire and region entry, then the copy-error cause where an operation it waited for failed. -/
def State.tlOver (s : State) (r : FragRef) (sc : Scope) (c n : Nat) (trec : List DWord) : State :=
  let t := (s.ctx (s.team (s.wave r.wave).team).pasid).tlc c
  let s := s.acquired r sc
  if t.e = 0 ∨ n < t.e then s
  else
    let x : Trap := { cause := 45, cls := .a, trec := (trec.set 13 (BitVec.ofNat 64 (c + t.ecause * 2 ^ 8))).set 14 (BitVec.ofNat 64 t.e) }
    s.modFrag r fun f => { f with late := f.late ++ [x] }

end Sys2Proof.Machine
end

