-- ==== Sys2Proof/Machine/Queues.lean ====
section
/-! DEFINITION. Role queues (R360 to R362, R370) and `SPAWN` (R358, R359, R369). -/

namespace Sys2Proof.Machine

/-! ### Role queues -/

/-- The lanes of the instruction being issued that take part. -/
def State.curPart (s : State) (h : Hdr) : Mask :=
  let w := s.wave s.cur.wave
  partOf w (w.inHandler s.cur.entry) (w.frag s.cur.entry) h

def State.curTeam (s : State) : Team := s.team (s.wave s.cur.wave).team

/-- `QPUSH`: blocking as `MOV` to the queue; `.nb` never waits and says in its predicate whether it pushed. -/
def execQpush (x : QPush) (s : State) : Host.Outcome State Fault Refusal :=
  match x.nb with
  | none => issue { srcs := [su false x.a], push := some x.q.toNat, cls := .onceConf } x.h (fun i _ => .go fun t =>
      t.pushQueue i.w i.part x.q.toNat (i.v32 x.a)) s
  | some g =>
    let ok := decide ((s.curTeam.queue x.q.toNat).length < 8)
    issue { srcs := [su false x.a], ps := [g.toNat], entry := ok && decide (s.curPart x.h ≠ 0), cls := .onceConf } x.h (fun i s =>
      if i.part ≠ 0 ∧ Tab.get? s.curTeam.prod x.q.toNat ≠ some i.w.role then .trap 46 {}
      else .go fun t =>
        (if ok then t.pushQueue i.w i.part x.q.toNat (i.v32 x.a) else t).putP i g fun _ => ok) s

/-- A popped entry fills its register when its reply returns: a pop is a variable-latency producer (R94), and outside a handler its completion is a
region entry, for which its fragment waits (R33, R361). -/
def State.popReply (t : State) (x : QPop) (i : Iss) (e : Lanes) : State :=
  if i.part = 0 then t
  else t.localReply i (.qpop x) ((lanesOf i.part).map fun l => { lane := l, va := 0, data := (laneAt e l).setWidth 512 }) (!i.hm)

/-- `QPOP`: blocking as `MOV` from the queue; `.nb` never waits and never faults, and leaves its register full with its old values where the
queue is empty. -/
def execQpop (x : QPop) (s : State) : Host.Outcome State Fault Refusal :=
  match x.nb with
  | none => issue { srcs := [su false (.q x.q x.empt)], dv := [x.d.toNat], vl := true, owes := true, cls := .once } x.h (fun i _ => .go fun t => t.popReply x i i.q) s
  | some g =>
    let ok := !(s.curTeam.queue x.q.toNat).isEmpty
    issue { dv := [x.d.toNat], ps := [g.toNat], vl := ok, owes := true, entry := ok && decide (s.curPart x.h ≠ 0), cls := .once } x.h (fun i s => .go fun t =>
      (match s.curTeam.queue x.q.toNat with
        | e :: r => if i.part = 0 then t
          else (t.modTeam i.w.team fun k => { k with q := Tab.set k.q x.q.toNat r }).popReply x i (i.w.entryLanes e)
        | [] => if i.part = 0 then t else t.modWave i.w.id fun w => w.fillAll i.hm [x.d.toNat] []).putP i g fun _ => ok) s

/-- What `QCNT` reads: the count, gone, no producer, and the producer's role. -/
def State.queueState (s : State) (t : Team) (q : Nat) : Nat :=
  let role := Tab.get? t.prod q
  (t.queue q).length + (if s.prodGone t q then 2 ^ 8 else 0) + (if role.isNone then 2 ^ 9 else 0) + role.getD 0 * 2 ^ 16

/-- `QCNT`. -/
def execQcnt (x : QCnt) (s : State) : Host.Outcome State Fault Refusal :=
  issue { ctl with ds := [x.d.toNat] } x.h (fun i s => .go fun t => t.modWave i.w.id fun w =>
    w.writeS i.hm x.d.toNat (BitVec.ofNat 64 (s.queueState s.curTeam x.q.toNat))) s

/-! ### Tasks -/

def tkCode (q : BitVec 256) : Nat := (q.extractLsb' 0 32).toNat
def tkX (q : BitVec 256) : Nat := (q.extractLsb' 128 16).toNat
def tkY (q : BitVec 256) : Nat := (q.extractLsb' 144 16).toNat
def tkZ (q : BitVec 256) : Nat := (q.extractLsb' 160 16).toNat
def tkCtr (q : BitVec 256) : Nat := (q.extractLsb' 176 6).toNat
def tkTl (q : BitVec 256) : Bool := q.getLsbD 183
def tkArgs (q : BitVec 256) : DWord := q.extractLsb' 192 64

/-- An argument block pointer (R351, R359). -/
def argsBad (a : DWord) : Bool := !canonical a || decide (a.toNat % 8 ≠ 0)

/-- Whether a task record is refused. -/
def taskBad (c : Ctx) (q : BitVec 256) : Bool :=
  decide (q.extractLsb' 32 96 ≠ 0) || q.getLsbD 182 || decide (q.extractLsb' 184 8 ≠ 0)
    || decide (tkX q = 0) || decide (tkY q = 0) || decide (tkZ q = 0) || argsBad (tkArgs q)
    || (match c.obj? (tkCode q) with
      | some o => o.cores
      | none => true)

/-- `SPAWN`: its record and depth are checked at issue; then a release at `.device`, then an entry of the task queue. -/
def execSpawn (x : Spawn) (s : State) : Host.Outcome State Fault Refusal :=
  issue { ctl with srcs := [recSU x.r x.rm], ds := [x.d.toNat] } x.h (fun i s =>
    let q := recOf i x.r
    let t := s.curTeam
    if taskBad (s.ctx t.pasid) q then .trap 48 {}
    else if t.depth = 8 then .trap 49 {}
    else .go fun u => u.waitCur (.rel .device u.nextId (.spawn x.d q))) s

/-- The entry that a task of a depth may take: a shared one (`some false`), its depth's reserved one (`some true`), or none. -/
def Part.taskEntry (p : Part) (depth : Nat) : Option Bool :=
  if (p.tasks.filter fun k => !k.res).length < 4088 then some false
  else if p.tasks.any fun k => k.res && k.depth == depth then none else some true

/-- A released `SPAWN` enters the device task queue where an entry is free: its number, its root queue, its scalar. -/
def State.enqueueTask (s : State) (r : FragRef) (d : Nat) (q : BitVec 256) : State :=
  let t := s.team (s.wave r.wave).team
  match (s.part t.part).taskEntry (t.depth + 1) with
  | none => s
  | some res =>
    let k := if tkTl q then ((s.ctx t.pasid).tlc (tkCtr q)).i + 1 else 0
    let s := if tkTl q then s.modTL t.pasid (tkCtr q) TL.take else s
    let y : Task := { rq := q, pasid := t.pasid, depth := t.depth + 1, k := k, rootQ := t.rootQ, res := res }
    let s := s.modPart t.part fun p => { p with tasks := p.tasks ++ [y] }
    (s.modWave r.wave fun w => w.writeS (w.inHandler r.entry) d (BitVec.ofNat 64 k)).waitOver r

end Sys2Proof.Machine
end

