-- ==== Sys2Proof/Machine/Fetch.lean ====
section
/-! DEFINITION. Fetching an instruction (R28, R47 to R52, R224, R240) and decoding it in the fragment's surroundings (R66 to R68, R80, R81). -/

namespace Sys2Proof.Machine

/-- The code range that bounds a fragment (R51). -/
def Wave.codeRange (w : Wave) (e : Nat) : Nat × Nat :=
  match w.h with
  | some h => if h.entry = e then (h.lo, h.hi) else (w.base, w.limit)
  | none => (w.base, w.limit)

/-- What a fetch at a PC meets: a translation that is missing, a fault, or the bytes up to the end of the fetch block. -/
inductive Fetch where
  | miss
  | fault (why : FetchFail)
  | word (w : BitVec 128)
  deriving DecidableEq, Repr

/-- The line of a core's cluster's instruction cache that holds an address. -/
def State.codeLine (s : State) (core pa : Nat) : Option Line := (findLine s.icache (core / 8) pa).filter fun l => l.has pa

/-- Eight code bytes, through the cluster's instruction cache; a miss reads them after the recall that `State.fetchFill` makes (R290). -/
def State.codeBytes (s : State) (core pa : Nat) : List Byte :=
  match s.codeLine core pa with
  | some l => (List.range 8).map fun k => l.byte (pa + k)
  | none => (s.recall pa).peeks pa 8

/-- Whether the fetched sector is poisoned, or its link lost. -/
def State.codePoison (s : State) (core pa : Nat) : Bool :=
  match s.codeLine core pa with
  | some l => l.poison.getLsbD (pa % 128 / 32)
  | none => (!s.l2Holds pa && (s.cut pa).isSome) || (s.recall pa).poisoned pa

/-- The eight bytes at an address of a fragment's code range: PC-wrap and fetch-bounds first (R66), then translation, then the bytes. -/
def State.fetch8 (s : State) (w : Wave) (e pc : Nat) : Fetch :=
  let r := w.codeRange e
  if 2 ^ 57 ≤ pc then .fault .pcWrap
  else if pc < r.1 ∨ r.2 ≤ pc then .fault .fetchBounds
  else match s.atcOf (w.core / 40) (s.team w.team).pasid pc with
    | none => .miss
    | some x =>
      let pa := x.addr pc
      if !x.rd then .miss
      else if s.kindOf pa = .reserved then .fault .addressMap
      else if s.codePoison w.core pa then .fault .dataError
      else .word (BitVec.ofNat 128 (leNat (s.codeBytes w.core pa)))

/-- The fetch of a fragment's next instruction: the bytes of its form (R47). -/
def State.fetch (s : State) (w : Wave) (f : Frag) : Fetch :=
  match s.fetch8 w f.entry f.pc with
  | .word lo =>
    if stepOf (w.mode f.entry) lo = 8 then .word lo
    else match s.fetch8 w f.entry (f.pc + 8) with
      | .word hi => .word (hi.setWidth 64 ++ lo.setWidth 64)
      | .fault .pcWrap => .fault .fetchBounds
      | x => x
  | x => x

/-- A fetch that misses the instruction cache fills its line and counts a schedule slip (R28, R403). -/
def State.fetchFill (s : State) (w : Wave) (f : Frag) : State :=
  match s.atcOf (w.core / 40) (s.team w.team).pasid f.pc with
  | none => s
  | some e =>
    let pa := e.addr f.pc
    match s.codeLine w.core pa with
    | some _ => s
    | none => (s.icFill (w.core / 8) pa).count (qKey w.core w.q 3) 1

/-- What the decoder reads of a fragment's surroundings. -/
def Wave.env (w : Wave) (f : Frag) : Env :=
  { mode := w.mode f.entry, vN := w.vN, sN := w.sN, tN := w.tN, handler := w.inHandler f.entry, bound := w.mx.isSome, pcMod32 := f.pc % 32 }

/-- The instruction that a fetch gives: a failed fetch or decode raises its cause (R66). -/
def Fetch.instr (x : Fetch) (e : Env) : Option Instr :=
  match x with
  | .miss => none
  | .fault why => some (.unimplementedOpcode why)
  | .word w => match decode e w with
    | .ok i => some i
    | .error why => some (.unimplementedOpcode why)

/-- The bits of a fetch and its step. -/
def Fetch.bits (x : Fetch) : BitVec 128 := match x with
  | .word w => w
  | _ => 0

/-- The machine with a fragment's instruction being issued. -/
def State.issuing (s : State) (w : Wave) (f : Frag) (x : Fetch) : State :=
  { s with cur := { wave := w.id, entry := f.entry, word := x.bits, step := stepOf (w.mode f.entry) x.bits }, stalled := false }

/-- The cause of a failed fetch or decode (R66, R212, R240). -/
def fetchCause : FetchFail → Nat
  | .pcWrap => 1 | .fetchBounds => 2 | .illegalLength => 4 | .blockCrossing => 5 | .nullOpcode => 6 | .unimplemented => 7
  | .illegalOperand => 8 | .reservedField => 9 | .addressMap => 34 | .dataError => 36

/-- Whether the format of the instruction was known, so that its operand fields are recorded (R387). -/
def formatKnown : FetchFail → Bool
  | .pcWrap => false | .fetchBounds => false | .addressMap => false | .dataError => false
  | _ => true

/-- The PC-wrap fault of a fragment whose last instruction stood at the end of the address space records that instruction (R52). -/
def State.wrapTrap (s : State) (w : Wave) (f : Frag) : Trap :=
  let pc := f.pc - 2 ^ 57
  let x := (s.fetch w { f with pc := pc }).bits
  { cause := 1, cls := .f, trec := trapRecord w f (w.mode f.entry) x (stepOf (w.mode f.entry) x) pc 1 f.mask {} }

/-- The address that a failed fetch of memory records: that of the eight bytes that failed (R387). -/
def State.fetchAddr (s : State) (w : Wave) (f : Frag) (why : FetchFail) : DWord :=
  if why = .addressMap ∨ why = .dataError then
    (match s.fetch8 w f.entry f.pc with
    | .word _ => toPtr (f.pc + 8)
    | _ => toPtr f.pc)
  else 0

/-- The lanes that take part in a failed fetch or decode: those that the guard of the word admits where it has been fetched, else the whole fragment
(R59, R387). -/
def State.failLanes (s : State) (w : Wave) (f : Frag) (why : FetchFail) : Mask :=
  let g := guardOf (w.mode f.entry) s.cur.word
  if formatKnown why then partOf w (w.inHandler f.entry) f { form := .f64, gneg := g.1, gp := g.2 } else f.mask

/-- `UNIMPLEMENTED_OPCODE`: the fragment raises the cause of its failed fetch or decode, whatever its guard (R66). -/
def execUnimplementedOpcode (why : FetchFail) (s : State) : Host.Outcome State Fault Refusal :=
  let w := s.wave s.cur.wave
  let f := s.frag s.curRef
  match why with
  | .pcWrap => .next (s.raise s.curRef (s.wrapTrap w f))
  | why => .next (s.trap (fetchCause why) (s.failLanes w f why) { known := formatKnown why, addr := s.fetchAddr w f why })

end Sys2Proof.Machine
end

