-- ==== Sys2Proof/Machine/Proposal.lean ====
section
/-! DEFINITION. The proposal bank (R188 to R205) and the generator (R206, R207, R209). -/

namespace Sys2Proof.Machine

/-! ### The quarter's file (R79, R82) -/

/-- The 2 KiB units of a quarter's vector file in use: budgets and tiles of resident wave slots, and shadows. -/
def State.unitsUsed (s : State) (core q : Nat) : Nat :=
  let ws := (s.waves.map Prod.snd).filter fun w => w.here && w.core == core && w.q == q
  let slots := (ws.map Wave.slot).dedup
  (slots.map fun k => match ws.find? fun w => w.slot == k with
    | some w => w.vN / 8 + w.tN
    | none => 0).sum + (ws.map fun w => match w.prop with
    | some p => p.n / 8
    | none => 0).sum

def State.unitsFree (s : State) (core q : Nat) : Nat := Config.fileUnits - s.unitsUsed core q

/-! ### The generator (R206) -/

def drawRound (k : Nat → Word) (i : Nat) (x : Word × Word × Word × Word) : Word × Word × Word × Word :=
  let (x0, x1, x2, x3) := x
  let x0 := x0 + x1 + k (i % 4)
  let x3 := (x3 ^^^ x0).rotateLeft 16
  let x2 := x2 + x3 + k ((i + 2) % 4)
  let x1 := (x1 ^^^ x2).rotateLeft 12
  let x0 := x0 + BitVec.ofNat 32 ((i + 1) * 0x5C13A7E9)
  let x3 := (x3 ^^^ x0).rotateLeft 8
  let x2 := x2 + x3
  let x1 := (x1 ^^^ x2).rotateLeft 7
  (x0, x1, x2, x3)

/-- `Draw` (R206). -/
def draw (lo hi : DWord) (lane : Nat) (c : DWord) : Word :=
  let k (j : Nat) : Word := ((if j < 2 then lo else hi) >>> (32 * (j % 2))).setWidth 32
  let (x0, x1, x2, x3) := (List.range 8).foldl (fun x i => drawRound k i x)
    (c.setWidth 32, (c >>> 32).setWidth 32, BitVec.ofNat 32 lane, 0x9B4F2C61)
  (x0 + x2) ^^^ x1 ^^^ x3

/-- A lane's draw: its place in the native slot (R206). -/
def Wave.drawOf (w : Wave) (l : Nat) : Word := draw w.keyLo w.keyHi (if w.w32 then 32 * w.half + l else l) (w.ctr l)

/-- Counters of the lanes that draw advance by 1. -/
def Wave.advance (w : Wave) (part : Mask) : Wave :=
  (lanesOf part).foldl (fun w l => { w with rngctr := Tab.set w.rngctr l (w.ctr l + 1) }) w

/-- `RNG` (R207). -/
def execRng (x : Rng) (s : State) : Host.Outcome State Fault Refusal :=
  issue (laneUses .vec false (.v x.d x.m) []) x.h (fun i _ => .go fun t =>
    let v (l : Nat) : Word :=
      let k := i.w.drawOf l
      if x.f32 then BitVec.ofNat 32 (roundNum fp32 0 (.fin false (2 * (k >>> 9).toNat + 1) (-24))) else k
    (t.putDst i (.v x.d x.m) v).modWave i.w.id fun w => w.advance i.part) s

/-- `RNGKEY`. -/
def execRngkey (x : HAB) (s : State) : Host.Outcome State Fault Refusal :=
  issue { ctl with srcs := [⟨x.a, 1, 1⟩, ⟨x.b, 1, 1⟩] } x.h (fun i _ => .go fun t =>
    t.modWave i.w.id fun w => { w with keyLo := i.s64 x.a, keyHi := i.s64 x.b }) s

/-- `RNGCTR`. -/
def execRngctr (x : HA) (s : State) : Host.Outcome State Fault Refusal :=
  issue { srcs := [⟨x.a, 2, 1⟩] } x.h (fun i _ => .go fun t => t.modWave i.w.id fun w =>
    (lanesOf i.part).foldl (fun w l => { w with rngctr := Tab.set w.rngctr l (i.w.ctr l + i.v64 x.a l) }) w) s

/-! ### The window -/

def Proposal.regs (p : Proposal) : List Nat := (List.range p.n).map (p.base + ·)

/-- The checks of R209 for `ACCEPT` and `REJECT`. -/
def State.closeCheck (s : State) : Option Nat :=
  let w := s.wave s.cur.wave
  if w.w32 then some 23
  else if 1 < w.frags.length then some 14
  else if w.inHandler s.cur.entry || w.prop.isNone then some 23 else none

/-- The checks of R209 for `PROPOSE`. -/
def State.openCheck (s : State) : Option Nat :=
  let w := s.wave s.cur.wave
  if w.w32 then some 13
  else if 1 < w.frags.length then some 14
  else if w.inHandler s.cur.entry || w.prop.isSome then some 23 else none

/-- `PROPOSE` (R188 to R191, R209): not ready while a window register is empty or the quarter lacks units (R82). -/
def execPropose (x : Propose) (s : State) : Host.Outcome State Fault Refusal :=
  issue { ctl with entry := true, first := s.openCheck } x.h (fun i s =>
    let n := 8 * 2 ^ x.size.toNat
    let p : Proposal := { base := x.base.toNat, n := n, prim := (List.range n).map fun j => (j, (i.w.vreg (x.base.toNat + j)).st) }
    if p.regs.any (fun r => (i.w.vreg r).st = .empty) || decide (s.unitsFree i.w.core i.w.q < n / 8) then .stall
    else .go fun t => t.modWave i.w.id fun w => { w with prop := some p }) s

/-- A window register at the close (R194 to R196): lanes that are taken and written commit their shadow. Their pending kills stand: the commit is no
write that cancels one (log entry 64). -/
def Wave.closeReg (w : Wave) (p : Proposal) (take : Mask) (j : Nat) : Wave :=
  let n := p.base + j
  let r := w.vreg n
  let m := take &&& p.wbits j
  let st := if m ≠ 0 ∧ r.st = .full then .full else Tab.getD .full p.prim j
  (w.setV n { r with val := mergeLanes m (p.shad j) r.val, dead := r.dead &&& ~~~m, st := st }).dirtySlots n none

/-- Closing the proposal. -/
def Wave.close (w : Wave) (take : Mask) : Wave :=
  match w.prop with
  | none => w
  | some p => { (List.range p.n).foldl (fun w j => w.closeReg p take j) w with prop := none }

/-- Whether a lane accepts (R194). -/
def Iss.takes (i : Iss) (a : Src) (l : Nat) : Bool := acceptNum (i.v32 a l) (i.w.drawOf l) (toReal fp32 (i.v32 a l).toNat)

/-- A count that saturates at its top. -/
def addSat32 (x : BitVec 32) (n : Nat) : BitVec 32 := BitVec.ofNat 32 (min (x.toNat + n) (2 ^ 32 - 1))

/-- The window registers of the issuing wave's proposal. -/
def State.winRegs (s : State) : List Nat := match (s.wave s.cur.wave).prop with
  | some p => p.regs
  | none => []

/-- `ACCEPT` (R194, R200, R209). -/
def execAccept (x : Accept) (s : State) : Host.Outcome State Fault Refusal :=
  issue { srcs := [su false x.a], ps := [x.pd.toNat], entry := true, first := s.closeCheck, win := s.winRegs } x.h (fun i _ =>
    match i.w.prop with
    | none => .trap 23 {}
    | some _ => .go fun t => t.modWave i.w.id fun w =>
        let take := maskOf (fun l => i.part.getLsbD l && i.takes x.a l)
        let w := (w.advance i.part).setP i.hm x.pd.toNat i.part take
        let w : Wave := { w with acc := addSat32 w.acc (popMask take), rej := addSat32 w.rej (popMask i.part - popMask take) }
        w.close take) s

/-- `REJECT` (R196, R197, R200). -/
def execReject (x : H0) (s : State) : Host.Outcome State Fault Refusal :=
  issue { ctl with entry := true, first := s.closeCheck } x.h (fun i _ =>
    match i.w.prop with
    | none => .trap 23 {}
    | some p =>
      if p.regs.any fun r => (i.w.vreg r).st = .empty then .stall
      else .go fun t => t.modWave i.w.id fun w => w.close 0) s

end Sys2Proof.Machine
end

