-- ==== Sys2Proof/Machine/Images.lean ====
section
/-! DEFINITION. Saving and restoring waves and teams: the size of a wave image (R396), what a save keeps (R36, R96, R97, R394, R398),
swap-outs (R22 to R24) and restores (R25, R357, R373). Images are held as the waves themselves (log entry 10). -/

namespace Sys2Proof.Machine

/-! ### Sizes (R396) -/

/-- A section starts at a multiple of 64 bytes. -/
def sect (n : Nat) : Nat := (n + 63) / 64 * 64

/-- Whether a vector register is dead in every lane. -/
def Wave.deadV (w : Wave) (n : Nat) : Bool := decide ((w.vreg n).dead &&& fullOf w.w32 = fullOf w.w32)

/-- Whether every lane that a register's view shows is dead: an open proposal's shadow lanes are not (R90, R192). -/
def Wave.deadView (w : Wave) (n : Nat) : Bool := decide (w.deadLanes n &&& fullOf w.w32 = fullOf w.w32)

/-- Whether a vector register is dead in every lane of both halves. -/
def deadAll (hs : List Wave) (n : Nat) : Bool := hs.all fun w => w.deadV n

/-- Whether an operation's cause has been raised and holds its lanes: in the handler, or trap-pending (R384, R394). -/
def Wave.raisedOn (w : Wave) (id : Nat) : Bool := w.h.bind HCtx.op == some id || w.frags.any fun f => match f.st with
  | .pending t => t.op == some id
  | _ => false

/-- The fragments of a wave that hold an instruction: parked, trap-pending on one, or in a handler that keeps one. -/
def Wave.holding (w : Wave) : List Frag := w.frags.filter fun f => (match f.st with
  | .parked _ => true
  | .pending t => t.op.isSome
  | _ => false) || (w.inHandler f.entry && (w.h.bind HCtx.op).isSome)

/-- The sections of the image of a wave slot in order, one wave or two half-waves: each with its number and size. Section 2 lists 40 bytes, and the
member's N, H and recorded N of R96 take the other 24 (log entry 50). -/
def imageSections (hs : List Wave) : List (Nat × Nat) :=
  let w := hs.headD { id := 0, team := 0, num := 0 }
  let per (k : Nat) (f : Wave → Nat) : List (Nat × Nat) := hs.map fun h => (k, f h)
  let whole (k : Nat) (b : Bool) (n : Nat) : List (Nat × Nat) := if b then [(k, n)] else []
  let live (h : Wave) : Nat := ((List.range h.sN).filter fun n => !(Tab.getD {} h.s n).dead).length
  let vs := (List.range w.vN).filter fun n => !deadAll hs n
  let held := (hs.flatMap Wave.holding).length
  [(1, 64)] ++ per 2 (fun _ => 64) ++ per 3 (fun h => 768 * h.frags.length) ++ per 4 (fun h => if h.w32 then 60 else 120) ++ per 5 (fun _ => 16)
    ++ per 6 (fun h => h.sN + 8 * live h) ++ per 7 (fun h => 2 * 8 * (if h.w32 then 32 else 64))
    ++ [(8, 16 * w.vN), (9, (w.vN + w.sN * hs.length + 7) / 8), (10, 256 * vs.length)]
    ++ whole 11 (decide (0 < w.tN)) (2048 * w.tN) ++ whole 12 w.mx.isSome 32768
    ++ (match w.prop with
      | some p => [(13, p.n * 264 + 2)]
      | none => [])
    ++ whole 14 (hs.any fun h => h.h.isSome) (256 * (hs.filter fun h => h.h.isSome).length) ++ whole 15 (decide (0 < held)) (1600 * held)

/-- The size in bytes of an image whose sections each start at a multiple of 64. -/
def sectionsSize (ss : List (Nat × Nat)) : Nat := (ss.map fun x => sect x.2).sum

/-- Where each section starts, with its number. -/
def sectionStarts (ss : List (Nat × Nat)) : List (Nat × Nat) :=
  (ss.foldl (fun (a : List (Nat × Nat) × Nat) x => (a.1 ++ [(x.1, a.2)], a.2 + sect x.2)) ([], 0)).1

/-- The size in bytes of the image of a wave slot (R396): one wave, or two half-waves. -/
def imageSize (hs : List Wave) : Nat := sectionsSize (imageSections hs)

/-! ### The header of an image (R397) -/

/-- The window of a wave's open proposal as the header holds it: its base, its size code (R208) and the window registers whose primary
state is poisoned (R191). -/
def Wave.windowField (w : Wave) : Nat := match w.prop with
  | some p =>
    let code := match p.n with
      | 8 => 0
      | 16 => 1
      | _ => 2
    let pois := ((List.range p.n).map fun j => if Tab.getD .full p.prim j = .poison then 2 ^ j else 0).sum
    pois * 2 ^ 160 + p.base * 2 ^ 120 + code * 2 ^ 118
  | none => 0

/-- The header of the image of a wave slot (R397): one wave, or two half-waves. -/
def imageHeader (hs : List Wave) : BitVec 512 :=
  let w := hs.headD { id := 0, team := 0, num := 0 }
  let flag (k : Nat) (b : Bool) : Nat := if b then 2 ^ k else 0
  let heldAny := !(hs.flatMap Wave.holding).isEmpty
  BitVec.ofNat 512 (w.windowField + imageSize hs * 2 ^ 128 + w.frags.length * 2 ^ 104 + flag 103 heldAny + flag 102 (hs.any fun w => w.h.isSome)
    + flag 101 w.prop.isSome + flag 100 w.mx.isSome + flag 99 w.w32 + w.num * 2 ^ 64 + w.tN * 2 ^ 59 + w.sN / 8 * 2 ^ 54
    + w.vN / 8 * 2 ^ 48 + w.role * 2 ^ 46 + w.q * 2 ^ 44 + w.slot * 2 ^ 40)

/-! ### Saving -/

/-- A saved register is full or poisoned (R96): one whose view is dead in every lane is full (R91, R191), and one empty with no producer, which
`FEMARK` marked so, is full (log entry 51). `keep` says that an instruction which is kept fills it. -/
def savedState (dead keep : Bool) (st : RegState) : RegState :=
  if keep then st else if dead || st == .empty then .full else st

/-- What a deschedule leaves of a wave's registers: latches and slot lanes invalid, written bits clear (R97); `vs` and `ss` are filled by kept
instructions. -/
def Wave.saved (w : Wave) (vs ss : List Nat) : Wave :=
  let sv (e : Nat × SReg) : Nat × SReg := (e.1, { e.2 with st := savedState e.2.dead (ss.contains e.1) e.2.st })
  { w with
    la := { w.la with valid := 0 }, lb := { w.lb with valid := 0 }, hla := {}, hlb := {}
    o := w.o.map fun (e : Nat × Slot) => (e.1, { e.2 with valid := 0 })
    v := w.v.map fun (e : Nat × VReg) => (e.1, { e.2 with wir := false, st := savedState (w.deadView e.1) (vs.contains e.1) e.2.st })
    s := w.s.map sv, hs := w.hs.map sv }

/-- The registers that instructions kept by a save will fill: parked operations, and a `CPY` that waits (R35, R293). -/
def State.keptDst (s : State) (id : Nat) : List Nat × List Nat :=
  let ds := (s.ops.filter fun o => o.wave == id && !o.dead).map fun o => memDst o.instr
  let cs := (s.wave id).frags.filterMap fun f => match f.wait with
    | .rel _ _ (.cpy d _ _) => some d.toNat
    | .cpyq d _ _ => some d.toNat
    | _ => none
  (ds.flatMap Prod.fst, ds.flatMap Prod.snd ++ cs)

def State.keeps (s : State) (id : Nat) : Bool := match s.op? id with
  | some o => globalAtomic o.instr
  | none => false

/-- A fragment goes back to its restart point, giving up the operation it holds and every other with refused lanes, but global atomics (R293, R394). -/
def State.backToRestart (s : State) (r : FragRef) (op : Option Nat) : State :=
  ((match op with
    | some o => s.abandon o
    | none => s).giveUp r fun o => globalAtomic o.instr).modWave r.wave fun w => w.restart r.entry

/-- A pre-emption ends what is left of a `YIELD` or `SLEEP` (R130). -/
def Frag.awake (f : Frag) : Frag :=
  if f.wait = .yield ∨ f.wait = .sleep then { f with st := .running, wait := .none, wake := 0 } else f

/-- Whether a fragment stands in a wait under R35: not replay-parked but on a global atomic (R293), nor in the access of an instruction that is no wait,
nor in a `YIELD` or `SLEEP`. -/
def State.inWait (s : State) (f : Frag) : Bool :=
  let of (id : Nat) : Bool := (s.op? id).any fun o => opWaits o.instr
  match f.st, f.wait with
  | .parked id, _ => s.keeps id
  | .waiting, .op id => of id
  | .waiting, .xlate id => of id
  | .waiting, .rel _ _ (.send id) => of id
  | .waiting, .none => false
  | .waiting, .yield => false
  | .waiting, .sleep => false
  | .waiting, _ => true
  | _, _ => false

/-- The image holds the entry copy and the recorded counters of a fragment in handler mode that stands in no wait (R204). -/
def State.stopHandler (s : State) (r : FragRef) : State :=
  if s.inWait (s.frag r) then s else s.modWave r.wave fun w => w.undraw r.entry (w.frag r.entry).lanes

/-- A pre-emption of one fragment (R36, R37, R394): a fragment in a wait or in handler mode stays, one held on a global atomic keeps
its lanes and its cause, every other goes back to its restart point; that ends a `YIELD` or `SLEEP` (R130). -/
def State.stopFrag (s : State) (r : FragRef) : State :=
  let w := s.wave r.wave
  let f := w.frag r.entry
  if w.inHandler r.entry then (s.stopHandler r).modFrag r Frag.awake
  else if f.capt.isSome then s
  else match f.st with
    | .parked id => if s.keeps id then s else s.backToRestart r (some id)
    | .pending t => match t.op with
      | some id => if s.keeps id then s else s.backToRestart r (some id)
      | none => s.backToRestart r none
    | .waiting => match f.wait with
      | .rel _ _ (.send id) => if s.keeps id then s else s.backToRestart r (some id)
      | .xlate id => if s.keeps id then s else s.backToRestart r (some id)
      | .op id => if s.keeps id || !s.refusedOnly id then s else s.backToRestart r (some id)
      | .yield => (s.backToRestart r none).modFrag r fun f => { f with wake := 0 }
      | .sleep => (s.backToRestart r none).modFrag r fun f => { f with wake := 0 }
      | _ => s
    | _ => s.backToRestart r none

def State.stopWave (s : State) (id : Nat) : State :=
  let s := (s.wave id).frags.foldl (fun s f => s.stopFrag ⟨id, f.entry⟩) s
  let k := s.keptDst id
  s.modWave id fun w => w.saved k.1 k.2

/-- Whether an operation still has something in flight. -/
def Op.inFlight (o : Op) : Bool := decide (0 < o.nout) || !o.xw.isEmpty || !o.held.isEmpty

/-- Whether a deschedule of the waves has nothing to wait for (R96, R178, R356): no producer, exchange, tile fill, started copy or
running matrix step. -/
def State.quiet (s : State) (team : Nat) : Bool :=
  let ws := (s.team team).waves
  (s.ops.all fun o => !(ws.contains o.wave && o.inFlight)) && (s.mail.all fun x => !ws.contains x.wave)
    && (ws.all fun w => (s.wave w).tfill.isEmpty) && (s.copies.all fun c => !(c.team == team && c.running))
    && (s.team team).quads.all fun q => q.ops.all fun o => !o.busy

/-- The whole team is saved and joins the tail of its partition's re-admission queue (R356 steps 4 and 5). -/
def State.saveTeam (s : State) (team : Nat) : State :=
  let t := s.team team
  let s := (s.agents t).foldl State.stopWave s
  let s : State := { s with waves := s.waves.map fun (e : Nat × Wave) => if t.waves.contains e.1 then (e.1, { e.2 with away := true, swapped := false }) else e }
  let mine := s.copies.filter fun c => c.team == team
  let s : State := { s with copies := s.copies.filter fun c => c.team != team }
  let s := s.modTeam team fun t => { t with loc := .queued, copies := mine }
  s.modPart t.part fun p => { p with readmit := p.readmit ++ [team], headAt := if p.readmit.isEmpty then s.clock else p.headAt }

/-! ### Images of teams and cores (R398, R399) -/

/-- The waves of a team, a half that has retired beside a live one among them, by wave number in ascending order: the wave slots of a team image. -/
def State.teamSlots (s : State) (t : Team) : List (List Wave) :=
  let ws := t.waves.map s.wave
  let nums := (((ws.filter Wave.live).map Wave.num).dedup).insertionSort (· ≤ ·)
  nums.map fun n => ws.filter fun w => w.num == n

/-- The parts of a team image in order with their sizes: the header, the arrival sets of the hardware and grid barriers, four role queues, the
quads, the unstarted copy requests, local memory, and the wave images in ascending wave number. -/
def State.teamSections (s : State) (t : Team) : List (Nat × Nat) :=
  let bound := ((t.waves.map s.wave).filter fun w => w.live && w.mx.isSome).length
  [(1, 64), (2, 8), (3, 8), (4, 4 * (1 + 8 * 256))]
    ++ [(5, 64 * (t.quads.flatMap Quad.ops).length + 24 * bound), (6, 32 * t.copies.length), (7, t.lsize)]
    ++ (s.teamSlots t).map fun hs => (8, imageSize hs)

/-- The header of a team image (R398): the manual places none of its fields. -/
structure TeamHeader where
  tag        : Nat
  index      : Nat
  waves      : Nat
  relaunch   : Nat
  lsize      : Nat
  relaunched : Bool
  coresident : Bool
  deriving DecidableEq, Repr

/-- The contents of a team image (R398) in order, as bytes where the manual lays them out: the arrival set with bit w for team wave w, the queues with
their counts, the copy requests with their counters, local memory, and of each wave image the header and the sections (log entry 10). -/
structure TeamImage where
  header   : TeamHeader
  barrier  : List Byte
  gbArrived : List Nat
  gbRound  : Nat
  queues   : List (List Byte)
  quads    : List QuadOp
  numbers  : List (Nat × Nat × Nat × Nat)
  requests : List (List Byte × Nat)
  lmem     : List Byte
  waves    : List (BitVec 512 × List (Nat × Nat))
  deriving DecidableEq, Repr

/-- One role queue as its image holds it: a count, then eight entries of 64 lanes, 0 beyond the count (R360, R398). -/
def queueBytes (es : List Lanes) : List Byte :=
  leBytes 1 es.length ++ (List.range 8).flatMap fun k => (List.range 64).flatMap fun l => leBytes 4 (laneAt (es.getD k []) l).toNat

/-- The image of a team (R398): what a save writes to its partition's save area (R356). Its pending operation records are those of quad operations; an
`AZERO` or `AMOV` that is pending is the member's own and stays with its wave (log entry 72). -/
def State.teamImage (s : State) (t : Team) : TeamImage :=
  let ws := t.waves.map s.wave
  { header := { tag := t.tag, index := t.idx, waves := (ws.map Wave.num).dedup.length, relaunch := t.relaunch, lsize := t.lsize
                relaunched := decide (0 < t.relaunch), coresident := t.cores }
    barrier := leBytes 8 ((((t.bar.map fun w => (s.wave w).num).dedup).map fun n => 2 ^ n).sum)
    gbArrived := t.gb, gbRound := (s.gbar t.launch).round
    queues := (List.range 4).map fun q => queueBytes (t.queue q)
    quads := t.quads.flatMap Quad.ops
    numbers := (ws.filter Wave.live).filterMap fun w => w.mx.map fun m => (w.num, m.n, m.h, m.recN)
    requests := t.copies.map fun c => (leBytes 32 c.rq.toNat, c.c)
    lmem := t.lmem.bytes 0 t.lsize
    waves := (s.teamSlots t).map fun hs => (imageHeader hs, sectionStarts (imageSections hs)) }

/-- The parts of a core image: offset and size of the vector files, local memory, L1 park ways, scalar files, accumulators, and the rest. -/
def coreSections : List (Nat × Nat) :=
  [(0x000000, 0x100000), (0x100000, 0x60000), (0x160000, 0x40000), (0x1A0000, 0x20000), (0x1C0000, 0x20000), (0x1E0000, 0x20000)]

/-! ### Slots and entries -/

/-- The wave slots of a quarter in use. -/
def State.slotsUsed (s : State) (core q : Nat) : List Nat :=
  ((s.waves.filter fun e => e.2.here && e.2.core == core && e.2.q == q).map fun e => e.2.slot).dedup

/-- The lowest free wave slot of a quarter (R21). -/
def State.freeSlot (s : State) (core q : Nat) : Option Nat :=
  let used := s.slotsUsed core q
  (List.range Config.wavesPerQuarter).find? fun k => !used.contains k

/-- The waves in a wave slot: one, or the two halves. -/
def State.slotMates (s : State) (w : Wave) : List Wave :=
  (s.waves.map Prod.snd).filter fun x => x.live && x.team == w.team && x.num == w.num

/-- Entries for `n` fragments of a wave restored to a slot: its reserved entries first, then the lowest shared ones (R29, R373). -/
def State.entriesFor (s : State) (core q slot : Nat) (w : Wave) (n : Nat) : Option (List Nat) :=
  let used := s.entriesUsed core q
  let own := if !w.w32 then [2 * slot, 2 * slot + 1]
    else (2 * slot + w.half) :: (if (s.slotMates w).length = 1 then [2 * slot + 1 - w.half] else [])
  let free := (own ++ (List.range 32).map (32 + ·)).filter fun e => !used.contains e
  if n ≤ free.length then some (free.take n) else none

/-- The fragments of a wave take new entries in their creation order; what names an entry follows. -/
def State.rename (s : State) (id : Nat) (es : List Nat) : State :=
  let w := s.wave id
  let fs := w.frags.insertionSort fun a b => a.born ≤ b.born
  let new (e : Nat) : Nat := match (fs.map Frag.entry).zip es |>.find? fun x => x.1 == e with
    | some x => x.2
    | none => e
  let s := s.modWave id fun w => { w with
    frags := w.frags.map fun f => { f with entry := new f.entry }
    h := w.h.map fun h => { h with entry := new h.entry } }
  { s with ops := s.ops.map fun o => if o.wave = id then { o with entry := new o.entry } else o }

/-- A saved wave takes a slot of a core. -/
def State.seat (s : State) (id core slot : Nat) : State :=
  let w := s.wave id
  match s.entriesFor core w.q slot w w.frags.length with
  | none => s
  | some es =>
    let s := s.rename id es
    let s := s.modWave id fun w => { w with core := core, slot := slot, swapped := false, away := false }
    { s with ops := s.ops.map fun o => if o.wave = id then
        { o with core := core, phase := if o.phase = .parked ∨ (o.phase = .sent ∧ !o.absent.isEmpty) then
            (if (s.wave id).raisedOn o.id then o.phase else .xlate) else o.phase } else o }

/-- A core's ordinary L1 lines are invalidated before a wave resumes on it, and its fills in flight install nothing (R327). -/
def State.dropL1 (s : State) (core : Nat) : State :=
  { s with l1 := s.l1.filter fun l => !(l.loc == core && l.kind == LineKind.ordinary) }.markCore core

/-! ### Swap (R22 to R25) -/

/-- A wait that a swap-out may interrupt (R23). -/
def swapWait : Wait → Bool
  | .bar => true
  | .barw _ _ => true
  | .gbar => true
  | .tlwait _ _ _ _ => true
  | .pop _ => true
  | _ => false

/-- Whether a wave may be swapped out (R23), with nothing in flight (R96). -/
def State.swappable (s : State) (w : Wave) : Bool :=
  w.here && (s.team w.team).loc != .displaced && (w.frags.all fun f => f.st == .waiting && swapWait f.wait && decide (f.since + Config.swapWait ≤ s.clock))
    && w.h.isNone && w.prop.isNone && w.tfill.isEmpty && (match w.mx with
      | some m => m.pend.isEmpty && ((s.team w.team).quads.all fun q => q.first != m.first || q.ops.all fun o => !o.busy)
      | none => true)
    && (s.ops.all fun o => o.wave != w.id) && s.mail.all fun x => x.wave != w.id

/-- The clock since which a wave has waited. -/
def waitedSince (hs : List Wave) : Nat := (hs.flatMap Wave.frags).foldl (fun m f => max m f.since) 0

/-- The candidates of a quarter, longest waiting first, as groups of the waves in one slot. -/
def State.swapCandidates (s : State) (core q : Nat) : List (List Wave) :=
  let firsts := (s.waves.map Prod.snd).filter fun w => w.here && w.core == core && w.q == q && (match (s.slotMates w).head? with
    | some x => x.id == w.id
    | none => false)
  ((firsts.map s.slotMates).filter fun hs => hs.all s.swappable).insertionSort fun a b => waitedSince a ≤ waitedSince b

/-- The waves that the image of a wave slot holds: of two half-waves one that has retired too (R396). -/
def State.imageMates (s : State) (hs : List Wave) : List Wave := match hs with
  | w :: _ => (s.waves.map Prod.snd).filter fun x => x.team == w.team && x.num == w.num
  | [] => []

/-- The swapped slots of a core: those of a tenant in shadow storage are not in the reserve (R399). -/
def State.swappedSlots (s : State) (core : Nat) : List (List Wave) :=
  let firsts := (s.waves.map Prod.snd).filter fun w => w.live && w.swapped && !w.away && w.core == core && (match (s.slotMates w).head? with
    | some x => x.id == w.id
    | none => false)
  firsts.map s.slotMates

/-- Whether a core's swap reserve takes one more image (R22, R24). -/
def State.reserveTakes (s : State) (core : Nat) (hs : List Wave) : Bool :=
  let held := s.swappedSlots core
  let kib := match s.partOfCore core with
    | some p => (s.part p).swap
    | none => 0
  let size (hs : List Wave) : Nat := imageSize (s.imageMates hs)
  decide (held.length < 32) && decide ((held.map size).sum + size hs ≤ 1024 * kib)

/-- The waves of a slot are swapped out, their core's reductions performed before (R327); their team is swapped in part (R376). -/
def State.swapOut (s : State) (hs : List Wave) : State :=
  let s := match hs with
    | w :: _ => s.mergeCore w.core
    | [] => s
  let s := hs.foldl (fun s w => s.modWave w.id fun w => { w.saved [] [] with swapped := true }) s
  match hs with
  | w :: _ => s.modTeam w.team fun t => { t with loc := .swapPart }
  | [] => s

/-- A swapped wave is due when its wait is satisfied (R25). -/
def waveDue (w : Wave) : Bool := w.live && w.swapped && !w.away && w.frags.any fun f => f.st != .waiting

/-- Whether a quarter has units, a slot and split entries for the waves of a slot (R18, R373). -/
def State.slotRoom (s : State) (hs : List Wave) : Bool :=
  match hs with
  | [] => false
  | w :: _ => decide (w.vN / 8 + w.tN ≤ s.unitsFree w.core w.q) && (match s.freeSlot w.core w.q with
    | none => false
    | some k =>
      let free := ([2 * k, 2 * k + 1] ++ (List.range 32).map (32 + ·)).filter fun e => !(s.entriesUsed w.core w.q).contains e
      decide ((hs.map fun w => w.frags.length).sum ≤ free.length))

/-- Room made for a due slot by swapping candidates out, longest waiting first (R25); one whose image the reserve cannot take is passed over (log entry
58). -/
def State.makeRoom (hs : List Wave) : List (List Wave) → State → Option State
  | [], s => if s.slotRoom hs then some s else none
  | c :: r, s =>
    if s.slotRoom hs then some s
    else State.makeRoom hs r (if s.reserveTakes (hs.headD { id := 0, team := 0, num := 0 }).core c then s.swapOut c else s)

/-- A due wave's way back: the state with room for it, none where it has to wait; a wave of a team that is being saved stays (R356). -/
def State.returnRoom (s : State) (id : Nat) : Option State :=
  let w := s.wave id
  if !waveDue w || (s.team w.team).loc == .displaced then none
  else State.makeRoom (s.slotMates w) (s.swapCandidates w.core w.q) s

/-- `SWAP_RETURN`: a due wave takes a slot of its quarter again (R25). -/
def execSwapReturn (wave : Nat) (s : State) : Host.Outcome State Fault Refusal :=
  match s.returnRoom wave with
  | none => .next { s with stalled := true }
  | some s =>
    let hs := s.slotMates (s.wave wave)
    let w := s.wave wave
    match s.freeSlot w.core w.q with
    | none => .next { s with stalled := true }
    | some k =>
      let s := hs.foldl (fun s h => s.seat h.id w.core k) (s.dropL1 w.core)
      let still := (s.team w.team).waves.any fun x => (s.wave x).live && (s.wave x).swapped
      .next (if still then s else s.modTeam w.team fun t => { t with loc := .resident })

end Sys2Proof.Machine
end

