-- ==== Sys2Proof/Machine/Distributor.lean ====
section
/-! DEFINITION. The distributor: its reads of memory (R351, R413), what fits where (R18 to R20), wave start (R14, R15, R21), intake
(R352, R353), placement (R354, R357), quantum ticks (R357) and swap-outs for a team (R24). -/

namespace Sys2Proof.Machine

/-! ### The distributor's reads -/

/-- The pages of a range of virtual bytes. -/
def pagesOf (va : DWord) (n : Nat) : List Nat :=
  let a := low57 va
  if n = 0 then [] else (List.range ((a + n - 1) / 4096 + 1 - a / 4096)).map (a / 4096 + ·)

/-- A page that the distributor cannot read yet. -/
def State.unread (s : State) (pasid : Nat) (va : DWord) (n : Nat) : List Nat :=
  (pagesOf va n).filter fun p => (s.xlateAny pasid (p * 4096)).isNone

/-- Whether a request for one of the pages is outstanding. -/
def State.asked (s : State) (pasid : Nat) (ps : List Nat) : Bool :=
  (s.ats.any fun a => a.pasid == pasid && ps.contains a.page) || s.pages.any fun p => p.pasid == pasid && ps.contains p.page

/-- Whether a byte would have to come over a lost link (R417). -/
def State.lost (s : State) (pa : Nat) : Bool := (s.cut pa).isSome && !s.l2Holds pa

/-- Bytes of a context's virtual memory at their points of order, none where a page is not translated; a read over a lost link ends with no byte of the
peer (R417, log entry 66). Those of a poisoned sector are read as they
are: R240 names the accesses that consume poison, and the distributor's is none of them (log entry 49). -/
def State.distRead (s : State) (pasid : Nat) (va : DWord) (n : Nat) : Option (List Byte) :=
  if (s.unread pasid va n).isEmpty then
    some ((List.range n).map fun k =>
      let pa := (s.xlateAny pasid (low57 va + k)).getD 0
      if s.lost pa then Config.lostByte pa else s.peek pa)
  else none

/-- The records of the lines that a read of the distributor does not get over a lost link (R417). -/
def State.distLost (s : State) (pasid : Nat) (va : DWord) (n : Nat) : State :=
  ((((List.range n).filterMap fun k => s.xlateAny pasid (low57 va + k)).filter s.lost).map fun pa => pa / 128 * 128).dedup.foldl
    (fun s pa => match s.cut pa with
      | some p => s.logLink p
      | none => s) s

/-- The lines of a range of virtual bytes for which a core holds an update-only line: they are recalled before the distributor reads (R290). -/
def State.distStale (s : State) (pasid : Nat) (va : DWord) (n : Nat) : List Nat :=
  (((List.range n).filterMap fun k => s.xlateAny pasid (low57 va + k)).map fun pa => pa / 128 * 128).dedup.filter fun pa => !(s.updateCores pa).isEmpty

/-- A translation request of the distributor or of a fetch: a missing page will be asked of the host. -/
def State.askFor (s : State) (die pasid page : Nat) : State :=
  let (id, s) := s.askAts die pasid page
  { s with ats := s.ats.map fun a => if a.id = id then { a with dist := true } else a }

def State.distAsk (s : State) (pasid : Nat) (va : DWord) (n : Nat) : State :=
  (s.unread pasid va n).foldl (fun s p => if s.asked pasid [p] then s else s.askFor 0 pasid p) s

/-! ### What fits (R18 to R20) -/

/-- The role of each wave of a team, with its index (R14). -/
def Obj.waveRoles (o : Obj) : List (Nat × Role) :=
  ((List.range o.roles.length).zip o.roles).flatMap fun r => List.replicate r.2.waves r

/-- The waves of a team that go to a quarter, with their team wave numbers. -/
def Obj.quarter (o : Obj) (q : Nat) : List (Nat × Nat × Role) :=
  ((List.range o.waveRoles.length).zip o.waveRoles).filter fun w => w.1 % 4 == q

/-- The 2 KiB units a team needs in a quarter (R79). -/
def Obj.units (o : Obj) (q : Nat) : Nat := ((o.quarter q).map fun w => w.2.2.vgran + w.2.2.tiles).sum

/-- Local memory in pages of 1 KiB (R211). -/
def localPages (n : Nat) : Nat := (n + 1023) / 1024

/-- What a core has free: units and wave slots of each quarter, and pages of local memory. -/
structure Room where
  units : List Nat
  slots : List Nat
  pages : Nat
  deriving DecidableEq, Repr

/-- An empty core of a partition. -/
def State.emptyRoom (s : State) (part core : Nat) : Room :=
  { units := List.replicate 4 Config.fileUnits, slots := List.replicate 4 Config.wavesPerQuarter
    pages := Config.localBytes / 1024 - (s.part part).swap - (s.core core).pages }

/-- Whether a team occupies local memory of a core. -/
def State.occupies (s : State) (t : Team) (core : Nat) : Bool :=
  t.core == core && (t.loc == .resident || t.loc == .swapPart || t.loc == .displaced) && !(s.core core).shadow.contains t.id

/-- What a core has free now. -/
def State.room (s : State) (part core : Nat) : Room :=
  { units := (List.range 4).map fun q => s.unitsFree core q
    slots := (List.range 4).map fun q => Config.wavesPerQuarter - (s.slotsUsed core q).length
    pages := (s.emptyRoom part core).pages - ((s.teams.filter fun t => s.occupies t.2 core).map fun t => localPages t.2.lsize).sum }

/-- Whether a team of an object fits (R18). -/
def Room.fits (r : Room) (o : Obj) : Bool :=
  decide (localPages o.lsize ≤ r.pages) && (List.range 4).all fun q =>
    decide (o.units q ≤ r.units.getD q 0) && decide ((o.quarter q).length ≤ r.slots.getD q 0)

/-- What is left after placing a team. -/
def Room.less (r : Room) (o : Obj) : Room :=
  { units := (List.range 4).map fun q => r.units.getD q 0 - o.units q
    slots := (List.range 4).map fun q => r.slots.getD q 0 - (o.quarter q).length
    pages := r.pages - localPages o.lsize }

def Room.total (r : Room) : Nat := r.units.sum

/-- The core with the most free vector file, the lowest among equals (R19). -/
def bestRoom (rs : List (Nat × Room)) : Option (Nat × Room) :=
  rs.foldl (fun b r => match b with
    | none => some r
    | some x => if x.2.total < r.2.total then some r else some x) none

/-- A fragment stands at a `PROPOSE` whose units its quarter lacks (R82). -/
def State.proposeHolds (s : State) (core : Nat) : Bool :=
  (s.waves.map Prod.snd).any fun w => w.here && w.core == core && w.frags.any fun f => f.st == .running &&
    (match (s.fetch w f).instr (w.env f) with
      | some (.propose x) => decide (s.unitsFree core w.q < 2 ^ x.size.toNat)
      | _ => false)

/-- Cores of a partition on which teams may be placed: not fenced, not being vacated, no due wave waiting to return (R25), no restore
and no `PROPOSE` holding placement back. -/
def State.openCores (s : State) (part : Nat) : List Nat :=
  (List.range Config.cores).filter fun c =>
    s.partOfCore c == some part && !(s.core c).fenced && !(s.core c).vacating && !s.proposeHolds c &&
      !(s.waves.any fun w => waveDue w.2 && w.2.core == c)

/-- The cores that R18 leaves for the partition with all its cores empty. -/
def State.ownCores (s : State) (part : Nat) : List Nat :=
  (List.range Config.cores).filter fun c => s.partOfCore c == some part && !(s.core c).fenced && !(s.core c).vacating

/-- Placing `n` teams in order, each on the best core it fits: their cores, none if one fits nowhere (R17, R19, R20). -/
def placeAll (o : Obj) : Nat → List (Nat × Room) → Option (List Nat)
  | 0, _ => some []
  | n + 1, rs =>
    match bestRoom (rs.filter fun r => r.2.fits o) with
    | none => none
    | some (c, _) => (placeAll o n (rs.map fun r => if r.1 = c then (c, r.2.less o) else r)).map (c :: ·)

/-- How many teams of an object an empty core takes; at most its 64 wave slots. -/
def Room.capacity (r : Room) (o : Obj) : Nat :=
  ((List.range 65).foldl (fun (x : Nat × Room) _ => if x.2.fits o then (x.1 + 1, x.2.less o) else x) (0, r)).1

/-- Whether a co-resident launch could be placed whole on the partition with all its cores empty (R20). -/
def State.fitsEmpty (s : State) (part : Nat) (o : Obj) (n : Nat) : Bool :=
  decide (n ≤ ((s.ownCores part).map fun c => (s.emptyRoom part c).capacity o).sum)

/-! ### Wave start (R14, R15, R21) -/

/-- The producers of the role queues (R14). -/
def Obj.producers (o : Obj) : Tab Nat :=
  (List.range 4).flatMap fun q => match ((List.range o.roles.length).zip o.roles).find? fun r => r.2.prod.getLsbD q with
    | some r => [(q, r.1)]
    | none => []

/-- A wave, or a half-wave, at its start. -/
def startWave (t : Team) (o : Obj) (args : List Byte) (id num half core slot role : Nat) (r : Role) : Wave :=
  let n := min (min o.nargs (8 * r.sgran)) 32
  let pc := o.base + r.entry
  let m := fullOf o.w32
  { id := id, team := t.id, num := num, half := half, core := core, q := num % 4, slot := slot, role := role, w32 := o.w32, dm := o.dm
    vN := 8 * r.vgran, sN := 8 * r.sgran, tN := r.tiles, obj := o.handle, base := o.base, limit := o.base + o.csize, md := o.mode
    s := (List.range n).map fun k => (k, { val := BitVec.ofNat 64 (leNat ((args.drop (8 * k)).take 8)), dead := false })
    frags := [{ entry := 2 * slot + half, pc := pc, mask := m, rpc := pc, rmask := m, rctr := (lanesOf m).map fun i => (i, 0) }] }

/-- All waves of a team start in one clock on a core; the teams of a task start with an acquire at `.device` (R359). -/
def State.startTeam (s : State) (t : Team) (o : Obj) (core : Nat) (args : List Byte) (task : Bool) : State :=
  let t : Team := { t with core := core, loc := .resident, placed := s.clock, lsize := o.lsize, prod := o.producers, nroles := o.roles.length
                           cores := o.cores }
  let s : State := { s with teams := Tab.set s.teams t.id t }
  let s := ((List.range o.waveRoles.length).zip o.waveRoles).foldl (fun s w =>
    match s.freeSlot core (w.1 % 4) with
    | none => s
    | some k => ((List.range (if o.w32 then 2 else 1)).foldl (fun s h =>
        let (id, s) := s.fresh
        let x := startWave t o args id w.1 h core k w.2.1 w.2.2
        { s with waves := s.waves ++ [(id, x)] }.modTeam t.id fun t => { t with waves := t.waves ++ [id] }) s)) s
  if task then s.acquire t.pasid core .device else s

/-! ### Intake (R259, R351 to R353) -/

def lrTag (q : BitVec 512) : DWord := q.extractLsb' 0 64
def lrCode (q : BitVec 512) : Nat := (q.extractLsb' 64 32).toNat
def lrX (q : BitVec 512) : Nat := (q.extractLsb' 128 32).toNat
def lrY (q : BitVec 512) : Nat := (q.extractLsb' 160 32).toNat
def lrZ (q : BitVec 512) : Nat := (q.extractLsb' 192 32).toNat
def lrArgs (q : BitVec 512) : DWord := q.extractLsb' 256 64
/-- An enabled dependence: its counter and value. -/
def lrDep (q : BitVec 512) (i : Nat) : Option (Nat × Nat) :=
  if q.getLsbD (231 + 8 * i) then some ((q.extractLsb' (224 + 8 * i) 6).toNat, (q.extractLsb' (320 + 64 * i) 64).toNat) else none
def lrAction (q : BitVec 512) : Option (Nat × Nat) :=
  if q.getLsbD 247 then some ((q.extractLsb' 240 6).toNat, (q.extractLsb' 448 64).toNat) else none
def lrReserved (q : BitVec 512) : Bool :=
  q.getLsbD 230 || q.getLsbD 238 || q.getLsbD 246 || decide (q.extractLsb' 249 7 ≠ 0) || decide (q.extractLsb' 96 32 ≠ 0)

/-- The cause for which a launch record is refused (R352, R364). -/
def State.refusesLaunch (s : State) (part pasid : Nat) (q : BitVec 512) : Option Nat :=
  if lrReserved q then some 1
  else if lrX q = 0 ∨ lrY q = 0 ∨ lrZ q = 0 ∨ 2 ^ 32 < lrX q * lrY q * lrZ q then some 2
  else if argsBad (lrArgs q) then some 3
  else match (s.ctx pasid).obj? (lrCode q) with
    | none => some 4
    | some o => if o.cores && !s.fitsEmpty part o (lrX q * lrY q * lrZ q) then some 5 else none

/-- Whether each enabled dependence holds (R352). -/
def State.depsHold (s : State) (pasid : Nat) (q : BitVec 512) : Bool :=
  [0, 1].all fun i => match lrDep q i with
    | some (c, n) => decide (n ≤ ((s.ctx pasid).tlc c).v)
    | none => true

/-- Where a queue's record `rd` lies. -/
def LQueue.headVa (x : LQueue) : DWord := BitVec.ofNat 64 (x.base + 64 * (x.rd % 2 ^ x.size))

/-- The state of a queue's head. -/
inductive Head where
  | none
  | unread
  | refused (cause : Nat) (tag : DWord)
  | ready (q : BitVec 512)
  | waits

/-- The head of an enabled queue (R352). -/
def State.head (s : State) (part : Nat) (x : LQueue) : Head :=
  if !x.en || x.rd == x.wr then .none
  else match s.distRead x.pasid x.headVa 64 with
    | none => .unread
    | some bs =>
      let q := BitVec.ofNat 512 (leNat bs)
      match s.refusesLaunch part x.pasid q with
      | some c => .refused c (lrTag q)
      | none => if s.depsHold x.pasid q then .ready q else .waits

/-- A queue's descriptor in device DRAM, where its register is valid (R348, R420). -/
def LQueue.desc (x : LQueue) : Nat := (x.reg.extractLsb' 6 34).toNat * 64

/-- A record leaves the queue: `rd` advances, in the descriptor too, whose line is recalled first (R290). -/
def State.advanceRd (s : State) (part q : Nat) : State :=
  let x := (s.part part).queue q
  let s := s.distLost x.pasid x.headVa 64
  let n := (x.rd + 1) % 2 ^ 64
  ((s.recall x.desc).modQueue part q fun x => { x with rd := n }).pokeNum (x.desc + 40) 8 n

/-- The next grid tag of a context (R259). -/
def State.takeTag (s : State) (pasid : Nat) : Nat × State :=
  let n := (s.ctx pasid).nextTag
  (n, s.modCtx pasid fun c => { c with nextTag := (n + 1) % 2 ^ 16 })

/-- A launch or task enters the dispatch queue. -/
def State.letIn (s : State) (l : Launch) : State :=
  let (id, s) := s.fresh
  let (tag, s) := s.takeTag l.pasid
  let l := { l with id := id, gtag := tag, since := s.clock }
  { s with launches := s.launches ++ [l] }.modPart l.part fun p => { p with dispatch := p.dispatch ++ [id] }

/-- Whether a queue has a launch or a rooted task still unfinished (R350, R365). -/
def State.queueBusy (s : State) (part q : Nat) : Bool :=
  (s.launches.any fun l => l.part == part && l.queue == some q) || (s.part part).tasks.any fun t => t.rootQ == some q

/-- A ready head is taken. -/
def State.takeLaunch (s : State) (part q : Nat) (r : BitVec 512) : State :=
  let x := (s.part part).queue q
  let s := if s.queueBusy part q then s else s.modQueue part q fun x => { x with timer := 0 }
  let s := (s.advanceRd part q).modPart part fun p => { p with served := Tab.set p.served x.prio q }
  s.letIn { id := 0, part := part, pasid := x.pasid, queue := some q, tag := lrTag r, obj := lrCode r, gx := lrX r, gy := lrY r, gz := lrZ r
            args := (lrArgs r).toNat, evt := r.getLsbD 248, cact := lrAction r }

/-- The task that is taken next: the deepest first, the oldest among them (R353). -/
def nextTask (ts : List Task) : Option Task :=
  ts.foldl (fun b t => match b with
    | none => some t
    | some x => if x.depth < t.depth then some t else some x) none

/-- A task is taken. -/
def State.takeTask (s : State) (part : Nat) (t : Task) : State :=
  let s := s.modPart part fun p => { p with tasks := p.tasks.erase t }
  s.letIn { id := 0, part := part, pasid := t.pasid, queue := t.rootQ, obj := tkCode t.rq, gx := tkX t.rq, gy := tkY t.rq, gz := tkZ t.rq
            args := (tkArgs t.rq).toNat, task := if tkTl t.rq then some (tkCtr t.rq, t.k) else none, isTask := true, depth := t.depth }

/-- The enabled queues of a partition, with their heads. -/
def State.heads (s : State) (part : Nat) : List (Nat × LQueue × Head) :=
  ((s.part part).queues.filter fun q => q.2.en).map fun q => (q.1, q.2, s.head part q.2)

/-- Among ready heads: the highest priority, then the first queue after the one last served at that priority (R353). -/
def State.nextHead (s : State) (part : Nat) : Option (Nat × BitVec 512) :=
  let hs := (s.heads part).filterMap fun h => match h.2.2 with
    | .ready r => some (h.1, h.2.1.prio, r)
    | _ => none
  let top := hs.foldl (fun m h => max m h.2.1) 0
  let from' := match Tab.get? (s.part part).served top with
    | some q => q + 1
    | none => 0
  let key (q : Nat) : Nat := (q + 64 - from' % 64) % 64
  (hs.filter fun h => h.2.1 == top).foldl (fun b h => match b with
    | none => some (h.1, h.2.2)
    | some x => if key h.1 < key x.1 then some (h.1, h.2.2) else some x) none

/-- What the distributor's intake does next in a partition, if anything: a head's line is recalled, a head is read or refused, or a task or launch is
taken. -/
def State.intake (s : State) (part : Nat) : Option State :=
  let p := s.part part
  let hs := s.heads part
  let unread := hs.find? fun h => match h.2.2 with
    | .unread => !s.asked h.2.1.pasid (s.unread h.2.1.pasid h.2.1.headVa 64)
    | _ => false
  let refused := hs.findSome? fun h => match h.2.2 with
    | .refused c t => some (h.1, c, t)
    | _ => none
  let stale := hs.flatMap fun h => if h.2.1.rd == h.2.1.wr then [] else s.distStale h.2.1.pasid h.2.1.headVa 64
  if !stale.isEmpty then some (stale.foldl State.recall s)
  else match unread, refused with
  | some h, _ => some (s.distAsk h.2.1.pasid h.2.1.headVa 64)
  | none, some (q, c, t) => some ((s.advanceRd part q).post part { kind := 2, cause := c, queue := q, tag := t })
  | none, none =>
    if 16 ≤ p.dispatch.length then none
    else match nextTask p.tasks with
      | some t => some (s.takeTask part t)
      | none => (s.nextHead part).map fun h => s.takeLaunch part h.1 h.2

/-- `LAUNCH_INTAKE` (R352, R353). -/
def execLaunchIntake (part : Nat) (s : State) : Host.Outcome State Fault Refusal :=
  match s.intake part with
  | some s => .next s
  | none => .next { s with stalled := true }

/-! ### Placement (R354, R357) -/

/-- Whether a context's tenant runs on its partition now (R421). -/
def State.tenantRuns (s : State) (part pasid : Nat) : Bool :=
  let p := s.part part
  decide (p.budget = 0) || decide ((s.ctx pasid).tenant = p.tenant)

/-- The live waves of a team that go to a quarter. -/
def State.teamQuarter (s : State) (t : Team) (q : Nat) : List Wave := (t.waves.map s.wave).filter fun w => w.live && w.q == q

/-- Whether a saved team fits a core: room (R18) with the shadows of its open proposals (R82, R97), free arrays for its bound waves, and room in the
copy request queue (R363). -/
def State.fitsTeam (s : State) (t : Team) (o : Obj) (c : Nat) (r : Room) : Bool :=
  r.fits o && decide ((s.queued c).length + t.copies.length ≤ Config.copyQueue) && (List.range 4).all fun q =>
    let mine := s.teamQuarter t q
    (!(mine.any fun w => w.mx.isSome) || !(s.waves.any fun e => e.2.live && !e.2.away && e.2.core == c && e.2.q == q && e.2.mx.isSome)) &&
      decide (o.units q + (mine.map fun w => match w.prop with
        | some p => p.n / 8
        | none => 0).sum ≤ r.units.getD q 0)

/-- The quarters of a core that lack free split entries for a saved team's fragments beside those reserved for its waves, one each for two half-waves
(R373). -/
def State.shortQuarters (s : State) (t : Team) (c : Nat) : List Nat :=
  (List.range 4).filter fun q =>
    let need (w : Wave) : Nat := w.frags.length - (if w.w32 && (s.slotMates w).length == 2 then 1 else 2)
    decide (32 < ((s.teamQuarter t q).map need).sum + ((s.entriesUsed c q).filter fun e => decide (32 ≤ e)).length)

/-- A choice of the distributor. -/
inductive Place where
  | again (team core : Nat)
  | launch (id core : Nat)
  | whole (id : Nat) (cores : List Nat)
  | swap (core : Nat) (out : List (List Wave))
  | ask (pasid : Nat) (va : DWord) (n : Nat)
  | recall (lines : List Nat)

/-- The open cores with their room. -/
def State.rooms (s : State) (part : Nat) : List (Nat × Room) := (s.openCores part).map fun c => (c, s.room part c)

/-- The candidates that a core would swap out for a team, where that makes it fit (R24); one whose image the reserve cannot take is passed over (log
entry 58). -/
def State.swapFor (s : State) (part : Nat) (o : Obj) (core : Nat) : Option (List (List Wave)) :=
  let cs := ((List.range 4).flatMap fun q => s.swapCandidates core q).insertionSort fun a b => waitedSince a ≤ waitedSince b
  let go := cs.foldl (fun (x : State × List (List Wave)) c =>
    let r := x.1.room part core
    let q := (c.headD { id := 0, team := 0, num := 0 }).q
    let lacks := decide (r.units.getD q 0 < o.units q) || decide (r.slots.getD q 0 < (o.quarter q).length)
    if !r.fits o && lacks && x.1.reserveTakes core c then (x.1.swapOut c, x.2 ++ [c]) else x) (s, [])
  if (go.1.room part core).fits o && !go.2.isEmpty then some go.2 else none

/-- The first core, in the order of R19, on which swapping candidates out makes a team fit that fits no core under R18 (R24), one on which nothing is
placed now included. -/
def State.swapPlace (s : State) (part : Nat) (o : Obj) : Option Place :=
  if (s.ownCores part).any fun c => (s.room part c).fits o then none
  else
  let rs := (s.rooms part).insertionSort fun a b => decide (b.2.total < a.2.total) || (a.2.total == b.2.total && decide (a.1 ≤ b.1))
  (rs.filter fun r => decide (localPages o.lsize ≤ r.2.pages)).findSome? fun r => (s.swapFor part o r.1).map fun out => Place.swap r.1 out

/-- The object of a launch or team. -/
def State.objOf (s : State) (pasid handle : Nat) : Obj :=
  ((s.ctx pasid).obj? handle).getD { handle := handle, base := 0, csize := 0, top := 0, dm := .k3, w32 := false, idem := false, cores := false
                                     mode := 0, lsize := 0, nargs := 0, roles := [] }

/-- Whether an entry holds back those behind it (R354). -/
def State.holds (s : State) (l : Launch) : Bool := l.held || decide (l.since + Config.quantum ≤ s.clock)

/-- Entries of the dispatch queue up to the first that holds back the rest. -/
def State.entriesInTurn (s : State) : List Launch → List Launch
  | [] => []
  | l :: r => if s.holds l then [l] else l :: s.entriesInTurn r

/-- What the distributor has to do before it can read a launch's argument words, all `nargs` of them (log entry 49): pages to ask for, or lines to
recall; a page that is on its way is waited for. -/
def State.argsFirst (s : State) (pasid args nargs : Nat) : Option (Option Place) :=
  let a := BitVec.ofNat 64 args
  let ps := s.unread pasid a (8 * nargs)
  let ls := s.distStale pasid a (8 * nargs)
  if !ps.isEmpty then some (if s.asked pasid ps then none else some (.ask pasid a (8 * nargs)))
  else if !ls.isEmpty then some (some (.recall ls)) else none

/-- What the distributor does for the head of the re-admission queue: it is placed on the best core it fits, or waits there for split entries, in which
case the quarters that lack them take no other team (R373). The second part are the quarters held back, with their core. -/
def State.backPlace (s : State) (part : Nat) (rs : List (Nat × Room)) (t : Team) : Option Place × List (Nat × Nat) :=
  let o := s.objOf t.pasid t.obj
  match if t.waves.isEmpty then s.argsFirst t.pasid t.args o.nargs else none with
  | some x => (x, [])
  | none => match bestRoom (rs.filter fun r => s.fitsTeam t o r.1 r.2) with
    | some r => let qs := s.shortQuarters t r.1
      if qs.isEmpty then (some (.again t.id r.1), []) else (none, qs.map fun q => (r.1, q))
    | none => (s.swapPlace part o, [])

/-- Whether a partition's team location table has no room for `n` more teams: it holds 64 for each of the partition's cores (R372). A launch then waits
(log entry 77); a relaunched team takes the place of the one that was killed. -/
def State.tableFull (s : State) (part n : Nat) : Bool :=
  decide (64 * ((List.range Config.cores).filter fun c => s.partOfCluster (c / 8) == some part).length <
    (s.teams.filter fun t => t.2.part == part).length + n)

/-- What the distributor places next. Waves are never swapped out for a co-resident launch, which is placed whole or not at all (log entry 49). -/
def State.nextPlace (s : State) (part : Nat) : Option Place :=
  let p := s.part part
  if p.sw.isSome then none
  else
    let back := (p.readmit.map s.team).find? fun t => s.tenantRuns part t.pasid
    let ls := (p.dispatch.filterMap s.launch?).filter fun l => s.tenantRuns part l.pasid
    if back.isNone && ls.isEmpty then none
    else
      let rs := s.rooms part
      let again : Option Place × List (Nat × Nat) := match back with
        | none => (none, [])
        | some t => s.backPlace part rs t
      match again.1 with
      | some x => some x
      | none =>
        let one (l : Launch) : Option Place :=
          let o := s.objOf l.pasid l.obj
          let rs := rs.filter fun r => !again.2.any fun x => x.1 == r.1 && !(o.quarter x.2).isEmpty
          if s.tableFull part (if o.cores then l.gx * l.gy * l.gz else 1) then none
          else match s.argsFirst l.pasid l.args o.nargs with
          | some x => x
          | none =>
          if o.cores then (placeAll o (l.gx * l.gy * l.gz) rs).map fun cs => Place.whole l.id cs
          else (bestRoom (rs.filter fun r => r.2.fits o)).map fun r => Place.launch l.id r.1
        match (s.entriesInTurn ls).findSome? one with
        | some x => some x
        | none => match back, ls with
          | none, l :: _ => if (s.objOf l.pasid l.obj).cores || s.tableFull part 1 then none else s.swapPlace part (s.objOf l.pasid l.obj)
          | _, _ => none

/-- The next team of a launch is placed on a core; the last one takes the launch out of the dispatch queue. -/
def State.placeNext (s : State) (l : Launch) (core : Nat) : State :=
  let o := s.objOf l.pasid l.obj
  let args := (s.distRead l.pasid (BitVec.ofNat 64 l.args) (8 * o.nargs)).getD []
  let s := s.distLost l.pasid (BitVec.ofNat 64 l.args) (8 * o.nargs)
  let (id, s) := s.fresh
  let n := ((s.launch? l.id).map Launch.next).getD 0
  let t : Team := { id := id, launch := l.id, part := l.part, pasid := l.pasid, obj := l.obj, tag := l.gtag, idx := n, gx := l.gx, gy := l.gy
                    gz := l.gz, depth := l.depth, rootQ := l.queue, args := l.args }
  let s := s.startTeam t o core args l.isTask
  let s := s.modLaunch l.id fun l => { l with next := l.next + 1, since := s.clock, held := false }
  if n + 1 < l.gx * l.gy * l.gz then s else s.modPart l.part fun p => { p with dispatch := p.dispatch.filter (· ≠ l.id) }

/-- A team of the re-admission queue is placed: a fresh one starts, a saved one goes on (R357, R393). -/
def State.placeAgain (s : State) (team core : Nat) : State :=
  let t := s.team team
  let o := s.objOf t.pasid t.obj
  let s := s.modPart t.part fun p => { p with readmit := p.readmit.filter (· ≠ team), headAt := s.clock }
  if t.waves.isEmpty then
    (s.distLost t.pasid (BitVec.ofNat 64 t.args) (8 * o.nargs)).startTeam t o core ((s.distRead t.pasid (BitVec.ofNat 64 t.args) (8 * o.nargs)).getD []) (t.depth != 0)
  else
    let s := s.dropL1 core
    let s := s.modTeam team fun t => { t with core := core, loc := .resident, placed := s.clock, copies := [] }
    let s : State := { s with copies := s.copies ++ t.copies.map fun c => { c with core := core, away := false } }
    let s := t.waves.foldl (fun s id => let w := s.wave id
      if w.half = 0 ∨ !(t.waves.any fun x => (s.wave x).num == w.num && (s.wave x).half == 0 && (s.wave x).live) then
        match s.freeSlot core w.q with
        | none => s
        | some k => (s.slotMates w).foldl (fun s h => s.seat h.id core k) s
      else s) s
    s

/-- `TEAM_PLACEMENT`: what the distributor does next. -/
def execTeamPlacement (part : Nat) (s : State) : Host.Outcome State Fault Refusal :=
  match s.nextPlace part with
  | none => .next { s with stalled := true }
  | some (.again t c) => .next (s.placeAgain t c)
  | some (.launch id c) => match s.launch? id with
    | some l => .next (s.placeNext l c)
    | none => .next { s with stalled := true }
  | some (.whole id cs) => match s.launch? id with
    | some l => .next (cs.foldl (fun s c => s.placeNext l c) s)
    | none => .next { s with stalled := true }
  | some (.swap _ out) => .next (out.foldl State.swapOut s)
  | some (.ask pasid va n) => .next (s.distAsk pasid va n)
  | some (.recall ls) => .next (ls.foldl State.recall s)

/-- `DISPATCH_HOLD`: an entry that has waited its 400,000 clocks without fitting holds back every later one (R354). -/
def execDispatchHold (part : Nat) (s : State) : Host.Outcome State Fault Refusal :=
  match (((s.part part).dispatch.filterMap s.launch?).find? fun l => !l.held && decide (l.since + Config.quantum ≤ s.clock)) with
  | some l => .next (s.modLaunch l.id fun l => { l with held := true })
  | none => .next { s with stalled := true }

/-- The resident team that a quantum tick displaces: of the head's code object and context, the longest placed (R357). -/
def State.quantumTeam (s : State) (part : Nat) : Option Team :=
  match (s.part part).readmit with
  | [] => none
  | h :: _ =>
    let t := s.team h
    ((s.teams.map Prod.snd).filter fun x => x.part == part && x.pasid == t.pasid && x.obj == t.obj && (x.loc == .resident || x.loc == .swapPart)
      && !(s.core x.core).shadow.contains x.id).foldl (fun b x => match b with
        | none => some x
        | some y => if x.placed < y.placed then some x else some y) none

/-- Whether a quantum tick is due: the head has fitted no core for 400,000 clocks since it became head, or since the last tick. -/
def State.quantumDue (s : State) (part : Nat) : Bool :=
  let p := s.part part
  !p.readmit.isEmpty && decide (p.headAt + Config.quantum ≤ s.clock) && p.sw.isNone && (match s.nextPlace part with
    | some (.again _ _) => false
    | some (.swap _ _) => false
    | _ => true)

/-- `QUANTUM_TICK`: the team is displaced; its save ends when it has nothing in flight. -/
def execQuantumTick (part : Nat) (s : State) : Host.Outcome State Fault Refusal :=
  if !s.quantumDue part then .next { s with stalled := true }
  else
    let s := s.modPart part fun p => { p with headAt := p.headAt + Config.quantum }
    match s.quantumTeam part with
    | some t => .next (s.modTeam t.id fun t => { t with loc := .displaced })
    | none => .next s

end Sys2Proof.Machine
end

