-- ==== Sys2Proof/Machine/Window.lean ====
section
/-! DEFINITION. The partition's register window (R420): doorbells (R349, R350), vacates (R356), events (R364); watchdogs and drains
(R365, R366), and the teardown of a context. -/

namespace Sys2Proof.Machine

/-! ### Launch-queue descriptors (R348 to R350) -/

def dqBase (d : BitVec 512) : DWord := d.extractLsb' 448 64
def dqWr (d : BitVec 512) : Nat := (d.extractLsb' 384 64).toNat
def dqRd (d : BitVec 512) : Nat := (d.extractLsb' 320 64).toNat
def dqPasid (d : BitVec 512) : Nat := (d.extractLsb' 300 20).toNat
def dqWdog (d : BitVec 512) : Nat := (d.extractLsb' 272 16).toNat
def dqPrio (d : BitVec 512) : Nat := (d.extractLsb' 270 2).toNat
def dqEn (d : BitVec 512) : Bool := d.getLsbD 269
def dqSize (d : BitVec 512) : Nat := (d.extractLsb' 256 4).toNat

/-- Changing the flags en (bit 5), expired (bit 4) and cfgerr (bit 3) of a descriptor, which lie in its byte 33; its line is recalled first (R290). -/
def State.dqFlags (s : State) (desc : Nat) (f : BitVec 8 → BitVec 8) : State :=
  let s := s.recall desc
  s.pokeNum (desc + 33) 1 (f (s.peek (desc + 33))).toNat

/-- Whether enabling is refused (R349). -/
def State.dqBad (s : State) (part : Nat) (d : BitVec 512) : Bool :=
  !canonical (dqBase d) || decide ((dqBase d).toNat % 64 ≠ 0) || decide (dqSize d < 4) || decide (dqWdog d = 0) || decide (60000 < dqWdog d)
    || !(s.ctxs.any fun c => c.pasid == dqPasid d && c.part == part) || decide (2 ^ dqSize d < (dqWr d + 2 ^ 64 - dqRd d) % 2 ^ 64)

/-- A doorbell: the descriptor is read at its point of order, its line recalled first (R290). -/
def State.ring (s : State) (part q : Nat) : State :=
  let x := (s.part part).queue q
  if !x.reg.getLsbD 0 then s
  else
    let s := s.recall x.desc
    let d := BitVec.ofNat 512 (s.peekNum x.desc 64)
    if x.en then s.modQueue part q fun x => { x with wr := dqWr d, en := dqEn d }
    else if !dqEn d then s
    else if s.dqBad part d then (s.dqFlags x.desc fun b => b ||| 0x08).post part { kind := 3, queue := q, detail := x.desc }
    else (s.dqFlags x.desc fun b => b &&& 0xE7).modQueue part q fun x =>
      { x with en := true, base := (dqBase d).toNat, wr := dqWr d, rd := dqRd d, pasid := dqPasid d, wdog := dqWdog d, prio := dqPrio d, size := dqSize d }

/-- `DOORBELL` (R349, R350). -/
def execDoorbell (part queue : Nat) (s : State) : Host.Outcome State Fault Refusal := .next (s.ring part queue)

/-- A write of a queue's descriptor register: reserved bits read 0; ignored while the queue is enabled (R420). -/
def State.setDescriptor (s : State) (part q : Nat) (v : DWord) : State :=
  s.modQueue part q fun x => if x.en then x else { x with reg := v &&& 0xFFFFFFFFC1 }

/-- `DESCRIPTOR`. -/
def execDescriptor (part queue : Nat) (v : BitVec 64) (s : State) : Host.Outcome State Fault Refusal := .next (s.setDescriptor part queue v)

/-! ### Vacates (R356) -/

/-- The cores of a partition that its vacate names. -/
def State.vacCores (s : State) (part : Nat) : List Nat :=
  (List.range Config.cores).filter fun c => (s.part part).vacSet.getLsbD c && s.partOfCore c == some part

/-- The vacate starts: no placement on the cores, and every team on them is displaced; a team that a time-slice switch has saved already
joins the re-admission queue at once. -/
def State.startVacate (s : State) (part : Nat) : State :=
  let cs := s.vacCores part
  let s := cs.foldl (fun s c => s.modCore c fun x => { x with vacating := true }) s
  let s := s.modPart part fun p => { p with vacBusy := true, vacWant := false }
  let hidden := cs.flatMap fun c => (s.core c).shadow
  let s := hidden.foldl State.saveTeam s
  let s := cs.foldl (fun s c => s.modCore c fun x => { x with shadow := [] }) s
  { s with teams := s.teams.map fun (e : Nat × Team) =>
      if cs.contains e.2.core && (e.2.loc == .resident || e.2.loc == .swapPart) then (e.1, { e.2 with loc := .displaced }) else e }

/-- A write of the vacate register's first word; ignored while a vacate is busy; during a switch it waits (R420). -/
def State.vacate (s : State) (part : Nat) (mask : DWord) : State :=
  let p := s.part part
  if p.vacBusy then s
  else
    let s := s.modPart part fun p => { p with vac := p.vac.extractLsb' 64 128 ++ mask, vacSet := p.vac.extractLsb' 64 128 ++ mask }
    if p.sw.isSome then s.modPart part fun p => { p with vacBusy := true, vacWant := true } else s.startVacate part

/-- `VACATE`. -/
def execVacate (part : Nat) (mask : BitVec 64) (s : State) : Host.Outcome State Fault Refusal := .next (s.vacate part mask)

/-- Whether every team of the mask has been saved. -/
def State.vacated (s : State) (part : Nat) : Bool :=
  let p := s.part part
  p.vacBusy && !p.vacWant && s.teams.all fun t => !(t.2.loc == .displaced && (s.core t.2.core).vacating && t.2.part == part)

/-- `VACATE_COMPLETE`: parked lines drift, the cores leave the partition, and event kind 5 is posted with the vacated cores below 64. -/
def execVacateComplete (part : Nat) (s : State) : Host.Outcome State Fault Refusal :=
  if !s.vacated part then .next { s with stalled := true }
  else
    let cs := (s.vacCores part).filter fun c => (s.core c).vacating
    let s := cs.foldl (fun s c => (s.driftCore c).modCore c fun x => { x with vacating := false, left := true }) s
    let s := s.modPart part fun p => { p with vacBusy := false }
    .next (s.post part { kind := 5, detail := ((cs.filter (· < 64)).map fun c => 2 ^ c).sum })

/-! ### Teardown of a context (R366 step 3, R432) -/

/-- A context is torn down: parked lines written back and unparked, its seal list emptied in its descriptor too (R236), pins released, its ATC entries
and cached bearing entries invalid, its tables discarded. A translation that is awaited was asked for the old context: its answer is not used. -/
def State.teardown (s : State) (pasid : Nat) : State :=
  let s := ((s.chart.filter fun e => e.pasid == pasid).foldl (fun s e => s.unpark e true) s).setSeals pasid []
  let unpin (l : Line) : Line := { l with pins := l.pins.filter fun k => k.1 ≠ pasid }
  { s.dropReplicas with
    icache := s.dropReplicas.icache.map unpin, l2 := s.dropReplicas.l2.map unpin
    atc := s.atc.filter fun e => e.pasid != pasid
    ats := s.ats.map fun (a : AtsReq) => if a.pasid = pasid then { a with invs := a.invs ++ [(0, 2 ^ 57)] } else a
    ctxs := s.ctxs.filter fun c => c.pasid != pasid
    copies := s.copies.filter fun c => c.pasid != pasid, bears := s.bears.filter fun b => b.pasid != pasid }

/-! ### Drain (R366) -/

/-- A partition with its children and their children. -/
def State.family (s : State) (part : Nat) : List Nat :=
  let kids (l : List Nat) : List Nat := (s.parts.filter fun e => e.2.valid && e.2.level != 0 && l.contains e.2.parent).map Prod.fst
  let a := kids [part]
  part :: (a ++ kids a).filter (· ≠ part)

/-- The requests that operations of some contexts have sent are performed, their replies discarded, and their lanes not sent dropped. A remote
atomic ends with its CAS in flight. Each pass serves every request; 16 are enough for both holds of an `ATOM.X2` on a fan-out line. -/
def State.performSent (s : State) (pasids : List Nat) : State :=
  let mine (s : State) (op : Nat) : Bool := match s.op? op with
    | some o => pasids.contains o.pasid
    | none => false
  let s : State := { s with ops := s.ops.map fun (o : Op) => if pasids.contains o.pasid then { o with killed := true } else o }
  let pass (s : State) : State := (s.reqs.filter fun r => mine s r.op).foldl State.serveSent s
  let s := (List.range 16).foldl (fun s _ => pass s) s
  { s with reps := s.reps.filter fun r => !mine s r.op, reqs := s.reqs.filter fun r => !mine s r.op
           ops := s.ops.filter fun o => !pasids.contains o.pasid }

/-- The L2 sets of a partition's tenant range (R214). -/
def Part.ownsSet (p : Part) (set : Nat) : Bool := set / 2 ^ (10 - p.setw) == p.tkey % 2 ^ p.setw

/-- Ordinary L2 lines of a tenant range are written back and invalidated (R228). -/
def State.resetL2 (s : State) (p : Part) : State :=
  let gone (l : Line) : Bool := p.ownsSet l.set && l.kind != .parked
  { (s.l2.filter gone).foldl State.writeBack s with l2 := s.l2.filter fun l => !gone l }

/-- The core that a quarter or core count belongs to. -/
def keyCore (k : Nat) : Nat := if k < 5120 then k / 32 else (k - 5120) / 8

/-- The reset of a partition (R366 step 4): its update-only lines are merged before its caches are invalidated. -/
def State.resetPart (s : State) (part : Nat) : State :=
  let cs := (List.range Config.cores).filter fun c => (s.part part).clusters.testBit (c / 8)
  let s := cs.foldl State.mergeCore s
  let s := s.resetL2 (s.part part)
  let s := cs.foldl (fun s c => s.modCore c fun x => { x with shadow := [], shCnt := [] }) s
  { s with
    bears := s.bears.filter fun b => !cs.any fun c => coreAt c == b.at?
    l1 := s.l1.filter fun l => !cs.contains l.loc
    icache := s.icache.filter fun l => !(s.part part).clusters.testBit l.loc
    cnt := s.cnt.filter fun e => !cs.contains (keyCore e.1), cnt0 := s.cnt0.filter fun e => !cs.contains (keyCore e.1) }

/-- Steps 1 to 4 of a drain. Every queue that has a descriptor is disabled there, also one that the distributor has refused or not read yet. -/
def State.drainSteps (s : State) (part : Nat) (expired : List Nat) : State :=
  let ps := s.family part
  let s := ps.foldl (fun s p => ((s.part p).queues).foldl (fun s q =>
    let due := p == part && expired.contains q.1
    let s := if q.2.reg.getLsbD 0 || due then s.dqFlags q.2.desc fun b => (b &&& 0xDF) ||| (if due then 0x10 else 0) else s
    s.modQueue p q.1 fun x => { x with en := false, timer := 0 }) s) s
  let ts := (s.teams.filter fun t => ps.contains t.2.part).map Prod.fst
  let ws := ts.flatMap fun t => (s.team t).waves
  let pasids := (s.ctxs.filter fun c => ps.contains c.part).map Ctx.pasid
  let s := s.performSent pasids
  let s : State := { s with
    mail := s.mail.filter fun x => !pasids.contains x.pasid, copies := s.copies.filter fun c => !ts.contains c.team
    waves := s.waves.filter fun e => !ws.contains e.1, teams := s.teams.filter fun e => !ts.contains e.1
    gbars := s.gbars.filter fun (g : GBar) => !(s.launches.any fun l => l.id == g.launch && ps.contains l.part)
    launches := s.launches.filter fun l => !ps.contains l.part }
  let s := ps.foldl (fun s p => s.modPart p fun p => { p with dispatch := [], readmit := [], tasks := [] }) s
  let s := pasids.foldl State.teardown s
  ps.foldl State.resetPart s

/-- A drain for expired queues, or one that the host orders (`none`), with its one event. -/
def State.drainNow (s : State) (part : Nat) (expired : Option (List Nat)) : State :=
  let qs := expired.getD []
  let low := qs.foldl min 255
  let tag := match (s.launches.find? fun l => l.part == part && l.queue == some low && !l.isTask) with
    | some l => l.tag
    | none => 0
  (s.drainSteps part qs).post part { kind := 4, queue := low, detail := (qs.map fun q => 2 ^ q).sum, tag := if expired.isSome then tag else 0 }

/-- A drain that the host orders; during a switch it waits (R420). -/
def State.drain (s : State) (part : Nat) (v : DWord) : State :=
  if v ≠ 1 then s
  else if (s.part part).sw.isSome then s.modPart part fun p => { p with drainHost := true }
  else s.drainNow part none

/-- `DRAIN`. -/
def execDrain (part : Nat) (v : BitVec 64) (s : State) : Host.Outcome State Fault Refusal := .next (s.drain part v)

/-! ### Watchdogs (R365) -/

/-- Queues of a partition whose timers have expired. -/
def State.expired (s : State) (part : Nat) : List Nat :=
  ((s.part part).queues.filter fun q => s.queueBusy part q.1 && decide (0 < q.2.wdog) && decide (q.2.wdog * 4000000 ≤ q.2.timer)).map Prod.fst

/-- Timers run by `dt` clocks, each while its queue has work and its tenant is not switched out. -/
def State.tickTimers (s : State) (dt : Nat) : State :=
  let run (p : Nat) (q : Nat × LQueue) : Nat × LQueue :=
    if s.queueBusy p q.1 && s.tenantRuns p q.2.pasid then (q.1, { q.2 with timer := q.2.timer + dt }) else q
  { s with parts := s.parts.map fun (e : Nat × Part) => (e.1, { e.2 with queues := e.2.queues.map (run e.1) }) }

/-- `WATCHDOG_EXPIRY`: all timers of the partition that have expired drain it at once, after a switch in progress. -/
def execWatchdogExpiry (part : Nat) (s : State) : Host.Outcome State Fault Refusal :=
  match s.expired part with
  | [] => .next { s with stalled := true }
  | qs =>
    if (s.part part).sw.isSome then
      (if (s.part part).drainWant.isSome && qs.all (((s.part part).drainWant.getD []).contains ·) then .next { s with stalled := true }
       else .next (s.modPart part fun p => { p with drainWant := some ((p.drainWant.getD [] ++ qs).dedup) }))
    else .next (s.drainNow part (some qs))

/-! ### Events and counts (R364, R420) -/

/-- The event size register: writes of 11 to 15 are ignored; a larger ring has room for records that are held (R364). -/
def State.setEventSize (s : State) (part : Nat) (v : DWord) : State :=
  let n := v.toNat % 16
  if 10 < n then s else (s.modPart part fun p => { p with evSize := n }).flushEvents part

/-- `EVENT_SIZE`. -/
def execEventSize (part : Nat) (v : BitVec 64) (s : State) : Host.Outcome State Fault Refusal := .next (s.setEventSize part v)

/-- The host has taken records: held ones and kind 9 follow (R364). -/
def State.setEventRead (s : State) (part : Nat) (v : DWord) : State := (s.modPart part fun p => { p with evR := v.toNat }).flushEvents part

/-- `EVENT_READ_INDEX`. -/
def execEventReadIndex (part : Nat) (v : BitVec 64) (s : State) : Host.Outcome State Fault Refusal := .next (s.setEventRead part v)

/-- `SWITCH_ABORTS`: only a write of 0 takes effect. -/
def execSwitchAborts (part : Nat) (v : BitVec 64) (s : State) : Host.Outcome State Fault Refusal :=
  .next (if v = 0 then s.modPart part fun p => { p with aborts := 0 } else s)

/-- `EVENTS_LOST`: only a write of 0 takes effect. -/
def execEventsLost (part : Nat) (v : BitVec 64) (s : State) : Host.Outcome State Fault Refusal :=
  .next (if v = 0 then s.modPart part fun p => { p with lost := 0 } else s)

/-! ### Register writes (R420, R430) -/

/-- A write in a partition's window. -/
def State.windowWrite (s : State) (part o : Nat) (v : DWord) : State :=
  if o % 8 ≠ 0 then s
  else if o < 0x200 then s.ring part (o / 8)
  else if o = 0x200 then s.vacate part v
  else if o = 0x208 then s.modPart part fun p => { p with vac := p.vac.extractLsb' 128 64 ++ (v ++ p.vac.extractLsb' 0 64) }
  else if o = 0x210 then s.modPart part fun p => { p with vac := (v &&& 0xFFFFFFFF) ++ p.vac.extractLsb' 0 128 }
  else if o = 0x220 then s.modPart part fun p => { p with evBase := v }
  else if o = 0x228 then s.setEventSize part v
  else if o = 0x238 then s.setEventRead part v
  else if o = 0x240 then (if v = 0 then s.modPart part fun p => { p with aborts := 0 } else s)
  else if o = 0x248 then (if v = 0 then s.modPart part fun p => { p with lost := 0 } else s)
  else if o = 0x250 then s.drain part v
  else if 0x400 ≤ o ∧ o < 0x600 then s.setDescriptor part ((o - 0x400) / 8) v
  else s

/-- A write of the Sextant's registers (R430). -/
def State.sextantWrite (s : State) (o : Nat) (v : DWord) : State :=
  if o = 0 then { s with sx := { s.sx with base := v } }
  else if o = 8 then { s with sx := { s.sx with size := v.toNat % 16 } }
  else if o = 0x10 then { s with sx := { s.sx with wr := v.toNat } }
  else s

/-- `REGISTER_WRITE`: a host write at an offset of BAR 0 or BAR 2; offsets not listed ignore it. -/
def execRegisterWrite (bar2 : Bool) (off : Nat) (v : BitVec 64) (s : State) : Host.Outcome State Fault Refusal :=
  .next (if bar2 then s.sextantWrite off v
    else if off / 65536 < 64 ∧ off % 65536 < 4096 then s.windowWrite (off / 65536) (off % 65536) v else s)

/-- What the host reads at an offset of a partition's window (R420). -/
def State.windowRead (s : State) (part o : Nat) : DWord :=
  let p := s.part part
  if o = 0x200 then p.vac.extractLsb' 0 64
  else if o = 0x208 then p.vac.extractLsb' 64 64
  else if o = 0x210 then p.vac.extractLsb' 128 64
  else if o = 0x218 then (if p.vacBusy then 1 else 0)
  else if o = 0x220 then p.evBase
  else if o = 0x228 then BitVec.ofNat 64 p.evSize
  else if o = 0x230 then BitVec.ofNat 64 p.evW
  else if o = 0x238 then BitVec.ofNat 64 p.evR
  else if o = 0x240 then BitVec.ofNat 64 p.aborts
  else if o = 0x248 then BitVec.ofNat 64 p.lost
  else if 0x400 ≤ o ∧ o < 0x600 ∧ o % 8 = 0 then (p.queue ((o - 0x400) / 8)).reg
  else 0

/-- What the host reads of the Sextant's registers (R430). -/
def State.sextantRead (s : State) (o : Nat) : DWord :=
  if o = 0 then s.sx.base
  else if o = 8 then BitVec.ofNat 64 s.sx.size
  else if o = 0x10 then BitVec.ofNat 64 s.sx.wr
  else if o = 0x18 then BitVec.ofNat 64 s.sx.rd
  else if o = 0x20 then BitVec.ofNat 64 ((if s.sx.ready then 1 else 0) + (if s.sx.failed then 2 else 0) + s.sx.slot * 4 + s.power * 256)
  else 0

end Sys2Proof.Machine
end

