-- ==== Sys2Proof/Machine/Traps.lean ====
section
/-! DEFINITION. The trap family (R390, R391, R400, R401). -/

namespace Sys2Proof.Machine

/-- `TRAP`: the software cause with its code. -/
def execTrap (x : HCode) (s : State) : Host.Outcome State Fault Refusal :=
  issue ctl x.h (fun _ _ => .trap 25 { code := x.code.toNat }) s

/-- The resume that `RETH` makes after a cause of a class, none where it is not permitted (R390). -/
def rethResume (m : RethMode) (h : HCtx) : Option Resume :=
  match m with
  | .dflt => some (defaultResume h.cause h.op.isSome)
  | .rs => some .restart
  | .nx => if h.cls = .t ∨ h.cls = .a then some .next else none
  | .pc => if h.cls = .t then some .atPc else none

/-- `RETH`. -/
def execReth (x : Reth) (s : State) : Host.Outcome State Fault Refusal :=
  issue ctl x.h (fun i s =>
    match if i.hm then i.w.h else none with
    | none => .trap 50 {}
    | some h => match rethResume x.m h with
      | none => .trap 9 {}
      | some m => .go fun t => t.resume s.curRef m) s

/-- What the trapping instruction captured for a lane, 0 where nothing was captured. -/
def capturedWord (c : Tab Cap) (lane sel : Nat) : DWord :=
  let x := Tab.getD {} c lane
  if sel = 0 then x.va else if sel = 5 then x.idx.setWidth 64 else (x.data.extractLsb' (32 * (sel - 1)) 32).setWidth 64

/-- `RDTR`. -/
def execRdtr (x : Rdtr) (s : State) : Host.Outcome State Fault Refusal :=
  let pair := decide (x.sel = .imm 0) || decide (x.sel = .zero)
  issue { dv := if pair then [x.d.toNat, x.d.toNat + 1] else [x.d.toNat], cls := .plus1 } x.h (fun i _ =>
    let sel := (i.s64 x.sel).toNat
    match if i.hm then i.w.h else none with
    | none => .trap 50 {}
    | some h =>
      if 5 < sel then .trap 9 {}
      else .go fun t =>
        if pair then t.putDst64 i (.v x.d x.m) fun l => capturedWord h.cap l sel
        else t.putDst i (.v x.d x.m) fun l => (capturedWord h.cap l sel).setWidth 32) s

/-- `TERM`: a bound wave waits for its accepted accumulator operations, as at its last `END` (R167). -/
def execTerm (x : H0) (s : State) : Host.Outcome State Fault Refusal :=
  issue ctl x.h (fun i _ => if i.w.owesMatrix then .stall else .go fun t => t.endWave i.w.id) s

/-- `TERM.team`. -/
def execTermTeam (x : H0) (s : State) : Host.Outcome State Fault Refusal :=
  issue ctl x.h (fun i _ => .go fun t => t.killTeam i.w.team 62 0) s

end Sys2Proof.Machine
end

