-- ==== Sys2Proof/Machine/Counters.lean ====
section
/-! DEFINITION. The counter family (R402 to R409). -/

namespace Sys2Proof.Machine

/-- The count that an id names, for a wave of a team (R403, R406); an id that is not listed reads 0. -/
def State.countRead (s : State) (w : Wave) (id : Nat) : Nat :=
  let t := s.team w.team
  let c := s.ctx t.pasid
  let g := id / 256
  let k := id % 256
  if g = 0 ∧ k < 64 then (c.tlc k).v
  else if g = 1 ∧ k < 64 then (c.tlc k).i
  else if g = 2 ∧ k < 64 then (c.tlc k).e
  else if g = 3 ∧ k < 9 then c.count k
  else if g = 4 ∧ k < 8 then s.cntOf (qKey w.core w.q k)
  else if g = 5 ∧ k < 5 then s.cntOf (cKey w.core k)
  else if id = 0x600 then (s.part t.part).aborts
  else if id = 0x601 then (s.part t.part).lost
  else 0

/-- What a `CNTRD` uses. -/
def cntrdUses (x : S1) : Uses := { ctl with srcs := [⟨x.a, 1, 1⟩], ds := [x.d.toNat], vl := true, owes := true }

/-- `CNTRD`: its scalar fills as a load's does, and its first read is a consuming one (R33). -/
def execCntrd (x : S1) (s : State) : Host.Outcome State Fault Refusal :=
  issue (cntrdUses x) x.h (fun i _ => .go fun t =>
    let v := BitVec.ofNat 64 (t.countRead i.w ((i.s64 x.a).toNat % 2 ^ 12))
    let (id, t) := t.fresh
    let (r, t) := t.fresh
    let o : Op := { id := id, wave := i.w.id, entry := i.f.entry, core := i.w.core, instr := .cntrd x, size := 0
                    pasid := (t.team i.w.team).pasid, hm := i.hm, part := i.part, wait := i.owesEntry (cntrdUses x), nout := 1 }
    let rep : Rep := { id := r, op := id, port := i.w.core / 8, core := i.w.core, slice := 2000 + i.w.core, pa := 0, kind := .scal [v] }
    { t with ops := t.ops ++ [o], reps := t.reps ++ [rep] }.awaitIf (i.owesEntry (cntrdUses x)) ⟨i.w.id, i.f.entry⟩ (.op id)) s

/-- A count is cleared before the events of this clock, which are counted after the clear (R404): what it counted since `old`, at the start of the clock,
stands. -/
def clearCount (cnt old : Tab Nat) (k : Nat) : Tab Nat := Tab.set cnt k (Tab.getD 0 cnt k - Tab.getD 0 old k)

/-- Clearing a quarter or core count. -/
def State.clearCnt (s : State) (key : Nat) : State := { s with cnt := clearCount s.cnt s.cnt0 key, cnt0 := Tab.set s.cnt0 key 0 }

/-- Clearing a count that `CNTCLR` may clear (R407); the events of the same clock come after the clear (R404). -/
def State.countClear (s : State) (w : Wave) (id : Nat) : State :=
  let t := s.team w.team
  let g := id / 256
  let k := id % 256
  if g = 2 ∧ k < 64 then s.modTL t.pasid k (TL.clear s.clock)
  else if g = 3 ∧ k < 9 then s.modCtx t.pasid fun c => { c with cnt := clearCount c.cnt c.cnt0 k, cnt0 := Tab.set c.cnt0 k 0 }
  else if g = 4 ∧ k < 8 then s.clearCnt (qKey w.core w.q k)
  else if g = 5 ∧ k < 5 then s.clearCnt (cKey w.core k)
  else s

/-- `CNTCLR`. -/
def execCntclr (x : HA) (s : State) : Host.Outcome State Fault Refusal :=
  issue { ctl with srcs := [⟨x.a, 1, 1⟩] } x.h (fun i _ => .go fun t => t.countClear i.w ((i.s64 x.a).toNat % 2 ^ 12)) s

/-- `TLADV`: a release, then the advance. -/
def execTladv (x : TlOp) (s : State) : Host.Outcome State Fault Refusal :=
  issue { ctl with srcs := [⟨x.a, 1, 1⟩, ⟨x.b, 1, 1⟩] } x.h (fun i _ =>
    let c := (i.s64 x.a).toNat
    if 63 < c then .trap 43 {}
    else .go fun t => t.waitCur (.rel x.scope t.nextId (.tladv c (i.s64 x.b).toNat))) s

/-- The advance of a `TLADV` whose release is made (R408). -/
def State.tlAdvanced (s : State) (r : FragRef) (c n : Nat) : State :=
  (s.modTL (s.team (s.wave r.wave).team).pasid c (TL.advance n)).waitOver r

end Sys2Proof.Machine
end

