-- ==== Sys2Proof/Machine/Host.lean ====
section
/-! DEFINITION. The host, peers and partitions (R333, R411 to R424): accesses from outside, translation and page responses, invalidations, link
loss, and the time-slice switch. -/

namespace Sys2Proof.Machine

/-! ### Accesses from outside (R281, R333, R334, R412) -/

/-- The sectors that `n` bytes from an address touch. -/
def sectorsOf (pa n : Nat) : List Nat := if n = 0 then [] else (List.range ((pa + n - 1) / 32 + 1 - pa / 32)).map fun k => 32 * (pa / 32 + k)

/-- Update-only lines are merged before a line is read or written from outside (R290). -/
def State.recallAll (s : State) (pa n : Nat) : State := (sectorsOf pa n).foldl (fun s a => s.recall a) s

/-- A read of this device's DRAM by the host or a peer: the bytes at their points of order, unchecked (R268), and whether a sector is
poisoned, which is recorded. -/
def State.outRead (s : State) (pa n : Nat) : State × List Byte × Bool :=
  let s := s.recallAll pa n
  let bad := (sectorsOf pa n).filter fun a => s.poisoned a
  (bad.foldl (fun s a => s.logPoison a) s, s.peeks pa n, !bad.isEmpty)

/-- Bytes grouped by the line they lie in. -/
def byLine (bs : List (Nat × Byte)) : List (List (Nat × Byte)) :=
  ((bs.map fun e => e.1 / 128).dedup).map fun l => bs.filter fun e => e.1 / 128 == l

/-- A write of this device's DRAM by the host or a peer: a parked line is unparked first, and a seal is not checked (R236). -/
def State.outWrite (s : State) (pa : Nat) (bs : List Byte) : State :=
  (byLine (addrs pa bs)).foldl (fun s l =>
    let a := (l.headD (0, 0)).1
    ((s.recall a).unparkAt a false).pokes 0 false a l) s

/-- The width of an AtomicOp in bytes. -/
def atomBytes : HostAtom → Nat
  | .fetchAdd w _ => if w then 8 else 4
  | .swap w _ => if w then 8 else 4
  | .cas n _ _ => CasW.bytes n

/-- The value that an AtomicOp leaves (R299). -/
def atomApply (a : HostAtom) (old : Nat) : Nat :=
  match a with
  | .fetchAdd _ x => (old + x.toNat) % 2 ^ (8 * atomBytes a)
  | .swap _ x => x.toNat % 2 ^ (8 * atomBytes a)
  | .cas _ c n => if old = c.toNat % 2 ^ (8 * atomBytes a) then n.toNat % 2 ^ (8 * atomBytes a) else old

/-- An AtomicOp on this device's DRAM, as the matching `ATOM`: at the point of order, a poisoned sector being left as it is. The answer
is the old value and whether the sector is poisoned. -/
def State.outAtom (s : State) (pa : Nat) (a : HostAtom) : State × Nat × Bool :=
  let s := (s.recall pa).spreadOut pa
  let old := s.peekNum pa (atomBytes a)
  if s.poisoned pa then (s.logPoison pa, old, true)
  else (s.pokes 0 false pa (addrs pa (leBytes (atomBytes a) (atomApply a old))), old, false)

/-- Whether bytes lie in this device's DRAM, which BAR 4 maps (R411). -/
def inDram (pa n : Nat) : Bool := decide (pa + n ≤ 2 ^ 40)

def State.send (s : State) (m : Out) : State := { s with outbox := s.outbox ++ [m] }

/-- `HOST_READ`. -/
def execHostRead (pa n : Nat) (s : State) : Host.Outcome State Fault Refusal :=
  if !inDram pa n then .next { s with stalled := true }
  else let (s, bs, ep) := s.outRead pa n; .next (s.send (.readData bs ep))

/-- Bytes that the host or a peer writes in its own memory: cached copies stand, and a sector written whole loses its poison there (R240). -/
def State.ownWrite (s : State) (pa : Nat) (bs : List Byte) : State :=
  { s with mem := s.mem.setBytes pa bs, poison := s.poison.filter fun p => !(wholeSectors (addrs pa bs)).contains (32 * p) }

/-- `HOST_WRITE`. An address of host or peer memory stands for a change that the host or peer makes in its own memory (log entry 4). -/
def execHostWrite (pa : Nat) (bs : List Byte) (s : State) : Host.Outcome State Fault Refusal :=
  if remote pa then .next (s.ownWrite pa bs)
  else if inDram pa bs.length then .next (s.outWrite pa bs)
  else .next { s with stalled := true }

/-- `HOST_ATOMICOP`: misaligned for its width, it is answered with Unsupported Request. -/
def execHostAtomicop (pa : Nat) (op : HostAtom) (s : State) : Host.Outcome State Fault Refusal :=
  if !inDram pa (atomBytes op) then .next { s with stalled := true }
  else if pa % atomBytes op ≠ 0 then .next (s.send .unsupported)
  else let (s, old, ep) := s.outAtom pa op; .next (s.send (.atomOld old ep))

/-- `PEER_REQUEST`: a peer's access to this device's DRAM. -/
def execPeerRequest (peer pa : Nat) (op : PeerOp) (s : State) : Host.Outcome State Fault Refusal :=
  match op with
  | .read n => if !inDram pa n then .next { s with stalled := true } else
      let (s, bs, _) := s.outRead pa n; .next (s.send (.peerReply peer bs))
  | .write bs => if !inDram pa bs.length then .next { s with stalled := true } else
      .next ((s.outWrite pa bs).send (.peerReply peer []))
  | .atom a => if !inDram pa (atomBytes a) || decide (pa % atomBytes a ≠ 0) then .next { s with stalled := true } else
      let (s, old, _) := s.outAtom pa a; .next (s.send (.peerReply peer (leBytes (atomBytes a) old)))

/-- `LINK_LOSS`: requests through the port end as they are met (R417). -/
def execLinkLoss (port : Nat) (s : State) : Host.Outcome State Fault Refusal :=
  .next { s with linkDown := if s.linkDown.contains port then s.linkDown else s.linkDown ++ [port] }

/-! ### Translation (R377, R413, R414) -/

/-- Whether an entry and a range of virtual addresses overlap. -/
def AtcE.overlaps (e : AtcE) (va log : Nat) : Bool := decide (e.va < va + 2 ^ log) && decide (va < e.va + 2 ^ e.log)

/-- An entry enters its die's ATC in place of those it covers; in a full ATC it replaces any entry. -/
def State.atcInstall (s : State) (e : AtcE) : State :=
  let s : State := { s with atc := s.atc.filter fun x => !(x.die == e.die && x.pasid == e.pasid && x.overlaps e.va e.log) }
  let mine := s.atc.filter fun x => x.die == e.die
  match if 65536 ≤ mine.length then s.chooseOf mine else none with
  | some v => { s.drawn with atc := s.atc.erase v ++ [e] }
  | none => { s with atc := s.atc ++ [e] }

/-- The entry that a mapping gives for a page: its own size up to 1 GiB, or the 1 GiB piece that is used. -/
def mappingEntry (a : AtsReq) (pa log : Nat) (rd wr : Bool) : AtcE :=
  let big := max 12 log
  let piece := min 30 big
  let va := a.page * 4096
  let at? := va / 2 ^ piece * 2 ^ piece
  { die := a.die, pasid := a.pasid, va := at?, pa := pa + (at? - va / 2 ^ big * 2 ^ big), log := piece, rd := rd, wr := wr }

/-- The page that a fragment's fetch misses. -/
def State.fetchMiss (s : State) (w : Wave) (f : Frag) : Option Nat :=
  if !(w.here && f.st == .running) || s.fetch w f ≠ .miss then none
  else if s.fetch8 w f.entry f.pc = .miss then some (f.pc / 4096) else some ((f.pc + 8) / 4096)

/-- The trap of a refused page for a fetch: nothing is held, and the restart is its default resume (R390). -/
def fetchRefused (w : Wave) (f : Frag) (page code : Nat) : Trap :=
  { cause := 35, cls := .h
    trec := trapRecord w f (w.mode f.entry) 0 8 f.pc 35 f.mask
      { addr := toPtr (max f.pc (page * 4096)), det0 := BitVec.ofNat 64 code, known := false } }

/-- Fetches of a page that is refused raise page-refused. -/
def State.refuseFetch (s : State) (pasid page code : Nat) : State :=
  let hits := s.waves.flatMap fun e => (e.2.frags.filter fun f =>
    (s.team e.2.team).pasid == pasid && s.fetchMiss e.2 f == some page).map fun f => (e.2, f)
  hits.foldl (fun s h => s.raiseSoon ⟨h.1.id, h.2.entry⟩ (fetchRefused h.1 h.2 page code)) s

/-- A load of a code object that waits for the page will end. -/
def State.refuseLoad (s : State) (pasid page : Nat) : State :=
  if s.sx.want.contains (pasid, page) then { s with sx := { s.sx with bad := s.sx.bad ++ [(pasid, page)] } } else s

/-- A page is refused with a response code: waiting lines, copies, fetches and a load (R248, R342, R413, R432). -/
def State.refusePage (s : State) (pasid page code : Nat) : State :=
  let s : State := { s with
    ops := s.ops.map fun o =>
      let ls := o.absent.filter fun l => l.page == page
      if o.pasid != pasid || (s.wave o.wave).away || o.phase != .sent || ls.isEmpty then o
      else if o.dead then { o with absent := o.absent.filter fun l => l.page != page }
      else { o.refuse ls 35 (BitVec.ofNat 64 code) 0 with absent := o.absent.filter fun l => l.page != page }
    copies := s.copies.map fun c => if c.pasid = pasid ∧ c.pwait.contains page then
      { c with pwait := c.pwait.filter (· ≠ page), bad := c.bad ++ [page] } else c }
  (s.refuseLoad pasid page).refuseFetch pasid page code

/-- A page that nobody has mapped is asked of the host, or refused while PRI is off. -/
def State.needPage (s : State) (pasid page : Nat) : State :=
  if s.priOn then s.askPage pasid page else (s.refuseLoad pasid page).refuseFetch pasid page priFailure

/-- A page that a die cannot use is asked of the host: its translation, or the page where the translation lacks the permission (R413). -/
def State.askMore (s : State) (die pasid page : Nat) : State := match s.atcOf die pasid (page * 4096) with
  | some e => if e.again then s.askFor die pasid page else s.needPage pasid page
  | none => s.askFor die pasid page

/-- Operations and copies that waited for an answer take it. -/
def State.answerAts (s : State) (a : AtsReq) (absent : Bool) : State :=
  let inPage (l : LaneAcc) : Bool := l.page == a.page
  let s : State := { s with
    ops := s.ops.map fun o =>
      if !o.xw.contains a.id then o
      else
        let o := { o with xw := o.xw.filter (· ≠ a.id) }
        if !absent then o
        else { o with out := o.out.filter fun l => !inPage l, absent := o.absent ++ if skipsAbsent o.instr then [] else o.out.filter inPage }
    copies := s.copies.map fun c =>
      if !c.wait.contains a.id then c
      else
        let c := { c with wait := c.wait.filter (· ≠ a.id) }
        if !absent then c
        else if s.priOn then { c with pwait := c.pwait ++ [a.page] } else { c with bad := c.bad ++ [a.page] } }
  if absent && s.priOn && s.copies.any fun c => c.pasid == a.pasid && c.pwait.contains a.page then s.askPage a.pasid a.page else s

/-- Whether an answer holds for an address that an invalidation has covered since its request was sent (R414): any of the mapping that it gives, or the
page alone. -/
def AtsReq.covered (a : AtsReq) (ans : AtsAnswer) : Bool :=
  let r : Nat × Nat := match ans with
    | .mapped pa log rd wr => let e := mappingEntry a pa log rd wr; (e.va, e.va + 2 ^ e.log)
    | .absent => (a.page * 4096, a.page * 4096 + 4096)
  a.invs.any fun v => decide (v.1 < r.2) && decide (r.1 < v.2)

/-- `TRANSLATION_COMPLETION`: discarded and sent again where an invalidation has covered it (R414); else an entry is installed or
the page is missing, and the lines that waited go on. -/
def execTranslationCompletion (id : Nat) (ans : AtsAnswer) (s : State) : Host.Outcome State Fault Refusal :=
  match s.ats.find? fun a => a.id == id with
  | none => .next { s with stalled := true }
  | some a =>
    if !(s.ctxs.any fun c => c.pasid == a.pasid) then .next { s with ats := s.ats.filter fun x => x.id ≠ id }
    else if a.covered ans then
      .next ({ s with ats := s.ats.map fun (x : AtsReq) => if x.id = id then { x with invs := [] } else x }.send (.atsReq a.pasid a.page))
    else
      let waiting := (s.ops.filter fun o => o.xw.contains id).map Op.id
      let s : State := { s with ats := s.ats.filter fun x => x.id ≠ id }
      let s := match ans with
        | .mapped pa log rd wr =>
          let s := (s.atcInstall (mappingEntry a pa log rd wr)).answerAts a false
          if a.dist && !rd then s.needPage a.pasid a.page else s
        | .absent =>
          let s := s.answerAts a true
          if a.dist then s.needPage a.pasid a.page else s
      .next (waiting.foldl (fun s i => match s.op? i with
        | some o => if o.phase = .xlate ∧ o.xw.isEmpty then s.proceed i else s
        | none => s) s)

/-- Lines that the entries of a page do not permit will be translated again. -/
def State.translateAgain (s : State) (pasid page : Nat) : State :=
  { s with atc := s.atc.map fun e => if e.pasid == pasid && e.overlaps (page * 4096) 12 && !(e.rd && e.wr) then { e with again := true } else e }

/-- PRI is off: the requests that wait inside the device are not sent, and their lines are refused (R413). -/
def State.priOff (s : State) : State :=
  let ps := s.pages.filter fun p => !p.sent
  ps.foldl (fun s p => s.refusePage p.pasid p.page priFailure) { s with pages := s.pages.filter PageReq.sent, priOn := false }

/-- `PAGE_RESPONSE`. -/
def execPageResponse (pasid page : Nat) (ans : PriAnswer) (s : State) : Host.Outcome State Fault Refusal :=
  if !(s.pages.any fun p => p.pasid == pasid && p.page == page && p.sent) then .next { s with stalled := true }
  else
    let s : State := { s with pages := s.pages.filter fun p => !(p.pasid == pasid && p.page == page) }
    match ans with
    | .success => .next { s.translateAgain pasid page with
        copies := s.copies.map fun c => if c.pasid = pasid then { c with pwait := c.pwait.filter (· ≠ page) } else c }
    | .invalid code => .next (s.refusePage pasid page code.toNat)
    | .failure code => .next (s.refusePage pasid page code.toNat).priOff

/-- `PRI_ENABLE`: the host enables PRI, with the Page Requests that it has allocated (R413; log entry 27). -/
def execPriEnable (s : State) : Host.Outcome State Fault Refusal := .next { s with priOn := true }

/-- Whether an operation has something sent or translated in a range of virtual addresses, for lanes that have ended too. -/
def Op.uses (o : Op) (pasid : Option Nat) (va log : Nat) : Bool :=
  (pasid.isNone || pasid == some o.pasid) && o.phase == .sent && (decide (0 < o.nout) || !o.held.isEmpty) &&
    (o.lanes ++ o.left).any fun l => decide (va ≤ low57 l.va + o.size - 1) && decide (low57 l.va < va + 2 ^ log)

/-- `INVALIDATION_REQUEST`: matching entries go, every outstanding request keeps its range, which its answer may cover, and its completion waits for the
accesses that used it. No more than 32 are outstanding. -/
def execInvalidationRequest (tag : Nat) (pasid : Option Nat) (va log2size : Nat) (s : State) : Host.Outcome State Fault Refusal :=
  let hit (p : Nat) : Bool := pasid.isNone || pasid == some p
  let va := va / 2 ^ log2size * 2 ^ log2size
  if Config.invalidateDepth ≤ s.invals.length then .next { s with stalled := true } else
  .next { s with
    atc := s.atc.filter fun e => !(hit e.pasid && e.overlaps va log2size)
    ats := s.ats.map fun (a : AtsReq) => if hit a.pasid then { a with invs := a.invs ++ [(va, va + 2 ^ log2size)] } else a
    invals := s.invals ++ [{ tag := tag, pasid := pasid, ops := (s.ops.filter fun o => o.uses pasid va log2size).map Op.id }] }

/-- Whether nothing that used an invalidated entry is left. -/
def State.invalDone (s : State) (v : Inval) : Bool :=
  s.ops.all fun o => !(v.ops.contains o.id && (decide (0 < o.nout) || !o.held.isEmpty))

/-- Reductions that the cores hold for a context, or for all, are performed (R305), in whichever context's line they are. -/
def State.mergeFor (s : State) (pasid : Option Nat) : State :=
  (s.l1.filter fun l => l.kind == LineKind.update && (pasid.isNone || (l.pasid :: l.users).any fun p => pasid == some p)).foldl State.mergeLine s

/-- `INVALIDATION_COMPLETION`: reductions accepted in an L1 are performed first. -/
def execInvalidationCompletion (tag : Nat) (s : State) : Host.Outcome State Fault Refusal :=
  match s.invals.find? fun v => v.tag == tag with
  | some v =>
    if s.invalDone v then let s := s.mergeFor v.pasid; .next ({ s with invals := s.invals.erase v }.send (.invalDone tag)) else .next { s with stalled := true }
  | none => .next { s with stalled := true }

/-! ### The time-slice switch (R421 to R424) -/

/-- The cores of a partition on a die. -/
def State.dieCores (s : State) (part die : Nat) : List Nat :=
  (List.range Config.cores).filter fun c => c / Config.coresPerDie == die && s.partOfCore c == some part

/-- The dies that hold a core of a partition. -/
def State.gang (s : State) (part : Nat) : List Nat := (List.range Config.dies).filter fun d => !(s.dieCores part d).isEmpty

/-- The teams on a core, but those in its shadow storage. -/
def State.teamsOn (s : State) (core : Nat) : List Nat := (s.teams.filter fun t => s.occupies t.2 core).map Prod.fst

def State.wavesOf (s : State) (ts : List Nat) : List Nat := ts.flatMap fun t => (s.team t).waves

/-- A tick is due. -/
def State.tickDue (s : State) (part : Nat) : Bool :=
  let p := s.part part
  p.valid && decide (p.budget ≠ 0) && decide (p.tick + p.budget * Config.clocksPerUs ≤ s.clock)

/-- `TIME_SLICE_TICK`: the switch starts, unless the waiting tenant has no context or a switch is still in progress. -/
def execTimeSliceTick (part : Nat) (s : State) : Host.Outcome State Fault Refusal :=
  if !s.tickDue part then .next { s with stalled := true }
  else
    let s := s.modPart part fun p => { p with tick := p.tick + p.budget * Config.clocksPerUs }
    let p := s.part part
    let dies := s.gang part
    if p.sw.isSome || dies.isEmpty || !(s.ctxs.any fun c => c.part == part && c.tenant != p.tenant) then .next s
    else .next (s.modPart part fun p => { p with sw := some { tick := s.clock, dies := dies.map fun d => (d, .halting) } })

/-- Whether a die of the partition has nothing in flight: producers, exchanges, matrix steps (R422). -/
def State.dieQuiet (s : State) (part die : Nat) : Bool :=
  let ts := (s.dieCores part die).flatMap s.teamsOn
  let ws := s.wavesOf ts
  (s.ops.all fun o => !(ws.contains o.wave && o.inFlight)) && (s.mail.all fun x => !ws.contains x.wave) &&
    (ws.all fun w => (s.wave w).tfill.isEmpty) && ts.all fun t => (s.team t).quads.all fun q => q.ops.all fun o => !o.busy

def State.setDie (s : State) (part die : Nat) (x : DieSw) : State :=
  s.modPart part fun p => { p with sw := p.sw.map fun w => { w with dies := Tab.set w.dies die x } }

/-- Whether a die may be found halted: in time, with nothing in flight. -/
def State.mayHalt (s : State) (part die : Nat) : Bool :=
  match (s.part part).sw with
  | some w => w.die? die == some .halting && decide (s.clock ≤ w.tick + Config.switchDeadline) && s.dieQuiet part die
  | none => false

/-- `DIE_HALTED`: fragments are stopped, update-only lines merged, and the exchange starts. -/
def execDieHalted (part die : Nat) (s : State) : Host.Outcome State Fault Refusal :=
  if !s.mayHalt part die then .next { s with stalled := true }
  else
    let cs := s.dieCores part die
    let s := (s.wavesOf (cs.flatMap s.teamsOn)).foldl (fun s w => if (s.wave w).live then s.stopWave w else s) s
    let s := cs.foldl State.mergeCore s
    .next (s.setDie part die (.exchanging s.clock))

/-- An operation of a wave whose state is back translates its held lanes again, unless a handler has it or lanes of it are still in flight. -/
def State.revive (s : State) (wave : Nat) : State :=
  { s with ops := s.ops.map fun o =>
      if o.wave = wave ∧ (o.phase = .parked ∨ (o.phase = .sent ∧ !o.absent.isEmpty)) ∧ !o.inFlight ∧ !(s.wave wave).raisedOn o.id then
        { o with phase := .xlate } else o }

/-- The keys of a core's counts and its quarters' counts. -/
def coreKeys (c : Nat) : List Nat :=
  ((List.range 4).flatMap fun q => (List.range 8).map fun i => qKey c q i) ++ (List.range 5).map fun i => cKey c i

/-- A switch leaves a core's parked L1 lines only; its update-only lines are merged before (R223). -/
def State.dropCached (s : State) (core : Nat) : State :=
  let s := s.mergeCore core
  { s with l1 := s.l1.filter fun (l : Line) => l.loc != core || l.kind == .parked }

/-- A core's state and its shadow storage change places (R223, R399, R403). -/
def State.swapCore (s : State) (core : Nat) : State :=
  let s := s.dropCached core
  let out := s.teamsOn core
  let in' := (s.core core).shadow
  let wo := s.wavesOf out
  let wi := s.wavesOf in'
  let keys := coreKeys core
  let s : State := { s with
    waves := s.waves.map fun (e : Nat × Wave) => (e.1, if wo.contains e.1 then { e.2 with away := true } else if wi.contains e.1 then { e.2 with away := false } else e.2)
    copies := s.copies.map fun (c : Copy) => if out.contains c.team then { c with away := true } else if in'.contains c.team then { c with away := false }
      else if c.core = core ∧ (Tab.get? s.teams c.team).isNone then { c with away := !c.away } else c
    l1 := s.l1.map fun (l : Line) => if l.loc = core then { l with way := if l.way < 16 then l.way + 16 else l.way - 16 } else l
    cnt := s.cnt.filter (fun e => !keys.contains e.1) ++ (s.core core).shCnt
    cnt0 := s.cnt0.filter (fun e => !keys.contains e.1) ++ (s.core core).shCnt
    cores := Tab.set s.cores core { s.core core with shadow := out, shCnt := s.cnt.filter fun e => keys.contains e.1 } }
  wi.foldl State.revive s

def State.swapDie (s : State) (part die : Nat) : State := (s.dieCores part die).foldl State.swapCore s

/-- The switch has ended where every die is back, or every die has exchanged and the other tenant resumes. -/
def State.switchEnd (s : State) (part : Nat) : State :=
  match (s.part part).sw with
  | none => s
  | some w =>
    if w.dies.all fun d => d.2 == .back then s.modPart part fun p => { p with sw := none }
    else if !w.aborted && w.dies.all fun d => d.2 == .exchanged then
      s.modPart part fun p => { p with sw := none, tenant := 1 - p.tenant, consec := 0 }
    else s

/-- Whether a die's exchange has ended. -/
def State.exchanged? (s : State) (part die : Nat) : Bool :=
  match (s.part part).sw.bind fun w => w.die? die with
  | some (.exchanging t) => decide (t + Config.exchangeClocks ≤ s.clock)
  | some (.backing t) => decide (t ≤ s.clock)
  | _ => false

/-- `EXCHANGE_END`. -/
def execExchangeEnd (part die : Nat) (s : State) : Host.Outcome State Fault Refusal :=
  if !s.exchanged? part die then .next { s with stalled := true }
  else match (s.part part).sw.bind fun w => w.die? die with
    | some (.exchanging _) => .next (((s.swapDie part die).setDie part die .exchanged).switchEnd part)
    | _ => .next ((s.setDie part die .back).switchEnd part)

/-- A die has missed the deadline. -/
def State.missed (s : State) (part : Nat) : Bool :=
  match (s.part part).sw with
  | some w => !w.aborted && decide (w.tick + Config.switchDeadline ≤ s.clock) && w.dies.any fun d => d.2 == .halting
  | none => false

/-- What an abort does to a die: it goes back to the outgoing tenant. What that tenant's instructions still hold is sent again once the die is back
(`State.settleOp`). -/
def State.abortDie (s : State) (part die : Nat) : State :=
  match (s.part part).sw.bind fun w => w.die? die with
  | some .halting =>
    let ws := s.wavesOf ((s.dieCores part die).flatMap s.teamsOn)
    let stop (s : State) (w : Nat) : State := (s.wave w).frags.foldl (fun s f => s.stopFrag ⟨w, f.entry⟩) s
    (ws.foldl (fun s w => (stop s w).revive w) s).setDie part die .back
  | some (.exchanging t) =>
    let ws := s.wavesOf ((s.dieCores part die).flatMap s.teamsOn)
    let s := (s.dieCores part die).foldl State.dropCached s
    (ws.foldl State.revive s).setDie part die (.backing (t + 2 * Config.exchangeClocks))
  | some .exchanged => (s.swapDie part die).setDie part die (.backing (s.clock + Config.exchangeClocks))
  | _ => s

/-- `SWITCH_ABORT`. -/
def execSwitchAbort (part : Nat) (s : State) : Host.Outcome State Fault Refusal :=
  if !s.missed part then .next { s with stalled := true }
  else
    let dies := match (s.part part).sw with
      | some w => w.dies.map Prod.fst
      | none => []
    let s : State := dies.foldl (fun (s : State) d => s.abortDie part d) s
    let s := s.modPart part fun p => { p with aborts := min (p.aborts + 1) (2 ^ 32 - 1), consec := p.consec + 1
                                              sw := p.sw.map fun w => { w with aborted := true } }
    let s := if (s.part part).consec % 3 = 0 then s.post part { kind := 8 } else s
    .next (s.switchEnd part)

end Sys2Proof.Machine
end

