-- ==== Sys2Proof/Machine/Integer.lean ====
section
/-! DEFINITION. Integer and address instructions (R133 to R138). Each meaning is one function on bit vectors, applied in every lane that
takes part at the width of the type. -/

namespace Sys2Proof.Machine

/-- Whether a type is signed (R122). -/
def IType.signed : IType → Bool
  | .s32 => true
  | .s64 => true
  | _ => false

/-- One source. -/
def int1 (x : I1) (f : {n : Nat} → BitVec n → BitVec n) (s : State) : Host.Outcome State Fault Refusal :=
  issue (laneUses .vec x.t.w64 x.d [su x.t.w64 x.a]) x.h (fun i _ => .go fun t =>
    if x.t.w64 then t.putDst64 i x.d fun l => f (i.v64 x.a l) else t.putDst i x.d fun l => f (i.v32 x.a l)) s

/-- One source, a 32-bit result at every width. -/
def intCount (x : I1) (f : {n : Nat} → BitVec n → Nat) (s : State) : Host.Outcome State Fault Refusal :=
  issue (laneUses .vec false x.d [su x.t.w64 x.a]) x.h (fun i _ => .go fun t =>
    t.putDst i x.d fun l => BitVec.ofNat 32 (if x.t.w64 then f (i.v64 x.a l) else f (i.v32 x.a l))) s

/-- Two sources. -/
def int2 (x : I2) (f : {n : Nat} → BitVec n → BitVec n → BitVec n) (s : State) : Host.Outcome State Fault Refusal :=
  issue (laneUses .vec x.t.w64 x.d [su x.t.w64 x.a, su x.t.w64 x.b]) x.h (fun i _ => .go fun t =>
    if x.t.w64 then t.putDst64 i x.d fun l => f (i.v64 x.a l) (i.v64 x.b l)
    else t.putDst i x.d fun l => f (i.v32 x.a l) (i.v32 x.b l)) s

/-- A source and a 32-bit unsigned control from B (R135, R136). -/
def intCtl (x : I2) (f : {n : Nat} → BitVec n → Nat → BitVec n) (s : State) : Host.Outcome State Fault Refusal :=
  issue (laneUses .vec x.t.w64 x.d [su x.t.w64 x.a, su false x.b]) x.h (fun i _ => .go fun t =>
    if x.t.w64 then t.putDst64 i x.d fun l => f (i.v64 x.a l) (i.v32 x.b l).toNat
    else t.putDst i x.d fun l => f (i.v32 x.a l) (i.v32 x.b l).toNat) s

/-! ### Results -/

/-- The high half of a product (R133). -/
def mulHigh (sg : Bool) {n : Nat} (a b : BitVec n) : BitVec n :=
  if sg then BitVec.ofInt n (a.toInt * b.toInt / 2 ^ n) else BitVec.ofNat n (a.toNat * b.toNat / 2 ^ n)

def absOf (sg : Bool) {n : Nat} (a : BitVec n) : BitVec n := if sg && a.msb then -a else a

/-- The value of an operand as its type reads it. -/
def intOf (sg : Bool) {n : Nat} (a : BitVec n) : Int := if sg then a.toInt else a.toNat

def minOf (sg : Bool) {n : Nat} (a b : BitVec n) : BitVec n := if intOf sg b < intOf sg a then b else a
def maxOf (sg : Bool) {n : Nat} (a b : BitVec n) : BitVec n := if intOf sg a < intOf sg b then b else a

/-- Shifts and rotation (R135). -/
def shlOf {n : Nat} (a : BitVec n) (k : Nat) : BitVec n := if n ≤ k then 0 else a <<< k
def shrOf {n : Nat} (a : BitVec n) (k : Nat) : BitVec n := if n ≤ k then 0 else a >>> k
def sarOf {n : Nat} (a : BitVec n) (k : Nat) : BitVec n := a.sshiftRight (min k n)
def rotOf {n : Nat} (a : BitVec n) (k : Nat) : BitVec n := a.rotateLeft (k % n)

/-- Position, and the bit after the last one, of a field (R136): none where the field is empty. -/
def fieldOf (n ctl : Nat) : Option (Nat × Nat) :=
  let pos := ctl % 256
  let len := ctl / 256 % 256
  if len = 0 ∨ n ≤ pos then none else some (pos, min (pos + len) n)

def bfeOf (sg : Bool) {n : Nat} (a : BitVec n) (ctl : Nat) : BitVec n :=
  match fieldOf n ctl with
  | none => 0
  | some (pos, hi) =>
    let k := hi - pos
    let x := (a >>> pos).toNat % 2 ^ k
    if sg && decide (2 ^ (k - 1) ≤ x) then BitVec.ofInt n ((x : Int) - 2 ^ k) else BitVec.ofNat n x

def bfiOf {n : Nat} (a b : BitVec n) (ctl : Nat) : BitVec n :=
  match fieldOf n ctl with
  | none => b
  | some (pos, hi) =>
    let m : BitVec n := BitVec.ofNat n (2 ^ (hi - pos) - 1) <<< pos
    (b &&& ~~~m) ||| ((a <<< pos) &&& m)

def popcOf {n : Nat} (a : BitVec n) : Nat := ((List.range n).filter fun i => a.getLsbD i).length
def clzOf {n : Nat} (a : BitVec n) : Nat := if a = 0 then n else n - 1 - Nat.log2 a.toNat

/-! ### The instructions -/

/-- `MOV`. From a queue to a vector it is a queue pop, as `QPOP` (R33, R370): the next read of the register is a consuming one. -/
def execMov (x : I1) (s : State) : Host.Outcome State Fault Refusal :=
  match x.d with
  | .v n _ =>
    if x.a.isQ && !x.t.w64 then
      issue (laneUses .vec false x.d [su false x.a]) x.h (fun i _ => .go fun t =>
        (t.putDst i x.d (i.v32 x.a)).modWave i.w.id fun w => if i.part = 0 then w else w.setV n.toNat { w.vreg n.toNat with owed := true }) s
    else int1 x (fun a => a) s
  | _ => int1 x (fun a => a) s

/-- `MOVI`: `.z64` zero-extends the 32-bit immediate. -/
def execMovi (x : I1) (s : State) : Host.Outcome State Fault Refusal :=
  int1 x (fun {n} a => if x.t = .z64 then BitVec.ofNat n (a.toNat % 2 ^ 32) else a) s

/-- `IADD`. -/
def execIadd (x : I2) (s : State) : Host.Outcome State Fault Refusal := int2 x (fun a b => a + b) s

/-- `IADDC` (R134). -/
def execIaddc (x : ICarry) (s : State) : Host.Outcome State Fault Refusal :=
  issue { laneUses .vec false x.d [su false x.a, su false x.b] with ps := [x.cin.toNat, x.cout.toNat] } x.h (fun i _ => .go fun t =>
    let sum (l : Nat) : Nat := (i.v32 x.a l).toNat + (i.v32 x.b l).toNat + (if (i.w.pred i.hm x.cin.toNat).getLsbD l then 1 else 0)
    (t.putDst i x.d fun l => BitVec.ofNat 32 (sum l)).putP i x.cout fun l => decide (2 ^ 32 ≤ sum l)) s

/-- `ISUB`. -/
def execIsub (x : I2) (s : State) : Host.Outcome State Fault Refusal := int2 x (fun a b => a - b) s

/-- `IMUL`. -/
def execImul (x : I2) (s : State) : Host.Outcome State Fault Refusal := int2 x (fun a b => a * b) s

/-- `IMULH`. -/
def execImulh (x : I2) (s : State) : Host.Outcome State Fault Refusal := int2 x (mulHigh (IType.signed x.t)) s

/-- `IMAD`. -/
def execImad (x : I3) (s : State) : Host.Outcome State Fault Refusal :=
  issue (laneUses .vec x.t.w64 x.d [su x.t.w64 x.a, su x.t.w64 x.b, su x.t.w64 x.c]) x.h (fun i _ => .go fun t =>
    if x.t.w64 then t.putDst64 i x.d fun l => i.v64 x.a l * i.v64 x.b l + i.v64 x.c l
    else t.putDst i x.d fun l => i.v32 x.a l * i.v32 x.b l + i.v32 x.c l) s

/-- `IABS`. -/
def execIabs (x : I1) (s : State) : Host.Outcome State Fault Refusal := int1 x (absOf (IType.signed x.t)) s

/-- `INEG`. -/
def execIneg (x : I1) (s : State) : Host.Outcome State Fault Refusal := int1 x (fun a => -a) s

/-- `IMIN`. -/
def execImin (x : I2) (s : State) : Host.Outcome State Fault Refusal := int2 x (minOf (IType.signed x.t)) s

/-- `IMAX`. -/
def execImax (x : I2) (s : State) : Host.Outcome State Fault Refusal := int2 x (maxOf (IType.signed x.t)) s

/-- `AND`. -/
def execAnd (x : I2) (s : State) : Host.Outcome State Fault Refusal := int2 x (fun a b => a &&& b) s

/-- `OR`. -/
def execOr (x : I2) (s : State) : Host.Outcome State Fault Refusal := int2 x (fun a b => a ||| b) s

/-- `XOR`. -/
def execXor (x : I2) (s : State) : Host.Outcome State Fault Refusal := int2 x (fun a b => a ^^^ b) s

/-- `NOT`. -/
def execNot (x : I1) (s : State) : Host.Outcome State Fault Refusal := int1 x (fun a => ~~~a) s

/-- `SHL`. -/
def execShl (x : I2) (s : State) : Host.Outcome State Fault Refusal := intCtl x shlOf s

/-- `SHR`. -/
def execShr (x : I2) (s : State) : Host.Outcome State Fault Refusal := intCtl x shrOf s

/-- `SAR`. -/
def execSar (x : I2) (s : State) : Host.Outcome State Fault Refusal := intCtl x sarOf s

/-- `ROT`. -/
def execRot (x : I2) (s : State) : Host.Outcome State Fault Refusal := intCtl x rotOf s

/-- `BFE`. -/
def execBfe (x : I2) (s : State) : Host.Outcome State Fault Refusal := intCtl x (bfeOf (IType.signed x.t)) s

/-- `BFI`. -/
def execBfi (x : I3) (s : State) : Host.Outcome State Fault Refusal :=
  issue (laneUses .vec x.t.w64 x.d [su x.t.w64 x.a, su x.t.w64 x.b, su false x.c]) x.h (fun i _ => .go fun t =>
    if x.t.w64 then t.putDst64 i x.d fun l => bfiOf (i.v64 x.a l) (i.v64 x.b l) (i.v32 x.c l).toNat
    else t.putDst i x.d fun l => bfiOf (i.v32 x.a l) (i.v32 x.b l) (i.v32 x.c l).toNat) s

/-- `POPC`. -/
def execPopc (x : I1) (s : State) : Host.Outcome State Fault Refusal := intCount x popcOf s

/-- `CLZ`. -/
def execClz (x : I1) (s : State) : Host.Outcome State Fault Refusal := intCount x clzOf s

/-- `BREV`. -/
def execBrev (x : I1) (s : State) : Host.Outcome State Fault Refusal := int1 x BitVec.reverse s

/-- `LEA` (R137). -/
def execLea (x : ILea) (s : State) : Host.Outcome State Fault Refusal :=
  issue (laneUses .vec true x.d [su true x.a, su false x.b]) x.h (fun i _ => .go fun t =>
    t.putDst64 i x.d fun l =>
      i.v64 x.a l + (if x.zext then (i.v32 x.b l).setWidth 64 else (i.v32 x.b l).signExtend 64) <<< x.sh.toNat) s

/-- `SEL` (R138). -/
def execSel (x : ISel) (s : State) : Host.Outcome State Fault Refusal :=
  issue { laneUses .vec x.t.w64 x.d [su x.t.w64 x.a, su x.t.w64 x.b] with ps := [x.p.toNat] } x.h (fun i _ => .go fun t =>
    let c (l : Nat) : Bool := (i.w.pred i.hm x.p.toNat).getLsbD l != x.pneg
    if x.t.w64 then t.putDst64 i x.d fun l => if c l then i.v64 x.a l else i.v64 x.b l
    else t.putDst i x.d fun l => if c l then i.v32 x.a l else i.v32 x.b l) s

/-- `ISETP` (R138). -/
def execIsetp (x : ISetp) (s : State) : Host.Outcome State Fault Refusal :=
  issue { srcs := [su x.t.w64 x.a, su x.t.w64 x.b], ps := [x.pd.toNat] } x.h (fun i _ => .go fun t =>
    t.putP i x.pd fun l =>
      if x.t.w64 then ICmp.holds x.cmp (intOf (IType.signed x.t) (i.v64 x.a l)) (intOf (IType.signed x.t) (i.v64 x.b l))
      else ICmp.holds x.cmp (intOf (IType.signed x.t) (i.v32 x.a l)) (intOf (IType.signed x.t) (i.v32 x.b l))) s

end Sys2Proof.Machine
end

