-- ==== Sys2Proof/Machine/Scalar.lean ====
section
/-! DEFINITION. Scalar instructions (R147) and special registers (R83 to R86, R148 to R151). -/

namespace Sys2Proof.Machine

/-- A scalar instruction of one source: it writes once when a lane takes part. -/
def sc1 (x : S1) (f : DWord → DWord) (s : State) : Host.Outcome State Fault Refusal :=
  issue { ctl with srcs := [⟨x.a, 1, 1⟩], ds := [x.d.toNat] } x.h (fun i _ => .go fun t =>
    t.modWave i.w.id fun w => w.writeS i.hm x.d.toNat (f (i.s64 x.a))) s

/-- A scalar instruction of two sources. -/
def sc2 (x : S2) (f : DWord → DWord → DWord) (s : State) : Host.Outcome State Fault Refusal :=
  issue { ctl with srcs := [⟨x.a, 1, 1⟩, ⟨x.b, 1, 1⟩], ds := [x.d.toNat] } x.h (fun i _ => .go fun t =>
    t.modWave i.w.id fun w => w.writeS i.hm x.d.toNat (f (i.s64 x.a) (i.s64 x.b))) s

/-- `SMOV`. -/
def execSmov (x : S1) (s : State) : Host.Outcome State Fault Refusal := sc1 x id s

/-- `SMOVI`: `.z` zero-extends bits [31:0]. -/
def execSmovi (x : S1F) (s : State) : Host.Outcome State Fault Refusal :=
  sc1 ⟨x.h, x.d, x.a⟩ (fun a => if x.flag then (a.setWidth 32).setWidth 64 else a) s

/-- `SADD`. -/
def execSadd (x : S2) (s : State) : Host.Outcome State Fault Refusal := sc2 x (· + ·) s

/-- `SSUB`. -/
def execSsub (x : S2) (s : State) : Host.Outcome State Fault Refusal := sc2 x (· - ·) s

/-- `SMUL`. -/
def execSmul (x : S2) (s : State) : Host.Outcome State Fault Refusal := sc2 x (· * ·) s

/-- `SAND`. -/
def execSand (x : S2) (s : State) : Host.Outcome State Fault Refusal := sc2 x (· &&& ·) s

/-- `SOR`. -/
def execSor (x : S2) (s : State) : Host.Outcome State Fault Refusal := sc2 x (· ||| ·) s

/-- `SXOR`. -/
def execSxor (x : S2) (s : State) : Host.Outcome State Fault Refusal := sc2 x (· ^^^ ·) s

/-- `SSHL`: 0 from 64 on. -/
def execSshl (x : S2) (s : State) : Host.Outcome State Fault Refusal :=
  sc2 x (fun a b => if 64 ≤ b.toNat then 0 else a <<< b.toNat) s

/-- `SSHR`: logical, or arithmetic with `.a`. -/
def execSshr (x : S2F) (s : State) : Host.Outcome State Fault Refusal :=
  sc2 ⟨x.h, x.d, x.a, x.b⟩ (fun a b =>
    if x.flag then a.sshiftRight (min b.toNat 64) else if 64 ≤ b.toNat then 0 else a >>> b.toNat) s

/-- `SSETP`: the same bit in every lane of the predicate. -/
def execSsetp (x : SSetp) (s : State) : Host.Outcome State Fault Refusal :=
  issue { ctl with srcs := [⟨x.a, 1, 1⟩, ⟨x.b, 1, 1⟩], ps := [x.pd.toNat] } x.h (fun i _ => .go fun t =>
    let a := i.s64 x.a
    let b := i.s64 x.b
    let r := if x.z64 then ICmp.holds x.cmp a.toNat b.toNat else ICmp.holds x.cmp a.toInt b.toInt
    t.modWave i.w.id fun w => w.setP i.hm x.pd.toNat (fullOf i.w.w32) (if r then full else 0)) s

/-! ### Special registers -/

/-- A special register as a lane of the issuing fragment reads it (R83, R387). -/
def State.special (s : State) (i : Iss) (n l : Nat) : DWord :=
  let t := s.team i.w.team
  let num : Nat → DWord := BitVec.ofNat 64
  match n with
  | 0 => num l
  | 1 => num (if i.w.w32 then 2 * i.w.num + i.w.half else i.w.num)
  | 2 => num t.idx
  | 3 => num i.w.role
  | 4 => num t.gx
  | 5 => num t.gy
  | 6 => num t.gz
  | 7 => num (t.idx % t.gx)
  | 8 => num (t.idx / t.gx % t.gy)
  | 9 => num (t.idx / t.gx / t.gy)
  | 10 => num i.w.core
  | 11 => num (i.w.core / 8)
  | 12 => num (i.w.core / 40)
  | 13 => num s.clock
  | 14 => i.f.fmt
  | 15 => i.w.md.setWidth 64
  | 16 => i.w.flags.setWidth 64
  | 17 => i.w.wpc
  | 18 => i.w.acc.setWidth 64
  | 19 => i.w.rej.setWidth 64
  | 20 => i.w.keyLo
  | 21 => i.w.keyHi
  | 22 => i.w.ctr l
  | 23 => toPtr i.w.base
  | n => Tab.getD 0 i.w.trec n

/-- `RDS` (R148). -/
def execRds (x : Rds) (s : State) : Host.Outcome State Fault Refusal :=
  let n := x.n.toNat
  issue { laneUses .once (special64 n) x.d [] with whole := true } x.h (fun i s => .go fun t =>
    match x.d with
    | .s d => t.modWave i.w.id fun w => w.writeS i.hm d.toNat (s.special i n ((lanesOf i.part).headD 0))
    | d => if special64 n then t.putDst64 i d (s.special i n) else t.putDst i d fun l => (s.special i n l).setWidth 32) s

/-- The writable bits of `$fmt` (R114) and `$mode` (R85). -/
def fmtBits : DWord := 0x0FFF33FF
def modeBits : BitVec 32 := 0x1FFF

/-- A lane's counter is set. -/
def Wave.setCtr (w : Wave) (l : Nat) (x : DWord) : Wave := { w with rngctr := Tab.set w.rngctr l x }

/-- Writing a special register (R83, R149): `v` gives a lane's value. Reserved bits are ignored (R6). -/
def State.writeSpecial (s : State) (r : FragRef) (i : Iss) (n : Nat) (v : Nat → DWord) : State :=
  let x := v 0
  match n with
  | 14 => s.modFrag r fun f => { f with fmt := x &&& fmtBits }
  | 15 => s.modWave r.wave fun w => { w with md := x.setWidth 32 &&& modeBits }
  | 16 => s.modWave r.wave fun w => { w with flags := w.flags &&& ~~~(x.setWidth 32) }
  | 18 => s.modWave r.wave fun w => { w with acc := x.setWidth 32 }
  | 19 => s.modWave r.wave fun w => { w with rej := x.setWidth 32 }
  | 20 => s.modWave r.wave fun w => { w with keyLo := x }
  | 21 => s.modWave r.wave fun w => { w with keyHi := x }
  | 22 => s.modWave r.wave fun w => (lanesOf i.part).foldl (fun w l => w.setCtr l (v l)) w
  | 34 => s.modWave r.wave fun w => { w with trec := Tab.set w.trec 34 x }
  | _ => s

/-- `WRS` (R149). -/
def execWrs (x : Wrs) (s : State) : Host.Outcome State Fault Refusal :=
  issue { ctl with srcs := [⟨x.a, 2, 1⟩] } x.h (fun i s => .go fun t =>
    t.writeSpecial s.curRef i x.n.toNat (i.v64 x.a)) s

/-- `SETFMT` (R150). -/
def execSetfmt (x : HA) (s : State) : Host.Outcome State Fault Refusal :=
  issue { ctl with srcs := [⟨x.a, 1, 1⟩] } x.h (fun i s => .go fun t =>
    t.writeSpecial s.curRef i 14 (i.v64 x.a)) s

/-- `$mode` with the bits that a source's mask names replaced (R151). -/
def setModeBits (md : BitVec 32) (a : DWord) : BitVec 32 :=
  let m := (a >>> 16).setWidth 32 &&& modeBits
  (md &&& ~~~m) ||| (a.setWidth 32 &&& m)

/-- `SETMODE` (R151). -/
def execSetmode (x : HA) (s : State) : Host.Outcome State Fault Refusal :=
  issue { ctl with srcs := [⟨x.a, 1, 1⟩] } x.h (fun i _ => .go fun t =>
    t.modWave i.w.id fun w => { w with md := setModeBits w.md (i.s64 x.a) }) s

end Sys2Proof.Machine
end

