-- ==== Sys2Proof/Machine/Digest.lean ====
section
/-! DEFINITION. The digest SHA-256 and the signature RSASSA-PKCS1-v1_5, which the quote of `attest` uses (R436). The manual names both and does not write
them out: they are taken from FIPS 180-4 and RFC 8017 (log entry 8). -/

namespace Sys2Proof.Machine

/-- The constants of the 64 rounds. -/
def shaK : List Word :=
  [0x428a2f98, 0x71374491, 0xb5c0fbcf, 0xe9b5dba5, 0x3956c25b, 0x59f111f1, 0x923f82a4, 0xab1c5ed5]
    ++ [0xd807aa98, 0x12835b01, 0x243185be, 0x550c7dc3, 0x72be5d74, 0x80deb1fe, 0x9bdc06a7, 0xc19bf174]
    ++ [0xe49b69c1, 0xefbe4786, 0x0fc19dc6, 0x240ca1cc, 0x2de92c6f, 0x4a7484aa, 0x5cb0a9dc, 0x76f988da]
    ++ [0x983e5152, 0xa831c66d, 0xb00327c8, 0xbf597fc7, 0xc6e00bf3, 0xd5a79147, 0x06ca6351, 0x14292967]
    ++ [0x27b70a85, 0x2e1b2138, 0x4d2c6dfc, 0x53380d13, 0x650a7354, 0x766a0abb, 0x81c2c92e, 0x92722c85]
    ++ [0xa2bfe8a1, 0xa81a664b, 0xc24b8b70, 0xc76c51a3, 0xd192e819, 0xd6990624, 0xf40e3585, 0x106aa070]
    ++ [0x19a4c116, 0x1e376c08, 0x2748774c, 0x34b0bcb5, 0x391c0cb3, 0x4ed8aa4a, 0x5b9cca4f, 0x682e6ff3]
    ++ [0x748f82ee, 0x78a5636f, 0x84c87814, 0x8cc70208, 0x90befffa, 0xa4506ceb, 0xbef9a3f7, 0xc67178f2]

/-- The first hash value. -/
def shaStart : List Word := [0x6a09e667, 0xbb67ae85, 0x3c6ef372, 0xa54ff53a, 0x510e527f, 0x9b05688c, 0x1f83d9ab, 0x5be0cd19]

/-- The words of a block, extended to 64. -/
def shaWords (m : List Word) : List Word :=
  (List.range 48).foldl (fun w _ =>
    let at? (k : Nat) : Word := w.getD (w.length - k) 0
    let x := at? 15
    let y := at? 2
    w ++ [(y.rotateRight 17 ^^^ y.rotateRight 19 ^^^ (y >>> 10)) + at? 7 + (x.rotateRight 7 ^^^ x.rotateRight 18 ^^^ (x >>> 3)) + at? 16]) m

/-- One round, with its constant and word. -/
def shaRound (v : List Word) (k : Word × Word) : List Word := match v with
  | [a, b, c, d, e, f, g, h] =>
    let t := h + (e.rotateRight 6 ^^^ e.rotateRight 11 ^^^ e.rotateRight 25) + ((e &&& f) ^^^ (~~~e &&& g)) + k.1 + k.2
    let u := (a.rotateRight 2 ^^^ a.rotateRight 13 ^^^ a.rotateRight 22) + ((a &&& b) ^^^ (a &&& c) ^^^ (b &&& c))
    [t + u, a, b, c, d + t, e, f, g]
  | v => v

/-- A block of 16 words joins the hash value. -/
def shaBlock (h m : List Word) : List Word := List.zipWith (· + ·) h ((shaK.zip (shaWords m)).foldl shaRound h)

/-- Four bytes, highest first. -/
def beWord (bs : List Byte) : Word := BitVec.ofNat 32 (leNat bs.reverse)

/-- The hash value after `n` blocks. -/
def shaBlocks : Nat → List Byte → List Word → List Word
  | 0, _, h => h
  | n + 1, bs, h => shaBlocks n (bs.drop 64) (shaBlock h ((List.range 16).map fun i => beWord ((bs.drop (4 * i)).take 4)))

/-- A message with its padding and length in bits. -/
def shaPadded (bs : List Byte) : List Byte :=
  bs ++ [0x80] ++ List.replicate ((119 - bs.length % 64) % 64) 0 ++ (leBytes 8 (8 * bs.length)).reverse

/-- The digest of a message, 32 bytes. -/
def sha256 (bs : List Byte) : List Byte :=
  (shaBlocks ((bs.length + 72) / 64) (shaPadded bs) shaStart).flatMap fun w => (leBytes 4 w.toNat).reverse

/-- `b` to the power of the low `k` bits of `e`, modulo `n`. -/
def powMod (n : Nat) : Nat → Nat → Nat → Nat
  | 0, _, _ => 1 % n
  | k + 1, b, e => (if e % 2 = 1 then b else 1) * powMod n k (b * b % n) (e / 2) % n

/-- The encoded message of RSASSA-PKCS1-v1_5 with SHA-256 (RFC 8017, 9.2), 384 bytes: `00 01`, `FF`s, `00`, the algorithm's prefix and the digest. -/
def encoded (m : List Byte) : List Byte :=
  [0, 1] ++ List.replicate 330 0xFF ++ [0]
    ++ [0x30, 0x31, 0x30, 0x0d, 0x06, 0x09, 0x60, 0x86, 0x48, 0x01, 0x65, 0x03, 0x04, 0x02, 0x01, 0x05, 0x00, 0x04, 0x20] ++ sha256 m

/-- The signature of a message by the device attestation key (R436), 384 bytes, highest first. -/
def signature (m : List Byte) : List Byte :=
  (leBytes 384 (powMod Config.attestModulus 3072 (leNat (encoded m).reverse) Config.attestExponent)).reverse

end Sys2Proof.Machine
end

