-- ==== Sys2Proof/Machine/Loader.lean ====
section
/-! DEFINITION. Code objects: the stored header (R426), the loader's checks (R374, R380, R427, R428) and compressed sections (R429). -/

namespace Sys2Proof.Machine

/-- Bits `lo` to `lo + n - 1` of a number. -/
def bitsOf (x lo n : Nat) : Nat := x / 2 ^ lo % 2 ^ n

/-- A little-endian number of `n` stored bytes; bytes beyond the stored length read 0. -/
def stored (bs : List Byte) (a n : Nat) : Nat := leNat ((bs.drop a).take n)

/-- The header of a stored object, as a number of 1,024 bits. -/
def objHeader (bs : List Byte) : Nat := stored bs 0 128

def ohCsize (h : Nat) : Nat := bitsOf h 224 32
def ohRoff (h : Nat) : Nat := bitsOf h 192 32
def ohSoff (h : Nat) : Nat := bitsOf h 160 32
def ohNsec (h : Nat) : Nat := bitsOf h 144 8
def ohNargs (h : Nat) : Nat := bitsOf h 128 6
def ohLocal (h : Nat) : Nat := bitsOf h 96 19
def ohMode (h : Nat) : Nat := bitsOf h 64 32
def ohNroles (h : Nat) : Nat := bitsOf h 56 3
def ohDecode (h : Nat) : Nat := bitsOf h 48 2
def ohMajor (h : Nat) : Nat := bitsOf h 40 8
def ohMinor (h : Nat) : Nat := bitsOf h 32 8

/-- The feature version and decode mode are refused (R427). -/
def versionBad (h : Nat) : Bool :=
  decide (3 < ohMajor h) || decide (ohMajor h = 3 ∧ 2 < ohMinor h) || decide (ohMajor h = 0)
    || decide (ohDecode h = 0 ∧ ohMajor h < 3) || decide (ohDecode h = 1 ∧ ohMajor h < 2)

/-- The code size field is in its range. -/
def csizeOk (h : Nat) : Bool := decide (32 ≤ ohCsize h) && decide (ohCsize h % 32 = 0)

/-- The header is refused (R428). -/
def headerBad (h len : Nat) : Bool :=
  decide (len < 128) || decide (bitsOf h 0 32 ≠ 0x4F574B48) || !csizeOk h
    || decide (ohRoff h % 32 ≠ 0) || decide (ohSoff h % 32 ≠ 0) || decide (ohNsec h < 2) || decide (32 < ohNargs h)
    || decide (393216 < ohLocal h) || decide (ohLocal h % 8 ≠ 0) || decide (2 ^ 13 ≤ ohMode h)
    || decide (ohNroles h = 0) || decide (4 < ohNroles h) || decide (ohDecode h = 3)
    || decide (bitsOf h 384 640 ≠ 0) || decide (bitsOf h 152 8 ≠ 0) || decide (bitsOf h 134 10 ≠ 0) || decide (bitsOf h 115 13 ≠ 0)
    || decide (bitsOf h 59 5 ≠ 0) || decide (bitsOf h 53 3 ≠ 0)

/-- A role-table entry. -/
def roleOf (e : Nat) : Role :=
  { entry := bitsOf e 96 32, prod := BitVec.ofNat 4 (bitsOf e 92 4), tiles := bitsOf e 87 5, sgran := bitsOf e 82 5, vgran := bitsOf e 76 6
    waves := bitsOf e 71 5 }

def objRoles (bs : List Byte) (h : Nat) : List Role :=
  (List.range (ohNroles h)).map fun i => roleOf (stored bs (ohRoff h + 32 * i) 32)

/-- The role table is refused (R374, R427). -/
def rolesBad (bs : List Byte) (h : Nat) : Bool :=
  let rs := objRoles bs h
  ((List.range (ohNroles h)).any fun i => decide (stored bs (ohRoff h + 32 * i) 32 % 2 ^ 71 ≠ 0))
    || (rs.any fun r => decide (16 < r.tiles) || decide (16 < r.sgran) || decide (32 < r.vgran) || decide (r.waves = 0) || decide (16 < r.waves)
      || decide (r.entry % 8 ≠ 0) || decide (ohCsize h ≤ r.entry))
    || decide (16 < (rs.map Role.waves).sum)
    || ((List.range 4).any fun q => decide (1 < (rs.filter fun r => r.prod.getLsbD q).length))
    || (decide (ohDecode h ≠ 0) && rs.any fun r => decide (r.prod ≠ 0) || decide (r.tiles ≠ 0))

/-- A section-table entry (R380). -/
structure Sect where
  off    : Nat
  stored : Nat
  bound  : Nat
  dict   : Nat
  rsv    : Nat
  lz     : Bool
  kind   : Nat
  deriving DecidableEq, Repr

def sectOf (e : Nat) : Sect :=
  { off := bitsOf e 192 64, stored := bitsOf e 160 32, bound := bitsOf e 128 32, dict := bitsOf e 120 8, rsv := bitsOf e 9 111
    lz := bitsOf e 8 1 == 1, kind := bitsOf e 0 8 }

def objSects (bs : List Byte) (h : Nat) : List Sect := (List.range (ohNsec h)).map fun i => sectOf (stored bs (ohSoff h + 32 * i) 32)

/-- The section table is refused (R426, R428). -/
def sectsBad (bs : List Byte) (h : Nat) : Bool :=
  let ss := objSects bs h
  let kindAt (i : Nat) : Nat := (ss[i]?.map Sect.kind).getD 3
  (ss.any fun x => decide (bs.length < x.off + x.stored) || decide (x.rsv ≠ 0) || decide (2 < x.kind)
      || (decide (x.dict ≠ 0) && decide (kindAt x.dict ≠ 2))
      || (decide (x.kind = 2) && (x.lz || decide (x.stored ≠ x.bound) || decide (4096 < x.bound) || decide (x.dict ≠ 0))))
    || (match ss with
      | x :: _ => decide (x.off ≠ 0) || decide (x.kind ≠ 0) || x.lz || decide (x.dict ≠ 0) || decide (x.stored ≠ x.bound)
          || decide (x.bound < max (ohRoff h + 32 * ohNroles h) (ohSoff h + 32 * ohNsec h))
      | [] => true)
    || decide (((ss.drop 1).filter fun x => x.kind == 0).length ≠ 1)

/-! ### Henem's LZ format (R429) -/

/-- What an expansion has made: dictionary and output in reverse order, and the size of the output. -/
structure Lz where
  hist : List Byte
  size : Nat
  deriving DecidableEq, Repr

/-- One byte is appended; status 8 beyond the bound. -/
def Lz.push (bound : Nat) (b : Byte) (z : Lz) : Except Nat Lz :=
  if bound < z.size + 1 then .error 8 else .ok { hist := b :: z.hist, size := z.size + 1 }

/-- Extension bytes of a length: the sum, and the rest. -/
def lzExt : List Byte → Except Nat (Nat × List Byte)
  | [] => .error 7
  | b :: r => if b.toNat ≠ 255 then .ok (b.toNat, r) else match lzExt r with
    | .ok (n, r) => .ok (255 + n, r)
    | .error e => .error e

/-- `n` literals. -/
def lzLits (bound : Nat) : Nat → List Byte → Lz → Except Nat (List Byte × Lz)
  | 0, bs, z => .ok (bs, z)
  | _ + 1, [], _ => .error 7
  | n + 1, b :: bs, z => match z.push bound b with
    | .ok z => lzLits bound n bs z
    | .error e => .error e

/-- A match of `m` bytes at distance `d`, one byte at a time. -/
def lzMatch (bound d : Nat) : Nat → Lz → Except Nat Lz
  | 0, z => .ok z
  | m + 1, z => match z.push bound (z.hist.getD (d - 1) 0) with
    | .ok z => lzMatch bound d m z
    | .error e => .error e

/-- A length with its extension. -/
def lzLen (short base : Nat) (bs : List Byte) : Except Nat (Nat × List Byte) :=
  if short = 15 then match lzExt bs with
    | .ok (n, r) => .ok (base + 15 + n, r)
    | .error e => .error e
  else .ok (base + short, bs)

/-- Sequences until the stored bytes end. Each takes a byte at least, so as many as there are bytes suffice. -/
def lzRun (bound dict : Nat) : Nat → List Byte → Lz → Except Nat Lz
  | 0, _, _ => .error 7
  | _ + 1, [], _ => .error 7
  | k + 1, t :: bs, z => do
    let (l, bs) ← lzLen (t.toNat / 16) 0 bs
    let (bs, z) ← lzLits bound l bs z
    match bs with
    | [] => if t.toNat % 16 ≠ 0 then .error 7 else .ok z
    | [_] => .error 7
    | a :: b :: bs => do
      let d := a.toNat + 256 * b.toNat
      let (m, bs) ← lzLen (t.toNat % 16) 3 bs
      if d = 0 ∨ dict + z.size < d then .error 7
      else do
        let z ← lzMatch bound d m z
        lzRun bound dict k bs z

/-- The bytes of a stored section. -/
def Sect.raw (bs : List Byte) (x : Sect) : List Byte := (bs.drop x.off).take x.stored

/-- A section expanded, or the status it ends the load with. -/
def Sect.expand (bs : List Byte) (ss : List Sect) (x : Sect) : Except Nat (List Byte) :=
  if !x.lz then (if x.bound < x.stored then .error 8 else .ok (x.raw bs))
  else
    let dict := if x.dict = 0 then [] else ((ss[x.dict]?).map (Sect.raw bs)).getD []
    match lzRun x.bound dict.length (x.stored + 1) (x.raw bs) { hist := dict.reverse, size := 0 } with
    | .ok z => .ok (z.hist.take z.size).reverse
    | .error e => .error e

/-- The next multiple of 128. -/
def up128 (n : Nat) : Nat := (n + 127) / 128 * 128

/-- Sections laid out one after another from an offset, each at a multiple of 128: their offsets with their bytes, and the end. -/
def layOut : Nat → List (List Byte) → List (Nat × List Byte) × Nat
  | e, [] => ([], e)
  | e, x :: xs =>
    let r := layOut (up128 e + x.length) xs
    ((up128 e, x) :: r.1, r.2)

/-- The loaded image of an object: offsets from the code base with their bytes, and its length. -/
structure Image where
  parts : List (Nat × List Byte)
  len   : Nat
  deriving DecidableEq, Repr

/-- Checking and expanding a stored object: its image, or the status with the length of the destination that the failed load leaves zero
(R427 to R429, R432). -/
def readObject (bs : List Byte) : Except (Nat × Nat) Image :=
  let h := objHeader bs
  let c := if csizeOk h then ohCsize h else 0
  if versionBad h then .error (3, c)
  else if headerBad h bs.length then .error (4, c)
  else if rolesBad bs h then .error (5, c)
  else if sectsBad bs h then .error (6, c)
  else
    let ss := objSects bs h
    let code := (ss.drop 1).filter fun x => x.kind == 0
    let ro := (ss.drop 1).filter fun x => x.kind == 1
    let most := ro.foldl (fun e x => up128 e + x.bound) c
    match (code ++ ro).mapM (Sect.expand bs ss) with
    | .error e => .error (e, most)
    | .ok outs =>
      let text := outs.headD []
      if c < text.length then .error (8, most)
      else
        let (parts, len) := layOut c (outs.drop 1)
        .ok { parts := (0, text ++ List.replicate (c - text.length) 0) :: parts, len := len }

/-- The decode mode of a header. -/
def ohMode? (h : Nat) : DecodeMode := if ohDecode h = 0 then .k3 else if ohDecode h = 1 then .k2 else .k1

/-- The object that a load enters in its context. -/
def objOf (bs : List Byte) (handle base len : Nat) : Obj :=
  let h := objHeader bs
  { handle := handle, base := base, csize := ohCsize h, top := base + len, dm := ohMode? h, w32 := bitsOf h 50 1 == 1
    idem := bitsOf h 51 1 == 1, cores := bitsOf h 52 1 == 1, mode := BitVec.ofNat 32 (ohMode h), lsize := ohLocal h, nargs := ohNargs h
    roles := objRoles bs h, image := bs }

end Sys2Proof.Machine
end

