-- ==== Sys2Proof/Machine/Sextant.lean ====
section
/-! DEFINITION. The Sextant's commands (R430 to R432, R434 to R437, R439), reset and shut-down (R433, R438), and errors (R238 to R240, R392). -/

namespace Sys2Proof.Machine

/-! ### The command ring (R430, R431) -/

/-- Where the descriptor at the read index lies in host memory. -/
def State.sxAddr (s : State) : Nat := s.sx.base.toNat % 2 ^ 51 + 64 * (s.sx.rd % 2 ^ s.sx.size)

/-- Whether the Sextant has a descriptor to take. -/
def State.sxMay (s : State) : Bool := s.sx.ready && s.sx.rd != s.sx.wr

/-- Bytes of host memory, as the Sextant reads them. -/
def State.hostNum (s : State) (a n : Nat) : Nat := s.mem.num (2 ^ 51 + a) n
def State.hostBytes (s : State) (a n : Nat) : List Byte := s.mem.bytes (2 ^ 51 + a) n

/-- A command ends: its result word, its status byte, and the read index. The Sextant writes host memory itself and leaves nothing in a cache, so its
release at `.system` has nothing to write back. -/
def State.sxDone (s : State) (status : Nat) (result : Option Nat) : State :=
  let a := s.sxAddr
  let s := match result with
    | some r => s.hostPut (a + 56) (leBytes 8 r)
    | none => s
  let s := s.hostPut (a + 1) (leBytes 1 status)
  { s with sx := { s.sx with rd := (s.sx.rd + 1) % 2 ^ 64, want := [], bad := [] } }

/-- A command that ends at once: a status other than 1, or a new state with a result. -/
def sxCommand (f : State → Except Nat (State × Option Nat)) (s : State) : Host.Outcome State Fault Refusal :=
  if !s.sxMay then .next { s with stalled := true }
  else match f s with
    | .error st => .next (s.sxDone st none)
    | .ok (t, r) => .next (t.sxDone 1 r)

def State.hasCtx (s : State) (pasid : Nat) : Bool := s.ctxs.any fun c => c.pasid == pasid

/-! ### Contexts (R431, R432) -/

/-- Zeroes at their points of order, of recalled lines (R290). -/
def State.zeroDram (s : State) (pa lines : Nat) : State :=
  (List.range lines).foldl (fun s k => (s.recall (pa + 128 * k)).pokes 0 false (pa + 128 * k) (addrs (pa + 128 * k) (List.replicate 128 0))) s

/-- Clusters of a partition that none of its children holds (R418). -/
def State.ownClusters (s : State) (part : Nat) : Nat :=
  let kids := s.parts.filter fun e => e.2.valid && e.2.level != 0 && e.2.parent == part
  ((List.range Config.clusters).filter fun c => (s.part part).clusters.testBit c && kids.all fun k => !k.2.clusters.testBit c).length

/-- `create context`: partition, tenant, PASID, descriptor. -/
def execCreateContext (c : SxOps) (s : State) : Host.Outcome State Fault Refusal :=
  sxCommand (fun s =>
    let p := c.w1.toNat
    let pasid := c.w3.toNat
    let d := c.w4.toNat
    if 63 < p ∨ !(s.part p).valid ∨ s.ownClusters p = 0 ∨ 1 < c.w2.toNat ∨ 2 ^ 20 ≤ pasid ∨ s.hasCtx pasid ∨ !inDram d 16384 ∨ d % 16384 ≠ 0 then
      .error 10
    else
      let x : Ctx := { pasid := pasid, part := p, tenant := c.w2.toNat, desc := d }
      let s := s.zeroDram d 128
      .ok ({ s with ctxs := s.ctxs ++ [x] }, none)) s

/-- Whether a context is in use: an enabled queue, a team, or a launch or task. -/
def State.ctxBusy (s : State) (pasid : Nat) : Bool :=
  (s.parts.any fun p => p.2.queues.any fun q => q.2.en && q.2.pasid == pasid) || (s.teams.any fun t => t.2.pasid == pasid)
    || (s.launches.any fun l => l.pasid == pasid) || s.parts.any fun p => p.2.tasks.any fun t => t.pasid == pasid

/-- `destroy context`. -/
def execDestroyContext (c : SxOps) (s : State) : Host.Outcome State Fault Refusal :=
  sxCommand (fun s =>
    let pasid := c.w1.toNat
    if !s.hasCtx pasid then .error 10 else if s.ctxBusy pasid then .error 11 else .ok (s.teardown pasid, none)) s

/-! ### Load and unload (R432) -/

/-- The core whose copy engine runs a load: the lowest unfenced one of the partition. -/
def State.loadCore (s : State) (part : Nat) : Option Nat :=
  ((List.range Config.cores).filter fun c => s.partOfCore c == some part && !(s.core c).fenced).head?

/-- Whether a core's copy engine works and stands between two requests. -/
def State.engineFree (s : State) (core : Nat) : Bool := s.engineOn core && s.copies.all fun c => !(c.core == core && c.running && !c.away)

/-- Whether a source range is host memory or this device's DRAM. -/
def sourceOk (pa n : Nat) : Bool := inDram pa n || (decide (2 ^ 51 ≤ pa) && decide (pa + n ≤ 2 ^ 52))

/-- Whether an image lies in the canonical space beside the images already loaded. -/
def Ctx.imageFree (c : Ctx) (base len : Nat) : Bool :=
  decide (0 < len) && decide (base / 2 ^ 56 = (base + len - 1) / 2 ^ 56) && c.objs.all fun o => decide (o.top ≤ base) || decide (base + len ≤ o.base)

/-- The pages of an image. -/
def imagePages (base len : Nat) : List Nat := (List.range ((base + len + 4095) / 4096 - base / 4096)).map (base / 4096 + ·)

/-- The entry that a load's write uses: the host maps the image with read permission (R432). -/
def State.loadEntry (s : State) (die pasid va : Nat) : Option AtcE := (s.atcOf die pasid va).filter AtcE.rd

/-- A page of a load still has to be asked for, or is being asked for. -/
def State.loadWaits (s : State) (die pasid : Nat) (pages : List Nat) : List Nat :=
  pages.filter fun p => (s.loadEntry die pasid (p * 4096)).isNone && !s.sx.bad.contains (pasid, p)

/-- The pages of a load are asked of the host: a translation first, a page request where it lacks read permission. -/
def State.loadAsk (s : State) (die pasid : Nat) (pages : List Nat) : State :=
  let s : State := { s with sx := { s.sx with want := (s.sx.want ++ pages.map fun p => (pasid, p)).dedup } }
  pages.foldl (fun s p => if s.asked pasid [p] then s
    else s.askMore die pasid p) s

/-- Bytes of an image are written through the context: each line is recalled, unparked, written back and dropped from its home slice, written
in its memory, and dropped from every instruction cache and every other L2. -/
def State.loadWrite (s : State) (die pasid va : Nat) (bs : List Byte) : State :=
  (byLine (addrs va bs)).foldl (fun s l =>
    let v := (l.headD (0, 0)).1
    match s.loadEntry die pasid v with
    | none => s
    | some e =>
      let pa := e.addr v
      if s.kindOf pa = .reserved then s
      else
        let s := (((s.recall pa).unparkAt pa false).invalLine pa).pokes pasid false pa (addrs pa (l.map Prod.snd))
        let s := if remote pa then s.cleanLine pa else s
        { s with icache := invalidated s.icache fun i => i.line == pa / 128, l2 := invalidated s.l2 fun l => l.line == pa / 128 && l.loc != s.home pa }) s

/-- A load ends with an error, which the event log records (R435). -/
def State.loadFails (s : State) (status : Nat) : State := (s.logOpen 7 none (some status)).sxDone status none

/-- `load`: PASID, source, stored length, code base. It waits until the engine is between requests, and for the pages of its destination; a failed load
leaves them zero. -/
def execLoad (c : SxOps) (s : State) : Host.Outcome State Fault Refusal :=
  let pasid := c.w1.toNat
  let src := c.w2.toNat
  let n := c.w3.toNat
  let base := low57 c.w4
  let x := s.ctx pasid
  if !s.sxMay ∨ 3 ≤ s.power then .next { s with stalled := true }
  else if !s.hasCtx pasid ∨ !canonical c.w4 ∨ base % 4096 ≠ 0 then .next (s.loadFails 10)
  else if !sourceOk src n then .next (s.loadFails 9)
  else match s.loadCore x.part with
    | none => .next (s.loadFails 10)
    | some core => if !s.engineFree core then .next { s with stalled := true } else
      let die := core / Config.coresPerDie
      let s := s.recallAll src n
      let bs := s.peeks src n
      let r := readObject bs
      let len := match r with
        | .ok i => i.len
        | .error e => e.2
      if !x.imageFree base len then .next (s.loadFails (match r with
        | .ok _ => 10
        | .error e => e.1))
      else
        let pages := imagePages base len
        let waits := s.loadWaits die pasid pages
        if !waits.isEmpty then
          if s.asked pasid waits then .next { s with stalled := true } else .next (s.loadAsk die pasid waits)
        else
          let refused := pages.any fun p => match s.loadEntry die pasid (p * 4096) with
            | some e => s.kindOf (e.addr (p * 4096)) == .reserved
            | none => true
          let zeros := s.loadWrite die pasid base (List.replicate len 0)
          match r with
          | .error e => .next (zeros.loadFails e.1)
          | .ok i =>
            if refused then .next (zeros.loadFails 9)
            else
              let s := i.parts.foldl (fun s p => s.loadWrite die pasid (base + p.1) p.2) s
              let s := s.modCtx pasid fun k => { k with objs := k.objs ++ [objOf bs x.handles base len], handles := k.handles + 1 }
              .next (s.sxDone 1 (some (x.handles + ohCsize (objHeader bs) * 2 ^ 32)))

/-- Pins of a context on a range of code. -/
def Line.unpinRange (pasid lo hi : Nat) (l : Line) : Line :=
  { l with pins := l.pins.filter fun k => !(k.1 == pasid && decide (lo ≤ k.2 + 127) && decide (k.2 < hi)) }

/-- `unload`: PASID, handle. -/
def execUnload (c : SxOps) (s : State) : Host.Outcome State Fault Refusal :=
  sxCommand (fun s =>
    let pasid := c.w1.toNat
    let h := c.w2.toNat
    match (s.ctx pasid).obj? h with
    | none => .error 10
    | some o =>
      if (s.launches.any fun l => l.pasid == pasid && l.obj == h) || s.parts.any fun p => p.2.tasks.any fun t => t.pasid == pasid && tkCode t.rq == h then
        .error 11
      else
        let f := Line.unpinRange pasid o.base (o.base + o.csize)
        .ok ({ s with icache := s.icache.map f, l2 := s.l2.map f }.modCtx pasid fun k => { k with objs := k.objs.filter fun y => y.handle != h }, none)) s

/-! ### Device configuration (R226, R238, R379, R416, R418) -/

/-- Whether an entry of a partition table keeps the rules of R379 and R418, which hold of every valid entry and of every entry that is written. -/
def partOk (ps : Tab Part) (i : Nat) : Bool :=
  let p := Tab.getD {} ps i
  let q := Tab.getD {} ps p.parent
  let e := p.entry.toNat
  let peers := ps.filter fun x => x.1 != i && x.2.valid && x.2.level == p.level && (p.level == 0 || x.2.parent == p.parent)
  (decide (p.level < 3) && (decide (p.level = 0) == decide (i < 8)) && decide (p.setw ≤ 4) && decide (0 < p.bw) && decide (p.bw ≤ 64)
      && decide (p.swap ≤ 128) && decide (p.l1park ≤ 4) && decide (bitsOf e 64 30 = 0) && decide (bitsOf e 20 12 = 0)
      && (peers.all fun x => decide (Nat.land x.2.clusters p.clusters = 0))
      && (if p.level = 0 then decide (p.parent = 0)
        else q.valid && decide (q.level + 1 = p.level) && decide (peers.length < 4) && decide (Nat.land p.clusters q.clusters = p.clusters)
          && decide (q.setw ≤ p.setw) && decide (p.tkey / 2 ^ (p.setw - q.setw) % 2 ^ q.setw = q.tkey % 2 ^ q.setw)
          && decide (p.bw ≤ q.bw) && decide (p.swap ≤ q.swap) && decide (p.l1park ≤ q.l1park) && decide (p.budget = 0) && decide (q.budget = 0)))

/-- A partition with its parent and the parent's parent; the reserved level 3 has none. -/
def State.ancestors (s : State) (part : Nat) : List Nat :=
  let up (i : Nat) : List Nat := if (s.part i).valid && (s.part i).level % 3 != 0 then [(s.part i).parent] else []
  part :: (up part ++ (up part).flatMap up)

/-- Whether a partition has a context or an enabled launch queue. -/
def State.partUsed (s : State) (part : Nat) : Bool := (s.ctxs.any fun c => c.part == part) || (s.part part).queues.any fun q => q.2.en

/-- `write partition entry`: index, 16 bytes. An entry that becomes valid starts with its counts at 0, tenant 0 and its tick at the clock. -/
def execWritePartitionEntry (c : SxOps) (s : State) : Host.Outcome State Fault Refusal :=
  sxCommand (fun s =>
    let i := c.w1.toNat
    let e : BitVec 128 := c.w3 ++ c.w2
    if 63 < i then .error 10
    else
      let old := s.part i
      let p : Part := { old with entry := e }
      let p : Part := if old.valid then p else { p with tick := s.clock, tenant := 0, consec := 0, aborts := 0, lost := 0, evLost := 0 }
      let t : State := { s with parts := Tab.set s.parts i p }
      if ((s.ancestors i ++ s.family i) ++ (t.ancestors i ++ t.family i)).any s.partUsed then .error 11
      else if !(t.parts.all fun x => (x.1 != i && !x.2.valid) || partOk t.parts x.1) then .error 10
      else .ok ({ t with cores := t.cores.map fun (x : Nat × CoreSt) => if p.clusters.testBit (x.1 / 8) || old.clusters.testBit (x.1 / 8) then (x.1, { x.2 with left := false }) else x }, none)) s

/-- Fields of a routing entry; reserved bits read 0. -/
def routeBits : DWord := 0x8F000000000000FF

/-- `write peer route`: peer, or 0 for the host path register, and 8 bytes. -/
def execWritePeerRoute (c : SxOps) (s : State) : Host.Outcome State Fault Refusal :=
  sxCommand (fun s =>
    let n := c.w1.toNat
    if 255 < n then .error 10
    else if n = 0 then .ok ({ s with hostPath := c.w2.setWidth 7 }, none)
    else if 11 < c.w2.toNat / 2 ^ 56 % 16 then .error 10
    else .ok ({ s with routes := Tab.set s.routes n (c.w2 &&& routeBits) }, none)) s

/-- `device configuration`: the park ways of dies 0 to 3, then the patrol period. -/
def execDeviceConfiguration (c : SxOps) (s : State) : Host.Outcome State Fault Refusal :=
  sxCommand (fun s =>
    let ws := [c.w1, c.w2, c.w3, c.w4].map BitVec.toNat
    if !s.ctxs.isEmpty then .error 11
    else if ws.any fun w => decide (8 < w) then .error 10
    else .ok ({ s with l2park := (List.range 4).zip ws, patrol := c.w5.toNat }, none)) s

/-! ### Reports (R431, R434, R435, R439) -/

def readingNum (r : Reading) : Nat := r.value.toNat + r.site.toNat * 2 ^ 16 + r.kind.toNat * 2 ^ 24

/-- `read sensors`: host address. -/
def execReadSensors (c : SxOps) (s : State) : Host.Outcome State Fault Refusal :=
  sxCommand (fun s => .ok (s.hostPut (c.w1.toNat % 2 ^ 51) (s.sensors.flatMap fun r => leBytes 8 (readingNum r)), some s.sensors.length)) s

def LogRec.num (r : LogRec) : Nat := r.clock % 2 ^ 64 + r.source % 256 * 2 ^ 64 + r.die % 256 * 2 ^ 72 + r.detail % 2 ^ 176 * 2 ^ 80

/-- `read event log`: host address, count. -/
def execReadEventLog (c : SxOps) (s : State) : Host.Outcome State Fault Refusal :=
  sxCommand (fun s =>
    let rs := s.log.drop (s.log.length - c.w2.toNat)
    .ok (s.hostPut (c.w1.toNat % 2 ^ 51) (rs.flatMap fun r => leBytes 32 (LogRec.num r)), some rs.length)) s

/-- The error counts of the dies, by memory in the order of R211, corrected first. -/
def State.errBytes (s : State) : List Byte :=
  (List.range 4).flatMap fun d => (List.range 10).flatMap fun m => (List.range 2).flatMap fun k => leBytes 4 (Tab.getD 0 s.errs (errKey d m k))

/-- `read and clear error counts`: host address, mask of the dies to clear. -/
def execReadAndClearErrorCounts (c : SxOps) (s : State) : Host.Outcome State Fault Refusal :=
  sxCommand (fun s =>
    if 15 < c.w2.toNat then .error 10
    else
      let t := s.hostPut (c.w1.toNat % 2 ^ 51) s.errBytes
      .ok ({ t with errs := t.errs.filter fun e => !c.w2.getLsbD (e.1 / 20) }, none)) s

/-- The nine words of a die. -/
def ageBytes (a : DieAge) : List Byte :=
  ((List.range 8).flatMap fun k => leBytes 4 (a.mon.getD k 0).toNat) ++ leBytes 4 a.life.toNat

/-- `read ageing`: host address. -/
def execReadAgeing (c : SxOps) (s : State) : Host.Outcome State Fault Refusal :=
  sxCommand (fun s => .ok (s.hostPut (c.w1.toNat % 2 ^ 51)
    ((List.range 4).flatMap fun d => ageBytes (s.ageing.getD d { mon := [], life := 0 })), none)) s

/-- `set power state` (R437). -/
def execSetPowerState (c : SxOps) (s : State) : Host.Outcome State Fault Refusal :=
  sxCommand (fun s =>
    if 3 < c.w1.toNat then .error 10
    else if c.w1 = 3 ∧ !s.ctxs.isEmpty then .error 11
    else .ok ({ s with power := c.w1.toNat }, none)) s

/-- `firmware update` (R436): the image's host address and length. -/
def execFirmwareUpdate (c : SxOps) (s : State) : Host.Outcome State Fault Refusal :=
  sxCommand (fun s =>
    let img := s.hostBytes (c.w1.toNat % 2 ^ 51) c.w2.toNat
    let k := 1 - s.sx.slot
    if !Config.firmwareOk img s.sx.roll then .error 12
    else .ok ({ s with sx := { s.sx with fw := Tab.set s.sx.fw k img, active := k } }, none)) s

/-- What a quote holds the digests of (R436): both firmware slots, the partition table and every loaded code object. -/
def State.measured (s : State) : List (List Byte) :=
  [Tab.getD [] s.sx.fw 0, Tab.getD [] s.sx.fw 1, (List.range 64).flatMap fun i => leBytes 16 (s.part i).entry.toNat]
    ++ s.ctxs.flatMap fun c => c.objs.map Obj.image

/-- The nonce and the digests of a quote, in the order of R436. -/
def State.quote (s : State) (nonce : List Byte) : List Byte := nonce ++ s.measured.flatMap sha256

/-- `attest`: nonce address, host address. The quote is what is signed and the signature; the certificate follows it and is not counted. -/
def execAttest (c : SxOps) (s : State) : Host.Outcome State Fault Refusal :=
  sxCommand (fun s =>
    let nonce := s.hostBytes (c.w1.toNat % 2 ^ 51) 32
    let q := s.quote nonce ++ signature (s.quote nonce)
    .ok (s.hostPut (c.w2.toNat % 2 ^ 51) (q ++ Config.certificate), some q.length)) s

/-- An opcode that is not listed: status 2. -/
def execUnknownOpcode (s : State) : Host.Outcome State Fault Refusal := sxCommand (fun _ => .error 2) s

/-! ### Reset, shut-down and upkeep (R433 to R439) -/

/-- What a reset keeps: host and peer memory, the log's last 64 records, the ageing monitors, the firmware, what is on its way, and the links that are
`down`. -/
def State.restarted (s : State) (slot : Nat) (failed : Bool) (down : List Nat) : State :=
  { State.reset with
    linkDown := down
    mem := s.mem.filter fun e => remote e.1
    poison := s.poison.filter fun p => remote (32 * p)
    log := s.log.drop (s.log.length - 64)
    ageing := s.ageing
    sx := { fw := s.sx.fw, active := s.sx.active, roll := s.sx.roll, slot := slot, ready := !failed, failed := failed }
    outbox := s.outbox, free := s.free, arrivals := s.arrivals, nextId := s.nextId }

/-- `COLD_RESET`: the active firmware slot is booted, or the other where it fails, which is logged. -/
def execColdReset (rom : RomCheck) (s : State) : Host.Outcome State Fault Refusal :=
  let ok (k : Nat) : Bool := if k = 0 then rom.slot0 else rom.slot1
  let a := s.sx.active
  let s := if ok a then s else s.logOpen 6 none none
  .next (if ok a then s.restarted a false [] else s.restarted (1 - a) (!ok (1 - a)) [])

/-- `FUNCTION_LEVEL_RESET`: every partition is drained without an event, then steps 3, 4 and 6 of R433, which train no link. -/
def execFunctionLevelReset (s : State) : Host.Outcome State Fault Refusal :=
  let tops := (s.parts.filter fun e => e.2.valid && e.2.level == 0).map Prod.fst
  let s := tops.foldl (fun s p => s.drainSteps p []) s
  .next (s.restarted s.sx.slot s.sx.failed s.linkDown)

/-- `THERMAL_TRIP`: the device shuts down, and its DRAM contents are lost. -/
def execThermalTrip (s : State) : Host.Outcome State Fault Refusal :=
  let s := s.logOpen 5 none none
  .next { s with tripped := true, mem := s.mem.filter fun e => remote e.1 }

/-- `SENSOR_REFRESH`. -/
def execSensorRefresh (rs : List Reading) (s : State) : Host.Outcome State Fault Refusal := .next { s with sensors := rs }

/-- `AGEING_UPDATE`. -/
def execAgeingUpdate (as : List DieAge) (s : State) : Host.Outcome State Fault Refusal := .next { s with ageing := as }

/-! ### Errors (R238 to R240, R280, R392) -/

/-- A memory's place in the table of R211. -/
def memIndex : ErrMem → Nat
  | .localMem => 0 | .swapReserve => 1 | .l1 => 2 | .icache => 3 | .l2 => 4 | .chart => 5 | .dram => 6 | .shadow => 7 | .sealList => 8 | .remote => 9

/-- `PATROL`: corrected data is written back, which changes no value. -/
def execPatrol (_ : Nat) (_ : ErrMem) (_ : Nat) (s : State) : Host.Outcome State Fault Refusal := .next s

/-- A clean line, which a detected error invalidates (R238). -/
def Line.clean (l : Line) : Bool := l.dirty == 0 && (l.kind == .ordinary || l.kind == .sealed)

/-- A clean line of a memory of a die that holds an address goes. -/
def State.dropClean (s : State) (die : Nat) (mem : ErrMem) (pa : Nat) : State :=
  let per := match mem with
    | .l1 => Config.coresPerDie
    | .icache => Config.clustersPerDie
    | _ => Config.slicesPerDie
  let ls := match mem with
    | .l1 => s.l1
    | .icache => s.icache
    | .l2 => s.l2
    | _ => []
  match s.chooseOf (ls.filter fun l => l.loc / per == die && l.line == pa / 128 && l.clean) with
  | none => s
  | some v =>
    let s := s.drawn
    match mem with
    | .l1 => { s with l1 := invalidated s.l1 (· == v) }
    | .icache => { s with icache := invalidated s.icache (· == v) }
    | _ => { s with l2 := invalidated s.l2 (· == v) }

/-- `CORRECTED_ERROR`: counted and logged; no value changes. -/
def execCorrectedError (die : Nat) (mem : ErrMem) (pa : Nat) (s : State) : Host.Outcome State Fault Refusal :=
  .next (((s.errCount die (memIndex mem) 0).logRec 1 die pa).dropClean die mem pa)

/-- Teams are killed for an uncorrectable error. -/
def State.killAll (s : State) (ts : List Nat) (code : Nat) : State := ts.foldl (fun s t => s.killTeam t code 0) s

/-- Whether the home slice holds a clean copy of a sector, so that an error strikes the memory behind it. -/
def State.cleanSector (s : State) (pa : Nat) : Bool :=
  (s.chartOf pa).isNone && (match findLine s.l2 (s.home pa) pa with
    | some l => l.kind != .parked && (List.range 32).all fun k => !l.dirty.getLsbD (pa % 128 / 32 * 32 + k)
    | none => false)

/-- The memory that holds a dirty sector. -/
def State.sectorMem (s : State) (pa : Nat) : ErrMem :=
  match s.chartOf pa with
  | some e => if e.berth = 0 then .l1 else if e.berth = 1 then .l2 else .dram
  | none => if (findLine s.l2 (s.home pa) pa).isSome && !s.cleanSector pa then .l2 else if remote pa then .remote else .dram

/-- A dirty sector becomes poisoned. -/
def State.poisonSector (s : State) (pa : Nat) : State :=
  if s.cleanSector pa then { s with poison := s.poison.filter (· ≠ pa / 32) ++ [pa / 32] } else s.setPoison pa true

/-- An error in a line of an L1: a clean line goes, which is no uncorrectable error (R238); a park or update-only line's sector is poisoned, counted
and recorded (R240). -/
def State.l1Error (s : State) (core pa : Nat) : State :=
  match findLine s.l1 core pa with
  | none => s
  | some l =>
    if l.kind = .ordinary ∨ l.kind = .sealed then { s with l1 := dropLine s.l1 core pa }
    else
      let s := (s.errCount (core / 40) (memIndex ErrMem.l1) 1).logRec 2 (core / 40) pa
      { s with l1 := modLine s.l1 core pa fun l => { l with poison := l.poison ||| (1#4 <<< (pa % 128 / 32)) } }

/-- `UNCORRECTABLE_ERROR`. -/
def execUncorrectableError (site : ErrSite) (s : State) : Host.Outcome State Fault Refusal :=
  match site with
  | .coreLogic core =>
    let s := s.logOpen 2 (some (core / 40)) none
    let s := s.killAll (s.teamsOn core ++ (s.core core).shadow) 60
    let s := s.cancelCopies fun c => c.core == core
    .next ((s.driftCore core).modCore core fun x => { x with fenced := true })
  | .localPage team =>
    let core := (s.team team).core
    let s := (s.errCount (core / 40) (memIndex ErrMem.localMem) 1).logOpen 2 (some (core / 40)) none
    .next ((s.killTeam team 61 0).modCore core fun x => { x with pages := x.pages + 1 })
  | .swapped wave =>
    let w := s.wave wave
    let s := (s.errCount (w.core / 40) (memIndex ErrMem.swapReserve) 1).logOpen 2 (some (w.core / 40)) none
    .next (s.killTeam w.team 61 0)
  | .shadow core =>
    let s := (s.errCount (core / 40) (memIndex ErrMem.shadow) 1).logOpen 2 (some (core / 40)) none
    .next (s.killAll (s.core core).shadow 61)
  | .sector pa =>
    let die := s.homeDie pa
    .next (((s.errCount die (memIndex (s.sectorMem pa)) 1).logRec 2 die pa).poisonSector pa)
  | .l1Sector core pa => .next (s.l1Error core pa)

end Sys2Proof.Machine
end

