-- ==== Sys2Proof/Machine/Dispatch.lean ====
section
/-! DEFINITION. The meaning of each instruction and event: one arm per constructor of `Instr`. -/

namespace Sys2Proof.Machine

def exec (i : Instr) (s : State) : Host.Outcome State Fault Refusal :=
  match i with
  | .nop x => Sys2Proof.Machine.execNop x s
  | .bra x => Sys2Proof.Machine.execBra x s
  | .brx x => Sys2Proof.Machine.execBrx x s
  | .call x => Sys2Proof.Machine.execCall x s
  | .callx x => Sys2Proof.Machine.execCallx x s
  | .ret x => Sys2Proof.Machine.execRet x s
  | .hinge x => Sys2Proof.Machine.execHinge x s
  | .wpt x => Sys2Proof.Machine.execWpt x s
  | .endFrag x => Sys2Proof.Machine.execEndFrag x s
  | .yield x => Sys2Proof.Machine.execYield x s
  | .yieldEnd f => Sys2Proof.Machine.execYieldEnd f s
  | .sleep x => Sys2Proof.Machine.execSleep x s
  | .sleepEnd f => Sys2Proof.Machine.execSleepEnd f s
  | .vote x => Sys2Proof.Machine.execVote x s
  | .brkpt x => Sys2Proof.Machine.execBrkpt x s
  | .mov x => Sys2Proof.Machine.execMov x s
  | .movi x => Sys2Proof.Machine.execMovi x s
  | .iadd x => Sys2Proof.Machine.execIadd x s
  | .iaddc x => Sys2Proof.Machine.execIaddc x s
  | .isub x => Sys2Proof.Machine.execIsub x s
  | .imul x => Sys2Proof.Machine.execImul x s
  | .imulh x => Sys2Proof.Machine.execImulh x s
  | .imad x => Sys2Proof.Machine.execImad x s
  | .iabs x => Sys2Proof.Machine.execIabs x s
  | .ineg x => Sys2Proof.Machine.execIneg x s
  | .imin x => Sys2Proof.Machine.execImin x s
  | .imax x => Sys2Proof.Machine.execImax x s
  | .and x => Sys2Proof.Machine.execAnd x s
  | .or x => Sys2Proof.Machine.execOr x s
  | .xor x => Sys2Proof.Machine.execXor x s
  | .not x => Sys2Proof.Machine.execNot x s
  | .shl x => Sys2Proof.Machine.execShl x s
  | .shr x => Sys2Proof.Machine.execShr x s
  | .sar x => Sys2Proof.Machine.execSar x s
  | .rot x => Sys2Proof.Machine.execRot x s
  | .bfe x => Sys2Proof.Machine.execBfe x s
  | .bfi x => Sys2Proof.Machine.execBfi x s
  | .popc x => Sys2Proof.Machine.execPopc x s
  | .clz x => Sys2Proof.Machine.execClz x s
  | .brev x => Sys2Proof.Machine.execBrev x s
  | .lea x => Sys2Proof.Machine.execLea x s
  | .sel x => Sys2Proof.Machine.execSel x s
  | .isetp x => Sys2Proof.Machine.execIsetp x s
  | .fadd x => Sys2Proof.Machine.execFadd x s
  | .fmul x => Sys2Proof.Machine.execFmul x s
  | .ffma x => Sys2Proof.Machine.execFfma x s
  | .fmin x => Sys2Proof.Machine.execFmin x s
  | .fmax x => Sys2Proof.Machine.execFmax x s
  | .fsetp x => Sys2Proof.Machine.execFsetp x s
  | .fclass x => Sys2Proof.Machine.execFclass x s
  | .frcp x => Sys2Proof.Machine.execFrcp x s
  | .frsq x => Sys2Proof.Machine.execFrsq x s
  | .fsqrt x => Sys2Proof.Machine.execFsqrt x s
  | .fex2 x => Sys2Proof.Machine.execFex2 x s
  | .flg2 x => Sys2Proof.Machine.execFlg2 x s
  | .fsin x => Sys2Proof.Machine.execFsin x s
  | .fcos x => Sys2Proof.Machine.execFcos x s
  | .frnd x => Sys2Proof.Machine.execFrnd x s
  | .hadd2 x => Sys2Proof.Machine.execHadd2 x s
  | .hmul2 x => Sys2Proof.Machine.execHmul2 x s
  | .hfma2 x => Sys2Proof.Machine.execHfma2 x s
  | .hmin2 x => Sys2Proof.Machine.execHmin2 x s
  | .hmax2 x => Sys2Proof.Machine.execHmax2 x s
  | .dadd x => Sys2Proof.Machine.execDadd x s
  | .dmul x => Sys2Proof.Machine.execDmul x s
  | .dfma x => Sys2Proof.Machine.execDfma x s
  | .dsetp x => Sys2Proof.Machine.execDsetp x s
  | .cvtF x => Sys2Proof.Machine.execCvtF x s
  | .cvtI x => Sys2Proof.Machine.execCvtI x s
  | .cvtQ x => Sys2Proof.Machine.execCvtQ x s
  | .pack x => Sys2Proof.Machine.execPack x s
  | .unpk x => Sys2Proof.Machine.execUnpk x s
  | .plop x => Sys2Proof.Machine.execPlop x s
  | .pmov x => Sys2Proof.Machine.execPmov x s
  | .shfl x => Sys2Proof.Machine.execShfl x s
  | .bcast x => Sys2Proof.Machine.execBcast x s
  | .redw x => Sys2Proof.Machine.execRedw x s
  | .scanw x => Sys2Proof.Machine.execScanw x s
  | .xchg x => Sys2Proof.Machine.execXchg x s
  | .xchgArrival id => Sys2Proof.Machine.execXchgArrival id s
  | .xchgWithdrawal id => Sys2Proof.Machine.execXchgWithdrawal id s
  | .femark x => Sys2Proof.Machine.execFemark x s
  | .fetest x => Sys2Proof.Machine.execFetest x s
  | .ocld x => Sys2Proof.Machine.execOcld x s
  | .smov x => Sys2Proof.Machine.execSmov x s
  | .smovi x => Sys2Proof.Machine.execSmovi x s
  | .sadd x => Sys2Proof.Machine.execSadd x s
  | .ssub x => Sys2Proof.Machine.execSsub x s
  | .smul x => Sys2Proof.Machine.execSmul x s
  | .sand x => Sys2Proof.Machine.execSand x s
  | .sor x => Sys2Proof.Machine.execSor x s
  | .sxor x => Sys2Proof.Machine.execSxor x s
  | .sshl x => Sys2Proof.Machine.execSshl x s
  | .sshr x => Sys2Proof.Machine.execSshr x s
  | .ssetp x => Sys2Proof.Machine.execSsetp x s
  | .rds x => Sys2Proof.Machine.execRds x s
  | .wrs x => Sys2Proof.Machine.execWrs x s
  | .setfmt x => Sys2Proof.Machine.execSetfmt x s
  | .setmode x => Sys2Proof.Machine.execSetmode x s
  | .mxbind x => Sys2Proof.Machine.execMxbind x s
  | .mxbindRel x => Sys2Proof.Machine.execMxbindRel x s
  | .mxstep x => Sys2Proof.Machine.execMxstep x s
  | .mxloop x => Sys2Proof.Machine.execMxloop x s
  | .mxwait x => Sys2Proof.Machine.execMxwait x s
  | .azero x => Sys2Proof.Machine.execAzero x s
  | .amov x => Sys2Proof.Machine.execAmov x s
  | .adrain x => Sys2Proof.Machine.execAdrain x s
  | .adrainCompletion wave => Sys2Proof.Machine.execAdrainCompletion wave s
  | .tzero x => Sys2Proof.Machine.execTzero x s
  | .tmov x => Sys2Proof.Machine.execTmov x s
  | .bppack x => Sys2Proof.Machine.execBppack x s
  | .bpunpk x => Sys2Proof.Machine.execBpunpk x s
  | .matrixStepStart team first => Sys2Proof.Machine.execMatrixStepStart team first s
  | .matrixStepCompletion team first => Sys2Proof.Machine.execMatrixStepCompletion team first s
  | .accumulatorEffect wave => Sys2Proof.Machine.execAccumulatorEffect wave s
  | .propose x => Sys2Proof.Machine.execPropose x s
  | .accept x => Sys2Proof.Machine.execAccept x s
  | .reject x => Sys2Proof.Machine.execReject x s
  | .rngkey x => Sys2Proof.Machine.execRngkey x s
  | .rng x => Sys2Proof.Machine.execRng x s
  | .rngctr x => Sys2Proof.Machine.execRngctr x s
  | .ld x => Sys2Proof.Machine.execLd x s
  | .st x => Sys2Proof.Machine.execSt x s
  | .lds x => Sys2Proof.Machine.execLds x s
  | .sts x => Sys2Proof.Machine.execSts x s
  | .ldsc x => Sys2Proof.Machine.execLdsc x s
  | .ldt x => Sys2Proof.Machine.execLdt x s
  | .ldtt x => Sys2Proof.Machine.execLdtt x s
  | .stt x => Sys2Proof.Machine.execStt x s
  | .tileFillCompletion wave tile => Sys2Proof.Machine.execTileFillCompletion wave tile s
  | .pf x => Sys2Proof.Machine.execPf x s
  | .ipf x => Sys2Proof.Machine.execIpf x s
  | .ipin x => Sys2Proof.Machine.execIpin x s
  | .iunpin x => Sys2Proof.Machine.execIunpin x s
  | .seal x => Sys2Proof.Machine.execSeal x s
  | .unseal x => Sys2Proof.Machine.execUnseal x s
  | .cinv x => Sys2Proof.Machine.execCinv x s
  | .cwb x => Sys2Proof.Machine.execCwb x s
  | .brset x => Sys2Proof.Machine.execBrset x s
  | .bradd x => Sys2Proof.Machine.execBradd x s
  | .brdel x => Sys2Proof.Machine.execBrdel x s
  | .brrd x => Sys2Proof.Machine.execBrrd x s
  | .unpark x => Sys2Proof.Machine.execUnpark x s
  | .parkq x => Sys2Proof.Machine.execParkq x s
  | .atomI x => Sys2Proof.Machine.execAtomI x s
  | .atomF x => Sys2Proof.Machine.execAtomF x s
  | .atomCas x => Sys2Proof.Machine.execAtomCas x s
  | .atomX2 x => Sys2Proof.Machine.execAtomX2 x s
  | .red x => Sys2Proof.Machine.execRed x s
  | .atoms x => Sys2Proof.Machine.execAtoms x s
  | .fence x => Sys2Proof.Machine.execFence x s
  | .bar x => Sys2Proof.Machine.execBar x s
  | .bara x => Sys2Proof.Machine.execBara x s
  | .barw x => Sys2Proof.Machine.execBarw x s
  | .gbar x => Sys2Proof.Machine.execGbar x s
  | .gridBarrierTeamMessage team => Sys2Proof.Machine.execGridBarrierTeamMessage team s
  | .gridBarrierDieMessage launch die => Sys2Proof.Machine.execGridBarrierDieMessage launch die s
  | .gridBarrierRelease launch die => Sys2Proof.Machine.execGridBarrierRelease launch die s
  | .cpy x => Sys2Proof.Machine.execCpy x s
  | .copyStart core => Sys2Proof.Machine.execCopyStart core s
  | .copyLocalWrite id => Sys2Proof.Machine.execCopyLocalWrite id s
  | .copyRetirement id => Sys2Proof.Machine.execCopyRetirement id s
  | .tlwait x => Sys2Proof.Machine.execTlwait x s
  | .spawn x => Sys2Proof.Machine.execSpawn x s
  | .qpush x => Sys2Proof.Machine.execQpush x s
  | .qpop x => Sys2Proof.Machine.execQpop x s
  | .qcnt x => Sys2Proof.Machine.execQcnt x s
  | .trap x => Sys2Proof.Machine.execTrap x s
  | .reth x => Sys2Proof.Machine.execReth x s
  | .rdtr x => Sys2Proof.Machine.execRdtr x s
  | .term x => Sys2Proof.Machine.execTerm x s
  | .termTeam x => Sys2Proof.Machine.execTermTeam x s
  | .cntrd x => Sys2Proof.Machine.execCntrd x s
  | .cntclr x => Sys2Proof.Machine.execCntclr x s
  | .tladv x => Sys2Proof.Machine.execTladv x s
  | .memoryReply id => Sys2Proof.Machine.execMemoryReply id s
  | .sliceRequest id => Sys2Proof.Machine.execSliceRequest id s
  | .launchIntake part => Sys2Proof.Machine.execLaunchIntake part s
  | .teamPlacement part => Sys2Proof.Machine.execTeamPlacement part s
  | .swapReturn wave => Sys2Proof.Machine.execSwapReturn wave s
  | .dispatchHold part => Sys2Proof.Machine.execDispatchHold part s
  | .quantumTick part => Sys2Proof.Machine.execQuantumTick part s
  | .doorbell part queue => Sys2Proof.Machine.execDoorbell part queue s
  | .vacate part mask => Sys2Proof.Machine.execVacate part mask s
  | .vacateComplete part => Sys2Proof.Machine.execVacateComplete part s
  | .drain part v => Sys2Proof.Machine.execDrain part v s
  | .watchdogExpiry part => Sys2Proof.Machine.execWatchdogExpiry part s
  | .eventSize part v => Sys2Proof.Machine.execEventSize part v s
  | .eventReadIndex part v => Sys2Proof.Machine.execEventReadIndex part v s
  | .switchAborts part v => Sys2Proof.Machine.execSwitchAborts part v s
  | .eventsLost part v => Sys2Proof.Machine.execEventsLost part v s
  | .descriptor part queue v => Sys2Proof.Machine.execDescriptor part queue v s
  | .registerWrite bar2 off v => Sys2Proof.Machine.execRegisterWrite bar2 off v s
  | .createContext c => Sys2Proof.Machine.execCreateContext c s
  | .destroyContext c => Sys2Proof.Machine.execDestroyContext c s
  | .load c => Sys2Proof.Machine.execLoad c s
  | .unload c => Sys2Proof.Machine.execUnload c s
  | .writePartitionEntry c => Sys2Proof.Machine.execWritePartitionEntry c s
  | .writePeerRoute c => Sys2Proof.Machine.execWritePeerRoute c s
  | .deviceConfiguration c => Sys2Proof.Machine.execDeviceConfiguration c s
  | .readSensors c => Sys2Proof.Machine.execReadSensors c s
  | .readEventLog c => Sys2Proof.Machine.execReadEventLog c s
  | .readAndClearErrorCounts c => Sys2Proof.Machine.execReadAndClearErrorCounts c s
  | .readAgeing c => Sys2Proof.Machine.execReadAgeing c s
  | .setPowerState c => Sys2Proof.Machine.execSetPowerState c s
  | .firmwareUpdate c => Sys2Proof.Machine.execFirmwareUpdate c s
  | .attest c => Sys2Proof.Machine.execAttest c s
  | .coldReset rom => Sys2Proof.Machine.execColdReset rom s
  | .functionLevelReset => Sys2Proof.Machine.execFunctionLevelReset s
  | .thermalTrip => Sys2Proof.Machine.execThermalTrip s
  | .sensorRefresh rs => Sys2Proof.Machine.execSensorRefresh rs s
  | .ageingUpdate as => Sys2Proof.Machine.execAgeingUpdate as s
  | .patrol die mem pa => Sys2Proof.Machine.execPatrol die mem pa s
  | .correctedError die mem pa => Sys2Proof.Machine.execCorrectedError die mem pa s
  | .uncorrectableError site => Sys2Proof.Machine.execUncorrectableError site s
  | .hostRead pa n => Sys2Proof.Machine.execHostRead pa n s
  | .hostWrite pa bs => Sys2Proof.Machine.execHostWrite pa bs s
  | .hostAtomicop pa op => Sys2Proof.Machine.execHostAtomicop pa op s
  | .translationCompletion id ans => Sys2Proof.Machine.execTranslationCompletion id ans s
  | .pageResponse pasid page ans => Sys2Proof.Machine.execPageResponse pasid page ans s
  | .invalidationRequest tag pasid va log2size => Sys2Proof.Machine.execInvalidationRequest tag pasid va log2size s
  | .invalidationCompletion tag => Sys2Proof.Machine.execInvalidationCompletion tag s
  | .peerRequest peer pa op => Sys2Proof.Machine.execPeerRequest peer pa op s
  | .linkLoss port => Sys2Proof.Machine.execLinkLoss port s
  | .timeSliceTick part => Sys2Proof.Machine.execTimeSliceTick part s
  | .dieHalted part die => Sys2Proof.Machine.execDieHalted part die s
  | .exchangeEnd part die => Sys2Proof.Machine.execExchangeEnd part die s
  | .switchAbort part => Sys2Proof.Machine.execSwitchAbort part s
  | .unimplementedOpcode why => Sys2Proof.Machine.execUnimplementedOpcode why s
  | .unknownOpcode => Sys2Proof.Machine.execUnknownOpcode s
  | .priEnable => Sys2Proof.Machine.execPriEnable s

end Sys2Proof.Machine
end

