-- ==== Sys2Proof/Machine/Settle.lean ====
section
/-! DEFINITION. What comes about after every step: waits that are over (R35, R314 to R322, R337, R341, R345, R358, R360, R362, R408), held
lanes that are sent again (R248, R271), causes raised after their instruction (R382), fetches that miss, and saves, vacates and drains that may
now be made (R356, R366, R420). -/

namespace Sys2Proof.Machine

/-- Every state of a list is passed through, with the state so far. -/
def State.each {α : Type} (s : State) (l : List α) (f : α → State → State) : State := l.foldl (fun s a => f a s) s

/-! ### Operations -/

/-- Whether an operation that waits for the host has a page whose request has been answered. -/
def State.pageBack (s : State) (o : Op) : Bool :=
  o.phase == .sent && o.nout == 0 && o.held.isEmpty && o.xw.isEmpty && o.refused.isEmpty &&
    o.absent.any fun l => !s.pages.any fun p => p.pasid == o.pasid && p.page == l.page

/-- The rest of a store whose fragment has ended: its release, then its pages (R40). -/
def State.settleEnded (o : Op) (s : State) : State :=
  if o.phase == .release && s.relDone o.wave o.id then
    ((s.release o.wave o.core o.sc).modOp o.id fun o => { o with phase := .xlate }).proceed o.id
  else if s.pageBack o then s.replay o.id
  else s

/-- Whether the fragment of an operation stands where it had to leave it: parked on it, or waiting for it. One that is trap-pending, runs in handler
mode, or is held on another operation takes it up again later (R384, R390). -/
def State.standsAt (s : State) (o : Op) : Bool :=
  let f := s.frag ⟨o.wave, o.entry⟩
  ((s.wave o.wave).inHandler o.entry == o.hm) && match f.st, f.wait with
    | .parked id, _ => id == o.id
    | .waiting, .op id => id == o.id
    | _, _ => false

/-- Held lanes are translated again: after a replay or a restore, or once the host has answered (R248, R271, R293); not while a switch holds their
core (R422, R424). -/
def State.settleOp (id : Nat) (s : State) : State :=
  let s := s.opCheck id
  match s.op? id with
  | none => s
  | some o =>
    if (s.wave o.wave).away || !s.mayIssue o.core then s
    else if o.dead then s.settleEnded o
    else if (o.phase == .xlate && o.xw.isEmpty && (s.frag ⟨o.wave, o.entry⟩).st == .parked id) || (s.pageBack o && s.standsAt o) then s.replay id
    else s

/-! ### Waits -/

/-- What a waiting instruction does when its release has been made. -/
def State.released (s : State) (r : FragRef) (sc : Scope) (c : Cont) : State :=
  match c with
  | .fence false => s.waitOver r
  | .fence true => s.acquired r sc
  | .bar => s.arrive r
  | .bara d o t trec => s.baraUpdate r d.toNat o t trec
  | .gbar => s.gbArrive r
  | .cpy d n rq => s.modFrag r fun f => { f with wait := .cpyq d n rq }
  | .tladv n v => s.tlAdvanced r n v
  | .spawn d rq => s.modFrag r fun f => { f with wait := .spawn d rq }
  | .send id => ((s.modFrag r fun f => { f with wait := .xlate id }).modOp id fun o => { o with phase := .xlate }).proceed id

/-- A wait that is satisfied ends or goes on to its next part; not while a switch holds its core, which leaves it at its waypoint (R422). -/
def State.settleWait (r : FragRef) (s : State) : State :=
  let w := s.wave r.wave
  let f := w.frag r.entry
  let t := s.team w.team
  if w.away || f.st != .waiting || !s.mayIssue w.core then s
  else match f.wait with
    | .rel sc upto c => if s.relDone r.wave upto then (s.release r.wave w.core sc).released r sc c else s
    | .acq sc upto => if s.acqDone r.wave upto then s.acquired r sc else s
    | .barw o tok => if boPhase (s.barObj w.team o) = tok then s else s.acquired r .team
    | .tlwait sc c n trec => if n ≤ ((s.ctx t.pasid).tlc c).v then s.tlOver r sc c n trec else s
    | .cpyq d c rq => s.acceptCopy r d.toNat c rq
    | .spawn d rq => s.enqueueTask r d.toNat rq
    | .mxwait => if w.owesMatrix then s else s.waitOver r
    | .pop q => if !(t.queue q).isEmpty || s.prodGone t q then s.modFrag r Frag.goOn else s
    | .push q => if (t.queue q).length < 8 then s.modFrag r Frag.goOn else s
    | _ => s

/-- The fragments of all waves. -/
def State.fragRefs (s : State) : List FragRef := s.waves.flatMap fun e => e.2.frags.map fun f => ⟨e.1, f.entry⟩

/-! ### Causes and fetches -/

/-- A cause of class A is raised before its fragment issues again (R382); in handler mode it kills the team (R386). -/
def State.settleLate (r : FragRef) (s : State) : State :=
  let w := s.wave r.wave
  let f := w.frag r.entry
  match f.late with
  | t :: rest => if w.here && f.st == .running then (s.modFrag r fun f => { f with late := rest }).raiseSoon r t else s
  | [] => s

/-- Of the causes that have come about in a wave in one clock the one of the lowest fragment is taken (R384, R395). -/
def State.settlePending (wave : Nat) (s : State) : State :=
  let w := s.wave wave
  if !w.here then s else if w.h.isNone then s.nextPending wave else s.lowestEnters wave

/-- A fetch that misses asks for its page (R413). -/
def State.settleFetch (r : FragRef) (s : State) : State :=
  let w := s.wave r.wave
  let pasid := (s.team w.team).pasid
  match s.fetchMiss w (w.frag r.entry) with
  | none => s
  | some p =>
    if s.asked pasid [p] then s
    else s.askMore (w.core / Config.coresPerDie) pasid p

/-! ### Teams and partitions -/

/-- A displaced team with nothing in flight is saved, its reductions performed before (R290, R327). -/
def State.settleTeam (t : Nat) (s : State) : State :=
  let tm := s.team t
  let s := if tm.bar.isEmpty then s else s.barRelease t
  if tm.loc == .displaced && !(s.core tm.core).shadow.contains t && s.quiet t then (s.mergeCore tm.core).saveTeam t else s

/-- A watchdog's drain, a host's drain and a vacate that waited for a switch take effect, each with its own event. -/
def State.settlePart (i : Nat) (s : State) : State :=
  let p := s.part i
  if p.sw.isSome then s
  else
    let s := match p.drainWant with
      | some qs => (s.modPart i fun p => { p with drainWant := none }).drainNow i (some qs)
      | none => s
    let s := if p.drainHost then (s.modPart i fun p => { p with drainHost := false }).drainNow i none else s
    if p.vacWant then s.startVacate i else s

/-- A grid barrier's round may end with a retirement, and its releases may find teams placed again. -/
def State.settleGbar (launch : Nat) (s : State) : State := (s.gbRound launch).gbFree launch

/-- A launch completes, with a release at `.system` of its stores (R355, R408). -/
def State.settleLaunch (id : Nat) (s : State) : State :=
  match s.launch? id with
  | some l => if s.launchOver l then (l.ws.foldl (fun s w => s.cleanRemote .system w) (l.cs.foldl State.mergeCore s)).launchDone l else s
  | none => s

/-- What follows a step. -/
def State.settle (s : State) : State :=
  let s := s.sendHeld
  let s := s.each (s.ops.map Op.id) State.settleOp
  let s := s.each s.fragRefs State.settleWait
  let s := s.each (s.teams.map Prod.fst) State.settleTeam
  let s := s.each (s.gbars.map GBar.launch) State.settleGbar
  let s := s.each (s.launches.map Launch.id) State.settleLaunch
  let s := s.each (s.parts.map Prod.fst) State.settlePart
  let s := s.each s.fragRefs State.settleLate
  let s := s.each s.fragRefs State.settleFetch
  let s := s.each (s.waves.map Prod.fst) State.settlePending
  s.each s.pages fun _ s => s.sendPage

end Sys2Proof.Machine
end

