-- ==== Sys2Proof/Machine/Turn.lean ====
section
/-! DEFINITION. Whose turn it is: the events that may come about, the fragment that each quarter picks (R26, R27), arrivals from outside, and the
passing of time. Which of several moves comes next is a free choice (log entry 2). -/

namespace Sys2Proof.Machine

/-! ### What may come about -/

/-- The descriptor that the Sextant takes next (R430, R431). -/
def State.sxNext (s : State) : Option Instr :=
  if !s.sxMay then none
  else
    let a := s.sxAddr
    let w (k : Nat) : DWord := BitVec.ofNat 64 (s.hostNum (a + 8 * k) 8)
    let c : SxOps := { w1 := w 1, w2 := w 2, w3 := w 3, w4 := w 4, w5 := w 5, w6 := w 6 }
    some (match s.hostNum a 1 with
      | 0x01 => .createContext c | 0x02 => .destroyContext c | 0x03 => .load c | 0x04 => .unload c
      | 0x05 => .writePartitionEntry c | 0x06 => .writePeerRoute c | 0x07 => .deviceConfiguration c | 0x08 => .readSensors c
      | 0x09 => .readEventLog c | 0x0A => .readAndClearErrorCounts c | 0x0B => .readAgeing c | 0x0C => .setPowerState c
      | 0x0D => .firmwareUpdate c | 0x0E => .attest c | _ => .unknownOpcode)

/-- Events of a wave. -/
def Wave.events (w : Wave) : List Instr :=
  (w.frags.flatMap fun f => match f.wait with
    | .yield => [Instr.yieldEnd ⟨w.id, f.entry⟩]
    | .sleep => [Instr.sleepEnd ⟨w.id, f.entry⟩]
    | _ => [])
    ++ (if w.swapped then [Instr.swapReturn w.id] else []) ++ (if w.mx.isSome then [Instr.accumulatorEffect w.id] else [])
    ++ w.tfill.map fun t => Instr.tileFillCompletion w.id t

/-- Events of a team. -/
def Team.events (t : Team) : List Instr :=
  (t.quads.flatMap fun q => [Instr.matrixStepStart t.id q.first, Instr.matrixStepCompletion t.id q.first])
    ++ if t.gb.isEmpty then [] else [Instr.gridBarrierTeamMessage t.id]

/-- Events of a partition. -/
def Part.events (i : Nat) (p : Part) : List Instr :=
  [Instr.launchIntake i, .teamPlacement i, .dispatchHold i, .quantumTick i, .vacateComplete i, .watchdogExpiry i, .timeSliceTick i, .switchAbort i]
    ++ match p.sw with
      | some w => w.dies.flatMap fun d => [Instr.dieHalted i d.1, .exchangeEnd i d.1]
      | none => []

/-- Events that the parts of the device may bring about; those that cannot yet are told by their meanings. -/
def State.events (s : State) : List Instr :=
  s.waves.flatMap (fun e => e.2.events) ++ s.teams.flatMap (fun e => e.2.events) ++ s.parts.flatMap (fun e => e.2.events e.1)
    ++ ((s.ops.filter isDrain).map fun o => Instr.adrainCompletion o.wave)
    ++ (s.mail.flatMap fun x => [Instr.xchgArrival x.id, .xchgWithdrawal x.id])
    ++ (s.gbars.flatMap fun g => ((List.range Config.dies).map fun d => Instr.gridBarrierDieMessage g.launch d)
      ++ g.rels.map fun d => Instr.gridBarrierRelease g.launch d)
    ++ ((s.copies.map Copy.core).dedup.map Instr.copyStart)
    ++ (s.copies.flatMap fun c => [Instr.copyLocalWrite c.id, .copyRetirement c.id])
    ++ (s.reps.map fun r => Instr.memoryReply r.id) ++ (s.reqs.map fun r => Instr.sliceRequest r.id)
    ++ (s.invals.map fun v => Instr.invalidationCompletion v.tag) ++ s.sxNext.toList

/-- Whether a meaning finds its instruction or event ready. -/
def ready (i : Instr) (s : State) : Bool :=
  match exec i { s with stalled := false } with
  | .next t => !t.stalled
  | _ => true

/-! ### The pick of a quarter (R26, R27) -/

/-- A fragment's next instruction, fetched and decoded. -/
def State.nextInstr (s : State) (w : Wave) (f : Frag) : Option Instr := (s.fetch w f).instr (w.env f)

/-- Whether a fragment is ready (R26); a team that is being saved is stopped (R356). -/
def State.fragReady (s : State) (w : Wave) (f : Frag) : Bool :=
  w.here && (s.team w.team).loc != .displaced && f.st == .running && f.late.isEmpty && decide (f.wake ≤ s.clock) && match s.nextInstr w f with
    | some i => ready i (s.issuing w f (s.fetch w f))
    | none => false

/-- The ready fragments of a quarter whose issue slot is free, in an enabled clock (R437). -/
def State.readyFrags (s : State) (core q : Nat) : List (Wave × Frag) :=
  if s.mayIssue core && s.coreClock && decide (Tab.getD 0 s.busy (core * 4 + q) ≤ s.clock) then
    ((s.waves.map Prod.snd).filter fun w => w.core == core && w.q == q).flatMap fun w => (w.frags.filter (s.fragReady w)).map fun f => (w, f)
  else []

/-- The highest slip count, the lowest entry among equals. -/
def pickFrag (fs : List (Wave × Frag)) : Option (Wave × Frag) :=
  fs.foldl (fun b x => match b with
    | none => some x
    | some y => if y.2.slip < x.2.slip ∨ (y.2.slip = x.2.slip ∧ x.2.entry < y.2.entry) then some x else some y) none

/-- The quarters that hold a wave. -/
def State.quarters (s : State) : List (Nat × Nat) := ((s.waves.map Prod.snd).map fun w => (w.core, w.q)).dedup

/-- A move: an event, or the issue of a fragment's instruction. -/
inductive Move where
  | event (i : Instr)
  | issue (r : FragRef)
  deriving DecidableEq, Repr

/-- The moves that may be made now. -/
def State.moves (s : State) : List Move :=
  (s.quarters.filterMap fun x => (pickFrag (s.readyFrags x.1 x.2)).map fun p => Move.issue ⟨p.1.id, p.2.entry⟩)
    ++ (s.events.filter fun i => ready i s).map Move.event

/-- The slip counts of a quarter after its pick. -/
def State.slipped (s : State) (r : FragRef) : State :=
  let w := s.wave r.wave
  let s := s.each ((s.readyFrags w.core w.q).map fun p => (⟨p.1.id, p.2.entry⟩ : FragRef))
    fun x s => s.modFrag x fun f => { f with slip := min (f.slip + 1) 65535 }
  s.modFrag r fun f => { f with slip := 0 }

/-- The state in which a fragment's instruction is issued, and that instruction. -/
def State.issueFrag (s : State) (r : FragRef) : Option (Instr × State) :=
  let w := s.wave r.wave
  let f := w.frag r.entry
  (s.nextInstr w f).map fun i => (i, ((s.slipped r).fetchFill w f).issuing w f (s.fetch w f))

/-! ### Arrivals and time -/

/-- Whether something comes from outside the device: the host, a peer, the Sextant's own upkeep, or an error. -/
def outside : Instr → Bool
  | .doorbell _ _ => true
  | .vacate _ _ => true
  | .drain _ _ => true
  | .eventSize _ _ => true
  | .eventReadIndex _ _ => true
  | .switchAborts _ _ => true
  | .eventsLost _ _ => true
  | .descriptor _ _ _ => true
  | .registerWrite _ _ _ => true
  | .coldReset _ => true
  | .functionLevelReset => true
  | .thermalTrip => true
  | .sensorRefresh _ => true
  | .ageingUpdate _ => true
  | .patrol _ _ _ => true
  | .correctedError _ _ _ => true
  | .uncorrectableError _ => true
  | .hostRead _ _ => true
  | .hostWrite _ _ => true
  | .hostAtomicop _ _ => true
  | .translationCompletion _ _ => true
  | .pageResponse _ _ _ => true
  | .invalidationRequest _ _ _ _ => true
  | .peerRequest _ _ _ => true
  | .linkLoss _ => true
  | .priEnable => true
  | _ => false

/-- The first cold reset that arrives, with what arrives after it. -/
def coldResetIn : List (Option Instr) → Option (RomCheck × List (Option Instr))
  | [] => none
  | some (.coldReset r) :: l => some (r, l)
  | _ :: l => coldResetIn l

/-- Whether a quarter's issue slot is free in an enabled clock and no fragment is ready (R403, R437). -/
def State.idleAt (s : State) (core q : Nat) : Bool :=
  s.mayIssue core && s.coreClock && decide (Tab.getD 0 s.busy (core * 4 + q) ≤ s.clock) && (s.readyFrags core q).isEmpty

/-- Whether an instruction or event waits for the range scoreboard: it is not ready, and would be with no entry held (R221). -/
def State.waitsRange (s : State) (i : Instr) : Bool :=
  !ready i s && ready i { s with copies := s.copies.map fun c => { c with running := false } }

/-- Whether an instruction of a core waits for the range scoreboard in an enabled clock: that of a fragment, a step of its matrix unit, or an `ADRAIN`
whose write is due. -/
def State.rangeStall (s : State) (core : Nat) : Bool :=
  s.mayIssue core && s.coreClock && !(s.entries core).isEmpty &&
    (((s.waves.map Prod.snd).any fun w => w.core == core && w.here && w.frags.any fun f => f.st == .running && match s.nextInstr w f with
        | some i => (s.issuing w f (s.fetch w f)).waitsRange i
        | none => false)
      || (s.ops.any fun o => isDrain o && o.core == core && s.waitsRange (.adrainCompletion o.wave))
      || s.teams.any fun t => t.2.core == core && t.2.quads.any fun q => s.waitsRange (.matrixStepStart t.1 q.first))

/-- How many of the next clocks a condition holds in. -/
def State.clocksOf (s : State) (dt : Nat) (p : State → Bool) : Nat := ((List.range dt).filter fun k => p { s with clock := s.clock + k }).length

/-- A table of counts, one of them with the next clocks in which a condition holds. -/
def State.countOf (s : State) (dt key : Nat) (p : State → Bool) (t : List (Nat × Nat)) : List (Nat × Nat) := match s.clocksOf dt p with
  | 0 => t
  | n + 1 => Tab.add t key (n + 1)

/-- The counts of a core's clocks: idle of each quarter, and stalled by the range scoreboard. -/
def State.countCore (s : State) (dt : Nat) (t : List (Nat × Nat)) (c : Nat) : List (Nat × Nat) :=
  s.countOf dt (cKey c 3) (fun u => u.rangeStall c) ((List.range 4).foldl (fun t q => s.countOf dt (qKey c q 1) (fun u => u.idleAt c q) t) t)

/-- The counts of clocks that pass (R403), of the quarters and cores that a partition holds. -/
def State.countClocks (s : State) (dt : Nat) : State :=
  { s with cnt := ((List.range Config.cores).filter fun c => (s.partOfCore c).isSome).foldl (s.countCore dt) s.cnt }

/-- The counts as a clock begins, before its events: a clear in it leaves what they add (R404). No clock begins where no time has passed. -/
def State.newClock (s : State) (dt : Nat) : State :=
  { s with cnt0 := if dt = 0 then s.cnt0 else s.cnt, ctxs := s.ctxs.map fun c => { c with cnt0 := if dt = 0 then c.cnt0 else c.cnt } }

/-- Time passes: the clock, the counts of clocks, and the watchdog timers (R365, R403). -/
def State.pass (s : State) (dt : Nat) : State :=
  let s := (s.countClocks dt).newClock dt
  { (s.tickTimers dt).drawn with clock := s.clock + dt, stalled := false }

/-- The end of a step: what follows from it, and the time until the next. -/
def State.after (s : State) : State := s.settle.pass (Config.elapse s.free)

/-- What a step does. -/
inductive Turn where
  | stopped
  | idle (s : State)
  | run (i : Instr) (s : State)

/-- A partition with a watchdog timer beyond its limit, whose expiry comes before any other move (R365). -/
def State.lateWatchdog (s : State) : Option Nat :=
  (s.parts.find? fun e => (e.2.queues.any fun q => s.queueBusy e.1 q.1 && decide (0 < q.2.wdog) && decide (q.2.wdog * 4000000 < q.2.timer))
    && ready (.watchdogExpiry e.1) s).map Prod.fst

/-- The device's own turn: one of the moves that may be made. -/
def State.ownTurn (s : State) : Turn :=
  let ms := match s.lateWatchdog with
    | some p => [Move.event (.watchdogExpiry p)]
    | none => s.moves
  match s.chooseOf ms with
  | none => .idle s
  | some m =>
    let s := if ms.length ≤ 1 then s else s.drawn
    match m with
    | .event i => .run i { s with stalled := false }
    | .issue r => match s.issueFrag r with
      | some (i, t) => .run i t
      | none => .idle s

/-- The next turn: an arrival where one is due, else the device's own; while it is shut down only a cold reset acts (R438). -/
def State.turn (s : State) : Turn :=
  if s.tripped then match coldResetIn s.arrivals with
    | some (r, l) => .run (.coldReset r) { s with arrivals := l }
    | none => .stopped
  else match s.arrivals with
    | some i :: l => if outside i then .run i { s with arrivals := l, stalled := false } else .idle { s with arrivals := l }
    | none :: l => State.ownTurn { s with arrivals := l }
    | [] => s.ownTurn

end Sys2Proof.Machine
end

