-- ==== Sys2Proof/Machine/Step.lean ====
section
/-! DEFINITION. One step of the device, and placing an instruction where the next step fetches it. -/

namespace Sys2Proof.Machine

/-- One step: an arrival or one of the device's own moves, what follows from it, and the time until the next. With nothing to do, time
passes. -/
def step (s : State) : Host.Outcome State Fault Refusal :=
  match s.turn with
  | .stopped => .fault .shutDown
  | .idle t => .next (t.settle.pass (1 + Config.elapse t.free))
  | .run i t => match exec i t with
    | .next u => .next u.after
    | .fault f => .fault f
    | .refused r => .refused r

/-! ### Placing an instruction -/

/-- Where the first running fragment's next instruction lies in physical memory. -/
def State.fetchPoint (s : State) : Option Nat :=
  (s.waves.map Prod.snd).findSome? fun w => if !w.here then none else
    (w.frags.find? fun f => f.st == .running).bind fun f =>
      (s.atcOf (w.core / Config.coresPerDie) (s.team w.team).pasid f.pc).map fun e => e.addr f.pc

/-- A wave of the largest budgets at PC `0x10000` on core 0, in a team of its own, with what its fetch needs: a partition, a context, a
code object and a translation (log entry 12). `bound` says that it is a member of a quad. -/
def State.withWave (s : State) (bound : Bool) : State :=
  let (id, s) := s.fresh
  let w : Wave := { id := id, team := id, num := 0, vN := 256, sN := 128, tN := 16, obj := 1, base := 0x10000, limit := 0x20000
                    mx := if bound then some { first := 0 } else none
                    frags := [{ entry := 0, pc := 0x10000, mask := full, rpc := 0x10000, rmask := full }] }
  let t : Team := { id := id, launch := id, part := 0, pasid := id, obj := 1, waves := [id] }
  let o : Obj := { handle := 1, base := 0x10000, csize := 0x10000, top := 0x20000, dm := .k3, w32 := false, idem := false, cores := false
                   mode := 0, lsize := 0, nargs := 0, roles := [] }
  let p : Part := { entry := 2 ^ 127 + 2 ^ 105 + 1 }
  { s with
    parts := if (s.part 0).valid then s.parts else Tab.set s.parts 0 p
    ctxs := s.ctxs ++ [{ pasid := id, part := 0, tenant := 0, desc := 0, objs := [o] }]
    atc := s.atc ++ [{ die := 0, pasid := id, va := 0x10000, pa := 0x10000, log := 16, rd := true, wr := true }]
    teams := s.teams ++ [(id, t)], waves := s.waves ++ [(id, w)] }

/-- The bytes of an instruction word at the fetch point, and no cached copy of its line. -/
def State.putWord (s : State) (w : Nat) : State :=
  match s.fetchPoint with
  | none => s
  | some pa => { s with
      mem := s.mem.setNum pa 16 w
      icache := s.icache.filter fun l => l.line != pa / 128 && l.line != (pa + 15) / 128
      l2 := s.l2.filter fun l => l.line != pa / 128 && l.line != (pa + 15) / 128 }

/-- The instruction whose bits are `w` where the next step fetches: at the running fragment's PC, of a wave of its own where none runs. -/
def State.withFetchWord (s : State) (nbits w : Nat) : State :=
  let x := w % 2 ^ nbits
  let free := match decode { Env.max with bound := false } (BitVec.ofNat 128 x) with
    | .ok _ => true
    | .error _ => false
  (if s.fetchPoint.isSome then s else s.withWave !free).putWord x

end Sys2Proof.Machine
end

