-- ==== Sys2Proof/WellFormed.lean ====
section
/-! DEFINITION. Which terms of `Instr` are instructions of K3 code with every register within the budget: the form, operand and field
rules of R47 to R66 and of each operation's entry. A term that breaks one has no word. An event has no word, and is well-formed. -/

namespace Sys2Proof

/-! ### Forms and wide operands (R47, R54, R55) -/

/-- The forms an entry permits. -/
def Hdr.okForm (h : Hdr) (f64 f96 f128 : Bool) : Bool :=
  match h.form with
  | .f64 => f64
  | .f96 => f96
  | .f128 => f128

/-- Whether a wide operand can be held by a form: none in 64 bits, 20 bits sign-extended in 96, 32 in 128. -/
def Form.holds (f : Form) (w : BitVec 32) : Bool :=
  match f with
  | .f64 => decide (w = 0)
  | .f96 => decide ((w.setWidth 20).signExtend 32 = w)
  | .f128 => true

/-- Sources where an immediate may take the wide operand: in a long form the first code `0x200` takes it, every later one is the
immediate 0, and in the 64-bit form each is. -/
def immOk (f : Form) : List Src → Bool
  | [] => true
  | x :: xs =>
    match x with
    | .wide w => decide (f ≠ .f64) && f.holds w && xs.all fun y => !y.isWide
    | .imm b => (decide (f = .f64) || decide (b ≠ 0)) && immOk f xs
    | _ => immOk f xs

/-- Sources where the wide operand has a role of its own. -/
def noWide (xs : List Src) : Bool := xs.all fun x => !x.isWide

/-- At most one queue field (R121). -/
def oneQueue (d : Bool) (xs : List Src) : Bool := decide (d.toNat + (xs.filter Src.isQ).length ≤ 1)

/-! ### Operands (R60 to R62, R119, R120) -/

/-- A general destination: at 64 bits an even vector without mirror. -/
def Dst.ok (w64 scalarOk : Bool) : Dst → Bool
  | .v n m => !w64 || (decide (n.toNat % 2 = 0) && decide (m = .none))
  | .s _ => scalarOk
  | _ => !w64

/-- A vector destination of `k` registers. -/
def vecOk (n : BitVec 8) (k : Nat) : Bool := decide (n.toNat % k = 0) && decide (n.toNat + k ≤ 256)

/-- A scalar quad. -/
def quadOk (n : BitVec 7) : Bool := decide (n.toNat % 4 = 0)

/-- The memory fields an instruction accepts in its form: the defaults where there are none, and `.device` for a plain access. -/
def MemF.ok (f : Form) (k : MemOk) (m : MemF) : Bool :=
  (match f with
    | .f128 => decide (m.ord ≠ .plain) || decide (m.scope = .device)
    | _ => decide (m = .dflt)) && k.ok m

/-! ### Shapes -/

def H0.wf (x : H0) : Bool := x.h.okForm true false false
def HCode.wf (x : HCode) : Bool := x.h.okForm true false false
def HA.wf (x : HA) (f96 f128 : Bool) (p : Src → Bool) : Bool := x.h.okForm true f96 f128 && p x.a && immOk x.h.form [x.a]
def HAB.wf (x : HAB) (f96 : Bool) (p q : Src → Bool) : Bool :=
  x.h.okForm true f96 false && p x.a && q x.b && immOk x.h.form [x.a, x.b]
/-- `narrow`: a 32-bit result at every width; `imm`: an immediate source only. -/
def I1.wf (x : I1) (narrow imm : Bool) : Bool :=
  x.d.ok (x.t.w64 && !narrow) false && x.a.okW x.t.w64 && (!imm || x.a.isImm) && oneQueue x.d.isQ [x.a] && immOk x.h.form [x.a]
/-- `b32`: source B is read at 32 bits. -/
def I2.wf (x : I2) (b32 : Bool) : Bool :=
  x.d.ok x.t.w64 false && x.a.okW x.t.w64 && x.b.okW (x.t.w64 && !b32) && oneQueue x.d.isQ [x.a, x.b]
    && immOk x.h.form [x.a, x.b]
/-- `c32`: source C is read at 32 bits. -/
def I3.wf (x : I3) (c32 : Bool) : Bool :=
  x.h.okForm false true true && x.d.ok x.t.w64 false && x.a.okW x.t.w64 && x.b.okW x.t.w64 && x.c.okW (x.t.w64 && !c32)
    && oneQueue x.d.isQ [x.a, x.b, x.c] && immOk x.h.form [x.a, x.b, x.c]
/-- A lane instruction of one source. -/
def lane1 (h : Hdr) (d : Dst) (a : Src) (wd wa : Bool) : Bool :=
  d.ok wd false && a.okW wa && oneQueue d.isQ [a] && immOk h.form [a]
/-- A lane instruction of two sources. -/
def lane2 (h : Hdr) (d : Dst) (a b : Src) (w64 : Bool) : Bool :=
  d.ok w64 false && a.okW w64 && b.okW w64 && oneQueue d.isQ [a, b] && immOk h.form [a, b]
/-- A lane instruction of three sources, which needs a long form. -/
def lane3 (h : Hdr) (d : Dst) (a b c : Src) (w64 : Bool) : Bool :=
  h.okForm false true true && d.ok w64 false && a.okW w64 && b.okW w64 && c.okW w64 && oneQueue d.isQ [a, b, c]
    && immOk h.form [a, b, c]
/-- A comparison of two sources. -/
def cmp2 (h : Hdr) (a b : Src) (w64 : Bool) : Bool := a.okW w64 && b.okW w64 && oneQueue false [a, b] && immOk h.form [a, b]
/-- A scalar instruction of one source. -/
def scal1 (h : Hdr) (a : Src) : Bool := a.isSI && immOk h.form [a]
/-- A scalar instruction of two sources. -/
def scal2 (h : Hdr) (a b : Src) : Bool := a.isSI && b.isSI && immOk h.form [a, b]
def TileMem.wf (x : TileMem) : Bool := x.h.okForm true true false && x.a.isSI && immOk x.h.form [x.a]
def Range.wf (x : Range) (lvl : Bool) : Bool :=
  x.h.okForm false true true && quadOk x.r && x.idx.isSI && x.len.isSI && noWide [x.idx, x.len] && (lvl || !x.lvl) && x.h.form.holds x.off
def CodeRange.wf (x : CodeRange) : Bool := x.h.okForm true true false && x.a.isS && x.b.isSI && immOk x.h.form [x.a, x.b]
def TlOp.wf (x : TlOp) : Bool := x.h.okForm true true false && scal2 x.h x.a x.b
def VV.wf (x : VV) : Bool := x.h.okForm true false false && x.a.isV
def WRed.wf (x : WRed) (scan : Bool) : Bool :=
  x.d.ok false (!scan) && (scan || !x.d.isQ) && (scan || !x.excl) && oneQueue x.d.isQ [x.a] && immOk x.h.form [x.a]
/-- The addressing operands of a global atomic, its data of class `p`. -/
def AtomAddr.wf (x : AtomAddr) (f : Form) (p : Src → Bool) (k : MemOk) : Bool :=
  quadOk x.r && x.idx.isVal x.i64 && p x.data && noWide [x.idx, x.data] && f.holds x.off && x.mf.ok f k
def AtomF.wf (x : AtomF) (w64 : Bool) : Bool :=
  x.h.okForm false true true && vecOk x.d (if w64 then 2 else 1)
    && x.ad.wf x.h.form (fun s => s.okW w64) { acq := true, rel := true, ar := true }
/-- A vector or scalar. -/
def Src.isReg (s : Src) : Bool := s.isV || s.isS
/-- What `ACCEPT` compares (R209). -/
def Src.isLane : Src → Bool
  | .v _ _ _ => true
  | .o _ => true
  | .la => true
  | .lb => true
  | _ => false

/-- Every check of a K3 instruction's term. -/
def Instr.wf : Instr → Bool
  | .nop _ => true
  | .bra x => x.h.okForm false true true && x.h.form.holds x.off
  | .brx x => x.wf false false Src.isTarget
  | .call x => x.h.okForm false true true && x.h.form.holds x.off
  | .callx x => x.h.okForm true false false && x.a.isTarget
  | .ret x => x.wf false false Src.isTarget
  | .hinge x => x.wf
  | .wpt x => x.wf
  | .endFrag x => x.wf
  | .yield x => x.wf
  | .yieldEnd _ => true
  | .sleep x => x.wf true true Src.isSI
  | .sleepEnd _ => true
  | .vote x => x.h.okForm true false false
  | .brkpt x => x.wf
  | .mov x => x.wf false false
  | .movi x => x.wf false true
  | .iadd x => x.wf false
  | .iaddc x => lane2 x.h x.d x.a x.b false
  | .isub x => x.wf false
  | .imul x => x.wf false
  | .imulh x => x.wf false
  | .imad x => x.wf false
  | .iabs x => x.wf false false
  | .ineg x => x.wf false false
  | .imin x => x.wf false
  | .imax x => x.wf false
  | .and x => x.wf false
  | .or x => x.wf false
  | .xor x => x.wf false
  | .not x => x.wf false false
  | .shl x => x.wf true
  | .shr x => x.wf true
  | .sar x => x.wf true
  | .rot x => x.wf true
  | .bfe x => x.wf true
  | .bfi x => x.wf true
  | .popc x => x.wf true false
  | .clz x => x.wf true false
  | .brev x => x.wf false false
  | .lea x => x.d.ok true false && x.a.okW true && x.b.okW false && oneQueue false [x.b] && immOk x.h.form [x.a, x.b]
  | .sel x => lane2 x.h x.d x.a x.b x.t.w64
  | .isetp x => cmp2 x.h x.a x.b x.t.w64
  | .fadd x => lane2 x.h x.d x.a x.b false
  | .fmul x => lane2 x.h x.d x.a x.b false
  | .ffma x => lane3 x.h x.d x.a x.b x.c false
  | .fmin x => lane2 x.h x.d x.a x.b false
  | .fmax x => lane2 x.h x.d x.a x.b false
  | .fsetp x => cmp2 x.h x.a x.b false
  | .fclass x => lane1 x.h x.d x.a false x.fmt.w64
  | .frcp x => lane1 x.h x.d x.a false false
  | .frsq x => lane1 x.h x.d x.a false false
  | .fsqrt x => lane1 x.h x.d x.a false false
  | .fex2 x => lane1 x.h x.d x.a false false
  | .flg2 x => lane1 x.h x.d x.a false false
  | .fsin x => lane1 x.h x.d x.a false false
  | .fcos x => lane1 x.h x.d x.a false false
  | .frnd x => lane1 x.h x.d x.a false false
  | .hadd2 x => lane2 x.h x.d x.a x.b false
  | .hmul2 x => lane2 x.h x.d x.a x.b false
  | .hfma2 x => lane3 x.h x.d x.a x.b x.c false
  | .hmin2 x => lane2 x.h x.d x.a x.b false
  | .hmax2 x => lane2 x.h x.d x.a x.b false
  | .dadd x => lane2 x.h x.d x.a x.b true
  | .dmul x => lane2 x.h x.d x.a x.b true
  | .dfma x => lane3 x.h x.d x.a x.b x.c true
  | .dsetp x => cmp2 x.h x.a x.b true
  | .cvtF x => lane1 x.h x.d x.a x.dst.w64 x.src.w64 && (!x.src.exactTo x.dst || decide (x.rm = .dyn))
  | .cvtI x => lane1 x.h x.d x.a x.dst.w64 x.src.w64 && (!x.src.isInt || decide (x.rm = .dyn))
  | .cvtQ x => lane2 x.h x.d x.a x.b false && decide (x.pos.toNat < x.fmt.count)
  | .pack x => lane2 x.h x.d x.a x.b false && (decide (x.fmt = .f16 ∨ x.fmt = .bf16) || decide (x.rm = .dyn))
  | .unpk x => lane1 x.h x.d x.a false false && decide (x.pos.toNat < x.fmt.count)
  | .plop _ => true
  | .pmov x => (match x.op with
      | .vp (.v _ _) _ => true
      | .vp _ _ => false
      | .pv _ a => a.isV
      | .ps _ a => a.isS
      | _ => true)
  | .shfl x => lane2 x.h x.d x.a x.b false
  | .bcast x => lane2 x.h x.d x.a x.b false && x.b.isSI
  | .redw x => x.wf false
  | .scanw x => x.wf true
  | .xchg x => x.b.isS && immOk x.h.form [x.a]
  | .xchgArrival _ => true
  | .xchgWithdrawal _ => true
  | .femark x => (!x.pair || (match x.d with
      | .v n => decide (n.toNat % 2 = 0)
      | .s n => decide (n.toNat % 2 = 0)))
  | .fetest x => x.a.isReg
  | .ocld x => x.a.isV
  | .smov x => scal1 x.h x.a
  | .smovi x => x.a.isImm && immOk x.h.form [x.a]
  | .sadd x => scal2 x.h x.a x.b
  | .ssub x => scal2 x.h x.a x.b
  | .smul x => scal2 x.h x.a x.b
  | .sand x => scal2 x.h x.a x.b
  | .sor x => scal2 x.h x.a x.b
  | .sxor x => scal2 x.h x.a x.b
  | .sshl x => scal2 x.h x.a x.b
  | .sshr x => scal2 x.h x.a x.b
  | .ssetp x => scal2 x.h x.a x.b
  | .rds x => specialKnown x.n.toNat && !x.d.isQ && (match x.d with
      | .s _ => true
      | d => d.ok (special64 x.n.toNat) false)
  | .wrs x => specialRW false x.n.toNat && (if x.n = 22 then x.a.isTarget else x.a.isSI) && immOk x.h.form [x.a]
  | .setfmt x => x.wf true true Src.isSI
  | .setmode x => x.wf true true Src.isSI
  | .mxbind x => x.wf false false Src.isImm
  | .mxbindRel x => x.wf
  | .mxstep x => (match x.sc with
      | none => x.h.okForm true false false
      | some c => x.h.okForm false true false && c.isV)
  | .mxloop x => x.a.isS && x.b.isS && (match x.sc with
      | none => x.h.okForm true false false
      | some c => x.h.okForm false true false && c.isS)
  | .mxwait x => x.wf
  | .azero x => x.h.okForm true false false && decide (x.d.toNat + x.m.toNat + 1 ≤ 8)
  | .amov x => x.h.okForm true false false && (match x.op with
      | .fromAcc _ _ _ => true
      | .intoAcc _ a => a.isV)
  | .adrain x => x.base.isS && x.off.isSI && immOk x.h.form [x.off] && (match x.tq with
      | none => x.h.okForm true true false
      | some c => x.h.okForm false true false && c.isS && decide (x.fmt ≠ .s32))
  | .adrainCompletion _ => true
  | .tzero x => x.h.okForm true false false
  | .tmov x => x.h.okForm true false false && (match x.op with
      | .fromTile _ _ _ => true
      | .intoTile _ a => a.isV)
  | .bppack x => x.wf
  | .bpunpk x => x.wf
  | .matrixStepStart _ _ => true
  | .matrixStepCompletion _ _ => true
  | .accumulatorEffect _ => true
  | .propose x => x.h.okForm true false false && decide (x.base.toNat % 8 = 0) && decide (x.size ≠ 3)
      && decide (x.base.toNat + 8 * 2 ^ x.size.toNat ≤ 256)
  | .accept x => x.h.okForm true false false && x.a.isLane
  | .reject x => x.wf
  | .rngkey x => x.wf false Src.isS Src.isS
  | .rng x => x.h.okForm true false false
  | .rngctr x => x.wf false false fun s => s.isSI || (s.isV && s.okW true)
  | .ld x => vecOk x.d x.sz.regs && quadOk x.r && x.idx.isVal x.i64 && noWide [x.idx] && x.conv.fits x.sz && x.h.form.holds x.off
      && x.mf.ok x.h.form { acq := true, pols := [.normal, .cb, .ev, .lu, .na] }
  | .st x => x.h.okForm false true true && quadOk x.r && x.idx.isVal x.i64 && x.data.isData 256 x.sz && noWide [x.idx, x.data]
      && x.conv.fits x.sz && x.h.form.holds x.off && x.mf.ok x.h.form { rel := true, pols := [.normal, .cb, .ev, .lu, .na], bear := true }
  | .lds x => x.h.okForm true true false && vecOk x.d x.sz.regs && x.a.isVal false && noWide [x.a] && x.conv.fits x.sz && x.h.form.holds x.off
  | .sts x => x.h.okForm true true false && x.a.isVal false && x.b.isData 256 x.sz && noWide [x.a, x.b] && x.conv.fits x.sz && x.h.form.holds x.off
  | .ldsc x => decide (x.d.toNat % 2 ^ x.m.toNat = 0) && quadOk x.r && x.idx.isSI && noWide [x.idx] && x.h.form.holds x.off
      && x.mf.ok x.h.form { acq := true, pols := [.normal, .cb, .ev, .lu, .na] }
  | .ldt x => x.wf
  | .ldtt x => x.wf
  | .stt x => x.wf
  | .tileFillCompletion _ _ => true
  | .pf x => x.wf true
  | .ipf x => x.wf
  | .ipin x => x.wf
  | .iunpin x => x.wf
  | .seal x => x.wf true Src.isS Src.isSI
  | .unseal x => x.wf true Src.isS Src.isSI
  | .cinv x => x.wf true
  | .cwb x => x.wf false
  | .brset x => x.h.okForm true true false && x.a.isSI && quadOk x.q && immOk x.h.form [x.a]
  | .bradd x => x.wf true Src.isSI Src.isSI
  | .brdel x => x.wf true Src.isSI Src.isSI
  | .brrd x => x.h.okForm true true false && quadOk x.d && scal1 x.h x.a
  | .unpark x => x.wf false
  | .parkq x => quadOk x.r && x.idx.isSI && noWide [x.idx] && x.h.form.holds x.off
  | .atomI x => x.h.okForm false true true && vecOk x.d (if x.t.w64 then 2 else 1)
      && x.ad.wf x.h.form (fun s => s.okW x.t.w64) { acq := true, rel := true, ar := true } && oneQueue false [x.ad.data]
  | .atomF x => x.wf x.fmt1
  | .atomCas x => x.h.okForm false true true && vecOk x.d (x.w.bytes / 4)
      && x.ad.wf x.h.form (Src.isCas 256 (fun n => decide (n < 128)) x.w) { acq := true, rel := true, ar := true }
  | .atomX2 x => x.wf false
  | .red x => x.h.okForm false true true && x.ad.wf x.h.form (fun s => s.okW x.op.w64) { rel := true, pols := [.normal, .cb] } && (match x.op with
      | .int .exch _ => false
      | _ => true)
  | .atoms x => vecOk x.d (if x.op.w64 then 2 else 1) && x.a.isVal false && x.b.okW x.op.w64 && noWide (x.a :: x.b :: x.c.toList)
      && oneQueue false (x.b :: x.c.toList) && x.h.form.holds x.off && (match x.c with
      | none => !x.op.isCas && x.h.okForm true true false
      | some c => x.op.isCas && x.h.okForm false true false && c.okW x.op.w64)
  | .fence x => x.h.okForm true false false
  | .bar x => x.wf
  | .bara x => x.h.okForm true true false && x.a.isSI && (x.tx.toList.all Src.isSI) && immOk x.h.form (x.a :: x.tx.toList)
  | .barw x => x.wf true Src.isSI Src.isSI
  | .gbar x => x.wf
  | .gridBarrierTeamMessage _ => true
  | .gridBarrierDieMessage _ _ => true
  | .gridBarrierRelease _ _ => true
  | .cpy x => x.h.okForm true true false && scal2 x.h x.a x.b
  | .copyStart _ => true
  | .copyLocalWrite _ => true
  | .copyRetirement _ => true
  | .tlwait x => x.wf
  | .spawn x => x.h.okForm true false false && quadOk x.r
  | .qpush x => x.h.okForm true false false && x.a.isVal false && noWide [x.a]
  | .qpop x => x.h.okForm true false false && !(x.empt && x.nb.isSome)
  | .qcnt x => x.h.okForm true false false
  | .trap x => x.wf
  | .reth x => x.h.okForm true false false
  | .rdtr x => x.h.okForm true false false && x.sel.isImm && immOk x.h.form [x.sel]
      && (if x.sel = .zero ∨ x.sel = .imm 0 then decide (x.d.toNat % 2 = 0) && decide (x.m = .none) else true)
  | .term x => x.wf
  | .termTeam x => x.wf
  | .cntrd x => x.h.okForm true true false && scal1 x.h x.a
  | .cntclr x => x.wf true false Src.isSI
  | .tladv x => x.wf
  | .memoryReply _ => true
  | .sliceRequest _ => true
  | .launchIntake _ => true
  | .teamPlacement _ => true
  | .swapReturn _ => true
  | .dispatchHold _ => true
  | .quantumTick _ => true
  | .doorbell _ _ => true
  | .vacate _ _ => true
  | .vacateComplete _ => true
  | .drain _ _ => true
  | .watchdogExpiry _ => true
  | .eventSize _ _ => true
  | .eventReadIndex _ _ => true
  | .switchAborts _ _ => true
  | .eventsLost _ _ => true
  | .descriptor _ _ _ => true
  | .registerWrite _ _ _ => true
  | .createContext _ => true
  | .destroyContext _ => true
  | .load _ => true
  | .unload _ => true
  | .writePartitionEntry _ => true
  | .writePeerRoute _ => true
  | .deviceConfiguration _ => true
  | .readSensors _ => true
  | .readEventLog _ => true
  | .readAndClearErrorCounts _ => true
  | .readAgeing _ => true
  | .setPowerState _ => true
  | .firmwareUpdate _ => true
  | .attest _ => true
  | .coldReset _ => true
  | .functionLevelReset => true
  | .thermalTrip => true
  | .sensorRefresh _ => true
  | .ageingUpdate _ => true
  | .patrol _ _ _ => true
  | .correctedError _ _ _ => true
  | .uncorrectableError _ => true
  | .hostRead _ _ => true
  | .hostWrite _ _ => true
  | .hostAtomicop _ _ => true
  | .translationCompletion _ _ => true
  | .pageResponse _ _ _ => true
  | .invalidationRequest _ _ _ _ => true
  | .invalidationCompletion _ => true
  | .peerRequest _ _ _ => true
  | .linkLoss _ => true
  | .timeSliceTick _ => true
  | .dieHalted _ _ => true
  | .exchangeEnd _ _ => true
  | .switchAbort _ => true
  | .unimplementedOpcode _ => true
  | .unknownOpcode => true
  | .priEnable => true

/-- Whether a term is an instruction, not an event. -/
def Instr.isWord (i : Instr) : Bool := (encodeRaw i).isSome

end Sys2Proof
end

