-- ==== Sys2Proof/Safety.lean ====
section
/-! DEFINITION. What a safe run is, and the words in which the statements speak of an instruction being issued: when nothing holds it
back (`Clear`), what its destination holds afterwards (`Holds`), and what it leaves alone (`Frame`). -/

namespace Sys2Proof.Machine

/-- The machine goes on: the step ends in a next state. -/
def Goes (s : State) : Prop := ∃ t, step s = .next t

/-- What every step keeps: the memory is in its canonical form, and each wave stands under its own identifier. -/
structure State.Inv (s : State) : Prop where
  mem  : s.mem.wf = true
  keys : ∀ e ∈ s.waves, e.2.id = e.1

/-! ### An instruction being issued -/

/-- The wave, fragment, handler mode and lanes that an instruction with header `h` meets; its operands are as they were captured if it has waited at
a role queue (R35). -/
abbrev State.issOf (s : State) (h : Hdr) : Iss := s.iss h

/-- The same with the queue entry that the instruction pops (R360). -/
def State.issQ (s : State) (u : Uses) (h : Hdr) : Iss :=
  let i := s.issOf h
  { i with q := if i.part = 0 then [] else (s.popQueue i.w u).1 }

/-- A running fragment of a wave in its quarter is issuing. -/
structure Stands (s : State) : Prop where
  wave : (Tab.get? s.waves s.cur.wave).isSome = true ∧ (s.wave s.cur.wave).id = s.cur.wave ∧ (s.wave s.cur.wave).here = true
      ∧ ∃ f ∈ (s.wave s.cur.wave).frags, f.entry = s.cur.entry
  runs : ((s.wave s.cur.wave).frag s.cur.entry).st = .running ∧ ((s.wave s.cur.wave).frag s.cur.entry).wait = .none

/-- And its next PC lies in the address space (R52). -/
structure Issuing (s : State) : Prop extends Stands s where
  room : ((s.wave s.cur.wave).frag s.cur.entry).pc + s.cur.step < 2 ^ 57

/-- Only an instruction that uses a role queue has captured operands: nothing else waits with any (R35, R360). -/
def State.CaptureOk (s : State) (u : Uses) : Prop := ((s.wave s.cur.wave).frag s.cur.entry).capt = none ∨ usesQueue u = true

/-- The vectors that a source names, and its queue. -/
def SU.vecs (x : SU) : List Nat := match x.x with
  | .v m _ _ => (List.range x.kv).map (m.toNat + ·)
  | _ => []
def SU.queues (x : SU) : List Nat := match x.x with
  | .q q _ => [q.toNat]
  | _ => []

/-- No interlock but an empty source holds the instruction back and nothing traps before its operands are read (R92, R94, R113, R158, R164, R200, R252). -/
structure Unbarred (s : State) (u : Uses) (h : Hdr) : Prop where
  idem  : (s.wave s.cur.wave).dm = .k3 → (s.issOf h).hm = false → ∀ n ∈ u.dv,
      n ∉ u.srcs.flatMap SU.vecs ∨ ((s.issOf h).w.vreg n).wir = true ∨
      ∃ p ∈ (s.issOf h).w.prop.toList, p.inWin n = true ∧ p.ebits (n - p.base) &&& (s.issOf h).part = 0
  hold  : u.hold = false ∨ ((s.issOf h).part = 0 ∧ u.whole = true)
  first : u.first = none ∨ ((s.issOf h).part = 0 ∧ u.whole = true)
  preds : ∀ p ∈ h.gp.toNat :: u.ps, predKey (s.issOf h).hm p ∉ (s.issOf h).w.pBusy
  dsts  : (∀ n ∈ u.dv, ((s.issOf h).w.vreg n).st ≠ .empty) ∧ ∀ n ∈ u.ds, ((s.issOf h).w.sreg (s.issOf h).hm n).st ≠ .empty
  tiles : (∀ t ∈ u.tr ++ u.tw, t ∉ (s.issOf h).w.tfill) ∧ ∀ t ∈ u.tw, s.stepReads (s.issOf h).w t = false
  win   : ∀ n ∈ u.win, ((s.issOf h).w.vreg n).st ≠ .empty

/-- Nor does a source that is empty (R95). -/
structure Unlocked (s : State) (u : Uses) (h : Hdr) : Prop extends Unbarred s u h where
  srcs  : ∀ x ∈ u.srcs, ∀ r ∈ SU.regs (s.issOf h).w (s.issOf h).part x, (s.issOf h).w.stateOf (s.issOf h).hm r ≠ .empty

/-- Nor does a role queue, which is asked only when a lane takes part (R59, R360). -/
structure Readable (s : State) (u : Uses) (h : Hdr) : Prop extends Unlocked s u h where
  pops  : (s.issOf h).part ≠ 0 → ∀ q ∈ u.srcs.flatMap SU.queues, (s.team (s.issOf h).w.team).queue q ≠ []
  push  : (s.issOf h).part ≠ 0 → ∀ q ∈ u.push.toList,
      Tab.get? (s.team (s.issOf h).w.team).prod q = some (s.issOf h).w.role ∧ ((s.team (s.issOf h).w.team).queue q).length < 8

/-- Nor a refetch (R89). -/
structure Unheld (s : State) (u : Uses) (h : Hdr) : Prop extends Readable s u h where
  fetched : (s.issOf h).part ≠ 0 → (s.issOf h).f.refetch = true ∨ ∀ x ∈ u.srcs, (s.issOf h).w.refetches (s.issOf h).part x.x = false

/-- No view that a closing instruction reads is poisoned, nor its operand (R200, R209). -/
def ViewsClean (s : State) (u : Uses) (h : Hdr) : Prop :=
  u.win ≠ [] → (∀ n ∈ u.win, ((s.issOf h).w.vreg n).st ≠ .poison) ∧
    ∀ x ∈ u.srcs, ∀ r ∈ SU.regs (s.issOf h).w (s.issOf h).part x, (s.issOf h).w.stateOf (s.issOf h).hm r ≠ .poison

/-- And none of its operands traps: none is poisoned, dead where that traps, or stale (R87 to R90, R95). -/
structure Clear (s : State) (u : Uses) (h : Hdr) : Prop extends Unheld s u h where
  views : ViewsClean s u h
  clean : (s.issOf h).part ≠ 0 → ∀ x ∈ u.srcs,
      (∀ r ∈ SU.regs (s.issOf h).w (s.issOf h).part x, (s.issOf h).w.stateOf (s.issOf h).hm r ≠ .poison) ∧
      ((s.issOf h).w.md.getLsbD 12 = true → (s.issOf h).w.srcDead (s.issOf h).hm (s.issOf h).part x = false)
  fresh : (s.issOf h).part ≠ 0 → ∀ x ∈ u.srcs, (s.issOf h).w.readsStale (s.issOf h).hm (s.issOf h).part x.x = false

/-! ### Results -/

/-- Lane `l` of queue entry `e` as a wave sees it, the last entry of the team's queue `k`. -/
def LastEntry (s t : State) (i : Iss) (k : Nat) (x : Nat → Word) : Prop :=
  ∃ e, (t.team i.w.team).queue k = (s.team i.w.team).queue k ++ [e] ∧ ∀ l, i.part.getLsbD l = true → laneAt (i.w.entryLanes e) l = x l

/-- What a mirror holds after a vector write (R12, R87, R88). -/
def HoldsMirror (t : State) (i : Iss) (m : Mirror) (x : Nat → Word) : Prop :=
  match m with
  | .none => True
  | .la => ∀ l, i.part.getLsbD l = true → laneAt ((t.wave i.w.id).latch i.hm false).val l = x l
  | .lb => ∀ l, i.part.getLsbD l = true → laneAt ((t.wave i.w.id).latch i.hm true).val l = x l
  | .o k => ∀ l, i.part.getLsbD l = true → laneAt ((t.wave i.w.id).slotAt k.toNat).val l = x l

/-- A 32-bit result `x` of the lanes that take part stands in the destination: a vector's lanes and its mirror, a scalar from the
lowest lane, a slot, a latch, or one more queue entry (R61, R78, R87, R88, R360). -/
def Holds (s t : State) (i : Iss) (d : Dst) (x : Nat → Word) : Prop :=
  match d with
  | .v n m => (∀ l, i.part.getLsbD l = true → (t.wave i.w.id).vlane n.toNat l = x l) ∧ HoldsMirror t i m x
  | .s n => i.part ≠ 0 → (t.wave i.w.id).sval i.hm n.toNat = (x ((lanesOf i.part).headD 0)).setWidth 64
  | .o k => ∀ l, i.part.getLsbD l = true → laneAt ((t.wave i.w.id).slotAt k.toNat).val l = x l
  | .la => ∀ l, i.part.getLsbD l = true → laneAt ((t.wave i.w.id).latch i.hm false).val l = x l
  | .lb => ∀ l, i.part.getLsbD l = true → laneAt ((t.wave i.w.id).latch i.hm true).val l = x l
  | .q k => i.part ≠ 0 → LastEntry s t i k.toNat x

/-- A 64-bit result: the low word in an even vector, the high word in the next (R120). -/
def Holds64 (t : State) (i : Iss) (d : Dst) (x : Nat → DWord) : Prop :=
  match d with
  | .v n _ => ∀ l, i.part.getLsbD l = true →
      (t.wave i.w.id).vlane n.toNat l = (x l).setWidth 32 ∧ (t.wave i.w.id).vlane (n.toNat + 1) l = (x l >>> 32).setWidth 32
  | _ => False

/-! ### Frames -/

/-- What an instruction may write of its wave beside its operands' bookkeeping: vectors (`all` in every lane), scalars, predicates with the lanes
written, latches, slots, tiles, lanes of the counter register, special registers by number (`sr`), its matrix quad, its proposal, its own fragment's
state, all fragments' lanes and PCs with their counts (`split`), `$flags.sat`, and the queue it pops or pushes. `mv` and `ms` are the registers it
marks dead (R90), `pb` the predicates that an exchange will write, `loc` the bytes of its team's local memory that it writes; `out` says that it sets
something out on a network. -/
structure Writes where
  dv    : List Nat := []
  all   : List Nat := []
  ds    : List Nat := []
  dp    : List Nat := []
  dpl   : Mask     := 0
  la    : Bool     := false
  lb    : Bool     := false
  o     : List Nat := []
  tiles : List Nat := []
  ctr   : Mask     := 0
  sr    : List Nat := []
  mx    : Bool     := false
  prop  : Bool     := false
  own   : Bool     := false
  split : Bool     := false
  mv    : List Nat := []
  ms    : List Nat := []
  sat   : Bool     := false
  pop   : Option Nat := none
  psh   : Option Nat := none
  pb    : List Nat := []
  loc   : Nat → Bool := fun _ => false
  out   : Bool     := false

/-- A scalar's home: the handler's file for `s120` to `s127` in handler mode, else the wave's (R385). -/
def Wave.sFile (w : Wave) (b : Bool) (n : Nat) : SReg := if b then Tab.getD { dead := false } w.hs n else Tab.getD {} w.s n
def sHome (hm : Bool) (n : Nat) : Bool := hm && decide (120 ≤ n)

/-- What stands in a wave after an instruction that writes `x` (`v` before, `w` after, `e` the fragment). A register outside the
destinations, and a destination's lane that takes no part, reads as before, or 0 where a kill was pending or is now marked (R90).
Latches, slots, predicates, tiles, accumulators, counters and special registers outside `x` keep their values, the fragment keeps its
lanes, its records and its format, and other fragments are untouched. -/
structure WaveFrame (v w : Wave) (i : Iss) (e : Nat) (x : Writes) : Prop where
  vec    : ∀ n l, n ∉ x.all → (n ∈ x.dv → i.part.getLsbD l = false) →
      w.vlane n l = v.vlane n l ∨ (w.vlane n l = 0 ∧ (n ∈ x.mv ∨ (v.vreg n).kill.getLsbD l = true))
  scal   : ∀ b n, ¬(n ∈ x.ds ∧ sHome i.hm n = b) →
      ((w.sFile b n).val = (v.sFile b n).val ∧ (w.sFile b n).dead = (v.sFile b n).dead)
      ∨ ((w.sFile b n).dead = true ∧ ((n ∈ x.ms ∧ sHome i.hm n = b) ∨ (v.sFile b n).kill = true))
  pred   : ∀ n l, (n ∈ x.dp → x.dpl.getLsbD l = false) → (w.pred i.hm n).getLsbD l = (v.pred i.hm n).getLsbD l
  pred14 : if i.hm then Tab.getD 0 w.p 14 = Tab.getD 0 v.p 14 else w.hp14 = v.hp14
  latch  : ∀ b, (if b then x.lb else x.la) = false → (w.latch i.hm b).val = (v.latch i.hm b).val
  latchO : ∀ b, (w.latch (!i.hm) b).val = (v.latch (!i.hm) b).val
  slot   : ∀ k, k ∉ x.o → (w.slotAt k).val = (v.slotAt k).val ∨ w.slotAt k = {}
  tile   : ∀ n, n ∉ x.tiles → w.tile n = v.tile n ∧ (n ∈ w.tfill ↔ n ∈ v.tfill)
  pend   : ∀ p, p ∉ x.pb → (p ∈ w.pBusy ↔ p ∈ v.pBusy)
  ctr    : ∀ l, x.ctr.getLsbD l = false → w.ctr l = v.ctr l
  mx     : x.mx = false → w.mx = v.mx.map fun m => { m with recN := (w.mx.map Member.recN).getD 0 }
  prop   : x.prop = false → (w.prop.map fun p => (p.base, p.n)) = v.prop.map fun p => (p.base, p.n)
  frag   : x.split = false → ∀ f, f ≠ e → w.frag f = v.frag f
  own    : x.split = false → (w.frag e).mask = (v.frag e).mask ∧ (w.frag e).stack = (v.frag e).stack ∧ (w.frag e).late = (v.frag e).late
      ∧ (w.frag e).prior = (v.frag e).prior ∧ (w.frag e).hinged = (v.frag e).hinged
      ∧ (14 ∉ x.sr → (w.frag e).fmt = (v.frag e).fmt)
      ∧ (x.own = false → (w.frag e).st = (v.frag e).st ∧ (w.frag e).wait = (v.frag e).wait ∧ (w.frag e).wake = (v.frag e).wake)
  flags  : 16 ∉ x.sr → w.flags = if x.sat then v.flags ||| 1 else v.flags
  sregs  : (15 ∉ x.sr → w.md = v.md) ∧ (18 ∉ x.sr → w.acc = v.acc) ∧ (19 ∉ x.sr → w.rej = v.rej) ∧ (20 ∉ x.sr → w.keyLo = v.keyLo)
      ∧ (21 ∉ x.sr → w.keyHi = v.keyHi) ∧ ∀ n, n ∉ x.sr → Tab.getD 0 w.trec n = Tab.getD 0 v.trec n
  rest   : w = { v with v := w.v, s := w.s, hs := w.hs, p := w.p, hp14 := w.hp14, la := w.la, lb := w.lb, hla := w.hla, hlb := w.hlb
                        o := w.o, t := w.t, tfill := w.tfill, pBusy := w.pBusy, prop := w.prop, mx := w.mx, wpc := w.wpc, frags := w.frags, born := if x.split then w.born else v.born, towed := w.towed, flags := w.flags
                        rngctr := w.rngctr, md := w.md, acc := w.acc, rej := w.rej, keyLo := w.keyLo, keyHi := w.keyHi, trec := w.trec }

/-- What an instruction leaves alone in the device: every other wave, every byte of memory, and all other state but the issue and
conflict counts of its quarter and core, the time its quarter is busy, and the model's counter of free values; in teams only the queue it
pushes to or pops from, its bytes of local memory and its quads; and beside these, if it sets something out, the traffic on the networks, the event log
(a poisoned sector that the L1 serves is logged, R240), and the core's copies of bearing entries (a load from its own park way uses one, R268). -/
structure Frame (s t : State) (i : Iss) (x : Writes) : Prop where
  wave  : WaveFrame (s.wave s.cur.wave) (t.wave s.cur.wave) i s.cur.entry x
  waves : ∀ n, n ≠ s.cur.wave → t.wave n = s.wave n
  teams : ∀ n, t.team n = { s.team n with q := (t.team n).q, lmem := (t.team n).lmem, quads := (t.team n).quads }
  queue : ∀ n k, (n = i.w.team → x.psh ≠ some k) → (t.team n).queue k =
      if n = i.w.team ∧ x.pop = some k then ((s.team n).queue k).tail else (s.team n).queue k
  local' : ∀ n a, (n = i.w.team → x.loc a = false) → (t.team n).lmem.get a = (s.team n).lmem.get a
  quads : ∀ n, (n = i.w.team → x.mx = false) → (t.team n).quads = (s.team n).quads
  cnt   : ∀ k, k ∉ [qKey i.w.core i.w.q 0, qKey i.w.core i.w.q 2, cKey i.w.core 0, cKey i.w.core 1, cKey i.w.core 2] →
      (x.split = true → ∀ c, 4 ≤ c → c < 8 → k ≠ qKey i.w.core i.w.q c) →
      Tab.getD 0 t.cnt k = Tab.getD 0 s.cnt k
  busy  : ∀ k, k ≠ i.w.core * 4 + i.w.q → Tab.getD 0 t.busy k = Tab.getD 0 s.busy k
  bytes : ∀ a, t.mem.get a = s.mem.get a
  rest  : t = { s with
      waves := t.waves, teams := t.teams, cnt := t.cnt, busy := t.busy, free := t.free
      mail := if x.out then t.mail else s.mail, reqs := if x.out then t.reqs else s.reqs, reps := if x.out then t.reps else s.reps
      ops := if x.out then t.ops else s.ops, nextId := if x.out then t.nextId else s.nextId, ats := if x.out then t.ats else s.ats
      pages := if x.out then t.pages else s.pages, outbox := if x.out then t.outbox else s.outbox, l1 := if x.out then t.l1 else s.l1
      log := if x.out then t.log else s.log, bears := if x.out then t.bears else s.bears }

/-! ### Instructions whose effect is a result in a destination -/

/-- What such an instruction uses and where its results go: in every lane that takes part a destination `d` of 32 or 64 bits; once a
scalar `sd`; in the lanes `plan` a predicate `pd`. `ok` is a further condition of its own, `more` what else it writes. -/
structure Sem where
  h    : Hdr
  u    : Uses
  d    : Option Dst := none
  w64  : Bool := false
  val  : State → Iss → Nat → DWord := fun _ _ _ => 0
  sd   : Option (BitVec 7) := none
  sval : State → Iss → DWord := fun _ _ => 0
  pd   : Option (BitVec 4) := none
  plan : Iss → Mask := Iss.part
  pval : State → Iss → Nat → Bool := fun _ _ _ => false
  sat  : Iss → Bool := fun _ => false
  ok   : State → Iss → Prop := fun _ _ => True
  more : Iss → Writes := fun _ => {}

def markedV (u : Uses) : List Nat := u.srcs.flatMap fun x => match x.x with
  | .v n true _ => (List.range x.kv).map (n.toNat + ·)
  | _ => []
def markedS (u : Uses) : List Nat := u.srcs.flatMap fun x => match x.x with
  | .s n true _ => (List.range x.ks).map (n.toNat + ·)
  | _ => []
def popped (u : Uses) : Option Nat := u.srcs.findSome? fun x => match x.x with
  | .q q _ => some q.toNat
  | _ => none
def mirrorSlot : Dst → List Nat
  | .v _ (.o k) => [k.toNat]
  | .o k => [k.toNat]
  | _ => []
/-- Whether a destination is, or mirrors into, a latch. -/
def toLatch (b : Bool) : Dst → Bool
  | .v _ .la => !b
  | .la => !b
  | .v _ .lb => b
  | .lb => b
  | _ => false

/-- What the operands of an instruction write; with no lane taking part, nothing. -/
def Sem.writes (m : Sem) (k : Iss) : Writes :=
  if k.part = 0 then {}
  else { m.more k with
    dv := m.u.dv, ds := m.u.ds, dp := m.pd.toList.map BitVec.toNat, dpl := m.plan k
    la := m.d.any (toLatch false), lb := m.d.any (toLatch true), o := (m.d.map mirrorSlot).getD [] ++ (m.more k).o
    mv := markedV m.u ++ (m.more k).mv, ms := markedS m.u ++ (m.more k).ms, sat := m.sat k
    pop := (popped m.u).or (m.more k).pop, psh := m.u.push.or (m.more k).psh }

/-- A well-formed instruction completes: its results stand in their destinations, the fragment is at the next instruction, and the rest is framed;
`also` is what else holds. -/
def Sem.CompletesAt (m : Sem) (i : Instr) (also : State → State → Iss → Prop) (s : State) : Prop :=
  i.wf = true → Issuing s → s.CaptureOk m.u → Clear s m.u m.h →
    let k := s.issQ m.u m.h
    m.ok s k →
    ∃ t, exec i s = .next t
      ∧ (∀ d, m.d = some d → if m.w64 then Holds64 t k d (m.val s k) else Holds s t k d fun l => (m.val s k l).setWidth 32)
      ∧ (∀ n, m.sd = some n → k.part ≠ 0 → (t.wave s.cur.wave).sval k.hm n.toNat = m.sval s k)
      ∧ (∀ p, m.pd = some p → k.part ≠ 0 → p = 15 ∨
          ∀ l, (m.plan k).getLsbD l = true → ((t.wave s.cur.wave).pred k.hm p.toNat).getLsbD l = m.pval s k l)
      ∧ (k.part ≠ 0 → also s t k)
      ∧ ((m.writes k).split = false → ((t.wave s.cur.wave).frag s.cur.entry).pc = k.f.pc + s.cur.step)
      ∧ Frame s t k (m.writes k)

def Sem.CompletesWith (m : Sem) (i : Instr) (also : State → State → Iss → Prop) : Prop := ∀ s, m.CompletesAt i also s
def Sem.Completes (m : Sem) (i : Instr) : Prop := m.CompletesWith i fun _ _ _ => True

end Sys2Proof.Machine
end

