-- ==== Sys2Proof/Certificates/Slice0/Obligations.lean ====
section
/-! DEFINITION. The statements for the provers. Each says what an instruction, an event or the whole machine does, in the words of
`Sys2Proof/Safety.lean`; its docstring names the rules of the manual it rests on. -/

namespace Sys2Proof.Machine

/-- A destination that a variable-latency producer will fill: empty, unless a kill has made every lane of it dead (R94). -/
def Awaits (w : Wave) (n : Nat) : Prop :=
  (w.vreg n).st = .empty ∨ ∀ l < (if w.w32 then 32 else 64), (w.vreg n).dead.getLsbD l = true
def AwaitsS (w : Wave) (hm : Bool) (n : Nat) : Prop := (w.sreg hm n).st = .empty ∨ (w.sreg hm n).dead = true

/-! ### Results of the lane instructions, written from the manual's tables -/

/-- A typed instruction of one source (R133). -/
def sem1 (x : I1) (f : {n : Nat} → BitVec n → BitVec n) : Sem :=
  { h := x.h, u := laneUses .vec x.t.w64 x.d [su x.t.w64 x.a], d := some x.d, w64 := x.t.w64
    val := fun _ i l => if x.t.w64 then f (i.v64 x.a l) else (f (i.v32 x.a l)).setWidth 64 }

/-- A count: 32 bits at every width (R133). -/
def semCount (x : I1) (f : {n : Nat} → BitVec n → Nat) : Sem :=
  { h := x.h, u := laneUses .vec false x.d [su x.t.w64 x.a], d := some x.d, w64 := false
    val := fun _ i l => BitVec.ofNat 64 (if x.t.w64 then f (i.v64 x.a l) else f (i.v32 x.a l)) }

/-- A typed instruction of two sources (R133). -/
def sem2 (x : I2) (f : {n : Nat} → BitVec n → BitVec n → BitVec n) : Sem :=
  { h := x.h, u := laneUses .vec x.t.w64 x.d [su x.t.w64 x.a, su x.t.w64 x.b], d := some x.d, w64 := x.t.w64
    val := fun _ i l => if x.t.w64 then f (i.v64 x.a l) (i.v64 x.b l) else (f (i.v32 x.a l) (i.v32 x.b l)).setWidth 64 }

/-- A source and an unsigned 32-bit count or control (R135, R136). -/
def semCtl (x : I2) (f : {n : Nat} → BitVec n → Nat → BitVec n) : Sem :=
  { h := x.h, u := laneUses .vec x.t.w64 x.d [su x.t.w64 x.a, su false x.b], d := some x.d, w64 := x.t.w64
    val := fun _ i l => if x.t.w64 then f (i.v64 x.a l) (i.v32 x.b l).toNat else (f (i.v32 x.a l) (i.v32 x.b l).toNat).setWidth 64 }

/-- `.s32` and `.s64` are signed (R122). -/
def isSigned (t : IType) : Bool := t = .s32 || t = .s64

/-- Results of the typed integer instructions that R133's own table gives. -/
def intSem : Instr → Option Sem
  | .mov x => some (sem1 x fun a => a)
  | .movi x => some (sem1 x fun {n} a => if x.t = .z64 then (a.setWidth 32).setWidth n else a)
  | .iadd x => some (sem2 x fun a b => a + b)
  | .isub x => some (sem2 x fun a b => a - b)
  | .imul x => some (sem2 x fun a b => a * b)
  | .imulh x => some (sem2 x fun {n} a b =>
      if isSigned x.t then BitVec.ofInt n (a.toInt * b.toInt / 2 ^ n) else BitVec.ofNat n (a.toNat * b.toNat / 2 ^ n))
  | .imad x => some
      { h := x.h, u := laneUses .vec x.t.w64 x.d [su x.t.w64 x.a, su x.t.w64 x.b, su x.t.w64 x.c], d := some x.d, w64 := x.t.w64
        val := fun _ i l => if x.t.w64 then i.v64 x.a l * i.v64 x.b l + i.v64 x.c l
          else (i.v32 x.a l * i.v32 x.b l + i.v32 x.c l).setWidth 64 }
  | .iabs x => some (sem1 x fun {n} a => if isSigned x.t then BitVec.ofInt n a.toInt.natAbs else a)
  | .ineg x => some (sem1 x fun a => -a)
  | .imin x => some (sem2 x fun a b => if (if isSigned x.t then b.slt a else b.ult a) then b else a)
  | .imax x => some (sem2 x fun a b => if (if isSigned x.t then a.slt b else a.ult b) then b else a)
  | .and x => some (sem2 x fun a b => a &&& b)
  | .or x => some (sem2 x fun a b => a ||| b)
  | .xor x => some (sem2 x fun a b => a ^^^ b)
  | .not x => some (sem1 x fun a => ~~~a)
  | .popc x => some (semCount x fun {n} a => (List.range n).countP fun k => a.getLsbD k)
  | .clz x => some (semCount x fun {n} a => ((List.range n).takeWhile fun k => !a.getMsbD k).length)
  | .brev x => some (sem1 x BitVec.reverse)
  | _ => none

/-- Shifts and rotation (R135). -/
def shiftSem : Instr → Option Sem
  | .shl x => some (semCtl x fun {w} a n => if w ≤ n then 0 else a <<< n)
  | .shr x => some (semCtl x fun {w} a n => if w ≤ n then 0 else a >>> n)
  | .sar x => some (semCtl x fun {w} a n => if w ≤ n then (if a.msb then BitVec.allOnes w else 0) else a.sshiftRight n)
  | .rot x => some (semCtl x fun {w} a n => a.rotateLeft (n % w))
  | _ => none

/-- Bit fields (R136), `LEA` (R137), `SEL` (R138) and `IADDC` (R134). -/
def fieldSem : Instr → Option Sem
  | .bfe x => some (semCtl x fun {w} a c =>
      let pos := c % 256
      let len := c / 256 % 256
      let k := min (pos + len) w - pos
      if len = 0 ∨ w ≤ pos then 0
      else if isSigned x.t then (a.extractLsb' pos k).signExtend w else (a.extractLsb' pos k).setWidth w)
  | .bfi x =>
    let f {w : Nat} (a b : BitVec w) (c : Nat) : BitVec w :=
      let pos := c % 256
      let len := c / 256 % 256
      let hi := min (pos + len) w
      if len = 0 ∨ w ≤ pos then b
      else BitVec.ofNat w ((List.range w).foldl (fun v k =>
        v + 2 ^ k * (if pos ≤ k ∧ k < hi then a.getLsbD (k - pos) else b.getLsbD k).toNat) 0)
    some
      { h := x.h, u := laneUses .vec x.t.w64 x.d [su x.t.w64 x.a, su x.t.w64 x.b, su false x.c], d := some x.d, w64 := x.t.w64
        val := fun _ i l => if x.t.w64 then f (i.v64 x.a l) (i.v64 x.b l) (i.v32 x.c l).toNat
          else (f (i.v32 x.a l) (i.v32 x.b l) (i.v32 x.c l).toNat).setWidth 64 }
  | .lea x => some
      { h := x.h, u := laneUses .vec true x.d [su true x.a, su false x.b], d := some x.d, w64 := true
        val := fun _ i l => i.v64 x.a l
          + (if x.zext then (i.v32 x.b l).setWidth 64 else (i.v32 x.b l).signExtend 64) * BitVec.ofNat 64 (2 ^ x.sh.toNat) }
  | .sel x => some
      { h := x.h, u := { laneUses .vec x.t.w64 x.d [su x.t.w64 x.a, su x.t.w64 x.b] with ps := [x.p.toNat] }, d := some x.d, w64 := x.t.w64
        val := fun _ i l =>
          let c := (i.w.pred i.hm x.p.toNat).getLsbD l ^^ x.pneg
          if x.t.w64 then (if c then i.v64 x.a l else i.v64 x.b l) else (if c then i.v32 x.a l else i.v32 x.b l).setWidth 64 }
  | .iaddc x =>
    let sum (i : Iss) (l : Nat) : Nat :=
      (i.v32 x.a l).toNat + (i.v32 x.b l).toNat + ((i.w.pred i.hm x.cin.toNat).getLsbD l).toNat
    some
      { h := x.h, u := { laneUses .vec false x.d [su false x.a, su false x.b] with ps := [x.cin.toNat, x.cout.toNat] }, d := some x.d
        w64 := false, val := fun _ i l => BitVec.ofNat 64 (sum i l), pd := some x.cout, pval := fun _ i l => (sum i l).testBit 32 }
  | _ => none

/-- The rounding mode of a rounding field: `.dyn` takes `$mode.rnd` (R123). -/
def semF1 (x : F1) (cls : ICls) (f : Iss → Nat → Word → Nat) : Sem :=
  { h := x.h, u := laneUses cls false x.d [su false x.a], d := some x.d, w64 := false
    val := fun _ i l => BitVec.ofNat 64 (f i (rmOf i.w x.rm) (i.v32 x.a l)) }

def semF2 (x : F2) (F : Fmt) (f : Nat → Num → Num → Num) : Sem :=
  let w := decide (F = fp64)
  { h := x.h, u := laneUses (if w then .fp64 else .vec) w x.d [su w x.a, su w x.b], d := some x.d, w64 := w
    val := fun _ i l => BitVec.ofNat 64
      (roundF i.k F (rmOf i.w x.rm) (f (rmOf i.w x.rm) (i.num F x.a l) (i.num F x.b l))) }

def semF3 (x : F3) (F : Fmt) : Sem :=
  let w := decide (F = fp64)
  { h := x.h, u := laneUses (if w then .fp64 else .vec) w x.d [su w x.a, su w x.b, su w x.c], d := some x.d, w64 := w
    val := fun _ i l => BitVec.ofNat 64 (roundF i.k F (rmOf i.w x.rm)
      (addNum (rmOf i.w x.rm) (mulNum (i.num F x.a l) (i.num F x.b l)) (i.num F x.c l))) }

def semP2 (x : P2) (f : Nat → Num → Num → Num) : Sem :=
  { h := x.h, u := laneUses .vec false x.d [su false x.a, su false x.b], d := some x.d, w64 := false
    val := fun _ i l => (pack2 fun e =>
      let F := packFmt16 x.bf
      roundF i.k F (rmOf i.w x.rm)
        (f (rmOf i.w x.rm) (inNum i.k F (half (i.v32 x.a l) e)) (inNum i.k F (half (i.v32 x.b l) e)))).setWidth 64 }

def semMM (h : Hdr) (d : Dst) (a b : Src) (f : Iss → Word → Word → Nat) : Sem :=
  { h := h, u := laneUses .vec false d [su false a, su false b], d := some d, w64 := false
    val := fun _ i l => BitVec.ofNat 64 (f i (i.v32 a l) (i.v32 b l)) }

/-- Float results (R139, R140, R142): the exact value of the operands as `In` reads them, rounded once by `RoundF`. -/
def fltSem : Instr → Option Sem
  | .fadd x => some (semF2 x fp32 addNum)
  | .fmul x => some (semF2 x fp32 fun _ => mulNum)
  | .ffma x => some (semF3 x fp32)
  | .dadd x => some (semF2 x fp64 addNum)
  | .dmul x => some (semF2 x fp64 fun _ => mulNum)
  | .dfma x => some (semF3 x fp64)
  | .fmin x => some (semMM x.h x.d x.a x.b fun i a b => minMax i.k fp32 false a.toNat b.toNat)
  | .fmax x => some (semMM x.h x.d x.a x.b fun i a b => minMax i.k fp32 true a.toNat b.toNat)
  | .fclass x => some
      { h := x.h, u := laneUses .vec false x.d [su x.fmt.w64 x.a], d := some x.d, w64 := false
        val := fun _ i l => BitVec.ofNat 64 (classMask i.k (fmtOf x.fmt) (i.fbits x.fmt x.a l)) }
  | .frcp x => some (semF1 x .trans fun i rm a => roundTail i.k fp32 rm (recipNum (inNum i.k fp32 a.toNat)))
  | .frsq x => some (semF1 x .trans fun i rm a => roundTail i.k fp32 rm (rsqrtNum (inNum i.k fp32 a.toNat)))
  | .fsqrt x => some (semF1 x .trans fun i rm a => roundTail i.k fp32 rm (sqrtNum (inNum i.k fp32 a.toNat)))
  | .fex2 x => some (semF1 x .trans fun i rm a => outBits i.k fp32 (transBits 0 rm a (inNum i.k fp32 a.toNat)))
  | .flg2 x => some (semF1 x .trans fun i rm a => outBits i.k fp32 (transBits 1 rm a (inNum i.k fp32 a.toNat)))
  | .fsin x => some (semF1 x .trans fun i rm a => outBits i.k fp32 (transBits 2 rm a (inNum i.k fp32 a.toNat)))
  | .fcos x => some (semF1 x .trans fun i rm a => outBits i.k fp32 (transBits 3 rm a (inNum i.k fp32 a.toNat)))
  | .frnd x => some (semF1 x .vec fun i rm a => roundF i.k fp32 rm (integral rm (inNum i.k fp32 a.toNat)))
  | .hadd2 x => some (semP2 x addNum)
  | .hmul2 x => some (semP2 x fun _ => mulNum)
  | .hfma2 x => some
      { h := x.h, u := laneUses .vec false x.d [su false x.a, su false x.b, su false x.c], d := some x.d, w64 := false
        val := fun _ i l => (pack2 fun e =>
          let F := packFmt16 x.bf
          let v (y : Src) : Num := inNum i.k F (half (i.v32 y l) e)
          roundF i.k F (rmOf i.w x.rm) (addNum (rmOf i.w x.rm) (mulNum (v x.a) (v x.b)) (v x.c))).setWidth 64 }
  | .hmin2 x => some (semMM x.h x.d x.a x.b fun i a b =>
      (pack2 fun e => minMax i.k (packFmt16 x.bf) false (half a e) (half b e)).toNat)
  | .hmax2 x => some (semMM x.h x.d x.a x.b fun i a b =>
      (pack2 fun e => minMax i.k (packFmt16 x.bf) true (half a e) (half b e)).toNat)
  | _ => none

/-- Conversions (R144 to R146), with the saturation flag (R112). -/
def cvtSem : Instr → Option Sem
  | .cvtF x => some
      { h := x.h, u := laneUses (cvtClass (isF64 x.src || x.dst == .f64)) x.dst.w64 x.d [su x.src.w64 x.a], d := some x.d, w64 := x.dst.w64
        val := fun _ i l => BitVec.ofNat 64 (satFloat i.k (fmtOf x.dst) (rmOf i.w x.rm) (i.cvt x.src x.a l)).1
        sat := fun i => anySat i fun l => (satFloat i.k (fmtOf x.dst) (rmOf i.w x.rm) (i.cvt x.src x.a l)).2 }
  | .cvtI x =>
    let r (i : Iss) (l : Nat) : Int × Bool := i.cvtInt (rmOf i.w x.rm) (IType.width x.dst) (isSigned x.dst) x.src x.a l
    some
      { h := x.h, u := laneUses (cvtClass (isF64 x.src)) x.dst.w64 x.d [su x.src.w64 x.a], d := some x.d, w64 := x.dst.w64
        val := fun _ i l => BitVec.ofInt 64 (r i l).1, sat := fun i => anySat i fun l => (r i l).2 }
  | .cvtQ x =>
    let e := elemOf x.fmt
    some
      { h := x.h, u := laneUses .vec false x.d [su false x.a, su false x.b], d := some x.d, w64 := false
        val := fun _ i l => (setElem e.width x.pos.toNat (i.v32 x.b l) (toElem i.k i.k.rnd e (i.v32 x.a l)).1).setWidth 64
        sat := fun i => anySat i fun l => (toElem i.k i.k.rnd e (i.v32 x.a l)).2 }
  | .pack x =>
    let r (i : Iss) (y : Src) (l : Nat) : Nat × Bool := toElem i.k (rmOf i.w x.rm) (packElem x.fmt) (i.v32 y l)
    some
      { h := x.h, u := laneUses .vec false x.d [su false x.a, su false x.b], d := some x.d, w64 := false
        val := fun _ i l => BitVec.ofNat 64 ((r i x.a l).1 + 2 ^ 16 * (r i x.b l).1)
        sat := fun i => anySat i fun l => (r i x.a l).2 || (r i x.b l).2 }
  | .unpk x => some
      { h := x.h, u := laneUses .vec false x.d [su false x.a], d := some x.d, w64 := false
        val := fun _ i l => (fromElem i.k (elemOf x.fmt) (getElem (elemOf x.fmt).width x.pos.toNat (i.v32 x.a l))).setWidth 64 }
  | _ => none

/-- Lane operations (R155). -/
def moveSem : Instr → Option Sem
  | .shfl x => some
      { h := x.h, u := laneUses .move false x.d [su false x.a, su false x.b], d := some x.d, w64 := false
        val := fun _ i l =>
          let b := (i.v32 x.b l).toNat
          let n := if i.w.w32 then 32 else 64
          let src := match x.mode with
            | .idx => some (b % n)
            | .up => if b ≤ l then some (l - b) else none
            | .down => some (l + b)
            | .xor => some (Nat.xor l b)
          (match src with
            | some j => if j < n ∧ i.part.getLsbD j then i.v32 x.a j else i.v32 x.a l
            | none => i.v32 x.a l).setWidth 64 }
  | .bcast x => some
      { h := x.h, u := laneUses .move false x.d [su false x.a, su false x.b], d := some x.d, w64 := false
        val := fun _ i _ =>
          let j := (i.v32 x.b 0).toNat % (if i.w.w32 then 32 else 64)
          (i.v32 x.a (if i.part.getLsbD j then j else (lanesOf i.part).headD 0)).setWidth 64 }
  | _ => none

/-! ### Results of predicate, scalar and special instructions -/

/-- Instructions that write a predicate (R131, R138, R141, R147, R152, R153, R161). -/
def predSem : Instr → Option Sem
  | .isetp x => some
      { h := x.h, u := { srcs := [su x.t.w64 x.a, su x.t.w64 x.b], ps := [x.pd.toNat] }, pd := some x.pd
        pval := fun _ i l =>
          let a : Int := if x.t.w64 then (if isSigned x.t then (i.v64 x.a l).toInt else (i.v64 x.a l).toNat)
            else if isSigned x.t then (i.v32 x.a l).toInt else (i.v32 x.a l).toNat
          let b : Int := if x.t.w64 then (if isSigned x.t then (i.v64 x.b l).toInt else (i.v64 x.b l).toNat)
            else if isSigned x.t then (i.v32 x.b l).toInt else (i.v32 x.b l).toNat
          match x.cmp with
          | .eq => decide (a = b) | .ne => decide (a ≠ b) | .lt => decide (a < b)
          | .le => decide (a ≤ b) | .gt => decide (a > b) | .ge => decide (a ≥ b) }
  | .fsetp x => some
      { h := x.h, u := { srcs := [su false x.a, su false x.b], ps := [x.pd.toNat] }, pd := some x.pd
        pval := fun _ i l => FCmp.holds x.cmp (i.num fp32 x.a l) (i.num fp32 x.b l) }
  | .dsetp x => some
      { h := x.h, u := { srcs := [su true x.a, su true x.b], ps := [x.pd.toNat], cls := .fp64 }, pd := some x.pd
        pval := fun _ i l => FCmp.holds x.cmp (i.num fp64 x.a l) (i.num fp64 x.b l) }
  | .plop x => some
      { h := x.h, u := { ps := [x.pd.toNat, x.pa.toNat, x.pb.toNat] }, pd := some x.pd
        pval := fun _ i l =>
          let a := (i.w.pred i.hm x.pa.toNat).getLsbD l
          let b := (i.w.pred i.hm x.pb.toNat).getLsbD l
          x.tt.getLsbD (2 * a.toNat + b.toNat) }
  | .fetest x => some
      { h := x.h, u := { ps := [x.pd.toNat] }, pd := some x.pd
        pval := fun _ i _ => match x.a with
          | .v n _ _ => (i.w.vreg n.toNat).st == x.st
          | .s n _ _ => (i.w.sreg i.hm n.toNat).st == x.st
          | _ => false
        more := fun _ => match x.a with
          | .v n true _ => { mv := [n.toNat] }
          | .s n true _ => { ms := [n.toNat] }
          | _ => {} }
  | .ssetp x => some
      { h := x.h, u := { ctl with srcs := [⟨x.a, 1, 1⟩, ⟨x.b, 1, 1⟩], ps := [x.pd.toNat] }, pd := some x.pd
        plan := fun i => if i.w.w32 then 0xFFFFFFFF else BitVec.allOnes 64
        pval := fun _ i _ =>
          let a : Int := if x.z64 then (i.s64 x.a).toNat else (i.s64 x.a).toInt
          let b : Int := if x.z64 then (i.s64 x.b).toNat else (i.s64 x.b).toInt
          match x.cmp with
          | .eq => decide (a = b) | .ne => decide (a ≠ b) | .lt => decide (a < b)
          | .le => decide (a ≤ b) | .gt => decide (a > b) | .ge => decide (a ≥ b) }
  | .vote x =>
    let bit (i : Iss) (l : Nat) : Bool := (i.w.pred i.hm x.pa.toNat).getLsbD l
    let u : Uses := { ctl with ps := x.pa.toNat :: votePs x.op, ds := voteDs x.op }
    match x.op with
    | .any p => some { h := x.h, u := u, pd := some p, pval := fun _ i _ => (lanesOf i.part).any (bit i) }
    | .all p => some { h := x.h, u := u, pd := some p, pval := fun _ i _ => (lanesOf i.part).all (bit i) }
    | .eq p => some { h := x.h, u := u, pd := some p
                      pval := fun _ i _ => (lanesOf i.part).all (bit i) || (lanesOf i.part).all fun l => !bit i l }
    | .ballot d => some { h := x.h, u := u, sd := some d, sval := fun _ i => i.w.pred i.hm x.pa.toNat &&& i.part }
  | .pmov x =>
    let u := pmovUses x.op
    match x.op with
    | .pp pd pa => some { h := x.h, u := u, pd := some pd, pval := fun _ i l => (i.w.pred i.hm pa.toNat).getLsbD l }
    | .vp d pa => some { h := x.h, u := u, d := some d
                         val := fun _ i l => if (i.w.pred i.hm pa.toNat).getLsbD l then 1 else 0 }
    | .pv pd a => some { h := x.h, u := u, pd := some pd, pval := fun _ i l => i.v32 a l != 0 }
    | .sp sd pa => some { h := x.h, u := u, sd := some sd, sval := fun _ i => i.w.pred i.hm pa.toNat &&& i.part }
    | .ps pd a => some { h := x.h, u := u, pd := some pd, pval := fun _ i l => (i.s64 a).getLsbD l }
  | _ => none

/-- A scalar result of one or two sources, written once (R147). -/
def semS1 (h : Hdr) (d : BitVec 7) (a : Src) (f : DWord → DWord) : Sem :=
  { h := h, u := { ctl with srcs := [⟨a, 1, 1⟩], ds := [d.toNat] }, sd := some d, sval := fun _ i => f (i.s64 a) }
def semS2 (h : Hdr) (d : BitVec 7) (a b : Src) (f : DWord → DWord → DWord) : Sem :=
  { h := h, u := { ctl with srcs := [⟨a, 1, 1⟩, ⟨b, 1, 1⟩], ds := [d.toNat] }, sd := some d
    sval := fun _ i => f (i.s64 a) (i.s64 b) }

/-- Scalar instructions (R147). -/
def scalSem : Instr → Option Sem
  | .smov x => some (semS1 x.h x.d x.a fun a => a)
  | .smovi x => some (semS1 x.h x.d x.a fun a => if x.flag then a &&& 0xFFFFFFFF else a)
  | .sadd x => some (semS2 x.h x.d x.a x.b fun a b => a + b)
  | .ssub x => some (semS2 x.h x.d x.a x.b fun a b => a - b)
  | .smul x => some (semS2 x.h x.d x.a x.b fun a b => a * b)
  | .sand x => some (semS2 x.h x.d x.a x.b fun a b => a &&& b)
  | .sor x => some (semS2 x.h x.d x.a x.b fun a b => a ||| b)
  | .sxor x => some (semS2 x.h x.d x.a x.b fun a b => a ^^^ b)
  | .sshl x => some (semS2 x.h x.d x.a x.b fun a b => if b.toNat ≥ 64 then 0 else a <<< b.toNat)
  | .sshr x => some (semS2 x.h x.d x.a x.b fun a b =>
      if x.flag then (if b.toNat ≥ 64 then (if a.msb then BitVec.allOnes 64 else 0) else a.sshiftRight b.toNat)
      else if b.toNat ≥ 64 then 0 else a >>> b.toNat)
  | _ => none

/-- Readouts: reductions and scans, special registers, an accumulator, a tile, bit planes, a queue's count (R148, R156, R184, R185, R369). -/
def readSem : Instr → Option Sem
  | .redw x =>
    let u := laneUses .tree false x.d [su false x.a]
    let r (i : Iss) : Word := (treeRoot (waveCombine x.op i.k) (waveLeaves x.op i x.a)).getD (waveIdentity x.op)
    match x.d with
    | .s n => some { h := x.h, u := u, sd := some n
                     sval := fun _ i => if x.op = .addS32 ∨ x.op = .minS32 ∨ x.op = .maxS32 then (r i).signExtend 64
                       else (r i).setWidth 64 }
    | d => some { h := x.h, u := u, d := some d, val := fun _ i _ => (r i).setWidth 64 }
  | .scanw x => some
      { h := x.h, u := laneUses .tree false x.d [su false x.a], d := some x.d, w64 := false
        val := fun _ i l =>
          ((treeScan (waveCombine x.op i.k) (treeLevels (waveCombine x.op i.k) (waveLeaves x.op i x.a)) (if x.excl then l else l + 1)).getD
            (waveIdentity x.op)).setWidth 64 }
  | .rds x =>
    let w := special64 x.n.toNat
    let u : Uses := { laneUses .once w x.d [] with whole := true }
    match x.d with
    | .s d => some { h := x.h, u := u, sd := some d, sval := fun s i => s.special i x.n.toNat ((lanesOf i.part).headD 0) }
    | .v n m => some { h := x.h, u := u, d := some (.v n m), w64 := w, val := fun s i l => s.special i x.n.toNat l }
    | d => some { h := x.h, u := u, d := some d, val := fun s i l => s.special i x.n.toNat l, ok := fun _ _ => w = false }
  | .amov ⟨h, part, .fromAcc d m acc⟩ => some
      { h := h, u := laneUses .vec false (.v d m) [], d := some (.v d m)
        val := fun _ i l => BitVec.ofNat 64 (Memory.num ((i.w.mx.map fun k => k.accOf acc.toNat).getD []) (256 * part.toNat + 4 * l) 4)
        ok := fun s i => i.w.mx.isSome = true ∧ s.accBusy i.w acc.toNat = false }
  | .tmov ⟨h, part, .fromTile d m n⟩ => some
      { h := h, u := { laneUses .vec false (.v d m) [] with tr := [n.toNat] }, d := some (.v d m)
        val := fun _ i l => BitVec.ofNat 64 ((i.w.tile n.toNat).num (256 * part.toNat + 4 * l) 4) }
  | .bppack x => some
      { h := x.h, u := laneUses .vec false (.v x.d x.m) [su false x.a], d := some (.v x.d x.m)
        val := fun _ i l => (wordOf fun e => (i.v32 x.a (l / 8 * 8 + e / 4)).getLsbD (8 * (e % 4) + (7 - l % 8))).setWidth 64 }
  | .bpunpk x => some
      { h := x.h, u := laneUses .vec false (.v x.d x.m) [su false x.a], d := some (.v x.d x.m)
        val := fun _ i l => (wordOf fun e => (i.v32 x.a (l / 8 * 8 + (7 - e % 8))).getLsbD (4 * (l % 8) + e / 8)).setWidth 64 }
  | _ => none

/-- Writes of special registers (R149 to R151, R207): what else holds of the wave, and the registers by number. -/
def specialSem : Instr → Option (Sem × (State → State → Iss → Prop))
  | .wrs x =>
    let n := x.n.toNat
    some ({ h := x.h, u := { ctl with srcs := [⟨x.a, 2, 1⟩] }
            more := fun i => if n = 22 then { ctr := i.part } else { sr := [n] } },
      fun s t i =>
        let w := t.wave s.cur.wave
        let a := i.v64 x.a 0
        match n with
        | 14 => (w.frag s.cur.entry).fmt = a &&& 0x0FFF33FF
        | 15 => w.md = a.setWidth 32 &&& 0x1FFF
        | 16 => w.flags = i.w.flags &&& ~~~(a.setWidth 32)
        | 18 => w.acc = a.setWidth 32
        | 19 => w.rej = a.setWidth 32
        | 20 => w.keyLo = a
        | 21 => w.keyHi = a
        | 22 => ∀ l, i.part.getLsbD l = true → w.ctr l = i.v64 x.a l
        | 34 => Tab.getD 0 w.trec 34 = a
        | _ => True)
  | .setfmt x => some ({ h := x.h, u := { ctl with srcs := [⟨x.a, 1, 1⟩] }, more := fun _ => { sr := [14] } },
      fun s t i => ((t.wave s.cur.wave).frag s.cur.entry).fmt = i.s64 x.a &&& 0x0FFF33FF)
  | .setmode x => some ({ h := x.h, u := { ctl with srcs := [⟨x.a, 1, 1⟩] }, more := fun _ => { sr := [15] } },
      fun s t i => ∀ b < 32, (t.wave s.cur.wave).md.getLsbD b =
        if b < 13 ∧ (i.s64 x.a).getLsbD (16 + b) then (i.s64 x.a).getLsbD b else i.w.md.getLsbD b)
  | .rngkey x => some ({ h := x.h, u := { ctl with srcs := [⟨x.a, 1, 1⟩, ⟨x.b, 1, 1⟩] }, more := fun _ => { sr := [20, 21] } },
      fun s t i => (t.wave s.cur.wave).keyLo = i.s64 x.a ∧ (t.wave s.cur.wave).keyHi = i.s64 x.b)
  | .rngctr x => some ({ h := x.h, u := { srcs := [⟨x.a, 2, 1⟩] }, more := fun i => { ctr := i.part } },
      fun s t i => ∀ l, i.part.getLsbD l = true → (t.wave s.cur.wave).ctr l = i.w.ctr l + i.v64 x.a l)
  | .rng x => some
      ({ h := x.h, u := laneUses .vec false (.v x.d x.m) [], d := some (.v x.d x.m), more := fun i => { ctr := i.part }
         val := fun _ i l =>
           let k := draw i.w.keyLo i.w.keyHi (if i.w.w32 then 32 * i.w.half + l else l) (i.w.ctr l)
           if x.f32 then BitVec.ofNat 64 (roundNum fp32 0 (.fin false (2 * (k >>> 9).toNat + 1) (-24))) else k.setWidth 64 },
      fun s t i => ∀ l, i.part.getLsbD l = true → (t.wave s.cur.wave).ctr l = i.w.ctr l + 1)
  | _ => none

/-- Marks of registers, slots and tiles (R160, R162, R184): what else holds of the wave. -/
def markSem : Instr → Option (Sem × (State → State → Iss → Prop))
  | .femark x => some
      ({ h := x.h, u := { ctl with dv := regDv x.d x.pair, ds := regDs x.d x.pair }
         ok := fun _ i => i.w.dm = .k3 ∨ i.hm = true },
      fun s t i => (∀ n ∈ regDv x.d x.pair, ((t.wave s.cur.wave).vreg n).st = x.st ∧ ((t.wave s.cur.wave).vreg n).val = (i.w.vreg n).val)
        ∧ ∀ n ∈ regDs x.d x.pair, ((t.wave s.cur.wave).sreg i.hm n).st = x.st)
  | .ocld x => match x.a with
    | .v n dm _ => some
      ({ h := x.h, u := { srcs := [su false x.a] }, more := fun _ => { o := [x.k.toNat] } },
      fun s t i =>
        let o := (t.wave s.cur.wave).slotAt x.k.toNat
        (o.st = .clean n.toNat ∧ ∀ l, i.part.getLsbD l = true → laneAt o.val l = i.w.vlane n.toNat l)
          ∨ (o = {} ∧ (dm = true ∨ (i.w.vreg n.toNat).kill ≠ 0)))
    | _ => none
  | .tzero x => some
      ({ h := x.h, u := { ctl with tw := [x.t.toNat] }, more := fun _ => { tiles := [x.t.toNat] } },
      fun s t _ => ∀ a, ((t.wave s.cur.wave).tile x.t.toNat).get a = 0)
  | .tmov ⟨h, part, .intoTile n a⟩ => some
      ({ h := h, u := { srcs := [su false a], tw := [n.toNat] }, more := fun _ => { tiles := [n.toNat] } },
      fun s t i => ∀ b, ((t.wave s.cur.wave).tile n.toNat).get b =
        let l := (b - 256 * part.toNat) / 4
        if 256 * part.toNat ≤ b ∧ l < 64 ∧ i.part.getLsbD l then (i.v32 a l).extractLsb' (8 * ((b - 256 * part.toNat) % 4)) 8
        else (i.w.tile n.toNat).get b)
  | _ => none


/-! ### Control, waits and traps -/

/-- A lane of a wave goes on at a PC: in a fragment there, or in a deferred record that holds it (R29, R30). -/
def LaneAtPc (w : Wave) (l pc : Nat) : Prop :=
  ∃ f ∈ w.frags, (f.pc = pc ∧ f.mask.getLsbD l = true) ∨
    ∃ r ∈ f.stack, r.bound = none ∧ r.pc = pc ∧ r.mask.getLsbD l = true

/-- The branches (R127, R128): header, uses, each lane's target (none where it cannot be a PC, R52), and the linked scalar. -/
structure Branch where
  h    : Hdr
  u    : Uses
  dest : Iss → Nat → Option Nat
  link : Option (BitVec 7) := none

def branchSem : Instr → Option Branch
  | .bra x => some ⟨x.h, ctl, fun i _ => relTarget i.f.pc x.off, none⟩
  | .call x => some ⟨x.h, { ctl with ds := [x.d.toNat] }, fun i _ => relTarget i.f.pc x.off, some x.d⟩
  | .brx x => some ⟨x.h, { ctl with srcs := [⟨x.a, 2, 1⟩] }, fun i l =>
      if (badTarget (i.v64 x.a l)).isSome then none else some (low57 (i.v64 x.a l)), none⟩
  | .callx x => some ⟨x.h, { ctl with srcs := [⟨x.a, 2, 1⟩], ds := [x.d.toNat] }, fun i l =>
      if (badTarget (i.v64 x.a l)).isSome then none else some (low57 (i.v64 x.a l)), some x.d⟩
  | .ret x => some ⟨x.h, { ctl with srcs := [⟨x.a, 2, 1⟩] }, fun i l =>
      if (badTarget (i.v64 x.a l)).isSome then none else some (low57 (i.v64 x.a l)), none⟩
  | _ => none

/-- Where an active lane goes on: lanes that take part at their target, the others at the next instruction. -/
def Branch.next (b : Branch) (s : State) (k : Iss) (l : Nat) : Nat :=
  if k.part.getLsbD l then (b.dest k l).getD 0 else k.f.pc + s.cur.step

/-- Every target can be a PC, and the deferred records that the split table leaves have room (R30, R52). -/
def Branch.ok (b : Branch) (s : State) (k : Iss) : Prop :=
  (∀ l, k.part.getLsbD l = true → (b.dest k l).isSome = true) ∧
    k.f.stack.length + s.defers k.w k.hm ((((lanesOf k.f.mask).map (b.next s k)).dedup).length - 1) ≤ 8

/-- What a branch leaves of the fragments of its wave (R29, R30): the others as they were; its own with its state, its format and its records, above
which only records of its own lanes may have come; and any new one is running, without records, of lanes that go on at its PC. -/
def SplitFrame (v w : Wave) (k : Iss) (e : Nat) (next : Nat → Nat) : Prop :=
  let own := w.frag e
  (∀ g ∈ v.frags, g.entry ≠ e → g ∈ w.frags)
    ∧ (own.st = k.f.st ∧ own.wait = k.f.wait ∧ own.fmt = k.f.fmt)
    ∧ (∀ l, own.mask.getLsbD l = true → k.f.mask.getLsbD l = true ∧ own.pc = next l)
    ∧ (∃ rs, own.stack = rs ++ k.f.stack ∧ ∀ r ∈ rs, r.bound = none ∧ r.arrived = 0 ∧
        ∀ l, r.mask.getLsbD l = true → k.f.mask.getLsbD l = true ∧ r.pc = next l)
    ∧ ∀ g ∈ w.frags, g ∈ v.frags ∨ g.entry = e ∨ (g.stack = [] ∧ g.st = .running ∧ g.wait = .none ∧ g.fmt = k.f.fmt ∧
        ∀ l, g.mask.getLsbD l = true → k.f.mask.getLsbD l = true ∧ g.pc = next l)

/-- A branch completes: every active lane goes on where it goes, the return pointer is linked, and the rest is framed; with no lane taking part it goes on
at the next instruction and changes nothing else (R59). -/
def Branch.Completes (b : Branch) (i : Instr) : Prop :=
  ∀ s, i.wf = true → Issuing s → s.CaptureOk b.u → Clear s b.u b.h →
    let k := s.issQ b.u b.h
    (k.part = 0 → ∃ t, exec i s = .next t ∧ ((t.wave s.cur.wave).frag s.cur.entry).pc = k.f.pc + s.cur.step ∧ Frame s t k {}) ∧
    (b.ok s k → k.part ≠ 0 →
      ∃ t, exec i s = .next t
        ∧ (∀ l, k.f.mask.getLsbD l = true → LaneAtPc (t.wave s.cur.wave) l (b.next s k l))
        ∧ (∀ d, b.link = some d → (t.wave s.cur.wave).sval k.hm d.toNat = toPtr (k.f.pc + s.cur.step))
        ∧ SplitFrame k.w (t.wave s.cur.wave) k s.cur.entry (b.next s k)
        ∧ Frame s t k { split := true, ds := b.u.ds, mv := markedV b.u, ms := markedS b.u })

/-- Instructions that change only their fragment's state, its wait or nothing (R33, R65, R129, R130, R183, R318 to R322, R335, R341, R345,
R358, R408): in the state `s`, with what else holds. `first` checks that precede the operands are part of the uses. -/
def waitSem (s : State) : Instr → Option (Sem × (State → State → Iss → Prop))
  | .nop x => some ({ h := x.h, u := ctl }, fun _ _ _ => True)
  | .wpt x => some ({ h := x.h, u := { ctl with entry := true } }, fun s t i =>
      let f := (t.wave s.cur.wave).frag s.cur.entry
      i.hm = true ∨ ((t.wave s.cur.wave).wpc = i.w.wpc + 1 ∧ f.rpc = i.f.pc + s.cur.step ∧ f.rmask = i.f.mask ∧ f.rstack = i.f.stack))
  | .yield x => some ({ h := x.h, u := ctl, more := fun _ => { own := true } }, fun s t _ =>
      let f := (t.wave s.cur.wave).frag s.cur.entry
      f.st = .waiting ∧ f.wait = .yield ∧ f.wake = s.clockIn 16 ∧ f.slip = 0)
  | .sleep x => some ({ h := x.h, u := { ctl with srcs := [⟨x.a, 1, 1⟩] }, more := fun _ => { own := true } }, fun s t i =>
      let f := (t.wave s.cur.wave).frag s.cur.entry
      f.st = .waiting ∧ f.wait = .sleep ∧ f.wake = s.clock + max 1 (min 1048576 (i.s64 x.a).toNat))
  | .mxwait x => some ({ h := x.h, u := { ctl with entry := true }, more := fun _ => { own := true } }, fun s t i =>
      let f := (t.wave s.cur.wave).frag s.cur.entry
      if i.w.owesMatrix then f.st = .waiting ∧ f.wait = .mxwait else f.st = i.f.st ∧ f.wait = i.f.wait)
  | .fence x => some ({ h := x.h, u := ctl, more := fun _ => { own := true } }, fun s t _ =>
      let f := (t.wave s.cur.wave).frag s.cur.entry
      f.st = .waiting ∧ f.wait = match x.kind with
        | .acq => .acq x.scope s.nextId
        | .rel => .rel x.scope s.nextId (.fence false)
        | .ar => .rel x.scope s.nextId (.fence true))
  | .bar x => some ({ h := x.h, u := { ctl with first := s.barrierFirst, hold := s.satHold }, more := fun _ => { own := true } }, fun s t _ =>
      let f := (t.wave s.cur.wave).frag s.cur.entry
      f.st = .waiting ∧ f.wait = .rel .team s.nextId .bar)
  | .bara x => some
      ({ h := x.h, u := { ctl with srcs := ⟨x.a, 1, 1⟩ :: (x.tx.toList.map fun b => ⟨b, 1, 1⟩), ds := [x.d.toNat], first := s.barrierFirst, hold := s.satHold }
         ok := fun s i => (i.s64 x.a).toNat % 16 = 0 ∧ (i.s64 x.a).toNat + 16 ≤ (s.team i.w.team).lsize
         more := fun _ => { own := true } }, fun s t i =>
      let f := (t.wave s.cur.wave).frag s.cur.entry
      f.st = .waiting ∧ ∃ r, f.wait = .rel .team s.nextId (.bara x.d (i.s64 x.a).toNat (match x.tx with
        | some b => (i.s64 b).toNat % 2 ^ 32
        | none => 0) r))
  | .barw x => some
      ({ h := x.h, u := { ctl with srcs := [⟨x.a, 1, 1⟩, ⟨x.b, 1, 1⟩], first := s.barrierFirst, hold := s.satHold }
         ok := fun s i => (i.s64 x.a).toNat % 16 = 0 ∧ (i.s64 x.a).toNat + 16 ≤ (s.team i.w.team).lsize
           ∧ s.memHeld i = false ∧ s.localBusy i.w false [((i.s64 x.a).toNat, 16)] = false
         more := fun _ => { own := true } }, fun s t i =>
      let f := (t.wave s.cur.wave).frag s.cur.entry
      f.st = .waiting ∧ f.wait = .barw (i.s64 x.a).toNat ((i.s64 x.b).getLsbD 0))
  | .gbar x => some ({ h := x.h, u := { ctl with first := s.gbarFirst, hold := s.satHold }, more := fun _ => { own := true } }, fun s t _ =>
      let f := (t.wave s.cur.wave).frag s.cur.entry
      f.st = .waiting ∧ f.wait = .rel .device s.nextId .gbar)
  | .cpy x => some
      ({ h := x.h, u := { ctl with srcs := [⟨x.a, 1, 1⟩, ⟨x.b, 1, 1⟩], ds := [x.d.toNat], vl := true, owes := true }
         ok := fun s i =>
           let a := (i.s64 x.a).toNat
           let size := (s.team i.w.team).lsize
           a % 32 = 0 ∧ a + 32 ≤ size ∧ (i.s64 x.b).toNat ≤ 63 ∧ rqBad (BitVec.ofNat 256 ((s.lmem i.w.team).num a 32)) size = false
             ∧ s.memHeld i = false ∧ s.localBusy i.w false [(a, 32)] = false
         more := fun _ => { own := true } }, fun s t i =>
      let f := (t.wave s.cur.wave).frag s.cur.entry
      f.st = .waiting ∧ f.wait = .rel x.scope s.nextId
        (.cpy x.d (i.s64 x.b).toNat (BitVec.ofNat 256 ((s.lmem i.w.team).num (i.s64 x.a).toNat 32)))
        ∧ AwaitsS (t.wave s.cur.wave) i.hm x.d.toNat)
  | .tlwait x => some
      ({ h := x.h, u := { ctl with srcs := [⟨x.a, 1, 1⟩, ⟨x.b, 1, 1⟩] }, ok := fun _ i => (i.s64 x.a).toNat ≤ 63
         more := fun _ => { own := true } }, fun s t i =>
      let f := (t.wave s.cur.wave).frag s.cur.entry
      f.st = .waiting ∧ ∃ r, f.wait = .tlwait x.scope (i.s64 x.a).toNat (i.s64 x.b).toNat r)
  | .tladv x => some
      ({ h := x.h, u := { ctl with srcs := [⟨x.a, 1, 1⟩, ⟨x.b, 1, 1⟩] }, ok := fun _ i => (i.s64 x.a).toNat ≤ 63
         more := fun _ => { own := true } }, fun s t i =>
      let f := (t.wave s.cur.wave).frag s.cur.entry
      f.st = .waiting ∧ f.wait = .rel x.scope s.nextId (.tladv (i.s64 x.a).toNat (i.s64 x.b).toNat))
  | .spawn x => some
      ({ h := x.h, u := { ctl with srcs := [recSU x.r x.rm], ds := [x.d.toNat] }
         ok := fun s i => taskBad (s.ctx (s.team i.w.team).pasid) (recOf i x.r) = false ∧ (s.team i.w.team).depth ≠ 8
         more := fun _ => { own := true } }, fun s t i =>
      let f := (t.wave s.cur.wave).frag s.cur.entry
      f.st = .waiting ∧ f.wait = .rel .device s.nextId (.spawn x.d (recOf i x.r)))
  | _ => none

/-- A fragment that has waited goes on where it stood, with a region entry outside handler mode; the wave's others stay (R33, R35). -/
def GoesOn (t : State) (r : FragRef) (w : Wave) (f : Frag) : Prop :=
  let v := t.wave r.wave
  let g := v.frag r.entry
  g.st = .running ∧ g.wait = .none ∧ g.pc = f.pc ∧ g.mask = f.mask ∧ g.stack = f.stack
    ∧ (w.inHandler r.entry = false → v.wpc = w.wpc + 1 ∧ g.rpc = f.pc ∧ g.rmask = f.mask ∧ g.rstack = f.stack)
    ∧ (w.inHandler r.entry = true → v.wpc = w.wpc) ∧ ∀ h ∈ w.frags, h.entry ≠ r.entry → h ∈ v.frags

/-- What `HINGE` makes of its fragment (R30, R32, R129). -/
def hingePost (id : Nat) (s t : State) (k : Iss) : Prop :=
  let f := (t.wave s.cur.wave).frag s.cur.entry
  let others := k.w.frags.filter fun g => g.entry ≠ s.cur.entry
  let here : FragSt := .held k.f.pc id
  let holds : Prop :=
    -- a wave's only live fragment passes; fragments held at the same hinge merge; else the fragment is held until every one is
    (others = [] → f.mask = k.f.mask ∧ f.pc = k.f.pc + s.cur.step ∧ f.st = .running) ∧
    (∀ g, others.find? (fun g => g.st == here && decide (g.stack.length + k.f.stack.length ≤ 8)) = some g →
      ∃ m ∈ (t.wave s.cur.wave).frags, m.mask = k.f.mask ||| g.mask ∧ (allHeld others → m.st = if lowest others k.f.pc then .running else here)) ∧
    ((∀ g ∈ others, g.st ≠ here) → (∃ g ∈ others, ∀ p n, g.st ≠ .held p n) → f.st = here ∧ f.mask = k.f.mask) ∧
    -- when every live fragment is held those at the lowest PC go on, and the others stay held (R32)
    ((k.w.frags.map Frag.entry).Nodup → others ≠ [] → allHeld others →
      ((∀ g ∈ others, g.st ≠ here) → f.mask = k.f.mask ∧ f.st = if lowest others k.f.pc then .running else here) ∧
      ∀ g ∈ others, ∀ p n, g.st = .held p n → g.st ≠ here → { g with st := if lowest others p then .running else g.st } ∈ (t.wave s.cur.wave).frags)
  match k.f.stack with
  | [] => holds
  | r :: rest => match r.bound with
    | none => f.pc = r.pc ∧ f.mask = r.mask ∧ f.stack = { r with mask := 0, bound := some (k.f.pc, id), arrived := k.f.mask } :: rest
    | some b => if b = (k.f.pc, id) then f.pc = k.f.pc + s.cur.step ∧ f.mask = (k.f.mask ||| r.arrived) ∧ f.stack = rest else holds
where
  allHeld (others : List Frag) : Prop := ∀ g ∈ others, ∃ p n, g.st = .held p n
  /-- Whether a PC is the lowest at which a fragment is held, the hinge's own among them. -/
  lowest (others : List Frag) (pc : Nat) : Bool := decide (pc ≤ k.f.pc) && others.all fun g => match g.st with
    | .held p _ => decide (pc ≤ p)
    | _ => true

/-- An instruction without results of its own completes, with what holds then. -/
def Runs (i : Instr) (h : Hdr) (u : Uses) (ok : State → Iss → Prop) (post : State → State → Iss → Prop) : Prop :=
  ∀ s, i.wf = true → Issuing s → s.CaptureOk u → Clear s u h →
    let k := s.issQ u h
    k.part ≠ 0 → ok s k → ∃ t, exec i s = .next t ∧ post s t k

/-- The wave has retired, or its whole team has. -/
def Retired (t : State) (wave team : Nat) : Prop :=
  (t.wave wave).live = false ∨ Tab.get? t.teams team = none ∨ Tab.get? t.waves wave = none

/-- No fragment of the wave is trap-pending, it owes no matrix operation, and its fragments have entries of their own. -/
def MayEnd (k : Iss) : Prop :=
  (∀ g ∈ k.w.frags, ∀ c, g.st ≠ .pending c) ∧ k.w.owesMatrix = false ∧ k.w.frags.Pairwise fun a b => a.entry ≠ b.entry

/-- What `END` makes of a fragment (R30, R40): its top record runs; else it is gone, and with the last fragment the wave. -/
def endPost (s t : State) (k : Iss) : Prop :=
  match k.f.stack with
  | r :: rest =>
    let f := (t.wave s.cur.wave).frag s.cur.entry
    f.stack = rest ∧ (match r.bound with
      | some b => f.pc = nextPc b.1 8 ∧ f.mask = r.arrived
      | none => f.pc = r.pc ∧ f.mask = r.mask)
  | [] =>
    if k.w.frags.all fun g => g.entry == s.cur.entry then Retired t s.cur.wave k.w.team
    else (∀ g ∈ (t.wave s.cur.wave).frags, g.entry ≠ s.cur.entry) ∧
      ∀ g ∈ k.w.frags, g.entry ≠ s.cur.entry → ((t.wave s.cur.wave).frag g.entry).mask = g.mask

/-- What `END` makes of a fragment in handler mode (R40, R385): the top record runs, in the handler while a record of its own is left, else in the code it
interrupted, with handler mode over, as it is with the fragment gone. `c` is what the handler's entry kept. -/
def endHandlerPost (c : HCtx) (s t : State) (k : Iss) : Prop := endPost s t k ∧
  ((∃ f ∈ (t.wave s.cur.wave).frags, f.entry = s.cur.entry) → match k.f.stack with
    | _ :: rest =>
      if c.stack.length ≤ rest.length then ∃ h, (t.wave s.cur.wave).h = some h ∧ h.cause = c.cause ∧ h.entry = c.entry ∧ h.mask = c.mask &&& ~~~k.f.mask
      else (t.wave s.cur.wave).h = none
    | [] => True) ∧
  (k.f.stack = [] → (∃ g ∈ k.w.frags, g.entry ≠ s.cur.entry) → (t.wave s.cur.wave).h = none)

/-- The trap vector entry of a cause names a handler: valid, aligned, without reserved bits (R378, R383). -/
def Handled (s : State) (k : Iss) (cause : Nat) : Prop :=
  let v := s.vector (s.team k.w.team).pasid cause
  v.getLsbD 0 = true ∧ v.toNat / 2 ^ 57 = 0 ∧ v.toNat / 2 % 4 = 0

/-- The entry's and the half's numbers lie in their fields of the trap record (R387). -/
def Recordable (s : State) (k : Iss) : Prop := s.cur.step ≤ 16 ∧ s.cur.entry < 64 ∧ k.w.half < 4

/-- The fragment runs the handler of a cause (R383 to R388): its PC is the vector's, the handler's latches are invalid, the trapped PC,
mask and stack are kept, registers 32 to 36 hold the record of the instruction at `pc`, and no other wave and no byte of memory has changed. -/
def EntersHandlerAt (pc : Nat) (s t : State) (k : Iss) (cause : Nat) (part : Mask) : Prop :=
  let w := t.wave s.cur.wave
  let f := w.frag s.cur.entry
  let v := s.vector (s.team k.w.team).pasid cause
  (∃ h, w.h = some h ∧ h.entry = s.cur.entry ∧ h.cause = cause ∧ h.pc = k.f.pc ∧ h.mask = k.f.mask ∧ h.stack = k.f.stack ∧ h.st = k.f.st)
    ∧ f.pc = v.toNat / 8 % 2 ^ 54 * 8 ∧ f.st = .running ∧ f.wake = s.clockIn 40 ∧ f.mask = k.f.mask
    ∧ w.hla.valid = 0 ∧ w.hlb.valid = 0
    ∧ (Tab.getD 0 w.trec 32).toNat % 2 ^ 8 = cause ∧ Tab.getD 0 w.trec 33 = toPtr pc
    ∧ Tab.getD 0 w.trec 35 = k.f.mask ∧ Tab.getD 0 w.trec 36 = part
    ∧ (let v := s.wave s.cur.wave; w.v = v.v ∧ w.s = v.s ∧ w.p = v.p ∧ w.la = v.la ∧ w.lb = v.lb ∧ w.o = v.o ∧ w.wpc = v.wpc ∧ w.md = v.md)
    ∧ (∀ n, n ≠ s.cur.wave → t.wave n = s.wave n)
    ∧ t = { s with waves := t.waves }
def EntersHandler (s t : State) (k : Iss) : Nat → Mask → Prop := EntersHandlerAt k.f.pc s t k
/-- The same of an instruction that raises the cause at its issue, which is counted and occupies its quarter (R28, R401, R403; log entry 79). -/
def TrapsAtIssue (u : Uses) (s t : State) (k : Iss) : Nat → Mask → Prop := EntersHandler (s.issued k u) t k

/-- The fragment waits for its handler (R384, R387): trap-pending with the cause's record, where it stood; the wave stays in handler mode, and its other
fragments, the other waves and the rest of the device are as they were. -/
def Pends (s t : State) (k : Iss) (cause : Nat) (part : Mask) : Prop :=
  let w := t.wave s.cur.wave
  (∃ z, w.frag s.cur.entry = { (s.wave s.cur.wave).frag s.cur.entry with st := .pending z } ∧ z.cause = cause ∧ z.cls = causeClass cause
      ∧ (z.trec.getD 0 0).toNat % 2 ^ 8 = cause ∧ z.trec.getD 1 0 = toPtr k.f.pc ∧ z.trec.getD 3 0 = k.f.mask ∧ z.trec.getD 4 0 = part)
    ∧ w = { s.wave s.cur.wave with frags := w.frags } ∧ (∀ g ∈ k.w.frags, g.entry ≠ s.cur.entry → g ∈ w.frags)
    ∧ (∀ n, n ≠ s.cur.wave → t.wave n = s.wave n) ∧ t = { s with waves := t.waves }

/-- `RETH` (R390): how the fragment goes on, with handler mode over. `c` is what the handler's entry kept. -/
def rethPost (m : RethMode) (c : HCtx) (s t : State) (k : Iss) : Prop :=
  let f := (t.wave s.cur.wave).frag s.cur.entry
  let back (pc : Nat) : Prop := f.pc = pc ∧ f.mask = c.mask ∧ f.stack = c.stack
  (t.wave s.cur.wave).h = none ∧ f.wake = s.clockIn 8 ∧
    match rethResume m c with
    | some .restart => f.pc = k.f.rpc ∧ f.st = .running
    | some .replay => match c.op with
      | some o => back c.pc ∧ f.st = .parked o
      | none => f.pc = k.f.rpc ∧ f.st = .running
    | some .next =>
      -- `$trapnext`, or the end of the address space where the next PC would lie at 2^57, which has no pointer (R52)
      let next := low57 (Tab.getD 0 k.w.trec 34)
      let past := if c.cls = .a then c.pc else nextPc c.pc ((Tab.getD 0 k.w.trec 32).toNat / 2 ^ 24 % 256)
      back (if next = 0 ∧ 2 ^ 57 ≤ past then past else next) ∧ (c.cls = .a → f.st = c.st) ∧ (c.cls ≠ .a → f.st = .running)
    | some .atPc => back (low57 (Tab.getD 0 k.w.trec 33)) ∧ f.st = .running
    | none => False


/-! ### Accesses to global memory -/

/-- The fragment that issued, afterwards. -/
def State.ownFrag (s t : State) : Frag := (t.wave s.cur.wave).frag s.cur.entry

/-- A lane with the physical address that its line has (R247). -/
def State.located (s : State) (i : Iss) (l : LaneAcc) : LaneAcc :=
  { l with pa := ((s.atcOf (i.w.core / 40) (s.team i.w.team).pasid (low57 l.va)).map fun e => e.addr (low57 l.va)).getD 0 }

/-- Every one of these addresses has a page that allows the access, in memory that exists and whose path carries it (R291, R413). -/
def Reaches (s : State) (i : Iss) (instr : Instr) (ls : List LaneAcc) : Prop :=
  ∀ l ∈ ls, ∃ e, s.atcOf (i.w.core / 40) (s.team i.w.team).pasid (low57 l.va) = some e ∧ e.allows instr = true ∧
    s.kindOf (s.located i l).pa ≠ .reserved ∧ (remote (s.located i l).pa = true → s.carries instr (s.located i l).pa = true)

/-- A sector of an operation has set out as a request of its own or another's fill, is being answered, or is held (R247, R313). -/
def OnItsWay (t : State) (o : Op) (sec : Nat) : Prop :=
  sec ∈ o.held ∨ (∃ r ∈ t.reqs, (r.op = o.id ∨ o.id ∈ r.joined) ∧ r.pa / 32 = sec)
    ∨ ∃ r ∈ t.reps, (r.op = o.id ∨ o.id ∈ r.joined) ∧ r.pa / 32 = sec

/-- An operation of the issuing fragment is in the memory system with these lanes, its every sector on its way. -/
def SetsOut (s t : State) (i : Iss) (instr : Instr) (size : Nat) (out : List LaneAcc) : Prop :=
  ∃ o ∈ t.ops, o.id = s.nextId ∧ o.wave = s.cur.wave ∧ o.entry = s.cur.entry ∧ o.core = i.w.core ∧ o.pasid = (s.team i.w.team).pasid
    ∧ o.instr = instr ∧ o.size = size ∧ o.phase = .sent ∧ o.out = out.map (s.located i)
    ∧ ∀ l ∈ o.out, ∀ sec ∈ l.sectors size, OnItsWay t o sec

/-- Identifiers in use lie below the next one. -/
def FreshIds (s : State) : Prop := ∀ o ∈ s.ops, o.id < s.nextId

/-- The accesses that go through a buffer record. -/
def gaOf : Instr → Option GA
  | .ld x => some (gaLd x)
  | .st x => some (gaSt x)
  | .ldsc x => some (gaLdsc x)
  | .parkq x => some (gaParkq x)
  | .atomI x => some (gaAtomI x)
  | .atomF x => some (gaAtomF x)
  | .atomCas x => some (gaAtomCas x)
  | .atomX2 x => some (gaAtomX2 x)
  | .red x => some (gaRed x)
  | _ => none

/-- The lanes of an access in bounds, and those out of bounds (R234). -/
def GA.inb (g : GA) (i : Iss) : List LaneAcc := ((g.lanes i (recOf i g.r)).filter Prod.snd).map Prod.fst
def GA.oob (g : GA) (i : Iss) : List LaneAcc := ((g.lanes i (recOf i g.r)).filter fun l => !l.2).map Prod.fst
def GA.releases (g : GA) : Bool := g.mf.ord == .rel || g.mf.ord == .ar

/-- Whether the fragment waits for the access (R256, R293), a store of bearing 0 only until it is sent. -/
def GA.waits (g : GA) (i : Iss) : Bool :=
  (opWaits g.instr || i.owesEntry g.uses) && !((match g.instr with
    | .st _ => true
    | _ => false) && g.bearing i (recOf i g.r) == 0)

/-- An access through a buffer record sets out (R234, R246, R247, R270, R314). -/
def GA.sem (g : GA) : Sem × (State → State → Iss → Prop) :=
  ({ h := g.h, u := g.uses, sat := fun i => (g.inb i).any fun l => g.sat i l.lane
     ok := fun s i =>
       let q := recOf i g.r
       FreshIds s ∧ s.memHeld i = false ∧ rcBad q g.n = false
         ∧ ((if g.wr then rcStTrap q else rcLdTrap q) = true → g.oob i = [])
         ∧ (∀ l ∈ g.inb i, l.va.toNat % g.n = 0 ∧ (g.wr = true → (s.ctx (s.team i.w.team).pasid).sealed l.va = false))
         ∧ (g.releases = true ∨ Reaches s i g.instr (g.inb i))
     more := fun _ => { out := true, own := true } },
   fun s t i =>
     let f := s.ownFrag t
     (if g.releases then
        (∃ o ∈ t.ops, o.id = s.nextId ∧ o.wave = s.cur.wave ∧ o.instr = g.instr ∧ o.size = g.n ∧ o.phase = .release ∧ o.out = g.inb i)
          ∧ f.st = .waiting ∧ f.wait = .rel g.mf.scope s.nextId (.send s.nextId)
      else SetsOut s t i g.instr g.n (g.inb i) ∧
        (if g.waits i then f.st = .waiting ∧ f.wait = .op s.nextId else f.st = .running ∧ f.wait = .none))
     ∧ (∀ n ∈ g.dv, Awaits (t.wave s.cur.wave) n) ∧ (∀ n ∈ g.ds, AwaitsS (t.wave s.cur.wave) i.hm n)
     ∧ (g.releases = false → ∀ x ∈ g.oob i, (∀ n ∈ g.dv, (t.wave s.cur.wave).vlane n x.lane = 0) ∧ ∀ n ∈ g.ds, (t.wave s.cur.wave).sval i.hm n = 0))

/-- An instruction whose completion is a region entry leaves its fragment waiting for it; any other fragment goes on (R33, R361). -/
def AwaitsEntry (s t : State) (i : Iss) (u : Uses) (k : Wait) : Prop :=
  if i.owesEntry u then (s.ownFrag t).st = .waiting ∧ (s.ownFrag t).wait = k else (s.ownFrag t).st = .running ∧ (s.ownFrag t).wait = .none

/-! ### Local memory and tiles -/

/-- A lane's offset in local memory (R217). -/
def localOff (i : Iss) (a : Src) (off : BitVec 32) (l : Nat) : Int := (i.v32 a l).toNat + off.toInt

/-- Every lane's bytes lie in local memory, aligned, and no copy or drain holds them back (R217, R221, R249). -/
def LocalOk (s : State) (i : Iss) (a : Src) (off : BitVec 32) (n : Nat) (store : Bool) : Prop :=
  FreshIds s ∧ s.memHeld i = false ∧
  (∀ l, i.part.getLsbD l = true →
    0 ≤ localOff i a off l ∧ localOff i a off l + n ≤ (s.team i.w.team).lsize ∧ localOff i a off l % n = 0) ∧
  s.localBusy i.w store (localRanges i n a off) = false

/-- The byte at a local offset is one of a lane's. -/
def inLane (i : Iss) (a : Src) (off : BitVec 32) (n l b : Nat) : Bool :=
  i.part.getLsbD l && decide (localOff i a off l ≤ b) && decide ((b : Int) < localOff i a off l + n)

/-- Whether any lane touches the byte at a local offset. -/
def inLanes (i : Iss) (a : Src) (off : BitVec 32) (n b : Nat) : Bool := (List.range 64).any fun l => inLane i a off n l b

/-- A local operation whose reply is on its way with these values of the lanes (R94, R249, R298). -/
def Replies (s t : State) (i : Iss) (instr : Instr) (vals : Nat → Nat) : Prop :=
  (∃ o ∈ t.ops, o.id = s.nextId ∧ o.wave = s.cur.wave ∧ o.instr = instr ∧ o.nout = 1 ∧
      o.out.map (fun l => (l.lane, l.data.toNat)) = (lanesOf i.part).map fun l => (l, vals l))
    ∧ ∃ r ∈ t.reps, r.op = s.nextId ∧ r.kind = .done

/-- The local unit's instructions (R249 to R252, R297, R298). -/
def localSem : Instr → Option (Sem × (State → State → Iss → Prop))
  | .lds x =>
    let dv := (List.range x.sz.regs).map (x.d.toNat + ·)
    let u : Uses := { srcs := [su false x.a], dv := dv, vl := true, cls := .mem }
    some ({ h := x.h, u := u, ok := fun s i => LocalOk s i x.a x.off x.sz.bytes false, more := fun _ => { out := true, own := true } },
      fun s t i => Replies s t i (.lds x) (fun l => (s.team i.w.team).lmem.num (localOff i x.a x.off l).toNat x.sz.bytes)
        ∧ (∀ n ∈ dv, Awaits (t.wave s.cur.wave) n) ∧ AwaitsEntry s t i u (.op s.nextId))
  | .sts x =>
    let n := x.sz.bytes
    some ({ h := x.h, u := { srcs := [su false x.a, dataSU x.sz x.b], cls := .mem }
            ok := fun s i => LocalOk s i x.a x.off n true
            sat := fun i => anySat i fun l => (storeNum i x.conv n x.b l).2
            more := fun i => { loc := inLanes i x.a x.off n } },
      -- a byte holds what one of the lanes that touch it stores there (R307)
      fun _ t i => ∀ b, inLanes i x.a x.off n b = true → ∃ l, inLane i x.a x.off n l b = true ∧
        (t.team i.w.team).lmem.get b = BitVec.ofNat 8 ((storeNum i x.conv n x.b l).1 / 256 ^ (b - (localOff i x.a x.off l).toNat)))
  | .atoms x =>
    let n := if x.op.w64 then 8 else 4
    let dv := regsFrom x.d (n / 4)
    let v (i : Iss) (a : Src) (l : Nat) : Nat := if x.op.w64 then (i.v64 a l).toNat else (i.v32 a l).toNat
    some ({ h := x.h
            u := { srcs := [su false x.a, su x.op.w64 x.b] ++ (x.c.toList.map fun c => su x.op.w64 c), dv := dv, vl := true, cls := .mem }
            ok := fun s i => LocalOk s i x.a x.off n true
            more := fun i => { loc := inLanes i x.a x.off n, out := true, own := true } },
      fun s t i =>
        let f := s.ownFrag t
        f.st = .waiting ∧ f.wait = .op s.nextId ∧ (∀ n ∈ dv, Awaits (t.wave s.cur.wave) n)
        -- a lane whose word no other lane touches takes it as it was and leaves the operation's result
        ∧ ∀ l, i.part.getLsbD l = true → (∀ k, k ≠ l → i.part.getLsbD k = true → localOff i x.a x.off k ≠ localOff i x.a x.off l) →
            let p := (localOff i x.a x.off l).toNat
            let old := (s.team i.w.team).lmem.num p n
            (t.team i.w.team).lmem.num p n = localApply x.op old (v i x.b l) ((x.c.map fun c => v i c l).getD 0) % 2 ^ (8 * n)
            ∧ ∃ o ∈ t.ops, o.id = s.nextId ∧ ∃ y ∈ o.out, y.lane = l ∧ y.data.toNat = old)
  | .ldt x => some
      ({ h := x.h, u := tileUse x, ok := fun s i => TileOk s i x false, more := fun _ => { tiles := [x.t.toNat], own := true } },
      fun s t i => AwaitsEntry s t i (tileUse x) (.tile x.t.toNat) ∧ x.t.toNat ∈ (t.wave s.cur.wave).tfill ∧ ∀ b < 2048,
        ((t.wave s.cur.wave).tile x.t.toNat).get b = (s.team i.w.team).lmem.get ((i.s64 x.a).toNat + swizzled x.sw b))
  | .ldtt x => some
      ({ h := x.h, u := tileUse x, ok := fun s i => TileOk s i x false, more := fun _ => { tiles := [x.t.toNat], own := true } },
      -- element (r, c) of 16 bits is element (c, r) of the memory
      fun s t i => AwaitsEntry s t i (tileUse x) (.tile x.t.toNat) ∧ x.t.toNat ∈ (t.wave s.cur.wave).tfill ∧ ∀ r < 32, ∀ c < 32, ∀ e < 2,
        ((t.wave s.cur.wave).tile x.t.toNat).get (64 * r + 2 * c + e)
          = (s.team i.w.team).lmem.get ((i.s64 x.a).toNat + swizzled x.sw (64 * c + 2 * r + e)))
  | .stt x => some
      ({ h := x.h, u := { ctl with srcs := [⟨x.a, 1, 1⟩], tr := [x.t.toNat] }, ok := fun s i => TileOk s i x true
         more := fun i => { loc := fun b => decide ((i.s64 x.a).toNat ≤ b) && decide (b < (i.s64 x.a).toNat + 2048) } },
      fun _ t i => ∀ b < 2048, (t.team i.w.team).lmem.get ((i.s64 x.a).toNat + swizzled x.sw b) = (i.w.tile x.t.toNat).get b)
  | _ => none
where
  tileUse (x : TileMem) : Uses := { ctl with srcs := [⟨x.a, 1, 1⟩], tw := [x.t.toNat] }
  /-- R250: XOR of bits 5 to 3 with bits 10 to 8 where the flag is set. -/
  swizzled (sw : Bool) (b : Nat) : Nat := if sw then Nat.xor b (b / 256 % 8 * 8) else b
  TileOk (s : State) (i : Iss) (x : TileMem) (store : Bool) : Prop :=
    s.memHeld i = false ∧ (i.s64 x.a).toNat % (if x.sw then 256 else 64) = 0
      ∧ (i.s64 x.a).toNat + 2048 ≤ (s.team i.w.team).lsize ∧ s.localBusy i.w store [((i.s64 x.a).toNat, 2048)] = false

/-! ### Ranges, seals and placement -/

/-- The lines of a range, as lanes of an operation. -/
def linesOf (vas : List DWord) : List LaneAcc := vas.map fun va => { lane := 0, va := va }

/-- The waits over ranges (R253, R255, R256, R286), with the context's seals they leave. -/
def rangeSem : Instr → Option (Hdr × Uses × (State → Iss → Prop) × (Iss → List DWord) × (State → Iss → List (Nat × Nat)))
  | .cinv x => some (x.h, rangeUses x, fun s i => okR s i x, fun i => i.rangeOf x, keep)
  | .cwb x => some (x.h, rangeUses x, fun s i => okR s i x, fun i => i.rangeOf x, keep)
  | .unpark x => some (x.h, rangeUses x, fun s i => okR s i x, fun i => i.rangeOf x, keep)
  | .seal x => some (x.h, { ctl with srcs := [⟨x.a, 1, 1⟩, ⟨x.b, 1, 1⟩] }, fun s i => okS s i (seals sealAdd x s i) (i.s64 x.a) (i.s64 x.b)
      , fun i => (List.range ((i.s64 x.b).toNat / 4096)).map fun k => i.s64 x.a + BitVec.ofNat 64 (4096 * k), seals sealAdd x)
  | .unseal x => some (x.h, { ctl with srcs := [⟨x.a, 1, 1⟩, ⟨x.b, 1, 1⟩] }
      , fun s i => okS s i (seals sealDel x s i) (i.s64 x.a) (i.s64 x.b), fun _ => [], seals sealDel x)
  | _ => none
where
  okR (s : State) (i : Iss) (x : Range) : Prop := rcBad (recOf i x.r) 1 = false ∧ s.memHeld i = false
  okS (s : State) (i : Iss) (rs : List (Nat × Nat)) (start len : DWord) : Prop :=
    pagesOk start len = true ∧ rs.length ≤ 64 ∧ s.memHeld i = false
  keep (s : State) (i : Iss) : List (Nat × Nat) := (s.ctx (s.team i.w.team).pasid).seals
  seals (f : List (Nat × Nat) → Nat → Nat → List (Nat × Nat)) (x : HAB) (s : State) (i : Iss) : List (Nat × Nat) :=
    let n := (i.s64 x.b).toNat / 4096
    let p := sealPage (i.s64 x.a)
    if n = 0 then keep s i else f (keep s i) p (p + n - 1)

/-- What an instruction leaves alone of its own wave and of the others, whatever it does to the caches. -/
def OwnFrame (s t : State) (k : Iss) (x : Writes) : Prop :=
  WaveFrame k.w (t.wave s.cur.wave) k s.cur.entry x ∧ (∀ n, n ≠ s.cur.wave → t.wave n = s.wave n) ∧
    ((t.wave s.cur.wave).frag s.cur.entry).pc = k.f.pc + s.cur.step

/-- The instruction's operands marked dead or popped. -/
def marks (u : Uses) : Writes := { mv := markedV u, ms := markedS u }

/-- What runs keep of the caches (R222, R223, R226, R263, R265): a line stands once in an L1 or L2; clean bytes of a home line are the memory's;
dirty bytes are valid, and lie in home lines or parked ones; and a berth's line is parked. No core holds an update-only line. -/
structure Settled (s : State) : Prop where
  once  : (s.l2.map fun l => (l.loc, l.line)).Nodup ∧ (s.l1.map fun l => (l.loc, l.line)).Nodup
  clean : ∀ l ∈ s.l2, l.kind ≠ .parked → l.loc = s.home (l.line * 128) → ∀ k < 128,
      (l.dirty.getLsbD k = true → l.valid.getLsbD k = true) ∧
      (l.valid.getLsbD k = true → l.dirty.getLsbD k = false → l.data.get k = s.mem.get (l.line * 128 + k))
  dirty : ∀ l ∈ s.l2, l.kind ≠ .parked → l.dirty ≠ 0 → l.loc = s.home (l.line * 128) ∧ s.chartOf (l.line * 128) = none
  parks : ∀ e ∈ s.chart, ∀ l, s.berthLine e = some l → l.kind = .parked
  merged : ∀ l ∈ s.l1, l.kind ≠ .update

/-- A read of a context count saturates at 64 bits (R403). -/
def saturated (n : Nat) : Nat := min n (2 ^ 64 - 1)

/-- Prefetches, pins and `CNTCLR` complete at issue (R224, R253, R254, R407): the uses, the condition, and what holds of the lines of their range. -/
def cacheSem : Instr → Option (Hdr × Uses × (State → Iss → Prop) × (State → State → Iss → Prop))
  | .pf x => some (x.h, rangeUses x, fun s i => rcBad (recOf i x.r) 1 = false ∧ s.memHeld i = false, fun s t _ => keeps s t)
  | .ipf x => some (x.h, codeUses x, fun s i => s.memHeld i = false, fun s t _ => keeps s t)
  | .ipin x => some (x.h, codeUses x, fun s i => s.memHeld i = false, fun s t i =>
      let pasid := (s.team i.w.team).pasid
      -- each line of the range is pinned for the context, or a refusal is counted, in a count that saturates
      ∀ v ∈ s.codeLines pasid (i.s64 x.a) ((i.s64 x.b).toNat % 2 ^ 24), ∀ e, s.atcOf (i.w.core / 40) pasid v = some e →
        s.kindOf (e.addr v) ≠ .reserved →
        (∃ l ∈ (if x.lvl then t.l2 else t.icache), l.line = e.addr v / 128 ∧ l.loc = (if x.lvl then s.home (e.addr v) else i.w.core / 8)
            ∧ (pasid, v) ∈ l.pins)
          ∨ saturated (Tab.getD 0 (s.ctx pasid).cnt 8) < saturated (Tab.getD 0 (t.ctx pasid).cnt 8)
          ∨ saturated (Tab.getD 0 (t.ctx pasid).cnt 8) = 2 ^ 64 - 1)
  | .iunpin x => some (x.h, codeUses x, fun s i => s.memHeld i = false, fun s t i =>
      let pasid := (s.team i.w.team).pasid
      ∀ v ∈ s.codeLines pasid (i.s64 x.a) ((i.s64 x.b).toNat % 2 ^ 24), ∀ e, s.atcOf (i.w.core / 40) pasid v = some e →
        s.kindOf (e.addr v) ≠ .reserved →
        ∀ l ∈ (if x.lvl then t.l2 else t.icache), l.line = e.addr v / 128 → l.loc = (if x.lvl then s.home (e.addr v) else i.w.core / 8) →
          ∀ y ∈ l.pins, y.1 ≠ pasid)
  | .cntclr x => some (x.h, { ctl with srcs := [⟨x.a, 1, 1⟩] }, fun _ _ => True, fun s t i =>
      let id := (i.s64 x.a).toNat % 2 ^ 12
      let c := s.ctx (s.team i.w.team).pasid
      -- a count is cleared before the events of its clock, which stand (R404): what an operation that failed in this clock left in E, and what the other
      -- counts have counted since its start, the instruction's own issue among them
      (0x200 ≤ id ∧ id < 0x240 → t.countRead i.w id = if (c.tlc (id - 0x200)).eAt = s.clock then (c.tlc (id - 0x200)).eNow else 0) ∧
      (0x300 ≤ id ∧ id < 0x309 → t.countRead i.w id = saturated (Tab.getD 0 c.cnt (id - 0x300) - Tab.getD 0 c.cnt0 (id - 0x300))) ∧
      (0x400 ≤ id ∧ id < 0x408 → t.countRead i.w id =
        (Tab.getD 0 s.cnt (qKey i.w.core i.w.q (id - 0x400)) + (if id = 0x400 then 1 else 0)
          - Tab.getD 0 s.cnt0 (qKey i.w.core i.w.q (id - 0x400))) % 2 ^ 48) ∧
      (0x500 ≤ id ∧ id < 0x505 → i.w.core < Config.cores → i.w.q < 4 → t.countRead i.w id =
        (Tab.getD 0 s.cnt (cKey i.w.core (id - 0x500)) - Tab.getD 0 s.cnt0 (cKey i.w.core (id - 0x500))) % 2 ^ 48) ∧ t.mem = s.mem)
  | _ => none
where
  codeUses (x : CodeRange) : Uses := { ctl with srcs := [⟨x.a, 1, 1⟩, ⟨x.b, 1, 1⟩] }
  /-- A prefetch changes no byte of this device's memory where there is no update-only line for it to recall (R253, R254, R290). -/
  keeps (s t : State) : Prop := Settled s → ∀ a, remote a = false → t.peek a = s.peek a

/-- An operation at a descriptor of the bearing table: its index, image or member captured, its request on its way (R273, R285). -/
def DescOut (s t : State) (i : Iss) (instr : Instr) (b : Nat) (image : BitVec 256) : Prop :=
  (∃ o ∈ t.ops, o.id = s.nextId ∧ o.wave = s.cur.wave ∧ o.instr = instr ∧ o.nout = 1 ∧ ∃ l, o.lanes = [l] ∧ o.out = [l] ∧ l.va = BitVec.ofNat 64 b
      ∧ l.pa = s.bearAddr (s.team i.w.team).pasid b ∧ l.data.setWidth 256 = image)
    ∧ ∃ r ∈ t.reqs, r.op = s.nextId ∧ r.pa = s.bearAddr (s.team i.w.team).pasid b ∧ r.kind = .line

/-- The placement instructions (R284, R285). -/
def placeSem : Instr → Option (Sem × (State → State → Iss → Prop))
  | .brset x => some
      ({ h := x.h, u := { ctl with srcs := [⟨x.a, 1, 1⟩, recSU x.q x.qm] }
         ok := fun s i => let b := (i.s64 x.a).toNat
           b ≠ 0 ∧ b ≤ 255 ∧ imageBad (recOf i x.q) = false ∧ s.memHeld i = false
         more := fun _ => { out := true, own := true } },
      fun s t i => DescOut s t i (.brset x) (i.s64 x.a).toNat (imageFor (recOf i x.q) (s.team i.w.team).tag) ∧ waits s t)
  | .bradd x => some
      ({ h := x.h, u := { ctl with srcs := [⟨x.a, 1, 1⟩, ⟨x.b, 1, 1⟩] }, ok := fun s i => member true s i x, more := fun _ => { out := true, own := true } },
      fun s t i => DescOut s t i (.bradd x) (i.s64 x.a).toNat (BitVec.ofNat 256 (i.s64 x.b).toNat) ∧ waits s t)
  | .brdel x => some
      ({ h := x.h, u := { ctl with srcs := [⟨x.a, 1, 1⟩, ⟨x.b, 1, 1⟩] }, ok := fun s i => member false s i x, more := fun _ => { out := true, own := true } },
      fun s t i => DescOut s t i (.brdel x) (i.s64 x.a).toNat (BitVec.ofNat 256 (i.s64 x.b).toNat) ∧ waits s t)
  | .brrd x => some
      ({ h := x.h, u := readUse x, ok := fun s i => (i.s64 x.a).toNat ≤ 255 ∧ s.memHeld i = false, more := fun _ => { out := true, own := true } },
      fun s t i => DescOut s t i (.brrd x) (i.s64 x.a).toNat 0 ∧ AwaitsEntry s t i (readUse x) (.op s.nextId)
        ∧ ∀ k < 4, AwaitsS (t.wave s.cur.wave) i.hm (x.d.toNat + k))
  | _ => none
where
  readUse (x : S1) : Uses := { ctl with srcs := [⟨x.a, 1, 1⟩], ds := (List.range 4).map (x.d.toNat + ·), vl := true, owes := true }
  waits (s t : State) : Prop := (s.ownFrag t).st = .waiting ∧ (s.ownFrag t).wait = .op s.nextId
  member (add : Bool) (s : State) (i : Iss) (x : HAB) : Prop :=
    let b := (i.s64 x.a).toNat
    b ≠ 0 ∧ b ≤ 255 ∧ memberBad add (s.bearing (s.team i.w.team).pasid b) (i.s64 x.b).toNat = false ∧ s.memHeld i = false

/-! ### Queues, counters and captured operands -/

/-- Queues, counts and the handler's readouts (R360 to R362, R370, R401, R403). -/
def queueSem (s : State) : Instr → Option (Sem × (State → State → Iss → Prop))
  | .qpush ⟨h, q, a, none⟩ => some ({ h := h, u := { srcs := [su false a], push := some q.toNat } },
      fun s t i => LastEntry s t i q.toNat (i.v32 a))
  | .qpush ⟨h, q, a, some g⟩ =>
    let room := decide ((s.curTeam.queue q.toNat).length < 8)
    some ({ h := h, u := { srcs := [su false a], ps := [g.toNat], entry := room && decide (s.curPart h ≠ 0) }
            ok := fun s i => Tab.get? (s.team i.w.team).prod q.toNat = some i.w.role, pd := some g, pval := fun _ _ _ => room
            more := fun _ => { psh := if room then some q.toNat else none } },
      fun s t i => room = true → LastEntry s t i q.toNat (i.v32 a))
  | .qpop ⟨h, d, q, e, some g⟩ =>
    let some' := !(s.curTeam.queue q.toNat).isEmpty
    some ({ h := h, u := { dv := [d.toNat], ps := [g.toNat], vl := some', entry := some' && decide (s.curPart h ≠ 0) }
            ok := fun s _ => FreshIds s, pd := some g, pval := fun _ _ _ => some'
            more := fun _ => { out := true, own := true, pop := if some' then some q.toNat else none } },
      fun s t i => (if some' && !i.hm then held s t else goes s t) ∧ (some' = true → Awaits (t.wave s.cur.wave) d.toNat ∧
        Replies s t i (.qpop ⟨h, d, q, e, some g⟩) fun l => (laneAt (i.w.entryLanes (((s.team i.w.team).queue q.toNat).headD [])) l).toNat) ∧
      -- of an empty queue its register is full, with the values it had but in lanes marked dead
      (some' = false → ((t.wave s.cur.wave).vreg d.toNat).st = .full ∧ ∀ l, (t.wave s.cur.wave).vlane d.toNat l = i.w.vlane d.toNat l
        ∨ ((t.wave s.cur.wave).vlane d.toNat l = 0 ∧ (i.w.vreg d.toNat).kill.getLsbD l = true)))
  | .qcnt x => some ({ h := x.h, u := { ctl with ds := [x.d.toNat] }, sd := some x.d
                       sval := fun s i =>
                         let t := s.team i.w.team
                         let role := Tab.get? t.prod x.q.toNat
                         BitVec.ofNat 64 ((t.queue x.q.toNat).length + (if s.prodGone t x.q.toNat then 2 ^ 8 else 0)
                           + (if role.isNone then 2 ^ 9 else 0) + role.getD 0 * 2 ^ 16) }, fun _ _ _ => True)
  | .qpop ⟨h, d, q, e, none⟩ => some
      ({ h := h, u := { srcs := [su false (.q q e)], dv := [d.toNat], vl := true }, ok := fun s _ => FreshIds s, more := fun _ => { out := true, own := true } },
      fun s t i => Replies s t i (.qpop ⟨h, d, q, e, none⟩) (fun l => (laneAt i.q l).toNat) ∧ Awaits (t.wave s.cur.wave) d.toNat
        -- outside a handler its completion is a region entry (R361)
        ∧ if i.hm then goes s t else held s t)
  | .rdtr x =>
    let pair := decide (x.sel = .imm 0 ∨ x.sel = .zero)
    some ({ h := x.h, u := { dv := if pair then [x.d.toNat, x.d.toNat + 1] else [x.d.toNat], cls := .plus1 }
            d := some (.v x.d x.m), w64 := pair
            ok := fun _ i => i.hm = true ∧ i.w.h.isSome = true ∧ (i.s64 x.sel).toNat ≤ 5
            val := fun _ i l => capturedWord ((i.w.h.map HCtx.cap).getD []) l (i.s64 x.sel).toNat }, fun _ _ _ => True)
  | .cntrd x => some
      ({ h := x.h, u := countUse x, more := fun _ => { out := true, own := true } },
      fun s t i =>
        let id := (i.s64 x.a).toNat % 2 ^ 12
        let c := s.ctx (s.team i.w.team).pasid
        AwaitsEntry s t i (countUse x) (.op s.nextId) ∧ AwaitsS (t.wave s.cur.wave) i.hm x.d.toNat ∧ (∃ o ∈ t.ops, o.id = s.nextId ∧ o.instr = .cntrd x ∧ o.nout = 1) ∧
        ∃ r ∈ t.reps, r.op = s.nextId ∧ ∃ v, r.kind = .scal [BitVec.ofNat 64 v] ∧
          -- timeline counters V, I and E, the context's counts, the quarter's and core's, and the partition's switch counts
          (id < 0x40 → v = (c.tlc id).v) ∧ (0x100 ≤ id ∧ id < 0x140 → v = (c.tlc (id - 0x100)).i) ∧
          (0x200 ≤ id ∧ id < 0x240 → v = (c.tlc (id - 0x200)).e) ∧ (0x300 ≤ id ∧ id < 0x309 → v = saturated (Tab.getD 0 c.cnt (id - 0x300))) ∧
          (0x400 ≤ id ∧ id < 0x408 → v = t.cntOf (qKey i.w.core i.w.q (id - 0x400))) ∧
          (0x500 ≤ id ∧ id < 0x505 → v = t.cntOf (cKey i.w.core (id - 0x500))) ∧ (0x602 ≤ id → v = 0) ∧
          -- an id that is not listed reads 0
          ((0x40 ≤ id ∧ id < 0x100) ∨ (0x140 ≤ id ∧ id < 0x200) ∨ (0x240 ≤ id ∧ id < 0x300) ∨ (0x309 ≤ id ∧ id < 0x400) ∨ (0x408 ≤ id ∧ id < 0x500)
            ∨ (0x505 ≤ id ∧ id < 0x600) → v = 0) ∧
          (id = 0x600 → v = (s.part (s.team i.w.team).part).aborts) ∧ (id = 0x601 → v = (s.part (s.team i.w.team).part).lost))
  | _ => none
where
  countUse (x : S1) : Uses := { ctl with srcs := [⟨x.a, 1, 1⟩], ds := [x.d.toNat], vl := true, owes := true }
  held (s t : State) : Prop := (s.ownFrag t).st = .waiting ∧ (s.ownFrag t).wait = .op s.nextId
  goes (s t : State) : Prop := (s.ownFrag t).st = .running ∧ (s.ownFrag t).wait = .none

/-! ### Exchange and the proposal bank -/

/-- `XCHG` sets an arrival out (R157, R158). -/
def xchgSem (x : Xchg) : Sem × (State → State → Iss → Prop) :=
  let u : Uses := { srcs := [su false x.a, su false x.b], dv := [x.d.toNat], ps := [x.g.toNat], vl := true, owes := true }
  ({ h := x.h, u := u, more := fun i => { out := true, own := true, pb := [predKey i.hm x.g.toNat] } },
   fun s t i =>
     (∃ e, t.mail = s.mail ++ [e] ∧ e.id = s.nextId ∧ e.wave = s.cur.wave ∧ e.pasid = (s.team i.w.team).pasid ∧ e.key = i.s64 x.b
        ∧ e.mask = i.part ∧ e.d = x.d.toNat ∧ e.g = x.g.toNat ∧ e.deposited = false ∧ e.at? = none ∧ e.mir = x.m ∧ e.gone = 0
        ∧ e.box = (let h := (List.range 8).foldl (fun (h : BitVec 8) k => h ^^^ (i.s64 x.b).extractLsb' (8 * k) 8) 0
            h.toNat % 4 * 48 + h.toNat / 4 % 48)
        ∧ ∀ l < 64, laneAt e.vals l = i.v32 x.a l)
     ∧ Awaits (t.wave s.cur.wave) x.d.toNat ∧ (x.g ≠ 15 → predKey i.hm x.g.toNat ∈ (t.wave s.cur.wave).pBusy)
     ∧ AwaitsEntry s t i u (.op s.nextId))

/-- The window of an open proposal may close: nothing in it is empty, nor poisoned for `ACCEPT` (R195). -/
def MayClose (i : Iss) (p : Proposal) (poison : Bool) : Prop :=
  ∀ n, p.inWin n = true → (i.w.vreg n).st ≠ .empty ∧ (poison = true → (i.w.vreg n).st ≠ .poison)

/-- After the close, a window register's lane holds its shadow where it was written and its lane accepted, else its primary (R194 to R196). -/
def Closed (t : State) (i : Iss) (id : Nat) (p : Proposal) (marked : List Nat) (takes : Nat → Bool) : Prop :=
  (t.wave id).prop = none ∧ ∀ n, p.inWin n = true → n ∉ marked → ∀ l < 64, (t.wave id).vlane n l =
    if takes l && (p.wbits (n - p.base)).getLsbD l then laneAt (p.shad (n - p.base)) l
    else if (i.w.vreg n).dead.getLsbD l then 0 else laneAt (i.w.vreg n).val l

/-- `PROPOSE`, `ACCEPT` and `REJECT` (R188 to R200, R209). -/
def propSem (s : State) : Instr → Option (Sem × (State → State → Iss → Prop))
  | .propose x =>
    let n := 8 * 2 ^ x.size.toNat
    some ({ h := x.h, u := { ctl with entry := true, first := s.openCheck }, more := fun _ => { prop := true }
            ok := fun s i => (∀ k < n, (i.w.vreg (x.base.toNat + k)).st ≠ .empty) ∧ n / 8 ≤ s.unitsFree i.w.core i.w.q },
      fun s t i => ∃ p, (t.wave s.cur.wave).prop = some p ∧ p.base = x.base.toNat ∧ p.n = n ∧ (∀ k, p.wbits k = 0 ∧ p.ebits k = 0)
        ∧ ∀ k < n, Tab.getD .full p.prim k = (i.w.vreg (x.base.toNat + k)).st)
  | .accept x => some
      ({ h := x.h, u := { srcs := [su false x.a], ps := [x.pd.toNat], entry := true, first := s.closeCheck, win := s.winRegs }
         ok := fun _ i => i.f.capt = none ∧ ∃ p, i.w.prop = some p ∧ MayClose i p true ∧ ∀ n, p.inWin n = true → (i.w.vreg n).kill = 0
         pd := some x.pd, pval := fun _ i l => i.takes x.a l
         more := fun i => { prop := true, ctr := i.part, all := (i.w.prop.map Proposal.regs).getD [], sr := [18, 19] } },
      fun s t i =>
        let w := t.wave s.cur.wave
        let n := (lanesOf i.part).countP (i.takes x.a)
        w.acc.toNat = min (i.w.acc.toNat + n) (2 ^ 32 - 1) ∧ w.rej.toNat = min (i.w.rej.toNat + ((lanesOf i.part).length - n)) (2 ^ 32 - 1)
        ∧ (∀ l, i.part.getLsbD l = true → w.ctr l = i.w.ctr l + 1)
        ∧ ∀ p, i.w.prop = some p → Closed t i s.cur.wave p (markedV { srcs := [su false x.a] }) fun l => i.part.getLsbD l && i.takes x.a l)
  | .reject x => some
      ({ h := x.h, u := { ctl with entry := true, first := s.closeCheck }
         ok := fun _ i => ∃ p, i.w.prop = some p ∧ MayClose i p false ∧ ∀ n, p.inWin n = true → (i.w.vreg n).kill = 0
         more := fun i => { prop := true, all := (i.w.prop.map Proposal.regs).getD [] } },
      fun s t i => ∀ p, i.w.prop = some p → Closed t i s.cur.wave p [] fun _ => false)
  | _ => none

/-! ### Matrix operations -/

/-- A numbered operation of a bound member: dropped up to the high mark, else accepted last (R173). -/
def Numbered (i : Iss) (w : Wave) (p : AccOp) : Prop :=
  ∀ m, i.w.mx = some m → ∃ m', w.mx = some m' ∧ m'.n = m.n + 1 ∧ m'.first = m.first ∧ m'.acc = m.acc
    ∧ if m.n + 1 ≤ m.h then m'.h = m.h ∧ m'.pend = m.pend else m'.h = m.n + 1 ∧ m'.pend = m.pend ++ [p]

/-- What a member records of its next quad operation (R175): the operation it joins or makes. -/
def Recorded (s t : State) (i : Iss) (loop : Bool) (steps : Nat) (hi : Bool) (o : MxOpnd) : Prop :=
  Numbered i (t.wave s.cur.wave) (.quad ((i.w.mx.map Member.quads).getD 0 + 1)) ∧
  ∀ m, i.w.mx = some m → m.h < m.n + 1 → ∀ q, (s.team i.w.team).quad? m.first = some q →
    ∃ q', (t.team i.w.team).quad? m.first = some q' ∧ ∃ x ∈ q'.ops, x.i = m.quads + 1 ∧ x.loop = loop ∧ x.steps = steps ∧ x.hi = hi
      ∧ snapOf x.snap = snapOf i.f.fmt ∧ Tab.get? x.who i.w.num = some o

/-- A quad operation may be issued: it is dropped, or the quad is whole, the member has room and the quad's record of it agrees. -/
def MayRecord (s : State) (i : Iss) (loop : Bool) (steps : Nat) (hi : Bool) : Prop :=
  ∃ m q, i.w.mx = some m ∧ (s.team i.w.team).quad? m.first = some q ∧
    (m.n + 1 ≤ m.h ∨ (q.part = false ∧ m.pend.length < 8 ∧
      ∀ o, q.op? (m.quads + 1) = some o → o.loop = loop ∧ o.steps = steps ∧ o.hi = hi ∧ snapOf o.snap = snapOf i.f.fmt))

/-- Matrix instructions that a member issues (R165 to R186). -/
def matrixSem (s : State) : Instr → Option (Sem × (State → State → Iss → Prop))
  | .mxbind x => some
      ({ h := x.h, u := ctl, more := fun _ => { mx := true }
         ok := fun s i => let k := (i.s64 x.a).toNat
           i.w.w32 = false ∧ k ∈ [0, 4, 8, 12] ∧ k ≤ i.w.num ∧ i.w.num ≤ k + 3 ∧ k + 4 ≤ (s.team i.w.team).waves.length
             ∧ i.w.mx = none ∧ s.bindWaits i.w k = false },
      fun s t i => let k := (i.s64 x.a).toNat
        (t.wave s.cur.wave).mx = some { first := k } ∧ ((t.team i.w.team).quad? k).isSome = true)
  | .azero x => some
      ({ h := x.h, u := { ctl with first := s.converge }, more := fun _ => { mx := true }, ok := fun _ i => room i },
      fun s t i => Numbered i (t.wave s.cur.wave) (.azero x.d.toNat (x.m.toNat + 1)))
  | .amov ⟨h, part, .intoAcc acc a⟩ => some
      ({ h := h, u := { srcs := s.accSrcs [su false a], first := s.converge }, more := fun _ => accMarks [su false a], ok := fun _ i => room i },
      fun s t i => ∃ v, Numbered i (t.wave s.cur.wave) (.amov acc.toNat part.toNat i.part v) ∧ ∀ l < 64, laneAt v l = i.v32 a l)
  | .mxstep x => some
      ({ h := x.h, u := { ctl with srcs := s.accSrcs (scaleSrc s x.sc), first := s.converge, tr := s.accSrcs [x.ta.toNat, x.tb.toNat] }
         more := fun _ => accMarks (scaleSrc s x.sc)
         ok := fun s i => badFormat (snapOf i.f.fmt) x.k x.sc = false ∧ MayRecord s i false 1 x.hi },
      -- the scale image is the lanes of the scale operand under a scale flag, and none without one (R179, R180)
      fun s t i => ∃ v, Recorded s t i false 1 x.hi (.step x.ta.toNat x.tb.toNat x.k v) ∧
        if (snapOf i.f.fmt).sa || (snapOf i.f.fmt).sb then ∃ a y, x.sc = some a ∧ v = some y ∧ ∀ l < 64, laneAt y l = i.v32 a l else v = none)
  | .mxloop x => some
      ({ h := x.h, u := { ctl with srcs := s.accSrcs ([⟨x.a, 1, 1⟩, ⟨x.b, 1, 1⟩] ++ scaleSrc s x.sc), first := s.converge }
         more := fun _ => accMarks ([⟨x.a, 1, 1⟩, ⟨x.b, 1, 1⟩] ++ scaleSrc s x.sc)
         ok := fun s i =>
           let f := loopOf s i x
           let w := if (snapOf i.f.fmt).planes then 64 else 32
           let size : Int := (s.team i.w.team).lsize
           badFormat (snapOf i.f.fmt) false x.sc = false
             -- a dropped one reads no operand, so that its addresses are not checked
             ∧ (s.drops = true ∨ (s.memHeld i = false
               ∧ f.a % 32 = 0 ∧ f.b % 32 = 0 ∧ f.ia % 32 = 0 ∧ f.ib % 32 = 0 ∧ f.ls % 32 = 0 ∧ f.sb.getD 0 % 4 = 0
               ∧ (f.n ≠ 0 → 0 ≤ (loopSpan f.a f.n f.ia f.ls w).1 ∧ 0 ≤ (loopSpan f.b f.n f.ib f.ls w).1
                   ∧ (loopSpan f.a f.n f.ia f.ls w).2 ≤ size ∧ (loopSpan f.b f.n f.ib f.ls w).2 ≤ size
                   ∧ (f.sb.isSome = true → (f.sb.getD 0 : Int) + 256 * f.n ≤ size))))
             ∧ MayRecord s i true f.n x.hi },
      fun s t i => let f := loopOf s i x; Recorded s t i true f.n x.hi (.loop f.a f.b f.n f.ia f.ib f.ls f.sb))
  | .adrain x => some
      ({ h := x.h, u := drainUse s x, more := fun _ => { out := true, own := true }
         ok := fun s i =>
           let base := (baseOf i x).toNat
           let n := if x.fmt = .f32 ∨ x.fmt = .s32 then 4096 else 2048
           let c := (x.tq.map i.s64).getD 0
           let tb := c.toNat % 2 ^ 19
           let sb := c.toNat / 2 ^ 32 % 2 ^ 19
           let q := i.f.fmt.toNat / 2 ^ 24 % 16
           let rs := (base, n) :: (if x.tq.isSome then [(tb, if q = 2 then 2000 else 2016), (sb, 32)] else [])
           i.w.mx.isSome = true ∧ s.memHeld i = false ∧ 0 ≤ baseOf i x ∧ base % 8 = 0 ∧ (x.tq.isSome = true → q < 3 ∧ tb % 16 = 0)
             ∧ (∀ r ∈ rs, r.1 + r.2 ≤ (s.team i.w.team).lsize) ∧ s.accBusy i.w x.acc.toNat = false ∧ s.localBusy i.w true rs = false },
      -- the drain is under way with the bytes it will write; the 32-bit formats write the accumulator's words as they are
      fun s t i => AwaitsEntry s t i (drainUse s x) (.op s.nextId) ∧ ∃ o ∈ t.ops, o.id = s.nextId ∧ o.wave = s.cur.wave ∧ o.instr = .adrain x ∧
        (x.fmt = .f32 ∨ x.fmt = .s32 → x.tq = none → Memory.wf ((i.w.mx.map fun m => m.accOf x.acc.toNat).getD []) = true → ∀ b < 4096,
          ((baseOf i x).toNat + b, Memory.get ((i.w.mx.map fun m => m.accOf x.acc.toNat).getD []) b) ∈ o.lbytes))
  | _ => none
where
  /-- What an accumulator operation writes beside its quad: the registers its operands mark dead, read or not. -/
  accMarks (srcs : List SU) : Writes := { mx := true, mv := markedV { srcs := srcs }, ms := markedS { srcs := srcs } }
  drainUse (s : State) (x : ADrain) : Uses :=
    { ctl with srcs := [⟨x.base, 1, 1⟩, ⟨x.off, 1, 1⟩] ++ (x.tq.toList.map fun a => ⟨a, 1, 1⟩), first := s.converge }
  /-- The base of a drain, not wrapped; an offset in a scalar is unsigned, an immediate one signed (log entry 76). -/
  baseOf (i : Iss) (x : ADrain) : Int := ((i.s64 x.base).toNat : Int) + (match x.off with
    | .s _ _ _ => ((i.s64 x.off).toNat : Int)
    | _ => (i.s64 x.off).toInt)
  room (i : Iss) : Prop := ∃ m, i.w.mx = some m ∧ (m.n + 1 ≤ m.h ∨ m.pend.length < 8)
  loopOf (_ : State) (i : Iss) (x : MxLoop) : LoopF :=
    loopFields (i.s64 x.a) (i.s64 x.b) (if (snapOf i.f.fmt).sa || (snapOf i.f.fmt).sb then x.sc.map i.s64 else none)


/-! ### What the parts of the device bring about -/

/-- Two arrivals at a mailbox: an event of the one ends, the lanes of both exchanged (R157, R158). `x` gets what `y` brought, in the lanes that have
not ended; its mirror is written with it. -/
def Swapped (t : State) (x y : Xch) : Prop :=
  let w := t.wave x.wave
  let v (l : Nat) : Word := if y.mask.getLsbD l then laneAt y.vals l else laneAt x.vals l
  (∀ l, x.mask.getLsbD l = true → x.gone.getLsbD l = false →
    w.vlane x.d l = v l ∧ (x.g ≠ 15 → (w.pred x.hm x.g).getLsbD l = y.mask.getLsbD l) ∧
    match x.mir with
    | .none => True
    | .la => laneAt (w.latch x.hm false).val l = v l
    | .lb => laneAt (w.latch x.hm true).val l = v l
    | .o k => laneAt (w.slotAt k.toNat).val l = v l)
  ∧ (w.vreg x.d).st = .full

/-- Mail of one identifier, in a wave that is there. -/
def HasMail (s : State) (x : Xch) : Prop :=
  x ∈ s.mail ∧ (∀ y ∈ s.mail, y.id = x.id → y = x) ∧ (Tab.get? s.waves x.wave).isSome = true

/-- An arrival that may still be matched: it has not stood 262,144 clocks (R158). -/
def InTime (s : State) (x : Xch) : Prop := ∀ c, x.at? = some c → s.clock < c + 262144

/-- An oldest operation of a quad that is matched: all four members resident, each come to it (R175, R178). -/
def Matched (s : State) (team first : Nat) (q : Quad) (o : QuadOp) : Prop :=
  (s.team team).quad? first = some q ∧ q.ops.head? = some o ∧ (s.team team).loc = .resident ∧ (s.members team first).length = 4
    ∧ o.who.length = 4 ∧ ∀ w ∈ s.members team first, w.here = true ∧ ∃ m, w.mx = some m ∧ m.pend.head? = some (.quad o.i)

/-- The members of a quad stand under their identifiers, once each. -/
def MembersOnce (s : State) (team first : Nat) : Prop :=
  ((s.members team first).map Wave.id).Nodup ∧ ∀ w ∈ s.members team first, Tab.get? s.waves w.id = some w


/-! ### The point of order, the distributor and the Sextant -/

/-- No core holds an update-only line of an address's line, and its link is up: a request there meets the value at the point of order. -/
def Quiet (s : State) (pa : Nat) : Prop := (∀ l ∈ s.l1, l.kind = .update → l.line ≠ pa / 128) ∧ s.cut pa = none

/-- No store in progress to a fan-out line of this address is on its way to more copies (R266). -/
def NoSpread (s : State) (pa : Nat) : Prop := ∀ r ∈ s.reqs, ∀ b d a m, r.kind = .spread b d a m → r.pa / 128 ≠ pa / 128

/-- A global side of a piece of a copy at a physical address that its engine may access: translated and permitted, in memory that exists, over a link that
is up, and for a write not sealed (R236, R342, R344). -/
def CopySide (s : State) (c : Copy) (va : DWord) (wr : Bool) (pa : Nat) : Prop :=
  low57 va / 4096 ∉ c.bad ∧ (∃ e, s.atcOf (c.core / 40) c.pasid (low57 va) = some e ∧ (if wr then e.wr else e.rd) = true ∧ e.addr (low57 va) = pa)
    ∧ s.kindOf pa ≠ .reserved ∧ (wr = true → (s.ctx c.pasid).sealed va = false) ∧ Quiet s pa

/-- A copy reads as its issuing core, context and team (R269). -/
def Copy.asker (c : Copy) : Asker := { pasid := c.pasid, core := c.core, tag := c.gtag, idx := c.tidx }

/-- The 16 bytes that a piece reads, and whether they are poisoned: at the point of order, of a parked line from the copy its reader is served (R269). -/
def Copy.source (c : Copy) (s : State) (pa : Nat) : List Byte × Bool := match s.chartOf pa with
  | some e => (((s.readerBytes e c.core (pa / 32 * 32)).1.drop (pa % 32)).take 16, (s.readerBytes e c.core (pa / 32 * 32)).2)
  | none => (s.peeks pa 16, s.poisoned pa)

/-- Lanes of a request that lie in its sector. -/
def InSector (ls : List LaneAcc) (size pa : Nat) : Prop :=
  0 < size ∧ ∀ l ∈ ls, l.pa / 32 = pa / 32 ∧ (l.pa + size - 1) / 32 = pa / 32

/-- A request that may be served, with its operation (R225, R229). -/
def FirstRequest (s : State) (r : Req) (o : Op) : Prop :=
  s.reqs.find? (fun q => q.id == r.id) = some r ∧ s.reaches r = true ∧ s.op? r.op = some o

/-- A lane's registers hold a loaded number of `n` bytes: its words, or the value that a conversion gives (R243). -/
def LoadedLane (w : Wave) (d : Nat) (sz : Size) (c : Conv) (l v : Nat) : Prop := match convElem c with
  | some e => w.vlane d l = fromElem plainMode e v
  | none => ∀ k < sz.regs, w.vlane (d + k) l = BitVec.ofNat 32 (v / 2 ^ (32 * k))

/-- What a reply brings stands in the destinations of its operation: of a load the bytes at each lane's address, of `LDSC` its scalars in ascending
address order, of an atomic the old value of each lane, of `LDS`, a local atomic or `QPOP` what was read at the issue, and of `BRRD`, `PARKQ` and `CNTRD`
the answered scalars (R243, R246, R249, R285, R287, R293). -/
def Delivered (o : Op) (p : Rep) (w : Wave) : Prop :=
  let words (l : LaneAcc) : Prop := ∀ k < (memDst o.instr).1.length, w.vlane ((memDst o.instr).1.getD k 0) l.lane = BitVec.ofNat 32 (l.data.toNat / 2 ^ (32 * k))
  match p.kind, o.instr with
  | .data bs _ _, .ld x => o.size = x.sz.bytes → (o.out.map LaneAcc.lane).Nodup → ∀ l ∈ o.out, l.lane < 64 →
      l.pa / 32 = p.pa / 32 → (l.pa + o.size - 1) / 32 = p.pa / 32 →
      LoadedLane w x.d.toNat x.sz x.conv l.lane (leNat ((List.range o.size).map fun k => bs.getD (l.pa % 32 + k) 0))
  | .data bs _ _, .ldsc x => o.size = 8 * 2 ^ x.m.toNat → ∀ l, o.out = [l] → ∀ k < 2 ^ x.m.toNat, ∀ b < 8,
      (w.sval o.hm (x.d.toNat + k)).extractLsb' (8 * b) 8 =
        let a := l.pa + 8 * k + b
        if a / 32 = p.pa / 32 then bs.getD (a % 32) 0 else l.data.extractLsb' (8 * (8 * k + b)) 8
  | .old vals _, _ => (vals.map LaneAcc.lane).Nodup → ∀ v ∈ vals, v.lane < 64 → (∃ l ∈ o.out, l.lane = v.lane) → words v
  | .done, .lds x => (o.out.map LaneAcc.lane).Nodup → ∀ l ∈ o.out, l.lane < 64 →
      LoadedLane w x.d.toNat x.sz x.conv l.lane (l.data.toNat % 2 ^ (8 * x.sz.bytes))
  | .done, .atoms _ => (o.out.map LaneAcc.lane).Nodup → ∀ l ∈ o.out, l.lane < 64 → words l
  | .done, .qpop _ => (o.out.map LaneAcc.lane).Nodup → ∀ l ∈ o.out, l.lane < 64 → words l
  | .scal vs, _ => ∀ k < (memDst o.instr).2.length, k < vs.length → w.sval o.hm ((memDst o.instr).2.getD k 0) = vs.getD k 0
  | _, _ => True

/-- A request is answered. -/
def Answers (t : State) (r : Req) (k : RepKind) : Prop := ∃ p ∈ t.reps, p.id = r.id ∧ p.kind = k

/-- The bytes that lanes store to hold what one of the lanes that store there gives (R307), and every other byte that `here` names is as it was. -/
def StoresTo (here : Nat → Prop) (s t : State) (ls : List LaneAcc) (n : Nat) : Prop :=
  (∀ a, here a → (∀ l ∈ ls, ¬(l.pa ≤ a ∧ a < l.pa + n)) → t.peek a = s.peek a) ∧
  ∀ a, ∀ l ∈ ls, l.pa ≤ a → a < l.pa + n → ∃ k ∈ ls, k.pa ≤ a ∧ a < k.pa + n ∧ t.peek a = BitVec.ofNat 8 (k.data.toNat / 256 ^ (a - k.pa))

/-- The value of a location after the lanes that address it, applied one after another (R292). -/
def chain (f : Nat → LaneAcc → Nat) (ls : List LaneAcc) (pa v : Nat) : Nat := (ls.filter fun l => l.pa == pa).foldl f v

/-- No byte of this device's memory changes at its point of order. -/
def Unchanged (s t : State) : Prop := ∀ a, remote a = false → t.peek a = s.peek a

/-- A bearing entry takes a value, which its cached copies have still to take, and no other byte changes (R273, R285). -/
def BearingTakes (s t : State) (r : Req) (o : Op) (e : BitVec 256) : Prop :=
  t.bearing o.pasid o.index = e ∧ (∃ q ∈ t.reqs, q.id = r.id ∧ q.kind = .told) ∧
    ∀ a, remote a = false → (a < r.pa ∨ r.pa + 32 ≤ a) → t.peek a = s.peek a

/-- What `BRADD` (`add`) and `BRDEL` make of member `m` of an entry (R285): a bit of a mask, or an end of a range, whose only member's going makes it
invalid. -/
def MemberDone (add : Bool) (m : Nat) (e e' : BitVec 256) : Prop :=
  if bKind e = 1 then (∀ k, 64 ≤ k → k < 255 → e'.getLsbD k = e.getLsbD k) ∧
    if add then bValid e' = true ∧ bFirst e' = min (bFirst e) m ∧ bLast e' = max (bLast e) m
    else if m = bFirst e ∧ m = bLast e then bValid e' = false
    else bValid e' = true ∧ bFirst e' = (if m = bFirst e then m + 1 else bFirst e) ∧ bLast e' = if m ≠ bFirst e ∧ m = bLast e then m - 1 else bLast e
  else ∀ k < 256, e'.getLsbD k = if k = m then add else e.getLsbD k

/-- `BRADD` and `BRDEL` at the descriptor: the entry as it is then decides whether the member is refused (R273, R284, R285). -/
def MemberServed (add : Bool) (s t : State) (r : Req) (o : Op) : Prop :=
  let e := s.bearing o.pasid o.index
  let m := o.image.toNat
  let bad : Prop := bValid e = false ∨ (bKind e = 0 ∧ 159 < m) ∨ (bKind e = 1 ∧ (2 ^ 32 ≤ m ∨ (add = false ∧ bFirst e < m ∧ m < bLast e))) ∨
    (2 ≤ bKind e ∧ 3 < m)
  (bad → Answers t r (.refused 39 0 0) ∧ Unchanged s t) ∧
  (¬bad → (bKind e = 1 → bFirst e ≤ bLast e) → ∃ e', MemberDone add m e e' ∧ BearingTakes s t r o e')

/-- What a request that is no access of lanes does at the slice, where the caches are as runs leave them and hold no update-only line: the bearing
instructions act on their entry (R273, R284, R285), `UNPARK` and `SEAL` unpark lines (R237, R279, R286), the latter into memory, and `CINV` and `CWB` drop
or write back cached copies (R253), none of them changing a byte at its point of order. -/
def LineServed (s t : State) (r : Req) (o : Op) : Prop :=
  let atEntry : Prop := r.pa = s.bearAddr o.pasid o.index ∧ o.index ≠ 0 ∧ r.pa % 32 = 0 ∧ remote r.pa = false ∧
    ∀ c, s.chartOf r.pa = some c → c.berth < 2 → (s.berthLine c).isSome = true
  match o.instr with
  | .brset _ => atEntry → BearingTakes s t r o o.image
  | .bradd _ => atEntry → MemberServed true s t r o
  | .brdel _ => atEntry → MemberServed false s t r o
  | .brrd _ => r.pa = s.bearAddr o.pasid o.index →
      Answers t r (.scal ((List.range 4).map fun k => (s.bearing o.pasid o.index).extractLsb' (64 * k) 64)) ∧ Unchanged s t
  | .unpark _ => NoSpread s r.pa → Answers t r .done ∧ Unchanged s t ∧
      ∀ c, s.chartOf r.pa = some c → t.chartOf r.pa = if c.pasid = o.pasid then none else some c
  | .seal _ => (∀ k < 32, NoSpread s (r.pa / 4096 * 4096 + 128 * k)) → Answers t r .done ∧ Unchanged s t ∧
      ∀ k < 32, let line := r.pa / 4096 * 4096 + 128 * k
        t.chartOf line = none ∧ ((s.chartOf line).isSome = true → ∀ j < 128, remote (line + j) = false → t.mem.get (line + j) = s.peek (line + j))
  | .cinv x => Answers t r .done ∧ Unchanged s t ∧ (∀ l ∈ t.l1, l.loc = o.core → l.line = r.pa / 128 → l.kind = .parked) ∧
      (x.lvl = true → ∀ l ∈ t.l2, l.loc = s.home r.pa → l.line = r.pa / 128 → l.kind = .parked ∨ l.kind = .sealed ∨ l.valid = 0)
  | .cwb _ => Answers t r .done ∧ Unchanged s t ∧ ∀ l ∈ t.l2, l.loc = s.home r.pa → l.line = r.pa / 128 → l.kind = .parked ∨ l.dirty = 0
  | _ => True

/-- An operation waits for one translation alone, that of the page of all its lanes; no other waits for it (R413). -/
def WaitsFor (s : State) (a : AtsReq) (o : Op) : Prop :=
  s.op? o.id = some o ∧ (s.ops.map Op.id).Nodup ∧ (∀ x ∈ s.ops, a.id ∈ x.xw → x = o) ∧ o.xw = [a.id] ∧ o.phase = .xlate ∧ o.dead = false ∧
    o.core / 40 = a.die ∧ o.pasid = a.pasid ∧ o.out ≠ [] ∧ ∀ l ∈ o.out, l.page = a.page

/-- An operation's page is missing, or not to be used so: it is asked of the host, once for all, and its lanes wait, their fragment parked; while PRI is
off they are refused with page-refused (R248, R413). -/
def PageLacks (s t : State) (a : AtsReq) (o : Op) : Prop :=
  (∃ x ∈ t.ops, x.id = o.id ∧ x.phase = .sent ∧ x.out = [] ∧
    if s.priOn then x.absent = o.absent ++ o.out ∧ x.refused = o.refused ∧ ∃ p ∈ t.pages, p.pasid = a.pasid ∧ p.page = a.page
    else x.absent = [] ∧ x.refused = o.refused ++ (o.absent ++ o.out) ∧ x.rcause = 35 ∧ x.rdet0 = BitVec.ofNat 64 priFailure) ∧
  ∀ w f, Tab.get? s.waves o.wave = some w → w.frags.find? (fun g => g.entry == o.entry) = some f → ((t.wave o.wave).frag o.entry).st = .parked o.id

/-- A command's descriptor is there to be taken (R430). -/
def SxReady (s : State) : Prop := s.sx.ready = true ∧ s.sx.rd ≠ s.sx.wr

/-- A command ends with a status and a result, from a state that the Sextant's registers have not moved in (R431). -/
def SxEnds (s t : State) (status : Nat) (result : Option Nat) : Prop :=
  ∃ u : State, t = u.sxDone status result ∧ u.sx.rd = s.sx.rd ∧ u.sx.base = s.sx.base ∧ u.sx.size = s.sx.size

/-- These bytes stand at an address of host memory, but where the command's own status and result have been written (R431). -/
def HostHas (s t : State) (a : Nat) (bs : List Byte) : Prop :=
  ∀ j < bs.length, a + j ≠ s.sxAddr + 1 → (a + j < s.sxAddr + 56 ∨ s.sxAddr + 64 ≤ a + j) → t.mem.get (2 ^ 51 + (a + j)) = bs.getD j 0

/-- A command that ends with a status and leaves all but the Sextant's registers and memory alone. -/
def SxRefused (i : Instr) (s : State) (status : Nat) : Prop := exec i s = .next (s.sxDone status none)

/-- Whether a head of a queue holds up the distributor's intake: it must be asked for, or is refused. -/
def Head.free (s : State) (x : LQueue) (h : Head) : Prop :=
  (h = .unread → s.asked x.pasid (s.unread x.pasid x.headVa 64) = true) ∧ ∀ c g, h ≠ .refused c g

/-- The last record of the event log is an uncorrectable error's on a die, of this clock (R435). -/
def Struck (s t : State) (die : Nat) : Prop := ∃ r, t.log.getLast? = some r ∧ r.source = 2 ∧ r.die = die ∧ r.clock = s.clock

/-- An uncorrectable error is counted for a memory of a die, in a count that saturates (R402). -/
def Counted (s t : State) (die : Nat) (m : ErrMem) : Prop :=
  Tab.getD 0 t.errs (errKey die (memIndex m) 1) = min (Tab.getD 0 s.errs (errKey die (memIndex m) 1) + 1) (2 ^ 32 - 1)

/-- These teams are killed: none is left under its identifier, and a team launched again has a new one (R392, R393). -/
def Gone (s t : State) (teams : List Nat) : Prop :=
  (∀ e ∈ s.teams, e.1 < s.nextId) → ∀ k ∈ teams, k < s.nextId → Tab.get? t.teams k = none

/-- No identifier in use reaches the next one. -/
def FreshAll (s : State) : Prop := (∀ e ∈ s.teams, e.1 < s.nextId) ∧ (∀ e ∈ s.waves, e.1 < s.nextId) ∧ ∀ l ∈ s.launches, l.id < s.nextId


end Sys2Proof.Machine

/-! ### The statements -/

open Sys2Proof Sys2Proof.Machine

/-- R133: each integer instruction of the table completes with its result, at both widths and into every destination. -/
def Obligations.IntegerResults : Prop := ∀ i m, intSem i = some m → m.Completes i

/-- R135: the shifts and the rotation. -/
def Obligations.ShiftResults : Prop := ∀ i m, shiftSem i = some m → m.Completes i

/-- R134, R136, R137, R138: bit fields, `LEA`, `SEL` and `IADDC` with its carry. -/
def Obligations.FieldResults : Prop := ∀ i m, fieldSem i = some m → m.Completes i

/-- R139, R140, R142: float arithmetic. -/
def Obligations.FloatResults : Prop := ∀ i m, fltSem i = some m → m.Completes i

/-- R144 to R146: conversions and their saturation flag. -/
def Obligations.ConversionResults : Prop := ∀ i m, cvtSem i = some m → m.Completes i

/-- R155: `SHFL` and `BCAST`. -/
def Obligations.LaneMoveResults : Prop := ∀ i m, moveSem i = some m → m.Completes i

/-- R131, R138, R141, R147, R152, R153, R161: instructions that write a predicate, or a scalar from one. -/
def Obligations.PredicateResults : Prop := ∀ i m, predSem i = some m → m.Completes i

/-- R147: scalar instructions write their scalar once, whatever the mask. -/
def Obligations.ScalarResults : Prop := ∀ i m, scalSem i = some m → m.Completes i

/-- R148, R156, R184, R185: readouts of special registers, reductions, scans, accumulators, tiles and bit planes. -/
def Obligations.ReadoutResults : Prop := ∀ i m, readSem i = some m → m.Completes i

/-- R149 to R151, R206, R207: writes of special registers, the generator's key, counters and draws. -/
def Obligations.SpecialWrites : Prop := ∀ i m also, specialSem i = some (m, also) → m.CompletesWith i also

/-- R160, R162, R184: register states, operand-cache loads and tiles. K1 and K2 code have no `FEMARK` (R72, R75). -/
def Obligations.MarkResults : Prop := ∀ i m also, markSem i = some (m, also) → m.CompletesWith i also

/-- R127, R128: every active lane goes to its target or the next instruction, `CALL` and `CALLX` link first. -/
def Obligations.BranchResults : Prop := ∀ i b, branchSem i = some b → b.Completes i

/-- R33, R65, R130, R183, R318 to R322, R335, R341, R345, R369, R408: instructions that do nothing, make a region entry, or start a wait. -/
def Obligations.WaitsStart : Prop := ∀ s i m also, waitSem s i = some (m, also) → m.CompletesAt i also s

/-- R130, R183, R314, R318 to R322, R335, R339, R341, R345, R358 to R360, R369, R408, R422: the ends of waits. `YIELD` and `SLEEP` end when their clocks
have passed. A wait with a release stands until every access made before it is complete, and then does what its instruction does; the other waits end when
what they wait for has come about; a hardware barrier releases its agents when all of them have arrived. A switch of the core holds every wait back. What
a release waits for, and that a barrier's arrival follows it, is read so in log entry 35. -/
def Obligations.WaitsEnd : Prop := ∀ (s : State) (r : FragRef) (w : Wave) (f : Frag),
  Tab.get? s.waves r.wave = some w → w.frags.find? (fun g => g.entry == r.entry) = some f → f.st = .waiting →
  (f.wake ≤ s.clock →
    (f.wait = .yield → ∃ t, exec (.yieldEnd r) s = .next t ∧ ((t.wave r.wave).frag r.entry) = { f with st := .running, wait := .none }
      ∧ t = { s with waves := t.waves } ∧ ∀ n, n ≠ r.wave → t.wave n = s.wave n) ∧
    (f.wait = .sleep → ∃ t, exec (.sleepEnd r) s = .next t ∧ ((t.wave r.wave).frag r.entry) = { f with st := .running, wait := .none }
      ∧ t = { s with waves := t.waves } ∧ ∀ n, n ≠ r.wave → t.wave n = s.wave n)) ∧
  let t := State.settleWait r s
  let hm := w.inHandler r.entry
  (w.away = true ∨ s.mayIssue w.core = false → t = s) ∧
  (w.away = false → s.mayIssue w.core = true → (∃ m, Tab.get? s.teams w.team = some m) → (∃ c ∈ s.ctxs, c.pasid = (s.team w.team).pasid) →
    let tm := s.team w.team
    let own := (t.wave r.wave).frag r.entry
    -- after a release of the wave's stores
    (∀ sc n k, f.wait = .rel sc n k →
      ((∃ o ∈ s.ops, o.wave = r.wave ∧ o.id < n) → t = s) ∧
      ((∀ o ∈ s.ops, o.wave = r.wave → n ≤ o.id) →
        let u := s.release r.wave w.core sc
        match k with
        | .fence acq =>
          let v := if acq then u.acquire tm.pasid w.core sc else u
          GoesOn t r w f ∧ t = { v with waves := t.waves }
        | .bar => own = { f with wait := .bar } ∧ (t.team w.team).bar = tm.bar ++ [r.wave] ∧ t = { u with waves := t.waves, teams := t.teams }
        | .gbar => own = { f with wait := .gbar } ∧ (t.team w.team).gb = tm.gb ++ [r.wave] ∧ t = { u with waves := t.waves, teams := t.teams }
        | .bara d o tx _ =>
          -- an arrival that cannot be taken traps; the token is the phase before, and the last arrival flips it (R219, R320)
          let b := u.barObj w.team o
          if boExpected b = 0 ∨ boExpected b ≤ boArrived b ∨ 2 ^ 32 ≤ boBytes b + tx then
            hm = false → ∃ x, own.st = .pending x ∧ x.cause = 41 ∧ t = { u with waves := t.waves }
          else GoesOn t r w f ∧ (t.wave r.wave).sval hm d.toNat = (if boPhase b then 1 else 0)
            ∧ t.barObj w.team o = boFlip b (boArrived b + 1) (boBytes b + tx)
            ∧ (∀ a, a < o ∨ o + 16 ≤ a → (t.team w.team).lmem.get a = tm.lmem.get a) ∧ t = { u with waves := t.waves, teams := t.teams }
        | .cpy d c rq => own = { f with wait := .cpyq d c rq } ∧ t = { u with waves := t.waves }
        | .tladv c n =>
          let old := (u.ctx tm.pasid).tlc c
          let new := (t.ctx tm.pasid).tlc c
          GoesOn t r w f ∧ new.i = max old.i n ∧ max old.v n ≤ new.v ∧ (max old.v n + 1 ∉ old.done → new.v = max old.v n)
            ∧ t = { u with waves := t.waves, ctxs := t.ctxs }
        | .spawn d rq => own = { f with wait := .spawn d rq } ∧ t = { u with waves := t.waves }
        -- an access goes on to its translation
        | .send id => t = ((u.modFrag r fun f => { f with wait := .xlate id }).modOp id fun o => { o with phase := .xlate }).proceed id)) ∧
    (∀ sc n, f.wait = .acq sc n →
      ((∃ o ∈ s.ops, o.wave = r.wave ∧ o.id < n ∧ storesOnly o.instr = false) → t = s) ∧
      ((∀ o ∈ s.ops, o.wave = r.wave → o.id < n → storesOnly o.instr = true) →
        GoesOn t r w f ∧ t = { s.acquire tm.pasid w.core sc with waves := t.waves })) ∧
    (∀ o tok, f.wait = .barw o tok →
      (boPhase (s.barObj w.team o) = tok → t = s) ∧ (boPhase (s.barObj w.team o) ≠ tok → GoesOn t r w f ∧ t = { s with waves := t.waves })) ∧
    -- the copy error is raised before the next issue (R345, R382), with the counter, the cause and E in its record
    (∀ sc c n rec, f.wait = .tlwait sc c n rec →
      let x := (s.ctx tm.pasid).tlc c
      (x.v < n → t = s) ∧
      (n ≤ x.v → GoesOn t r w f ∧ t = { s.acquire tm.pasid w.core sc with waves := t.waves } ∧
        let y := ((s.acquire tm.pasid w.core sc).ctx tm.pasid).tlc c
        if y.e = 0 ∨ n < y.e then own.late = f.late
        else ∃ z, own.late = f.late ++ [z] ∧ z.cause = 45 ∧ z.cls = .a ∧
          (14 < rec.length → z.trec.getD 13 0 = BitVec.ofNat 64 (c + y.ecause * 2 ^ 8) ∧ z.trec.getD 14 0 = BitVec.ofNat 64 y.e))) ∧
    -- a copy request takes its number where the core's queue of 64 has room (R339, R341)
    (∀ d c rq, f.wait = .cpyq d c rq →
      (64 ≤ (s.queued w.core).length → t = s) ∧
      ((s.queued w.core).length < 64 →
        let k := ((s.ctx tm.pasid).tlc c).i + 1
        GoesOn t r w f ∧ (t.wave r.wave).sval hm d.toNat = BitVec.ofNat 64 k ∧ ((t.wave r.wave).sreg hm d.toNat).st = .full
          ∧ ((t.ctx tm.pasid).tlc c).i = k ∧ (∃ y, t.copies = s.copies ++ [y] ∧ y.rq = rq ∧ y.c = c ∧ y.k = k ∧ y.core = w.core ∧ y.team = tm.id
            ∧ y.pasid = tm.pasid ∧ y.running = false ∧ y.done = 0) ∧ t = { s with waves := t.waves, ctxs := t.ctxs, copies := t.copies, nextId := t.nextId })) ∧
    -- a task enters the queue where a shared entry, or its depth's reserved one, is free (R359, R369)
    (∀ d rq, f.wait = .spawn d rq → (Tab.get? s.parts tm.part).isSome = true →
      let p := s.part tm.part
      let full := 4088 ≤ (p.tasks.filter fun k => !k.res).length ∧ ∃ k ∈ p.tasks, k.res = true ∧ k.depth = tm.depth + 1
      (full → t = s) ∧
      (¬full →
        let k := if tkTl rq then ((s.ctx tm.pasid).tlc (tkCtr rq)).i + 1 else 0
        GoesOn t r w f ∧ (t.wave r.wave).sval hm d.toNat = BitVec.ofNat 64 k ∧ (tkTl rq = true → ((t.ctx tm.pasid).tlc (tkCtr rq)).i = k)
          ∧ (∃ y, (t.part tm.part).tasks = p.tasks ++ [y] ∧ y.rq = rq ∧ y.pasid = tm.pasid ∧ y.depth = tm.depth + 1 ∧ y.k = k ∧ y.rootQ = tm.rootQ)
          ∧ t = { s with waves := t.waves, ctxs := t.ctxs, parts := t.parts })) ∧
    (f.wait = .mxwait → (w.owesMatrix = true → t = s) ∧ (w.owesMatrix = false → GoesOn t r w f ∧ t = { s with waves := t.waves })) ∧
    -- a role queue that has an entry or no producer left, or room, lets its instruction issue again (R35, R360, R362)
    (∀ q, f.wait = .pop q → if tm.queue q = [] ∧ s.prodGone tm q = false then t = s
      else own = { f with st := .running, wait := .none } ∧ t = { s with waves := t.waves }) ∧
    (∀ q, f.wait = .push q → if 8 ≤ (tm.queue q).length then t = s
      else own = { f with st := .running, wait := .none } ∧ t = { s with waves := t.waves })) ∧
  -- the hardware barrier (R319)
  ∀ team tm, Tab.get? s.teams team = some tm →
    let t := s.barRelease team
    (tm.bar = [] ∨ (∃ n ∈ tm.waves, (s.wave n).live = true ∧ n ∉ tm.bar) → t = s) ∧
    (tm.bar ≠ [] → (∀ n ∈ tm.waves, (s.wave n).live = true → n ∈ tm.bar) → (t.team team).bar = [] ∧ t = { s with waves := t.waves, teams := t.teams } ∧
      (tm.waves.Nodup → ∀ n ∈ tm.waves, ∀ v g, Tab.get? s.waves n = some v → v.frags = [g] →
        if g.wait = .bar then GoesOn t ⟨n, g.entry⟩ v g else t.wave n = v))

/-- R30, R32, R129: `HINGE` switches to deferred lanes, rejoins arrived ones, passes, merges or is held, and the fragments at the lowest PC go on once
all are held. Fragments whose deferred records together are more than one entry holds stay apart, by log entry 78. In K3 code or a handler. -/
def Obligations.HingeResults : Prop := ∀ x : HCode, Runs (.hinge x) x.h ctl (fun _ _ => True) (hingePost x.code.toNat)

/-- R40, R167, R385: `END` retires the running lanes; a bound wave's last one owes no matrix operation. In handler mode it leaves handler mode with the
handler's last lanes. -/
def Obligations.EndResults : Prop := ∀ x : H0,
  Runs (.endFrag x) x.h ctl (fun _ k => k.hm = false ∧ MayEnd k) endPost ∧
  ∀ c : HCtx, Runs (.endFrag x) x.h ctl (fun _ k => k.hm = true ∧ k.w.h = some c ∧ MayEnd k) (endHandlerPost c)

/-- R132, R383, R400, R401, R403: `BRKPT` and `TRAP` enter the handlers of causes 24 and 25, outside handler mode, where the vector names one. Their issue
is counted and occupies its quarter as that of any instruction, which log entry 79 reads so. -/
def Obligations.SoftwareTraps : Prop := ∀ x : HCode,
  Runs (.brkpt x) x.h ctl (fun s k => k.w.h = none ∧ Handled s k 24 ∧ Recordable s k)
    (fun s t k => TrapsAtIssue ctl s t k 24 k.part ∧ ((Tab.getD 0 (t.wave s.cur.wave).trec 32).toNat / 2 ^ 32) % 2 ^ 8 = x.code.toNat) ∧
  Runs (.trap x) x.h ctl (fun s k => k.w.h = none ∧ Handled s k 25 ∧ Recordable s k)
    (fun s t k => TrapsAtIssue ctl s t k 25 k.part ∧ ((Tab.getD 0 (t.wave s.cur.wave).trec 32).toNat / 2 ^ 32) % 2 ^ 8 = x.code.toNat)

/-- R382, R384, R386, R392: any cause that has a vector, 1 to 51, raised by the instruction being issued enters its handler; without one, or in
handler mode, the team is killed and is gone from the table unless it is relaunched under a new identifier; while another fragment of the wave is in
handler mode the fragment is trap-pending with its record, and nothing else changes. -/
def Obligations.TrapEntry : Prop := ∀ (s : State) (h : Hdr) (cause : Nat) (part : Mask), Issuing s → 1 ≤ cause → cause ≤ 51 →
  let k := s.issOf h
  (k.w.h = none → Handled s k cause → EntersHandler s (s.trap cause part {}) k cause part) ∧
  (∀ c, k.w.h = some c → c.entry ≠ s.cur.entry → Pends s (s.trap cause part {}) k cause part) ∧
  ((k.w.h = none ∧ ¬ Handled s k cause) ∨ k.hm = true → s.nextId ≠ k.w.team → (∀ e ∈ s.teams, e.1 < s.nextId) →
    Tab.get? (s.trap cause part {}).teams k.w.team = none)

/-- R390: `RETH` leaves handler mode and resumes as its mode or the cause's default says. A fragment that entered its handler was not trap-pending any
more, so no handler keeps a trap-pending state. That 0 stands for a next PC of 2^57 is the choice of log entry 52. -/
def Obligations.RethResults : Prop := ∀ (x : Reth) (c : HCtx), Runs (.reth x) x.h ctl
  (fun _ k => k.hm = true ∧ k.w.h = some c ∧ (∀ z, c.st ≠ .pending z) ∧ (rethResume x.m c).isSome = true ∧ ∀ g ∈ k.w.frags, ∀ z, g.st ≠ .pending z)
  (rethPost x.m c)

/-- R391: `TERM` ends the wave and `TERM.team` the team. -/
def Obligations.TermResults : Prop := ∀ x : H0,
  Runs (.term x) x.h ctl (fun _ k => k.w.owesMatrix = false) (fun s t k => Retired t s.cur.wave k.w.team) ∧
  Runs (.termTeam x) x.h ctl (fun s k => k.w.team < s.nextId ∧ (∀ e ∈ s.teams, e.1 < s.nextId)
      ∧ (Tab.get? s.teams k.w.team).isSome = true)
    (fun s t k => Tab.get? t.teams k.w.team = none ∧ Tab.get? t.waves s.cur.wave = none ∨ s.cur.wave ∉ (s.team k.w.team).waves)

/-- R234, R246 to R248, R256, R270, R289, R293, R314: a load, store, atomic or query through a buffer record sets out for every lane in
bounds, each at the address the record gives it; dropped lanes read 0. -/
def Obligations.AccessesSetOut : Prop := ∀ i g, gaOf i = some g → g.sem.1.CompletesWith i g.sem.2

/-- R217, R249 to R252, R297, R298: local loads, stores and atomics, and tiles. -/
def Obligations.LocalResults : Prop := ∀ i m also, localSem i = some (m, also) → m.CompletesWith i also

/-- R253 to R256, R286, R432: waits over the lines of a range, and the seals of a context, whose list changes at issue (log entry 35) and lies in its
descriptor, at a multiple of 16,384 (R431), in the layout that log entry 45 chooses. -/
def Obligations.RangeWaits : Prop := ∀ i h u ok vas seals, rangeSem i = some (h, u, ok, vas, seals) →
  Runs i h u (fun s k => ok s k ∧ FreshIds s ∧ Reaches s k i (linesOf (vas k)) ∧ ∃ c ∈ s.ctxs, c.pasid = (s.team k.w.team).pasid)
    fun s t k => SetsOut s t k i 1 (linesOf (vas k)) ∧ (s.ownFrag t).st = .waiting ∧ (s.ownFrag t).wait = .op s.nextId
      ∧ (t.ctx (s.team k.w.team).pasid).seals = seals s k ∧ OwnFrame s t k { marks u with own := true } ∧ t.teams = s.teams
      ∧ let c := s.ctx (s.team k.w.team).pasid
        -- memory stays as it is, but that a seal list which changes is written to its descriptor
        ((∀ x, i ≠ .seal x) → (∀ x, i ≠ .unseal x) → t.mem = s.mem) ∧
        (Settled s → (∀ l ∈ s.l2, l.kind = .sealed → l.loc ≠ s.home (l.line * 128)) → c.desc % 16384 = 0 →
          (∀ a, ¬(c.desc + 0x2200 ≤ a ∧ a < c.desc + 0x2600) → t.peek a = s.peek a) ∧
          (seals s k ≠ c.seals → inDram c.desc 16384 = true → s.chart = [] →
            ∀ j < 1024, t.peek (c.desc + 0x2200 + j) = (sealBytes (seals s k)).getD j 0))

/-- R224, R253, R254, R404, R407: prefetches, code pins and the clearing of a count, before the events of its clock, complete at issue. -/
def Obligations.IssueEffects : Prop := ∀ i h u ok also, cacheSem i = some (h, u, ok, also) →
  Runs i h u ok fun s t k => also s t k ∧ OwnFrame s t k (marks u) ∧ t.teams = s.teams

/-- R284, R285: the placement instructions send one request to the bearing's descriptor. -/
def Obligations.PlacementResults : Prop := ∀ i m also, placeSem i = some (m, also) → m.CompletesWith i also

/-- R360 to R362, R369, R370, R401, R403: queues, counts and the handler's captured operands. -/
def Obligations.QueueResults : Prop := ∀ s i m also, queueSem s i = some (m, also) → m.CompletesAt i also s

/-- R33, R157, R158: `XCHG` sets an arrival out, for which a fragment with a region entry to make waits; two arrivals of one key and context exchange the
lanes in both masks; an arrival without a deposit of its key deposits itself where an entry is free and none waits before it; after 262,144 clocks it is
matched no more, but withdrawn with its own values. That the mirror is written at the completion is the choice of log entry 44, and that an arrival which is matched no more is not ready, with `stalled`
set, is the model's form of log entry 3. That an arrival which finds its deposit matches it at once, though an earlier arrival still waits at the mailbox,
is the choice of log entry 61: the manual takes arrivals one at a time in their order. -/
def Obligations.Exchanges : Prop := (∀ x, (xchgSem x).1.CompletesWith (.xchg x) (xchgSem x).2) ∧
  ∀ (s : State) (x : Xch), HasMail s x →
  (∀ y, HasMail s y → x.deposited = false → InTime s x → InTime s y → s.deposit x = some y →
    ∃ t, exec (.xchgArrival x.id) s = .next t ∧ (x.wave ≠ y.wave → Swapped t x y) ∧ Swapped t y x ∧ t.mail = s.mail.filter fun z => z.id ≠ x.id ∧ z.id ≠ y.id) ∧
  (x.deposited = false → InTime s x → (∀ y ∈ s.mail, y.deposited = true → ¬(y.pasid = x.pasid ∧ y.key = x.key)) →
    (s.mail.filter fun y => y.deposited && y.box == x.box).length < Config.mailEntries →
    (∀ y ∈ s.mail, y.box = x.box → y.deposited = false → y.id ≠ x.id → y.at? = none) →
    ∃ t, exec (.xchgArrival x.id) s = .next t ∧ t.waves = s.waves ∧ ∃ y ∈ t.mail, y = { x with deposited := true, at? := some (x.at?.getD s.clock) }) ∧
  (∀ y, s.deposit x = some y → InTime s y) ∧
  (∀ c, x.at? = some c → c + 262144 ≤ s.clock →
    (x.deposited = false → exec (.xchgArrival x.id) s = .next { s with stalled := true }) ∧
    ∃ t, exec (.xchgWithdrawal x.id) s = .next t ∧ Swapped t x { x with mask := 0 } ∧ t.mail = s.mail.filter fun z => z.id ≠ x.id)

/-- R165 to R186: matrix instructions that a member issues are bound, dropped, or accepted in order. That a dropped operation reads no operand, so that a
dropped `MXLOOP` has no address checked, is read so in log entry 48; the sign of an `ADRAIN`'s offset is the choice of log entry 76. -/
def Obligations.MatrixResults : Prop := ∀ s i m also, matrixSem s i = some (m, also) → m.CompletesAt i also s

/-- R167: `MXBIND.rel` leaves the quad; in an unbound wave it does nothing. -/
def Obligations.MatrixRelease : Prop := ∀ x : H0, Runs (.mxbindRel x) x.h ctl (fun _ k => k.w.owesMatrix = false) fun s t k =>
  (t.wave s.cur.wave).mx = none ∧ ((t.wave s.cur.wave).frag s.cur.entry).pc = k.f.pc + s.cur.step ∧ t.mem = s.mem
    ∧ ∀ m, k.w.mx = some m → ∀ q, (t.team k.w.team).quad? m.first = some q → q.part = true

/-- R176, R184: an accepted `AZERO` or `AMOV` takes effect when it is its member's oldest. -/
def Obligations.AccumulatorEffects : Prop := ∀ (s : State) (id : Nat) (w : Wave) (m : Member) (p : AccOp) (r : List AccOp),
  Tab.get? s.waves id = some w → w.away = false → w.mx = some m → m.pend = p :: r → (∀ i, p ≠ .quad i) →
  ∃ t m', exec (.accumulatorEffect id) s = .next t ∧ (t.wave id).mx = some m' ∧ m'.pend = r ∧ m'.n = m.n ∧ m'.h = m.h ∧
    (∀ n, n ≠ id → t.wave n = s.wave n) ∧ t = { s with waves := t.waves } ∧
    match p with
    | .azero d n => (∀ a, d ≤ a → a < d + n → m'.accOf a = []) ∧ ∀ a, (a < d ∨ d + n ≤ a) → m'.accOf a = m.accOf a
    | .amov d part mask v => (∀ a, a ≠ d → m'.accOf a = m.accOf a) ∧
        ∀ l < 64, (m'.accOf d).num (256 * part + 4 * l) 4 = if mask.getLsbD l then (laneAt v l).toNat else (m.accOf d).num (256 * part + 4 * l) 4
    | .quad _ => False

/-- R176 to R178, R181: a matched operation's step starts on all four arrays, or the operation of no steps completes; a step in progress
completes, and the last one completes the operation, which leaves the quad and its members. -/
def Obligations.MatrixSteps : Prop := ∀ (s : State) (team first : Nat) (q : Quad) (o : QuadOp), Matched s team first q o →
  MembersOnce s team first → (q.ops.map QuadOp.i).Nodup →
  let input (w : Wave) : StepIn := stepIn w (s.lmem team) o.next (Tab.getD (.step 0 0 false none) o.who w.num)
  let base := if o.hi then 4 else 0
  let done (t : State) : Prop := (∃ q', (t.team team).quad? first = some q' ∧ q'.ops = q.ops.tail) ∧
    ∀ w ∈ s.members team first, ((t.wave w.id).mx.map Member.pend) = (w.mx.map fun m => m.pend.tail)
  let reads (w : Wave) : List (Nat × Nat) :=
    ((Tab.get? o.who w.num).map (stepReadsLocal (if (snapOf o.snap).planes then 64 else 32) o.next)).getD []
  -- an operation of no steps takes no array clock and reads no byte
  (o.steps = 0 → ∃ t, exec (.matrixStepStart team first) s = .next t ∧ done t ∧ t.mem = s.mem
    ∧ ∀ w ∈ s.members team first, ∀ m, w.mx = some m → (t.wave w.id).mx = some { m with pend := m.pend.tail }) ∧
  -- no switch holds its core, the arrays' clock is enabled (R437), and nothing before it still writes the bytes that a member reads
  (o.busy = false → o.steps ≠ 0 → s.coreClock = true → (∀ w ∈ s.members team first,
      s.mayIssue w.core = true ∧ s.clash team false (reads w) = false ∧ s.draining w.id (reads w) = false) →
    ∃ t, exec (.matrixStepStart team first) s = .next t ∧
      (∃ q', (t.team team).quad? first = some q' ∧ q'.ops = { o with busy := true } :: q.ops.tail)
        -- member w's accumulators take its A against each member's B
        ∧ ∀ w ∈ s.members team first, ∀ m, w.mx = some m → ∃ m', (t.wave w.id).mx = some m' ∧ m'.pend = m.pend ∧
            (∀ j v, (s.members team first)[j]? = some v →
              m'.accOf (base + j) = stepAcc (snapOf o.snap) (m.accOf (base + j)) (input w) (input v)) ∧
            ∀ a, (a < base ∨ base + 4 ≤ a) → m'.accOf a = m.accOf a) ∧
  (o.busy = true → ∃ t, exec (.matrixStepCompletion team first) s = .next t ∧
    (o.next + 1 = o.steps → done t) ∧
    (o.next + 1 ≠ o.steps → ∃ q', (t.team team).quad? first = some q' ∧ q'.ops = { o with busy := false, next := o.next + 1 } :: q.ops.tail))

/-- R112, R186, R252, R312: a drain's local writes are made at its completion; a filling tile is ready once its rounds are done. -/
def Obligations.LocalCompletions : Prop :=
  (∀ (s : State) (wave tile : Nat), (Tab.get? s.waves wave).isSome = true → tile ∈ (s.wave wave).tfill →
    ∃ t, exec (.tileFillCompletion wave tile) s = .next t ∧ (t.wave wave).tfill = (s.wave wave).tfill.erase tile
      ∧ t = { s with waves := t.waves } ∧ (t.wave wave).t = (s.wave wave).t) ∧
  ∀ (s : State) (wave : Nat) (w : Wave) (o : Op), Tab.get? s.waves wave = some w →
  s.ops.find? (fun o => o.wave == wave && isDrain o) = some o → o.dead = false → (Tab.get? s.teams w.team).isSome = true →
  s.clash w.team true (o.lbytes.map fun b => (b.1, 1)) = false →
  ∃ t, exec (.adrainCompletion wave) s = .next t ∧ t.ops = s.ops.filter (fun x => x.id ≠ o.id)
    ∧ (∀ a, (∀ b ∈ o.lbytes, b.1 ≠ a) → (t.team w.team).lmem.get a = (s.team w.team).lmem.get a)
    ∧ ((o.lbytes.map Prod.fst).Nodup → ∀ b ∈ o.lbytes, (t.team w.team).lmem.get b.1 = b.2)
    ∧ (t.wave wave).flags = if o.fail = 1 then w.flags ||| 1 else w.flags

/-- R188 to R200, R209: opening and closing a proposal. -/
def Obligations.ProposalResults : Prop := ∀ s i m also, propSem s i = some (m, also) → m.CompletesAt i also s


/-- R335 to R337: the messages of a grid barrier: a team's to its die, a die's to the package, whose last one ends the round, and the
release to a die, whose teams go on. -/
def Obligations.GridBarrierSteps : Prop := ∀ (s : State) (launch die team : Nat),
  (∀ t, Tab.get? s.teams team = some t → t.id = team → t.onCore = true → team ∉ (s.core t.core).shadow → t.gbSent = false → t.gb ≠ [] →
    (∀ w ∈ t.waves, (s.wave w).live = true → w ∈ t.gb) →
    ∃ u, exec (.gridBarrierTeamMessage team) s = .next u ∧ (u.team team).gbSent = true ∧ team ∈ (u.gbar t.launch).teams ∧ u.waves = s.waves) ∧
  (die ∉ (s.gbar launch).dies → (∃ t ∈ s.teamsOf launch, t.onCore = true ∧ t.core / 40 = die) →
    (∀ t ∈ s.teamsOf launch, t.onCore = true → t.core / 40 = die → t.id ∈ (s.gbar launch).teams) →
    ∃ u, exec (.gridBarrierDieMessage launch die) s = .next u ∧ u.waves = s.waves ∧
      -- the last die of the launch to tell the package ends the round
      if (∀ t ∈ s.teamsOf launch, t.id ∈ (s.gbar launch).teams ∧ (t.core / 40 = die ∨ t.core / 40 ∈ (s.gbar launch).dies)) ∧ (s.gbar launch).rels = []
      then (u.gbar launch).round = (s.gbar launch).round + 1 ∧ (u.gbar launch).teams = [] ∧ (u.gbar launch).dies = [] ∧
        ∀ t ∈ s.teamsOf launch, t.core / 40 ∈ (u.gbar launch).rels
      else die ∈ (u.gbar launch).dies ∧ (u.gbar launch).round = (s.gbar launch).round ∧ (u.gbar launch).teams = (s.gbar launch).teams) ∧
  (die ∈ (s.gbar launch).rels →
    ∃ u, exec (.gridBarrierRelease launch die) s = .next u ∧ die ∉ (u.gbar launch).rels ∧
      ∀ t, Tab.get? s.teams team = some t → t.id = team → t.launch = launch → t.core / 40 = die → t.gbSent = true →
        team ∉ (s.gbar launch).teams → (u.team team).gb = [] ∧ (u.team team).gbSent = false)

/-- R221, R339, R341 to R344: the engine starts the head of its queue, moves it in pieces of 16 bytes in ascending order, and retires it with
its number, its first error recorded, while no switch holds its core and its clock is enabled (R422, R437). A piece goes between global and local memory
or within global memory, with a barrier object's countdown; a read of a parked line is a reader's, and a store to one unparks it. -/
def Obligations.CopyEngine : Prop := ∀ (s : State) (c : Copy), s.mayIssue c.core = true → s.coreClock = true →
  ((s.queued c.core).head? = some c → (s.team c.team).loc ≠ .displaced → ((rqLocal c.rq).isSome = true → (s.entries c.core).length < 16) →
    ∃ t, exec (.copyStart c.core) s = .next t ∧ { c with running := true } ∈ t.copies ∧ t.mem = s.mem ∧ t.waves = s.waves) ∧
  (s.copies.find? (fun x => x.id == c.id) = some c → c.moves = true →
    ∃ t, exec (.copyLocalWrite c.id) s = .next t ∧
      (∃ x ∈ t.copies, x.id = c.id ∧ (x.done = c.done + 16 ∨ (x.done = c.done ∧ (x.wait ≠ [] ∨ x.pwait ≠ [])))) ∧
      let src := rqSrc c.rq + BitVec.ofNat 64 c.done
      let dst := rqDst c.rq + BitVec.ofNat 64 c.done
      let moved (err : Nat) : Prop := ∃ x ∈ t.copies, x.id = c.id ∧ x.done = c.done + 16 ∧ x.err = if c.err = 0 then err else c.err
      -- from global to local memory: the bytes at the point of order, or zeros with the poison error; then the barrier object's countdown
      (∀ pa, rqKind c.rq = 0 → (Tab.get? s.teams c.team).isSome = true → CopySide s c src false pa → s.refuses c.asker pa = none →
        (rqPolicy c.rq = 4 ∨ Settled s) → ((s.chartOf pa).isSome = true → pa % 16 = 0) →
        let lo := localSide (rqDst c.rq) + c.done
        let o := rqBarrier c.rq
        let b := s.barObj c.team o
        let got := c.source s pa
        let x (a : Nat) : Byte := if got.2 then 0 else got.1.getD (a - lo) 0
        let put (a : Nat) : Prop := lo ≤ a ∧ a < lo + 16
        let lmem := (t.team c.team).lmem
        (rqBar c.rq = false → moved (if got.2 then 18 else 0)) ∧
        (∀ a, put a → (rqBar c.rq = true → a < o ∨ o + 16 ≤ a) → lmem.get a = x a) ∧
        (∀ a, ¬put a → (rqBar c.rq = true → a < o ∨ o + 16 ≤ a) → lmem.get a = (s.team c.team).lmem.get a) ∧
        (rqBar c.rq = true → (lo + 16 ≤ o ∨ o + 16 ≤ lo) → t.barObj c.team o = boFlip b (boArrived b) (boBytes b - 16))) ∧
      -- from local to global memory: the bytes stand at their point of order, unparked, and no other byte of this device's memory changes
      (∀ pa, rqKind c.rq = 1 → CopySide s c dst true pa → pa % 16 = 0 → Settled s → NoSpread s pa →
        moved 0 ∧ t.chartOf pa = none ∧ t.teams = s.teams ∧ ∀ a, remote a = false ∨ (pa ≤ a ∧ a < pa + 16) → t.peek a =
          if pa ≤ a ∧ a < pa + 16 then (s.team c.team).lmem.get (localSide (rqSrc c.rq) + c.done + (a - pa)) else s.peek a) ∧
      -- from global to global memory
      (∀ pa pb, rqKind c.rq = 2 → CopySide s c src false pa → s.refuses c.asker pa = none → (c.source s pa).2 = false → pa % 16 = 0 →
        CopySide s c dst true pb → pb % 16 = 0 → Settled s → NoSpread s pb →
        moved 0 ∧ t.chartOf pb = none ∧ t.teams = s.teams ∧ ∀ a, remote a = false ∨ (pb ≤ a ∧ a < pb + 16) → t.peek a =
          if pb ≤ a ∧ a < pb + 16 then (c.source s pa).1.getD (a - pb) 0 else s.peek a) ∧
      -- a read of a parked line whose reader is not declared is refused and moves nothing
      (∀ pa, rqKind c.rq ≠ 1 → CopySide s c src false pa → (s.refuses c.asker pa).isSome = true →
        (rqKind c.rq ≠ 0 → ∃ pb, CopySide s c dst true pb) → moved 37 ∧ t.teams = s.teams ∧ ∀ a, t.peek a = s.peek a)) ∧
  (s.copies.find? (fun x => x.id == c.id) = some c → c.running = true → c.away = false → rqLen c.rq ≤ c.done →
    ∃ t, exec (.copyRetirement c.id) s = .next t ∧ t.copies = s.copies.filter (fun x => x.id ≠ c.id) ∧
      ((∃ x ∈ s.ctxs, x.pasid = c.pasid) →
        let v := (t.ctx c.pasid).tlc c.c
        (c.k ≤ v.v ∨ c.k ∈ v.done) ∧ (c.err ≠ 0 → 0 < c.k → v.e ≠ 0 ∧ v.e ≤ c.k)))

/-- R225, R229, R237, R240, R253, R268, R270, R273, R279, R284 to R286, R291: a request that may be served is answered, or stays for the second hold of an
`ATOM.X2`, the next CAS of a remote atomic that the unit emulates, which writes only where it finds the value read, or the copies that do not hold its
bytes or its entry yet. A read, but one of type 2 of host memory, takes the value at the point of order, of a parked line that of the copy its reader is
served from, or is refused where the line is parked and its reader not declared. A request over a line does what its instruction does there. All this
under the routes that the request read when it was sent. -/
def Obligations.RequestsAreServed : Prop := ∀ (s : State) (r : Req) (o : Op), FirstRequest s r o →
  let u := s.asSent r
  ∃ t, exec (.sliceRequest r.id) s = .next t ∧
    ((∃ p ∈ t.reps, p.id = r.id ∧ p.op = r.op ∧ p.core = r.core) ∨ ∃ q ∈ t.reqs, q.id = r.id ∧
      ((∃ v, q.kind = .atom v true) ∨
        ((u.emulates o.instr r.pa = true ∨ ∃ a b c d, r.kind = .cas a b c d) ∧ ∃ a b c d, q.kind = .cas a b c d) ∨
        (∃ b d a m, q.kind = .spread b d a m) ∨ q.kind = .told)) ∧
    (∀ l rest old g b, r.kind = .cas (l :: rest) old (some g) b → u.cut r.pa = none → remote l.pa = true →
      let m := (u.invalLine r.pa).mem
      t.mem = (if m.num l.pa o.size = g then m.setNum l.pa o.size (casNew o.instr b g l) else m) ∧
      -- no replica of the line holds the value before (R237)
      (m.num l.pa o.size = g → ∀ x ∈ t.l1 ++ t.l2, x.kind = .sealed → x.line ≠ l.pa / 128)) ∧
    (r.kind = .line → Settled u → Quiet u r.pa → LineServed u t r o) ∧
    -- a changed bearing entry: one more cached copy takes it, and when all hold it the request is answered (R273)
    (r.kind = .told → if u.staleBearings o.pasid o.index = [] then Answers t r .done
      else ∃ c ∈ u.staleBearings o.pasid o.index, t.bears = u.bears.map fun x => if x = c then { x with e := u.bearing o.pasid o.index } else x) ∧
    (∀ f, r.kind = .read f → r.pa % 32 = 0 → Quiet u r.pa → ¬(o.mtype = 2 ∧ memKind r.pa = .host) →
      (∀ d, u.refuses (o.asker u) r.pa = some d → ∃ p ∈ t.reps, p.id = r.id ∧ p.kind = .refused 37 d.1 d.2) ∧
      (u.refuses (o.asker u) r.pa = none → ∃ p ∈ t.reps, p.id = r.id ∧ ∃ bs b g, p.kind = .data bs b g ∧
        match u.chartOf r.pa with
        | some e => (bs, b) = u.readerBytes e o.core r.pa
        | none => ((u.ctx o.pasid).sealed (o.vaOf r.pa) = false ∨ u.localReplica o r.pa = none) → bs = u.peeks r.pa 32 ∧ b = u.poisoned r.pa))

/-- R226, R235, R237, R262 to R266, R275 to R277, R289 to R292, R300, R307: a store changes the bytes its lanes store to, to what one of them stores, and no
other byte; of bearing 0, or with a bearing that is ignored or finds no room in the chart, it leaves its line unparked, else parked at the berth of its
readers, at the next level outward that has room, at a full one refused under `FAULT`, and at a fan-out line written to one copy after another. The lanes
of an atomic or reduction are applied one after another where they address one location, each answered with the value before it; a reduction of an
unparked line joins the core's update-only line. -/
def Obligations.StoresAndAtomicsLand : Prop := ∀ (s : State) (r : Req) (o : Op), FirstRequest s r o → Quiet s r.pa →
  -- the routing that the request read when it was sent still stands
  s.asSent r = s →
  -- stores
  (∀ ls, r.kind = .write ls → ls ≠ [] → InSector ls o.size r.pa → (∀ l ∈ ls, (s.ctx o.pasid).sealed l.va = false) →
    let e := s.bearingAt (s.home r.pa / 48) o.pasid o.bear
    let cores := s.readerCores o.pasid e
    let berth := berthOf cores
    let ordinary : Prop := o.bear = 0 ∨ remote r.pa = true ∨ o.mtype = 2 ∨ bValid e = false ∨ cores = [] ∨ s.chartFull o.pasid r.pa = true
    let acked (t : State) : Prop := ∃ p ∈ t.reps, p.id = r.id ∧ ∃ bs, p.kind = .ack bs
    (s.chartOf r.pa = none → o.bear = 0 → ¬(o.mtype = 2 ∧ remote r.pa = true) → (findLine s.l2 (s.home r.pa) r.pa).isSome = true →
      ∃ t, exec (.sliceRequest r.id) s = .next t ∧ StoresTo (fun _ => True) s t ls o.size) ∧
    (ordinary → Settled s → NoSpread s r.pa →
      ∃ t, exec (.sliceRequest r.id) s = .next t ∧ StoresTo (fun a => remote a = false) s t ls o.size ∧ t.chartOf r.pa = none ∧ acked t) ∧
    (¬ordinary → Settled s → NoSpread s r.pa → (∀ c, s.chartOf r.pa = some c → c.berth < 2 → (s.berthLine c).isSome = true) →
      -- a copy of a fan-out line takes the bytes in a step of its own
      (s.inPlace (o.asker s) o.bear r.pa = true → s.fanOut r.pa ≠ [] →
        ∃ t, exec (.sliceRequest r.id) s = .next t ∧ (∀ a, t.peek a = s.peek a) ∧ ∃ q ∈ t.reqs, q.id = r.id ∧ ∃ bs,
          q.kind = .spread bs (s.fanOut r.pa) (.ack bs) false ∧ (∀ x ∈ bs, ∃ k ∈ ls, k.pa ≤ x.1 ∧ x.1 < k.pa + o.size ∧
            x.2 = BitVec.ofNat 8 (k.data.toNat / 256 ^ (x.1 - k.pa))) ∧ ∀ l ∈ ls, ∀ j < o.size, ∃ x ∈ bs, x.1 = l.pa + j) ∧
      ((s.inPlace (o.asker s) o.bear r.pa = true ∧ s.fanOut r.pa = []) ∨ s.fullAt o.pasid r.pa berth = [] ∨ (bPolicy e ≠ 1 ∧ bPolicy e ≠ 2) →
        (s.inPlace (o.asker s) o.bear r.pa = true → s.fanOut r.pa = []) →
        ∃ t, exec (.sliceRequest r.id) s = .next t ∧ StoresTo (fun a => remote a = false) s t ls o.size ∧ acked t ∧
          ∃ c, t.chartOf r.pa = some c ∧ c.pasid = o.pasid ∧ c.bear = o.bear ∧ c.place =
            (if s.inPlace (o.asker s) o.bear r.pa = true ∨ s.fullAt o.pasid r.pa berth = [] then berth
             else if s.fullAt o.pasid r.pa berth.outward = [] then berth.outward else .stack)) ∧
      (s.inPlace (o.asker s) o.bear r.pa = false → bPolicy e = 2 → s.fullAt o.pasid r.pa berth ≠ [] →
        ∃ t, exec (.sliceRequest r.id) s = .next t ∧ (∀ a, t.peek a = s.peek a) ∧ t.chart = s.chart ∧
          ∃ p ∈ t.reps, p.id = r.id ∧ ∃ d0 d1, p.kind = .refused 38 d0 d1))) ∧
  -- a store or atomic in progress to a fan-out line: one more copy takes its bytes, the last one ends it (R266)
  (∀ bs ds ans more, r.kind = .spread bs ds ans more → ds ≠ [] → remote r.pa = false →
    ∃ t d, exec (.sliceRequest r.id) s = .next t ∧ d ∈ ds ∧ t.l2 = modLine s.l2 (d * 48 + sliceOf r.pa) r.pa (Line.store bs) ∧ t.mem = s.mem ∧
      (ds.erase d ≠ [] → ∃ q ∈ t.reqs, q.id = r.id ∧ q.kind = .spread bs (ds.erase d) ans more) ∧
      (ds.erase d = [] → more = false → Answers t r ans) ∧
      (ds.erase d = [] → ∀ vals po, more = true → ans = .old vals po → ∃ q ∈ t.reqs, q.id = r.id ∧ q.kind = .atom vals true)) ∧
  -- atomics and reductions, at the point of order or in the remote memory itself
  (∀ ls hi, (r.kind = .atom ls hi ∨ (r.kind = .red ls ∧ hi = false)) → InSector ls o.size r.pa → (∀ l ∈ ls, l.pa % o.size = 0) →
    (hi = true → o.late = []) → (hi = false → ∀ l ∈ ls, (s.ctx o.pasid).sealed l.va = false) →
    ((∃ x, o.instr = .red x ∧ r.kind = .red ls) ∨ (globalAtomic o.instr = true ∧ r.kind = .atom ls hi ∧ s.refuses (o.asker s) r.pa = none)) →
    s.emulates o.instr r.pa = false → s.fanOut r.pa = [] → (s.chartOf r.pa = none ∨ Settled s) →
    (∀ c, s.chartOf r.pa = some c → c.berth < 2 → (s.berthLine c).isSome = true) →
    (∀ l ∈ s.l2, l.kind = .sealed → l.line = r.pa / 128 → l.loc ≠ s.home r.pa) →
    let u := if remote r.pa then s.invalLine r.pa else s
    let get (v : State) (pa n : Nat) : Nat := if remote r.pa then v.mem.num pa n else v.peekNum pa n
    let same (t : State) (lanes : List LaneAcc) : Prop := Settled s → ∀ a, remote a = false → (∀ l ∈ lanes, ¬(l.pa ≤ a ∧ a < l.pa + o.size)) → t.peek a = s.peek a
    -- one value, or one half of `ATOM.X2`
    let half : Prop := ∃ x, o.instr = .atomX2 x
    let at? (l : LaneAcc) : Nat := if hi then l.pa + 2 else l.pa
    (∀ l ∈ ls, remote l.pa = remote r.pa) →
    (∀ g, gaOf o.instr = some g → o.size = g.n → ¬half → hi = false → u.poisoned r.pa = false →
      (∀ x, o.instr = .red x → remote r.pa = true ∨ (s.chartOf r.pa).isSome = true ∨ o.pol ≠ .normal ∨ o.mtype ≠ 0) →
      let f (v : Nat) (l : LaneAcc) : Nat := globalApply o.instr v l.data % 2 ^ (8 * o.size)
      ∃ t, exec (.sliceRequest r.id) s = .next t ∧ same t ls ∧ (∀ l ∈ ls, get t l.pa o.size = chain f ls l.pa (get u l.pa o.size)) ∧
        match r.kind with
        | .red _ => Answers t r (.ack [])
        | _ => ∃ vals, Answers t r (.old vals false) ∧ vals.length = ls.length ∧ ∀ (j : Nat) (l : LaneAcc), ls[j]? = some l →
            vals[j]? = some { l with data := BitVec.ofNat 512 (chain f (ls.take j) l.pa (get u l.pa o.size)) }) ∧
    (∀ x, o.instr = .atomX2 x → o.size = 4 → u.poisoned r.pa = false →
      let f (v : Nat) (l : LaneAcc) : Nat := halfApply x hi v l.data % 2 ^ 16
      ∃ t, exec (.sliceRequest r.id) s = .next t ∧ same t ls ∧ (∀ l ∈ ls, get t (at? l) 2 = chain f ls l.pa (get u (at? l) 2)) ∧
        (∀ l ∈ ls, get t (if hi then l.pa else l.pa + 2) 2 = get u (if hi then l.pa else l.pa + 2) 2) ∧
        ∃ vals, vals.length = ls.length ∧ (if hi then Answers t r (.old vals false) else ∃ q ∈ t.reqs, q.id = r.id ∧ q.kind = .atom vals true) ∧
          ∀ (j : Nat) (l : LaneAcc), ls[j]? = some l →
            let old := chain f (ls.take j) l.pa (get u (at? l) 2)
            let got : BitVec 512 := if hi then BitVec.ofNat 512 (l.data.toNat / 2 ^ 32 % 2 ^ 16 + old * 2 ^ 16)
              else BitVec.ofNat 512 (l.data.toNat % 2 ^ 32 + old * 2 ^ 32)
            vals[j]? = some { l with data := got }) ∧
    -- a poisoned sector drops it
    (u.poisoned r.pa = true → (ls = [] → r.kind ≠ .red ls) →
      (∀ x, o.instr = .red x → remote r.pa = true ∨ (s.chartOf r.pa).isSome = true ∨ o.pol ≠ .normal ∨ o.mtype ≠ 0) →
      ∃ t, exec (.sliceRequest r.id) s = .next t ∧ same t [] ∧ match r.kind with
        | .red _ => Answers t r (.ack [])
        | _ => ∃ vals, Answers t r (.old vals true)) ∧
    -- an ordinary reduction joins the core's update-only line, and no byte changes yet
    (∀ x, o.instr = .red x → ls ≠ [] → remote r.pa = false → s.chartOf r.pa = none → o.pol = .normal → o.mtype = 0 → Settled s →
      o.size = (if x.op.w64 then 8 else 4) → findLine s.l1 o.core r.pa = none → (s.updateLine o.core o.pasid r.pa).2 = true →
      let f (v : Nat) (l : LaneAcc) : Nat := redApply x.op v (l.data.toNat % 2 ^ (8 * o.size)) % 2 ^ 64
      ∃ t, exec (.sliceRequest r.id) s = .next t ∧ same t [] ∧ Answers t r (.ack []) ∧ ∃ y ∈ t.l1, y.loc = o.core ∧ y.kind = .update ∧ y.line = r.pa / 128 ∧
        ∀ l ∈ ls, Tab.get? y.delta (l.pa % 128 / 4) = some (x.op, BitVec.ofNat 64 (chain f ls l.pa (redIdentity x.op)))))

/-- R94, R240, R243, R246, R249, R285, R287, R293, R361, R403: the last reply of an operation reaches the core: its destinations are full, with the values
it brings, or poisoned, and it is over. -/
def Obligations.RepliesFill : Prop := ∀ (s : State) (p : Rep), s.reps.find? (fun r => r.id == p.id) = some p →
  s.reps.find? (fun q => q.port == p.port && q.slice == p.slice) = some p → p.id < s.nextId → (s.ops.map Op.id).Nodup →
  ∃ t, exec (.memoryReply p.id) s = .next t ∧ (∀ q ∈ t.reps, q.id ≠ p.id) ∧
    ∀ o, s.op? p.op = some o → p.joined = [] → o.dead = false → o.nout = 1 → o.phase = .sent → o.xw = [] → o.held = [] → o.absent = [] →
      o.refused = [] → o.late = [] → o.aq = false → o.wait = false → (s.frag ⟨o.wave, s.ownerOf o⟩).wait = .none →
      (s.frag ⟨o.wave, s.ownerOf o⟩).st = .running → (Tab.get? s.waves o.wave).isSome = true → (∀ c d0 d1, p.kind ≠ .refused c d0 d1) →
      let po := o.poison || (match p.kind with
        | .data _ b _ => b
        | .old _ b => b
        | _ => false)
      let st : RegState := if po then .poison else .full
      (po = false → Delivered o p (t.wave o.wave)) ∧ (∀ x ∈ t.ops, x.id ≠ o.id) ∧ (∀ n ∈ (memDst o.instr).1, ((t.wave o.wave).vreg n).st = st) ∧
        ∀ n ∈ (memDst o.instr).2, ((t.wave o.wave).sreg o.hm n).st = st

/-- R351 to R353, R364: the distributor takes the deepest task, else the head that is next in turn; a refused record leaves its queue with an
event of kind 2. -/
def Obligations.Intake : Prop := ∀ (s : State) (part : Nat),
  ((∀ h ∈ s.heads part, Head.free s h.2.1 h.2.2) → (s.part part).dispatch.length < 16 → (Tab.get? s.parts part).isSome = true →
    (∀ k, nextTask (s.part part).tasks = some k →
      ∃ t l, exec (.launchIntake part) s = .next t ∧ t.launches = s.launches ++ [l] ∧ l.isTask = true ∧ l.depth = k.depth ∧ l.pasid = k.pasid
        ∧ l.queue = k.rootQ ∧ l.obj = tkCode k.rq ∧ (l.gx, l.gy, l.gz) = (tkX k.rq, tkY k.rq, tkZ k.rq)
        ∧ (t.part part).tasks = (s.part part).tasks.erase k ∧ (t.part part).dispatch = (s.part part).dispatch ++ [l.id]) ∧
    (∀ q r, (s.part part).tasks = [] → s.nextHead part = some (q, r) →
      ∃ t l, exec (.launchIntake part) s = .next t ∧ t.launches = s.launches ++ [l] ∧ l.isTask = false ∧ l.queue = some q ∧ l.tag = lrTag r
        ∧ l.obj = lrCode r ∧ (l.gx, l.gy, l.gz) = (lrX r, lrY r, lrZ r) ∧ l.args = (lrArgs r).toNat ∧ l.evt = r.getLsbD 248
        ∧ l.cact = lrAction r ∧ ((t.part part).queue q).rd = (((s.part part).queue q).rd + 1) % 2 ^ 64
        ∧ (t.part part).dispatch = (s.part part).dispatch ++ [l.id])) ∧
  (∀ q x c g, s.heads part = [(q, x, .refused c g)] → (s.part part).ringFull = false →
    ∃ t, exec (.launchIntake part) s = .next t ∧ ((t.part part).queue q).rd = (((s.part part).queue q).rd + 1) % 2 ^ 64
      ∧ (t.part part).evW = ((s.part part).evW + 1) % 2 ^ 64 ∧ t.launches = s.launches)

/-- R14, R15, R17, R19, R24, R354, R357: the distributor's next choice is carried out; a launch's next team starts on its core, every wave of
it at its role's entry with every lane running. -/
def Obligations.Placement : Prop := ∀ (s : State) (part : Nat) (x : Place), s.nextPlace part = some x →
  (∀ id c, x = .launch id c → (s.launch? id).isSome = true) → (∀ id cs, x = .whole id cs → (s.launch? id).isSome = true) →
  ∃ t, exec (.teamPlacement part) s = .next t ∧
    ∀ id c l, x = .launch id c → s.launch? id = some l → FreshAll s → l.isTask = false →
      ∃ tm, Tab.get? t.teams s.nextId = some tm ∧ tm.launch = l.id ∧ tm.core = c ∧ tm.loc = .resident ∧ tm.idx = l.next ∧ tm.pasid = l.pasid
        ∧ tm.tag = l.gtag ∧ tm.obj = l.obj
        ∧ ∀ w ∈ tm.waves, ∃ v, Tab.get? t.waves w = some v ∧ v.core = c ∧ v.team = s.nextId ∧ v.live = true
            ∧ ∃ r ∈ (s.objOf l.pasid l.obj).roles, ∃ f, v.frags = [f] ∧ f.pc = (s.objOf l.pasid l.obj).base + r.entry
                ∧ f.mask = (if (s.objOf l.pasid l.obj).w32 then 0xFFFFFFFF else BitVec.allOnes 64) ∧ f.st = .running

/-- R25, R354, R357: an entry that has waited 400,000 clocks holds back those behind it; a quantum tick displaces a team; a swapped wave whose
wait is over takes a slot again. -/
def Obligations.DistributorTimers : Prop := ∀ (s : State),
  (∀ part l, ((s.part part).dispatch.filterMap s.launch?).find? (fun l => !l.held && decide (l.since + 400000 ≤ s.clock)) = some l →
    ∃ t, exec (.dispatchHold part) s = .next t ∧ { l with held := true } ∈ t.launches) ∧
  (∀ part, (s.part part).readmit ≠ [] → (s.part part).headAt + 400000 ≤ s.clock → (s.part part).sw = none → (Tab.get? s.parts part).isSome = true →
    (∀ k c, s.nextPlace part ≠ some (.again k c)) → (∀ c o, s.nextPlace part ≠ some (.swap c o)) →
    ∃ t, exec (.quantumTick part) s = .next t ∧ (t.part part).headAt = (s.part part).headAt + 400000 ∧
      ∀ k, s.quantumTeam part = some k → (Tab.get? s.teams k.id).isSome = true → (t.team k.id).loc = .displaced) ∧
  (∀ wave u k, s.returnRoom wave = some u → u.freeSlot (u.wave wave).core (u.wave wave).q = some k →
    let hs := u.slotMates (u.wave wave)
    ∃ t, exec (.swapReturn wave) s = .next t ∧ t.mem = u.mem ∧ t.nextId = u.nextId ∧
      -- the waves of the slot, a native wave or one or both halves, stand in slot k of their quarter with their saved state; entries are new
      ((hs.map Wave.id).Nodup → (hs.length = 1 ∨ (hs.length = 2 ∧ (hs.map Wave.half = [0, 1] ∨ hs.map Wave.half = [1, 0]) ∧ ∀ h ∈ hs, h.w32 = true)) →
        (∀ h ∈ hs, Tab.get? u.waves h.id = some h ∧ h.half ≤ 1 ∧ h.frags ≠ [] ∧ h.core = (u.wave wave).core ∧ h.q = (u.wave wave).q
          ∧ h.swapped = true ∧ h.away = false) →
        ∀ h ∈ hs, let x := t.wave h.id
          x = { h with swapped := false, slot := k, frags := x.frags, h := x.h } ∧
            (x.frags.map fun f => { f with entry := 0 }) = h.frags.map fun f => { f with entry := 0 }))

/-- R290, R349, R350, R356, R364 to R366, R420, R430: the registers of a partition's window and the Sextant's; offsets that are not listed ignore a write. A
doorbell of a disabled queue enables it, or refuses it with an event of kind 3. That the event ring's and command ring's bases are stored as written,
whatever their low bits, is log entry 41's choice. -/
def Obligations.WindowRegisters : Prop := ∀ (s : State) (part q : Nat) (v : BitVec 64), (Tab.get? s.parts part).isSome = true →
  let p := s.part part
  (∃ t, exec (.eventSize part v) s = .next t ∧ (t.part part).evSize = if v.toNat % 16 ≤ 10 then v.toNat % 16 else p.evSize) ∧
  (∃ t, exec (.eventReadIndex part v) s = .next t ∧ (t.part part).evR = v.toNat) ∧
  (∃ t, exec (.switchAborts part v) s = .next t ∧ (t.part part).aborts = if v = 0 then 0 else p.aborts) ∧
  (∃ t, exec (.eventsLost part v) s = .next t ∧ (t.part part).lost = if v = 0 then 0 else p.lost) ∧
  (∃ t, exec (.descriptor part q v) s = .next t ∧ ((t.part part).queue q).reg = if (p.queue q).en then (p.queue q).reg else v &&& 0xFFFFFFFFC1) ∧
  -- the same registers at their offsets, and those of no other meaning
  (part < 64 →
    exec (.registerWrite false (part * 65536 + 0x228) v) s = exec (.eventSize part v) s ∧
    exec (.registerWrite false (part * 65536 + 0x238) v) s = exec (.eventReadIndex part v) s ∧
    exec (.registerWrite false (part * 65536 + 0x240) v) s = exec (.switchAborts part v) s ∧
    exec (.registerWrite false (part * 65536 + 0x248) v) s = exec (.eventsLost part v) s ∧
    exec (.registerWrite false (part * 65536 + 0x250) v) s = exec (.drain part v) s ∧
    exec (.registerWrite false (part * 65536 + 0x200) v) s = exec (.vacate part v) s ∧
    (q < 64 → exec (.registerWrite false (part * 65536 + 0x400 + 8 * q) v) s = exec (.descriptor part q v) s ∧
      exec (.registerWrite false (part * 65536 + 8 * q) v) s = exec (.doorbell part q) s) ∧
    (∃ t, exec (.registerWrite false (part * 65536 + 0x220) v) s = .next t ∧ (t.part part).evBase = v) ∧
    -- the further words of the vacate register
    (∃ t, exec (.registerWrite false (part * 65536 + 0x208) v) s = .next t ∧ (t.part part).vac.extractLsb' 64 64 = v ∧
      (t.part part).vac.extractLsb' 0 64 = p.vac.extractLsb' 0 64 ∧ (t.part part).vac.extractLsb' 128 64 = p.vac.extractLsb' 128 64) ∧
    (∃ t, exec (.registerWrite false (part * 65536 + 0x210) v) s = .next t ∧ (t.part part).vac.extractLsb' 128 64 = v &&& 0xFFFFFFFF ∧
      (t.part part).vac.extractLsb' 0 128 = p.vac.extractLsb' 0 128)) ∧
  (∀ off, (64 ≤ off / 65536 ∨ let o := off % 65536
      4096 ≤ o ∨ o % 8 ≠ 0 ∨ (0x200 ≤ o ∧ o ∉ [0x200, 0x208, 0x210, 0x220, 0x228, 0x238, 0x240, 0x248, 0x250] ∧ (o < 0x400 ∨ 0x600 ≤ o))) →
    exec (.registerWrite false off v) s = .next s) ∧
  (∃ t, exec (.registerWrite true 0 v) s = .next t ∧ t.sx = { s.sx with base := v }) ∧
  (∃ t, exec (.registerWrite true 8 v) s = .next t ∧ t.sx = { s.sx with size := v.toNat % 16 }) ∧
  (∀ off, off ∉ [0, 8, 0x10] → exec (.registerWrite true off v) s = .next s) ∧
  (∃ t, exec (.registerWrite true 0x10 v) s = .next t ∧ t.sx = { s.sx with wr := v.toNat }) ∧
  -- a doorbell of an enabled queue takes the write index and the enable of its descriptor; of an invalid descriptor register, nothing
  ((p.queue q).reg.getLsbD 0 = false → exec (.doorbell part q) s = .next s) ∧
  ((p.queue q).reg.getLsbD 0 = true → (p.queue q).en = true → ∃ t, exec (.doorbell part q) s = .next t ∧
    let d := BitVec.ofNat 512 ((s.recall (p.queue q).desc).peekNum (p.queue q).desc 64)
    ((t.part part).queue q).wr = dqWr d ∧ ((t.part part).queue q).en = dqEn d ∧ ((t.part part).queue q).rd = (p.queue q).rd) ∧
  -- a doorbell of a disabled queue reads its descriptor, whose line is recalled (R290): nothing more unless that enables it; enabled with the descriptor's fields, or refused with cfgerr
  ((p.queue q).reg.getLsbD 0 = true → (p.queue q).en = false →
    let a := (p.queue q).desc
    let u := s.recall a
    let d := BitVec.ofNat 512 (u.peekNum a 64)
    let good := canonical (dqBase d) = true ∧ (dqBase d).toNat % 64 = 0 ∧ 4 ≤ dqSize d ∧ 0 < dqWdog d ∧ dqWdog d ≤ 60000
      ∧ (∃ c ∈ s.ctxs, c.pasid = dqPasid d ∧ c.part = part) ∧ (dqWr d + 2 ^ 64 - dqRd d) % 2 ^ 64 ≤ 2 ^ dqSize d
    (dqEn d = false → exec (.doorbell part q) s = .next u) ∧
    (dqEn d = true → good → ∃ t, exec (.doorbell part q) s = .next t ∧ (t.part part).queue q =
        { p.queue q with en := true, base := (dqBase d).toNat, wr := dqWr d, rd := dqRd d, pasid := dqPasid d, wdog := dqWdog d, prio := dqPrio d
                         size := dqSize d }
      ∧ (s.chartOf (a + 33) = none → s.cut (a + 33) = none → t.peek (a + 33) = u.peek (a + 33) &&& 0xE7)) ∧
    (dqEn d = true → ¬good → ∃ t, exec (.doorbell part q) s = .next t ∧ (t.part part).queue q = p.queue q
      ∧ (p.ringFull = false → (t.part part).evW = (p.evW + 1) % 2 ^ 64)
      ∧ (s.chartOf (a + 33) = none → remote (a + 33) = false → t.peek (a + 33) = u.peek (a + 33) ||| 0x08)))

/-- What a drain of a partition leaves (R366): it and its descendants have no team, launch, task, context or enabled queue, and one event of kind 4 is
posted, or held while the ring is full. -/
def Drained (s t : State) (part : Nat) : Prop :=
  let ks := s.family part
  (∀ e ∈ t.teams, e.2.part ∉ ks) ∧ (∀ l ∈ t.launches, l.part ∉ ks) ∧ (∀ c ∈ t.ctxs, c.part ∉ ks) ∧
  (∀ k ∈ ks, (t.part k).dispatch = [] ∧ (t.part k).readmit = [] ∧ (t.part k).tasks = [] ∧ ∀ q, ((t.part k).queue q).en = false) ∧
  ((s.part part).ringFull = false → (t.part part).evW = ((s.part part).evW + 1) % 2 ^ 64) ∧
  ((s.part part).ringFull = true → ∃ x, (t.part part).evHeld = (s.part part).evHeld ++ [x] ∧ x.kind = 4)

/-- With nothing under way and nothing cached, the enable (bit 5 of byte 33) of every queue of the partition is clear in its descriptor, and bit 4 of an
expired one's is set (R365, R366), but where a context's seal list lies there. -/
def Marked (s t : State) (part : Nat) (expired : List Nat) : Prop :=
  s.ops = [] → s.l1 = [] → s.l2 = [] → s.chart = [] → ∀ e ∈ (s.part part).queues, e.2.reg.getLsbD 0 = true ∨ e.1 ∈ expired →
    let a := e.2.desc + 33
    remote a = false → (∀ c ∈ s.ctxs, ¬(c.desc + 0x2200 ≤ a ∧ a < c.desc + 0x2600)) →
      (t.peek a).getLsbD 5 = false ∧ (e.1 ∈ expired → (t.peek a).getLsbD 4 = true)

/-- R356, R365, R366, R420: a vacate displaces the teams on its cores and ends when they are saved; a drain, ordered or for expired watchdogs,
leaves the partition and its descendants without teams, launches or enabled queues, in their descriptors too, and posts its event, and a watchdog's marks
the expired queues in theirs; during a switch both wait. -/
def Obligations.VacatesAndDrains : Prop := ∀ (s : State) (part : Nat) (v : BitVec 64), (Tab.get? s.parts part).isSome = true →
  let p := s.part part
  (p.vacBusy = true → exec (.vacate part v) s = .next s) ∧
  (p.vacBusy = false → ∃ t, exec (.vacate part v) s = .next t ∧ (t.part part).vacBusy = true ∧ (t.part part).vac.extractLsb' 0 64 = v
    ∧ (p.sw.isSome = true → (t.part part).vacWant = true)
    ∧ (p.sw = none → ∀ c < 160, v.getLsbD c = true → c < 64 → s.partOfCore c = some part → (t.core c).vacating = true)) ∧
  (p.vacBusy = true → p.vacWant = false →
    (∀ e ∈ s.teams, e.2.part = part → e.2.loc = .displaced → (s.core e.2.core).vacating = false) →
    ∃ t, exec (.vacateComplete part) s = .next t ∧ (t.part part).vacBusy = false) ∧
  (v ≠ 1 → exec (.drain part v) s = .next s) ∧
  (p.sw.isSome = true → ∃ t, exec (.drain part 1) s = .next t ∧ (t.part part).drainHost = true) ∧
  (p.sw = none → ∃ t, exec (.drain part 1) s = .next t ∧ Drained s t part ∧ Marked s t part []) ∧
  (p.sw = none → s.expired part ≠ [] → ∃ t, exec (.watchdogExpiry part) s = .next t ∧ Drained s t part ∧
    Marked s t part (s.expired part)) ∧
  (∀ w, p.sw = some w → s.expired part ≠ [] → (∃ q ∈ s.expired part, q ∉ p.drainWant.getD []) →
    ∃ t, exec (.watchdogExpiry part) s = .next t ∧ ∃ l, (t.part part).drainWant = some l ∧ ∀ q ∈ s.expired part, q ∈ l)

/-- R430 to R432, R434 to R437, R439: the Sextant's commands end with their status; those that succeed have their effect, and reports stand in host
memory. Which operand words a command takes, `DEVICE_CONFIGURATION`'s among them, is read from R431 in log entry 28; that a firmware image lies at a
host address in log entry 29; whether one is good, and the key and certificate of the device, are free values of log entry 8, which also chooses the
layout of a quote and takes the padding of its signature from outside the manual. -/
def Obligations.SextantCommands : Prop := ∀ (s : State) (c : SxOps), SxReady s →
  -- the end of a command: its status byte in host memory and the read index
  (∀ st r, (s.sxDone st r).sx.rd = (s.sx.rd + 1) % 2 ^ 64 ∧ (s.sxDone st r).mem.get (2 ^ 51 + s.sxAddr + 1) = BitVec.ofNat 8 st ∧
    ∀ n, r = some n → (s.sxDone st r).mem.num (2 ^ 51 + s.sxAddr + 56) 8 = n % 2 ^ 64) ∧
  SxRefused .unknownOpcode s 2 ∧
  (c.w1.toNat ≤ 63 → (s.part c.w1.toNat).valid = true → s.ownClusters c.w1.toNat ≠ 0 → c.w2.toNat ≤ 1 → c.w3.toNat < 2 ^ 20 →
    s.hasCtx c.w3.toNat = false → inDram c.w4.toNat 16384 = true → c.w4.toNat % 16384 = 0 →
    ∃ t, exec (.createContext c) s = .next t ∧ SxEnds s t 1 none ∧ ∃ x ∈ t.ctxs, x.pasid = c.w3.toNat ∧ x.part = c.w1.toNat
      ∧ x.tenant = c.w2.toNat ∧ x.desc = c.w4.toNat ∧ x.objs = [] ∧ x.seals = []) ∧
  (s.hasCtx c.w3.toNat = true → SxRefused (.createContext c) s 10) ∧
  (s.hasCtx c.w1.toNat = false → SxRefused (.destroyContext c) s 10) ∧
  (s.hasCtx c.w1.toNat = true → s.ctxBusy c.w1.toNat = true → SxRefused (.destroyContext c) s 11) ∧
  (s.hasCtx c.w1.toNat = true → s.ctxBusy c.w1.toNat = false →
    ∃ t, exec (.destroyContext c) s = .next t ∧ SxEnds s t 1 none ∧ t.hasCtx c.w1.toNat = false ∧ ∀ e ∈ t.atc, e.pasid ≠ c.w1.toNat) ∧
  (∀ o, (s.ctx c.w1.toNat).obj? c.w2.toNat = some o → (∀ l ∈ s.launches, ¬(l.pasid = c.w1.toNat ∧ l.obj = c.w2.toNat)) →
    (∀ p ∈ s.parts, ∀ k ∈ p.2.tasks, ¬(k.pasid = c.w1.toNat ∧ tkCode k.rq = c.w2.toNat)) →
    ∃ t, exec (.unload c) s = .next t ∧ SxEnds s t 1 none ∧ (t.ctx c.w1.toNat).obj? c.w2.toNat = none) ∧
  (c.w1 = 0 → ∃ t, exec (.writePeerRoute c) s = .next t ∧ SxEnds s t 1 none ∧ t.hostPath = c.w2.setWidth 7) ∧
  (c.w1 ≠ 0 → c.w1.toNat ≤ 255 → c.w2.toNat / 2 ^ 56 % 16 ≤ 11 → ∃ t, exec (.writePeerRoute c) s = .next t ∧ SxEnds s t 1 none
    ∧ t.route c.w1.toNat = c.w2 &&& 0x8F000000000000FF) ∧
  (s.ctxs = [] → c.w1.toNat ≤ 8 → c.w2.toNat ≤ 8 → c.w3.toNat ≤ 8 → c.w4.toNat ≤ 8 → ∃ t, exec (.deviceConfiguration c) s = .next t
    ∧ SxEnds s t 1 none ∧ t.patrol = c.w5.toNat ∧ t.l2park = [(0, c.w1.toNat), (1, c.w2.toNat), (2, c.w3.toNat), (3, c.w4.toNat)]) ∧
  (c.w1.toNat ≤ 3 → (c.w1 = 3 → s.ctxs = []) → ∃ t, exec (.setPowerState c) s = .next t ∧ SxEnds s t 1 none ∧ t.power = c.w1.toNat) ∧
  (c.w2.toNat ≤ 15 → ∃ t, exec (.readAndClearErrorCounts c) s = .next t ∧ SxEnds s t 1 none
    -- the counts before they are cleared: of each die, by memory, corrected first
    ∧ HostHas s t (c.w1.toNat % 2 ^ 51) ((List.range 80).flatMap fun k => leBytes 4 (Tab.getD 0 s.errs k))
    ∧ (∀ d < 4, c.w2.getLsbD d = false → ∀ k < 20, Tab.getD 0 t.errs (d * 20 + k) = Tab.getD 0 s.errs (d * 20 + k))
    ∧ ∀ d < 4, c.w2.getLsbD d = true → ∀ k < 20, Tab.getD 0 t.errs (d * 20 + k) = 0) ∧
  (∃ t, exec (.readSensors c) s = .next t ∧ SxEnds s t 1 (some s.sensors.length) ∧
    HostHas s t (c.w1.toNat % 2 ^ 51) (s.sensors.flatMap fun r => leBytes 2 r.value.toNat ++ [r.site, r.kind, 0, 0, 0, 0])) ∧
  -- the newest records, oldest first
  (∃ t n, exec (.readEventLog c) s = .next t ∧ SxEnds s t 1 (some n) ∧ n = min c.w2.toNat s.log.length ∧
    HostHas s t (c.w1.toNat % 2 ^ 51) ((s.log.drop (s.log.length - n)).flatMap fun r =>
      leBytes 8 r.clock ++ leBytes 1 r.source ++ leBytes 1 r.die ++ leBytes 22 r.detail)) ∧
  (∃ t, exec (.readAgeing c) s = .next t ∧ SxEnds s t 1 none ∧
    HostHas s t (c.w1.toNat % 2 ^ 51) ((List.range 4).flatMap fun d =>
      let x := s.ageing.getD d { mon := [], life := 0 }
      ((List.range 8).flatMap fun k => leBytes 4 (x.mon.getD k 0).toNat) ++ leBytes 4 x.life.toNat)) ∧
  -- a quote: the nonce, the digests of both firmware slots, the partition table and each loaded object, then the signature over them
  (let quote := s.hostBytes (c.w1.toNat % 2 ^ 51) 32 ++ sha256 (Tab.getD [] s.sx.fw 0) ++ sha256 (Tab.getD [] s.sx.fw 1)
      ++ sha256 ((List.range 64).flatMap fun i => leBytes 16 (s.part i).entry.toNat) ++ (s.ctxs.flatMap Ctx.objs).flatMap fun o => sha256 o.image
   -- 384 bytes, by RSASSA-PKCS1-v1_5; the certificate follows the quote and is not counted
   let signed := quote ++ signature quote
   exec (.attest c) s = .next ((s.hostPut (c.w2.toNat % 2 ^ 51) (signed ++ Config.certificate)).sxDone 1 (some (quote.length + 384)))) ∧
  (∃ t, exec (.firmwareUpdate c) s = .next t ∧
    let k := 1 - s.sx.slot
    let img := s.hostBytes (c.w1.toNat % 2 ^ 51) c.w2.toNat
    if Config.firmwareOk img s.sx.roll then SxEnds s t 1 none ∧ t.sx.active = k ∧ Tab.get? t.sx.fw k = some img else t = s.sxDone 12 none)

/-- R418, R426, R432: a partition entry is written where it and its relatives are unused and the table keeps its rules; a load of a good
object into pages that are mapped, by an engine that is between requests, writes its image and answers its handle and code size. The operand words of both
commands are read from R431 in log entry 28, the permission that a load's pages need and its failure status in log entry 29. -/
def Obligations.SextantTables : Prop := ∀ (s : State) (c : SxOps), SxReady s →
  (63 < c.w1.toNat → SxRefused (.writePartitionEntry c) s 10) ∧
  (c.w1.toNat ≤ 63 →
    let old := s.part c.w1.toNat
    let p : Part := if old.valid then { old with entry := c.w3 ++ c.w2 }
      else { old with entry := c.w3 ++ c.w2, tick := s.clock, tenant := 0, consec := 0, aborts := 0, lost := 0, evLost := 0 }
    let u : State := { s with parts := Tab.set s.parts c.w1.toNat p }
    (∀ k ∈ (s.ancestors c.w1.toNat ++ s.family c.w1.toNat) ++ (u.ancestors c.w1.toNat ++ u.family c.w1.toNat), s.partUsed k = false) →
    (∀ x ∈ u.parts, x.1 = c.w1.toNat ∨ x.2.valid = true → partOk u.parts x.1 = true) →
    ∃ t, exec (.writePartitionEntry c) s = .next t ∧ SxEnds s t 1 none ∧ t.part c.w1.toNat = p ∧ ∀ k, k ≠ c.w1.toNat → t.part k = s.part k) ∧
  (s.power < 3 → s.hasCtx c.w1.toNat = false → exec (.load c) s = .next (s.loadFails 10)) ∧
  (∀ core i, s.power < 3 → s.hasCtx c.w1.toNat = true → canonical c.w4 = true → low57 c.w4 % 4096 = 0 → sourceOk c.w2.toNat c.w3.toNat = true →
    s.loadCore (s.ctx c.w1.toNat).part = some core → s.engineFree core = true → readObject ((s.recallAll c.w2.toNat c.w3.toNat).peeks c.w2.toNat c.w3.toNat) = .ok i →
    (s.ctx c.w1.toNat).imageFree (low57 c.w4) i.len = true →
    (∀ p ∈ imagePages (low57 c.w4) i.len, ∃ e, s.loadEntry (core / 40) c.w1.toNat (p * 4096) = some e ∧ s.kindOf (e.addr (p * 4096)) ≠ .reserved) →
    ∃ t r o, exec (.load c) s = .next t ∧ SxEnds s t 1 (some r) ∧ r = (s.ctx c.w1.toNat).handles + o.csize * 2 ^ 32 ∧
      (t.ctx c.w1.toNat).objs = (s.ctx c.w1.toNat).objs ++ [o] ∧ o.handle = (s.ctx c.w1.toNat).handles ∧ o.base = low57 c.w4 ∧
      o.csize = ohCsize (objHeader ((s.recallAll c.w2.toNat c.w3.toNat).peeks c.w2.toNat c.w3.toNat)) ∧ (t.ctx c.w1.toNat).handles = o.handle + 1 ∧
      -- the image stands where its pages lie, in this device's memory and apart from one another
      let at? (x : Nat) : Nat := ((s.loadEntry (core / 40) c.w1.toNat (low57 c.w4 + x)).map fun e => e.addr (low57 c.w4 + x)).getD 0
      (Settled s → (∀ e ∈ s.atc, 12 ≤ e.log ∧ e.pa % 4096 = 0) → (∀ x < i.len, at? x < 2 ^ 40) →
        (∀ x y, x < i.len → y < i.len → at? x = at? y → x = y) →
        ∀ p ∈ i.parts, ∀ k < p.2.length, t.peek (at? (p.1 + k)) = p.2.getD k 0))

/-- R433 to R439: reset, shut-down and upkeep. A cold reset boots the active firmware slot, or the other; a thermal trip shuts the device down, its
DRAM contents lost. That a cold reset brings the links back is the choice of log entries 5 and 27; that a patrol changes nothing and a trip acts
whenever it arrives is read so in log entry 32. -/
def Obligations.ResetsAndUpkeep : Prop := ∀ (s : State),
  (∀ rom, ∃ t, exec (.coldReset rom) s = .next t ∧ t.clock = 0 ∧ t.tripped = false ∧ t.parts = [] ∧ t.ctxs = [] ∧ t.waves = [] ∧ t.teams = []
    ∧ t.atc = [] ∧ t.l1 = [] ∧ t.l2 = [] ∧ t.linkDown = [] ∧ t.ageing = s.ageing ∧ (∀ a, remote a = false → t.mem.get a = 0)
    ∧ let ok (k : Nat) : Bool := if k = 0 then rom.slot0 else rom.slot1
      (ok s.sx.active = true → t.sx.slot = s.sx.active ∧ t.sx.ready = true) ∧
      (ok s.sx.active = false → t.sx.slot = 1 - s.sx.active ∧ t.sx.ready = ok (1 - s.sx.active) ∧ t.sx.failed = !ok (1 - s.sx.active))) ∧
  (∃ t, exec .functionLevelReset s = .next t ∧ t.ctxs = [] ∧ t.parts = [] ∧ t.waves = [] ∧ t.sx.slot = s.sx.slot ∧ t.linkDown = s.linkDown
    ∧ t.clock = 0 ∧ t.teams = [] ∧ t.launches = [] ∧ t.atc = [] ∧ t.l1 = [] ∧ t.l2 = [] ∧ t.icache = [] ∧ t.chart = [] ∧ t.bears = []
    ∧ (∀ a, remote a = false → t.mem.get a = 0) ∧ (t.sx.ready = !s.sx.failed) ∧ t.sx.failed = s.sx.failed ∧ t.ageing = s.ageing) ∧
  (∃ t, exec .thermalTrip s = .next t ∧ t.tripped = true ∧ (∀ a, remote a = false → t.mem.get a = 0)
    ∧ ∃ r, t.log.getLast? = some r ∧ r.source = 5 ∧ r.clock = s.clock) ∧
  (∀ rs, exec (.sensorRefresh rs) s = .next { s with sensors := rs }) ∧
  (∀ as, exec (.ageingUpdate as) s = .next { s with ageing := as }) ∧
  exec .priEnable s = .next { s with priOn := true } ∧
  ∀ d m pa, exec (.patrol d m pa) s = .next s

/-- R239, R240, R392, R393, R435: a corrected error is counted and logged and changes no value of memory; an uncorrectable one is logged: in a core's logic
it fences the core and kills the teams on it and in its shadow storage, in local memory, a swapped image or shadow storage it kills the teams concerned,
an idempotent kernel's to be launched again, and elsewhere it poisons its sector. That an error in a core's logic kills the teams in its shadow storage too
is read so in log entry 32, and that it drops the core's copies in log entry 16: the manual says neither. -/
def Obligations.Errors : Prop := ∀ (s : State),
  (∀ die mem pa, ∃ t, exec (.correctedError die mem pa) s = .next t ∧ t.mem = s.mem ∧ t.waves = s.waves
    ∧ Tab.getD 0 t.errs (errKey die (memIndex mem) 0) = min (Tab.getD 0 s.errs (errKey die (memIndex mem) 0) + 1) (2 ^ 32 - 1)
    ∧ ∃ r, t.log.getLast? = some r ∧ r.source = 1 ∧ r.die = die ∧ r.detail = pa) ∧
  (∀ core, ∃ t, exec (.uncorrectableError (.coreLogic core)) s = .next t ∧ (t.core core).fenced = true ∧ Struck s t (core / 40) ∧
    Gone s t (s.teamsOn core ++ (s.core core).shadow) ∧ ∀ c ∈ t.copies, c.core ≠ core) ∧
  (∀ team tm, Tab.get? s.teams team = some tm → ∃ t, exec (.uncorrectableError (.localPage team)) s = .next t ∧ Struck s t (tm.core / 40) ∧
    Counted s t (tm.core / 40) .localMem ∧ Gone s t [team] ∧ (t.core tm.core).pages = (s.core tm.core).pages + 1 ∧
    ((((s.ctx tm.pasid).obj? tm.obj).map Obj.idem).getD false = true → tm.relaunch < 3 → (∀ e ∈ s.teams, e.1 < s.nextId) →
      ∃ id n, Tab.get? t.teams id = some n ∧ n.launch = tm.launch ∧ n.idx = tm.idx ∧ n.relaunch = tm.relaunch + 1 ∧ n.loc = .queued)) ∧
  (∀ wave, ∃ t, exec (.uncorrectableError (.swapped wave)) s = .next t ∧ Struck s t ((s.wave wave).core / 40) ∧
    Counted s t ((s.wave wave).core / 40) .swapReserve ∧ Gone s t [(s.wave wave).team]) ∧
  (∀ core, ∃ t, exec (.uncorrectableError (.shadow core)) s = .next t ∧ Struck s t (core / 40) ∧ Counted s t (core / 40) .shadow ∧
    Gone s t (s.core core).shadow) ∧
  (∀ pa, s.chartOf pa = none → ∃ t, exec (.uncorrectableError (.sector pa)) s = .next t ∧ t.waves = s.waves
    ∧ (t.poisoned pa = true ∨ pa / 32 ∈ t.poison) ∧ ∃ r, t.log.getLast? = some r ∧ r.source = 2 ∧ r.detail = pa) ∧
  -- an error in a clean L1 line drops it and is no uncorrectable error
  (∀ core pa l, findLine s.l1 core pa = some l → (l.kind = .ordinary ∨ l.kind = .sealed) →
    ∃ t, exec (.uncorrectableError (.l1Sector core pa)) s = .next t ∧ t.errs = s.errs ∧ t.log = s.log ∧ findLine t.l1 core pa = none) ∧
  ∀ site, ∃ t, exec (.uncorrectableError site) s = .next t

/-- R236, R281, R299, R333, R411, R412, R417: reads, writes and atomics of this device's DRAM by the host or a peer act at the point of order, of parked
lines too, where a write unparks; a lost link is recorded. -/
def Obligations.OutsideAccesses : Prop := ∀ (s : State) (pa : Nat), (∀ l ∈ s.l1, l.kind ≠ .update) →
  (∀ n, pa + n ≤ 2 ^ 40 → ∃ t b, exec (.hostRead pa n) s = .next t ∧ t.outbox = s.outbox ++ [.readData (s.peeks pa n) b] ∧ t.mem = s.mem
    ∧ (b = false ↔ ∀ a ∈ sectorsOf pa n, s.poisoned a = false)) ∧
  (∀ peer n, pa + n ≤ 2 ^ 40 → ∃ t, exec (.peerRequest peer pa (.read n)) s = .next t ∧ t.outbox = s.outbox ++ [.peerReply peer (s.peeks pa n)]
    ∧ t.mem = s.mem) ∧
  (∀ bs, pa + bs.length ≤ 2 ^ 40 → pa / 128 = (pa + bs.length - 1) / 128 → s.chartOf pa = none → ∃ t, exec (.hostWrite pa bs) s = .next t
    ∧ ∀ a, t.peek a = if pa ≤ a ∧ a < pa + bs.length then bs.getD (a - pa) 0 else s.peek a) ∧
  -- over any lines, parked ones too, which are then parked no more
  (∀ bs, pa + bs.length ≤ 2 ^ 40 → Settled s → (∀ k < bs.length, NoSpread s (pa + k)) → ∃ t, exec (.hostWrite pa bs) s = .next t
    ∧ (∀ k < bs.length, t.chartOf (pa + k) = none)
    ∧ ∀ a, remote a = false → t.peek a = if pa ≤ a ∧ a < pa + bs.length then bs.getD (a - pa) 0 else s.peek a) ∧
  (∀ peer bs, pa + bs.length ≤ 2 ^ 40 → ∃ t, exec (.hostWrite pa bs) s = .next t
    ∧ exec (.peerRequest peer pa (.write bs)) s = .next { t with outbox := t.outbox ++ [.peerReply peer []] }) ∧
  -- atomics, of a parked line at its berth
  (∀ op, pa + atomBytes op ≤ 2 ^ 40 → pa % atomBytes op = 0 → NoSpread s pa →
    (∀ e, s.chartOf pa = some e → e.berth < 2 → (s.berthLine e).isSome = true) →
    let old := s.peekNum pa (atomBytes op)
    (s.poisoned pa = false →
      (∃ t, exec (.hostAtomicop pa op) s = .next t ∧ t.outbox = s.outbox ++ [.atomOld old false] ∧ t.peekNum pa (atomBytes op) = atomApply op old) ∧
      ∀ peer, ∃ t, exec (.peerRequest peer pa (.atom op)) s = .next t ∧ t.outbox = s.outbox ++ [.peerReply peer (leBytes (atomBytes op) old)]
        ∧ t.peekNum pa (atomBytes op) = atomApply op old) ∧
    (s.poisoned pa = true → ∃ t, exec (.hostAtomicop pa op) s = .next t ∧ t.outbox = s.outbox ++ [.atomOld old true] ∧ ∀ a, t.peek a = s.peek a)) ∧
  (∀ op, pa + atomBytes op ≤ 2 ^ 40 → pa % atomBytes op ≠ 0 →
    exec (.hostAtomicop pa op) s = .next { s with outbox := s.outbox ++ [.unsupported] }) ∧
  ∀ port, ∃ t, exec (.linkLoss port) s = .next t ∧ port ∈ t.linkDown ∧ t.mem = s.mem

/-- R247, R248, R342, R377, R413, R414: an answer installs its mapping and ends its request; the operation that waited is sent to the addresses of its
entry, or its page is missing; so for copies and what the distributor reads. A page response ends its page's request, a refusal refusing the lanes that
wait for it; an invalidation removes every entry it covers, marks the requests it covers, and completes once nothing uses them. Which code stands for a
page asked while PRI is off is log entry 9's choice. -/
def Obligations.Translation : Prop := ∀ (s : State),
  (∀ id a pa log rd wr, s.ats.find? (fun x => x.id == id) = some a → a.covered (.mapped pa log rd wr) = false → a.dist = false → s.hasCtx a.pasid = true →
    (∀ o ∈ s.ops, id ∉ o.xw) → (s.atc.filter fun x => x.die == a.die).length < 65536 →
    ∃ t, exec (.translationCompletion id (.mapped pa log rd wr)) s = .next t ∧ t.ats = s.ats.filter (fun x => x.id ≠ id)
      ∧ mappingEntry a pa log rd wr ∈ t.atc ∧ t.waves = s.waves) ∧
  -- an operation waits for the mapping
  (∀ a pa log rd wr o, s.ats.find? (fun x => x.id == a.id) = some a → a.covered (.mapped pa log rd wr) = false → a.dist = false → s.hasCtx a.pasid = true →
    WaitsFor s a o → (s.atc.filter fun x => x.die == a.die).length < 65536 →
    let e := mappingEntry a pa log rd wr
    let located (l : LaneAcc) : LaneAcc := { l with pa := e.addr (low57 l.va) }
    -- no entry but those it replaces holds the addresses
    (∀ x ∈ s.atc, x.die = a.die → x.pasid = a.pasid → x.overlaps e.va e.log = false → ∀ l ∈ o.out, x.va / 2 ^ x.log ≠ low57 l.va / 2 ^ x.log) →
    ∃ t, exec (.translationCompletion a.id (.mapped pa log rd wr)) s = .next t ∧ t.ats = s.ats.filter (fun x => x.id ≠ a.id) ∧ e ∈ t.atc ∧
      (e.allows o.instr = false → skipsAbsent o.instr = false → PageLacks s t a o) ∧
      (e.allows o.instr = true → o.absent = [] → (∀ l ∈ o.out, s.kindOf (located l).pa ≠ .reserved ∧
          (remote (located l).pa = true → s.carries o.instr (located l).pa = true)) →
        (∃ x ∈ t.ops, x.id = o.id ∧ x.phase = .sent ∧ x.xw = [] ∧ x.out = o.out.map located ∧ ∀ l ∈ x.out, ∀ sec ∈ l.sectors o.size, OnItsWay t x sec) ∧
        ∀ w f, Tab.get? s.waves o.wave = some w → w.frags.find? (fun g => g.entry == o.entry) = some f → f.st = .waiting → f.wait = .xlate o.id →
          let g := (t.wave o.wave).frag o.entry
          if o.wait = true ∧ o.early = false then g.st = .waiting ∧ g.wait = .op o.id else g.st = .running ∧ g.wait = .none)) ∧
  -- the page is not present
  (∀ a, s.ats.find? (fun x => x.id == a.id) = some a → a.covered .absent = false → s.hasCtx a.pasid = true →
    (∀ o, WaitsFor s a o → a.dist = false → (∀ c ∈ s.copies, a.id ∉ c.wait) → skipsAbsent o.instr = false →
      ∃ t, exec (.translationCompletion a.id .absent) s = .next t ∧ t.ats = s.ats.filter (fun x => x.id ≠ a.id) ∧ t.atc = s.atc ∧ PageLacks s t a o) ∧
    ((∀ o ∈ s.ops, a.id ∉ o.xw) →
      ∃ t, exec (.translationCompletion a.id .absent) s = .next t ∧ t.ats = s.ats.filter (fun x => x.id ≠ a.id) ∧ t.atc = s.atc ∧
        (s.priOn = true ∨ a.dist = false → ∀ c ∈ s.copies, a.id ∈ c.wait → (if s.priOn then { c with wait := c.wait.filter (· ≠ a.id), pwait := c.pwait ++ [a.page] }
          else { c with wait := c.wait.filter (· ≠ a.id), bad := c.bad ++ [a.page] }) ∈ t.copies) ∧
        (s.priOn = true → (a.dist = true ∨ ∃ c ∈ s.copies, a.id ∈ c.wait ∧ c.pasid = a.pasid) → ∃ p ∈ t.pages, p.pasid = a.pasid ∧ p.page = a.page) ∧
        (s.priOn = false → a.dist = true → (a.pasid, a.page) ∈ s.sx.want → (a.pasid, a.page) ∈ t.sx.bad))) ∧
  -- a mapping that the distributor may not read is asked for as a page; a copy that waited goes on
  (∀ a pa log rd wr, s.ats.find? (fun x => x.id == a.id) = some a → a.covered (.mapped pa log rd wr) = false → s.hasCtx a.pasid = true →
    (∀ o ∈ s.ops, a.id ∉ o.xw) → (s.atc.filter fun x => x.die == a.die).length < 65536 →
    ∃ t, exec (.translationCompletion a.id (.mapped pa log rd wr)) s = .next t ∧ mappingEntry a pa log rd wr ∈ t.atc ∧
      (s.priOn = true ∨ a.dist = false ∨ rd = true → ∀ c ∈ s.copies, a.id ∈ c.wait → { c with wait := c.wait.filter (· ≠ a.id) } ∈ t.copies) ∧
      (a.dist = true → rd = false → s.priOn = true → ∃ p ∈ t.pages, p.pasid = a.pasid ∧ p.page = a.page)) ∧
  (∀ id a ans, s.ats.find? (fun x => x.id == id) = some a → s.hasCtx a.pasid = true → a.covered ans = true →
    ∃ t, exec (.translationCompletion id ans) s = .next t ∧ t.outbox = s.outbox ++ [.atsReq a.pasid a.page] ∧ t.atc = s.atc
      ∧ { a with invs := [] } ∈ t.ats) ∧
  (∀ pasid page ans, (∃ p ∈ s.pages, p.pasid = pasid ∧ p.page = page ∧ p.sent = true) →
    ∃ t, exec (.pageResponse pasid page ans) s = .next t ∧ (ans = .success → (∀ p ∈ t.pages, ¬(p.pasid = pasid ∧ p.page = page)) ∧ t.waves = s.waves)
      ∧ (∀ k, ans = .failure k → t.priOn = false) ∧
      -- refused: the lanes and copies that wait for the page, and a fetch of it
      ∀ k, ans = .invalid k →
        ((∀ w ∈ s.waves, ∀ f ∈ w.2.frags, s.fetchMiss w.2 f ≠ some page) →
          (∀ c ∈ s.copies, c.pasid = pasid → page ∈ c.pwait → { c with pwait := c.pwait.filter (· ≠ page), bad := c.bad ++ [page] } ∈ t.copies) ∧
          ∀ o ∈ s.ops, o.pasid = pasid → (s.wave o.wave).away = false → o.phase = .sent → o.dead = false → (∃ l ∈ o.absent, l.page = page) →
            ∃ x ∈ t.ops, x.id = o.id ∧ x.absent = o.absent.filter (fun l => l.page != page) ∧ x.refused = o.refused ++ o.absent.filter (fun l => l.page == page)
              ∧ (o.refused = [] → x.rcause = 35 ∧ x.rdet0 = BitVec.ofNat 64 k.toNat)) ∧
        ∀ w f, s.waves = [(w.id, w)] → w.frags = [f] → (s.team w.team).pasid = pasid → s.fetchMiss w f = some page → w.inHandler f.entry = false →
          ∃ x, ((t.wave w.id).frag f.entry).st = .pending x ∧ x.cause = 35) ∧
  (∀ tag pasid va log, s.invals.length < 32 → ∃ t, exec (.invalidationRequest tag pasid va log) s = .next t ∧ t.mem = s.mem ∧ t.waves = s.waves
    ∧ (∀ e ∈ t.atc, (pasid = none ∨ pasid = some e.pasid) → e.overlaps (va / 2 ^ log * 2 ^ log) log = false)
    ∧ (∀ e ∈ s.atc, ¬(pasid = none ∨ pasid = some e.pasid) → e ∈ t.atc) ∧ ∃ v ∈ t.invals, v.tag = tag) ∧
  ∀ tag v, s.invals.find? (fun x => x.tag == tag) = some v → (∀ o ∈ s.ops, o.id ∈ v.ops → o.nout = 0 ∧ o.held = []) →
    ∃ t, exec (.invalidationCompletion tag) s = .next t ∧ t.invals = s.invals.erase v ∧ t.outbox = s.outbox ++ [.invalDone tag]

/-- R421 to R424: a due tick starts a switch of every die that holds a core; a quiet die halts in time and exchanges for 1,600 clocks; when all have,
the other tenant runs; a die that misses the deadline aborts the switch. That a tick during a switch only sets the next time, that the deadline counts
from the clock of the tick, and that a die halts in time up to and with tick + 6,400 is read so in log entry 30. -/
def Obligations.TimeSlices : Prop := ∀ (s : State) (part die : Nat), (Tab.get? s.parts part).isSome = true →
  let p := s.part part
  (p.valid = true → p.budget ≠ 0 → p.tick + p.budget * 4000 ≤ s.clock → ∃ t, exec (.timeSliceTick part) s = .next t
    ∧ (t.part part).tick = p.tick + p.budget * 4000
    ∧ (p.sw = none → s.gang part ≠ [] → (∃ c ∈ s.ctxs, c.part = part ∧ c.tenant ≠ p.tenant) →
        (t.part part).sw = some { tick := s.clock, dies := (s.gang part).map fun d => (d, .halting) })
    ∧ (p.sw.isSome = true → (t.part part).sw = p.sw)) ∧
  (∀ w, p.sw = some w → w.die? die = some .halting → s.clock ≤ w.tick + 6400 → s.dieQuiet part die = true →
    ∃ t x, exec (.dieHalted part die) s = .next t ∧ (t.part part).sw = some x ∧ x.die? die = some (.exchanging s.clock)) ∧
  (∀ w c, p.sw = some w → w.die? die = some (.exchanging c) → c + 1600 ≤ s.clock → w.aborted = false →
    ∃ t, exec (.exchangeEnd part die) s = .next t ∧
      ((∀ d ∈ w.dies, d.1 = die ∨ d.2 = .exchanged) → (w.dies.map Prod.fst).Nodup → (t.part part).sw = none ∧ (t.part part).tenant = 1 - p.tenant)) ∧
  (∀ w c, p.sw = some w → w.die? die = some (.backing c) → c ≤ s.clock → ∃ t, exec (.exchangeEnd part die) s = .next t) ∧
  (∀ w, p.sw = some w → w.aborted = false → w.tick + 6400 ≤ s.clock → (∃ d ∈ w.dies, d.2 = .halting) →
    ∃ t, exec (.switchAbort part) s = .next t ∧ (t.part part).aborts = min (p.aborts + 1) (2 ^ 32 - 1) ∧ (t.part part).tenant = p.tenant)

/-- R52, R59, R66, R384, R387: a failed fetch or decode raises its cause in its fragment, whatever the guard. All of its lanes are recorded where no
word could be fetched, else those that the word's guard lets take part. Past the end of the address space the record is that of the instruction that
completed there. -/
def Obligations.FailedFetches : Prop := ∀ (s : State) (why : FetchFail), Stands s → (s.wave s.cur.wave).h = none →
  let k : Iss := { w := s.wave s.cur.wave, f := (s.wave s.cur.wave).frag s.cur.entry, hm := false, part := 0, q := [] }
  (∀ pc < 2 ^ 57, k.f.pc = 2 ^ 57 + pc → Handled s k 1 →
    ∃ t, exec (.unimplementedOpcode .pcWrap) s = .next t ∧ EntersHandlerAt pc s t k 1 k.f.mask) ∧
  let cause := match why with
    | .pcWrap => 1 | .fetchBounds => 2 | .illegalLength => 4 | .blockCrossing => 5 | .nullOpcode => 6 | .unimplemented => 7
    | .illegalOperand => 8 | .reservedField => 9 | .addressMap => 34 | .dataError => 36
  let g := guardOf k.w.dm s.cur.word
  let p := k.w.pred false g.2.toNat
  let lanes := match why with
    | .pcWrap => k.f.mask | .fetchBounds => k.f.mask | .addressMap => k.f.mask | .dataError => k.f.mask
    | _ => k.f.mask &&& (if g.1 then ~~~p else p) &&& fullOf k.w.w32
  why ≠ .pcWrap → Handled s k cause → ∃ t, exec (.unimplementedOpcode why) s = .next t ∧ EntersHandler s t k cause lanes

/-! ### The issue of an instruction, and the machine -/

/-- R87 to R95, R158, R164, R252, R360: an instruction goes on exactly when nothing holds it back and none of its operands traps. -/
def Obligations.ReadyIffClear : Prop := ∀ (s : State) (u : Uses) (h : Hdr), preCheck s u (s.issOf h) h.gp.toNat = .go ↔ Clear s u h

/-- R35, R87 to R90, R92, R95, R200, R360 to R362: the idempotence check; an instruction that waits at a role queue, with its operands captured, or traps
there; the wait for a source that is empty, or its trap; the 4 clocks of a refetch; and the traps of operands that are poisoned, dead or stale. The manual
gives no order among the causes of one instruction's operands: that 17 comes before 18, 18 before 16 and 16 before 15 is the choice of log entry 60. -/
def Obligations.OperandTraps : Prop := ∀ (s : State) (u : Uses) (h : Hdr) (body : Iss → State → Body),
  let i := s.issOf h
  let regs := u.srcs.flatMap (SU.regs i.w i.part)
  let full (t : Team) (q : Nat) : Prop := 8 ≤ (t.queue q).length
  let waits (x : Wait) : Prop := issue u h body s = .next (s.modFrag s.curRef fun f =>
    { f with st := .waiting, wait := x, since := s.clock, capt := some i.captured })
  -- the issue of an instruction that traps on its operands is counted (log entry 79)
  let trapped (cause : Nat) : Prop := issue u h body s = .next ((s.issued i u).trap cause i.part {})
  ((s.wave s.cur.wave).dm = .k3 → i.hm = false → i.w.prop = none →
    (∃ n ∈ u.dv, n ∈ u.srcs.flatMap SU.vecs ∧ (i.w.vreg n).wir = false) →
    issue u h body s = .next (s.trap 10 i.part {})) ∧
  -- an empty source holds the instruction back, or traps where its field says so
  (Unbarred s u h → i.part ≠ 0 →
    let empty (x : SU) : Prop := ∃ r ∈ SU.regs i.w i.part x, i.w.stateOf i.hm r = .empty
    ((∃ x ∈ u.srcs, Src.empt x.x = true ∧ empty x) → trapped 17) ∧
    ((∀ x ∈ u.srcs, Src.empt x.x = true → ¬empty x) → (∃ x ∈ u.srcs, empty x) → issue u h body s = .next { s with stalled := true })) ∧
  (Unlocked s u h → u.win ≠ [] → ((∃ n ∈ u.win, (i.w.vreg n).st = .poison) ∨ ∃ r ∈ regs, i.w.stateOf i.hm r = .poison) →
    trapped 18) ∧
  (Unlocked s u h → ViewsClean s u h → i.part ≠ 0 →
    (∀ q, u.srcs.flatMap SU.queues = [q] → (s.team i.w.team).queue q = [] → ∀ x ∈ u.srcs, ∀ n e, x.x = .q n e →
      if e then trapped 17
      else if s.prodGone (s.team i.w.team) q then trapped 47
      else waits (.pop q)) ∧
    (u.srcs.flatMap SU.queues = [] → ∀ q, u.push = some q →
      (Tab.get? (s.team i.w.team).prod q ≠ some i.w.role → trapped 46) ∧
      (Tab.get? (s.team i.w.team).prod q = some i.w.role → full (s.team i.w.team) q → waits (.push q)))) ∧
  (Readable s u h → ViewsClean s u h → i.part ≠ 0 → i.f.refetch = false → (∃ x ∈ u.srcs, i.w.refetches i.part x.x = true) →
    issue u h body s = .next (s.modFrag s.curRef fun f => { f with refetch := true, wake := s.clockIn 4 })) ∧
  (Unheld s u h → ViewsClean s u h → i.part ≠ 0 →
    ((∃ r ∈ regs, i.w.stateOf i.hm r = .poison) → trapped 18) ∧
    ((∀ r ∈ regs, i.w.stateOf i.hm r ≠ .poison) → i.w.md.getLsbD 12 = true → (∃ x ∈ u.srcs, i.w.srcDead i.hm i.part x = true) →
      trapped 16) ∧
    ((∀ r ∈ regs, i.w.stateOf i.hm r ≠ .poison) → (i.w.md.getLsbD 12 = true → ∀ x ∈ u.srcs, i.w.srcDead i.hm i.part x = false) →
      (∃ x ∈ u.srcs, i.w.readsStale i.hm i.part x.x = true) → trapped 15))

/-- Decoding what the encoder writes gives the instruction back, for every well-formed instruction with every operand it can have. -/
def Obligations.DecodeEncodes : Prop := ∀ (i : Instr) (w : BitVec 128), i.isWord = true → i.wf = true → encode i = some w → decode Env.max w = .ok i

/-- What the decoder reads is well-formed and has an encoding, which decodes to it again. -/
def Obligations.DecodedIsWellFormed : Prop := ∀ (w : BitVec 128) (i : Instr), decode Env.max w = .ok i →
  i.wf = true ∧ ∃ v, encode i = some v ∧ decode Env.max v = .ok i

/-- Words that the manual writes out with what they stand for (the encoded examples of R53 to R63, R75, R132, R138, R168, R209, R284). -/
def Obligations.DecodesManualWords : Prop :=
  decode Env.max 0x000000000000F004 =
    .ok (.nop { h := { form := .f64, gneg := false, gp := 15 } }) ∧
  decode Env.max 0x000319012014F108 =
    .ok (.iadd { h := { form := .f64, gneg := false, gp := 15 }, t := .s32, d := .v 10 .none, a := .v 9 true false, b := .q 0 false }) ∧
  decode Env.max 0x00420D8098233108 =
    .ok (.iadd { h := { form := .f64, gneg := true, gp := 3 }, t := .s32, d := .v 17 (.o 2), a := .v 4 true true, b := .s 6 false false }) ∧
  decode Env.max 0x02000000000400222224F409 =
    .ok (.sadd { h := { form := .f96, gneg := false, gp := 15 }, d := 18, a := .s 17 false false, b := .wide 8192 }) ∧
  decode Env.max 0x010000000000F01C =
    .ok (.hinge { h := { form := .f64, gneg := false, gp := 15 }, code := 1 }) ∧
  decode Env.max 0xFFFF80000000000000002009 =
    .ok (.bra { h := { form := .f96, gneg := false, gp := 2 }, off := -8 }) ∧
  decode Env.max 0x0000018100048021A004F11D =
    .ok (.imad { h := { form := .f96, gneg := false, gp := 15 }, t := .s32, d := .v 2 .none, a := .s 13 false false, b := .imm 64, c := .o 1 }) ∧
  decode Env.max 0x010002000000F504 =
    .ok (.mxstep { h := { form := .f64, gneg := false, gp := 15 }, hi := false, ta := 0, tb := 1, k := true, sc := none }) ∧
  decode Env.max 0x00021C21A000F54C =
    .ok (.rngkey { h := { form := .f64, gneg := false, gp := 15 }, a := .s 13 false false, b := .s 14 false false }) ∧
  decode Env.max 0x00021840E000F644 =
    .ok (.bradd { h := { form := .f64, gneg := false, gp := 15 }, a := .imm 7, b := .s 12 false false }) ∧
  decode { Env.max with mode := .k1 } 0x0005007FC0203711 =
    .ok (.iadd { h := { form := .f64, gneg := false, gp := 15 }, t := .s32, d := .v 3 .none, a := .v 1 false false, b := .wide 5 }) ∧
  decode { Env.max with mode := .k1 } 0x0005007FC0203770 = .error .unimplemented

/-- Every step keeps the memory in its canonical form and each wave under its identifier: the model's own representation (log entry 1), of which the
manual says nothing. -/
def Obligations.StepKeepsInv : Prop := ∀ (s t : State), s.Inv → step s = .next t → t.Inv

/-- The state after reset has the invariant. -/
def Obligations.ResetInv : Prop := State.reset.Inv

/-- A step in which a fragment is picked runs what its PC holds: the fetched word's decoded instruction, from the state in which the pick
has moved the slip counts and the fetch has filled its caches; then what follows from it, and the time that passes. -/
def Obligations.StepRunsDecoded : Prop := ∀ (s t : State) (r : FragRef) (b : BitVec 128) (i : Instr),
  s.tripped = false → s.arrivals = [] → s.moves = [.issue r] →
  let w := s.wave r.wave
  let f := w.frag r.entry
  s.fetch w f = .word b → decode (w.env f) b = .ok i →
  exec i (((s.slipped r).fetchFill w f).issuing w f (.word b)) = .next t → step s = .next t.after

/-- R438: a device that has shut down takes no step until a cold reset arrives, which then acts. -/
def Obligations.ShutDownStops : Prop := ∀ (s : State), s.tripped = true →
  (s.arrivals = [] → step s = .fault .shutDown) ∧
  ∀ rom l, s.arrivals = some (.coldReset rom) :: l → ∃ t, step s = .next t ∧ t.tripped = false
end

