-- ==== Sys2Proof/Laws/Memory.lean ====
section
/-! SUPPORT. Laws of byte memories: what reads after writes give, that every operation keeps the canonical form, that canonical memories with
the same bytes are equal; and of tables of numbered entries. -/

namespace Sys2Proof.Machine

/-! ### The canonical form is kept -/

theorem Memory.wfFrom_mono {m : Memory} {a b : Nat} (h : a ≤ b) (w : m.wfFrom b = true) : m.wfFrom a = true := by
  cases m with
  | nil => rfl
  | cons e m =>
    simp only [Memory.wfFrom, Bool.and_eq_true, decide_eq_true_eq] at w ⊢
    exact ⟨⟨le_trans h w.1.1, w.1.2⟩, w.2⟩

theorem Memory.wfFrom_filter (p : Nat × Byte → Bool) {m : Memory} {a : Nat} (w : m.wfFrom a = true) : Memory.wfFrom a (m.filter p) = true := by
  induction m generalizing a with
  | nil => rfl
  | cons e m ih =>
    simp only [Memory.wfFrom, Bool.and_eq_true, decide_eq_true_eq] at w
    by_cases h : p e = true
    · simp only [List.filter_cons, h, if_true, Memory.wfFrom, Bool.and_eq_true, decide_eq_true_eq]
      exact ⟨w.1, ih w.2⟩
    · simp only [List.filter_cons, h, Bool.false_eq_true, if_false]
      exact Memory.wfFrom_mono (by omega) (ih w.2)

theorem Memory.wfFrom_put {m : Memory} {a x : Nat} {v : Byte} (h : a ≤ x) (hv : v ≠ Memory.unlisted) (w : m.wfFrom a = true) :
    (m.put x v).wfFrom a = true := by
  induction m generalizing a with
  | nil => simp [Memory.put, Memory.wfFrom, h, hv]
  | cons e m ih =>
    simp only [Memory.wfFrom, Bool.and_eq_true, decide_eq_true_eq] at w
    rw [Memory.put]
    split
    · simp only [Memory.wfFrom, Bool.and_eq_true, decide_eq_true_eq]
      exact ⟨⟨h, hv⟩, ⟨by omega, w.1.2⟩, w.2⟩
    · split
      · simp only [Memory.wfFrom, Bool.and_eq_true, decide_eq_true_eq]
        exact ⟨⟨w.1.1, hv⟩, w.2⟩
      · simp only [Memory.wfFrom, Bool.and_eq_true, decide_eq_true_eq]
        exact ⟨w.1, ih (by omega) w.2⟩

theorem Memory.wf_nil : Memory.wf [] = true := rfl
theorem Memory.wf_filter (p : Nat × Byte → Bool) {m : Memory} (w : m.wf = true) : Memory.wf (m.filter p) = true := Memory.wfFrom_filter p w
theorem Memory.wf_set {m : Memory} (x : Nat) (v : Byte) (w : m.wf = true) : (m.set x v).wf = true := by
  unfold Memory.set
  split
  · exact Memory.wf_filter _ w
  · exact Memory.wfFrom_put (Nat.zero_le x) ‹_› w
theorem Memory.wf_setBytes {m : Memory} (a : Nat) (bs : List Byte) (w : m.wf = true) : (m.setBytes a bs).wf = true := by
  induction bs generalizing m a with
  | nil => exact w
  | cons b bs ih => exact ih (a + 1) (Memory.wf_set a b w)
theorem Memory.wf_setNum {m : Memory} (a n x : Nat) (w : m.wf = true) : (m.setNum a n x).wf = true := Memory.wf_setBytes a _ w
theorem Memory.wf_zero {m : Memory} (a n : Nat) (w : m.wf = true) : (m.zero a n).wf = true := Memory.wf_filter _ w
theorem Memory.wf_ofBytes (a : Nat) (bs : List Byte) : (Memory.ofBytes a bs).wf = true := by
  have h (a : Nat) : (Memory.ofBytes a bs).wfFrom a = true := by
    induction bs generalizing a with
    | nil => rfl
    | cons b bs ih =>
      rw [Memory.ofBytes]
      split
      · exact Memory.wfFrom_mono (by omega) (ih (a + 1))
      · simp only [Memory.wfFrom, Bool.and_eq_true, decide_eq_true_eq]
        exact ⟨⟨le_refl a, ‹_›⟩, ih (a + 1)⟩
  exact Memory.wfFrom_mono (Nat.zero_le a) (h a)

/-! ### Reads after writes -/

theorem Memory.get_below {m : Memory} {a x : Nat} (w : m.wfFrom a = true) (h : x < a) : m.get x = Memory.unlisted := by
  induction m generalizing a with
  | nil => rfl
  | cons e m ih =>
    simp only [Memory.wfFrom, Bool.and_eq_true, decide_eq_true_eq] at w
    rw [Memory.get, if_neg (by omega)]
    exact ih w.2 (by omega)

theorem Memory.get_put (m : Memory) (x y : Nat) (v : Byte) : (m.put x v).get y = if x = y then v else m.get y := by
  induction m with
  | nil => simp [Memory.put, Memory.get]
  | cons e m ih =>
    rw [Memory.put]
    split
    · simp [Memory.get]
    · split
      · subst_vars; simp only [Memory.get]; split <;> rfl
      · simp only [Memory.get, ih]
        split
        · rw [if_neg (by omega)]
        · rfl

theorem Memory.get_filter (p : Nat → Bool) (m : Memory) (y : Nat) :
    Memory.get (m.filter fun e => p e.1) y = if p y then m.get y else Memory.unlisted := by
  induction m with
  | nil => simp [Memory.get]
  | cons e m ih =>
    simp only [List.filter_cons]
    by_cases h : e.1 = y
    · subst h
      by_cases q : p e.1 = true
      · simp [q, Memory.get]
      · simp [q, ih]
    · split <;> simp only [Memory.get, if_neg h, ih]

/-- A read after a write gives the value written there, and elsewhere what was there. -/
theorem Memory.get_set (m : Memory) (x y : Nat) (v : Byte) : (m.set x v).get y = if x = y then v else m.get y := by
  unfold Memory.set
  split
  · rename_i h
    refine (Memory.get_filter (fun a => decide (a ≠ x)) m y).trans ?_
    by_cases q : x = y
    · simp [q, h]
    · simp [q, Ne.symm q]
  · exact Memory.get_put m x y v
@[simp] theorem Memory.get_set_self (m : Memory) (x : Nat) (v : Byte) : (m.set x v).get x = v := by simp [Memory.get_set]
theorem Memory.get_set_ne (m : Memory) {x y : Nat} (v : Byte) (h : x ≠ y) : (m.set x v).get y = m.get y := by simp [Memory.get_set, h]

/-- A read after bytes were written from `a` on. -/
theorem Memory.get_setBytes (m : Memory) (a y : Nat) (bs : List Byte) :
    (m.setBytes a bs).get y = if a ≤ y ∧ y < a + bs.length then bs.getD (y - a) 0 else m.get y := by
  induction bs generalizing m a with
  | nil => simp [Memory.setBytes, show ¬(a ≤ y ∧ y < a) by omega]
  | cons b bs ih =>
    rw [Memory.setBytes, ih, Memory.get_set]
    by_cases h : a = y
    · subst h; simp
    · by_cases q : a + 1 ≤ y ∧ y < a + 1 + bs.length
      · rw [if_pos q, if_pos (by simp; omega), show y - a = y - (a + 1) + 1 by omega]; rfl
      · rw [if_neg q, if_neg h, if_neg (by simp; omega)]
theorem Memory.get_setBytes_out (m : Memory) {a y : Nat} (bs : List Byte) (h : y < a ∨ a + bs.length ≤ y) : (m.setBytes a bs).get y = m.get y := by
  rw [Memory.get_setBytes, if_neg (by omega)]

theorem Memory.get_zero (m : Memory) (a n y : Nat) : (m.zero a n).get y = if a ≤ y ∧ y < a + n then Memory.unlisted else m.get y := by
  unfold Memory.zero
  refine (Memory.get_filter (fun x => !(decide (a ≤ x) && decide (x < a + n))) m y).trans ?_
  by_cases h : a ≤ y ∧ y < a + n
  · simp [h]
  · by_cases q : a ≤ y
    · have r : ¬ y < a + n := fun z => h ⟨q, z⟩
      simp [q, r]
    · simp [q]

theorem Memory.get_ofBytes (a y : Nat) (bs : List Byte) :
    (Memory.ofBytes a bs).get y = if a ≤ y ∧ y < a + bs.length then bs.getD (y - a) 0 else Memory.unlisted := by
  induction bs generalizing a with
  | nil => simp [Memory.ofBytes, Memory.get]
  | cons b bs ih =>
    rw [Memory.ofBytes]
    have t : (if a + 1 ≤ y ∧ y < a + 1 + bs.length then bs.getD (y - (a + 1)) 0 else Memory.unlisted)
        = if a ≤ y ∧ y < a + (b :: bs).length then (if a = y then (if a + 1 ≤ y ∧ y < a + 1 + bs.length then bs.getD (y - (a + 1)) 0
          else Memory.unlisted) else (b :: bs).getD (y - a) 0) else Memory.unlisted := by
      by_cases h : a = y
      · subst h; simp
      · by_cases q : a + 1 ≤ y ∧ y < a + 1 + bs.length
        · rw [if_pos q, if_pos (by simp; omega), if_neg h, show y - a = y - (a + 1) + 1 by omega]; rfl
        · rw [if_neg q, if_neg (by simp; omega)]
    split
    · rename_i hb
      rw [ih, t]
      by_cases h : a = y
      · subst h; simp [hb, Memory.unlisted]
      · simp [h]
    · rw [Memory.get, ih, t]
      by_cases h : a = y
      · subst h; simp
      · simp [h]

/-- Canonical memories with the same bytes are the same list. -/
theorem Memory.ext_of_wf {m k : Memory} (hm : m.wf = true) (hk : k.wf = true) (h : ∀ a, m.get a = k.get a) : m = k := by
  have go : ∀ (m k : Memory) (a : Nat), m.wfFrom a = true → k.wfFrom a = true → (∀ x, m.get x = k.get x) → m = k := by
    intro m
    induction m with
    | nil =>
      intro k a _ wk h
      cases k with
      | nil => rfl
      | cons e k =>
        simp only [Memory.wfFrom, Bool.and_eq_true, decide_eq_true_eq] at wk
        have := h e.1
        simp only [Memory.get, if_true] at this
        exact absurd this.symm wk.1.2
    | cons e m ih =>
      intro k a wm wk h
      cases k with
      | nil =>
        simp only [Memory.wfFrom, Bool.and_eq_true, decide_eq_true_eq] at wm
        have := h e.1
        simp only [Memory.get, if_true] at this
        exact absurd this wm.1.2
      | cons f k =>
        simp only [Memory.wfFrom, Bool.and_eq_true, decide_eq_true_eq] at wm wk
        have he : e.1 = f.1 := by
          rcases Nat.lt_trichotomy e.1 f.1 with c | c | c
          · have := h e.1
            simp only [Memory.get, if_true, if_neg (show f.1 ≠ e.1 by omega)] at this
            rw [Memory.get_below wk.2 (by omega)] at this
            exact absurd this wm.1.2
          · exact c
          · have := h f.1
            simp only [Memory.get, if_true, if_neg (show e.1 ≠ f.1 by omega)] at this
            rw [Memory.get_below wm.2 (by omega)] at this
            exact absurd this.symm wk.1.2
        have hv : e.2 = f.2 := by have := h e.1; simpa only [Memory.get, if_true, he] using this
        have : m = k := by
          refine ih k (e.1 + 1) wm.2 (he ▸ wk.2) fun x => ?_
          by_cases c : e.1 = x
          · rw [Memory.get_below wm.2 (by omega), Memory.get_below wk.2 (by omega)]
          · have := h x
            simpa only [Memory.get, if_neg c, if_neg (he ▸ c)] using this
        rw [this, Prod.ext he hv]
  exact go m k 0 hm hk h

/-! ### Little-endian numbers (R5) -/

@[simp] theorem leBytes_length (n x : Nat) : (leBytes n x).length = n := by
  induction n generalizing x with
  | zero => rfl
  | succ n ih => simp [leBytes, ih]
theorem leNat_leBytes (n x : Nat) : leNat (leBytes n x) = x % 256 ^ n := by
  induction n generalizing x with
  | zero => simp [leBytes, leNat, Nat.mod_one]
  | succ n ih => rw [leBytes, leNat, ih, BitVec.toNat_ofNat, show (256 : Nat) ^ (n + 1) = 256 * 256 ^ n from pow_succ' 256 n, Nat.mod_mul]
theorem leNat_lt (bs : List Byte) : leNat bs < 256 ^ bs.length := by
  induction bs with
  | nil => simp [leNat]
  | cons b bs ih =>
    have := b.isLt
    simp only [leNat, List.length_cons, pow_succ']
    omega
@[simp] theorem Memory.bytes_length (m : Memory) (a n : Nat) : (m.bytes a n).length = n := by simp [Memory.bytes]
/-- A number reads back as it was written. -/
theorem Memory.num_setNum (m : Memory) (a n x : Nat) : (m.setNum a n x).num a n = x % 256 ^ n := by
  have : (m.setNum a n x).bytes a n = leBytes n x := by
    apply List.ext_getElem (by simp)
    intro i h1 h2
    simp only [leBytes_length] at h2
    simp only [Memory.bytes, List.getElem_map, List.getElem_range, Memory.setNum]
    rw [Memory.get_setBytes, if_pos (by simp; omega), show a + i - a = i by omega, List.getD_eq_getElem _ _ (by simpa using h2)]
  rw [Memory.num, this, leNat_leBytes]

/-! ### Tables -/

section
variable {α : Type}

theorem Tab.get?_set (t : Tab α) (x y : Nat) (v : α) : Tab.get? (Tab.set t x v) y = if x = y then some v else Tab.get? t y := by
  induction t with
  | nil => simp [Tab.set, Tab.get?]
  | cons e t ih =>
    rw [Tab.set]
    split
    · subst_vars; simp only [Tab.get?]; split <;> rfl
    · simp only [Tab.get?, ih]
      split
      · rw [if_neg (by omega)]
      · rfl
theorem Tab.getD_set (d : α) (t : Tab α) (x y : Nat) (v : α) : Tab.getD d (Tab.set t x v) y = if x = y then v else Tab.getD d t y := by
  unfold Tab.getD
  rw [Tab.get?_set]
  by_cases h : x = y <;> simp [h]
@[simp] theorem Tab.getD_set_self (d : α) (t : Tab α) (x : Nat) (v : α) : Tab.getD d (Tab.set t x v) x = v := by simp [Tab.getD_set]
theorem Tab.get?_mod (f : α → α) (t : Tab α) (x y : Nat) : Tab.get? (Tab.mod f t x) y = if x = y then (Tab.get? t y).map f else Tab.get? t y := by
  induction t with
  | nil => simp [Tab.mod, Tab.get?]
  | cons e t ih =>
    rw [Tab.mod]
    split
    · subst_vars
      simp only [Tab.get?]
      split <;> simp_all
    · simp only [Tab.get?, ih]
      split
      · rw [if_neg (by omega)]
      · rfl
theorem Tab.getD_mod (d : α) (f : α → α) (t : Tab α) (x y : Nat) (h : (Tab.get? t x).isSome = true) :
    Tab.getD d (Tab.mod f t x) y = if x = y then f (Tab.getD d t y) else Tab.getD d t y := by
  unfold Tab.getD
  rw [Tab.get?_mod]
  by_cases q : x = y
  · subst q
    obtain ⟨v, hv⟩ := Option.isSome_iff_exists.mp h
    simp [hv]
  · simp [q]
theorem Tab.getD_mod_ne (d : α) (f : α → α) (t : Tab α) {x y : Nat} (h : x ≠ y) : Tab.getD d (Tab.mod f t x) y = Tab.getD d t y := by
  unfold Tab.getD
  rw [Tab.get?_mod, if_neg h]
/-- Changing an entry keeps the numbers. -/
theorem Tab.keys_mod (f : α → α) (t : Tab α) (x : Nat) : (Tab.mod f t x).map Prod.fst = t.map Prod.fst := by
  induction t with
  | nil => rfl
  | cons e t ih =>
    rw [Tab.mod]
    split
    · rfl
    · simp [ih]
theorem Tab.mem_of_get? {t : Tab α} {x : Nat} {v : α} (h : Tab.get? t x = some v) : (x, v) ∈ t := by
  induction t with
  | nil => exact absurd h nofun
  | cons e t ih =>
    rw [Tab.get?] at h
    split at h
    · subst_vars; simp only [Option.some.injEq] at h; subst h; exact List.mem_cons_self
    · exact List.mem_cons_of_mem _ (ih h)

end

end Sys2Proof.Machine
end

