-- ==== Sys2Proof/Laws/State.lean ====
section
/-! SUPPORT. What each update of the state changes and leaves alone: one lemma for each field and update, and what the changed part reads. -/

namespace Sys2Proof.Machine

/-! `modWave` changes `waves` only. -/
@[simp] theorem State.modWave_clock (s : State) (i : Nat) (f : Wave → Wave) : (s.modWave i f).clock = s.clock := rfl
@[simp] theorem State.modWave_mem (s : State) (i : Nat) (f : Wave → Wave) : (s.modWave i f).mem = s.mem := rfl
@[simp] theorem State.modWave_poison (s : State) (i : Nat) (f : Wave → Wave) : (s.modWave i f).poison = s.poison := rfl
@[simp] theorem State.modWave_linkDown (s : State) (i : Nat) (f : Wave → Wave) : (s.modWave i f).linkDown = s.linkDown := rfl
@[simp] theorem State.modWave_routes (s : State) (i : Nat) (f : Wave → Wave) : (s.modWave i f).routes = s.routes := rfl
@[simp] theorem State.modWave_hostPath (s : State) (i : Nat) (f : Wave → Wave) : (s.modWave i f).hostPath = s.hostPath := rfl
@[simp] theorem State.modWave_l2park (s : State) (i : Nat) (f : Wave → Wave) : (s.modWave i f).l2park = s.l2park := rfl
@[simp] theorem State.modWave_patrol (s : State) (i : Nat) (f : Wave → Wave) : (s.modWave i f).patrol = s.patrol := rfl
@[simp] theorem State.modWave_parts (s : State) (i : Nat) (f : Wave → Wave) : (s.modWave i f).parts = s.parts := rfl
@[simp] theorem State.modWave_ctxs (s : State) (i : Nat) (f : Wave → Wave) : (s.modWave i f).ctxs = s.ctxs := rfl
@[simp] theorem State.modWave_power (s : State) (i : Nat) (f : Wave → Wave) : (s.modWave i f).power = s.power := rfl
@[simp] theorem State.modWave_tripped (s : State) (i : Nat) (f : Wave → Wave) : (s.modWave i f).tripped = s.tripped := rfl
@[simp] theorem State.modWave_sx (s : State) (i : Nat) (f : Wave → Wave) : (s.modWave i f).sx = s.sx := rfl
@[simp] theorem State.modWave_log (s : State) (i : Nat) (f : Wave → Wave) : (s.modWave i f).log = s.log := rfl
@[simp] theorem State.modWave_sensors (s : State) (i : Nat) (f : Wave → Wave) : (s.modWave i f).sensors = s.sensors := rfl
@[simp] theorem State.modWave_ageing (s : State) (i : Nat) (f : Wave → Wave) : (s.modWave i f).ageing = s.ageing := rfl
@[simp] theorem State.modWave_priOn (s : State) (i : Nat) (f : Wave → Wave) : (s.modWave i f).priOn = s.priOn := rfl
@[simp] theorem State.modWave_priAlloc (s : State) (i : Nat) (f : Wave → Wave) : (s.modWave i f).priAlloc = s.priAlloc := rfl
@[simp] theorem State.modWave_pages (s : State) (i : Nat) (f : Wave → Wave) : (s.modWave i f).pages = s.pages := rfl
@[simp] theorem State.modWave_ats (s : State) (i : Nat) (f : Wave → Wave) : (s.modWave i f).ats = s.ats := rfl
@[simp] theorem State.modWave_invals (s : State) (i : Nat) (f : Wave → Wave) : (s.modWave i f).invals = s.invals := rfl
@[simp] theorem State.modWave_outbox (s : State) (i : Nat) (f : Wave → Wave) : (s.modWave i f).outbox = s.outbox := rfl
@[simp] theorem State.modWave_atc (s : State) (i : Nat) (f : Wave → Wave) : (s.modWave i f).atc = s.atc := rfl
@[simp] theorem State.modWave_l2 (s : State) (i : Nat) (f : Wave → Wave) : (s.modWave i f).l2 = s.l2 := rfl
@[simp] theorem State.modWave_chart (s : State) (i : Nat) (f : Wave → Wave) : (s.modWave i f).chart = s.chart := rfl
@[simp] theorem State.modWave_parkCount (s : State) (i : Nat) (f : Wave → Wave) : (s.modWave i f).parkCount = s.parkCount := rfl
@[simp] theorem State.modWave_bears (s : State) (i : Nat) (f : Wave → Wave) : (s.modWave i f).bears = s.bears := rfl
@[simp] theorem State.modWave_mail (s : State) (i : Nat) (f : Wave → Wave) : (s.modWave i f).mail = s.mail := rfl
@[simp] theorem State.modWave_reqs (s : State) (i : Nat) (f : Wave → Wave) : (s.modWave i f).reqs = s.reqs := rfl
@[simp] theorem State.modWave_reps (s : State) (i : Nat) (f : Wave → Wave) : (s.modWave i f).reps = s.reps := rfl
@[simp] theorem State.modWave_ops (s : State) (i : Nat) (f : Wave → Wave) : (s.modWave i f).ops = s.ops := rfl
@[simp] theorem State.modWave_gbars (s : State) (i : Nat) (f : Wave → Wave) : (s.modWave i f).gbars = s.gbars := rfl
@[simp] theorem State.modWave_errs (s : State) (i : Nat) (f : Wave → Wave) : (s.modWave i f).errs = s.errs := rfl
@[simp] theorem State.modWave_icache (s : State) (i : Nat) (f : Wave → Wave) : (s.modWave i f).icache = s.icache := rfl
@[simp] theorem State.modWave_l1 (s : State) (i : Nat) (f : Wave → Wave) : (s.modWave i f).l1 = s.l1 := rfl
@[simp] theorem State.modWave_copies (s : State) (i : Nat) (f : Wave → Wave) : (s.modWave i f).copies = s.copies := rfl
@[simp] theorem State.modWave_cores (s : State) (i : Nat) (f : Wave → Wave) : (s.modWave i f).cores = s.cores := rfl
@[simp] theorem State.modWave_cnt (s : State) (i : Nat) (f : Wave → Wave) : (s.modWave i f).cnt = s.cnt := rfl
@[simp] theorem State.modWave_cnt0 (s : State) (i : Nat) (f : Wave → Wave) : (s.modWave i f).cnt0 = s.cnt0 := rfl
@[simp] theorem State.modWave_launches (s : State) (i : Nat) (f : Wave → Wave) : (s.modWave i f).launches = s.launches := rfl
@[simp] theorem State.modWave_teams (s : State) (i : Nat) (f : Wave → Wave) : (s.modWave i f).teams = s.teams := rfl
@[simp] theorem State.modWave_busy (s : State) (i : Nat) (f : Wave → Wave) : (s.modWave i f).busy = s.busy := rfl
@[simp] theorem State.modWave_free (s : State) (i : Nat) (f : Wave → Wave) : (s.modWave i f).free = s.free := rfl
@[simp] theorem State.modWave_arrivals (s : State) (i : Nat) (f : Wave → Wave) : (s.modWave i f).arrivals = s.arrivals := rfl
@[simp] theorem State.modWave_cur (s : State) (i : Nat) (f : Wave → Wave) : (s.modWave i f).cur = s.cur := rfl
@[simp] theorem State.modWave_stalled (s : State) (i : Nat) (f : Wave → Wave) : (s.modWave i f).stalled = s.stalled := rfl
@[simp] theorem State.modWave_nextId (s : State) (i : Nat) (f : Wave → Wave) : (s.modWave i f).nextId = s.nextId := rfl

/-! `modTeam` changes `teams` only. -/
@[simp] theorem State.modTeam_clock (s : State) (i : Nat) (f : Team → Team) : (s.modTeam i f).clock = s.clock := rfl
@[simp] theorem State.modTeam_mem (s : State) (i : Nat) (f : Team → Team) : (s.modTeam i f).mem = s.mem := rfl
@[simp] theorem State.modTeam_poison (s : State) (i : Nat) (f : Team → Team) : (s.modTeam i f).poison = s.poison := rfl
@[simp] theorem State.modTeam_linkDown (s : State) (i : Nat) (f : Team → Team) : (s.modTeam i f).linkDown = s.linkDown := rfl
@[simp] theorem State.modTeam_routes (s : State) (i : Nat) (f : Team → Team) : (s.modTeam i f).routes = s.routes := rfl
@[simp] theorem State.modTeam_hostPath (s : State) (i : Nat) (f : Team → Team) : (s.modTeam i f).hostPath = s.hostPath := rfl
@[simp] theorem State.modTeam_l2park (s : State) (i : Nat) (f : Team → Team) : (s.modTeam i f).l2park = s.l2park := rfl
@[simp] theorem State.modTeam_patrol (s : State) (i : Nat) (f : Team → Team) : (s.modTeam i f).patrol = s.patrol := rfl
@[simp] theorem State.modTeam_parts (s : State) (i : Nat) (f : Team → Team) : (s.modTeam i f).parts = s.parts := rfl
@[simp] theorem State.modTeam_ctxs (s : State) (i : Nat) (f : Team → Team) : (s.modTeam i f).ctxs = s.ctxs := rfl
@[simp] theorem State.modTeam_power (s : State) (i : Nat) (f : Team → Team) : (s.modTeam i f).power = s.power := rfl
@[simp] theorem State.modTeam_tripped (s : State) (i : Nat) (f : Team → Team) : (s.modTeam i f).tripped = s.tripped := rfl
@[simp] theorem State.modTeam_sx (s : State) (i : Nat) (f : Team → Team) : (s.modTeam i f).sx = s.sx := rfl
@[simp] theorem State.modTeam_log (s : State) (i : Nat) (f : Team → Team) : (s.modTeam i f).log = s.log := rfl
@[simp] theorem State.modTeam_sensors (s : State) (i : Nat) (f : Team → Team) : (s.modTeam i f).sensors = s.sensors := rfl
@[simp] theorem State.modTeam_ageing (s : State) (i : Nat) (f : Team → Team) : (s.modTeam i f).ageing = s.ageing := rfl
@[simp] theorem State.modTeam_priOn (s : State) (i : Nat) (f : Team → Team) : (s.modTeam i f).priOn = s.priOn := rfl
@[simp] theorem State.modTeam_priAlloc (s : State) (i : Nat) (f : Team → Team) : (s.modTeam i f).priAlloc = s.priAlloc := rfl
@[simp] theorem State.modTeam_pages (s : State) (i : Nat) (f : Team → Team) : (s.modTeam i f).pages = s.pages := rfl
@[simp] theorem State.modTeam_ats (s : State) (i : Nat) (f : Team → Team) : (s.modTeam i f).ats = s.ats := rfl
@[simp] theorem State.modTeam_invals (s : State) (i : Nat) (f : Team → Team) : (s.modTeam i f).invals = s.invals := rfl
@[simp] theorem State.modTeam_outbox (s : State) (i : Nat) (f : Team → Team) : (s.modTeam i f).outbox = s.outbox := rfl
@[simp] theorem State.modTeam_atc (s : State) (i : Nat) (f : Team → Team) : (s.modTeam i f).atc = s.atc := rfl
@[simp] theorem State.modTeam_l2 (s : State) (i : Nat) (f : Team → Team) : (s.modTeam i f).l2 = s.l2 := rfl
@[simp] theorem State.modTeam_chart (s : State) (i : Nat) (f : Team → Team) : (s.modTeam i f).chart = s.chart := rfl
@[simp] theorem State.modTeam_parkCount (s : State) (i : Nat) (f : Team → Team) : (s.modTeam i f).parkCount = s.parkCount := rfl
@[simp] theorem State.modTeam_bears (s : State) (i : Nat) (f : Team → Team) : (s.modTeam i f).bears = s.bears := rfl
@[simp] theorem State.modTeam_mail (s : State) (i : Nat) (f : Team → Team) : (s.modTeam i f).mail = s.mail := rfl
@[simp] theorem State.modTeam_reqs (s : State) (i : Nat) (f : Team → Team) : (s.modTeam i f).reqs = s.reqs := rfl
@[simp] theorem State.modTeam_reps (s : State) (i : Nat) (f : Team → Team) : (s.modTeam i f).reps = s.reps := rfl
@[simp] theorem State.modTeam_ops (s : State) (i : Nat) (f : Team → Team) : (s.modTeam i f).ops = s.ops := rfl
@[simp] theorem State.modTeam_gbars (s : State) (i : Nat) (f : Team → Team) : (s.modTeam i f).gbars = s.gbars := rfl
@[simp] theorem State.modTeam_errs (s : State) (i : Nat) (f : Team → Team) : (s.modTeam i f).errs = s.errs := rfl
@[simp] theorem State.modTeam_icache (s : State) (i : Nat) (f : Team → Team) : (s.modTeam i f).icache = s.icache := rfl
@[simp] theorem State.modTeam_l1 (s : State) (i : Nat) (f : Team → Team) : (s.modTeam i f).l1 = s.l1 := rfl
@[simp] theorem State.modTeam_copies (s : State) (i : Nat) (f : Team → Team) : (s.modTeam i f).copies = s.copies := rfl
@[simp] theorem State.modTeam_cores (s : State) (i : Nat) (f : Team → Team) : (s.modTeam i f).cores = s.cores := rfl
@[simp] theorem State.modTeam_cnt (s : State) (i : Nat) (f : Team → Team) : (s.modTeam i f).cnt = s.cnt := rfl
@[simp] theorem State.modTeam_cnt0 (s : State) (i : Nat) (f : Team → Team) : (s.modTeam i f).cnt0 = s.cnt0 := rfl
@[simp] theorem State.modTeam_launches (s : State) (i : Nat) (f : Team → Team) : (s.modTeam i f).launches = s.launches := rfl
@[simp] theorem State.modTeam_waves (s : State) (i : Nat) (f : Team → Team) : (s.modTeam i f).waves = s.waves := rfl
@[simp] theorem State.modTeam_busy (s : State) (i : Nat) (f : Team → Team) : (s.modTeam i f).busy = s.busy := rfl
@[simp] theorem State.modTeam_free (s : State) (i : Nat) (f : Team → Team) : (s.modTeam i f).free = s.free := rfl
@[simp] theorem State.modTeam_arrivals (s : State) (i : Nat) (f : Team → Team) : (s.modTeam i f).arrivals = s.arrivals := rfl
@[simp] theorem State.modTeam_cur (s : State) (i : Nat) (f : Team → Team) : (s.modTeam i f).cur = s.cur := rfl
@[simp] theorem State.modTeam_stalled (s : State) (i : Nat) (f : Team → Team) : (s.modTeam i f).stalled = s.stalled := rfl
@[simp] theorem State.modTeam_nextId (s : State) (i : Nat) (f : Team → Team) : (s.modTeam i f).nextId = s.nextId := rfl

/-! `modLaunch` changes `launches` only. -/
@[simp] theorem State.modLaunch_clock (s : State) (i : Nat) (f : Launch → Launch) : (s.modLaunch i f).clock = s.clock := rfl
@[simp] theorem State.modLaunch_mem (s : State) (i : Nat) (f : Launch → Launch) : (s.modLaunch i f).mem = s.mem := rfl
@[simp] theorem State.modLaunch_poison (s : State) (i : Nat) (f : Launch → Launch) : (s.modLaunch i f).poison = s.poison := rfl
@[simp] theorem State.modLaunch_linkDown (s : State) (i : Nat) (f : Launch → Launch) : (s.modLaunch i f).linkDown = s.linkDown := rfl
@[simp] theorem State.modLaunch_routes (s : State) (i : Nat) (f : Launch → Launch) : (s.modLaunch i f).routes = s.routes := rfl
@[simp] theorem State.modLaunch_hostPath (s : State) (i : Nat) (f : Launch → Launch) : (s.modLaunch i f).hostPath = s.hostPath := rfl
@[simp] theorem State.modLaunch_l2park (s : State) (i : Nat) (f : Launch → Launch) : (s.modLaunch i f).l2park = s.l2park := rfl
@[simp] theorem State.modLaunch_patrol (s : State) (i : Nat) (f : Launch → Launch) : (s.modLaunch i f).patrol = s.patrol := rfl
@[simp] theorem State.modLaunch_parts (s : State) (i : Nat) (f : Launch → Launch) : (s.modLaunch i f).parts = s.parts := rfl
@[simp] theorem State.modLaunch_ctxs (s : State) (i : Nat) (f : Launch → Launch) : (s.modLaunch i f).ctxs = s.ctxs := rfl
@[simp] theorem State.modLaunch_power (s : State) (i : Nat) (f : Launch → Launch) : (s.modLaunch i f).power = s.power := rfl
@[simp] theorem State.modLaunch_tripped (s : State) (i : Nat) (f : Launch → Launch) : (s.modLaunch i f).tripped = s.tripped := rfl
@[simp] theorem State.modLaunch_sx (s : State) (i : Nat) (f : Launch → Launch) : (s.modLaunch i f).sx = s.sx := rfl
@[simp] theorem State.modLaunch_log (s : State) (i : Nat) (f : Launch → Launch) : (s.modLaunch i f).log = s.log := rfl
@[simp] theorem State.modLaunch_sensors (s : State) (i : Nat) (f : Launch → Launch) : (s.modLaunch i f).sensors = s.sensors := rfl
@[simp] theorem State.modLaunch_ageing (s : State) (i : Nat) (f : Launch → Launch) : (s.modLaunch i f).ageing = s.ageing := rfl
@[simp] theorem State.modLaunch_priOn (s : State) (i : Nat) (f : Launch → Launch) : (s.modLaunch i f).priOn = s.priOn := rfl
@[simp] theorem State.modLaunch_priAlloc (s : State) (i : Nat) (f : Launch → Launch) : (s.modLaunch i f).priAlloc = s.priAlloc := rfl
@[simp] theorem State.modLaunch_pages (s : State) (i : Nat) (f : Launch → Launch) : (s.modLaunch i f).pages = s.pages := rfl
@[simp] theorem State.modLaunch_ats (s : State) (i : Nat) (f : Launch → Launch) : (s.modLaunch i f).ats = s.ats := rfl
@[simp] theorem State.modLaunch_invals (s : State) (i : Nat) (f : Launch → Launch) : (s.modLaunch i f).invals = s.invals := rfl
@[simp] theorem State.modLaunch_outbox (s : State) (i : Nat) (f : Launch → Launch) : (s.modLaunch i f).outbox = s.outbox := rfl
@[simp] theorem State.modLaunch_atc (s : State) (i : Nat) (f : Launch → Launch) : (s.modLaunch i f).atc = s.atc := rfl
@[simp] theorem State.modLaunch_l2 (s : State) (i : Nat) (f : Launch → Launch) : (s.modLaunch i f).l2 = s.l2 := rfl
@[simp] theorem State.modLaunch_chart (s : State) (i : Nat) (f : Launch → Launch) : (s.modLaunch i f).chart = s.chart := rfl
@[simp] theorem State.modLaunch_parkCount (s : State) (i : Nat) (f : Launch → Launch) : (s.modLaunch i f).parkCount = s.parkCount := rfl
@[simp] theorem State.modLaunch_bears (s : State) (i : Nat) (f : Launch → Launch) : (s.modLaunch i f).bears = s.bears := rfl
@[simp] theorem State.modLaunch_mail (s : State) (i : Nat) (f : Launch → Launch) : (s.modLaunch i f).mail = s.mail := rfl
@[simp] theorem State.modLaunch_reqs (s : State) (i : Nat) (f : Launch → Launch) : (s.modLaunch i f).reqs = s.reqs := rfl
@[simp] theorem State.modLaunch_reps (s : State) (i : Nat) (f : Launch → Launch) : (s.modLaunch i f).reps = s.reps := rfl
@[simp] theorem State.modLaunch_ops (s : State) (i : Nat) (f : Launch → Launch) : (s.modLaunch i f).ops = s.ops := rfl
@[simp] theorem State.modLaunch_gbars (s : State) (i : Nat) (f : Launch → Launch) : (s.modLaunch i f).gbars = s.gbars := rfl
@[simp] theorem State.modLaunch_errs (s : State) (i : Nat) (f : Launch → Launch) : (s.modLaunch i f).errs = s.errs := rfl
@[simp] theorem State.modLaunch_icache (s : State) (i : Nat) (f : Launch → Launch) : (s.modLaunch i f).icache = s.icache := rfl
@[simp] theorem State.modLaunch_l1 (s : State) (i : Nat) (f : Launch → Launch) : (s.modLaunch i f).l1 = s.l1 := rfl
@[simp] theorem State.modLaunch_copies (s : State) (i : Nat) (f : Launch → Launch) : (s.modLaunch i f).copies = s.copies := rfl
@[simp] theorem State.modLaunch_cores (s : State) (i : Nat) (f : Launch → Launch) : (s.modLaunch i f).cores = s.cores := rfl
@[simp] theorem State.modLaunch_cnt (s : State) (i : Nat) (f : Launch → Launch) : (s.modLaunch i f).cnt = s.cnt := rfl
@[simp] theorem State.modLaunch_cnt0 (s : State) (i : Nat) (f : Launch → Launch) : (s.modLaunch i f).cnt0 = s.cnt0 := rfl
@[simp] theorem State.modLaunch_teams (s : State) (i : Nat) (f : Launch → Launch) : (s.modLaunch i f).teams = s.teams := rfl
@[simp] theorem State.modLaunch_waves (s : State) (i : Nat) (f : Launch → Launch) : (s.modLaunch i f).waves = s.waves := rfl
@[simp] theorem State.modLaunch_busy (s : State) (i : Nat) (f : Launch → Launch) : (s.modLaunch i f).busy = s.busy := rfl
@[simp] theorem State.modLaunch_free (s : State) (i : Nat) (f : Launch → Launch) : (s.modLaunch i f).free = s.free := rfl
@[simp] theorem State.modLaunch_arrivals (s : State) (i : Nat) (f : Launch → Launch) : (s.modLaunch i f).arrivals = s.arrivals := rfl
@[simp] theorem State.modLaunch_cur (s : State) (i : Nat) (f : Launch → Launch) : (s.modLaunch i f).cur = s.cur := rfl
@[simp] theorem State.modLaunch_stalled (s : State) (i : Nat) (f : Launch → Launch) : (s.modLaunch i f).stalled = s.stalled := rfl
@[simp] theorem State.modLaunch_nextId (s : State) (i : Nat) (f : Launch → Launch) : (s.modLaunch i f).nextId = s.nextId := rfl

/-! `modPart` changes `parts` only. -/
@[simp] theorem State.modPart_clock (s : State) (i : Nat) (f : Part → Part) : (s.modPart i f).clock = s.clock := rfl
@[simp] theorem State.modPart_mem (s : State) (i : Nat) (f : Part → Part) : (s.modPart i f).mem = s.mem := rfl
@[simp] theorem State.modPart_poison (s : State) (i : Nat) (f : Part → Part) : (s.modPart i f).poison = s.poison := rfl
@[simp] theorem State.modPart_linkDown (s : State) (i : Nat) (f : Part → Part) : (s.modPart i f).linkDown = s.linkDown := rfl
@[simp] theorem State.modPart_routes (s : State) (i : Nat) (f : Part → Part) : (s.modPart i f).routes = s.routes := rfl
@[simp] theorem State.modPart_hostPath (s : State) (i : Nat) (f : Part → Part) : (s.modPart i f).hostPath = s.hostPath := rfl
@[simp] theorem State.modPart_l2park (s : State) (i : Nat) (f : Part → Part) : (s.modPart i f).l2park = s.l2park := rfl
@[simp] theorem State.modPart_patrol (s : State) (i : Nat) (f : Part → Part) : (s.modPart i f).patrol = s.patrol := rfl
@[simp] theorem State.modPart_ctxs (s : State) (i : Nat) (f : Part → Part) : (s.modPart i f).ctxs = s.ctxs := rfl
@[simp] theorem State.modPart_power (s : State) (i : Nat) (f : Part → Part) : (s.modPart i f).power = s.power := rfl
@[simp] theorem State.modPart_tripped (s : State) (i : Nat) (f : Part → Part) : (s.modPart i f).tripped = s.tripped := rfl
@[simp] theorem State.modPart_sx (s : State) (i : Nat) (f : Part → Part) : (s.modPart i f).sx = s.sx := rfl
@[simp] theorem State.modPart_log (s : State) (i : Nat) (f : Part → Part) : (s.modPart i f).log = s.log := rfl
@[simp] theorem State.modPart_sensors (s : State) (i : Nat) (f : Part → Part) : (s.modPart i f).sensors = s.sensors := rfl
@[simp] theorem State.modPart_ageing (s : State) (i : Nat) (f : Part → Part) : (s.modPart i f).ageing = s.ageing := rfl
@[simp] theorem State.modPart_priOn (s : State) (i : Nat) (f : Part → Part) : (s.modPart i f).priOn = s.priOn := rfl
@[simp] theorem State.modPart_priAlloc (s : State) (i : Nat) (f : Part → Part) : (s.modPart i f).priAlloc = s.priAlloc := rfl
@[simp] theorem State.modPart_pages (s : State) (i : Nat) (f : Part → Part) : (s.modPart i f).pages = s.pages := rfl
@[simp] theorem State.modPart_ats (s : State) (i : Nat) (f : Part → Part) : (s.modPart i f).ats = s.ats := rfl
@[simp] theorem State.modPart_invals (s : State) (i : Nat) (f : Part → Part) : (s.modPart i f).invals = s.invals := rfl
@[simp] theorem State.modPart_outbox (s : State) (i : Nat) (f : Part → Part) : (s.modPart i f).outbox = s.outbox := rfl
@[simp] theorem State.modPart_atc (s : State) (i : Nat) (f : Part → Part) : (s.modPart i f).atc = s.atc := rfl
@[simp] theorem State.modPart_l2 (s : State) (i : Nat) (f : Part → Part) : (s.modPart i f).l2 = s.l2 := rfl
@[simp] theorem State.modPart_chart (s : State) (i : Nat) (f : Part → Part) : (s.modPart i f).chart = s.chart := rfl
@[simp] theorem State.modPart_parkCount (s : State) (i : Nat) (f : Part → Part) : (s.modPart i f).parkCount = s.parkCount := rfl
@[simp] theorem State.modPart_bears (s : State) (i : Nat) (f : Part → Part) : (s.modPart i f).bears = s.bears := rfl
@[simp] theorem State.modPart_mail (s : State) (i : Nat) (f : Part → Part) : (s.modPart i f).mail = s.mail := rfl
@[simp] theorem State.modPart_reqs (s : State) (i : Nat) (f : Part → Part) : (s.modPart i f).reqs = s.reqs := rfl
@[simp] theorem State.modPart_reps (s : State) (i : Nat) (f : Part → Part) : (s.modPart i f).reps = s.reps := rfl
@[simp] theorem State.modPart_ops (s : State) (i : Nat) (f : Part → Part) : (s.modPart i f).ops = s.ops := rfl
@[simp] theorem State.modPart_gbars (s : State) (i : Nat) (f : Part → Part) : (s.modPart i f).gbars = s.gbars := rfl
@[simp] theorem State.modPart_errs (s : State) (i : Nat) (f : Part → Part) : (s.modPart i f).errs = s.errs := rfl
@[simp] theorem State.modPart_icache (s : State) (i : Nat) (f : Part → Part) : (s.modPart i f).icache = s.icache := rfl
@[simp] theorem State.modPart_l1 (s : State) (i : Nat) (f : Part → Part) : (s.modPart i f).l1 = s.l1 := rfl
@[simp] theorem State.modPart_copies (s : State) (i : Nat) (f : Part → Part) : (s.modPart i f).copies = s.copies := rfl
@[simp] theorem State.modPart_cores (s : State) (i : Nat) (f : Part → Part) : (s.modPart i f).cores = s.cores := rfl
@[simp] theorem State.modPart_cnt (s : State) (i : Nat) (f : Part → Part) : (s.modPart i f).cnt = s.cnt := rfl
@[simp] theorem State.modPart_cnt0 (s : State) (i : Nat) (f : Part → Part) : (s.modPart i f).cnt0 = s.cnt0 := rfl
@[simp] theorem State.modPart_launches (s : State) (i : Nat) (f : Part → Part) : (s.modPart i f).launches = s.launches := rfl
@[simp] theorem State.modPart_teams (s : State) (i : Nat) (f : Part → Part) : (s.modPart i f).teams = s.teams := rfl
@[simp] theorem State.modPart_waves (s : State) (i : Nat) (f : Part → Part) : (s.modPart i f).waves = s.waves := rfl
@[simp] theorem State.modPart_busy (s : State) (i : Nat) (f : Part → Part) : (s.modPart i f).busy = s.busy := rfl
@[simp] theorem State.modPart_free (s : State) (i : Nat) (f : Part → Part) : (s.modPart i f).free = s.free := rfl
@[simp] theorem State.modPart_arrivals (s : State) (i : Nat) (f : Part → Part) : (s.modPart i f).arrivals = s.arrivals := rfl
@[simp] theorem State.modPart_cur (s : State) (i : Nat) (f : Part → Part) : (s.modPart i f).cur = s.cur := rfl
@[simp] theorem State.modPart_stalled (s : State) (i : Nat) (f : Part → Part) : (s.modPart i f).stalled = s.stalled := rfl
@[simp] theorem State.modPart_nextId (s : State) (i : Nat) (f : Part → Part) : (s.modPart i f).nextId = s.nextId := rfl

/-! `modCtx` changes `ctxs` only. -/
@[simp] theorem State.modCtx_clock (s : State) (i : Nat) (f : Ctx → Ctx) : (s.modCtx i f).clock = s.clock := rfl
@[simp] theorem State.modCtx_mem (s : State) (i : Nat) (f : Ctx → Ctx) : (s.modCtx i f).mem = s.mem := rfl
@[simp] theorem State.modCtx_poison (s : State) (i : Nat) (f : Ctx → Ctx) : (s.modCtx i f).poison = s.poison := rfl
@[simp] theorem State.modCtx_linkDown (s : State) (i : Nat) (f : Ctx → Ctx) : (s.modCtx i f).linkDown = s.linkDown := rfl
@[simp] theorem State.modCtx_routes (s : State) (i : Nat) (f : Ctx → Ctx) : (s.modCtx i f).routes = s.routes := rfl
@[simp] theorem State.modCtx_hostPath (s : State) (i : Nat) (f : Ctx → Ctx) : (s.modCtx i f).hostPath = s.hostPath := rfl
@[simp] theorem State.modCtx_l2park (s : State) (i : Nat) (f : Ctx → Ctx) : (s.modCtx i f).l2park = s.l2park := rfl
@[simp] theorem State.modCtx_patrol (s : State) (i : Nat) (f : Ctx → Ctx) : (s.modCtx i f).patrol = s.patrol := rfl
@[simp] theorem State.modCtx_parts (s : State) (i : Nat) (f : Ctx → Ctx) : (s.modCtx i f).parts = s.parts := rfl
@[simp] theorem State.modCtx_power (s : State) (i : Nat) (f : Ctx → Ctx) : (s.modCtx i f).power = s.power := rfl
@[simp] theorem State.modCtx_tripped (s : State) (i : Nat) (f : Ctx → Ctx) : (s.modCtx i f).tripped = s.tripped := rfl
@[simp] theorem State.modCtx_sx (s : State) (i : Nat) (f : Ctx → Ctx) : (s.modCtx i f).sx = s.sx := rfl
@[simp] theorem State.modCtx_log (s : State) (i : Nat) (f : Ctx → Ctx) : (s.modCtx i f).log = s.log := rfl
@[simp] theorem State.modCtx_sensors (s : State) (i : Nat) (f : Ctx → Ctx) : (s.modCtx i f).sensors = s.sensors := rfl
@[simp] theorem State.modCtx_ageing (s : State) (i : Nat) (f : Ctx → Ctx) : (s.modCtx i f).ageing = s.ageing := rfl
@[simp] theorem State.modCtx_priOn (s : State) (i : Nat) (f : Ctx → Ctx) : (s.modCtx i f).priOn = s.priOn := rfl
@[simp] theorem State.modCtx_priAlloc (s : State) (i : Nat) (f : Ctx → Ctx) : (s.modCtx i f).priAlloc = s.priAlloc := rfl
@[simp] theorem State.modCtx_pages (s : State) (i : Nat) (f : Ctx → Ctx) : (s.modCtx i f).pages = s.pages := rfl
@[simp] theorem State.modCtx_ats (s : State) (i : Nat) (f : Ctx → Ctx) : (s.modCtx i f).ats = s.ats := rfl
@[simp] theorem State.modCtx_invals (s : State) (i : Nat) (f : Ctx → Ctx) : (s.modCtx i f).invals = s.invals := rfl
@[simp] theorem State.modCtx_outbox (s : State) (i : Nat) (f : Ctx → Ctx) : (s.modCtx i f).outbox = s.outbox := rfl
@[simp] theorem State.modCtx_atc (s : State) (i : Nat) (f : Ctx → Ctx) : (s.modCtx i f).atc = s.atc := rfl
@[simp] theorem State.modCtx_l2 (s : State) (i : Nat) (f : Ctx → Ctx) : (s.modCtx i f).l2 = s.l2 := rfl
@[simp] theorem State.modCtx_chart (s : State) (i : Nat) (f : Ctx → Ctx) : (s.modCtx i f).chart = s.chart := rfl
@[simp] theorem State.modCtx_parkCount (s : State) (i : Nat) (f : Ctx → Ctx) : (s.modCtx i f).parkCount = s.parkCount := rfl
@[simp] theorem State.modCtx_bears (s : State) (i : Nat) (f : Ctx → Ctx) : (s.modCtx i f).bears = s.bears := rfl
@[simp] theorem State.modCtx_mail (s : State) (i : Nat) (f : Ctx → Ctx) : (s.modCtx i f).mail = s.mail := rfl
@[simp] theorem State.modCtx_reqs (s : State) (i : Nat) (f : Ctx → Ctx) : (s.modCtx i f).reqs = s.reqs := rfl
@[simp] theorem State.modCtx_reps (s : State) (i : Nat) (f : Ctx → Ctx) : (s.modCtx i f).reps = s.reps := rfl
@[simp] theorem State.modCtx_ops (s : State) (i : Nat) (f : Ctx → Ctx) : (s.modCtx i f).ops = s.ops := rfl
@[simp] theorem State.modCtx_gbars (s : State) (i : Nat) (f : Ctx → Ctx) : (s.modCtx i f).gbars = s.gbars := rfl
@[simp] theorem State.modCtx_errs (s : State) (i : Nat) (f : Ctx → Ctx) : (s.modCtx i f).errs = s.errs := rfl
@[simp] theorem State.modCtx_icache (s : State) (i : Nat) (f : Ctx → Ctx) : (s.modCtx i f).icache = s.icache := rfl
@[simp] theorem State.modCtx_l1 (s : State) (i : Nat) (f : Ctx → Ctx) : (s.modCtx i f).l1 = s.l1 := rfl
@[simp] theorem State.modCtx_copies (s : State) (i : Nat) (f : Ctx → Ctx) : (s.modCtx i f).copies = s.copies := rfl
@[simp] theorem State.modCtx_cores (s : State) (i : Nat) (f : Ctx → Ctx) : (s.modCtx i f).cores = s.cores := rfl
@[simp] theorem State.modCtx_cnt (s : State) (i : Nat) (f : Ctx → Ctx) : (s.modCtx i f).cnt = s.cnt := rfl
@[simp] theorem State.modCtx_cnt0 (s : State) (i : Nat) (f : Ctx → Ctx) : (s.modCtx i f).cnt0 = s.cnt0 := rfl
@[simp] theorem State.modCtx_launches (s : State) (i : Nat) (f : Ctx → Ctx) : (s.modCtx i f).launches = s.launches := rfl
@[simp] theorem State.modCtx_teams (s : State) (i : Nat) (f : Ctx → Ctx) : (s.modCtx i f).teams = s.teams := rfl
@[simp] theorem State.modCtx_waves (s : State) (i : Nat) (f : Ctx → Ctx) : (s.modCtx i f).waves = s.waves := rfl
@[simp] theorem State.modCtx_busy (s : State) (i : Nat) (f : Ctx → Ctx) : (s.modCtx i f).busy = s.busy := rfl
@[simp] theorem State.modCtx_free (s : State) (i : Nat) (f : Ctx → Ctx) : (s.modCtx i f).free = s.free := rfl
@[simp] theorem State.modCtx_arrivals (s : State) (i : Nat) (f : Ctx → Ctx) : (s.modCtx i f).arrivals = s.arrivals := rfl
@[simp] theorem State.modCtx_cur (s : State) (i : Nat) (f : Ctx → Ctx) : (s.modCtx i f).cur = s.cur := rfl
@[simp] theorem State.modCtx_stalled (s : State) (i : Nat) (f : Ctx → Ctx) : (s.modCtx i f).stalled = s.stalled := rfl
@[simp] theorem State.modCtx_nextId (s : State) (i : Nat) (f : Ctx → Ctx) : (s.modCtx i f).nextId = s.nextId := rfl

/-! `modOp` changes `ops` only. -/
@[simp] theorem State.modOp_clock (s : State) (i : Nat) (f : Op → Op) : (s.modOp i f).clock = s.clock := rfl
@[simp] theorem State.modOp_mem (s : State) (i : Nat) (f : Op → Op) : (s.modOp i f).mem = s.mem := rfl
@[simp] theorem State.modOp_poison (s : State) (i : Nat) (f : Op → Op) : (s.modOp i f).poison = s.poison := rfl
@[simp] theorem State.modOp_linkDown (s : State) (i : Nat) (f : Op → Op) : (s.modOp i f).linkDown = s.linkDown := rfl
@[simp] theorem State.modOp_routes (s : State) (i : Nat) (f : Op → Op) : (s.modOp i f).routes = s.routes := rfl
@[simp] theorem State.modOp_hostPath (s : State) (i : Nat) (f : Op → Op) : (s.modOp i f).hostPath = s.hostPath := rfl
@[simp] theorem State.modOp_l2park (s : State) (i : Nat) (f : Op → Op) : (s.modOp i f).l2park = s.l2park := rfl
@[simp] theorem State.modOp_patrol (s : State) (i : Nat) (f : Op → Op) : (s.modOp i f).patrol = s.patrol := rfl
@[simp] theorem State.modOp_parts (s : State) (i : Nat) (f : Op → Op) : (s.modOp i f).parts = s.parts := rfl
@[simp] theorem State.modOp_ctxs (s : State) (i : Nat) (f : Op → Op) : (s.modOp i f).ctxs = s.ctxs := rfl
@[simp] theorem State.modOp_power (s : State) (i : Nat) (f : Op → Op) : (s.modOp i f).power = s.power := rfl
@[simp] theorem State.modOp_tripped (s : State) (i : Nat) (f : Op → Op) : (s.modOp i f).tripped = s.tripped := rfl
@[simp] theorem State.modOp_sx (s : State) (i : Nat) (f : Op → Op) : (s.modOp i f).sx = s.sx := rfl
@[simp] theorem State.modOp_log (s : State) (i : Nat) (f : Op → Op) : (s.modOp i f).log = s.log := rfl
@[simp] theorem State.modOp_sensors (s : State) (i : Nat) (f : Op → Op) : (s.modOp i f).sensors = s.sensors := rfl
@[simp] theorem State.modOp_ageing (s : State) (i : Nat) (f : Op → Op) : (s.modOp i f).ageing = s.ageing := rfl
@[simp] theorem State.modOp_priOn (s : State) (i : Nat) (f : Op → Op) : (s.modOp i f).priOn = s.priOn := rfl
@[simp] theorem State.modOp_priAlloc (s : State) (i : Nat) (f : Op → Op) : (s.modOp i f).priAlloc = s.priAlloc := rfl
@[simp] theorem State.modOp_pages (s : State) (i : Nat) (f : Op → Op) : (s.modOp i f).pages = s.pages := rfl
@[simp] theorem State.modOp_ats (s : State) (i : Nat) (f : Op → Op) : (s.modOp i f).ats = s.ats := rfl
@[simp] theorem State.modOp_invals (s : State) (i : Nat) (f : Op → Op) : (s.modOp i f).invals = s.invals := rfl
@[simp] theorem State.modOp_outbox (s : State) (i : Nat) (f : Op → Op) : (s.modOp i f).outbox = s.outbox := rfl
@[simp] theorem State.modOp_atc (s : State) (i : Nat) (f : Op → Op) : (s.modOp i f).atc = s.atc := rfl
@[simp] theorem State.modOp_l2 (s : State) (i : Nat) (f : Op → Op) : (s.modOp i f).l2 = s.l2 := rfl
@[simp] theorem State.modOp_chart (s : State) (i : Nat) (f : Op → Op) : (s.modOp i f).chart = s.chart := rfl
@[simp] theorem State.modOp_parkCount (s : State) (i : Nat) (f : Op → Op) : (s.modOp i f).parkCount = s.parkCount := rfl
@[simp] theorem State.modOp_bears (s : State) (i : Nat) (f : Op → Op) : (s.modOp i f).bears = s.bears := rfl
@[simp] theorem State.modOp_mail (s : State) (i : Nat) (f : Op → Op) : (s.modOp i f).mail = s.mail := rfl
@[simp] theorem State.modOp_reqs (s : State) (i : Nat) (f : Op → Op) : (s.modOp i f).reqs = s.reqs := rfl
@[simp] theorem State.modOp_reps (s : State) (i : Nat) (f : Op → Op) : (s.modOp i f).reps = s.reps := rfl
@[simp] theorem State.modOp_gbars (s : State) (i : Nat) (f : Op → Op) : (s.modOp i f).gbars = s.gbars := rfl
@[simp] theorem State.modOp_errs (s : State) (i : Nat) (f : Op → Op) : (s.modOp i f).errs = s.errs := rfl
@[simp] theorem State.modOp_icache (s : State) (i : Nat) (f : Op → Op) : (s.modOp i f).icache = s.icache := rfl
@[simp] theorem State.modOp_l1 (s : State) (i : Nat) (f : Op → Op) : (s.modOp i f).l1 = s.l1 := rfl
@[simp] theorem State.modOp_copies (s : State) (i : Nat) (f : Op → Op) : (s.modOp i f).copies = s.copies := rfl
@[simp] theorem State.modOp_cores (s : State) (i : Nat) (f : Op → Op) : (s.modOp i f).cores = s.cores := rfl
@[simp] theorem State.modOp_cnt (s : State) (i : Nat) (f : Op → Op) : (s.modOp i f).cnt = s.cnt := rfl
@[simp] theorem State.modOp_cnt0 (s : State) (i : Nat) (f : Op → Op) : (s.modOp i f).cnt0 = s.cnt0 := rfl
@[simp] theorem State.modOp_launches (s : State) (i : Nat) (f : Op → Op) : (s.modOp i f).launches = s.launches := rfl
@[simp] theorem State.modOp_teams (s : State) (i : Nat) (f : Op → Op) : (s.modOp i f).teams = s.teams := rfl
@[simp] theorem State.modOp_waves (s : State) (i : Nat) (f : Op → Op) : (s.modOp i f).waves = s.waves := rfl
@[simp] theorem State.modOp_busy (s : State) (i : Nat) (f : Op → Op) : (s.modOp i f).busy = s.busy := rfl
@[simp] theorem State.modOp_free (s : State) (i : Nat) (f : Op → Op) : (s.modOp i f).free = s.free := rfl
@[simp] theorem State.modOp_arrivals (s : State) (i : Nat) (f : Op → Op) : (s.modOp i f).arrivals = s.arrivals := rfl
@[simp] theorem State.modOp_cur (s : State) (i : Nat) (f : Op → Op) : (s.modOp i f).cur = s.cur := rfl
@[simp] theorem State.modOp_stalled (s : State) (i : Nat) (f : Op → Op) : (s.modOp i f).stalled = s.stalled := rfl
@[simp] theorem State.modOp_nextId (s : State) (i : Nat) (f : Op → Op) : (s.modOp i f).nextId = s.nextId := rfl

/-! `dropOp` changes `ops` only. -/
@[simp] theorem State.dropOp_clock (s : State) (i : Nat) : (s.dropOp i).clock = s.clock := rfl
@[simp] theorem State.dropOp_mem (s : State) (i : Nat) : (s.dropOp i).mem = s.mem := rfl
@[simp] theorem State.dropOp_poison (s : State) (i : Nat) : (s.dropOp i).poison = s.poison := rfl
@[simp] theorem State.dropOp_linkDown (s : State) (i : Nat) : (s.dropOp i).linkDown = s.linkDown := rfl
@[simp] theorem State.dropOp_routes (s : State) (i : Nat) : (s.dropOp i).routes = s.routes := rfl
@[simp] theorem State.dropOp_hostPath (s : State) (i : Nat) : (s.dropOp i).hostPath = s.hostPath := rfl
@[simp] theorem State.dropOp_l2park (s : State) (i : Nat) : (s.dropOp i).l2park = s.l2park := rfl
@[simp] theorem State.dropOp_patrol (s : State) (i : Nat) : (s.dropOp i).patrol = s.patrol := rfl
@[simp] theorem State.dropOp_parts (s : State) (i : Nat) : (s.dropOp i).parts = s.parts := rfl
@[simp] theorem State.dropOp_ctxs (s : State) (i : Nat) : (s.dropOp i).ctxs = s.ctxs := rfl
@[simp] theorem State.dropOp_power (s : State) (i : Nat) : (s.dropOp i).power = s.power := rfl
@[simp] theorem State.dropOp_tripped (s : State) (i : Nat) : (s.dropOp i).tripped = s.tripped := rfl
@[simp] theorem State.dropOp_sx (s : State) (i : Nat) : (s.dropOp i).sx = s.sx := rfl
@[simp] theorem State.dropOp_log (s : State) (i : Nat) : (s.dropOp i).log = s.log := rfl
@[simp] theorem State.dropOp_sensors (s : State) (i : Nat) : (s.dropOp i).sensors = s.sensors := rfl
@[simp] theorem State.dropOp_ageing (s : State) (i : Nat) : (s.dropOp i).ageing = s.ageing := rfl
@[simp] theorem State.dropOp_priOn (s : State) (i : Nat) : (s.dropOp i).priOn = s.priOn := rfl
@[simp] theorem State.dropOp_priAlloc (s : State) (i : Nat) : (s.dropOp i).priAlloc = s.priAlloc := rfl
@[simp] theorem State.dropOp_pages (s : State) (i : Nat) : (s.dropOp i).pages = s.pages := rfl
@[simp] theorem State.dropOp_ats (s : State) (i : Nat) : (s.dropOp i).ats = s.ats := rfl
@[simp] theorem State.dropOp_invals (s : State) (i : Nat) : (s.dropOp i).invals = s.invals := rfl
@[simp] theorem State.dropOp_outbox (s : State) (i : Nat) : (s.dropOp i).outbox = s.outbox := rfl
@[simp] theorem State.dropOp_atc (s : State) (i : Nat) : (s.dropOp i).atc = s.atc := rfl
@[simp] theorem State.dropOp_l2 (s : State) (i : Nat) : (s.dropOp i).l2 = s.l2 := rfl
@[simp] theorem State.dropOp_chart (s : State) (i : Nat) : (s.dropOp i).chart = s.chart := rfl
@[simp] theorem State.dropOp_parkCount (s : State) (i : Nat) : (s.dropOp i).parkCount = s.parkCount := rfl
@[simp] theorem State.dropOp_bears (s : State) (i : Nat) : (s.dropOp i).bears = s.bears := rfl
@[simp] theorem State.dropOp_mail (s : State) (i : Nat) : (s.dropOp i).mail = s.mail := rfl
@[simp] theorem State.dropOp_reqs (s : State) (i : Nat) : (s.dropOp i).reqs = s.reqs := rfl
@[simp] theorem State.dropOp_reps (s : State) (i : Nat) : (s.dropOp i).reps = s.reps := rfl
@[simp] theorem State.dropOp_gbars (s : State) (i : Nat) : (s.dropOp i).gbars = s.gbars := rfl
@[simp] theorem State.dropOp_errs (s : State) (i : Nat) : (s.dropOp i).errs = s.errs := rfl
@[simp] theorem State.dropOp_icache (s : State) (i : Nat) : (s.dropOp i).icache = s.icache := rfl
@[simp] theorem State.dropOp_l1 (s : State) (i : Nat) : (s.dropOp i).l1 = s.l1 := rfl
@[simp] theorem State.dropOp_copies (s : State) (i : Nat) : (s.dropOp i).copies = s.copies := rfl
@[simp] theorem State.dropOp_cores (s : State) (i : Nat) : (s.dropOp i).cores = s.cores := rfl
@[simp] theorem State.dropOp_cnt (s : State) (i : Nat) : (s.dropOp i).cnt = s.cnt := rfl
@[simp] theorem State.dropOp_cnt0 (s : State) (i : Nat) : (s.dropOp i).cnt0 = s.cnt0 := rfl
@[simp] theorem State.dropOp_launches (s : State) (i : Nat) : (s.dropOp i).launches = s.launches := rfl
@[simp] theorem State.dropOp_teams (s : State) (i : Nat) : (s.dropOp i).teams = s.teams := rfl
@[simp] theorem State.dropOp_waves (s : State) (i : Nat) : (s.dropOp i).waves = s.waves := rfl
@[simp] theorem State.dropOp_busy (s : State) (i : Nat) : (s.dropOp i).busy = s.busy := rfl
@[simp] theorem State.dropOp_free (s : State) (i : Nat) : (s.dropOp i).free = s.free := rfl
@[simp] theorem State.dropOp_arrivals (s : State) (i : Nat) : (s.dropOp i).arrivals = s.arrivals := rfl
@[simp] theorem State.dropOp_cur (s : State) (i : Nat) : (s.dropOp i).cur = s.cur := rfl
@[simp] theorem State.dropOp_stalled (s : State) (i : Nat) : (s.dropOp i).stalled = s.stalled := rfl
@[simp] theorem State.dropOp_nextId (s : State) (i : Nat) : (s.dropOp i).nextId = s.nextId := rfl

/-! `modCore` changes `cores` only. -/
@[simp] theorem State.modCore_clock (s : State) (i : Nat) (f : CoreSt → CoreSt) : (s.modCore i f).clock = s.clock := rfl
@[simp] theorem State.modCore_mem (s : State) (i : Nat) (f : CoreSt → CoreSt) : (s.modCore i f).mem = s.mem := rfl
@[simp] theorem State.modCore_poison (s : State) (i : Nat) (f : CoreSt → CoreSt) : (s.modCore i f).poison = s.poison := rfl
@[simp] theorem State.modCore_linkDown (s : State) (i : Nat) (f : CoreSt → CoreSt) : (s.modCore i f).linkDown = s.linkDown := rfl
@[simp] theorem State.modCore_routes (s : State) (i : Nat) (f : CoreSt → CoreSt) : (s.modCore i f).routes = s.routes := rfl
@[simp] theorem State.modCore_hostPath (s : State) (i : Nat) (f : CoreSt → CoreSt) : (s.modCore i f).hostPath = s.hostPath := rfl
@[simp] theorem State.modCore_l2park (s : State) (i : Nat) (f : CoreSt → CoreSt) : (s.modCore i f).l2park = s.l2park := rfl
@[simp] theorem State.modCore_patrol (s : State) (i : Nat) (f : CoreSt → CoreSt) : (s.modCore i f).patrol = s.patrol := rfl
@[simp] theorem State.modCore_parts (s : State) (i : Nat) (f : CoreSt → CoreSt) : (s.modCore i f).parts = s.parts := rfl
@[simp] theorem State.modCore_ctxs (s : State) (i : Nat) (f : CoreSt → CoreSt) : (s.modCore i f).ctxs = s.ctxs := rfl
@[simp] theorem State.modCore_power (s : State) (i : Nat) (f : CoreSt → CoreSt) : (s.modCore i f).power = s.power := rfl
@[simp] theorem State.modCore_tripped (s : State) (i : Nat) (f : CoreSt → CoreSt) : (s.modCore i f).tripped = s.tripped := rfl
@[simp] theorem State.modCore_sx (s : State) (i : Nat) (f : CoreSt → CoreSt) : (s.modCore i f).sx = s.sx := rfl
@[simp] theorem State.modCore_log (s : State) (i : Nat) (f : CoreSt → CoreSt) : (s.modCore i f).log = s.log := rfl
@[simp] theorem State.modCore_sensors (s : State) (i : Nat) (f : CoreSt → CoreSt) : (s.modCore i f).sensors = s.sensors := rfl
@[simp] theorem State.modCore_ageing (s : State) (i : Nat) (f : CoreSt → CoreSt) : (s.modCore i f).ageing = s.ageing := rfl
@[simp] theorem State.modCore_priOn (s : State) (i : Nat) (f : CoreSt → CoreSt) : (s.modCore i f).priOn = s.priOn := rfl
@[simp] theorem State.modCore_priAlloc (s : State) (i : Nat) (f : CoreSt → CoreSt) : (s.modCore i f).priAlloc = s.priAlloc := rfl
@[simp] theorem State.modCore_pages (s : State) (i : Nat) (f : CoreSt → CoreSt) : (s.modCore i f).pages = s.pages := rfl
@[simp] theorem State.modCore_ats (s : State) (i : Nat) (f : CoreSt → CoreSt) : (s.modCore i f).ats = s.ats := rfl
@[simp] theorem State.modCore_invals (s : State) (i : Nat) (f : CoreSt → CoreSt) : (s.modCore i f).invals = s.invals := rfl
@[simp] theorem State.modCore_outbox (s : State) (i : Nat) (f : CoreSt → CoreSt) : (s.modCore i f).outbox = s.outbox := rfl
@[simp] theorem State.modCore_atc (s : State) (i : Nat) (f : CoreSt → CoreSt) : (s.modCore i f).atc = s.atc := rfl
@[simp] theorem State.modCore_l2 (s : State) (i : Nat) (f : CoreSt → CoreSt) : (s.modCore i f).l2 = s.l2 := rfl
@[simp] theorem State.modCore_chart (s : State) (i : Nat) (f : CoreSt → CoreSt) : (s.modCore i f).chart = s.chart := rfl
@[simp] theorem State.modCore_parkCount (s : State) (i : Nat) (f : CoreSt → CoreSt) : (s.modCore i f).parkCount = s.parkCount := rfl
@[simp] theorem State.modCore_bears (s : State) (i : Nat) (f : CoreSt → CoreSt) : (s.modCore i f).bears = s.bears := rfl
@[simp] theorem State.modCore_mail (s : State) (i : Nat) (f : CoreSt → CoreSt) : (s.modCore i f).mail = s.mail := rfl
@[simp] theorem State.modCore_reqs (s : State) (i : Nat) (f : CoreSt → CoreSt) : (s.modCore i f).reqs = s.reqs := rfl
@[simp] theorem State.modCore_reps (s : State) (i : Nat) (f : CoreSt → CoreSt) : (s.modCore i f).reps = s.reps := rfl
@[simp] theorem State.modCore_ops (s : State) (i : Nat) (f : CoreSt → CoreSt) : (s.modCore i f).ops = s.ops := rfl
@[simp] theorem State.modCore_gbars (s : State) (i : Nat) (f : CoreSt → CoreSt) : (s.modCore i f).gbars = s.gbars := rfl
@[simp] theorem State.modCore_errs (s : State) (i : Nat) (f : CoreSt → CoreSt) : (s.modCore i f).errs = s.errs := rfl
@[simp] theorem State.modCore_icache (s : State) (i : Nat) (f : CoreSt → CoreSt) : (s.modCore i f).icache = s.icache := rfl
@[simp] theorem State.modCore_l1 (s : State) (i : Nat) (f : CoreSt → CoreSt) : (s.modCore i f).l1 = s.l1 := rfl
@[simp] theorem State.modCore_copies (s : State) (i : Nat) (f : CoreSt → CoreSt) : (s.modCore i f).copies = s.copies := rfl
@[simp] theorem State.modCore_cnt (s : State) (i : Nat) (f : CoreSt → CoreSt) : (s.modCore i f).cnt = s.cnt := rfl
@[simp] theorem State.modCore_cnt0 (s : State) (i : Nat) (f : CoreSt → CoreSt) : (s.modCore i f).cnt0 = s.cnt0 := rfl
@[simp] theorem State.modCore_launches (s : State) (i : Nat) (f : CoreSt → CoreSt) : (s.modCore i f).launches = s.launches := rfl
@[simp] theorem State.modCore_teams (s : State) (i : Nat) (f : CoreSt → CoreSt) : (s.modCore i f).teams = s.teams := rfl
@[simp] theorem State.modCore_waves (s : State) (i : Nat) (f : CoreSt → CoreSt) : (s.modCore i f).waves = s.waves := rfl
@[simp] theorem State.modCore_busy (s : State) (i : Nat) (f : CoreSt → CoreSt) : (s.modCore i f).busy = s.busy := rfl
@[simp] theorem State.modCore_free (s : State) (i : Nat) (f : CoreSt → CoreSt) : (s.modCore i f).free = s.free := rfl
@[simp] theorem State.modCore_arrivals (s : State) (i : Nat) (f : CoreSt → CoreSt) : (s.modCore i f).arrivals = s.arrivals := rfl
@[simp] theorem State.modCore_cur (s : State) (i : Nat) (f : CoreSt → CoreSt) : (s.modCore i f).cur = s.cur := rfl
@[simp] theorem State.modCore_stalled (s : State) (i : Nat) (f : CoreSt → CoreSt) : (s.modCore i f).stalled = s.stalled := rfl
@[simp] theorem State.modCore_nextId (s : State) (i : Nat) (f : CoreSt → CoreSt) : (s.modCore i f).nextId = s.nextId := rfl

/-! `count` changes `cnt` only. -/
@[simp] theorem State.count_clock (s : State) (k n : Nat) : (s.count k n).clock = s.clock := rfl
@[simp] theorem State.count_mem (s : State) (k n : Nat) : (s.count k n).mem = s.mem := rfl
@[simp] theorem State.count_poison (s : State) (k n : Nat) : (s.count k n).poison = s.poison := rfl
@[simp] theorem State.count_linkDown (s : State) (k n : Nat) : (s.count k n).linkDown = s.linkDown := rfl
@[simp] theorem State.count_routes (s : State) (k n : Nat) : (s.count k n).routes = s.routes := rfl
@[simp] theorem State.count_hostPath (s : State) (k n : Nat) : (s.count k n).hostPath = s.hostPath := rfl
@[simp] theorem State.count_l2park (s : State) (k n : Nat) : (s.count k n).l2park = s.l2park := rfl
@[simp] theorem State.count_patrol (s : State) (k n : Nat) : (s.count k n).patrol = s.patrol := rfl
@[simp] theorem State.count_parts (s : State) (k n : Nat) : (s.count k n).parts = s.parts := rfl
@[simp] theorem State.count_ctxs (s : State) (k n : Nat) : (s.count k n).ctxs = s.ctxs := rfl
@[simp] theorem State.count_power (s : State) (k n : Nat) : (s.count k n).power = s.power := rfl
@[simp] theorem State.count_tripped (s : State) (k n : Nat) : (s.count k n).tripped = s.tripped := rfl
@[simp] theorem State.count_sx (s : State) (k n : Nat) : (s.count k n).sx = s.sx := rfl
@[simp] theorem State.count_log (s : State) (k n : Nat) : (s.count k n).log = s.log := rfl
@[simp] theorem State.count_sensors (s : State) (k n : Nat) : (s.count k n).sensors = s.sensors := rfl
@[simp] theorem State.count_ageing (s : State) (k n : Nat) : (s.count k n).ageing = s.ageing := rfl
@[simp] theorem State.count_priOn (s : State) (k n : Nat) : (s.count k n).priOn = s.priOn := rfl
@[simp] theorem State.count_priAlloc (s : State) (k n : Nat) : (s.count k n).priAlloc = s.priAlloc := rfl
@[simp] theorem State.count_pages (s : State) (k n : Nat) : (s.count k n).pages = s.pages := rfl
@[simp] theorem State.count_ats (s : State) (k n : Nat) : (s.count k n).ats = s.ats := rfl
@[simp] theorem State.count_invals (s : State) (k n : Nat) : (s.count k n).invals = s.invals := rfl
@[simp] theorem State.count_outbox (s : State) (k n : Nat) : (s.count k n).outbox = s.outbox := rfl
@[simp] theorem State.count_atc (s : State) (k n : Nat) : (s.count k n).atc = s.atc := rfl
@[simp] theorem State.count_l2 (s : State) (k n : Nat) : (s.count k n).l2 = s.l2 := rfl
@[simp] theorem State.count_chart (s : State) (k n : Nat) : (s.count k n).chart = s.chart := rfl
@[simp] theorem State.count_parkCount (s : State) (k n : Nat) : (s.count k n).parkCount = s.parkCount := rfl
@[simp] theorem State.count_bears (s : State) (k n : Nat) : (s.count k n).bears = s.bears := rfl
@[simp] theorem State.count_mail (s : State) (k n : Nat) : (s.count k n).mail = s.mail := rfl
@[simp] theorem State.count_reqs (s : State) (k n : Nat) : (s.count k n).reqs = s.reqs := rfl
@[simp] theorem State.count_reps (s : State) (k n : Nat) : (s.count k n).reps = s.reps := rfl
@[simp] theorem State.count_ops (s : State) (k n : Nat) : (s.count k n).ops = s.ops := rfl
@[simp] theorem State.count_gbars (s : State) (k n : Nat) : (s.count k n).gbars = s.gbars := rfl
@[simp] theorem State.count_errs (s : State) (k n : Nat) : (s.count k n).errs = s.errs := rfl
@[simp] theorem State.count_icache (s : State) (k n : Nat) : (s.count k n).icache = s.icache := rfl
@[simp] theorem State.count_l1 (s : State) (k n : Nat) : (s.count k n).l1 = s.l1 := rfl
@[simp] theorem State.count_copies (s : State) (k n : Nat) : (s.count k n).copies = s.copies := rfl
@[simp] theorem State.count_cores (s : State) (k n : Nat) : (s.count k n).cores = s.cores := rfl
@[simp] theorem State.count_cnt0 (s : State) (k n : Nat) : (s.count k n).cnt0 = s.cnt0 := rfl
@[simp] theorem State.count_launches (s : State) (k n : Nat) : (s.count k n).launches = s.launches := rfl
@[simp] theorem State.count_teams (s : State) (k n : Nat) : (s.count k n).teams = s.teams := rfl
@[simp] theorem State.count_waves (s : State) (k n : Nat) : (s.count k n).waves = s.waves := rfl
@[simp] theorem State.count_busy (s : State) (k n : Nat) : (s.count k n).busy = s.busy := rfl
@[simp] theorem State.count_free (s : State) (k n : Nat) : (s.count k n).free = s.free := rfl
@[simp] theorem State.count_arrivals (s : State) (k n : Nat) : (s.count k n).arrivals = s.arrivals := rfl
@[simp] theorem State.count_cur (s : State) (k n : Nat) : (s.count k n).cur = s.cur := rfl
@[simp] theorem State.count_stalled (s : State) (k n : Nat) : (s.count k n).stalled = s.stalled := rfl
@[simp] theorem State.count_nextId (s : State) (k n : Nat) : (s.count k n).nextId = s.nextId := rfl

/-! `drawn` changes `free` only. -/
@[simp] theorem State.drawn_clock (s : State) : (s.drawn).clock = s.clock := rfl
@[simp] theorem State.drawn_mem (s : State) : (s.drawn).mem = s.mem := rfl
@[simp] theorem State.drawn_poison (s : State) : (s.drawn).poison = s.poison := rfl
@[simp] theorem State.drawn_linkDown (s : State) : (s.drawn).linkDown = s.linkDown := rfl
@[simp] theorem State.drawn_routes (s : State) : (s.drawn).routes = s.routes := rfl
@[simp] theorem State.drawn_hostPath (s : State) : (s.drawn).hostPath = s.hostPath := rfl
@[simp] theorem State.drawn_l2park (s : State) : (s.drawn).l2park = s.l2park := rfl
@[simp] theorem State.drawn_patrol (s : State) : (s.drawn).patrol = s.patrol := rfl
@[simp] theorem State.drawn_parts (s : State) : (s.drawn).parts = s.parts := rfl
@[simp] theorem State.drawn_ctxs (s : State) : (s.drawn).ctxs = s.ctxs := rfl
@[simp] theorem State.drawn_power (s : State) : (s.drawn).power = s.power := rfl
@[simp] theorem State.drawn_tripped (s : State) : (s.drawn).tripped = s.tripped := rfl
@[simp] theorem State.drawn_sx (s : State) : (s.drawn).sx = s.sx := rfl
@[simp] theorem State.drawn_log (s : State) : (s.drawn).log = s.log := rfl
@[simp] theorem State.drawn_sensors (s : State) : (s.drawn).sensors = s.sensors := rfl
@[simp] theorem State.drawn_ageing (s : State) : (s.drawn).ageing = s.ageing := rfl
@[simp] theorem State.drawn_priOn (s : State) : (s.drawn).priOn = s.priOn := rfl
@[simp] theorem State.drawn_priAlloc (s : State) : (s.drawn).priAlloc = s.priAlloc := rfl
@[simp] theorem State.drawn_pages (s : State) : (s.drawn).pages = s.pages := rfl
@[simp] theorem State.drawn_ats (s : State) : (s.drawn).ats = s.ats := rfl
@[simp] theorem State.drawn_invals (s : State) : (s.drawn).invals = s.invals := rfl
@[simp] theorem State.drawn_outbox (s : State) : (s.drawn).outbox = s.outbox := rfl
@[simp] theorem State.drawn_atc (s : State) : (s.drawn).atc = s.atc := rfl
@[simp] theorem State.drawn_l2 (s : State) : (s.drawn).l2 = s.l2 := rfl
@[simp] theorem State.drawn_chart (s : State) : (s.drawn).chart = s.chart := rfl
@[simp] theorem State.drawn_parkCount (s : State) : (s.drawn).parkCount = s.parkCount := rfl
@[simp] theorem State.drawn_bears (s : State) : (s.drawn).bears = s.bears := rfl
@[simp] theorem State.drawn_mail (s : State) : (s.drawn).mail = s.mail := rfl
@[simp] theorem State.drawn_reqs (s : State) : (s.drawn).reqs = s.reqs := rfl
@[simp] theorem State.drawn_reps (s : State) : (s.drawn).reps = s.reps := rfl
@[simp] theorem State.drawn_ops (s : State) : (s.drawn).ops = s.ops := rfl
@[simp] theorem State.drawn_gbars (s : State) : (s.drawn).gbars = s.gbars := rfl
@[simp] theorem State.drawn_errs (s : State) : (s.drawn).errs = s.errs := rfl
@[simp] theorem State.drawn_icache (s : State) : (s.drawn).icache = s.icache := rfl
@[simp] theorem State.drawn_l1 (s : State) : (s.drawn).l1 = s.l1 := rfl
@[simp] theorem State.drawn_copies (s : State) : (s.drawn).copies = s.copies := rfl
@[simp] theorem State.drawn_cores (s : State) : (s.drawn).cores = s.cores := rfl
@[simp] theorem State.drawn_cnt (s : State) : (s.drawn).cnt = s.cnt := rfl
@[simp] theorem State.drawn_cnt0 (s : State) : (s.drawn).cnt0 = s.cnt0 := rfl
@[simp] theorem State.drawn_launches (s : State) : (s.drawn).launches = s.launches := rfl
@[simp] theorem State.drawn_teams (s : State) : (s.drawn).teams = s.teams := rfl
@[simp] theorem State.drawn_waves (s : State) : (s.drawn).waves = s.waves := rfl
@[simp] theorem State.drawn_busy (s : State) : (s.drawn).busy = s.busy := rfl
@[simp] theorem State.drawn_arrivals (s : State) : (s.drawn).arrivals = s.arrivals := rfl
@[simp] theorem State.drawn_cur (s : State) : (s.drawn).cur = s.cur := rfl
@[simp] theorem State.drawn_stalled (s : State) : (s.drawn).stalled = s.stalled := rfl
@[simp] theorem State.drawn_nextId (s : State) : (s.drawn).nextId = s.nextId := rfl

/-! `send` changes `outbox` only. -/
@[simp] theorem State.send_clock (s : State) (m : Out) : (s.send m).clock = s.clock := rfl
@[simp] theorem State.send_mem (s : State) (m : Out) : (s.send m).mem = s.mem := rfl
@[simp] theorem State.send_poison (s : State) (m : Out) : (s.send m).poison = s.poison := rfl
@[simp] theorem State.send_linkDown (s : State) (m : Out) : (s.send m).linkDown = s.linkDown := rfl
@[simp] theorem State.send_routes (s : State) (m : Out) : (s.send m).routes = s.routes := rfl
@[simp] theorem State.send_hostPath (s : State) (m : Out) : (s.send m).hostPath = s.hostPath := rfl
@[simp] theorem State.send_l2park (s : State) (m : Out) : (s.send m).l2park = s.l2park := rfl
@[simp] theorem State.send_patrol (s : State) (m : Out) : (s.send m).patrol = s.patrol := rfl
@[simp] theorem State.send_parts (s : State) (m : Out) : (s.send m).parts = s.parts := rfl
@[simp] theorem State.send_ctxs (s : State) (m : Out) : (s.send m).ctxs = s.ctxs := rfl
@[simp] theorem State.send_power (s : State) (m : Out) : (s.send m).power = s.power := rfl
@[simp] theorem State.send_tripped (s : State) (m : Out) : (s.send m).tripped = s.tripped := rfl
@[simp] theorem State.send_sx (s : State) (m : Out) : (s.send m).sx = s.sx := rfl
@[simp] theorem State.send_log (s : State) (m : Out) : (s.send m).log = s.log := rfl
@[simp] theorem State.send_sensors (s : State) (m : Out) : (s.send m).sensors = s.sensors := rfl
@[simp] theorem State.send_ageing (s : State) (m : Out) : (s.send m).ageing = s.ageing := rfl
@[simp] theorem State.send_priOn (s : State) (m : Out) : (s.send m).priOn = s.priOn := rfl
@[simp] theorem State.send_priAlloc (s : State) (m : Out) : (s.send m).priAlloc = s.priAlloc := rfl
@[simp] theorem State.send_pages (s : State) (m : Out) : (s.send m).pages = s.pages := rfl
@[simp] theorem State.send_ats (s : State) (m : Out) : (s.send m).ats = s.ats := rfl
@[simp] theorem State.send_invals (s : State) (m : Out) : (s.send m).invals = s.invals := rfl
@[simp] theorem State.send_atc (s : State) (m : Out) : (s.send m).atc = s.atc := rfl
@[simp] theorem State.send_l2 (s : State) (m : Out) : (s.send m).l2 = s.l2 := rfl
@[simp] theorem State.send_chart (s : State) (m : Out) : (s.send m).chart = s.chart := rfl
@[simp] theorem State.send_parkCount (s : State) (m : Out) : (s.send m).parkCount = s.parkCount := rfl
@[simp] theorem State.send_bears (s : State) (m : Out) : (s.send m).bears = s.bears := rfl
@[simp] theorem State.send_mail (s : State) (m : Out) : (s.send m).mail = s.mail := rfl
@[simp] theorem State.send_reqs (s : State) (m : Out) : (s.send m).reqs = s.reqs := rfl
@[simp] theorem State.send_reps (s : State) (m : Out) : (s.send m).reps = s.reps := rfl
@[simp] theorem State.send_ops (s : State) (m : Out) : (s.send m).ops = s.ops := rfl
@[simp] theorem State.send_gbars (s : State) (m : Out) : (s.send m).gbars = s.gbars := rfl
@[simp] theorem State.send_errs (s : State) (m : Out) : (s.send m).errs = s.errs := rfl
@[simp] theorem State.send_icache (s : State) (m : Out) : (s.send m).icache = s.icache := rfl
@[simp] theorem State.send_l1 (s : State) (m : Out) : (s.send m).l1 = s.l1 := rfl
@[simp] theorem State.send_copies (s : State) (m : Out) : (s.send m).copies = s.copies := rfl
@[simp] theorem State.send_cores (s : State) (m : Out) : (s.send m).cores = s.cores := rfl
@[simp] theorem State.send_cnt (s : State) (m : Out) : (s.send m).cnt = s.cnt := rfl
@[simp] theorem State.send_cnt0 (s : State) (m : Out) : (s.send m).cnt0 = s.cnt0 := rfl
@[simp] theorem State.send_launches (s : State) (m : Out) : (s.send m).launches = s.launches := rfl
@[simp] theorem State.send_teams (s : State) (m : Out) : (s.send m).teams = s.teams := rfl
@[simp] theorem State.send_waves (s : State) (m : Out) : (s.send m).waves = s.waves := rfl
@[simp] theorem State.send_busy (s : State) (m : Out) : (s.send m).busy = s.busy := rfl
@[simp] theorem State.send_free (s : State) (m : Out) : (s.send m).free = s.free := rfl
@[simp] theorem State.send_arrivals (s : State) (m : Out) : (s.send m).arrivals = s.arrivals := rfl
@[simp] theorem State.send_cur (s : State) (m : Out) : (s.send m).cur = s.cur := rfl
@[simp] theorem State.send_stalled (s : State) (m : Out) : (s.send m).stalled = s.stalled := rfl
@[simp] theorem State.send_nextId (s : State) (m : Out) : (s.send m).nextId = s.nextId := rfl

/-! `modFrag` changes `waves` only. -/
@[simp] theorem State.modFrag_clock (s : State) (i : FragRef) (f : Frag → Frag) : (s.modFrag i f).clock = s.clock := rfl
@[simp] theorem State.modFrag_mem (s : State) (i : FragRef) (f : Frag → Frag) : (s.modFrag i f).mem = s.mem := rfl
@[simp] theorem State.modFrag_poison (s : State) (i : FragRef) (f : Frag → Frag) : (s.modFrag i f).poison = s.poison := rfl
@[simp] theorem State.modFrag_linkDown (s : State) (i : FragRef) (f : Frag → Frag) : (s.modFrag i f).linkDown = s.linkDown := rfl
@[simp] theorem State.modFrag_routes (s : State) (i : FragRef) (f : Frag → Frag) : (s.modFrag i f).routes = s.routes := rfl
@[simp] theorem State.modFrag_hostPath (s : State) (i : FragRef) (f : Frag → Frag) : (s.modFrag i f).hostPath = s.hostPath := rfl
@[simp] theorem State.modFrag_l2park (s : State) (i : FragRef) (f : Frag → Frag) : (s.modFrag i f).l2park = s.l2park := rfl
@[simp] theorem State.modFrag_patrol (s : State) (i : FragRef) (f : Frag → Frag) : (s.modFrag i f).patrol = s.patrol := rfl
@[simp] theorem State.modFrag_parts (s : State) (i : FragRef) (f : Frag → Frag) : (s.modFrag i f).parts = s.parts := rfl
@[simp] theorem State.modFrag_ctxs (s : State) (i : FragRef) (f : Frag → Frag) : (s.modFrag i f).ctxs = s.ctxs := rfl
@[simp] theorem State.modFrag_power (s : State) (i : FragRef) (f : Frag → Frag) : (s.modFrag i f).power = s.power := rfl
@[simp] theorem State.modFrag_tripped (s : State) (i : FragRef) (f : Frag → Frag) : (s.modFrag i f).tripped = s.tripped := rfl
@[simp] theorem State.modFrag_sx (s : State) (i : FragRef) (f : Frag → Frag) : (s.modFrag i f).sx = s.sx := rfl
@[simp] theorem State.modFrag_log (s : State) (i : FragRef) (f : Frag → Frag) : (s.modFrag i f).log = s.log := rfl
@[simp] theorem State.modFrag_sensors (s : State) (i : FragRef) (f : Frag → Frag) : (s.modFrag i f).sensors = s.sensors := rfl
@[simp] theorem State.modFrag_ageing (s : State) (i : FragRef) (f : Frag → Frag) : (s.modFrag i f).ageing = s.ageing := rfl
@[simp] theorem State.modFrag_priOn (s : State) (i : FragRef) (f : Frag → Frag) : (s.modFrag i f).priOn = s.priOn := rfl
@[simp] theorem State.modFrag_priAlloc (s : State) (i : FragRef) (f : Frag → Frag) : (s.modFrag i f).priAlloc = s.priAlloc := rfl
@[simp] theorem State.modFrag_pages (s : State) (i : FragRef) (f : Frag → Frag) : (s.modFrag i f).pages = s.pages := rfl
@[simp] theorem State.modFrag_ats (s : State) (i : FragRef) (f : Frag → Frag) : (s.modFrag i f).ats = s.ats := rfl
@[simp] theorem State.modFrag_invals (s : State) (i : FragRef) (f : Frag → Frag) : (s.modFrag i f).invals = s.invals := rfl
@[simp] theorem State.modFrag_outbox (s : State) (i : FragRef) (f : Frag → Frag) : (s.modFrag i f).outbox = s.outbox := rfl
@[simp] theorem State.modFrag_atc (s : State) (i : FragRef) (f : Frag → Frag) : (s.modFrag i f).atc = s.atc := rfl
@[simp] theorem State.modFrag_l2 (s : State) (i : FragRef) (f : Frag → Frag) : (s.modFrag i f).l2 = s.l2 := rfl
@[simp] theorem State.modFrag_chart (s : State) (i : FragRef) (f : Frag → Frag) : (s.modFrag i f).chart = s.chart := rfl
@[simp] theorem State.modFrag_parkCount (s : State) (i : FragRef) (f : Frag → Frag) : (s.modFrag i f).parkCount = s.parkCount := rfl
@[simp] theorem State.modFrag_bears (s : State) (i : FragRef) (f : Frag → Frag) : (s.modFrag i f).bears = s.bears := rfl
@[simp] theorem State.modFrag_mail (s : State) (i : FragRef) (f : Frag → Frag) : (s.modFrag i f).mail = s.mail := rfl
@[simp] theorem State.modFrag_reqs (s : State) (i : FragRef) (f : Frag → Frag) : (s.modFrag i f).reqs = s.reqs := rfl
@[simp] theorem State.modFrag_reps (s : State) (i : FragRef) (f : Frag → Frag) : (s.modFrag i f).reps = s.reps := rfl
@[simp] theorem State.modFrag_ops (s : State) (i : FragRef) (f : Frag → Frag) : (s.modFrag i f).ops = s.ops := rfl
@[simp] theorem State.modFrag_gbars (s : State) (i : FragRef) (f : Frag → Frag) : (s.modFrag i f).gbars = s.gbars := rfl
@[simp] theorem State.modFrag_errs (s : State) (i : FragRef) (f : Frag → Frag) : (s.modFrag i f).errs = s.errs := rfl
@[simp] theorem State.modFrag_icache (s : State) (i : FragRef) (f : Frag → Frag) : (s.modFrag i f).icache = s.icache := rfl
@[simp] theorem State.modFrag_l1 (s : State) (i : FragRef) (f : Frag → Frag) : (s.modFrag i f).l1 = s.l1 := rfl
@[simp] theorem State.modFrag_copies (s : State) (i : FragRef) (f : Frag → Frag) : (s.modFrag i f).copies = s.copies := rfl
@[simp] theorem State.modFrag_cores (s : State) (i : FragRef) (f : Frag → Frag) : (s.modFrag i f).cores = s.cores := rfl
@[simp] theorem State.modFrag_cnt (s : State) (i : FragRef) (f : Frag → Frag) : (s.modFrag i f).cnt = s.cnt := rfl
@[simp] theorem State.modFrag_cnt0 (s : State) (i : FragRef) (f : Frag → Frag) : (s.modFrag i f).cnt0 = s.cnt0 := rfl
@[simp] theorem State.modFrag_launches (s : State) (i : FragRef) (f : Frag → Frag) : (s.modFrag i f).launches = s.launches := rfl
@[simp] theorem State.modFrag_teams (s : State) (i : FragRef) (f : Frag → Frag) : (s.modFrag i f).teams = s.teams := rfl
@[simp] theorem State.modFrag_busy (s : State) (i : FragRef) (f : Frag → Frag) : (s.modFrag i f).busy = s.busy := rfl
@[simp] theorem State.modFrag_free (s : State) (i : FragRef) (f : Frag → Frag) : (s.modFrag i f).free = s.free := rfl
@[simp] theorem State.modFrag_arrivals (s : State) (i : FragRef) (f : Frag → Frag) : (s.modFrag i f).arrivals = s.arrivals := rfl
@[simp] theorem State.modFrag_cur (s : State) (i : FragRef) (f : Frag → Frag) : (s.modFrag i f).cur = s.cur := rfl
@[simp] theorem State.modFrag_stalled (s : State) (i : FragRef) (f : Frag → Frag) : (s.modFrag i f).stalled = s.stalled := rfl
@[simp] theorem State.modFrag_nextId (s : State) (i : FragRef) (f : Frag → Frag) : (s.modFrag i f).nextId = s.nextId := rfl

/-! `setLmem` changes `teams` only. -/
@[simp] theorem State.setLmem_clock (s : State) (i : Nat) (f : Memory → Memory) : (s.setLmem i f).clock = s.clock := rfl
@[simp] theorem State.setLmem_mem (s : State) (i : Nat) (f : Memory → Memory) : (s.setLmem i f).mem = s.mem := rfl
@[simp] theorem State.setLmem_poison (s : State) (i : Nat) (f : Memory → Memory) : (s.setLmem i f).poison = s.poison := rfl
@[simp] theorem State.setLmem_linkDown (s : State) (i : Nat) (f : Memory → Memory) : (s.setLmem i f).linkDown = s.linkDown := rfl
@[simp] theorem State.setLmem_routes (s : State) (i : Nat) (f : Memory → Memory) : (s.setLmem i f).routes = s.routes := rfl
@[simp] theorem State.setLmem_hostPath (s : State) (i : Nat) (f : Memory → Memory) : (s.setLmem i f).hostPath = s.hostPath := rfl
@[simp] theorem State.setLmem_l2park (s : State) (i : Nat) (f : Memory → Memory) : (s.setLmem i f).l2park = s.l2park := rfl
@[simp] theorem State.setLmem_patrol (s : State) (i : Nat) (f : Memory → Memory) : (s.setLmem i f).patrol = s.patrol := rfl
@[simp] theorem State.setLmem_parts (s : State) (i : Nat) (f : Memory → Memory) : (s.setLmem i f).parts = s.parts := rfl
@[simp] theorem State.setLmem_ctxs (s : State) (i : Nat) (f : Memory → Memory) : (s.setLmem i f).ctxs = s.ctxs := rfl
@[simp] theorem State.setLmem_power (s : State) (i : Nat) (f : Memory → Memory) : (s.setLmem i f).power = s.power := rfl
@[simp] theorem State.setLmem_tripped (s : State) (i : Nat) (f : Memory → Memory) : (s.setLmem i f).tripped = s.tripped := rfl
@[simp] theorem State.setLmem_sx (s : State) (i : Nat) (f : Memory → Memory) : (s.setLmem i f).sx = s.sx := rfl
@[simp] theorem State.setLmem_log (s : State) (i : Nat) (f : Memory → Memory) : (s.setLmem i f).log = s.log := rfl
@[simp] theorem State.setLmem_sensors (s : State) (i : Nat) (f : Memory → Memory) : (s.setLmem i f).sensors = s.sensors := rfl
@[simp] theorem State.setLmem_ageing (s : State) (i : Nat) (f : Memory → Memory) : (s.setLmem i f).ageing = s.ageing := rfl
@[simp] theorem State.setLmem_priOn (s : State) (i : Nat) (f : Memory → Memory) : (s.setLmem i f).priOn = s.priOn := rfl
@[simp] theorem State.setLmem_priAlloc (s : State) (i : Nat) (f : Memory → Memory) : (s.setLmem i f).priAlloc = s.priAlloc := rfl
@[simp] theorem State.setLmem_pages (s : State) (i : Nat) (f : Memory → Memory) : (s.setLmem i f).pages = s.pages := rfl
@[simp] theorem State.setLmem_ats (s : State) (i : Nat) (f : Memory → Memory) : (s.setLmem i f).ats = s.ats := rfl
@[simp] theorem State.setLmem_invals (s : State) (i : Nat) (f : Memory → Memory) : (s.setLmem i f).invals = s.invals := rfl
@[simp] theorem State.setLmem_outbox (s : State) (i : Nat) (f : Memory → Memory) : (s.setLmem i f).outbox = s.outbox := rfl
@[simp] theorem State.setLmem_atc (s : State) (i : Nat) (f : Memory → Memory) : (s.setLmem i f).atc = s.atc := rfl
@[simp] theorem State.setLmem_l2 (s : State) (i : Nat) (f : Memory → Memory) : (s.setLmem i f).l2 = s.l2 := rfl
@[simp] theorem State.setLmem_chart (s : State) (i : Nat) (f : Memory → Memory) : (s.setLmem i f).chart = s.chart := rfl
@[simp] theorem State.setLmem_parkCount (s : State) (i : Nat) (f : Memory → Memory) : (s.setLmem i f).parkCount = s.parkCount := rfl
@[simp] theorem State.setLmem_bears (s : State) (i : Nat) (f : Memory → Memory) : (s.setLmem i f).bears = s.bears := rfl
@[simp] theorem State.setLmem_mail (s : State) (i : Nat) (f : Memory → Memory) : (s.setLmem i f).mail = s.mail := rfl
@[simp] theorem State.setLmem_reqs (s : State) (i : Nat) (f : Memory → Memory) : (s.setLmem i f).reqs = s.reqs := rfl
@[simp] theorem State.setLmem_reps (s : State) (i : Nat) (f : Memory → Memory) : (s.setLmem i f).reps = s.reps := rfl
@[simp] theorem State.setLmem_ops (s : State) (i : Nat) (f : Memory → Memory) : (s.setLmem i f).ops = s.ops := rfl
@[simp] theorem State.setLmem_gbars (s : State) (i : Nat) (f : Memory → Memory) : (s.setLmem i f).gbars = s.gbars := rfl
@[simp] theorem State.setLmem_errs (s : State) (i : Nat) (f : Memory → Memory) : (s.setLmem i f).errs = s.errs := rfl
@[simp] theorem State.setLmem_icache (s : State) (i : Nat) (f : Memory → Memory) : (s.setLmem i f).icache = s.icache := rfl
@[simp] theorem State.setLmem_l1 (s : State) (i : Nat) (f : Memory → Memory) : (s.setLmem i f).l1 = s.l1 := rfl
@[simp] theorem State.setLmem_copies (s : State) (i : Nat) (f : Memory → Memory) : (s.setLmem i f).copies = s.copies := rfl
@[simp] theorem State.setLmem_cores (s : State) (i : Nat) (f : Memory → Memory) : (s.setLmem i f).cores = s.cores := rfl
@[simp] theorem State.setLmem_cnt (s : State) (i : Nat) (f : Memory → Memory) : (s.setLmem i f).cnt = s.cnt := rfl
@[simp] theorem State.setLmem_cnt0 (s : State) (i : Nat) (f : Memory → Memory) : (s.setLmem i f).cnt0 = s.cnt0 := rfl
@[simp] theorem State.setLmem_launches (s : State) (i : Nat) (f : Memory → Memory) : (s.setLmem i f).launches = s.launches := rfl
@[simp] theorem State.setLmem_waves (s : State) (i : Nat) (f : Memory → Memory) : (s.setLmem i f).waves = s.waves := rfl
@[simp] theorem State.setLmem_busy (s : State) (i : Nat) (f : Memory → Memory) : (s.setLmem i f).busy = s.busy := rfl
@[simp] theorem State.setLmem_free (s : State) (i : Nat) (f : Memory → Memory) : (s.setLmem i f).free = s.free := rfl
@[simp] theorem State.setLmem_arrivals (s : State) (i : Nat) (f : Memory → Memory) : (s.setLmem i f).arrivals = s.arrivals := rfl
@[simp] theorem State.setLmem_cur (s : State) (i : Nat) (f : Memory → Memory) : (s.setLmem i f).cur = s.cur := rfl
@[simp] theorem State.setLmem_stalled (s : State) (i : Nat) (f : Memory → Memory) : (s.setLmem i f).stalled = s.stalled := rfl
@[simp] theorem State.setLmem_nextId (s : State) (i : Nat) (f : Memory → Memory) : (s.setLmem i f).nextId = s.nextId := rfl

/-! `dropBerth` changes `l1` and `l2` only. -/
@[simp] theorem State.dropBerth_clock (s : State) (e : ChartE) : (s.dropBerth e).clock = s.clock := rfl
@[simp] theorem State.dropBerth_mem (s : State) (e : ChartE) : (s.dropBerth e).mem = s.mem := rfl
@[simp] theorem State.dropBerth_poison (s : State) (e : ChartE) : (s.dropBerth e).poison = s.poison := rfl
@[simp] theorem State.dropBerth_linkDown (s : State) (e : ChartE) : (s.dropBerth e).linkDown = s.linkDown := rfl
@[simp] theorem State.dropBerth_routes (s : State) (e : ChartE) : (s.dropBerth e).routes = s.routes := rfl
@[simp] theorem State.dropBerth_hostPath (s : State) (e : ChartE) : (s.dropBerth e).hostPath = s.hostPath := rfl
@[simp] theorem State.dropBerth_l2park (s : State) (e : ChartE) : (s.dropBerth e).l2park = s.l2park := rfl
@[simp] theorem State.dropBerth_patrol (s : State) (e : ChartE) : (s.dropBerth e).patrol = s.patrol := rfl
@[simp] theorem State.dropBerth_parts (s : State) (e : ChartE) : (s.dropBerth e).parts = s.parts := rfl
@[simp] theorem State.dropBerth_ctxs (s : State) (e : ChartE) : (s.dropBerth e).ctxs = s.ctxs := rfl
@[simp] theorem State.dropBerth_power (s : State) (e : ChartE) : (s.dropBerth e).power = s.power := rfl
@[simp] theorem State.dropBerth_tripped (s : State) (e : ChartE) : (s.dropBerth e).tripped = s.tripped := rfl
@[simp] theorem State.dropBerth_sx (s : State) (e : ChartE) : (s.dropBerth e).sx = s.sx := rfl
@[simp] theorem State.dropBerth_log (s : State) (e : ChartE) : (s.dropBerth e).log = s.log := rfl
@[simp] theorem State.dropBerth_sensors (s : State) (e : ChartE) : (s.dropBerth e).sensors = s.sensors := rfl
@[simp] theorem State.dropBerth_ageing (s : State) (e : ChartE) : (s.dropBerth e).ageing = s.ageing := rfl
@[simp] theorem State.dropBerth_priOn (s : State) (e : ChartE) : (s.dropBerth e).priOn = s.priOn := rfl
@[simp] theorem State.dropBerth_priAlloc (s : State) (e : ChartE) : (s.dropBerth e).priAlloc = s.priAlloc := rfl
@[simp] theorem State.dropBerth_pages (s : State) (e : ChartE) : (s.dropBerth e).pages = s.pages := rfl
@[simp] theorem State.dropBerth_ats (s : State) (e : ChartE) : (s.dropBerth e).ats = s.ats := rfl
@[simp] theorem State.dropBerth_invals (s : State) (e : ChartE) : (s.dropBerth e).invals = s.invals := rfl
@[simp] theorem State.dropBerth_outbox (s : State) (e : ChartE) : (s.dropBerth e).outbox = s.outbox := rfl
@[simp] theorem State.dropBerth_atc (s : State) (e : ChartE) : (s.dropBerth e).atc = s.atc := rfl
@[simp] theorem State.dropBerth_chart (s : State) (e : ChartE) : (s.dropBerth e).chart = s.chart := rfl
@[simp] theorem State.dropBerth_parkCount (s : State) (e : ChartE) : (s.dropBerth e).parkCount = s.parkCount := rfl
@[simp] theorem State.dropBerth_bears (s : State) (e : ChartE) : (s.dropBerth e).bears = s.bears := rfl
@[simp] theorem State.dropBerth_mail (s : State) (e : ChartE) : (s.dropBerth e).mail = s.mail := rfl
@[simp] theorem State.dropBerth_reqs (s : State) (e : ChartE) : (s.dropBerth e).reqs = s.reqs := rfl
@[simp] theorem State.dropBerth_reps (s : State) (e : ChartE) : (s.dropBerth e).reps = s.reps := rfl
@[simp] theorem State.dropBerth_ops (s : State) (e : ChartE) : (s.dropBerth e).ops = s.ops := rfl
@[simp] theorem State.dropBerth_gbars (s : State) (e : ChartE) : (s.dropBerth e).gbars = s.gbars := rfl
@[simp] theorem State.dropBerth_errs (s : State) (e : ChartE) : (s.dropBerth e).errs = s.errs := rfl
@[simp] theorem State.dropBerth_icache (s : State) (e : ChartE) : (s.dropBerth e).icache = s.icache := rfl
@[simp] theorem State.dropBerth_copies (s : State) (e : ChartE) : (s.dropBerth e).copies = s.copies := rfl
@[simp] theorem State.dropBerth_cores (s : State) (e : ChartE) : (s.dropBerth e).cores = s.cores := rfl
@[simp] theorem State.dropBerth_cnt (s : State) (e : ChartE) : (s.dropBerth e).cnt = s.cnt := rfl
@[simp] theorem State.dropBerth_cnt0 (s : State) (e : ChartE) : (s.dropBerth e).cnt0 = s.cnt0 := rfl
@[simp] theorem State.dropBerth_launches (s : State) (e : ChartE) : (s.dropBerth e).launches = s.launches := rfl
@[simp] theorem State.dropBerth_teams (s : State) (e : ChartE) : (s.dropBerth e).teams = s.teams := rfl
@[simp] theorem State.dropBerth_waves (s : State) (e : ChartE) : (s.dropBerth e).waves = s.waves := rfl
@[simp] theorem State.dropBerth_busy (s : State) (e : ChartE) : (s.dropBerth e).busy = s.busy := rfl
@[simp] theorem State.dropBerth_free (s : State) (e : ChartE) : (s.dropBerth e).free = s.free := rfl
@[simp] theorem State.dropBerth_arrivals (s : State) (e : ChartE) : (s.dropBerth e).arrivals = s.arrivals := rfl
@[simp] theorem State.dropBerth_cur (s : State) (e : ChartE) : (s.dropBerth e).cur = s.cur := rfl
@[simp] theorem State.dropBerth_stalled (s : State) (e : ChartE) : (s.dropBerth e).stalled = s.stalled := rfl
@[simp] theorem State.dropBerth_nextId (s : State) (e : ChartE) : (s.dropBerth e).nextId = s.nextId := rfl

/-! `newClock` changes `cnt0` and `ctxs` only. -/
@[simp] theorem State.newClock_clock (s : State) (dt : Nat) : (s.newClock dt).clock = s.clock := rfl
@[simp] theorem State.newClock_mem (s : State) (dt : Nat) : (s.newClock dt).mem = s.mem := rfl
@[simp] theorem State.newClock_poison (s : State) (dt : Nat) : (s.newClock dt).poison = s.poison := rfl
@[simp] theorem State.newClock_linkDown (s : State) (dt : Nat) : (s.newClock dt).linkDown = s.linkDown := rfl
@[simp] theorem State.newClock_routes (s : State) (dt : Nat) : (s.newClock dt).routes = s.routes := rfl
@[simp] theorem State.newClock_hostPath (s : State) (dt : Nat) : (s.newClock dt).hostPath = s.hostPath := rfl
@[simp] theorem State.newClock_l2park (s : State) (dt : Nat) : (s.newClock dt).l2park = s.l2park := rfl
@[simp] theorem State.newClock_patrol (s : State) (dt : Nat) : (s.newClock dt).patrol = s.patrol := rfl
@[simp] theorem State.newClock_parts (s : State) (dt : Nat) : (s.newClock dt).parts = s.parts := rfl
@[simp] theorem State.newClock_power (s : State) (dt : Nat) : (s.newClock dt).power = s.power := rfl
@[simp] theorem State.newClock_tripped (s : State) (dt : Nat) : (s.newClock dt).tripped = s.tripped := rfl
@[simp] theorem State.newClock_sx (s : State) (dt : Nat) : (s.newClock dt).sx = s.sx := rfl
@[simp] theorem State.newClock_log (s : State) (dt : Nat) : (s.newClock dt).log = s.log := rfl
@[simp] theorem State.newClock_sensors (s : State) (dt : Nat) : (s.newClock dt).sensors = s.sensors := rfl
@[simp] theorem State.newClock_ageing (s : State) (dt : Nat) : (s.newClock dt).ageing = s.ageing := rfl
@[simp] theorem State.newClock_priOn (s : State) (dt : Nat) : (s.newClock dt).priOn = s.priOn := rfl
@[simp] theorem State.newClock_priAlloc (s : State) (dt : Nat) : (s.newClock dt).priAlloc = s.priAlloc := rfl
@[simp] theorem State.newClock_pages (s : State) (dt : Nat) : (s.newClock dt).pages = s.pages := rfl
@[simp] theorem State.newClock_ats (s : State) (dt : Nat) : (s.newClock dt).ats = s.ats := rfl
@[simp] theorem State.newClock_invals (s : State) (dt : Nat) : (s.newClock dt).invals = s.invals := rfl
@[simp] theorem State.newClock_outbox (s : State) (dt : Nat) : (s.newClock dt).outbox = s.outbox := rfl
@[simp] theorem State.newClock_atc (s : State) (dt : Nat) : (s.newClock dt).atc = s.atc := rfl
@[simp] theorem State.newClock_l2 (s : State) (dt : Nat) : (s.newClock dt).l2 = s.l2 := rfl
@[simp] theorem State.newClock_chart (s : State) (dt : Nat) : (s.newClock dt).chart = s.chart := rfl
@[simp] theorem State.newClock_parkCount (s : State) (dt : Nat) : (s.newClock dt).parkCount = s.parkCount := rfl
@[simp] theorem State.newClock_bears (s : State) (dt : Nat) : (s.newClock dt).bears = s.bears := rfl
@[simp] theorem State.newClock_mail (s : State) (dt : Nat) : (s.newClock dt).mail = s.mail := rfl
@[simp] theorem State.newClock_reqs (s : State) (dt : Nat) : (s.newClock dt).reqs = s.reqs := rfl
@[simp] theorem State.newClock_reps (s : State) (dt : Nat) : (s.newClock dt).reps = s.reps := rfl
@[simp] theorem State.newClock_ops (s : State) (dt : Nat) : (s.newClock dt).ops = s.ops := rfl
@[simp] theorem State.newClock_gbars (s : State) (dt : Nat) : (s.newClock dt).gbars = s.gbars := rfl
@[simp] theorem State.newClock_errs (s : State) (dt : Nat) : (s.newClock dt).errs = s.errs := rfl
@[simp] theorem State.newClock_icache (s : State) (dt : Nat) : (s.newClock dt).icache = s.icache := rfl
@[simp] theorem State.newClock_l1 (s : State) (dt : Nat) : (s.newClock dt).l1 = s.l1 := rfl
@[simp] theorem State.newClock_copies (s : State) (dt : Nat) : (s.newClock dt).copies = s.copies := rfl
@[simp] theorem State.newClock_cores (s : State) (dt : Nat) : (s.newClock dt).cores = s.cores := rfl
@[simp] theorem State.newClock_cnt (s : State) (dt : Nat) : (s.newClock dt).cnt = s.cnt := rfl
@[simp] theorem State.newClock_launches (s : State) (dt : Nat) : (s.newClock dt).launches = s.launches := rfl
@[simp] theorem State.newClock_teams (s : State) (dt : Nat) : (s.newClock dt).teams = s.teams := rfl
@[simp] theorem State.newClock_waves (s : State) (dt : Nat) : (s.newClock dt).waves = s.waves := rfl
@[simp] theorem State.newClock_busy (s : State) (dt : Nat) : (s.newClock dt).busy = s.busy := rfl
@[simp] theorem State.newClock_free (s : State) (dt : Nat) : (s.newClock dt).free = s.free := rfl
@[simp] theorem State.newClock_arrivals (s : State) (dt : Nat) : (s.newClock dt).arrivals = s.arrivals := rfl
@[simp] theorem State.newClock_cur (s : State) (dt : Nat) : (s.newClock dt).cur = s.cur := rfl
@[simp] theorem State.newClock_stalled (s : State) (dt : Nat) : (s.newClock dt).stalled = s.stalled := rfl
@[simp] theorem State.newClock_nextId (s : State) (dt : Nat) : (s.newClock dt).nextId = s.nextId := rfl

/-! `regionEntry` changes `waves` only. -/
@[simp] theorem State.regionEntry_clock (s : State) (i : FragRef) : (s.regionEntry i).clock = s.clock := rfl
@[simp] theorem State.regionEntry_mem (s : State) (i : FragRef) : (s.regionEntry i).mem = s.mem := rfl
@[simp] theorem State.regionEntry_poison (s : State) (i : FragRef) : (s.regionEntry i).poison = s.poison := rfl
@[simp] theorem State.regionEntry_linkDown (s : State) (i : FragRef) : (s.regionEntry i).linkDown = s.linkDown := rfl
@[simp] theorem State.regionEntry_routes (s : State) (i : FragRef) : (s.regionEntry i).routes = s.routes := rfl
@[simp] theorem State.regionEntry_hostPath (s : State) (i : FragRef) : (s.regionEntry i).hostPath = s.hostPath := rfl
@[simp] theorem State.regionEntry_l2park (s : State) (i : FragRef) : (s.regionEntry i).l2park = s.l2park := rfl
@[simp] theorem State.regionEntry_patrol (s : State) (i : FragRef) : (s.regionEntry i).patrol = s.patrol := rfl
@[simp] theorem State.regionEntry_parts (s : State) (i : FragRef) : (s.regionEntry i).parts = s.parts := rfl
@[simp] theorem State.regionEntry_ctxs (s : State) (i : FragRef) : (s.regionEntry i).ctxs = s.ctxs := rfl
@[simp] theorem State.regionEntry_power (s : State) (i : FragRef) : (s.regionEntry i).power = s.power := rfl
@[simp] theorem State.regionEntry_tripped (s : State) (i : FragRef) : (s.regionEntry i).tripped = s.tripped := rfl
@[simp] theorem State.regionEntry_sx (s : State) (i : FragRef) : (s.regionEntry i).sx = s.sx := rfl
@[simp] theorem State.regionEntry_log (s : State) (i : FragRef) : (s.regionEntry i).log = s.log := rfl
@[simp] theorem State.regionEntry_sensors (s : State) (i : FragRef) : (s.regionEntry i).sensors = s.sensors := rfl
@[simp] theorem State.regionEntry_ageing (s : State) (i : FragRef) : (s.regionEntry i).ageing = s.ageing := rfl
@[simp] theorem State.regionEntry_priOn (s : State) (i : FragRef) : (s.regionEntry i).priOn = s.priOn := rfl
@[simp] theorem State.regionEntry_priAlloc (s : State) (i : FragRef) : (s.regionEntry i).priAlloc = s.priAlloc := rfl
@[simp] theorem State.regionEntry_pages (s : State) (i : FragRef) : (s.regionEntry i).pages = s.pages := rfl
@[simp] theorem State.regionEntry_ats (s : State) (i : FragRef) : (s.regionEntry i).ats = s.ats := rfl
@[simp] theorem State.regionEntry_invals (s : State) (i : FragRef) : (s.regionEntry i).invals = s.invals := rfl
@[simp] theorem State.regionEntry_outbox (s : State) (i : FragRef) : (s.regionEntry i).outbox = s.outbox := rfl
@[simp] theorem State.regionEntry_atc (s : State) (i : FragRef) : (s.regionEntry i).atc = s.atc := rfl
@[simp] theorem State.regionEntry_l2 (s : State) (i : FragRef) : (s.regionEntry i).l2 = s.l2 := rfl
@[simp] theorem State.regionEntry_chart (s : State) (i : FragRef) : (s.regionEntry i).chart = s.chart := rfl
@[simp] theorem State.regionEntry_parkCount (s : State) (i : FragRef) : (s.regionEntry i).parkCount = s.parkCount := rfl
@[simp] theorem State.regionEntry_bears (s : State) (i : FragRef) : (s.regionEntry i).bears = s.bears := rfl
@[simp] theorem State.regionEntry_mail (s : State) (i : FragRef) : (s.regionEntry i).mail = s.mail := rfl
@[simp] theorem State.regionEntry_reqs (s : State) (i : FragRef) : (s.regionEntry i).reqs = s.reqs := rfl
@[simp] theorem State.regionEntry_reps (s : State) (i : FragRef) : (s.regionEntry i).reps = s.reps := rfl
@[simp] theorem State.regionEntry_ops (s : State) (i : FragRef) : (s.regionEntry i).ops = s.ops := rfl
@[simp] theorem State.regionEntry_gbars (s : State) (i : FragRef) : (s.regionEntry i).gbars = s.gbars := rfl
@[simp] theorem State.regionEntry_errs (s : State) (i : FragRef) : (s.regionEntry i).errs = s.errs := rfl
@[simp] theorem State.regionEntry_icache (s : State) (i : FragRef) : (s.regionEntry i).icache = s.icache := rfl
@[simp] theorem State.regionEntry_l1 (s : State) (i : FragRef) : (s.regionEntry i).l1 = s.l1 := rfl
@[simp] theorem State.regionEntry_copies (s : State) (i : FragRef) : (s.regionEntry i).copies = s.copies := rfl
@[simp] theorem State.regionEntry_cores (s : State) (i : FragRef) : (s.regionEntry i).cores = s.cores := rfl
@[simp] theorem State.regionEntry_cnt (s : State) (i : FragRef) : (s.regionEntry i).cnt = s.cnt := rfl
@[simp] theorem State.regionEntry_cnt0 (s : State) (i : FragRef) : (s.regionEntry i).cnt0 = s.cnt0 := rfl
@[simp] theorem State.regionEntry_launches (s : State) (i : FragRef) : (s.regionEntry i).launches = s.launches := rfl
@[simp] theorem State.regionEntry_teams (s : State) (i : FragRef) : (s.regionEntry i).teams = s.teams := rfl
@[simp] theorem State.regionEntry_busy (s : State) (i : FragRef) : (s.regionEntry i).busy = s.busy := rfl
@[simp] theorem State.regionEntry_free (s : State) (i : FragRef) : (s.regionEntry i).free = s.free := rfl
@[simp] theorem State.regionEntry_arrivals (s : State) (i : FragRef) : (s.regionEntry i).arrivals = s.arrivals := rfl
@[simp] theorem State.regionEntry_cur (s : State) (i : FragRef) : (s.regionEntry i).cur = s.cur := rfl
@[simp] theorem State.regionEntry_stalled (s : State) (i : FragRef) : (s.regionEntry i).stalled = s.stalled := rfl
@[simp] theorem State.regionEntry_nextId (s : State) (i : FragRef) : (s.regionEntry i).nextId = s.nextId := rfl

/-! `waitCur` changes `waves` only. -/
@[simp] theorem State.waitCur_clock (s : State) (k : Wait) : (s.waitCur k).clock = s.clock := rfl
@[simp] theorem State.waitCur_mem (s : State) (k : Wait) : (s.waitCur k).mem = s.mem := rfl
@[simp] theorem State.waitCur_poison (s : State) (k : Wait) : (s.waitCur k).poison = s.poison := rfl
@[simp] theorem State.waitCur_linkDown (s : State) (k : Wait) : (s.waitCur k).linkDown = s.linkDown := rfl
@[simp] theorem State.waitCur_routes (s : State) (k : Wait) : (s.waitCur k).routes = s.routes := rfl
@[simp] theorem State.waitCur_hostPath (s : State) (k : Wait) : (s.waitCur k).hostPath = s.hostPath := rfl
@[simp] theorem State.waitCur_l2park (s : State) (k : Wait) : (s.waitCur k).l2park = s.l2park := rfl
@[simp] theorem State.waitCur_patrol (s : State) (k : Wait) : (s.waitCur k).patrol = s.patrol := rfl
@[simp] theorem State.waitCur_parts (s : State) (k : Wait) : (s.waitCur k).parts = s.parts := rfl
@[simp] theorem State.waitCur_ctxs (s : State) (k : Wait) : (s.waitCur k).ctxs = s.ctxs := rfl
@[simp] theorem State.waitCur_power (s : State) (k : Wait) : (s.waitCur k).power = s.power := rfl
@[simp] theorem State.waitCur_tripped (s : State) (k : Wait) : (s.waitCur k).tripped = s.tripped := rfl
@[simp] theorem State.waitCur_sx (s : State) (k : Wait) : (s.waitCur k).sx = s.sx := rfl
@[simp] theorem State.waitCur_log (s : State) (k : Wait) : (s.waitCur k).log = s.log := rfl
@[simp] theorem State.waitCur_sensors (s : State) (k : Wait) : (s.waitCur k).sensors = s.sensors := rfl
@[simp] theorem State.waitCur_ageing (s : State) (k : Wait) : (s.waitCur k).ageing = s.ageing := rfl
@[simp] theorem State.waitCur_priOn (s : State) (k : Wait) : (s.waitCur k).priOn = s.priOn := rfl
@[simp] theorem State.waitCur_priAlloc (s : State) (k : Wait) : (s.waitCur k).priAlloc = s.priAlloc := rfl
@[simp] theorem State.waitCur_pages (s : State) (k : Wait) : (s.waitCur k).pages = s.pages := rfl
@[simp] theorem State.waitCur_ats (s : State) (k : Wait) : (s.waitCur k).ats = s.ats := rfl
@[simp] theorem State.waitCur_invals (s : State) (k : Wait) : (s.waitCur k).invals = s.invals := rfl
@[simp] theorem State.waitCur_outbox (s : State) (k : Wait) : (s.waitCur k).outbox = s.outbox := rfl
@[simp] theorem State.waitCur_atc (s : State) (k : Wait) : (s.waitCur k).atc = s.atc := rfl
@[simp] theorem State.waitCur_l2 (s : State) (k : Wait) : (s.waitCur k).l2 = s.l2 := rfl
@[simp] theorem State.waitCur_chart (s : State) (k : Wait) : (s.waitCur k).chart = s.chart := rfl
@[simp] theorem State.waitCur_parkCount (s : State) (k : Wait) : (s.waitCur k).parkCount = s.parkCount := rfl
@[simp] theorem State.waitCur_bears (s : State) (k : Wait) : (s.waitCur k).bears = s.bears := rfl
@[simp] theorem State.waitCur_mail (s : State) (k : Wait) : (s.waitCur k).mail = s.mail := rfl
@[simp] theorem State.waitCur_reqs (s : State) (k : Wait) : (s.waitCur k).reqs = s.reqs := rfl
@[simp] theorem State.waitCur_reps (s : State) (k : Wait) : (s.waitCur k).reps = s.reps := rfl
@[simp] theorem State.waitCur_ops (s : State) (k : Wait) : (s.waitCur k).ops = s.ops := rfl
@[simp] theorem State.waitCur_gbars (s : State) (k : Wait) : (s.waitCur k).gbars = s.gbars := rfl
@[simp] theorem State.waitCur_errs (s : State) (k : Wait) : (s.waitCur k).errs = s.errs := rfl
@[simp] theorem State.waitCur_icache (s : State) (k : Wait) : (s.waitCur k).icache = s.icache := rfl
@[simp] theorem State.waitCur_l1 (s : State) (k : Wait) : (s.waitCur k).l1 = s.l1 := rfl
@[simp] theorem State.waitCur_copies (s : State) (k : Wait) : (s.waitCur k).copies = s.copies := rfl
@[simp] theorem State.waitCur_cores (s : State) (k : Wait) : (s.waitCur k).cores = s.cores := rfl
@[simp] theorem State.waitCur_cnt (s : State) (k : Wait) : (s.waitCur k).cnt = s.cnt := rfl
@[simp] theorem State.waitCur_cnt0 (s : State) (k : Wait) : (s.waitCur k).cnt0 = s.cnt0 := rfl
@[simp] theorem State.waitCur_launches (s : State) (k : Wait) : (s.waitCur k).launches = s.launches := rfl
@[simp] theorem State.waitCur_teams (s : State) (k : Wait) : (s.waitCur k).teams = s.teams := rfl
@[simp] theorem State.waitCur_busy (s : State) (k : Wait) : (s.waitCur k).busy = s.busy := rfl
@[simp] theorem State.waitCur_free (s : State) (k : Wait) : (s.waitCur k).free = s.free := rfl
@[simp] theorem State.waitCur_arrivals (s : State) (k : Wait) : (s.waitCur k).arrivals = s.arrivals := rfl
@[simp] theorem State.waitCur_cur (s : State) (k : Wait) : (s.waitCur k).cur = s.cur := rfl
@[simp] theorem State.waitCur_stalled (s : State) (k : Wait) : (s.waitCur k).stalled = s.stalled := rfl
@[simp] theorem State.waitCur_nextId (s : State) (k : Wait) : (s.waitCur k).nextId = s.nextId := rfl

/-! `fresh` gives the next identifier and changes nothing else. -/
@[simp] theorem State.fresh_fst (s : State) : s.fresh.1 = s.nextId := rfl
@[simp] theorem State.fresh_nextId (s : State) : s.fresh.2.nextId = s.nextId + 1 := rfl
@[simp] theorem State.fresh_clock (s : State) : s.fresh.2.clock = s.clock := rfl
@[simp] theorem State.fresh_mem (s : State) : s.fresh.2.mem = s.mem := rfl
@[simp] theorem State.fresh_poison (s : State) : s.fresh.2.poison = s.poison := rfl
@[simp] theorem State.fresh_linkDown (s : State) : s.fresh.2.linkDown = s.linkDown := rfl
@[simp] theorem State.fresh_routes (s : State) : s.fresh.2.routes = s.routes := rfl
@[simp] theorem State.fresh_hostPath (s : State) : s.fresh.2.hostPath = s.hostPath := rfl
@[simp] theorem State.fresh_l2park (s : State) : s.fresh.2.l2park = s.l2park := rfl
@[simp] theorem State.fresh_patrol (s : State) : s.fresh.2.patrol = s.patrol := rfl
@[simp] theorem State.fresh_parts (s : State) : s.fresh.2.parts = s.parts := rfl
@[simp] theorem State.fresh_ctxs (s : State) : s.fresh.2.ctxs = s.ctxs := rfl
@[simp] theorem State.fresh_power (s : State) : s.fresh.2.power = s.power := rfl
@[simp] theorem State.fresh_tripped (s : State) : s.fresh.2.tripped = s.tripped := rfl
@[simp] theorem State.fresh_sx (s : State) : s.fresh.2.sx = s.sx := rfl
@[simp] theorem State.fresh_log (s : State) : s.fresh.2.log = s.log := rfl
@[simp] theorem State.fresh_sensors (s : State) : s.fresh.2.sensors = s.sensors := rfl
@[simp] theorem State.fresh_ageing (s : State) : s.fresh.2.ageing = s.ageing := rfl
@[simp] theorem State.fresh_priOn (s : State) : s.fresh.2.priOn = s.priOn := rfl
@[simp] theorem State.fresh_priAlloc (s : State) : s.fresh.2.priAlloc = s.priAlloc := rfl
@[simp] theorem State.fresh_pages (s : State) : s.fresh.2.pages = s.pages := rfl
@[simp] theorem State.fresh_ats (s : State) : s.fresh.2.ats = s.ats := rfl
@[simp] theorem State.fresh_invals (s : State) : s.fresh.2.invals = s.invals := rfl
@[simp] theorem State.fresh_outbox (s : State) : s.fresh.2.outbox = s.outbox := rfl
@[simp] theorem State.fresh_atc (s : State) : s.fresh.2.atc = s.atc := rfl
@[simp] theorem State.fresh_l2 (s : State) : s.fresh.2.l2 = s.l2 := rfl
@[simp] theorem State.fresh_chart (s : State) : s.fresh.2.chart = s.chart := rfl
@[simp] theorem State.fresh_parkCount (s : State) : s.fresh.2.parkCount = s.parkCount := rfl
@[simp] theorem State.fresh_bears (s : State) : s.fresh.2.bears = s.bears := rfl
@[simp] theorem State.fresh_mail (s : State) : s.fresh.2.mail = s.mail := rfl
@[simp] theorem State.fresh_reqs (s : State) : s.fresh.2.reqs = s.reqs := rfl
@[simp] theorem State.fresh_reps (s : State) : s.fresh.2.reps = s.reps := rfl
@[simp] theorem State.fresh_ops (s : State) : s.fresh.2.ops = s.ops := rfl
@[simp] theorem State.fresh_gbars (s : State) : s.fresh.2.gbars = s.gbars := rfl
@[simp] theorem State.fresh_errs (s : State) : s.fresh.2.errs = s.errs := rfl
@[simp] theorem State.fresh_icache (s : State) : s.fresh.2.icache = s.icache := rfl
@[simp] theorem State.fresh_l1 (s : State) : s.fresh.2.l1 = s.l1 := rfl
@[simp] theorem State.fresh_copies (s : State) : s.fresh.2.copies = s.copies := rfl
@[simp] theorem State.fresh_cores (s : State) : s.fresh.2.cores = s.cores := rfl
@[simp] theorem State.fresh_cnt (s : State) : s.fresh.2.cnt = s.cnt := rfl
@[simp] theorem State.fresh_cnt0 (s : State) : s.fresh.2.cnt0 = s.cnt0 := rfl
@[simp] theorem State.fresh_launches (s : State) : s.fresh.2.launches = s.launches := rfl
@[simp] theorem State.fresh_teams (s : State) : s.fresh.2.teams = s.teams := rfl
@[simp] theorem State.fresh_waves (s : State) : s.fresh.2.waves = s.waves := rfl
@[simp] theorem State.fresh_busy (s : State) : s.fresh.2.busy = s.busy := rfl
@[simp] theorem State.fresh_free (s : State) : s.fresh.2.free = s.free := rfl
@[simp] theorem State.fresh_arrivals (s : State) : s.fresh.2.arrivals = s.arrivals := rfl
@[simp] theorem State.fresh_cur (s : State) : s.fresh.2.cur = s.cur := rfl
@[simp] theorem State.fresh_stalled (s : State) : s.fresh.2.stalled = s.stalled := rfl

/-! `Wave.setV` changes `v` only. -/
@[simp] theorem Wave.setV_id (w : Wave) (n : Nat) (r : VReg) : (w.setV n r).id = w.id := rfl
@[simp] theorem Wave.setV_team (w : Wave) (n : Nat) (r : VReg) : (w.setV n r).team = w.team := rfl
@[simp] theorem Wave.setV_num (w : Wave) (n : Nat) (r : VReg) : (w.setV n r).num = w.num := rfl
@[simp] theorem Wave.setV_half (w : Wave) (n : Nat) (r : VReg) : (w.setV n r).half = w.half := rfl
@[simp] theorem Wave.setV_core (w : Wave) (n : Nat) (r : VReg) : (w.setV n r).core = w.core := rfl
@[simp] theorem Wave.setV_q (w : Wave) (n : Nat) (r : VReg) : (w.setV n r).q = w.q := rfl
@[simp] theorem Wave.setV_slot (w : Wave) (n : Nat) (r : VReg) : (w.setV n r).slot = w.slot := rfl
@[simp] theorem Wave.setV_role (w : Wave) (n : Nat) (r : VReg) : (w.setV n r).role = w.role := rfl
@[simp] theorem Wave.setV_w32 (w : Wave) (n : Nat) (r : VReg) : (w.setV n r).w32 = w.w32 := rfl
@[simp] theorem Wave.setV_dm (w : Wave) (n : Nat) (r : VReg) : (w.setV n r).dm = w.dm := rfl
@[simp] theorem Wave.setV_vN (w : Wave) (n : Nat) (r : VReg) : (w.setV n r).vN = w.vN := rfl
@[simp] theorem Wave.setV_sN (w : Wave) (n : Nat) (r : VReg) : (w.setV n r).sN = w.sN := rfl
@[simp] theorem Wave.setV_tN (w : Wave) (n : Nat) (r : VReg) : (w.setV n r).tN = w.tN := rfl
@[simp] theorem Wave.setV_obj (w : Wave) (n : Nat) (r : VReg) : (w.setV n r).obj = w.obj := rfl
@[simp] theorem Wave.setV_base (w : Wave) (n : Nat) (r : VReg) : (w.setV n r).base = w.base := rfl
@[simp] theorem Wave.setV_limit (w : Wave) (n : Nat) (r : VReg) : (w.setV n r).limit = w.limit := rfl
@[simp] theorem Wave.setV_live (w : Wave) (n : Nat) (r : VReg) : (w.setV n r).live = w.live := rfl
@[simp] theorem Wave.setV_swapped (w : Wave) (n : Nat) (r : VReg) : (w.setV n r).swapped = w.swapped := rfl
@[simp] theorem Wave.setV_away (w : Wave) (n : Nat) (r : VReg) : (w.setV n r).away = w.away := rfl
@[simp] theorem Wave.setV_s (w : Wave) (n : Nat) (r : VReg) : (w.setV n r).s = w.s := rfl
@[simp] theorem Wave.setV_p (w : Wave) (n : Nat) (r : VReg) : (w.setV n r).p = w.p := rfl
@[simp] theorem Wave.setV_pBusy (w : Wave) (n : Nat) (r : VReg) : (w.setV n r).pBusy = w.pBusy := rfl
@[simp] theorem Wave.setV_t (w : Wave) (n : Nat) (r : VReg) : (w.setV n r).t = w.t := rfl
@[simp] theorem Wave.setV_tfill (w : Wave) (n : Nat) (r : VReg) : (w.setV n r).tfill = w.tfill := rfl
@[simp] theorem Wave.setV_towed (w : Wave) (n : Nat) (r : VReg) : (w.setV n r).towed = w.towed := rfl
@[simp] theorem Wave.setV_la (w : Wave) (n : Nat) (r : VReg) : (w.setV n r).la = w.la := rfl
@[simp] theorem Wave.setV_lb (w : Wave) (n : Nat) (r : VReg) : (w.setV n r).lb = w.lb := rfl
@[simp] theorem Wave.setV_o (w : Wave) (n : Nat) (r : VReg) : (w.setV n r).o = w.o := rfl
@[simp] theorem Wave.setV_md (w : Wave) (n : Nat) (r : VReg) : (w.setV n r).md = w.md := rfl
@[simp] theorem Wave.setV_flags (w : Wave) (n : Nat) (r : VReg) : (w.setV n r).flags = w.flags := rfl
@[simp] theorem Wave.setV_wpc (w : Wave) (n : Nat) (r : VReg) : (w.setV n r).wpc = w.wpc := rfl
@[simp] theorem Wave.setV_acc (w : Wave) (n : Nat) (r : VReg) : (w.setV n r).acc = w.acc := rfl
@[simp] theorem Wave.setV_rej (w : Wave) (n : Nat) (r : VReg) : (w.setV n r).rej = w.rej := rfl
@[simp] theorem Wave.setV_keyLo (w : Wave) (n : Nat) (r : VReg) : (w.setV n r).keyLo = w.keyLo := rfl
@[simp] theorem Wave.setV_keyHi (w : Wave) (n : Nat) (r : VReg) : (w.setV n r).keyHi = w.keyHi := rfl
@[simp] theorem Wave.setV_rngctr (w : Wave) (n : Nat) (r : VReg) : (w.setV n r).rngctr = w.rngctr := rfl
@[simp] theorem Wave.setV_trec (w : Wave) (n : Nat) (r : VReg) : (w.setV n r).trec = w.trec := rfl
@[simp] theorem Wave.setV_hs (w : Wave) (n : Nat) (r : VReg) : (w.setV n r).hs = w.hs := rfl
@[simp] theorem Wave.setV_hla (w : Wave) (n : Nat) (r : VReg) : (w.setV n r).hla = w.hla := rfl
@[simp] theorem Wave.setV_hlb (w : Wave) (n : Nat) (r : VReg) : (w.setV n r).hlb = w.hlb := rfl
@[simp] theorem Wave.setV_hp14 (w : Wave) (n : Nat) (r : VReg) : (w.setV n r).hp14 = w.hp14 := rfl
@[simp] theorem Wave.setV_h (w : Wave) (n : Nat) (r : VReg) : (w.setV n r).h = w.h := rfl
@[simp] theorem Wave.setV_prop (w : Wave) (n : Nat) (r : VReg) : (w.setV n r).prop = w.prop := rfl
@[simp] theorem Wave.setV_mx (w : Wave) (n : Nat) (r : VReg) : (w.setV n r).mx = w.mx := rfl
@[simp] theorem Wave.setV_frags (w : Wave) (n : Nat) (r : VReg) : (w.setV n r).frags = w.frags := rfl
@[simp] theorem Wave.setV_born (w : Wave) (n : Nat) (r : VReg) : (w.setV n r).born = w.born := rfl

/-! `Wave.setSlot` changes `o` only. -/
@[simp] theorem Wave.setSlot_id (w : Wave) (n : Nat) (r : Slot) : (w.setSlot n r).id = w.id := rfl
@[simp] theorem Wave.setSlot_team (w : Wave) (n : Nat) (r : Slot) : (w.setSlot n r).team = w.team := rfl
@[simp] theorem Wave.setSlot_num (w : Wave) (n : Nat) (r : Slot) : (w.setSlot n r).num = w.num := rfl
@[simp] theorem Wave.setSlot_half (w : Wave) (n : Nat) (r : Slot) : (w.setSlot n r).half = w.half := rfl
@[simp] theorem Wave.setSlot_core (w : Wave) (n : Nat) (r : Slot) : (w.setSlot n r).core = w.core := rfl
@[simp] theorem Wave.setSlot_q (w : Wave) (n : Nat) (r : Slot) : (w.setSlot n r).q = w.q := rfl
@[simp] theorem Wave.setSlot_slot (w : Wave) (n : Nat) (r : Slot) : (w.setSlot n r).slot = w.slot := rfl
@[simp] theorem Wave.setSlot_role (w : Wave) (n : Nat) (r : Slot) : (w.setSlot n r).role = w.role := rfl
@[simp] theorem Wave.setSlot_w32 (w : Wave) (n : Nat) (r : Slot) : (w.setSlot n r).w32 = w.w32 := rfl
@[simp] theorem Wave.setSlot_dm (w : Wave) (n : Nat) (r : Slot) : (w.setSlot n r).dm = w.dm := rfl
@[simp] theorem Wave.setSlot_vN (w : Wave) (n : Nat) (r : Slot) : (w.setSlot n r).vN = w.vN := rfl
@[simp] theorem Wave.setSlot_sN (w : Wave) (n : Nat) (r : Slot) : (w.setSlot n r).sN = w.sN := rfl
@[simp] theorem Wave.setSlot_tN (w : Wave) (n : Nat) (r : Slot) : (w.setSlot n r).tN = w.tN := rfl
@[simp] theorem Wave.setSlot_obj (w : Wave) (n : Nat) (r : Slot) : (w.setSlot n r).obj = w.obj := rfl
@[simp] theorem Wave.setSlot_base (w : Wave) (n : Nat) (r : Slot) : (w.setSlot n r).base = w.base := rfl
@[simp] theorem Wave.setSlot_limit (w : Wave) (n : Nat) (r : Slot) : (w.setSlot n r).limit = w.limit := rfl
@[simp] theorem Wave.setSlot_live (w : Wave) (n : Nat) (r : Slot) : (w.setSlot n r).live = w.live := rfl
@[simp] theorem Wave.setSlot_swapped (w : Wave) (n : Nat) (r : Slot) : (w.setSlot n r).swapped = w.swapped := rfl
@[simp] theorem Wave.setSlot_away (w : Wave) (n : Nat) (r : Slot) : (w.setSlot n r).away = w.away := rfl
@[simp] theorem Wave.setSlot_v (w : Wave) (n : Nat) (r : Slot) : (w.setSlot n r).v = w.v := rfl
@[simp] theorem Wave.setSlot_s (w : Wave) (n : Nat) (r : Slot) : (w.setSlot n r).s = w.s := rfl
@[simp] theorem Wave.setSlot_p (w : Wave) (n : Nat) (r : Slot) : (w.setSlot n r).p = w.p := rfl
@[simp] theorem Wave.setSlot_pBusy (w : Wave) (n : Nat) (r : Slot) : (w.setSlot n r).pBusy = w.pBusy := rfl
@[simp] theorem Wave.setSlot_t (w : Wave) (n : Nat) (r : Slot) : (w.setSlot n r).t = w.t := rfl
@[simp] theorem Wave.setSlot_tfill (w : Wave) (n : Nat) (r : Slot) : (w.setSlot n r).tfill = w.tfill := rfl
@[simp] theorem Wave.setSlot_towed (w : Wave) (n : Nat) (r : Slot) : (w.setSlot n r).towed = w.towed := rfl
@[simp] theorem Wave.setSlot_la (w : Wave) (n : Nat) (r : Slot) : (w.setSlot n r).la = w.la := rfl
@[simp] theorem Wave.setSlot_lb (w : Wave) (n : Nat) (r : Slot) : (w.setSlot n r).lb = w.lb := rfl
@[simp] theorem Wave.setSlot_md (w : Wave) (n : Nat) (r : Slot) : (w.setSlot n r).md = w.md := rfl
@[simp] theorem Wave.setSlot_flags (w : Wave) (n : Nat) (r : Slot) : (w.setSlot n r).flags = w.flags := rfl
@[simp] theorem Wave.setSlot_wpc (w : Wave) (n : Nat) (r : Slot) : (w.setSlot n r).wpc = w.wpc := rfl
@[simp] theorem Wave.setSlot_acc (w : Wave) (n : Nat) (r : Slot) : (w.setSlot n r).acc = w.acc := rfl
@[simp] theorem Wave.setSlot_rej (w : Wave) (n : Nat) (r : Slot) : (w.setSlot n r).rej = w.rej := rfl
@[simp] theorem Wave.setSlot_keyLo (w : Wave) (n : Nat) (r : Slot) : (w.setSlot n r).keyLo = w.keyLo := rfl
@[simp] theorem Wave.setSlot_keyHi (w : Wave) (n : Nat) (r : Slot) : (w.setSlot n r).keyHi = w.keyHi := rfl
@[simp] theorem Wave.setSlot_rngctr (w : Wave) (n : Nat) (r : Slot) : (w.setSlot n r).rngctr = w.rngctr := rfl
@[simp] theorem Wave.setSlot_trec (w : Wave) (n : Nat) (r : Slot) : (w.setSlot n r).trec = w.trec := rfl
@[simp] theorem Wave.setSlot_hs (w : Wave) (n : Nat) (r : Slot) : (w.setSlot n r).hs = w.hs := rfl
@[simp] theorem Wave.setSlot_hla (w : Wave) (n : Nat) (r : Slot) : (w.setSlot n r).hla = w.hla := rfl
@[simp] theorem Wave.setSlot_hlb (w : Wave) (n : Nat) (r : Slot) : (w.setSlot n r).hlb = w.hlb := rfl
@[simp] theorem Wave.setSlot_hp14 (w : Wave) (n : Nat) (r : Slot) : (w.setSlot n r).hp14 = w.hp14 := rfl
@[simp] theorem Wave.setSlot_h (w : Wave) (n : Nat) (r : Slot) : (w.setSlot n r).h = w.h := rfl
@[simp] theorem Wave.setSlot_prop (w : Wave) (n : Nat) (r : Slot) : (w.setSlot n r).prop = w.prop := rfl
@[simp] theorem Wave.setSlot_mx (w : Wave) (n : Nat) (r : Slot) : (w.setSlot n r).mx = w.mx := rfl
@[simp] theorem Wave.setSlot_frags (w : Wave) (n : Nat) (r : Slot) : (w.setSlot n r).frags = w.frags := rfl
@[simp] theorem Wave.setSlot_born (w : Wave) (n : Nat) (r : Slot) : (w.setSlot n r).born = w.born := rfl

/-! `Wave.modFrag` changes `frags` only. -/
@[simp] theorem Wave.modFrag_id (w : Wave) (n : Nat) (r : Frag → Frag) : (w.modFrag n r).id = w.id := rfl
@[simp] theorem Wave.modFrag_team (w : Wave) (n : Nat) (r : Frag → Frag) : (w.modFrag n r).team = w.team := rfl
@[simp] theorem Wave.modFrag_num (w : Wave) (n : Nat) (r : Frag → Frag) : (w.modFrag n r).num = w.num := rfl
@[simp] theorem Wave.modFrag_half (w : Wave) (n : Nat) (r : Frag → Frag) : (w.modFrag n r).half = w.half := rfl
@[simp] theorem Wave.modFrag_core (w : Wave) (n : Nat) (r : Frag → Frag) : (w.modFrag n r).core = w.core := rfl
@[simp] theorem Wave.modFrag_q (w : Wave) (n : Nat) (r : Frag → Frag) : (w.modFrag n r).q = w.q := rfl
@[simp] theorem Wave.modFrag_slot (w : Wave) (n : Nat) (r : Frag → Frag) : (w.modFrag n r).slot = w.slot := rfl
@[simp] theorem Wave.modFrag_role (w : Wave) (n : Nat) (r : Frag → Frag) : (w.modFrag n r).role = w.role := rfl
@[simp] theorem Wave.modFrag_w32 (w : Wave) (n : Nat) (r : Frag → Frag) : (w.modFrag n r).w32 = w.w32 := rfl
@[simp] theorem Wave.modFrag_dm (w : Wave) (n : Nat) (r : Frag → Frag) : (w.modFrag n r).dm = w.dm := rfl
@[simp] theorem Wave.modFrag_vN (w : Wave) (n : Nat) (r : Frag → Frag) : (w.modFrag n r).vN = w.vN := rfl
@[simp] theorem Wave.modFrag_sN (w : Wave) (n : Nat) (r : Frag → Frag) : (w.modFrag n r).sN = w.sN := rfl
@[simp] theorem Wave.modFrag_tN (w : Wave) (n : Nat) (r : Frag → Frag) : (w.modFrag n r).tN = w.tN := rfl
@[simp] theorem Wave.modFrag_obj (w : Wave) (n : Nat) (r : Frag → Frag) : (w.modFrag n r).obj = w.obj := rfl
@[simp] theorem Wave.modFrag_base (w : Wave) (n : Nat) (r : Frag → Frag) : (w.modFrag n r).base = w.base := rfl
@[simp] theorem Wave.modFrag_limit (w : Wave) (n : Nat) (r : Frag → Frag) : (w.modFrag n r).limit = w.limit := rfl
@[simp] theorem Wave.modFrag_live (w : Wave) (n : Nat) (r : Frag → Frag) : (w.modFrag n r).live = w.live := rfl
@[simp] theorem Wave.modFrag_swapped (w : Wave) (n : Nat) (r : Frag → Frag) : (w.modFrag n r).swapped = w.swapped := rfl
@[simp] theorem Wave.modFrag_away (w : Wave) (n : Nat) (r : Frag → Frag) : (w.modFrag n r).away = w.away := rfl
@[simp] theorem Wave.modFrag_v (w : Wave) (n : Nat) (r : Frag → Frag) : (w.modFrag n r).v = w.v := rfl
@[simp] theorem Wave.modFrag_s (w : Wave) (n : Nat) (r : Frag → Frag) : (w.modFrag n r).s = w.s := rfl
@[simp] theorem Wave.modFrag_p (w : Wave) (n : Nat) (r : Frag → Frag) : (w.modFrag n r).p = w.p := rfl
@[simp] theorem Wave.modFrag_pBusy (w : Wave) (n : Nat) (r : Frag → Frag) : (w.modFrag n r).pBusy = w.pBusy := rfl
@[simp] theorem Wave.modFrag_t (w : Wave) (n : Nat) (r : Frag → Frag) : (w.modFrag n r).t = w.t := rfl
@[simp] theorem Wave.modFrag_tfill (w : Wave) (n : Nat) (r : Frag → Frag) : (w.modFrag n r).tfill = w.tfill := rfl
@[simp] theorem Wave.modFrag_towed (w : Wave) (n : Nat) (r : Frag → Frag) : (w.modFrag n r).towed = w.towed := rfl
@[simp] theorem Wave.modFrag_la (w : Wave) (n : Nat) (r : Frag → Frag) : (w.modFrag n r).la = w.la := rfl
@[simp] theorem Wave.modFrag_lb (w : Wave) (n : Nat) (r : Frag → Frag) : (w.modFrag n r).lb = w.lb := rfl
@[simp] theorem Wave.modFrag_o (w : Wave) (n : Nat) (r : Frag → Frag) : (w.modFrag n r).o = w.o := rfl
@[simp] theorem Wave.modFrag_md (w : Wave) (n : Nat) (r : Frag → Frag) : (w.modFrag n r).md = w.md := rfl
@[simp] theorem Wave.modFrag_flags (w : Wave) (n : Nat) (r : Frag → Frag) : (w.modFrag n r).flags = w.flags := rfl
@[simp] theorem Wave.modFrag_wpc (w : Wave) (n : Nat) (r : Frag → Frag) : (w.modFrag n r).wpc = w.wpc := rfl
@[simp] theorem Wave.modFrag_acc (w : Wave) (n : Nat) (r : Frag → Frag) : (w.modFrag n r).acc = w.acc := rfl
@[simp] theorem Wave.modFrag_rej (w : Wave) (n : Nat) (r : Frag → Frag) : (w.modFrag n r).rej = w.rej := rfl
@[simp] theorem Wave.modFrag_keyLo (w : Wave) (n : Nat) (r : Frag → Frag) : (w.modFrag n r).keyLo = w.keyLo := rfl
@[simp] theorem Wave.modFrag_keyHi (w : Wave) (n : Nat) (r : Frag → Frag) : (w.modFrag n r).keyHi = w.keyHi := rfl
@[simp] theorem Wave.modFrag_rngctr (w : Wave) (n : Nat) (r : Frag → Frag) : (w.modFrag n r).rngctr = w.rngctr := rfl
@[simp] theorem Wave.modFrag_trec (w : Wave) (n : Nat) (r : Frag → Frag) : (w.modFrag n r).trec = w.trec := rfl
@[simp] theorem Wave.modFrag_hs (w : Wave) (n : Nat) (r : Frag → Frag) : (w.modFrag n r).hs = w.hs := rfl
@[simp] theorem Wave.modFrag_hla (w : Wave) (n : Nat) (r : Frag → Frag) : (w.modFrag n r).hla = w.hla := rfl
@[simp] theorem Wave.modFrag_hlb (w : Wave) (n : Nat) (r : Frag → Frag) : (w.modFrag n r).hlb = w.hlb := rfl
@[simp] theorem Wave.modFrag_hp14 (w : Wave) (n : Nat) (r : Frag → Frag) : (w.modFrag n r).hp14 = w.hp14 := rfl
@[simp] theorem Wave.modFrag_h (w : Wave) (n : Nat) (r : Frag → Frag) : (w.modFrag n r).h = w.h := rfl
@[simp] theorem Wave.modFrag_prop (w : Wave) (n : Nat) (r : Frag → Frag) : (w.modFrag n r).prop = w.prop := rfl
@[simp] theorem Wave.modFrag_mx (w : Wave) (n : Nat) (r : Frag → Frag) : (w.modFrag n r).mx = w.mx := rfl
@[simp] theorem Wave.modFrag_born (w : Wave) (n : Nat) (r : Frag → Frag) : (w.modFrag n r).born = w.born := rfl

/-! `Wave.setS` changes `s` or `hs`. -/
@[simp] theorem Wave.setS_id (w : Wave) (b : Bool) (n : Nat) (r : SReg) : (w.setS b n r).id = w.id := by unfold Wave.setS; split <;> rfl
@[simp] theorem Wave.setS_team (w : Wave) (b : Bool) (n : Nat) (r : SReg) : (w.setS b n r).team = w.team := by unfold Wave.setS; split <;> rfl
@[simp] theorem Wave.setS_num (w : Wave) (b : Bool) (n : Nat) (r : SReg) : (w.setS b n r).num = w.num := by unfold Wave.setS; split <;> rfl
@[simp] theorem Wave.setS_half (w : Wave) (b : Bool) (n : Nat) (r : SReg) : (w.setS b n r).half = w.half := by unfold Wave.setS; split <;> rfl
@[simp] theorem Wave.setS_core (w : Wave) (b : Bool) (n : Nat) (r : SReg) : (w.setS b n r).core = w.core := by unfold Wave.setS; split <;> rfl
@[simp] theorem Wave.setS_q (w : Wave) (b : Bool) (n : Nat) (r : SReg) : (w.setS b n r).q = w.q := by unfold Wave.setS; split <;> rfl
@[simp] theorem Wave.setS_slot (w : Wave) (b : Bool) (n : Nat) (r : SReg) : (w.setS b n r).slot = w.slot := by unfold Wave.setS; split <;> rfl
@[simp] theorem Wave.setS_role (w : Wave) (b : Bool) (n : Nat) (r : SReg) : (w.setS b n r).role = w.role := by unfold Wave.setS; split <;> rfl
@[simp] theorem Wave.setS_w32 (w : Wave) (b : Bool) (n : Nat) (r : SReg) : (w.setS b n r).w32 = w.w32 := by unfold Wave.setS; split <;> rfl
@[simp] theorem Wave.setS_dm (w : Wave) (b : Bool) (n : Nat) (r : SReg) : (w.setS b n r).dm = w.dm := by unfold Wave.setS; split <;> rfl
@[simp] theorem Wave.setS_vN (w : Wave) (b : Bool) (n : Nat) (r : SReg) : (w.setS b n r).vN = w.vN := by unfold Wave.setS; split <;> rfl
@[simp] theorem Wave.setS_sN (w : Wave) (b : Bool) (n : Nat) (r : SReg) : (w.setS b n r).sN = w.sN := by unfold Wave.setS; split <;> rfl
@[simp] theorem Wave.setS_tN (w : Wave) (b : Bool) (n : Nat) (r : SReg) : (w.setS b n r).tN = w.tN := by unfold Wave.setS; split <;> rfl
@[simp] theorem Wave.setS_obj (w : Wave) (b : Bool) (n : Nat) (r : SReg) : (w.setS b n r).obj = w.obj := by unfold Wave.setS; split <;> rfl
@[simp] theorem Wave.setS_base (w : Wave) (b : Bool) (n : Nat) (r : SReg) : (w.setS b n r).base = w.base := by unfold Wave.setS; split <;> rfl
@[simp] theorem Wave.setS_limit (w : Wave) (b : Bool) (n : Nat) (r : SReg) : (w.setS b n r).limit = w.limit := by unfold Wave.setS; split <;> rfl
@[simp] theorem Wave.setS_live (w : Wave) (b : Bool) (n : Nat) (r : SReg) : (w.setS b n r).live = w.live := by unfold Wave.setS; split <;> rfl
@[simp] theorem Wave.setS_swapped (w : Wave) (b : Bool) (n : Nat) (r : SReg) : (w.setS b n r).swapped = w.swapped := by unfold Wave.setS; split <;> rfl
@[simp] theorem Wave.setS_away (w : Wave) (b : Bool) (n : Nat) (r : SReg) : (w.setS b n r).away = w.away := by unfold Wave.setS; split <;> rfl
@[simp] theorem Wave.setS_v (w : Wave) (b : Bool) (n : Nat) (r : SReg) : (w.setS b n r).v = w.v := by unfold Wave.setS; split <;> rfl
@[simp] theorem Wave.setS_p (w : Wave) (b : Bool) (n : Nat) (r : SReg) : (w.setS b n r).p = w.p := by unfold Wave.setS; split <;> rfl
@[simp] theorem Wave.setS_pBusy (w : Wave) (b : Bool) (n : Nat) (r : SReg) : (w.setS b n r).pBusy = w.pBusy := by unfold Wave.setS; split <;> rfl
@[simp] theorem Wave.setS_t (w : Wave) (b : Bool) (n : Nat) (r : SReg) : (w.setS b n r).t = w.t := by unfold Wave.setS; split <;> rfl
@[simp] theorem Wave.setS_tfill (w : Wave) (b : Bool) (n : Nat) (r : SReg) : (w.setS b n r).tfill = w.tfill := by unfold Wave.setS; split <;> rfl
@[simp] theorem Wave.setS_towed (w : Wave) (b : Bool) (n : Nat) (r : SReg) : (w.setS b n r).towed = w.towed := by unfold Wave.setS; split <;> rfl
@[simp] theorem Wave.setS_la (w : Wave) (b : Bool) (n : Nat) (r : SReg) : (w.setS b n r).la = w.la := by unfold Wave.setS; split <;> rfl
@[simp] theorem Wave.setS_lb (w : Wave) (b : Bool) (n : Nat) (r : SReg) : (w.setS b n r).lb = w.lb := by unfold Wave.setS; split <;> rfl
@[simp] theorem Wave.setS_o (w : Wave) (b : Bool) (n : Nat) (r : SReg) : (w.setS b n r).o = w.o := by unfold Wave.setS; split <;> rfl
@[simp] theorem Wave.setS_md (w : Wave) (b : Bool) (n : Nat) (r : SReg) : (w.setS b n r).md = w.md := by unfold Wave.setS; split <;> rfl
@[simp] theorem Wave.setS_flags (w : Wave) (b : Bool) (n : Nat) (r : SReg) : (w.setS b n r).flags = w.flags := by unfold Wave.setS; split <;> rfl
@[simp] theorem Wave.setS_wpc (w : Wave) (b : Bool) (n : Nat) (r : SReg) : (w.setS b n r).wpc = w.wpc := by unfold Wave.setS; split <;> rfl
@[simp] theorem Wave.setS_acc (w : Wave) (b : Bool) (n : Nat) (r : SReg) : (w.setS b n r).acc = w.acc := by unfold Wave.setS; split <;> rfl
@[simp] theorem Wave.setS_rej (w : Wave) (b : Bool) (n : Nat) (r : SReg) : (w.setS b n r).rej = w.rej := by unfold Wave.setS; split <;> rfl
@[simp] theorem Wave.setS_keyLo (w : Wave) (b : Bool) (n : Nat) (r : SReg) : (w.setS b n r).keyLo = w.keyLo := by unfold Wave.setS; split <;> rfl
@[simp] theorem Wave.setS_keyHi (w : Wave) (b : Bool) (n : Nat) (r : SReg) : (w.setS b n r).keyHi = w.keyHi := by unfold Wave.setS; split <;> rfl
@[simp] theorem Wave.setS_rngctr (w : Wave) (b : Bool) (n : Nat) (r : SReg) : (w.setS b n r).rngctr = w.rngctr := by unfold Wave.setS; split <;> rfl
@[simp] theorem Wave.setS_trec (w : Wave) (b : Bool) (n : Nat) (r : SReg) : (w.setS b n r).trec = w.trec := by unfold Wave.setS; split <;> rfl
@[simp] theorem Wave.setS_hla (w : Wave) (b : Bool) (n : Nat) (r : SReg) : (w.setS b n r).hla = w.hla := by unfold Wave.setS; split <;> rfl
@[simp] theorem Wave.setS_hlb (w : Wave) (b : Bool) (n : Nat) (r : SReg) : (w.setS b n r).hlb = w.hlb := by unfold Wave.setS; split <;> rfl
@[simp] theorem Wave.setS_hp14 (w : Wave) (b : Bool) (n : Nat) (r : SReg) : (w.setS b n r).hp14 = w.hp14 := by unfold Wave.setS; split <;> rfl
@[simp] theorem Wave.setS_h (w : Wave) (b : Bool) (n : Nat) (r : SReg) : (w.setS b n r).h = w.h := by unfold Wave.setS; split <;> rfl
@[simp] theorem Wave.setS_prop (w : Wave) (b : Bool) (n : Nat) (r : SReg) : (w.setS b n r).prop = w.prop := by unfold Wave.setS; split <;> rfl
@[simp] theorem Wave.setS_mx (w : Wave) (b : Bool) (n : Nat) (r : SReg) : (w.setS b n r).mx = w.mx := by unfold Wave.setS; split <;> rfl
@[simp] theorem Wave.setS_frags (w : Wave) (b : Bool) (n : Nat) (r : SReg) : (w.setS b n r).frags = w.frags := by unfold Wave.setS; split <;> rfl
@[simp] theorem Wave.setS_born (w : Wave) (b : Bool) (n : Nat) (r : SReg) : (w.setS b n r).born = w.born := by unfold Wave.setS; split <;> rfl

/-! `Wave.setP` changes `p` or `hp14`. -/
@[simp] theorem Wave.setP_id (w : Wave) (b : Bool) (n : Nat) (m v : Mask) : (w.setP b n m v).id = w.id := by unfold Wave.setP; (repeat' split) <;> rfl
@[simp] theorem Wave.setP_team (w : Wave) (b : Bool) (n : Nat) (m v : Mask) : (w.setP b n m v).team = w.team := by unfold Wave.setP; (repeat' split) <;> rfl
@[simp] theorem Wave.setP_num (w : Wave) (b : Bool) (n : Nat) (m v : Mask) : (w.setP b n m v).num = w.num := by unfold Wave.setP; (repeat' split) <;> rfl
@[simp] theorem Wave.setP_half (w : Wave) (b : Bool) (n : Nat) (m v : Mask) : (w.setP b n m v).half = w.half := by unfold Wave.setP; (repeat' split) <;> rfl
@[simp] theorem Wave.setP_core (w : Wave) (b : Bool) (n : Nat) (m v : Mask) : (w.setP b n m v).core = w.core := by unfold Wave.setP; (repeat' split) <;> rfl
@[simp] theorem Wave.setP_q (w : Wave) (b : Bool) (n : Nat) (m v : Mask) : (w.setP b n m v).q = w.q := by unfold Wave.setP; (repeat' split) <;> rfl
@[simp] theorem Wave.setP_slot (w : Wave) (b : Bool) (n : Nat) (m v : Mask) : (w.setP b n m v).slot = w.slot := by unfold Wave.setP; (repeat' split) <;> rfl
@[simp] theorem Wave.setP_role (w : Wave) (b : Bool) (n : Nat) (m v : Mask) : (w.setP b n m v).role = w.role := by unfold Wave.setP; (repeat' split) <;> rfl
@[simp] theorem Wave.setP_w32 (w : Wave) (b : Bool) (n : Nat) (m v : Mask) : (w.setP b n m v).w32 = w.w32 := by unfold Wave.setP; (repeat' split) <;> rfl
@[simp] theorem Wave.setP_dm (w : Wave) (b : Bool) (n : Nat) (m v : Mask) : (w.setP b n m v).dm = w.dm := by unfold Wave.setP; (repeat' split) <;> rfl
@[simp] theorem Wave.setP_vN (w : Wave) (b : Bool) (n : Nat) (m v : Mask) : (w.setP b n m v).vN = w.vN := by unfold Wave.setP; (repeat' split) <;> rfl
@[simp] theorem Wave.setP_sN (w : Wave) (b : Bool) (n : Nat) (m v : Mask) : (w.setP b n m v).sN = w.sN := by unfold Wave.setP; (repeat' split) <;> rfl
@[simp] theorem Wave.setP_tN (w : Wave) (b : Bool) (n : Nat) (m v : Mask) : (w.setP b n m v).tN = w.tN := by unfold Wave.setP; (repeat' split) <;> rfl
@[simp] theorem Wave.setP_obj (w : Wave) (b : Bool) (n : Nat) (m v : Mask) : (w.setP b n m v).obj = w.obj := by unfold Wave.setP; (repeat' split) <;> rfl
@[simp] theorem Wave.setP_base (w : Wave) (b : Bool) (n : Nat) (m v : Mask) : (w.setP b n m v).base = w.base := by unfold Wave.setP; (repeat' split) <;> rfl
@[simp] theorem Wave.setP_limit (w : Wave) (b : Bool) (n : Nat) (m v : Mask) : (w.setP b n m v).limit = w.limit := by unfold Wave.setP; (repeat' split) <;> rfl
@[simp] theorem Wave.setP_live (w : Wave) (b : Bool) (n : Nat) (m v : Mask) : (w.setP b n m v).live = w.live := by unfold Wave.setP; (repeat' split) <;> rfl
@[simp] theorem Wave.setP_swapped (w : Wave) (b : Bool) (n : Nat) (m v : Mask) : (w.setP b n m v).swapped = w.swapped := by unfold Wave.setP; (repeat' split) <;> rfl
@[simp] theorem Wave.setP_away (w : Wave) (b : Bool) (n : Nat) (m v : Mask) : (w.setP b n m v).away = w.away := by unfold Wave.setP; (repeat' split) <;> rfl
@[simp] theorem Wave.setP_v (w : Wave) (b : Bool) (n : Nat) (m v : Mask) : (w.setP b n m v).v = w.v := by unfold Wave.setP; (repeat' split) <;> rfl
@[simp] theorem Wave.setP_s (w : Wave) (b : Bool) (n : Nat) (m v : Mask) : (w.setP b n m v).s = w.s := by unfold Wave.setP; (repeat' split) <;> rfl
@[simp] theorem Wave.setP_pBusy (w : Wave) (b : Bool) (n : Nat) (m v : Mask) : (w.setP b n m v).pBusy = w.pBusy := by unfold Wave.setP; (repeat' split) <;> rfl
@[simp] theorem Wave.setP_t (w : Wave) (b : Bool) (n : Nat) (m v : Mask) : (w.setP b n m v).t = w.t := by unfold Wave.setP; (repeat' split) <;> rfl
@[simp] theorem Wave.setP_tfill (w : Wave) (b : Bool) (n : Nat) (m v : Mask) : (w.setP b n m v).tfill = w.tfill := by unfold Wave.setP; (repeat' split) <;> rfl
@[simp] theorem Wave.setP_towed (w : Wave) (b : Bool) (n : Nat) (m v : Mask) : (w.setP b n m v).towed = w.towed := by unfold Wave.setP; (repeat' split) <;> rfl
@[simp] theorem Wave.setP_la (w : Wave) (b : Bool) (n : Nat) (m v : Mask) : (w.setP b n m v).la = w.la := by unfold Wave.setP; (repeat' split) <;> rfl
@[simp] theorem Wave.setP_lb (w : Wave) (b : Bool) (n : Nat) (m v : Mask) : (w.setP b n m v).lb = w.lb := by unfold Wave.setP; (repeat' split) <;> rfl
@[simp] theorem Wave.setP_o (w : Wave) (b : Bool) (n : Nat) (m v : Mask) : (w.setP b n m v).o = w.o := by unfold Wave.setP; (repeat' split) <;> rfl
@[simp] theorem Wave.setP_md (w : Wave) (b : Bool) (n : Nat) (m v : Mask) : (w.setP b n m v).md = w.md := by unfold Wave.setP; (repeat' split) <;> rfl
@[simp] theorem Wave.setP_flags (w : Wave) (b : Bool) (n : Nat) (m v : Mask) : (w.setP b n m v).flags = w.flags := by unfold Wave.setP; (repeat' split) <;> rfl
@[simp] theorem Wave.setP_wpc (w : Wave) (b : Bool) (n : Nat) (m v : Mask) : (w.setP b n m v).wpc = w.wpc := by unfold Wave.setP; (repeat' split) <;> rfl
@[simp] theorem Wave.setP_acc (w : Wave) (b : Bool) (n : Nat) (m v : Mask) : (w.setP b n m v).acc = w.acc := by unfold Wave.setP; (repeat' split) <;> rfl
@[simp] theorem Wave.setP_rej (w : Wave) (b : Bool) (n : Nat) (m v : Mask) : (w.setP b n m v).rej = w.rej := by unfold Wave.setP; (repeat' split) <;> rfl
@[simp] theorem Wave.setP_keyLo (w : Wave) (b : Bool) (n : Nat) (m v : Mask) : (w.setP b n m v).keyLo = w.keyLo := by unfold Wave.setP; (repeat' split) <;> rfl
@[simp] theorem Wave.setP_keyHi (w : Wave) (b : Bool) (n : Nat) (m v : Mask) : (w.setP b n m v).keyHi = w.keyHi := by unfold Wave.setP; (repeat' split) <;> rfl
@[simp] theorem Wave.setP_rngctr (w : Wave) (b : Bool) (n : Nat) (m v : Mask) : (w.setP b n m v).rngctr = w.rngctr := by unfold Wave.setP; (repeat' split) <;> rfl
@[simp] theorem Wave.setP_trec (w : Wave) (b : Bool) (n : Nat) (m v : Mask) : (w.setP b n m v).trec = w.trec := by unfold Wave.setP; (repeat' split) <;> rfl
@[simp] theorem Wave.setP_hs (w : Wave) (b : Bool) (n : Nat) (m v : Mask) : (w.setP b n m v).hs = w.hs := by unfold Wave.setP; (repeat' split) <;> rfl
@[simp] theorem Wave.setP_hla (w : Wave) (b : Bool) (n : Nat) (m v : Mask) : (w.setP b n m v).hla = w.hla := by unfold Wave.setP; (repeat' split) <;> rfl
@[simp] theorem Wave.setP_hlb (w : Wave) (b : Bool) (n : Nat) (m v : Mask) : (w.setP b n m v).hlb = w.hlb := by unfold Wave.setP; (repeat' split) <;> rfl
@[simp] theorem Wave.setP_h (w : Wave) (b : Bool) (n : Nat) (m v : Mask) : (w.setP b n m v).h = w.h := by unfold Wave.setP; (repeat' split) <;> rfl
@[simp] theorem Wave.setP_prop (w : Wave) (b : Bool) (n : Nat) (m v : Mask) : (w.setP b n m v).prop = w.prop := by unfold Wave.setP; (repeat' split) <;> rfl
@[simp] theorem Wave.setP_mx (w : Wave) (b : Bool) (n : Nat) (m v : Mask) : (w.setP b n m v).mx = w.mx := by unfold Wave.setP; (repeat' split) <;> rfl
@[simp] theorem Wave.setP_frags (w : Wave) (b : Bool) (n : Nat) (m v : Mask) : (w.setP b n m v).frags = w.frags := by unfold Wave.setP; (repeat' split) <;> rfl
@[simp] theorem Wave.setP_born (w : Wave) (b : Bool) (n : Nat) (m v : Mask) : (w.setP b n m v).born = w.born := by unfold Wave.setP; (repeat' split) <;> rfl

/-! `Wave.setLatch` changes `la` or `lb` or `hla` or `hlb`. -/
@[simp] theorem Wave.setLatch_id (w : Wave) (b c : Bool) (l : Latch) : (w.setLatch b c l).id = w.id := by unfold Wave.setLatch; (repeat' split) <;> rfl
@[simp] theorem Wave.setLatch_team (w : Wave) (b c : Bool) (l : Latch) : (w.setLatch b c l).team = w.team := by unfold Wave.setLatch; (repeat' split) <;> rfl
@[simp] theorem Wave.setLatch_num (w : Wave) (b c : Bool) (l : Latch) : (w.setLatch b c l).num = w.num := by unfold Wave.setLatch; (repeat' split) <;> rfl
@[simp] theorem Wave.setLatch_half (w : Wave) (b c : Bool) (l : Latch) : (w.setLatch b c l).half = w.half := by unfold Wave.setLatch; (repeat' split) <;> rfl
@[simp] theorem Wave.setLatch_core (w : Wave) (b c : Bool) (l : Latch) : (w.setLatch b c l).core = w.core := by unfold Wave.setLatch; (repeat' split) <;> rfl
@[simp] theorem Wave.setLatch_q (w : Wave) (b c : Bool) (l : Latch) : (w.setLatch b c l).q = w.q := by unfold Wave.setLatch; (repeat' split) <;> rfl
@[simp] theorem Wave.setLatch_slot (w : Wave) (b c : Bool) (l : Latch) : (w.setLatch b c l).slot = w.slot := by unfold Wave.setLatch; (repeat' split) <;> rfl
@[simp] theorem Wave.setLatch_role (w : Wave) (b c : Bool) (l : Latch) : (w.setLatch b c l).role = w.role := by unfold Wave.setLatch; (repeat' split) <;> rfl
@[simp] theorem Wave.setLatch_w32 (w : Wave) (b c : Bool) (l : Latch) : (w.setLatch b c l).w32 = w.w32 := by unfold Wave.setLatch; (repeat' split) <;> rfl
@[simp] theorem Wave.setLatch_dm (w : Wave) (b c : Bool) (l : Latch) : (w.setLatch b c l).dm = w.dm := by unfold Wave.setLatch; (repeat' split) <;> rfl
@[simp] theorem Wave.setLatch_vN (w : Wave) (b c : Bool) (l : Latch) : (w.setLatch b c l).vN = w.vN := by unfold Wave.setLatch; (repeat' split) <;> rfl
@[simp] theorem Wave.setLatch_sN (w : Wave) (b c : Bool) (l : Latch) : (w.setLatch b c l).sN = w.sN := by unfold Wave.setLatch; (repeat' split) <;> rfl
@[simp] theorem Wave.setLatch_tN (w : Wave) (b c : Bool) (l : Latch) : (w.setLatch b c l).tN = w.tN := by unfold Wave.setLatch; (repeat' split) <;> rfl
@[simp] theorem Wave.setLatch_obj (w : Wave) (b c : Bool) (l : Latch) : (w.setLatch b c l).obj = w.obj := by unfold Wave.setLatch; (repeat' split) <;> rfl
@[simp] theorem Wave.setLatch_base (w : Wave) (b c : Bool) (l : Latch) : (w.setLatch b c l).base = w.base := by unfold Wave.setLatch; (repeat' split) <;> rfl
@[simp] theorem Wave.setLatch_limit (w : Wave) (b c : Bool) (l : Latch) : (w.setLatch b c l).limit = w.limit := by unfold Wave.setLatch; (repeat' split) <;> rfl
@[simp] theorem Wave.setLatch_live (w : Wave) (b c : Bool) (l : Latch) : (w.setLatch b c l).live = w.live := by unfold Wave.setLatch; (repeat' split) <;> rfl
@[simp] theorem Wave.setLatch_swapped (w : Wave) (b c : Bool) (l : Latch) : (w.setLatch b c l).swapped = w.swapped := by unfold Wave.setLatch; (repeat' split) <;> rfl
@[simp] theorem Wave.setLatch_away (w : Wave) (b c : Bool) (l : Latch) : (w.setLatch b c l).away = w.away := by unfold Wave.setLatch; (repeat' split) <;> rfl
@[simp] theorem Wave.setLatch_v (w : Wave) (b c : Bool) (l : Latch) : (w.setLatch b c l).v = w.v := by unfold Wave.setLatch; (repeat' split) <;> rfl
@[simp] theorem Wave.setLatch_s (w : Wave) (b c : Bool) (l : Latch) : (w.setLatch b c l).s = w.s := by unfold Wave.setLatch; (repeat' split) <;> rfl
@[simp] theorem Wave.setLatch_p (w : Wave) (b c : Bool) (l : Latch) : (w.setLatch b c l).p = w.p := by unfold Wave.setLatch; (repeat' split) <;> rfl
@[simp] theorem Wave.setLatch_pBusy (w : Wave) (b c : Bool) (l : Latch) : (w.setLatch b c l).pBusy = w.pBusy := by unfold Wave.setLatch; (repeat' split) <;> rfl
@[simp] theorem Wave.setLatch_t (w : Wave) (b c : Bool) (l : Latch) : (w.setLatch b c l).t = w.t := by unfold Wave.setLatch; (repeat' split) <;> rfl
@[simp] theorem Wave.setLatch_tfill (w : Wave) (b c : Bool) (l : Latch) : (w.setLatch b c l).tfill = w.tfill := by unfold Wave.setLatch; (repeat' split) <;> rfl
@[simp] theorem Wave.setLatch_towed (w : Wave) (b c : Bool) (l : Latch) : (w.setLatch b c l).towed = w.towed := by unfold Wave.setLatch; (repeat' split) <;> rfl
@[simp] theorem Wave.setLatch_o (w : Wave) (b c : Bool) (l : Latch) : (w.setLatch b c l).o = w.o := by unfold Wave.setLatch; (repeat' split) <;> rfl
@[simp] theorem Wave.setLatch_md (w : Wave) (b c : Bool) (l : Latch) : (w.setLatch b c l).md = w.md := by unfold Wave.setLatch; (repeat' split) <;> rfl
@[simp] theorem Wave.setLatch_flags (w : Wave) (b c : Bool) (l : Latch) : (w.setLatch b c l).flags = w.flags := by unfold Wave.setLatch; (repeat' split) <;> rfl
@[simp] theorem Wave.setLatch_wpc (w : Wave) (b c : Bool) (l : Latch) : (w.setLatch b c l).wpc = w.wpc := by unfold Wave.setLatch; (repeat' split) <;> rfl
@[simp] theorem Wave.setLatch_acc (w : Wave) (b c : Bool) (l : Latch) : (w.setLatch b c l).acc = w.acc := by unfold Wave.setLatch; (repeat' split) <;> rfl
@[simp] theorem Wave.setLatch_rej (w : Wave) (b c : Bool) (l : Latch) : (w.setLatch b c l).rej = w.rej := by unfold Wave.setLatch; (repeat' split) <;> rfl
@[simp] theorem Wave.setLatch_keyLo (w : Wave) (b c : Bool) (l : Latch) : (w.setLatch b c l).keyLo = w.keyLo := by unfold Wave.setLatch; (repeat' split) <;> rfl
@[simp] theorem Wave.setLatch_keyHi (w : Wave) (b c : Bool) (l : Latch) : (w.setLatch b c l).keyHi = w.keyHi := by unfold Wave.setLatch; (repeat' split) <;> rfl
@[simp] theorem Wave.setLatch_rngctr (w : Wave) (b c : Bool) (l : Latch) : (w.setLatch b c l).rngctr = w.rngctr := by unfold Wave.setLatch; (repeat' split) <;> rfl
@[simp] theorem Wave.setLatch_trec (w : Wave) (b c : Bool) (l : Latch) : (w.setLatch b c l).trec = w.trec := by unfold Wave.setLatch; (repeat' split) <;> rfl
@[simp] theorem Wave.setLatch_hs (w : Wave) (b c : Bool) (l : Latch) : (w.setLatch b c l).hs = w.hs := by unfold Wave.setLatch; (repeat' split) <;> rfl
@[simp] theorem Wave.setLatch_hp14 (w : Wave) (b c : Bool) (l : Latch) : (w.setLatch b c l).hp14 = w.hp14 := by unfold Wave.setLatch; (repeat' split) <;> rfl
@[simp] theorem Wave.setLatch_h (w : Wave) (b c : Bool) (l : Latch) : (w.setLatch b c l).h = w.h := by unfold Wave.setLatch; (repeat' split) <;> rfl
@[simp] theorem Wave.setLatch_prop (w : Wave) (b c : Bool) (l : Latch) : (w.setLatch b c l).prop = w.prop := by unfold Wave.setLatch; (repeat' split) <;> rfl
@[simp] theorem Wave.setLatch_mx (w : Wave) (b c : Bool) (l : Latch) : (w.setLatch b c l).mx = w.mx := by unfold Wave.setLatch; (repeat' split) <;> rfl
@[simp] theorem Wave.setLatch_frags (w : Wave) (b c : Bool) (l : Latch) : (w.setLatch b c l).frags = w.frags := by unfold Wave.setLatch; (repeat' split) <;> rfl
@[simp] theorem Wave.setLatch_born (w : Wave) (b c : Bool) (l : Latch) : (w.setLatch b c l).born = w.born := by unfold Wave.setLatch; (repeat' split) <;> rfl

/-! ### What the changed part reads -/

theorem State.wave_modWave (s : State) (i n : Nat) (f : Wave → Wave) (h : (Tab.get? s.waves i).isSome = true) :
    (s.modWave i f).wave n = if i = n then f (s.wave n) else s.wave n := by
  unfold State.wave State.modWave
  by_cases e : i = n
  · subst e; rw [Tab.getD_mod _ _ _ _ _ h]
  · rw [if_neg e, Tab.getD_mod_ne _ _ _ e]
theorem State.wave_modWave_ne (s : State) {i n : Nat} (f : Wave → Wave) (h : i ≠ n) : (s.modWave i f).wave n = s.wave n :=
  Tab.getD_mod_ne _ _ _ h
theorem State.team_modTeam (s : State) (i n : Nat) (f : Team → Team) (h : (Tab.get? s.teams i).isSome = true) :
    (s.modTeam i f).team n = if i = n then f (s.team n) else s.team n := by
  unfold State.team State.modTeam
  by_cases e : i = n
  · subst e; rw [Tab.getD_mod _ _ _ _ _ h]
  · rw [if_neg e, Tab.getD_mod_ne _ _ _ e]
theorem State.team_modTeam_ne (s : State) {i n : Nat} (f : Team → Team) (h : i ≠ n) : (s.modTeam i f).team n = s.team n :=
  Tab.getD_mod_ne _ _ _ h
@[simp] theorem State.wave_modTeam (s : State) (i n : Nat) (f : Team → Team) : (s.modTeam i f).wave n = s.wave n := rfl
@[simp] theorem State.team_modWave (s : State) (i n : Nat) (f : Wave → Wave) : (s.modWave i f).team n = s.team n := rfl
theorem State.part_modPart (s : State) (i n : Nat) (f : Part → Part) : (s.modPart i f).part n = if i = n then f (s.part n) else s.part n := by
  unfold State.part State.modPart
  rw [Tab.getD_set]
  split <;> rename_i e
  · subst e; rfl
  · rfl
/-- The keys of the wave table stay. -/
theorem State.modWave_keys (s : State) (i : Nat) (f : Wave → Wave) : (s.modWave i f).waves.map Prod.fst = s.waves.map Prod.fst :=
  Tab.keys_mod _ _ _

theorem Wave.vreg_setV (w : Wave) (n m : Nat) (r : VReg) : (w.setV n r).vreg m = if n = m then r else w.vreg m := Tab.getD_set _ _ _ _ _
@[simp] theorem Wave.vreg_setV_self (w : Wave) (n : Nat) (r : VReg) : (w.setV n r).vreg n = r := Tab.getD_set_self _ _ _ _
@[simp] theorem Wave.vreg_setSlot (w : Wave) (n m : Nat) (x : Slot) : (w.setSlot n x).vreg m = w.vreg m := rfl
@[simp] theorem Wave.vreg_modFrag (w : Wave) (n m : Nat) (g : Frag → Frag) : (w.modFrag n g).vreg m = w.vreg m := rfl
theorem Wave.slotAt_setSlot (w : Wave) (n m : Nat) (x : Slot) : (w.setSlot n x).slotAt m = if n = m then x else w.slotAt m := Tab.getD_set _ _ _ _ _
@[simp] theorem Wave.slotAt_setV (w : Wave) (n m : Nat) (x : VReg) : (w.setV n x).slotAt m = w.slotAt m := rfl
@[simp] theorem Wave.sreg_setV (w : Wave) (n m : Nat) (x : VReg) (b : Bool) : (w.setV n x).sreg b m = w.sreg b m := rfl
@[simp] theorem Wave.pred_setV (w : Wave) (n m : Nat) (x : VReg) (b : Bool) : (w.setV n x).pred b m = w.pred b m := rfl
@[simp] theorem Wave.latch_setV (w : Wave) (n : Nat) (x : VReg) (b c : Bool) : (w.setV n x).latch b c = w.latch b c := rfl
@[simp] theorem Wave.vreg_setS (w : Wave) (b : Bool) (n m : Nat) (x : SReg) : (w.setS b n x).vreg m = w.vreg m := by simp [Wave.vreg]
@[simp] theorem Wave.vreg_setP (w : Wave) (b : Bool) (n m : Nat) (x y : Mask) : (w.setP b n x y).vreg m = w.vreg m := by simp [Wave.vreg]
@[simp] theorem Wave.vreg_setLatch (w : Wave) (b c : Bool) (m : Nat) (x : Latch) : (w.setLatch b c x).vreg m = w.vreg m := by simp [Wave.vreg]
@[simp] theorem Wave.sreg_setS_self (w : Wave) (b : Bool) (n : Nat) (x : SReg) : (w.setS b n x).sreg b n = x := by
  unfold Wave.setS Wave.sreg
  split <;> simp
@[simp] theorem Wave.latch_setLatch_self (w : Wave) (b c : Bool) (l : Latch) : (w.setLatch b c l).latch b c = l := by
  cases b <;> cases c <;> rfl

/-! ### Lanes and masks -/

theorem laneAt_mkLanes (f : Nat → Word) {l : Nat} (h : l < 64) : laneAt (mkLanes f) l = f l := by simp [laneAt, mkLanes, h]
theorem laneAt_mergeLanes (m : Mask) (x y : Lanes) {l : Nat} (h : l < 64) :
    laneAt (mergeLanes m x y) l = if m.getLsbD l then laneAt x l else laneAt y l := laneAt_mkLanes _ h
theorem mem_lanesOf (m : Mask) (l : Nat) : l ∈ lanesOf m ↔ m.getLsbD l = true := by
  simp only [lanesOf, List.mem_filter, List.mem_range, and_iff_right_iff_imp]
  intro h
  by_contra q
  simp [BitVec.getLsbD_of_ge m l (by omega)] at h
theorem lanesOf_eq_nil (m : Mask) : lanesOf m = [] ↔ m = 0 := by
  constructor
  · intro h
    apply BitVec.eq_of_getLsbD_eq
    intro i hi
    by_contra q
    have : i ∈ lanesOf m := (mem_lanesOf m i).mpr (by simpa using q)
    simp [h] at this
  · intro h; subst h; decide

end Sys2Proof.Machine
end

