-- ==== Sys2Proof/Laws/Ops.lean ====
section
/-! SUPPORT. What each shared operation can do, said once: the issue of an instruction, its end, taking an exception, region entries, the
writes of registers, and a wave's writes through the state. -/

namespace Sys2Proof.Machine

/-! ### Issuing -/

/-- The fragment past an instruction that has been issued. -/
def Frag.passed (s : State) (f : Frag) : Frag := { f with pc := nextPc f.pc s.cur.step, refetch := false, capt := none }

/-- What `issue` answers: it always goes on, and in one of seven ways. -/
theorem issue_cases {u : Uses} {h : Hdr} {body : Iss → State → Body} {s t : State} (hx : issue u h body s = .next t) :
    let i0 := s.iss h
    let pre := preCheck s u i0 h.gp.toNat
    let pop : Lanes × State := if i0.part = 0 then ([], s) else s.popQueue i0.w u
    let i : Iss := { i0 with q := pop.1 }
    (t = { s with stalled := true } ∧ (pre = .stall ∨ (pre = .go ∧ body i s = .stall))) ∨
    (pre = .refetch ∧ t = s.modFrag s.curRef fun f => { f with refetch := true, wake := s.clockIn 4 }) ∨
    (∃ x, pre = .wait x ∧ t = s.modFrag s.curRef fun f => { f with st := .waiting, wait := x, since := s.clock, capt := some i0.captured }) ∨
    (∃ c, pre = .trap c ∧ t = (if c = 10 then s else s.issued i0 u).trap c i0.part {}) ∨
    (pre = .go ∧ u.whole = true ∧ i0.part = 0 ∧ t = ((s.issued i0 u).modFrag s.curRef (Frag.passed s)).finish s.curRef i0 u) ∨
    (∃ c info, pre = .go ∧ body i s = .trap c info ∧ t = (s.issued i u).trap c i.part info) ∨
    ∃ eff, pre = .go ∧ ¬(u.whole = true ∧ i0.part = 0) ∧ body i s = .go eff ∧
      t = (eff ((pop.2.issued i u).modWave s.curRef.wave fun w => (w.afterReads i u).modFrag s.curRef.entry (Frag.passed s))).finish s.curRef i u := by
  simp only [issue] at hx
  split at hx <;> rename_i hp
  · exact .inl ⟨(Host.Outcome.next.inj hx).symm, .inl hp⟩
  · exact .inr (.inl ⟨hp, (Host.Outcome.next.inj hx).symm⟩)
  · exact .inr (.inr (.inl ⟨_, hp, (Host.Outcome.next.inj hx).symm⟩))
  · exact .inr (.inr (.inr (.inl ⟨_, hp, (Host.Outcome.next.inj hx).symm⟩)))
  · split at hx
    · rename_i hw
      simp only [Bool.and_eq_true, decide_eq_true_eq] at hw
      exact .inr (.inr (.inr (.inr (.inl ⟨hp, hw.1, hw.2, (Host.Outcome.next.inj hx).symm⟩))))
    · rename_i hw
      simp only [Bool.and_eq_true, decide_eq_true_eq] at hw
      split at hx <;> rename_i hb
      · exact .inl ⟨(Host.Outcome.next.inj hx).symm, .inr ⟨hp, hb⟩⟩
      · exact .inr (.inr (.inr (.inr (.inr (.inl ⟨_, _, hp, hb, (Host.Outcome.next.inj hx).symm⟩)))))
      · exact .inr (.inr (.inr (.inr (.inr (.inr ⟨_, hp, hw, hb, (Host.Outcome.next.inj hx).symm⟩)))))

/-- An instruction's issue always answers a next state. -/
theorem issue_next (u : Uses) (h : Hdr) (body : Iss → State → Body) (s : State) : ∃ t, issue u h body s = .next t := by
  simp only [issue]
  split
  all_goals first | exact ⟨_, rfl⟩ | skip
  split
  · exact ⟨_, rfl⟩
  · split <;> exact ⟨_, rfl⟩

/-- An instruction that nothing holds back, with an effect: it happens on the state whose reads are done, and the instruction ends. -/
theorem issue_go {u : Uses} {h : Hdr} {body : Iss → State → Body} {s : State} {eff : State → State}
    (hp : preCheck s u (s.iss h) h.gp.toNat = .go) (hw : u.whole = false) :
    let i0 := s.iss h
    let pop : Lanes × State := if i0.part = 0 then ([], s) else s.popQueue i0.w u
    let i : Iss := { i0 with q := pop.1 }
    body i s = .go eff →
    issue u h body s = .next ((eff ((pop.2.issued i u).modWave s.curRef.wave fun w =>
      (w.afterReads i u).modFrag s.curRef.entry (Frag.passed s))).finish s.curRef i u) := by
  intro i0 pop i hb
  simp only [issue, hp, hw, Bool.false_and, Bool.false_eq_true, if_false]
  simp only [i0, pop, i] at hb ⊢
  rw [hb]
  rfl

/-- An instruction with captured operands sees its fragment and its participation as they were (R35); one without sees the wave. -/
theorem iss_captured {s : State} (h : Hdr) {c : Captured} (hc : ((s.wave s.cur.wave).frag s.cur.entry).capt = some c) :
    (s.iss h).part = c.part ∧ (s.iss h).w.v = c.v ∧ (s.iss h).f = (s.wave s.cur.wave).frag s.cur.entry := by
  simp [State.iss, hc, Wave.under]
theorem iss_fresh {s : State} (h : Hdr) (hc : ((s.wave s.cur.wave).frag s.cur.entry).capt = none) :
    s.iss h = { w := s.wave s.cur.wave, f := (s.wave s.cur.wave).frag s.cur.entry, hm := (s.wave s.cur.wave).inHandler s.cur.entry
                part := partOf (s.wave s.cur.wave) ((s.wave s.cur.wave).inHandler s.cur.entry) ((s.wave s.cur.wave).frag s.cur.entry) h, q := [] } := by
  simp [State.iss, hc]

/-- Within the address space the next PC follows the instruction (R52). -/
theorem nextPc_of_lt {pc n : Nat} (h : pc + n < 2 ^ 57) : nextPc pc n = pc + n := if_pos h
/-- Past its end the completed instruction's PC is kept. -/
theorem nextPc_of_ge {pc n : Nat} (h : 2 ^ 57 ≤ pc + n) : nextPc pc n = 2 ^ 57 + pc := if_neg (by omega)

/-- The end of an instruction makes one region entry or none, and none in handler mode. It is the fragment's that issued it, or after a merge of the
one that holds its lanes. -/
theorem finish_cases (s : State) (r : FragRef) (i : Iss) (u : Uses) :
    s.finish r i u = s ∨ (s.finish r i u = s.regionEntry ⟨r.wave, (s.wave r.wave).heirOf r.entry i.f.mask⟩ ∧ i.hm = false) := by
  generalize hr : (⟨r.wave, (s.wave r.wave).heirOf r.entry i.f.mask⟩ : FragRef) = r'
  have key (c : Bool) (hc : c = true → i.hm = false) :
      (if c then s.regionEntry r' else s) = s ∨ ((if c then s.regionEntry r' else s) = s.regionEntry r' ∧ i.hm = false) := by
    cases c
    · exact .inl rfl
    · exact .inr ⟨rfl, hc rfl⟩
  subst hr
  exact key _ fun h => by
    simp only [Bool.and_eq_true, Bool.not_eq_true'] at h
    exact h.1.2
/-- A fragment that still stands is the one that its instruction's completion concerns. -/
theorem Wave.heirOf_self {w : Wave} {e : Nat} (m : Mask) (h : ∃ f ∈ w.frags, f.entry = e) : w.heirOf e m = e := by
  obtain ⟨f, hf, he⟩ := h
  have : (w.frags.any fun f => f.entry == e) = true := List.any_eq_true.mpr ⟨f, hf, by simpa using he⟩
  simp [Wave.heirOf, this]

/-- The quarter's issue count, its conflict clocks and its busy time are all that the count of an issue changes. -/
theorem issued_rest (s : State) (i : Iss) (u : Uses) :
    s.issued i u = { s with cnt := (s.issued i u).cnt, busy := (s.issued i u).busy } := rfl
@[simp] theorem issued_waves (s : State) (i : Iss) (u : Uses) : (s.issued i u).waves = s.waves := rfl
@[simp] theorem issued_wave (s : State) (i : Iss) (u : Uses) (n : Nat) : (s.issued i u).wave n = s.wave n := rfl
@[simp] theorem issued_team (s : State) (i : Iss) (u : Uses) (n : Nat) : (s.issued i u).team n = s.team n := rfl
@[simp] theorem issued_mem (s : State) (i : Iss) (u : Uses) : (s.issued i u).mem = s.mem := rfl

/-- A queue entry leaves its team's queue and nothing else changes. -/
theorem popQueue_cases (s : State) (w : Wave) (u : Uses) :
    ((s.popQueue w u).2 = s ∧ (s.popQueue w u).1 = []) ∨
    ∃ q e r, (s.team w.team).queue q = e :: r ∧ (s.popQueue w u).1 = w.entryLanes e ∧
      (s.popQueue w u).2 = s.modTeam w.team fun t => { t with q := Tab.set t.q q r } := by
  simp only [State.popQueue]
  split
  · rename_i q _
    cases he : (s.team w.team).queue q with
    | nil => exact .inl ⟨rfl, rfl⟩
    | cons e r => exact .inr ⟨q, e, r, he, rfl, rfl⟩
  · exact .inl ⟨rfl, rfl⟩

/-! ### Exceptions -/

/-- What raising a cause does: the kill of code 63 in handler mode, the pending state beside another fragment's handler, the handler, or the
kill of an unhandled cause. -/
theorem raise_cases (s : State) (r : FragRef) (t : Trap) :
    (∃ h, (s.wave r.wave).h = some h ∧ h.entry = r.entry ∧ s.raise r t = s.killTeam (s.wave r.wave).team 63 t.cause) ∨
    (∃ h, (s.wave r.wave).h = some h ∧ h.entry ≠ r.entry ∧ s.raise r t = s.modFrag r fun f => { f with st := .pending t }) ∨
    (∃ pc, (s.wave r.wave).h = none ∧ s.raise r t = s.enterHandler r t pc ∧ pc % 8 = 0) ∨
    ((s.wave r.wave).h = none ∧ s.raise r t = s.killTeam (s.wave r.wave).team t.cause 0) := by
  simp only [State.raise]
  split
  · rename_i h hh
    split <;> rename_i he
    · exact .inl ⟨h, hh, he, rfl⟩
    · exact .inr (.inl ⟨h, hh, he, rfl⟩)
  · rename_i hh
    split
    · exact .inr (.inr (.inl ⟨_, hh, rfl, by omega⟩))
    · exact .inr (.inr (.inr ⟨hh, rfl⟩))

/-- Entering a handler changes its wave only. -/
theorem enterHandler_waves (s : State) (r : FragRef) (t : Trap) (pc : Nat) :
    s.enterHandler r t pc = { s with waves := (s.enterHandler r t pc).waves } := rfl
theorem enterHandler_wave_ne (s : State) {r : FragRef} (t : Trap) (pc : Nat) {n : Nat} (h : r.wave ≠ n) :
    (s.enterHandler r t pc).wave n = s.wave n := State.wave_modWave_ne _ _ h
@[simp] theorem enterHandler_mem (s : State) (r : FragRef) (t : Trap) (pc : Nat) : (s.enterHandler r t pc).mem = s.mem := rfl
@[simp] theorem enterHandler_team (s : State) (r : FragRef) (t : Trap) (pc n : Nat) : (s.enterHandler r t pc).team n = s.team n := rfl

/-! ### Fragments and region entries -/

@[simp] theorem Wave.frag_setV (w : Wave) (n e : Nat) (x : VReg) : (w.setV n x).frag e = w.frag e := rfl
@[simp] theorem Wave.frag_setSlot (w : Wave) (n e : Nat) (x : Slot) : (w.setSlot n x).frag e = w.frag e := rfl
@[simp] theorem Wave.frag_setS (w : Wave) (b : Bool) (n e : Nat) (x : SReg) : (w.setS b n x).frag e = w.frag e := by simp [Wave.frag]
@[simp] theorem Wave.frag_setLatch (w : Wave) (b c : Bool) (e : Nat) (x : Latch) : (w.setLatch b c x).frag e = w.frag e := by simp [Wave.frag]

/-- A fragment after a change of one that keeps its entry. -/
theorem Wave.frag_modFrag_ne (w : Wave) {e n : Nat} (g : Frag → Frag) (hg : ∀ f, (g f).entry = f.entry) (h : e ≠ n) :
    (w.modFrag e g).frag n = w.frag n := by
  simp only [Wave.frag, Wave.modFrag]
  congr 1
  induction w.frags with
  | nil => rfl
  | cons f l ih =>
    simp only [List.map_cons, List.find?_cons]
    by_cases he : f.entry = e
    · have hn : (e == n) = false := by simpa using h
      simp [he, hg, hn, ih]
    · simp only [he, if_false, ih]

theorem Wave.frag_modFrag_self (w : Wave) {e : Nat} (g : Frag → Frag) (hg : ∀ f, (g f).entry = f.entry) (h : ∃ f ∈ w.frags, f.entry = e) :
    (w.modFrag e g).frag e = g (w.frag e) := by
  obtain ⟨x, hm, hx⟩ := h
  simp only [Wave.frag, Wave.modFrag]
  revert hm
  induction w.frags with
  | nil => intro hm; cases hm
  | cons f l ih =>
    intro hm
    simp only [List.map_cons, List.find?_cons]
    by_cases he : f.entry = e
    · simp [he, hg]
    · have hn : (f.entry == e) = false := by simpa using he
      simp only [he, if_false, hn]
      rcases List.mem_cons.mp hm with q | q
      · subst q; exact absurd hx he
      · exact ih q

/-- A region entry changes its wave only, and none is made in handler mode. -/
theorem regionEntry_waves (s : State) (r : FragRef) : s.regionEntry r = { s with waves := (s.regionEntry r).waves } := rfl
theorem Wave.regionEntry_handler (w : Wave) (e : Nat) (h : w.inHandler e = true) : w.regionEntry e = w := by
  simp [Wave.regionEntry, h]
/-- With more than one live fragment the kills and written bits stand (R34). -/
theorem Wave.regionEntry_split (w : Wave) (e : Nat) (h : w.inHandler e = false) (hf : 1 < w.frags.length) :
    (w.regionEntry e).v = w.v ∧ (w.regionEntry e).s = w.s ∧ (w.regionEntry e).wpc = w.wpc + 1 := by
  have : ¬ w.frags.length ≤ 1 := by omega
  simp [Wave.regionEntry, h, Wave.modFrag, Wave.dropLatches, this]

/-! ### Writes of vector registers -/

@[simp] theorem Wave.shadowed_of_none {w : Wave} (h : w.prop = none) (n : Nat) : w.shadowed n = 0 := by simp [Wave.shadowed, h]

/-- A vector's lane with no proposal open: 0 where dead, else its value. -/
theorem Wave.vlane_of_none {w : Wave} (h : w.prop = none) (n l : Nat) :
    w.vlane n l = if (w.vreg n).dead.getLsbD l then 0 else laneAt (w.vreg n).val l := by simp [Wave.vlane, h]

theorem Wave.putV_of_none {w : Wave} (h : w.prop = none) (n : Nat) (m : Mask) (x : Lanes) :
    w.putV n m x = w.setV n { w.vreg n with val := mergeLanes m x (w.vreg n).val, dead := (w.vreg n).dead &&& ~~~m
                                            kill := (w.vreg n).kill &&& ~~~m } := by simp [Wave.putV, h]

/-- Reading a lane after a write: the lanes of the mask have the new value, all other lanes and registers their old. -/
theorem Wave.vlane_putV {w : Wave} (hp : w.prop = none) (n k : Nat) (m : Mask) (x : Lanes) {l : Nat} (hl : l < 64) :
    (w.putV n m x).vlane k l = if n = k ∧ m.getLsbD l = true then laneAt x l else w.vlane k l := by
  have hq : (w.putV n m x).prop = none := by rw [Wave.putV_of_none hp]; exact hp
  rw [Wave.vlane_of_none hq, Wave.vlane_of_none hp, Wave.putV_of_none hp, Wave.vreg_setV]
  by_cases hn : n = k
  · subst hn
    simp only [if_true, true_and, laneAt_mergeLanes _ _ _ hl]
    by_cases hm : m.getLsbD l <;> simp_all
  · simp [hn]

theorem Wave.vlane_dirtySlots (w : Wave) (n : Nat) (keep : Option Nat) (k l : Nat) : (w.dirtySlots n keep).vlane k l = w.vlane k l := rfl
theorem Wave.vlane_setSlot (w : Wave) (j : Nat) (x : Slot) (k l : Nat) : (w.setSlot j x).vlane k l = w.vlane k l := rfl
theorem Wave.vlane_writeSlot (w : Wave) (j : Nat) (st : SlotSt) (m : Mask) (x : Lanes) (k l : Nat) :
    (w.writeSlot j st m x).vlane k l = w.vlane k l := rfl
theorem Wave.vlane_writeLatch (w : Wave) (hm b : Bool) (m : Mask) (x : Lanes) (k l : Nat) :
    (w.writeLatch hm b m x).vlane k l = w.vlane k l := by simp [Wave.writeLatch, Wave.vlane]
/-- Filling a register changes no lane. -/
theorem Wave.vlane_fillV (w : Wave) (n : Nat) (b : Bool) (k l : Nat) : (w.fillV n b).vlane k l = w.vlane k l := by
  have hd : ((w.fillV n b).vreg k).dead = (w.vreg k).dead ∧ ((w.fillV n b).vreg k).val = (w.vreg k).val := by
    simp only [Wave.fillV, Wave.vreg_setV]
    split <;> simp_all
  have hp : (w.fillV n b).prop = w.prop := rfl
  simp [Wave.vlane, hd.1, hd.2, hp]

/-- A mirror changes no lane of a register. -/
theorem Wave.vlane_mirrorV (w : Wave) (hm : Bool) (n : Nat) (mir : Mirror) (m : Mask) (x : Lanes) (k l : Nat) :
    (w.mirrorV hm n mir m x).vlane k l = w.vlane k l := by
  cases mir <;> simp [Wave.mirrorV, Wave.vlane_dirtySlots, Wave.vlane_writeSlot, Wave.vlane_writeLatch]

/-- A fixed-latency write, through its mirror: the lanes of the mask have the new value, all others their old. -/
theorem Wave.vlane_writeV {w : Wave} (hp : w.prop = none) (hm : Bool) (n k : Nat) (mir : Mirror) (m : Mask) (x : Lanes) {l : Nat} (hl : l < 64) :
    (w.writeV hm n mir m x).vlane k l = if n = k ∧ m.getLsbD l = true then laneAt x l else w.vlane k l := by
  rw [← Wave.vlane_putV hp n k m x hl, ← Wave.vlane_fillV (w.putV n m x) n true k l]
  exact Wave.vlane_mirrorV _ _ _ _ _ _ _ _

/-! ### Writes of scalars, predicates, latches and slots -/

@[simp] theorem Wave.sval_writeS (w : Wave) (hm : Bool) (n : Nat) (x : DWord) : (w.writeS hm n x).sval hm n = x := by
  simp [Wave.writeS, Wave.sval]

/-- A predicate after a write: the lanes of the mask have the new value, and `p15` reads 1 (R78). -/
theorem Wave.pred_setP (w : Wave) (hm : Bool) (n : Nat) (m v : Mask) :
    (w.setP hm n m v).pred hm n = if n = 15 then full else (w.pred hm n &&& ~~~m) ||| (v &&& m) := by
  by_cases h : n = 15
  · simp [Wave.pred, h]
  · by_cases q : (hm && n == 14) = true
    · simp [Wave.setP, Wave.pred, h, q]
    · simp [Wave.setP, Wave.pred, h, q]

/-- Another predicate stands. -/
theorem Wave.pred_setP_ne (w : Wave) (hm : Bool) {n k : Nat} (m v : Mask) (h : n ≠ k) : (w.setP hm n m v).pred hm k = w.pred hm k := by
  by_cases h15 : n = 15
  · simp [Wave.setP, h15]
  · by_cases q : (hm && n == 14) = true
    · have hn : n = 14 := by simp at q; exact q.2
      have hk : k ≠ 14 := by omega
      simp [Wave.setP, Wave.pred, h15, q, hk]
    · simp only [Wave.setP, h15, q, if_false, Wave.pred, Bool.false_eq_true]
      rw [Tab.getD_set]
      simp [h]

theorem Wave.latch_writeLatch (w : Wave) (hm b : Bool) (m : Mask) (x : Lanes) :
    (w.writeLatch hm b m x).latch hm b = { val := mergeLanes m x (w.latch hm b).val, valid := (w.latch hm b).valid ||| m } := by
  simp [Wave.writeLatch]

@[simp] theorem Wave.slotAt_writeSlot (w : Wave) (k : Nat) (st : SlotSt) (m : Mask) (x : Lanes) :
    (w.writeSlot k st m x).slotAt k = { st := st, val := mergeLanes m x [], valid := m } := by
  simp [Wave.writeSlot, Wave.slotAt_setSlot]

/-! ### Destinations -/

/-- A result in a destination: only the issuing wave, or its team's queue, changes. -/
theorem putDst_cases (s : State) (i : Iss) (d : Dst) (x : Nat → Word) :
    s.putDst i d x = s ∨ (∃ f, s.putDst i d x = s.modWave i.w.id f) ∨ ∃ f, s.putDst i d x = s.modTeam i.w.team f := by
  unfold State.putDst
  split
  · exact .inl rfl
  · cases d with
    | q k =>
      simp only [State.pushQueue]
      split
      · exact .inl rfl
      · exact .inr (.inr ⟨_, rfl⟩)
    | _ => exact .inr (.inl ⟨_, rfl⟩)

/-- It leaves the memory, other waves and all else alone. -/
theorem putDst_rest (s : State) (i : Iss) (d : Dst) (x : Nat → Word) :
    s.putDst i d x = { s with waves := (s.putDst i d x).waves, teams := (s.putDst i d x).teams } := by
  rcases putDst_cases s i d x with h | ⟨f, h⟩ | ⟨f, h⟩ <;> rw [h] <;> rfl
theorem putDst_wave_ne (s : State) (i : Iss) (d : Dst) (x : Nat → Word) {n : Nat} (hn : i.w.id ≠ n) :
    (s.putDst i d x).wave n = s.wave n := by
  rcases putDst_cases s i d x with h | ⟨f, h⟩ | ⟨f, h⟩ <;> rw [h]
  · exact State.wave_modWave_ne _ _ hn
  · rfl
@[simp] theorem putDst_mem (s : State) (i : Iss) (d : Dst) (x : Nat → Word) : (s.putDst i d x).mem = s.mem := by rw [putDst_rest]

theorem putP_waves (s : State) (i : Iss) (p : BitVec 4) (f : Nat → Bool) :
    s.putP i p f = { s with waves := (s.putP i p f).waves } := rfl
theorem putP_wave_ne (s : State) (i : Iss) (p : BitVec 4) (f : Nat → Bool) {n : Nat} (h : i.w.id ≠ n) :
    (s.putP i p f).wave n = s.wave n := State.wave_modWave_ne _ _ h

/-! ### Operations -/

/-- The operation of an identifier after a change of another. -/
theorem op?_modOp_ne (s : State) {i n : Nat} (f : Op → Op) (hf : ∀ o, (f o).id = o.id) (h : i ≠ n) : (s.modOp i f).op? n = s.op? n := by
  simp only [State.op?, State.modOp]
  induction s.ops with
  | nil => rfl
  | cons o l ih =>
    simp only [List.map_cons, List.find?_cons]
    by_cases he : o.id = i
    · have hn : (i == n) = false := by simpa using h
      simp [he, hf, hn, ih]
    · simp only [he, if_false, ih]

theorem op?_dropOp (s : State) (i : Nat) : (s.dropOp i).op? i = none := by
  simp only [State.op?, State.dropOp, List.find?_eq_none, List.mem_filter]
  intro o ho
  simpa using ho.2

/-- An operation starts with its release, or with its translation. -/
theorem startOp_cases (s : State) (o : Op) (rel : Bool) :
    (rel = true ∧ (s.startOp o rel).ops = s.ops ++ [{ o with phase := .release }] ∧ (s.startOp o rel).mem = s.mem) ∨
    (rel = false ∧ s.startOp o rel = ({ s with ops := s.ops ++ [o] } : State).proceed o.id) := by
  cases rel
  · exact .inr ⟨rfl, rfl⟩
  · exact .inl ⟨rfl, rfl, rfl⟩

end Sys2Proof.Machine
end

