-- ==== Sys2Proof/Machine/Capability.lean ====
section
/-! DEFINITION. The device's capabilities in its configuration space (R381, R411), which nothing changes and no instruction reads. Where the entries
lie is not fixed (log entry 14). -/

namespace Sys2Proof.Machine

/-! ### The capability list (R381) -/

/-- An entry of the capability list: its id and its two payload words; every entry is at version 1. -/
structure CapEntry where
  id : Nat
  w1 : BitVec 32
  w2 : BitVec 32
  deriving DecidableEq, Repr

/-- The entries of the VX4160: features, atomicity, placement, proposal bank, topology. -/
def capEntries : List CapEntry :=
  [ { id := 1, w1 := 3 * 256 + 2 + 7 * 65536 + 3 * 524288, w2 := 0 }
  , { id := 2, w1 := 64 + 32 * 256 + 16 * 65536 + 8 * 16777216, w2 := 0 }
  , { id := 3, w1 := 256 + 16384 * 65536, w2 := 4 + 8 * 16 }
  , { id := 4, w1 := 32 + 256 + 65536, w2 := 0 }
  , { id := 5, w1 := 4 + 20 * 256 + 160 * 65536 + 48 * 16777216, w2 := 64 + 64 * 65536 } ]

/-- The entries follow in 12 bytes each the 16 bytes of the vendor-specific capability, which is the sixth place. -/
def capLen (i : Nat) : Nat := if i = 5 then 16 else 12

/-- Whether places of the entries are as R381 says: multiples of 4 in extended configuration space, apart from one another, and none before the
capability that they lie in. -/
def placesOk (f : Nat → Nat) : Bool :=
  (List.range 6).all fun i => decide (f i % 4 = 0) && decide (256 ≤ f 5) && decide (f 5 ≤ f i) && decide (f i + capLen i ≤ 4096) &&
    (List.range 6).all fun j => i == j || decide (f i + capLen i ≤ f j) || decide (f j + capLen j ≤ f i)

/-- Where the entries lie, any places that R381 allows; 5 is the vendor-specific capability. -/
def capPlace : Nat → Nat := if placesOk Config.capAt then Config.capAt else fun i => if i = 5 then 256 else 272 + 12 * i

/-- The header word of an entry: the offset of the next one, the version, the id. -/
def capHeader (next id : Nat) : BitVec 32 := BitVec.ofNat 32 (next * 2 ^ 20 + 2 ^ 16 + id)

/-- The words of a list of entries, the first of them the `i`-th, by offset in extended configuration space. -/
def capWords (loc : Nat → Nat) : Nat → List CapEntry → Tab (BitVec 32)
  | _, [] => []
  | i, e :: r => [(loc i, capHeader (if r.isEmpty then 0 else loc (i + 1)) e.id), (loc i + 4, e.w1), (loc i + 8, e.w2)] ++ capWords loc (i + 1) r

/-- The bytes from the vendor-specific capability to the end of the last entry. -/
def dvsecLen (loc : Nat → Nat) : Nat := ((List.range 5).map fun i => loc i + 12).foldl max 0 - loc 5

/-- The words of the vendor-specific capability: its extended capability header, its two DVSEC headers with Henem's vendor ID, the length and the
DVSEC ID `0x0001`, and the offset of the first entry. -/
def dvsecWords (loc : Nat → Nat) : Tab (BitVec 32) :=
  [ (loc 5, Config.capNext ++ (1#4 ++ 0x0023#16)), (loc 5 + 4, BitVec.ofNat 12 (dvsecLen loc) ++ (0#4 ++ Config.vendor)), (loc 5 + 8, 1)
  , (loc 5 + 12, BitVec.ofNat 32 (loc 0)) ]

/-- What the host reads at an offset of the capability list. -/
def configRead (off : Nat) : Option (BitVec 32) := Tab.get? (dvsecWords capPlace ++ capWords capPlace 0 capEntries) off

/-- The walk of the list from an offset: the ids it meets. -/
def capWalk (words : Nat → Option (BitVec 32)) : Nat → Nat → List Nat
  | 0, _ => []
  | n + 1, off =>
    if off = 0 then []
    else match words off with
      | none => []
      | some h => h.toNat % 65536 :: capWalk words n (h.toNat / 2 ^ 20)

/-! ### Standard features (R411) -/

/-- What the PASID, ATS and PRI capability structures report. -/
structure Features where
  pasidBits      : Nat
  execute        : Bool
  privileged     : Bool
  invalidateDepth : Nat
  pageAligned    : Bool
  pageRequests   : Nat
  prgPasid       : Bool
  deriving DecidableEq, Repr

/-- The features of the VX4160. -/
def features : Features :=
  { pasidBits := 20, execute := false, privileged := false, invalidateDepth := Config.invalidateDepth, pageAligned := true
    pageRequests := Config.pageRequests, prgPasid := true }

end Sys2Proof.Machine
end

