-- ==== Sys2Proof/Tests/Slice0.lean ====
section
/-! SUPPORT. Tests: words of every instruction laid out by the manual's tables, ill-formed terms, one step at a time on small states with results
from the manual, and for each statement a state that meets its hypotheses. -/

namespace Sys2Proof.Tests

open Sys2Proof Sys2Proof.Machine

set_option Elab.async false

/-! ### Small states -/

def h64 : Hdr := { form := .f64, gneg := false, gp := 15 }
def h96 : Hdr := { form := .f96, gneg := false, gp := 15 }
def h128 : Hdr := { form := .f128, gneg := false, gp := 15 }
/-- Guarded by `p15` negated: no lane takes part. -/
def hNone : Hdr := { form := .f64, gneg := true, gp := 15 }

/-- One wave of wave 0 at PC `0x10000`, in team 0 of context 0. -/
def base : State := State.reset.withWave false
/-- Its running fragment issues an instruction of 8 bytes. -/
def issue0 (s : State) : State := s.issuing (s.wave 0) ((s.wave 0).frag 0) (.word 0xF004)
/-- The wave changed by `f`, its fragment issuing. -/
def stW (f : Wave → Wave) : State := issue0 (base.modWave 0 f)
/-- A vector register with these lanes, live. -/
def setVec (n : Nat) (x : Nat → Word) (w : Wave) : Wave := w.setV n { val := mkLanes x, dead := 0 }
def setSc (n : Nat) (x : DWord) (w : Wave) : Wave := w.setS false n { val := x, dead := false }
def setQuad (n : Nat) (a b c d : DWord) (w : Wave) : Wave := setSc n a (setSc (n + 1) b (setSc (n + 2) c (setSc (n + 3) d w)))

def nextOf : Host.Outcome State Fault Refusal → State
  | .next t => t
  | _ => { State.reset with stalled := true }
/-- The state after an instruction. -/
def run (i : Instr) (s : State) : State := nextOf (exec i s)
def laneV (t : State) (n l : Nat) : Word := (t.wave 0).vlane n l
def scal (t : State) (n : Nat) : DWord := (t.wave 0).sval false n

/-! ### When an instruction goes on, decided -/

def issuingB (s : State) : Bool :=
  (Tab.get? s.waves s.cur.wave).isSome && decide ((s.wave s.cur.wave).id = s.cur.wave) && (s.wave s.cur.wave).here
    && decide (∃ f ∈ (s.wave s.cur.wave).frags, f.entry = s.cur.entry)
    && decide (((s.wave s.cur.wave).frag s.cur.entry).st = .running) && decide (((s.wave s.cur.wave).frag s.cur.entry).wait = .none)
    && decide (((s.wave s.cur.wave).frag s.cur.entry).pc + s.cur.step < 2 ^ 57)

theorem issuing_of {s : State} (h : issuingB s = true) : Issuing s := by
  simp only [issuingB, Bool.and_eq_true, decide_eq_true_eq] at h
  obtain ⟨⟨⟨⟨⟨⟨a, b⟩, c⟩, d⟩, e⟩, f⟩, g⟩ := h
  exact ⟨⟨⟨a, b, c, d⟩, ⟨e, f⟩⟩, g⟩

def unbarredB (s : State) (u : Uses) (h : Hdr) : Bool :=
  let i := s.issOf h
  decide ((s.wave s.cur.wave).dm = .k3 → i.hm = false → ∀ n ∈ u.dv, n ∉ u.srcs.flatMap SU.vecs ∨ (i.w.vreg n).wir = true ∨
      ∃ p ∈ i.w.prop.toList, p.inWin n = true ∧ p.ebits (n - p.base) &&& i.part = 0)
    && decide (u.hold = false ∨ (i.part = 0 ∧ u.whole = true))
    && decide (u.first = none ∨ (i.part = 0 ∧ u.whole = true))
    && decide (∀ p ∈ h.gp.toNat :: u.ps, predKey i.hm p ∉ i.w.pBusy)
    && decide ((∀ n ∈ u.dv, (i.w.vreg n).st ≠ .empty) ∧ ∀ n ∈ u.ds, (i.w.sreg i.hm n).st ≠ .empty)
    && decide ((∀ t ∈ u.tr ++ u.tw, t ∉ i.w.tfill) ∧ ∀ t ∈ u.tw, s.stepReads i.w t = false)
    && decide (∀ n ∈ u.win, (i.w.vreg n).st ≠ .empty)
theorem unbarred_of {s : State} {u : Uses} {h : Hdr} (y : unbarredB s u h = true) : Unbarred s u h := by
  simp only [unbarredB, Bool.and_eq_true, decide_eq_true_eq] at y
  obtain ⟨⟨⟨⟨⟨⟨a, b⟩, c⟩, d⟩, e⟩, f⟩, k⟩ := y
  exact ⟨a, b, c, d, e, f, k⟩

def unlockedB (s : State) (u : Uses) (h : Hdr) : Bool :=
  let i := s.issOf h
  unbarredB s u h && decide (∀ x ∈ u.srcs, ∀ r ∈ SU.regs i.w i.part x, i.w.stateOf i.hm r ≠ .empty)
theorem unlocked_of {s : State} {u : Uses} {h : Hdr} (y : unlockedB s u h = true) : Unlocked s u h := by
  simp only [unlockedB, Bool.and_eq_true, decide_eq_true_eq] at y
  exact ⟨unbarred_of y.1, y.2⟩

def readableB (s : State) (u : Uses) (h : Hdr) : Bool :=
  let i := s.issOf h
  unlockedB s u h && decide (i.part ≠ 0 → ∀ q ∈ u.srcs.flatMap SU.queues, (s.team i.w.team).queue q ≠ [])
    && decide (i.part ≠ 0 → ∀ q ∈ u.push.toList, Tab.get? (s.team i.w.team).prod q = some i.w.role ∧ ((s.team i.w.team).queue q).length < 8)
theorem readable_of {s : State} {u : Uses} {h : Hdr} (y : readableB s u h = true) : Readable s u h := by
  simp only [readableB, Bool.and_eq_true, decide_eq_true_eq] at y
  exact ⟨unlocked_of y.1.1, y.1.2, y.2⟩

def unheldB (s : State) (u : Uses) (h : Hdr) : Bool :=
  let i := s.issOf h
  readableB s u h && decide (i.part ≠ 0 → i.f.refetch = true ∨ ∀ x ∈ u.srcs, i.w.refetches i.part x.x = false)
theorem unheld_of {s : State} {u : Uses} {h : Hdr} (y : unheldB s u h = true) : Unheld s u h := by
  simp only [unheldB, Bool.and_eq_true, decide_eq_true_eq] at y
  exact ⟨readable_of y.1, y.2⟩

def viewsB (s : State) (u : Uses) (h : Hdr) : Bool :=
  let i := s.issOf h
  decide (u.win ≠ [] → (∀ n ∈ u.win, (i.w.vreg n).st ≠ .poison) ∧ ∀ x ∈ u.srcs, ∀ r ∈ SU.regs i.w i.part x, i.w.stateOf i.hm r ≠ .poison)
theorem views_of {s : State} {u : Uses} {h : Hdr} (y : viewsB s u h = true) : ViewsClean s u h := by
  simp only [viewsB, decide_eq_true_eq] at y; exact y

def clearB (s : State) (u : Uses) (h : Hdr) : Bool :=
  let i := s.issOf h
  unheldB s u h && viewsB s u h
    && decide (i.part ≠ 0 → ∀ x ∈ u.srcs, (∀ r ∈ SU.regs i.w i.part x, i.w.stateOf i.hm r ≠ .poison) ∧
        (i.w.md.getLsbD 12 = true → i.w.srcDead i.hm i.part x = false))
    && decide (i.part ≠ 0 → ∀ x ∈ u.srcs, i.w.readsStale i.hm i.part x.x = false)
theorem clear_of {s : State} {u : Uses} {h : Hdr} (y : clearB s u h = true) : Clear s u h := by
  simp only [clearB, Bool.and_eq_true, decide_eq_true_eq] at y
  exact ⟨unheld_of y.1.1.1, views_of y.1.1.2, y.1.2, y.2⟩

/-- A well-formed instruction that goes on, and in which a lane takes part; nothing is captured. -/
def readyB (i : Instr) (s : State) (u : Uses) (h : Hdr) : Bool :=
  i.wf && issuingB s && decide (((s.wave s.cur.wave).frag s.cur.entry).capt = none) && clearB s u h && decide ((s.issQ u h).part ≠ 0)
theorem ready_of {i : Instr} {s : State} {u : Uses} {h : Hdr} (y : readyB i s u h = true) :
    i.wf = true ∧ Issuing s ∧ s.CaptureOk u ∧ Clear s u h ∧ (s.issQ u h).part ≠ 0 := by
  simp only [readyB, Bool.and_eq_true, decide_eq_true_eq] at y
  exact ⟨y.1.1.1.1, issuing_of y.1.1.1.2, .inl y.1.1.2, clear_of y.1.2, y.2⟩

theorem test_decode_nop : decode Env.max 0xF004 =
    .ok (.nop ⟨h64⟩) := by decide +kernel
theorem test_decode_bra : decode Env.max 0xFFFF8000000000000000F009 =
    .ok (.bra ⟨h96, -8⟩) := by decide +kernel
theorem test_decode_brx : decode Env.max 0xC000F00C =
    .ok (.brx ⟨h64, .v 6 false false⟩) := by decide +kernel
theorem test_decode_call : decode Env.max 0x10000000000000206F011 =
    .ok (.call ⟨h96, 3, 16⟩) := by decide +kernel
theorem test_decode_callx : decode Env.max 0x210206F014 =
    .ok (.callx ⟨h64, 3, .s 8 false false⟩) := by decide +kernel
theorem test_decode_ret : decode Env.max 0x1206000F018 =
    .ok (.ret ⟨h64, .s 3 true false⟩) := by decide +kernel
theorem test_decode_hinge : decode Env.max 0xFF0000000000F01C =
    .ok (.hinge ⟨h64, 255⟩) := by decide +kernel
theorem test_decode_wpt : decode Env.max 0xF020 =
    .ok (.wpt ⟨h64⟩) := by decide +kernel
theorem test_decode_endFrag : decode Env.max 0xF024 =
    .ok (.endFrag ⟨h64⟩) := by decide +kernel
theorem test_decode_yield : decode Env.max 0xF028 =
    .ok (.yield ⟨h64⟩) := by decide +kernel
theorem test_decode_sleep : decode Env.max 0x3E8000000000400000F02D =
    .ok (.sleep ⟨h96, .wide 1000⟩) := by decide +kernel
theorem test_decode_vote : decode Env.max 0x3000000420AF030 =
    .ok (.vote ⟨h64, .ballot 5, 2⟩) := by decide +kernel
theorem test_decode_brkpt : decode Env.max 0x70000000000F034 =
    .ok (.brkpt ⟨h64, 7⟩) := by decide +kernel
theorem test_decode_mov : decode Env.max 0xE000311802F100 =
    .ok (.mov ⟨h64, .s32, .v 1 (.o 7), .la⟩) := by decide +kernel
theorem test_decode_movi : decode Env.max 0x80000000030000400004F106 =
    .ok (.movi ⟨h128, .z64, .v 2 .none, .wide 0x80000⟩) := by decide +kernel
theorem test_decode_iadd : decode Env.max 0x204002806F108 =
    .ok (.iadd ⟨h64, .s32, .v 3 .la, .v 1 false false, .s 2 false false⟩) := by decide +kernel
theorem test_decode_iaddc : decode Env.max 0x540004002006F10C =
    .ok (.iaddc ⟨h64, 4, 5, .v 3 .none, .v 1 false false, .v 2 false false⟩) := by decide +kernel
theorem test_decode_isub : decode Env.max 0x2001000C008F110 =
    .ok (.isub ⟨h64, .s64, .v 4 .none, .v 6 false false, .v 8 false false⟩) := by decide +kernel
theorem test_decode_imul : decode Env.max 0x4003006F114 =
    .ok (.imul ⟨h64, .s32, .v 3 .lb, .v 1 false false, .v 2 false false⟩) := by decide +kernel
theorem test_decode_imulh : decode Env.max 0x10004002006F118 =
    .ok (.imulh ⟨h64, .z32, .v 3 .none, .v 1 false false, .v 2 false false⟩) := by decide +kernel
theorem test_decode_imad : decode Env.max 0x18100048021A004F11D =
    .ok (.imad ⟨h96, .s32, .v 2 .none, .s 13 false false, .imm 64, .o 1⟩) := by decide +kernel
theorem test_decode_iabs : decode Env.max 0x2306F120 =
    .ok (.iabs ⟨h64, .s32, .o 3, .v 1 false false⟩) := by decide +kernel
theorem test_decode_ineg : decode Env.max 0x2310F124 =
    .ok (.ineg ⟨h64, .s32, .la, .v 1 false false⟩) := by decide +kernel
theorem test_decode_imin : decode Env.max 0x10004002006F128 =
    .ok (.imin ⟨h64, .z32, .v 3 .none, .v 1 false false, .v 2 false false⟩) := by decide +kernel
theorem test_decode_imax : decode Env.max 0x4002006F12C =
    .ok (.imax ⟨h64, .s32, .v 3 .none, .v 1 false false, .v 2 false false⟩) := by decide +kernel
theorem test_decode_and : decode Env.max 0x315802006F130 =
    .ok (.and ⟨h64, .s32, .v 3 .none, .v 1 true true, .zero⟩) := by decide +kernel
theorem test_decode_or : decode Env.max 0x5FE002006F134 =
    .ok (.or ⟨h64, .s32, .v 3 .none, .v 1 false false, .imm 0xFF⟩) := by decide +kernel
theorem test_decode_xor : decode Env.max 0x4312006F138 =
    .ok (.xor ⟨h64, .s32, .v 3 .none, .lb, .v 2 false false⟩) := by decide +kernel
theorem test_decode_not : decode Env.max 0x231EF13C =
    .ok (.not ⟨h64, .s32, .q 3, .v 1 false false⟩) := by decide +kernel
theorem test_decode_shl : decode Env.max 0x402002006F140 =
    .ok (.shl ⟨h64, .s32, .v 3 .none, .v 1 false false, .imm 1⟩) := by decide +kernel
theorem test_decode_shr : decode Env.max 0x404002006F144 =
    .ok (.shr ⟨h64, .s32, .v 3 .none, .v 1 false false, .imm 2⟩) := by decide +kernel
theorem test_decode_sar : decode Env.max 0x406002006F148 =
    .ok (.sar ⟨h64, .s32, .v 3 .none, .v 1 false false, .imm 3⟩) := by decide +kernel
theorem test_decode_rot : decode Env.max 0x408002006F14C =
    .ok (.rot ⟨h64, .s32, .v 3 .none, .v 1 false false, .imm 4⟩) := by decide +kernel
theorem test_decode_bfe : decode Env.max 0x10204002006F150 =
    .ok (.bfe ⟨h64, .z32, .v 3 .none, .v 1 false false, .s 2 false false⟩) := by decide +kernel
theorem test_decode_bfi : decode Env.max 0x4000004002006F155 =
    .ok (.bfi ⟨h96, .s32, .v 3 .none, .v 1 false false, .v 2 false false, .v 4 false false⟩) := by decide +kernel
theorem test_decode_popc : decode Env.max 0x20000004006F158 =
    .ok (.popc ⟨h64, .s64, .v 3 .none, .v 2 false false⟩) := by decide +kernel
theorem test_decode_clz : decode Env.max 0x4006F15C =
    .ok (.clz ⟨h64, .s32, .v 3 .none, .v 2 false false⟩) := by decide +kernel
theorem test_decode_brev : decode Env.max 0x4006F160 =
    .ok (.brev ⟨h64, .s32, .v 3 .none, .v 2 false false⟩) := by decide +kernel
theorem test_decode_lea : decode Env.max 0xE1000420C008F164 =
    .ok (.lea ⟨h64, true, 7, .v 4 .none, .s 6 false false, .v 2 false false⟩) := by decide +kernel
theorem test_decode_sel : decode Env.max 0x980004002006F168 =
    .ok (.sel ⟨h64, .s32, 9, true, .v 3 .none, .v 1 false false, .v 2 false false⟩) := by decide +kernel
theorem test_decode_isetp : decode Env.max 0xA1000400200CF16C =
    .ok (.isetp ⟨h64, .z32, .ge, 6, .v 1 false false, .v 2 false false⟩) := by decide +kernel
theorem test_decode_fadd : decode Env.max 0x4002006F200 =
    .ok (.fadd ⟨h64, .dyn, .v 3 .none, .v 1 false false, .v 2 false false⟩) := by decide +kernel
theorem test_decode_fmul : decode Env.max 0x50004002006F204 =
    .ok (.fmul ⟨h64, .rz, .v 3 .none, .v 1 false false, .v 2 false false⟩) := by decide +kernel
theorem test_decode_ffma : decode Env.max 0x3070004002006F209 =
    .ok (.ffma ⟨h96, .rd, .v 3 .none, .v 1 false false, .v 2 false false, .v 3 false false⟩) := by decide +kernel
theorem test_decode_fmin : decode Env.max 0x4002006F20C =
    .ok (.fmin ⟨h64, .v 3 .none, .v 1 false false, .v 2 false false⟩) := by decide +kernel
theorem test_decode_fmax : decode Env.max 0x4002006F210 =
    .ok (.fmax ⟨h64, .v 3 .none, .v 1 false false, .v 2 false false⟩) := by decide +kernel
theorem test_decode_fsetp : decode Env.max 0xA00004002002F214 =
    .ok (.fsetp ⟨h64, .unord .lt, 1, .v 1 false false, .v 2 false false⟩) := by decide +kernel
theorem test_decode_fclass : decode Env.max 0x20000002006F218 =
    .ok (.fclass ⟨h64, .bf16, .v 3 .none, .v 1 false false⟩) := by decide +kernel
theorem test_decode_frcp : decode Env.max 0x60000002006F21C =
    .ok (.frcp ⟨h64, .ru, .v 3 .none, .v 1 false false⟩) := by decide +kernel
theorem test_decode_frsq : decode Env.max 0x60000002006F220 =
    .ok (.frsq ⟨h64, .ru, .v 3 .none, .v 1 false false⟩) := by decide +kernel
theorem test_decode_fsqrt : decode Env.max 0x60000002006F224 =
    .ok (.fsqrt ⟨h64, .ru, .v 3 .none, .v 1 false false⟩) := by decide +kernel
theorem test_decode_fex2 : decode Env.max 0x60000002006F228 =
    .ok (.fex2 ⟨h64, .ru, .v 3 .none, .v 1 false false⟩) := by decide +kernel
theorem test_decode_flg2 : decode Env.max 0x60000002006F22C =
    .ok (.flg2 ⟨h64, .ru, .v 3 .none, .v 1 false false⟩) := by decide +kernel
theorem test_decode_fsin : decode Env.max 0x60000002006F230 =
    .ok (.fsin ⟨h64, .ru, .v 3 .none, .v 1 false false⟩) := by decide +kernel
theorem test_decode_fcos : decode Env.max 0x60000002006F234 =
    .ok (.fcos ⟨h64, .ru, .v 3 .none, .v 1 false false⟩) := by decide +kernel
theorem test_decode_frnd : decode Env.max 0x60000002006F238 =
    .ok (.frnd ⟨h64, .ru, .v 3 .none, .v 1 false false⟩) := by decide +kernel
theorem test_decode_hadd2 : decode Env.max 0xC0004002006F23C =
    .ok (.hadd2 ⟨h64, true, .rn, .v 3 .none, .v 1 false false, .v 2 false false⟩) := by decide +kernel
theorem test_decode_hmul2 : decode Env.max 0x4002006F240 =
    .ok (.hmul2 ⟨h64, false, .dyn, .v 3 .none, .v 1 false false, .v 2 false false⟩) := by decide +kernel
theorem test_decode_hfma2 : decode Env.max 0x5080004002006F245 =
    .ok (.hfma2 ⟨h96, true, .dyn, .v 3 .none, .v 1 false false, .v 2 false false, .v 5 false false⟩) := by decide +kernel
theorem test_decode_hmin2 : decode Env.max 0x4002006F248 =
    .ok (.hmin2 ⟨h64, false, .v 3 .none, .v 1 false false, .v 2 false false⟩) := by decide +kernel
theorem test_decode_hmax2 : decode Env.max 0x80004002006F24C =
    .ok (.hmax2 ⟨h64, true, .v 3 .none, .v 1 false false, .v 2 false false⟩) := by decide +kernel
theorem test_decode_dadd : decode Env.max 0x1000C008F250 =
    .ok (.dadd ⟨h64, .dyn, .v 4 .none, .v 6 false false, .v 8 false false⟩) := by decide +kernel
theorem test_decode_dmul : decode Env.max 0x4021000C008F254 =
    .ok (.dmul ⟨h64, .rn, .v 4 .none, .v 6 false false, .s 8 false false⟩) := by decide +kernel
theorem test_decode_dfma : decode Env.max 0xA00001000C008F259 =
    .ok (.dfma ⟨h96, .dyn, .v 4 .none, .v 6 false false, .v 8 false false, .v 10 false false⟩) := by decide +kernel
theorem test_decode_dsetp : decode Env.max 0xF0001000C004F25C =
    .ok (.dsetp ⟨h64, .nan, 2, .v 6 false false, .v 8 false false⟩) := by decide +kernel
theorem test_decode_cvtF : decode Env.max 0xF5000000C006F300 =
    .ok (.cvtF ⟨h64, .i .z64, .f16, .rz, .v 3 .none, .v 6 false false⟩) := by decide +kernel
theorem test_decode_cvtI : decode Env.max 0x30000000C008F304 =
    .ok (.cvtI ⟨h64, .f .f32, .s64, .dyn, .v 4 .none, .v 6 false false⟩) := by decide +kernel
theorem test_decode_cvtQ : decode Env.max 0x4E000E00C008F308 =
    .ok (.cvtQ ⟨h64, .e2m1, 7, .v 4 .none, .v 6 false false, .v 7 false false⟩) := by decide +kernel
theorem test_decode_pack : decode Env.max 0xC000E00C008F30C =
    .ok (.pack ⟨h64, .bf16, .rn, .v 4 .none, .v 6 false false, .v 7 false false⟩) := by decide +kernel
theorem test_decode_unpk : decode Env.max 0xAE000000C008F310 =
    .ok (.unpk ⟨h64, .z4, 7, .v 4 .none, .v 6 false false⟩) := by decide +kernel
theorem test_decode_plop : decode Env.max 0x60006004002F320 =
    .ok (.plop ⟨h64, 6, 1, 2, 3⟩) := by decide +kernel
theorem test_decode_pmov : decode Env.max 0x40000212008F324 =
    .ok (.pmov ⟨h64, .ps 4 (.s 9 false false)⟩) := by decide +kernel
theorem test_decode_shfl : decode Env.max 0x2040200C008F340 =
    .ok (.shfl ⟨h64, .down, .v 4 .none, .v 6 false false, .imm 1⟩) := by decide +kernel
theorem test_decode_bcast : decode Env.max 0x20200C008F344 =
    .ok (.bcast ⟨h64, .v 4 .none, .v 6 false false, .s 1 false false⟩) := by decide +kernel
theorem test_decode_redw : decode Env.max 0x6000000C208F348 =
    .ok (.redw ⟨h64, .maxZ32, false, .s 4, .v 6 false false⟩) := by decide +kernel
theorem test_decode_scanw : decode Env.max 0x1A000000C008F34C =
    .ok (.scanw ⟨h64, .xor, true, .v 4 .none, .v 6 false false⟩) := by decide +kernel
theorem test_decode_xchg : decode Env.max 0x3021000C008F350 =
    .ok (.xchg ⟨h64, 3, 4, .none, .v 6 false false, .s 8 false false⟩) := by decide +kernel
/-- A destination with a mirror (R61, R154). -/
theorem test_decode_xchg_mirror : decode Env.max 0x3021000C808F350 =
    .ok (.xchg ⟨h64, 3, 4, .la, .v 6 false false, .s 8 false false⟩) := by decide +kernel
theorem test_decode_femark : decode Env.max 0x50000000008F360 =
    .ok (.femark ⟨h64, .empty, true, .v 4⟩) := by decide +kernel
theorem test_decode_fetest : decode Env.max 0x2000020C008F364 =
    .ok (.fetest ⟨h64, .poison, 4, .s 6 false false⟩) := by decide +kernel
theorem test_decode_ocld : decode Env.max 0xC30AF368 =
    .ok (.ocld ⟨h64, 5, .v 6 false false⟩) := by decide +kernel
theorem test_decode_smov : decode Env.max 0x20C208F400 =
    .ok (.smov ⟨h64, 4, .s 6 false false⟩) := by decide +kernel
theorem test_decode_smovi : decode Env.max 0x80000000010000400208F405 =
    .ok (.smovi ⟨h96, true, 4, .wide 0xFFF80000⟩) := by decide +kernel
theorem test_decode_sadd : decode Env.max 0x20E20C208F408 =
    .ok (.sadd ⟨h64, 4, .s 6 false false, .s 7 false false⟩) := by decide +kernel
theorem test_decode_ssub : decode Env.max 0x20E20C208F40C =
    .ok (.ssub ⟨h64, 4, .s 6 false false, .s 7 false false⟩) := by decide +kernel
theorem test_decode_smul : decode Env.max 0x20E20C208F410 =
    .ok (.smul ⟨h64, 4, .s 6 false false, .s 7 false false⟩) := by decide +kernel
theorem test_decode_sand : decode Env.max 0x20E20C208F414 =
    .ok (.sand ⟨h64, 4, .s 6 false false, .s 7 false false⟩) := by decide +kernel
theorem test_decode_sor : decode Env.max 0x20E20C208F418 =
    .ok (.sor ⟨h64, 4, .s 6 false false, .s 7 false false⟩) := by decide +kernel
theorem test_decode_sxor : decode Env.max 0x20E20C208F41C =
    .ok (.sxor ⟨h64, 4, .s 6 false false, .s 7 false false⟩) := by decide +kernel
theorem test_decode_sshl : decode Env.max 0x20E20C208F420 =
    .ok (.sshl ⟨h64, 4, .s 6 false false, .s 7 false false⟩) := by decide +kernel
theorem test_decode_sshr : decode Env.max 0x1047E20C208F424 =
    .ok (.sshr ⟨h64, true, 4, .s 6 false false, .imm 63⟩) := by decide +kernel
theorem test_decode_ssetp : decode Env.max 0x21020E20C008F428 =
    .ok (.ssetp ⟨h64, .ne, true, 4, .s 6 false false, .s 7 false false⟩) := by decide +kernel
theorem test_decode_rds : decode Env.max 0x1A008F42C =
    .ok (.rds ⟨h64, .v 4 .none, 13⟩) := by decide +kernel
theorem test_decode_wrs : decode Env.max 0x20C01EF430 =
    .ok (.wrs ⟨h64, 15, .s 6 false false⟩) := by decide +kernel
theorem test_decode_setfmt : decode Env.max 0x303000000000400000F435 =
    .ok (.setfmt ⟨h96, .wide 0x303⟩) := by decide +kernel
theorem test_decode_setmode : decode Env.max 0x20C000F438 =
    .ok (.setmode ⟨h64, .s 6 false false⟩) := by decide +kernel
theorem test_decode_mxbind : decode Env.max 0x408000F500 =
    .ok (.mxbind ⟨h64, .imm 4⟩) := by decide +kernel
theorem test_decode_mxbindRel : decode Env.max 0x10000000000F500 =
    .ok (.mxbindRel ⟨h64⟩) := by decide +kernel
theorem test_decode_mxstep : decode Env.max 0x900000201E008F505 =
    .ok (.mxstep ⟨h96, true, 15, 1, false, some (.v 9 false false)⟩) := by decide +kernel
theorem test_decode_mxloop : decode Env.max 0x20A208000F508 =
    .ok (.mxloop ⟨h64, false, .s 4 false false, .s 5 false false, none⟩) := by decide +kernel
theorem test_decode_mxwait : decode Env.max 0xF50C =
    .ok (.mxwait ⟨h64⟩) := by decide +kernel
theorem test_decode_azero : decode Env.max 0x30000000008F510 =
    .ok (.azero ⟨h64, 4, 3⟩) := by decide +kernel
theorem test_decode_amov : decode Env.max 0xF1000000C00EF514 =
    .ok (.amov ⟨h64, 15, .intoAcc 7 (.v 6 false false)⟩) := by decide +kernel
theorem test_decode_adrain : decode Env.max 0x10606020A208004F519 =
    .ok (.adrain ⟨h96, .bf16, 2, .s 4 false false, .s 5 false false, some (.s 6 false false)⟩) := by decide +kernel
theorem test_decode_tzero : decode Env.max 0x1EF51C =
    .ok (.tzero ⟨h64, 15⟩) := by decide +kernel
theorem test_decode_tmov : decode Env.max 0xA000001C00CF520 =
    .ok (.tmov ⟨h64, 5, .fromTile 6 .none 14⟩) := by decide +kernel
theorem test_decode_bppack : decode Env.max 0xE00CF524 =
    .ok (.bppack ⟨h64, 6, .none, .v 7 false false⟩) := by decide +kernel
theorem test_decode_bpunpk : decode Env.max 0xE00CF528 =
    .ok (.bpunpk ⟨h64, 6, .none, .v 7 false false⟩) := by decide +kernel
theorem test_decode_propose : decode Env.max 0x20000040000F540 =
    .ok (.propose ⟨h64, 32, 2⟩) := by decide +kernel
theorem test_decode_accept : decode Env.max 0x2C002F544 =
    .ok (.accept ⟨h64, 1, .v 22 false false⟩) := by decide +kernel
theorem test_decode_reject : decode Env.max 0xF548 =
    .ok (.reject ⟨h64⟩) := by decide +kernel
theorem test_decode_rngkey : decode Env.max 0x21C21A000F54C =
    .ok (.rngkey ⟨h64, .s 13 false false, .s 14 false false⟩) := by decide +kernel
theorem test_decode_rng : decode Env.max 0x10000000018F550 =
    .ok (.rng ⟨h64, true, 12, .none⟩) := by decide +kernel
theorem test_decode_rngctr : decode Env.max 0xC000F554 =
    .ok (.rngctr ⟨h64, .v 6 false false⟩) := by decide +kernel
theorem test_decode_ld : decode Env.max 0x5B00FFFFFFFC000910004210008F602 =
    .ok (.ld ⟨h128, .h, .bf16, true, 4, 8, (false, false), .v 2 false false, 0xFFFFFFFC, ⟨.cluster, .lu, .acq, none⟩⟩) := by decide +kernel
theorem test_decode_st : decode Env.max 0x1A70900000010003020005210000F606 =
    .ok (.st ⟨h128, .w, .raw, false, 8, (true, false), .v 2 false false, .v 3 false false, 16, ⟨.system, .na, .rel, some 9⟩⟩) := by decide +kernel
theorem test_decode_lds : decode Env.max 0xC000280000004008F609 =
    .ok (.lds ⟨h96, .b, .s8, 4, .v 2 false false, 12⟩) := by decide +kernel
theorem test_decode_sts : decode Env.max 0x40008004000F60C =
    .ok (.sts ⟨h64, .q, .raw, .v 2 false false, .v 4 false false, 0⟩) := by decide +kernel
theorem test_decode_ldsc : decode Env.max 0x30404210220F610 =
    .ok (.ldsc ⟨h64, 3, 16, 8, (false, false), .imm 2, 0, ⟨.device, .normal, .plain, none⟩⟩) := by decide +kernel
theorem test_decode_ldt : decode Env.max 0x480006F614 =
    .ok (.ldt ⟨h64, false, 3, .imm 64⟩) := by decide +kernel
theorem test_decode_ldtt : decode Env.max 0x800000010000400002F619 =
    .ok (.ldtt ⟨h96, true, 1, .wide 0x800⟩) := by decide +kernel
theorem test_decode_stt : decode Env.max 0x10012204000F61C =
    .ok (.stt ⟨h64, true, 9, .s 2 false false⟩) := by decide +kernel
theorem test_decode_pf : decode Env.max 0x4103010402210000F621 =
    .ok (.pf ⟨h96, true, 8, (false, false), .imm 1, .s 3 false false, 4⟩) := by decide +kernel
theorem test_decode_ipf : decode Env.max 0x1000000010400210000F625 =
    .ok (.ipf ⟨h96, true, .s 8 false false, .wide 4096⟩) := by decide +kernel
theorem test_decode_ipin : decode Env.max 0x1000000010400210000F629 =
    .ok (.ipin ⟨h96, true, .s 8 false false, .wide 4096⟩) := by decide +kernel
theorem test_decode_iunpin : decode Env.max 0x1000000010400210000F62D =
    .ok (.iunpin ⟨h96, true, .s 8 false false, .wide 4096⟩) := by decide +kernel
theorem test_decode_seal : decode Env.max 0x212210000F630 =
    .ok (.seal ⟨h64, .s 8 false false, .s 9 false false⟩) := by decide +kernel
theorem test_decode_unseal : decode Env.max 0x212210000F634 =
    .ok (.unseal ⟨h64, .s 8 false false, .s 9 false false⟩) := by decide +kernel
theorem test_decode_cinv : decode Env.max 0x103010204A10000F639 =
    .ok (.cinv ⟨h96, true, 8, (false, true), .s 2 false false, .s 3 false false, 0⟩) := by decide +kernel
theorem test_decode_cwb : decode Env.max 0x103000204210000F63D =
    .ok (.cwb ⟨h96, false, 8, (false, false), .s 2 false false, .s 3 false false, 0⟩) := by decide +kernel
theorem test_decode_brset : decode Env.max 0x22040E000F640 =
    .ok (.brset ⟨h64, .imm 7, 16, (false, false)⟩) := by decide +kernel
theorem test_decode_bradd : decode Env.max 0x21840E000F644 =
    .ok (.bradd ⟨h64, .imm 7, .s 12 false false⟩) := by decide +kernel
theorem test_decode_brdel : decode Env.max 0x21840E000F648 =
    .ok (.brdel ⟨h64, .imm 7, .s 12 false false⟩) := by decide +kernel
theorem test_decode_brrd : decode Env.max 0x40E238F64C =
    .ok (.brrd ⟨h64, 28, .imm 7⟩) := by decide +kernel
theorem test_decode_unpark : decode Env.max 0x103000204210000F651 =
    .ok (.unpark ⟨h96, false, 8, (false, false), .s 2 false false, .s 3 false false, 0⟩) := by decide +kernel
theorem test_decode_parkq : decode Env.max 0x204210238F654 =
    .ok (.parkq ⟨h64, 28, 8, (false, false), .s 2 false false, 0⟩) := by decide +kernel
theorem test_decode_atomI : decode Env.max 0xC600000000080048B000421000CF682 =
    .ok (.atomI ⟨h128, .max, .z64, 6, ⟨true, 8, (false, false), .v 2 false false, .v 4 false false, 8, ⟨.node, .normal, .ar, none⟩⟩⟩) := by decide +kernel
theorem test_decode_atomF : decode Env.max 0x405000421000CF685 =
    .ok (.atomF ⟨h96, .min, true, 6, ⟨false, 8, (false, false), .v 2 false false, .v 4 false false, 0, ⟨.device, .normal, .plain, none⟩⟩⟩) := by decide +kernel
theorem test_decode_atomCas : decode Env.max 0x10020004210010F689 =
    .ok (.atomCas ⟨h96, .b128, 8, ⟨false, 8, (false, false), .v 2 false false, .v 16 false false, 0, ⟨.device, .normal, .plain, none⟩⟩⟩) := by decide +kernel
theorem test_decode_atomX2 : decode Env.max 0x2010008208006F68D =
    .ok (.atomX2 ⟨h96, .add, true, 3, ⟨false, 4, (false, false), .v 4 false false, .v 2 false false, 0, ⟨.device, .normal, .plain, none⟩⟩⟩) := by decide +kernel
theorem test_decode_red : decode Env.max 0x8C0000000000004240004210000F692 =
    .ok (.red ⟨h128, .add2BF16, ⟨false, 8, (false, false), .v 2 false false, .v 4 false false, 0, ⟨.die, .cb, .rel, none⟩⟩⟩) := by decide +kernel
theorem test_decode_atoms : decode Env.max 0x51D000800400CF695 =
    .ok (.atoms ⟨h96, .cas .z32, 6, .v 2 false false, .v 4 false false, some (.v 5 false false), 0⟩) := by decide +kernel
theorem test_decode_fence : decode Env.max 0xD0000000000F700 =
    .ok (.fence ⟨h64, .cluster, .acq⟩) := by decide +kernel
theorem test_decode_bar : decode Env.max 0xF704 =
    .ok (.bar ⟨h64⟩) := by decide +kernel
theorem test_decode_bara : decode Env.max 0x10208440228F708 =
    .ok (.bara ⟨h64, 20, .imm 32, some (.s 4 false false)⟩) := by decide +kernel
theorem test_decode_barw : decode Env.max 0x228440000F70C =
    .ok (.barw ⟨h64, .imm 32, .s 20 false false⟩) := by decide +kernel
theorem test_decode_gbar : decode Env.max 0xF710 =
    .ok (.gbar ⟨h64⟩) := by decide +kernel
theorem test_decode_cpy : decode Env.max 0x40406400228F714 =
    .ok (.cpy ⟨h64, .team, 20, .imm 0, .imm 3⟩) := by decide +kernel
theorem test_decode_tlwait : decode Env.max 0x140228406000F718 =
    .ok (.tlwait ⟨h64, .device, .imm 3, .s 20 false false⟩) := by decide +kernel
theorem test_decode_spawn : decode Env.max 0x220228F720 =
    .ok (.spawn ⟨h64, 20, 16, (false, false)⟩) := by decide +kernel
theorem test_decode_qpush : decode Env.max 0xE31AF724 =
    .ok (.qpush ⟨h64, 1, .v 7 false false, none⟩) := by decide +kernel
theorem test_decode_qpop : decode Env.max 0x31000031800AF728 =
    .ok (.qpop ⟨h64, 5, 0, false, some 3⟩) := by decide +kernel
theorem test_decode_qcnt : decode Env.max 0x318212F72C =
    .ok (.qcnt ⟨h64, 9, 0⟩) := by decide +kernel
theorem test_decode_trap : decode Env.max 0x400000000000F740 =
    .ok (.trap ⟨h64, 0x40⟩) := by decide +kernel
theorem test_decode_reth : decode Env.max 0x20000000000F744 =
    .ok (.reth ⟨h64, .nx⟩) := by decide +kernel
theorem test_decode_rdtr : decode Env.max 0x400008F748 =
    .ok (.rdtr ⟨h64, 4, .none, .imm 0⟩) := by decide +kernel
theorem test_decode_term : decode Env.max 0xF74C =
    .ok (.term ⟨h64⟩) := by decide +kernel
theorem test_decode_termTeam : decode Env.max 0x10000000000F74C =
    .ok (.termTeam ⟨h64⟩) := by decide +kernel
theorem test_decode_cntrd : decode Env.max 0x406228F760 =
    .ok (.cntrd ⟨h64, 20, .imm 3⟩) := by decide +kernel
theorem test_decode_cntclr : decode Env.max 0x206000F764 =
    .ok (.cntclr ⟨h64, .s 3 false false⟩) := by decide +kernel
theorem test_decode_tladv : decode Env.max 0x140228406000F768 =
    .ok (.tladv ⟨h64, .device, .imm 3, .s 20 false false⟩) := by decide +kernel

/-! ### Ill-formed terms, one for each check -/

def mf0 : MemF := MemF.dflt
def sc4 : Src := .s 4 false false
def v1 : Src := .v 1 false false
def v2 : Src := .v 2 false false

theorem test_wf_bra : (Instr.bra ⟨h96, -8⟩).wf = true := by decide
theorem test_ill_form_short : (Instr.bra ⟨h64, 0⟩).wf = false := by decide
theorem test_ill_form_long : (Instr.nop ⟨h64⟩).wf = true ∧ (Instr.hinge ⟨h96, 1⟩).wf = false := by decide
theorem test_ill_wide_range : (Instr.bra ⟨h96, 0x80000⟩).wf = false := by decide
theorem test_ill_wide_in_short : (Instr.iadd ⟨h64, .s32, .v 1 .none, v1, .wide 5⟩).wf = false := by decide
theorem test_ill_imm0_in_long : (Instr.iadd ⟨h96, .s32, .v 1 .none, v1, .imm 0⟩).wf = false := by decide
theorem test_ill_two_wides : (Instr.iadd ⟨h96, .s32, .v 1 .none, .wide 5, .wide 5⟩).wf = false := by decide
theorem test_ill_wide_role : (Instr.lds ⟨h96, .w, .raw, 1, .wide 4, 4⟩).wf = false := by decide
theorem test_ill_two_queues : (Instr.iadd ⟨h64, .s32, .q 0, .q 1 false, v1⟩).wf = false := by decide
theorem test_ill_odd_pair : (Instr.iadd ⟨h64, .z64, .v 3 .none, v2, v2⟩).wf = false := by decide
theorem test_ill_pair_mirror : (Instr.iadd ⟨h64, .z64, .v 2 .la, v2, v2⟩).wf = false := by decide
theorem test_ill_scalar_dst : (Instr.iadd ⟨h64, .z32, .s 3, v2, v2⟩).wf = false := by decide
theorem test_ill_odd_source : (Instr.iadd ⟨h64, .z64, .v 2 .none, v1, v2⟩).wf = false := by decide
theorem test_ill_vector_align : (Instr.ld ⟨h64, .q, .raw, false, 6, 4, (false, false), v1, 0, mf0⟩).wf = false := by decide
theorem test_ill_quad : (Instr.ld ⟨h64, .w, .raw, false, 6, 5, (false, false), v1, 0, mf0⟩).wf = false := by decide
theorem test_ill_memory_fields : (Instr.ld ⟨h96, .w, .raw, false, 6, 4, (false, false), v1, 0, { mf0 with ord := .acq }⟩).wf = false := by decide
theorem test_ill_plain_scope : (Instr.ld ⟨h128, .w, .raw, false, 6, 4, (false, false), v1, 0, { mf0 with scope := .team }⟩).wf = false := by decide
theorem test_ill_load_release : (Instr.ld ⟨h128, .w, .raw, false, 6, 4, (false, false), v1, 0, { mf0 with ord := .rel }⟩).wf = false := by decide
theorem test_ill_store_bearing : (Instr.ld ⟨h128, .w, .raw, false, 6, 4, (false, false), v1, 0, { mf0 with bear := some 1 }⟩).wf = false := by decide
theorem test_ill_conversion : (Instr.ld ⟨h64, .b, .f16, false, 6, 4, (false, false), v1, 0, mf0⟩).wf = false := by decide
theorem test_ill_index : (Instr.ld ⟨h64, .w, .raw, false, 6, 4, (false, false), .imm 8, 0, mf0⟩).wf = true
    ∧ (Instr.ldsc ⟨h64, 0, 6, 4, (false, false), v1, 0, mf0⟩).wf = false := by decide
theorem test_ill_store_data : (Instr.st ⟨h96, .q, .raw, false, 4, (false, false), v1, .v 2 false false, 0, mf0⟩).wf = false := by decide
theorem test_ill_scalar_align : (Instr.ldsc ⟨h64, 3, 4, 4, (false, false), sc4, 0, mf0⟩).wf = false := by decide
theorem test_ill_immediate_only : (Instr.movi ⟨h64, .s32, .v 1 .none, v2⟩).wf = false := by decide
theorem test_ill_target : (Instr.brx ⟨h64, .v 5 false false⟩).wf = false ∧ (Instr.callx ⟨h64, 3, .imm 8⟩).wf = false := by decide
theorem test_ill_scalar_source : (Instr.sadd ⟨h64, 3, v2, sc4⟩).wf = false ∧ (Instr.rngkey ⟨h64, sc4, .imm 1⟩).wf = false := by decide
theorem test_ill_vector_source : (Instr.bppack ⟨h64, 3, .none, sc4⟩).wf = false ∧ (Instr.fetest ⟨h64, .full, 1, .la⟩).wf = false := by decide
theorem test_ill_exact_rounding : (Instr.cvtF ⟨h64, .f .f16, .f32, .rz, .v 1 .none, v2⟩).wf = false := by decide
theorem test_ill_integer_rounding : (Instr.cvtI ⟨h64, .i .s32, .z64, .rz, .v 2 .none, v2⟩).wf = false := by decide
theorem test_ill_pack_rounding : (Instr.pack ⟨h64, .s16, .rz, .v 1 .none, v2, v2⟩).wf = false := by decide
theorem test_ill_element : (Instr.unpk ⟨h64, .f16, 2, .v 1 .none, v2⟩).wf = false ∧ (Instr.cvtQ ⟨h64, .s8, 4, .v 1 .none, v2, v2⟩).wf = false := by decide
theorem test_ill_pmov : (Instr.pmov ⟨h64, .vp .la 1⟩).wf = false ∧ (Instr.pmov ⟨h64, .ps 1 v2⟩).wf = false := by decide
theorem test_ill_mark_pair : (Instr.femark ⟨h64, .empty, true, .v 3⟩).wf = false := by decide
theorem test_ill_special : (Instr.rds ⟨h64, .s 3, 200⟩).wf = false ∧ (Instr.rds ⟨h64, .q 0, 15⟩).wf = false
    ∧ (Instr.wrs ⟨h64, 0, sc4⟩).wf = false := by decide
theorem test_ill_azero : (Instr.azero ⟨h64, 5, 3⟩).wf = false := by decide
theorem test_ill_adrain : (Instr.adrain ⟨h96, .s32, 1, sc4, .zero, some (.s 6 false false)⟩).wf = false := by decide
theorem test_ill_mxstep : (Instr.mxstep ⟨h64, false, 0, 1, false, some v1⟩).wf = false := by decide
theorem test_ill_propose : (Instr.propose ⟨h64, 4, 0⟩).wf = false ∧ (Instr.propose ⟨h64, 8, 3⟩).wf = false
    ∧ (Instr.propose ⟨h64, 248, 1⟩).wf = false := by decide
theorem test_ill_accept : (Instr.accept ⟨h64, 1, sc4⟩).wf = false := by decide
theorem test_ill_range_level : (Instr.cwb ⟨h96, true, 4, (false, false), .zero, .zero, 0⟩).wf = false := by decide
theorem test_ill_code_range : (Instr.ipf ⟨h64, false, .imm 8, sc4⟩).wf = false := by decide
theorem test_ill_qpop : (Instr.qpop ⟨h64, 4, 0, true, some 1⟩).wf = false := by decide
theorem test_ill_rdtr : (Instr.rdtr ⟨h64, 5, .none, .zero⟩).wf = false ∧ (Instr.rdtr ⟨h64, 4, .la, .zero⟩).wf = false := by decide
theorem test_ill_local_cas : (Instr.atoms ⟨h96, .cas .z32, 4, v1, v2, none, 0⟩).wf = false
    ∧ (Instr.atoms ⟨h96, .int .add .z32, 4, v1, v2, some v2, 0⟩).wf = false := by decide
theorem test_ill_cas_data : (Instr.atomCas ⟨h96, .b64, 4, ⟨false, 4, (false, false), v1, .v 2 false false, 0, mf0⟩⟩).wf = false := by decide
theorem test_ill_red_exch : (Instr.red ⟨h96, .int .exch .z32, ⟨false, 4, (false, false), v1, v2, 0, mf0⟩⟩).wf = false := by decide

/-! ### For each statement a state that meets its hypotheses -/

/-- The hypotheses of a completion statement, all together, with a lane that takes part. -/
def Meets (i : Instr) (m : Sem) (s : State) : Prop :=
  i.wf = true ∧ Issuing s ∧ s.CaptureOk m.u ∧ Clear s m.u m.h ∧ m.ok s (s.issQ m.u m.h) ∧ (s.issQ m.u m.h).part ≠ 0
theorem meets_of {i : Instr} {m : Sem} {s : State} (y : readyB i s m.u m.h = true) (k : m.ok s (s.issQ m.u m.h)) : Meets i m s :=
  have z := ready_of y
  ⟨z.1, z.2.1, z.2.2.1, z.2.2.2.1, k, z.2.2.2.2⟩

/-- Vector 1 holds each lane's number, vector 2 twice it, the pair 4, 5 the number and 7, scalar 4 the number 100. -/
def regsW (w : Wave) : Wave :=
  setVec 1 (fun l => BitVec.ofNat 32 l) (setVec 2 (fun l => BitVec.ofNat 32 (2 * l)) (setVec 4 (fun l => BitVec.ofNat 32 l)
    (setVec 5 (fun _ => 7) (setSc 4 100 w))))
def stR : State := stW regsW

theorem witness_IntegerResults : ∃ i m s, intSem i = some m ∧ Meets i m s :=
  ⟨.iadd ⟨h64, .s32, .v 3 .none, v1, v2⟩, _, stR, rfl, meets_of (by decide +kernel) trivial⟩
theorem witness_IntegerResults_64 : ∃ i m s, intSem i = some m ∧ m.w64 = true ∧ Meets i m s :=
  ⟨.iadd ⟨h64, .s64, .v 6 .none, .v 4 false false, .s 4 false false⟩, _, stR, rfl, rfl, meets_of (by decide +kernel) trivial⟩
theorem witness_ShiftResults : ∃ i m s, shiftSem i = some m ∧ Meets i m s :=
  ⟨.sar ⟨h64, .s32, .v 3 .none, v1, v2⟩, _, stR, rfl, meets_of (by decide +kernel) trivial⟩
theorem witness_FieldResults : ∃ i m s, fieldSem i = some m ∧ Meets i m s :=
  ⟨.bfe ⟨h64, .s32, .v 3 .none, v1, v2⟩, _, stR, rfl, meets_of (by decide +kernel) trivial⟩
theorem witness_FloatResults : ∃ i m s, fltSem i = some m ∧ Meets i m s :=
  ⟨.ffma ⟨h96, .rn, .v 3 .none, v1, v2, v1⟩, _, stR, rfl, meets_of (by decide +kernel) trivial⟩
theorem witness_ConversionResults : ∃ i m s, cvtSem i = some m ∧ Meets i m s :=
  ⟨.cvtF ⟨h64, .f .f32, .bf16, .rn, .v 3 .none, v1⟩, _, stR, rfl, meets_of (by decide +kernel) trivial⟩
theorem witness_LaneMoveResults : ∃ i m s, moveSem i = some m ∧ Meets i m s :=
  ⟨.shfl ⟨h64, .up, .v 3 .none, v1, v2⟩, _, stR, rfl, meets_of (by decide +kernel) trivial⟩
theorem witness_PredicateResults : ∃ i m s, predSem i = some m ∧ Meets i m s :=
  ⟨.isetp ⟨h64, .s32, .lt, 1, v1, v2⟩, _, stR, rfl, meets_of (by decide +kernel) trivial⟩
theorem witness_ScalarResults : ∃ i m s, scalSem i = some m ∧ Meets i m s :=
  ⟨.sadd ⟨h64, 3, sc4, .imm 5⟩, _, stR, rfl, meets_of (by decide +kernel) trivial⟩
theorem witness_ReadoutResults : ∃ i m s, readSem i = some m ∧ Meets i m s :=
  ⟨.redw ⟨h64, .addS32, false, .s 3, v1⟩, _, stR, rfl, meets_of (by decide +kernel) trivial⟩
theorem witness_ReadoutResults_special : ∃ i m s, readSem i = some m ∧ Meets i m s :=
  ⟨.rds ⟨h64, .o 3, 1⟩, _, stR, rfl, meets_of (by decide +kernel) rfl⟩
theorem witness_ReadoutResults_accumulator : ∃ i m s, readSem i = some m ∧ Meets i m s :=
  ⟨.amov ⟨h64, 15, .fromAcc 3 .none 7⟩, _, stW fun w => { w with mx := some { first := 0 } }, rfl, meets_of (by decide +kernel) (by decide +kernel)⟩
theorem witness_SpecialWrites : ∃ i m also s, specialSem i = some (m, also) ∧ Meets i m s :=
  ⟨.setmode ⟨h64, sc4⟩, _, _, stR, rfl, meets_of (by decide +kernel) trivial⟩
theorem witness_MarkResults : ∃ i m also s, markSem i = some (m, also) ∧ Meets i m s :=
  ⟨.femark ⟨h64, .poison, false, .v 3⟩, _, _, stR, rfl, meets_of (by decide +kernel) (Or.inl (by decide +kernel))⟩
theorem witness_MarkResults_slot : ∃ i m also s, markSem i = some (m, also) ∧ Meets i m s :=
  ⟨.ocld ⟨h64, 7, .v 1 true false⟩, _, _, stR, rfl, meets_of (by decide +kernel) trivial⟩
theorem witness_MarkResults_handler : ∃ i m also s, markSem i = some (m, also) ∧ (s.wave 0).dm = .k1 ∧ Meets i m s :=
  ⟨.femark ⟨h64, .full, true, .s 126⟩, _, _,
    stW fun w => { w with dm := .k1, h := some { entry := 0, cause := 1, cls := .t, pc := 0, mask := 1, stack := [], st := .running, wait := .none } }
    , rfl, by decide +kernel, meets_of (by decide +kernel) (Or.inr (by decide +kernel))⟩

theorem lanes_of {m : Mask} {P : Nat → Prop} (h : ∀ l < 64, m.getLsbD l = true → P l) (l : Nat) (x : m.getLsbD l = true) : P l :=
  if k : l < 64 then h l k x else absurd x (by simp [BitVec.getLsbD_of_ge m l (by omega)])

def stBra : State := stW fun w => { w with p := [(2, 0x5555555555555555)] }
def hdrBra : Hdr := { form := .f96, gneg := false, gp := 2 }
/-- Even lanes go, odd ones stay, and one record is deferred. -/
theorem witness_BranchResults : ∃ i b s, branchSem i = some b ∧ i.wf = true ∧ Issuing s ∧ s.CaptureOk b.u ∧ Clear s b.u b.h ∧
    b.ok s (s.issQ b.u b.h) ∧ (s.issQ b.u b.h).part ≠ 0 ∧ (s.issQ b.u b.h).part ≠ (s.issQ b.u b.h).f.mask :=
  have y := ready_of (i := .bra ⟨hdrBra, -8⟩) (s := stBra) (u := ctl) (h := hdrBra) (by decide +kernel)
  ⟨.bra ⟨hdrBra, -8⟩, _, stBra, rfl, y.1, y.2.1, y.2.2.1, y.2.2.2.1, ⟨lanes_of (by decide +kernel), by decide +kernel⟩, y.2.2.2.2, by decide +kernel⟩
def stRet : State := stW (setSc 4 0xFFFFFFFFFFFFFFF8)
theorem witness_BranchResults_target : ∃ i b s, branchSem i = some b ∧ i.wf = true ∧ Issuing s ∧ s.CaptureOk b.u ∧ Clear s b.u b.h ∧
    b.ok s (s.issQ b.u b.h) ∧ (s.issQ b.u b.h).part ≠ 0 :=
  have y := ready_of (i := .ret ⟨h64, sc4⟩) (s := stRet) (u := { ctl with srcs := [⟨.s 4 false false, 2, 1⟩] }) (h := h64) (by decide +kernel)
  ⟨.ret ⟨h64, sc4⟩, _, stRet, rfl, y.1, y.2.1, y.2.2.1, y.2.2.2.1, ⟨lanes_of (by decide +kernel), by decide +kernel⟩, y.2.2.2.2⟩
/-- No lane takes part in a branch. -/
theorem witness_BranchResults_none : ∃ i b s, branchSem i = some b ∧ i.wf = true ∧ Issuing s ∧ s.CaptureOk b.u ∧ Clear s b.u b.h ∧
    (s.issQ b.u b.h).part = 0 :=
  ⟨.bra ⟨{ h96 with gneg := true }, -8⟩, _, stR, rfl, by decide +kernel, issuing_of (by decide +kernel), .inl (by decide +kernel), clear_of (by decide +kernel),
    by decide +kernel⟩

/-- The same wave in a team changed by `g`, its fragment issuing. -/
def stTW (g : Team → Team) (f : Wave → Wave) : State := issue0 ((base.modTeam 0 g).modWave 0 f)

theorem witness_WaitsStart : ∃ s i m also, waitSem s i = some (m, also) ∧ Meets i m s :=
  ⟨stR, .sleep ⟨h64, sc4⟩, _, _, rfl, meets_of (by decide +kernel) trivial⟩
/-- The last 16 bytes of a local memory. -/
def stBara : State := stTW (fun t => { t with lsize := 32 }) (setSc 4 16)
theorem witness_WaitsStart_bara : ∃ s i m also, waitSem s i = some (m, also) ∧ Meets i m s :=
  ⟨stBara, .bara ⟨h64, 3, sc4, none⟩, _, _, rfl, meets_of (by decide +kernel) (by decide +kernel)⟩
theorem witness_WaitsStart_barw : ∃ s i m also, waitSem s i = some (m, also) ∧ Meets i m s :=
  ⟨stBara, .barw ⟨h64, sc4, .imm 1⟩, _, _, rfl, meets_of (by decide +kernel) (by decide +kernel)⟩
theorem witness_WaitsStart_bar : ∃ s i m also, waitSem s i = some (m, also) ∧ Meets i m s :=
  ⟨stR, .bar ⟨h64⟩, _, _, rfl, meets_of (by decide +kernel) trivial⟩
def stGbar : State := stTW (fun t => { t with cores := true }) id
theorem witness_WaitsStart_gbar : ∃ s i m also, waitSem s i = some (m, also) ∧ Meets i m s :=
  ⟨stGbar, .gbar ⟨h64⟩, _, _, rfl, meets_of (by decide +kernel) trivial⟩
/-- A request of no bytes from global to local memory, in the last 32 bytes, on the last counter. -/
def stCpy : State := stTW (fun t => { t with lsize := 32 }) (setSc 5 63)
theorem witness_WaitsStart_cpy : ∃ s i m also, waitSem s i = some (m, also) ∧ Meets i m s :=
  ⟨stCpy, .cpy ⟨h64, .device, 3, .zero, .s 5 false false⟩, _, _, rfl, meets_of (by decide +kernel) (by decide +kernel)⟩
theorem witness_WaitsStart_timeline : ∃ s i m also, waitSem s i = some (m, also) ∧ Meets i m s :=
  ⟨stCpy, .tlwait ⟨h64, .system, .s 5 false false, .zero⟩, _, _, rfl, meets_of (by decide +kernel) (by decide +kernel)⟩
theorem witness_WaitsStart_advance : ∃ s i m also, waitSem s i = some (m, also) ∧ Meets i m s :=
  ⟨stCpy, .tladv ⟨h64, .system, .s 5 false false, .zero⟩, _, _, rfl, meets_of (by decide +kernel) (by decide +kernel)⟩
/-- A task of one team of the same object, at the deepest level that may still spawn. -/
def stSpawn : State := stTW (fun t => { t with depth := 7 }) (setQuad 4 1 0 0x100010001 0)
theorem witness_WaitsStart_spawn : ∃ s i m also, waitSem s i = some (m, also) ∧ Meets i m s :=
  ⟨stSpawn, .spawn ⟨h64, 3, 4, (false, false)⟩, _, _, rfl, meets_of (by decide +kernel) (by decide +kernel)⟩

def waitingW (x : Wait) (w : Wave) : Wave := { w with frags := w.frags.map fun f => { f with st := .waiting, wait := x } }
theorem witness_WaitsEnd : ∃ (s : State) (r : FragRef) (w : Wave) (f : Frag),
    Tab.get? s.waves r.wave = some w ∧ w.frags.find? (fun g => g.entry == r.entry) = some f ∧ f.st = .waiting ∧ f.wake ≤ s.clock ∧ f.wait = .yield :=
  ⟨base.modWave 0 (waitingW .yield), ⟨0, 0⟩, _, _, rfl, rfl, rfl, by decide +kernel, rfl⟩
theorem witness_WaitsEnd_sleep : ∃ (s : State) (r : FragRef) (w : Wave) (f : Frag),
    Tab.get? s.waves r.wave = some w ∧ w.frags.find? (fun g => g.entry == r.entry) = some f ∧ f.st = .waiting ∧ f.wake ≤ s.clock ∧ f.wait = .sleep :=
  ⟨base.modWave 0 (waitingW .sleep), ⟨0, 0⟩, _, _, rfl, rfl, rfl, by decide +kernel, rfl⟩

/-- The hypotheses of `Runs`. -/
def MeetsRun (i : Instr) (h : Hdr) (u : Uses) (ok : State → Iss → Prop) (s : State) : Prop :=
  i.wf = true ∧ Issuing s ∧ s.CaptureOk u ∧ Clear s u h ∧ (s.issQ u h).part ≠ 0 ∧ ok s (s.issQ u h)
theorem run_of {i : Instr} {h : Hdr} {u : Uses} {ok : State → Iss → Prop} {s : State} (y : readyB i s u h = true) (k : ok s (s.issQ u h)) :
    MeetsRun i h u ok s :=
  have z := ready_of y
  ⟨z.1, z.2.1, z.2.2.1, z.2.2.2.1, z.2.2.2.2, k⟩

theorem witness_HingeResults : ∃ s, MeetsRun (.hinge ⟨h64, 1⟩) h64 ctl (fun _ _ => True) s := ⟨stR, run_of (by decide +kernel) trivial⟩
/-- The top of the stack is deferred, or bound to this hinge. -/
def stRec (b : Option (Nat × Nat)) : State :=
  stW fun w => { w with frags := w.frags.map fun f => { f with stack := [{ mask := 2, pc := 0x10040, bound := b, arrived := 4 }] } }
theorem witness_HingeResults_deferred : ∃ s, MeetsRun (.hinge ⟨h64, 1⟩) h64 ctl (fun _ k => k.f.stack.length = 1) s := ⟨stRec none, run_of (by decide +kernel) (by decide +kernel)⟩
theorem witness_HingeResults_bound : ∃ s, MeetsRun (.hinge ⟨h64, 1⟩) h64 ctl (fun _ k => (k.f.stack.map Rec.bound) = [some (0x10000, 1)]) s :=
  ⟨stRec (some (0x10000, 1)), run_of (by decide +kernel) (by decide +kernel)⟩
/-- A second fragment, held at the same hinge. -/
def stHeld : State := stW fun w => { w with frags := w.frags ++ [{ entry := 1, pc := 0x10000, mask := 2, st := .held 0x10000 1 }] }
theorem witness_HingeResults_held : ∃ s, MeetsRun (.hinge ⟨h64, 1⟩) h64 ctl (fun _ k => k.w.frags.length = 2) s := ⟨stHeld, run_of (by decide +kernel) (by decide +kernel)⟩

theorem not_pending {l : List Frag} (h : (l.all fun g => match g.st with
    | .pending _ => false
    | _ => true) = true) : ∀ g ∈ l, ∀ c, g.st ≠ .pending c := fun g m c e => by simpa [e] using List.all_eq_true.mp h g m
theorem witness_EndResults : ∃ s, MeetsRun (.endFrag ⟨h64⟩) h64 ctl
    (fun _ k => k.hm = false ∧ (∀ g ∈ k.w.frags, ∀ c, g.st ≠ .pending c) ∧ k.w.owesMatrix = false ∧ k.w.frags.Pairwise fun a b => a.entry ≠ b.entry) s :=
  ⟨stHeld, run_of (by decide +kernel) ⟨by decide +kernel, not_pending (by decide +kernel), by decide +kernel, by decide +kernel⟩⟩

/-- The trap vector table, at address 0 of the context, names a handler at `0x10100` for these causes. -/
def withVec (cs : List Nat) (s : State) : State := { s with mem := cs.foldl (fun m c => m.setNum (8 * c) 8 0x10101) s.mem }
def stVec (f : Wave → Wave) : State := issue0 ((withVec [1, 10, 24, 25] base).modWave 0 f)
theorem witness_SoftwareTraps : ∃ s, MeetsRun (.brkpt ⟨h64, 255⟩) h64 ctl (fun s k => k.w.h = none ∧ Handled s k 24 ∧ Recordable s k) s :=
  ⟨stVec id, run_of (by decide +kernel) ⟨by decide +kernel, by unfold Handled; decide +kernel, by unfold Recordable; decide +kernel⟩⟩
theorem witness_SoftwareTraps_trap : ∃ s, MeetsRun (.trap ⟨h64, 255⟩) h64 ctl (fun s k => k.w.h = none ∧ Handled s k 25 ∧ Recordable s k) s :=
  ⟨stVec id, run_of (by decide +kernel) ⟨by decide +kernel, by unfold Handled; decide +kernel, by unfold Recordable; decide +kernel⟩⟩
theorem witness_TrapEntry : ∃ (s : State) (h : Hdr) (c : Nat), Issuing s ∧ 1 ≤ c ∧ c ≤ 51 ∧ (s.issOf h).w.h = none ∧ Handled s (s.issOf h) c :=
  ⟨stVec id, h64, 1, issuing_of (by decide +kernel), by decide, by decide, by decide +kernel, by unfold Handled; decide +kernel⟩
theorem witness_TrapEntry_unhandled : ∃ (s : State) (h : Hdr) (c : Nat), Issuing s ∧ 1 ≤ c ∧ c ≤ 51 ∧ (s.issOf h).w.h = none ∧ ¬ Handled s (s.issOf h) c
    ∧ s.nextId ≠ (s.issOf h).w.team ∧ ∀ e ∈ s.teams, e.1 < s.nextId :=
  ⟨stVec id, h64, 51, issuing_of (by decide +kernel), by decide, by decide, by decide +kernel, by unfold Handled; decide +kernel, by decide +kernel, by decide +kernel⟩
/-- Another fragment of the wave is in handler mode. -/
def stOther : State := stHeld.modWave 0 fun w => { w with h := some { entry := 1, cause := 24, cls := .t, pc := 0x10008, mask := 2, stack := [], st := .running, wait := .none } }
theorem witness_TrapEntry_pending : ∃ (s : State) (h : Hdr) (cause : Nat) (c : HCtx), Issuing s ∧ 1 ≤ cause ∧ cause ≤ 51 ∧ (s.issOf h).w.h = some c ∧
    c.entry ≠ s.cur.entry := ⟨stOther, h64, 51, _, issuing_of (by decide +kernel), by decide, by decide, rfl, by decide +kernel⟩

/-- In the handler of a cause. -/
def hctx (c : TClass) (op : Option Nat) : HCtx :=
  { entry := 0, cause := 24, cls := c, pc := 0x10008, mask := 1, stack := [], st := .running, wait := .none, op := op, lo := 0x10000, hi := 0x20000 }
def stHm (c : TClass) (op : Option Nat) : State := stW fun w => { w with h := some (hctx c op) }
theorem witness_TrapEntry_handler : ∃ (s : State) (h : Hdr) (c : Nat), Issuing s ∧ 1 ≤ c ∧ c ≤ 51 ∧ (s.issOf h).hm = true
    ∧ s.nextId ≠ (s.issOf h).w.team ∧ ∀ e ∈ s.teams, e.1 < s.nextId :=
  ⟨stHm .t none, h64, 24, issuing_of (by decide +kernel), by decide, by decide, by decide +kernel, by decide +kernel, by decide +kernel⟩

/-- Each way that `RETH` can resume. -/
def RethMeets (x : Reth) (c : HCtx) (s : State) : Prop := MeetsRun (.reth x) x.h ctl
  (fun _ k => k.hm = true ∧ k.w.h = some c ∧ (∀ z, c.st ≠ .pending z) ∧ (rethResume x.m c).isSome = true ∧ ∀ g ∈ k.w.frags, ∀ z, g.st ≠ .pending z) s
theorem witness_RethResults_default : ∃ x c s, RethMeets x c s :=
  ⟨⟨h64, .dflt⟩, _, stHm .h none, run_of (by decide +kernel) ⟨by decide +kernel, rfl, nofun, by decide +kernel, not_pending (by decide +kernel)⟩⟩
theorem witness_RethResults : ∃ x c s, RethMeets x c s :=
  ⟨⟨h64, .rs⟩, _, stHm .t none, run_of (by decide +kernel) ⟨by decide +kernel, rfl, nofun, by decide +kernel, not_pending (by decide +kernel)⟩⟩
theorem witness_RethResults_next : ∃ x c s, RethMeets x c s ∧ c.cls = .a :=
  ⟨⟨h64, .nx⟩, _, stHm .a none, run_of (by decide +kernel) ⟨by decide +kernel, rfl, nofun, by decide +kernel, not_pending (by decide +kernel)⟩, rfl⟩
theorem witness_RethResults_at : ∃ x c s, RethMeets x c s :=
  ⟨⟨h64, .pc⟩, _, stHm .t none, run_of (by decide +kernel) ⟨by decide +kernel, rfl, nofun, by decide +kernel, not_pending (by decide +kernel)⟩⟩
theorem witness_TermResults : ∃ s, MeetsRun (.term ⟨h64⟩) h64 ctl (fun _ k => k.w.owesMatrix = false) s := ⟨stR, run_of (by decide +kernel) (by decide +kernel)⟩
theorem witness_TermResults_team : ∃ s, MeetsRun (.termTeam ⟨h64⟩) h64 ctl (fun s k => k.w.team < s.nextId ∧ (∀ e ∈ s.teams, e.1 < s.nextId)
    ∧ (Tab.get? s.teams k.w.team).isSome = true) s := ⟨stR, run_of (by decide +kernel) (by decide +kernel)⟩
def stReplay : State := stW fun w => { w with h := some { hctx .h (some 9) with cause := 35 } }
theorem witness_RethResults_replay : ∃ x c s, RethMeets x c s ∧ rethResume x.m c = some .replay :=
  ⟨⟨h64, .dflt⟩, _, stReplay, run_of (by decide +kernel) ⟨by decide +kernel, rfl, nofun, by decide +kernel, not_pending (by decide +kernel)⟩, by decide +kernel⟩
/-- The next PC of an instruction at the end of the address space has no pointer: `$trapnext` is 0. -/
theorem witness_RethResults_past : ∃ x c s, RethMeets x c s ∧ rethResume x.m c = some .next ∧ low57 (Tab.getD 0 (s.wave 0).trec 34) = 0 ∧ 2 ^ 57 ≤ c.pc :=
  ⟨⟨h64, .nx⟩, _, stW fun w => { w with h := some { hctx .a none with pc := 2 ^ 57 + (2 ^ 57 - 8) } },
    run_of (by decide +kernel) ⟨by decide +kernel, rfl, nofun, by decide +kernel, not_pending (by decide +kernel)⟩, by decide +kernel, by decide +kernel, by decide⟩

/-! Accesses to memory -/

def reachesB (s : State) (i : Iss) (instr : Instr) (ls : List LaneAcc) : Bool := ls.all fun l =>
  match s.atcOf (i.w.core / 40) (s.team i.w.team).pasid (low57 l.va) with
  | none => false
  | some e => e.allows instr && decide (s.kindOf (s.located i l).pa ≠ .reserved) &&
      (!remote (s.located i l).pa || s.carries instr (s.located i l).pa)
theorem reaches_of {s : State} {i : Iss} {instr : Instr} {ls : List LaneAcc} (h : reachesB s i instr ls = true) : Reaches s i instr ls := by
  intro l m
  have y := List.all_eq_true.mp h l m
  revert y
  cases s.atcOf (i.w.core / 40) (s.team i.w.team).pasid (low57 l.va) with
  | none => exact nofun
  | some e =>
    intro y
    simp only [Bool.and_eq_true, decide_eq_true_eq] at y
    exact ⟨e, rfl, y.1.1, y.1.2, fun z => by simpa [z] using y.2⟩

def freshB (s : State) : Bool := s.ops.all fun o => decide (o.id < s.nextId)
theorem fresh_of {s : State} (h : freshB s = true) : FreshIds s := fun o m => by simpa using List.all_eq_true.mp h o m

def gaB (g : GA) (s : State) (i : Iss) : Bool :=
  let q := recOf i g.r
  freshB s && !s.memHeld i && !rcBad q g.n && (!(if g.wr then rcStTrap q else rcLdTrap q) || (g.oob i).isEmpty)
    && ((g.inb i).all fun l => decide (l.va.toNat % g.n = 0) && (!g.wr || !(s.ctx (s.team i.w.team).pasid).sealed l.va))
    && (g.releases || reachesB s i g.instr (g.inb i))
theorem ga_of {i : Instr} {g : GA} {s : State} (y : readyB i s g.uses g.h = true) (k : gaB g s (s.issQ g.uses g.h) = true) : Meets i g.sem.1 s := by
  refine meets_of (i := i) (m := g.sem.1) y ?_
  simp only [gaB, Bool.and_eq_true, Bool.not_eq_true', Bool.or_eq_true, List.isEmpty_iff, List.all_eq_true, decide_eq_true_eq] at k
  obtain ⟨⟨⟨⟨⟨a, b⟩, c⟩, d⟩, e⟩, f⟩ := k
  refine ⟨fresh_of a, b, c, fun z => ?_, fun l m => ⟨(e l m).1, fun z => ?_⟩, f.imp id reaches_of⟩
  · exact d.resolve_left fun e => absurd (z.symm.trans e) nofun
  · exact (e l m).2.resolve_left (by rw [z]; exact nofun)

/-- A record of 64 elements of 16 bytes at `0x18000` in scalars 4 to 7; vector 1 holds each lane's number. -/
def recW (flags : DWord) (w : Wave) : Wave := setVec 1 (fun l => BitVec.ofNat 32 l) (setQuad 4 0x18000 0x1000000040 (0x100 ||| flags) 0 w)
def stG : State := stW (recW 0)
/-- The same with one element fewer, so that the last lane is dropped. -/
def stDrop : State := stW (setSc 5 0x100000003F ∘ recW 0)
def addr (d : Src) : AtomAddr := ⟨false, 4, (false, false), v1, d, 0, mf0⟩

theorem witness_AccessesSetOut : ∃ i g s, gaOf i = some g ∧ Meets i g.sem.1 s :=
  ⟨.ld ⟨h64, .q, .raw, false, 8, 4, (false, false), v1, 0, mf0⟩, _, stG, rfl, ga_of (by decide +kernel) (by decide +kernel)⟩
theorem witness_AccessesSetOut_dropped : ∃ i g s, gaOf i = some g ∧ Meets i g.sem.1 s ∧ (g.oob (s.issQ g.uses g.h)).length = 1 :=
  ⟨.ld ⟨h64, .w, .raw, false, 8, 4, (false, false), v1, 0, mf0⟩, _, stDrop, rfl, ga_of (by decide +kernel) (by decide +kernel), by decide +kernel⟩
theorem witness_AccessesSetOut_store : ∃ i g s, gaOf i = some g ∧ Meets i g.sem.1 s :=
  ⟨.st ⟨h96, .w, .raw, false, 4, (false, false), v1, v1, 0, mf0⟩, _, stG, rfl, ga_of (by decide +kernel) (by decide +kernel)⟩
theorem witness_AccessesSetOut_release : ∃ i g s, gaOf i = some g ∧ g.releases = true ∧ Meets i g.sem.1 s :=
  ⟨.st ⟨h128, .w, .raw, false, 4, (false, false), v1, v1, 0, { mf0 with ord := .rel, scope := .system }⟩, _, stG, rfl, by decide +kernel,
    ga_of (by decide +kernel) (by decide +kernel)⟩
theorem witness_AccessesSetOut_scalar : ∃ i g s, gaOf i = some g ∧ Meets i g.sem.1 s :=
  ⟨.ldsc ⟨h64, 1, 8, 4, (false, false), .zero, 0, mf0⟩, _, stG, rfl, ga_of (by decide +kernel) (by decide +kernel)⟩
theorem witness_AccessesSetOut_query : ∃ i g s, gaOf i = some g ∧ Meets i g.sem.1 s :=
  ⟨.parkq ⟨h64, 8, 4, (false, false), .zero, 0⟩, _, stG, rfl, ga_of (by decide +kernel) (by decide +kernel)⟩
theorem witness_AccessesSetOut_atomic : ∃ i g s, gaOf i = some g ∧ Meets i g.sem.1 s :=
  ⟨.atomI ⟨h96, .max, .s64, 8, addr (.v 4 false false)⟩, _, stG, rfl, ga_of (by decide +kernel) (by decide +kernel)⟩
theorem witness_AccessesSetOut_float : ∃ i g s, gaOf i = some g ∧ Meets i g.sem.1 s :=
  ⟨.atomF ⟨h96, .add, false, 8, addr v1⟩, _, stG, rfl, ga_of (by decide +kernel) (by decide +kernel)⟩
theorem witness_AccessesSetOut_cas : ∃ i g s, gaOf i = some g ∧ Meets i g.sem.1 s :=
  ⟨.atomCas ⟨h96, .b128, 8, addr (.v 16 false false)⟩, _, stG, rfl, ga_of (by decide +kernel) (by decide +kernel)⟩
theorem witness_AccessesSetOut_packed : ∃ i g s, gaOf i = some g ∧ Meets i g.sem.1 s :=
  ⟨.atomX2 ⟨h96, .min, true, 8, addr v1⟩, _, stG, rfl, ga_of (by decide +kernel) (by decide +kernel)⟩
theorem witness_AccessesSetOut_reduction : ∃ i g s, gaOf i = some g ∧ Meets i g.sem.1 s :=
  ⟨.red ⟨h96, .addF64, addr (.v 4 false false)⟩, _, stG, rfl, ga_of (by decide +kernel) (by decide +kernel)⟩

/-- 256 bytes of local memory; vector 3 holds four times each lane's number. -/
def stL : State := stTW (fun t => { t with lsize := 256 }) (setVec 3 fun l => BitVec.ofNat 32 (4 * l))
def v3 : Src := .v 3 false false
theorem local_ok {s : State} {i : Iss} {a : Src} {off : BitVec 32} {n : Nat} {st : Bool} (f : freshB s = true) (q : s.memHeld i = false)
    (h : ∀ l < 64, i.part.getLsbD l = true →
      0 ≤ localOff i a off l ∧ localOff i a off l + n ≤ (s.team i.w.team).lsize ∧ localOff i a off l % n = 0)
    (b : s.localBusy i.w st (localRanges i n a off) = false) : LocalOk s i a off n st := ⟨fresh_of f, q, lanes_of h, b⟩
theorem witness_LocalResults : ∃ i m also s, localSem i = some (m, also) ∧ Meets i m s :=
  ⟨.lds ⟨h64, .w, .raw, 8, v3, 0⟩, _, _, stL, rfl, meets_of (by decide +kernel)
    (local_ok (by decide +kernel) (by decide +kernel) (by decide +kernel) (by decide +kernel))⟩
theorem witness_LocalResults_store : ∃ i m also s, localSem i = some (m, also) ∧ Meets i m s :=
  ⟨.sts ⟨h64, .w, .raw, v3, v1, 0⟩, _, _, stL, rfl, meets_of (by decide +kernel)
    (local_ok (by decide +kernel) (by decide +kernel) (by decide +kernel) (by decide +kernel))⟩
theorem witness_LocalResults_atomic : ∃ i m also s, localSem i = some (m, also) ∧ Meets i m s :=
  ⟨.atoms ⟨h96, .cas .z32, 8, v3, v1, some v2, 0⟩, _, _, stL, rfl, meets_of (by decide +kernel)
    (local_ok (by decide +kernel) (by decide +kernel) (by decide +kernel) (by decide +kernel))⟩
/-- The last 2,048 bytes of a local memory, aligned for a swizzle. -/
def stT : State := stTW (fun t => { t with lsize := 2304 }) (setSc 4 256)
theorem witness_LocalResults_tile : ∃ i m also s, localSem i = some (m, also) ∧ Meets i m s :=
  ⟨.ldt ⟨h64, true, 15, sc4⟩, _, _, stT, rfl, meets_of (by decide +kernel)
    ⟨by decide +kernel, by decide +kernel, by decide +kernel, by decide +kernel⟩⟩
theorem witness_LocalResults_transposed : ∃ i m also s, localSem i = some (m, also) ∧ Meets i m s :=
  ⟨.ldtt ⟨h64, true, 0, sc4⟩, _, _, stT, rfl, meets_of (by decide +kernel)
    ⟨by decide +kernel, by decide +kernel, by decide +kernel, by decide +kernel⟩⟩
theorem witness_LocalResults_tileStore : ∃ i m also s, localSem i = some (m, also) ∧ Meets i m s :=
  ⟨.stt ⟨h64, false, 0, sc4⟩, _, _, stT, rfl, meets_of (by decide +kernel)
    ⟨by decide +kernel, by decide +kernel, by decide +kernel, by decide +kernel⟩⟩

/-- What `RangeWaits` asks. -/
def MeetsRange (i : Instr) (h : Hdr) (u : Uses) (ok : State → Iss → Prop) (vas : Iss → List DWord) (s : State) : Prop :=
  MeetsRun i h u (fun s k => ok s k ∧ FreshIds s ∧ Reaches s k i (linesOf (vas k)) ∧ ∃ c ∈ s.ctxs, c.pasid = (s.team k.w.team).pasid) s
/-- A range of two lines, and one of a page. -/
def stRange : State := stW (setSc 8 0x10000 ∘ setSc 9 4096 ∘ recW 0)
def s8 : Src := .s 8 false false
def s9 : Src := .s 9 false false
theorem witness_RangeWaits : ∃ i h u ok vas seals s, rangeSem i = some (h, u, ok, vas, seals) ∧ MeetsRange i h u ok vas s :=
  ⟨.cwb ⟨h96, false, 4, (false, false), .zero, .imm 255, 0⟩, _, _, _, _, _, stRange, rfl, run_of (by decide +kernel)
    ⟨⟨by decide +kernel, by decide +kernel⟩, fresh_of (by decide +kernel), reaches_of (by decide +kernel), by decide +kernel⟩⟩
theorem witness_RangeWaits_seal : ∃ i h u ok vas seals s, rangeSem i = some (h, u, ok, vas, seals) ∧ MeetsRange i h u ok vas s :=
  ⟨.seal ⟨h64, s8, s9⟩, _, _, _, _, _, stRange, rfl, run_of (by decide +kernel)
    ⟨⟨by decide +kernel, by decide +kernel, by decide +kernel⟩, fresh_of (by decide +kernel), reaches_of (by decide +kernel), by decide +kernel⟩⟩
theorem witness_RangeWaits_unseal : ∃ i h u ok vas seals s, rangeSem i = some (h, u, ok, vas, seals) ∧ MeetsRange i h u ok vas s :=
  ⟨.unseal ⟨h64, s8, s9⟩, _, _, _, _, _, stRange, rfl, run_of (by decide +kernel)
    ⟨⟨by decide +kernel, by decide +kernel, by decide +kernel⟩, fresh_of (by decide +kernel), reaches_of (by decide +kernel), by decide +kernel⟩⟩
theorem witness_IssueEffects : ∃ i h u ok also s, cacheSem i = some (h, u, ok, also) ∧ MeetsRun i h u ok s :=
  ⟨.ipin ⟨h64, true, s8, s9⟩, _, _, _, _, stRange, rfl, run_of (by decide +kernel) (by decide +kernel)⟩
theorem witness_IssueEffects_prefetch : ∃ i h u ok also s, cacheSem i = some (h, u, ok, also) ∧ MeetsRun i h u ok s :=
  ⟨.pf ⟨h96, true, 4, (false, false), .zero, .imm 255, 0⟩, _, _, _, _, stRange, rfl, run_of (by decide +kernel) ⟨by decide +kernel, by decide +kernel⟩⟩
theorem witness_IssueEffects_count : ∃ i h u ok also s, cacheSem i = some (h, u, ok, also) ∧ MeetsRun i h u ok s :=
  ⟨.cntclr ⟨h64, sc4⟩, _, _, _, _, stRange, rfl, run_of (by decide +kernel) trivial⟩
theorem witness_IssueEffects_core : ∃ i h u ok also s, cacheSem i = some (h, u, ok, also) ∧ MeetsRun i h u ok s ∧
    0x500 ≤ ((s.issQ u h).s64 sc4).toNat % 2 ^ 12 ∧ ((s.issQ u h).s64 sc4).toNat % 2 ^ 12 < 0x505 ∧ (s.issQ u h).w.core < Config.cores ∧ (s.issQ u h).w.q < 4 :=
  ⟨.cntclr ⟨h64, sc4⟩, _, _, _, _, stW (setSc 4 0x504), rfl, run_of (by decide +kernel) trivial, by decide +kernel, by decide +kernel, by decide +kernel,
    by decide +kernel⟩

/-! Placement, queues, exchange, proposals and matrix instructions -/

/-- Bearing 1 of the context is valid and names a set of cores. -/
def withBear (s : State) : State := { s with mem := s.mem.setNum (s.bearAddr 0 1) 32 (2 ^ 255) }
def stB : State := issue0 ((withBear base).modWave 0 (setQuad 8 0 0 0 (2 ^ 63) ∘ setSc 5 159 ∘ setSc 6 255))
theorem witness_PlacementResults : ∃ i m also s, placeSem i = some (m, also) ∧ Meets i m s :=
  ⟨.brset ⟨h64, .s 6 false false, 8, (false, false)⟩, _, _, stB, rfl, meets_of (by decide +kernel)
    ⟨by decide +kernel, by decide +kernel, by decide +kernel, by decide +kernel⟩⟩
theorem witness_PlacementResults_add : ∃ i m also s, placeSem i = some (m, also) ∧ Meets i m s :=
  ⟨.bradd ⟨h64, .imm 1, .s 5 false false⟩, _, _, stB, rfl, meets_of (by decide +kernel)
    ⟨by decide +kernel, by decide +kernel, by decide +kernel, by decide +kernel⟩⟩
theorem witness_PlacementResults_delete : ∃ i m also s, placeSem i = some (m, also) ∧ Meets i m s :=
  ⟨.brdel ⟨h64, .imm 1, .s 5 false false⟩, _, _, stB, rfl, meets_of (by decide +kernel)
    ⟨by decide +kernel, by decide +kernel, by decide +kernel, by decide +kernel⟩⟩
theorem witness_PlacementResults_read : ∃ i m also s, placeSem i = some (m, also) ∧ Meets i m s :=
  ⟨.brrd ⟨h64, 12, .s 6 false false⟩, _, _, stB, rfl, meets_of (by decide +kernel) ⟨by decide +kernel, by decide +kernel⟩⟩

/-- Queue 0 of the team is produced by the wave's role and holds these entries. -/
def stQ (es : List Lanes) : State := stTW (fun t => { t with prod := [(0, 0)], q := [(0, es)] }) (setVec 1 fun l => BitVec.ofNat 32 l)
theorem witness_QueueResults : ∃ s i m also, queueSem s i = some (m, also) ∧ Meets i m s :=
  ⟨stQ (List.replicate 7 []), .qpush ⟨h64, 0, v1, none⟩, _, _, rfl, meets_of (by decide +kernel) trivial⟩
theorem witness_QueueResults_full : ∃ s i m also, queueSem s i = some (m, also) ∧ Meets i m s :=
  ⟨stQ (List.replicate 8 []), .qpush ⟨h64, 0, v1, some 2⟩, _, _, rfl, meets_of (by decide +kernel) (by decide +kernel)⟩
theorem witness_QueueResults_room : ∃ s i m also, queueSem s i = some (m, also) ∧ Meets i m s :=
  ⟨stQ (List.replicate 7 []), .qpush ⟨h64, 0, v1, some 2⟩, _, _, rfl, meets_of (by decide +kernel) (by decide +kernel)⟩
theorem witness_QueueResults_empty : ∃ s i m also, queueSem s i = some (m, also) ∧ Meets i m s :=
  ⟨stQ [], .qpop ⟨h64, 8, 0, false, some 2⟩, _, _, rfl, meets_of (by decide +kernel) (fresh_of (by decide +kernel))⟩
theorem witness_QueueResults_pop : ∃ s i m also, queueSem s i = some (m, also) ∧ Meets i m s :=
  ⟨stQ [mkLanes fun _ => 9], .qpop ⟨h64, 8, 0, false, none⟩, _, _, rfl, meets_of (by decide +kernel) (fresh_of (by decide +kernel))⟩
theorem witness_QueueResults_popNb : ∃ s i m also, queueSem s i = some (m, also) ∧ Meets i m s :=
  ⟨stQ [mkLanes fun _ => 9], .qpop ⟨h64, 8, 0, false, some 2⟩, _, _, rfl, meets_of (by decide +kernel) (fresh_of (by decide +kernel))⟩
theorem witness_QueueResults_count : ∃ s i m also, queueSem s i = some (m, also) ∧ Meets i m s :=
  ⟨stQ [], .qcnt ⟨h64, 3, 0⟩, _, _, rfl, meets_of (by decide +kernel) trivial⟩
theorem witness_QueueResults_captured : ∃ s i m also, queueSem s i = some (m, also) ∧ Meets i m s :=
  ⟨stHm .f none, .rdtr ⟨h64, 8, .none, .imm 5⟩, _, _, rfl, meets_of (by decide +kernel) (by decide +kernel)⟩
theorem witness_QueueResults_capturedAddress : ∃ s i m also, queueSem s i = some (m, also) ∧ Meets i m s :=
  ⟨stHm .f none, .rdtr ⟨h64, 8, .none, .zero⟩, _, _, rfl, meets_of (by decide +kernel) (by decide +kernel)⟩
theorem witness_QueueResults_counter : ∃ s i m also, queueSem s i = some (m, also) ∧ Meets i m s :=
  ⟨stR, .cntrd ⟨h64, 3, sc4⟩, _, _, rfl, meets_of (by decide +kernel) trivial⟩
theorem witness_QueueResults_unlisted : ∃ s i m also, queueSem s i = some (m, also) ∧ Meets i m s ∧ ((s.issQ m.u m.h).s64 sc4).toNat % 2 ^ 12 = 0x4FF :=
  ⟨stW (setSc 4 0x4FF), .cntrd ⟨h64, 3, sc4⟩, _, _, rfl, meets_of (by decide +kernel) trivial, by decide +kernel⟩

theorem witness_Exchanges : ∃ x s, Meets (.xchg x) (xchgSem x).1 s :=
  ⟨⟨h64, 2, 8, .none, v1, sc4⟩, stR, meets_of (by decide +kernel) trivial⟩
/-- Two arrivals of one key, of wave 0 and of a wave 1, and one of another key. -/
def mailX : Xch := { id := 70, wave := 0, pasid := 0, key := 5, vals := [], mask := 3, d := 8, g := 2, box := 5 }
def mailY : Xch := { mailX with id := 71, wave := 1, mask := 1, deposited := true, at? := some 0 }
def stMail (l : List Xch) : State := { base with mail := l, waves := base.waves ++ [(1, { base.wave 0 with id := 1 })] }
theorem witness_Exchanges_match : ∃ s x y, HasMail s x ∧ HasMail s y ∧ x.deposited = false ∧ InTime s x ∧ InTime s y ∧
    s.deposit x = some y ∧ x.wave ≠ y.wave :=
  ⟨stMail [mailX, mailY], mailX, mailY, by unfold HasMail; decide +kernel, by unfold HasMail; decide +kernel, rfl, fun c h => absurd h nofun, fun c h => by
    obtain rfl : 0 = c := by simpa [mailY] using h
    decide +kernel, by decide +kernel, by decide +kernel⟩
theorem witness_Exchanges_deposit : ∃ s x, HasMail s x ∧ x.deposited = false ∧ InTime s x ∧
    (∀ y ∈ s.mail, y.deposited = true → ¬(y.pasid = x.pasid ∧ y.key = x.key)) ∧
    (s.mail.filter fun y => y.deposited && y.box == x.box).length < Config.mailEntries ∧
    (∀ y ∈ s.mail, y.box = x.box → y.deposited = false → y.id ≠ x.id → y.at? = none) :=
  ⟨stMail [mailX], mailX, by unfold HasMail; decide +kernel, rfl, fun c h => absurd h nofun, by decide +kernel, by decide +kernel, by decide +kernel⟩
theorem witness_Exchanges_withdrawal : ∃ s x c, HasMail s x ∧ x.at? = some c ∧ c + 262144 ≤ s.clock :=
  ⟨{ stMail [mailY] with clock := 262144 }, mailY, 0, by unfold HasMail; decide +kernel, rfl, by decide +kernel⟩

/-- Four waves of one team, the last of them issuing; with `b`, all bound to one quad. -/
def stMx (b : Bool) (lsize : Nat) (f : Wave → Wave) : State :=
  issue0 (({ base with waves := (List.range 4).map fun n => (n, { base.wave 0 with
      id := n, num := n, q := n, mx := if b then some { first := 0 } else none }) }.modTeam 0 fun t =>
    { t with waves := [0, 1, 2, 3], lsize := lsize, quads := if b then [{ first := 0 }] else [] }).modWave 0 f)
theorem witness_MatrixResults : ∃ s i m also, matrixSem s i = some (m, also) ∧ Meets i m s :=
  ⟨stMx false 0 id, .mxbind ⟨h64, .zero⟩, _, _, rfl, meets_of (by decide +kernel) (by decide +kernel)⟩
theorem witness_MatrixResults_zero : ∃ s i m also, matrixSem s i = some (m, also) ∧ Meets i m s :=
  ⟨stMx true 0 id, .azero ⟨h64, 0, 7⟩, _, _, rfl, meets_of (by decide +kernel) ⟨_, rfl, by decide +kernel⟩⟩
theorem witness_MatrixResults_move : ∃ s i m also, matrixSem s i = some (m, also) ∧ Meets i m s :=
  ⟨stMx true 0 id, .amov ⟨h64, 15, .intoAcc 7 v1⟩, _, _, rfl, meets_of (by decide +kernel) ⟨_, rfl, by decide +kernel⟩⟩
theorem witness_MatrixResults_step : ∃ s i m also, matrixSem s i = some (m, also) ∧ Meets i m s :=
  ⟨stMx true 0 id, .mxstep ⟨h64, true, 0, 15, true, none⟩, _, _, rfl, meets_of (by decide +kernel)
    ⟨by decide +kernel, _, _, rfl, rfl, Or.inr ⟨by decide +kernel, by decide +kernel, nofun⟩⟩⟩
/-- A loop of two steps over the last bytes of a local memory. -/
def stLoop : State := stMx true 2048 (setSc 4 0 ∘ setSc 5 (2 + 1024 * 2 ^ 16 + 1024 * 2 ^ 32 + 32 * 2 ^ 48))
theorem witness_MatrixResults_loop : ∃ s i m also, matrixSem s i = some (m, also) ∧ Meets i m s :=
  ⟨stLoop, .mxloop ⟨h64, true, sc4, .s 5 false false, none⟩, _, _, rfl, meets_of (by decide +kernel)
    ⟨by decide +kernel, Or.inr ⟨by decide +kernel, by decide +kernel, by decide +kernel, by decide +kernel, by decide +kernel, by decide +kernel, by decide +kernel,
      by decide +kernel⟩, _, _, rfl, rfl, Or.inr ⟨by decide +kernel, by decide +kernel, nofun⟩⟩⟩
theorem witness_MatrixResults_drain : ∃ s i m also, matrixSem s i = some (m, also) ∧ Meets i m s :=
  ⟨stMx true 4096 (setSc 4 0), .adrain ⟨h64, .f32, 7, sc4, .zero, none⟩, _, _, rfl, meets_of (by decide +kernel) (by decide +kernel)⟩
theorem witness_MatrixRelease : ∃ s, MeetsRun (.mxbindRel ⟨h64⟩) h64 ctl (fun _ k => k.w.owesMatrix = false) s := ⟨stMx true 0 id, run_of (by decide +kernel) (by decide +kernel)⟩
theorem witness_AccumulatorEffects : ∃ (s : State) (id : Nat) (w : Wave) (m : Member) (p : AccOp) (r : List AccOp),
    Tab.get? s.waves id = some w ∧ w.away = false ∧ w.mx = some m ∧ m.pend = p :: r ∧ ∀ i, p ≠ .quad i :=
  ⟨stMx true 0 fun w => { w with mx := some { first := 0, n := 1, h := 1, pend := [.azero 0 8] } }, 0, _, _, _, _, rfl, rfl, rfl, rfl, nofun⟩
theorem witness_AccumulatorEffects_move : ∃ (s : State) (id : Nat) (w : Wave) (m : Member) (p : AccOp) (r : List AccOp),
    Tab.get? s.waves id = some w ∧ w.away = false ∧ w.mx = some m ∧ m.pend = p :: r ∧ ∀ i, p ≠ .quad i :=
  ⟨stMx true 0 fun w => { w with mx := some { first := 0, n := 1, h := 1, pend := [.amov 7 15 1 []] } }, 0, _, _, _, _, rfl, rfl, rfl, rfl, nofun⟩
/-- A quad whose members have all come to its oldest operation. -/
def qop (steps : Nat) (busy : Bool) : QuadOp :=
  { i := 1, loop := false, steps := steps, hi := true, snap := 0, busy := busy, who := (List.range 4).map fun n => (n, .step 0 1 false none) }
def quadQ (o : QuadOp) : Quad := { first := 0, ops := [o] }
def stQuad (o : QuadOp) : State :=
  let s := stMx true 0 id
  { s with waves := s.waves.map fun e => (e.1, { e.2 with mx := some { first := 0, n := 1, h := 1, quads := 1, pend := [.quad 1] } })
           teams := s.teams.map fun e => (e.1, { e.2 with quads := [quadQ o] }) }
def matchedB (s : State) (team first : Nat) (o : QuadOp) : Bool :=
  decide ((s.team team).loc = .resident) && decide ((s.members team first).length = 4) && decide (o.who.length = 4)
    && ((s.members team first).all fun w => w.here && match w.mx with
      | some m => decide (m.pend.head? = some (.quad o.i))
      | none => false)
theorem matched_of {s : State} {q : Quad} {o : QuadOp} (a : (s.team 0).quad? 0 = some q) (b : q.ops.head? = some o)
    (h : matchedB s 0 0 o = true) : Matched s 0 0 q o := by
  simp only [matchedB, Bool.and_eq_true, decide_eq_true_eq, List.all_eq_true] at h
  refine ⟨a, b, h.1.1.1, h.1.1.2, h.1.2, fun w m => ⟨(h.2 w m).1, ?_⟩⟩
  have y := (h.2 w m).2
  revert y
  cases w.mx with
  | none => exact nofun
  | some m => exact fun y => ⟨m, rfl, of_decide_eq_true y⟩
theorem witness_MatrixSteps : ∃ s q o, Matched s 0 0 q o ∧ MembersOnce s 0 0 ∧ (q.ops.map QuadOp.i).Nodup ∧ o.busy = false ∧ o.steps ≠ 0 ∧ s.coreClock = true ∧
    ∀ w ∈ s.members 0 0, s.mayIssue w.core = true ∧
      let reads := ((Tab.get? o.who w.num).map (stepReadsLocal (if (snapOf o.snap).planes then 64 else 32) o.next)).getD []
      s.clash 0 false reads = false ∧ s.draining w.id reads = false :=
  ⟨stQuad (qop 1 false), quadQ (qop 1 false), qop 1 false, matched_of (by decide +kernel) (by decide +kernel) (by decide +kernel),
    by unfold MembersOnce; decide +kernel, by decide +kernel, by decide +kernel, by decide +kernel, by decide +kernel, by decide +kernel⟩
theorem witness_MatrixSteps_none : ∃ s q o, Matched s 0 0 q o ∧ MembersOnce s 0 0 ∧ (q.ops.map QuadOp.i).Nodup ∧ o.steps = 0 :=
  ⟨stQuad (qop 0 false), quadQ (qop 0 false), qop 0 false, matched_of (by decide +kernel) (by decide +kernel) (by decide +kernel),
    by unfold MembersOnce; decide +kernel, by decide +kernel, by decide +kernel⟩
theorem witness_MatrixSteps_last : ∃ s q o, Matched s 0 0 q o ∧ MembersOnce s 0 0 ∧ (q.ops.map QuadOp.i).Nodup ∧ o.busy = true ∧ o.next + 1 = o.steps :=
  ⟨stQuad (qop 1 true), quadQ (qop 1 true), qop 1 true, matched_of (by decide +kernel) (by decide +kernel) (by decide +kernel),
    by unfold MembersOnce; decide +kernel, by decide +kernel, by decide +kernel, by decide +kernel⟩

theorem witness_ProposalResults : ∃ s i m also, propSem s i = some (m, also) ∧ Meets i m s :=
  ⟨stR, .propose ⟨h64, 224, 2⟩, _, _, rfl, meets_of (by decide +kernel) (by decide +kernel)⟩
def stProp : State := stW fun w => { w with prop := some { base := 248, n := 8, sh := [(0, mkLanes fun _ => 3)], w := [(0, 1)] } }
theorem win_of {p : Proposal} {P : Nat → Prop} (h : ∀ k < p.n, P (p.base + k)) (n : Nat) (y : p.inWin n = true) : P n := by
  simp only [Proposal.inWin, Bool.and_eq_true, decide_eq_true_eq] at y
  have z := h (n - p.base) (by omega)
  rwa [show p.base + (n - p.base) = n by omega] at z
theorem witness_ProposalResults_accept : ∃ s i m also, propSem s i = some (m, also) ∧ Meets i m s :=
  ⟨stProp, .accept ⟨h64, 2, v1⟩, _, _, rfl, meets_of (by decide +kernel) ⟨by decide +kernel, _, rfl, win_of (by decide +kernel), win_of (by decide +kernel)⟩⟩
theorem witness_ProposalResults_reject : ∃ s i m also, propSem s i = some (m, also) ∧ Meets i m s :=
  ⟨stProp, .reject ⟨h64⟩, _, _, rfl, meets_of (by decide +kernel) ⟨_, rfl, win_of (by decide +kernel), win_of (by decide +kernel)⟩⟩
theorem witness_MatrixSteps_next : ∃ s q o, Matched s 0 0 q o ∧ MembersOnce s 0 0 ∧ (q.ops.map QuadOp.i).Nodup ∧ o.busy = true ∧ o.next + 1 ≠ o.steps :=
  ⟨stQuad (qop 2 true), quadQ (qop 2 true), qop 2 true, matched_of (by decide +kernel) (by decide +kernel) (by decide +kernel),
    by unfold MembersOnce; decide +kernel, by decide +kernel, by decide +kernel, by decide +kernel⟩

/-! Events -/

def opOf (i : Instr) : Op := { id := 60, wave := 0, entry := 0, core := 0, instr := i, size := 4, pasid := 0, nout := 1 }
/-- A drain with two bytes to write. -/
def opDrain : Op := { opOf (.adrain ⟨h64, .f32, 0, sc4, .zero, none⟩) with lbytes := [(0, 1), (4095, 2)], fail := 1 }
theorem witness_LocalCompletions : ∃ (s : State) (wave tile : Nat), (Tab.get? s.waves wave).isSome = true ∧ tile ∈ (s.wave wave).tfill :=
  ⟨base.modWave 0 fun w => { w with tfill := [15] }, 0, 15, by decide +kernel, by decide +kernel⟩
theorem witness_LocalCompletions_drain : ∃ (s : State) (wave : Nat) (w : Wave) (o : Op), Tab.get? s.waves wave = some w ∧
    s.ops.find? (fun o => o.wave == wave && isDrain o) = some o ∧ o.dead = false ∧ (Tab.get? s.teams w.team).isSome = true ∧
    s.clash w.team true (o.lbytes.map fun b => (b.1, 1)) = false ∧ (o.lbytes.map Prod.fst).Nodup :=
  ⟨{ base with ops := [opDrain] }, 0, _, opDrain, rfl, by decide +kernel, rfl, by decide +kernel, by decide +kernel, by decide +kernel⟩

/-- One co-resident team, whose agents have all come to the grid barrier. -/
def stGb (sent : Bool) (f : GBar → GBar) : State :=
  { base with teams := base.teams.map (fun e => (e.1, { e.2 with cores := true, gb := [0], gbSent := sent })), gbars := [f { launch := 0 }] }
theorem witness_GridBarrierSteps : ∃ (s : State) (team : Nat) (t : Team), Tab.get? s.teams team = some t ∧ t.id = team ∧ t.onCore = true ∧
    team ∉ (s.core t.core).shadow ∧ t.gbSent = false ∧ t.gb ≠ [] ∧ ∀ w ∈ t.waves, (s.wave w).live = true → w ∈ t.gb :=
  ⟨stGb false id, 0, _, rfl, rfl, by decide +kernel, by decide +kernel, rfl, by decide +kernel, by decide +kernel⟩
theorem witness_GridBarrierSteps_die : ∃ (s : State) (launch die : Nat), die ∉ (s.gbar launch).dies ∧
    (∃ t ∈ s.teamsOf launch, t.onCore = true ∧ t.core / 40 = die) ∧
    (∀ t ∈ s.teamsOf launch, t.onCore = true → t.core / 40 = die → t.id ∈ (s.gbar launch).teams) :=
  ⟨stGb true fun g => { g with teams := [0] }, 0, 0, by decide +kernel, by decide +kernel, by decide +kernel⟩
theorem witness_GridBarrierSteps_release : ∃ (s : State) (launch die team : Nat) (t : Team), die ∈ (s.gbar launch).rels ∧
    Tab.get? s.teams team = some t ∧ t.id = team ∧ t.launch = launch ∧ t.core / 40 = die ∧ t.gbSent = true ∧ team ∉ (s.gbar launch).teams :=
  ⟨stGb true fun g => { g with rels := [0] }, 0, 0, 0, _, by decide +kernel, rfl, rfl, rfl, by decide +kernel, rfl, by decide +kernel⟩

/-- Empty caches are settled. -/
theorem settled_of {s : State} (a : s.l1 = []) (b : s.l2 = []) : Settled s := by
  refine ⟨by simp [a, b], by simp [b], by simp [b], fun e _ l h => ?_, by simp [a]⟩
  simp [State.berthLine, findLine, a, b] at h

/-- 32 bytes from `0x18000` to local offset 0, without allocating. -/
def rq0 : BitVec 256 := BitVec.ofNat 256 (0x18000 + 32 * 2 ^ 128 + 4 * 2 ^ 186)
def copy0 (running : Bool) (done : Nat) : Copy := { id := 61, core := 0, team := 0, pasid := 0, rq := rq0, c := 3, k := 1, running := running, done := done }
def stCopy (c : Copy) : State := { base.modTeam 0 (fun t => { t with lsize := 32 }) with copies := [c] }
theorem witness_CopyEngine : ∃ (s : State) (c : Copy), s.mayIssue c.core = true ∧ s.coreClock = true ∧ (s.queued c.core).head? = some c ∧
    (s.team c.team).loc ≠ .displaced ∧ ((rqLocal c.rq).isSome = true → (s.entries c.core).length < 16) :=
  ⟨stCopy (copy0 false 0), copy0 false 0, by decide +kernel, by decide +kernel, by decide +kernel, by decide +kernel, by decide +kernel⟩
theorem witness_CopyEngine_retire : ∃ (s : State) (c : Copy), s.mayIssue c.core = true ∧ s.coreClock = true ∧ s.copies.find? (fun x => x.id == c.id) = some c ∧ c.running = true ∧ c.away = false ∧
    rqLen c.rq ≤ c.done ∧ ∃ x ∈ s.ctxs, x.pasid = c.pasid :=
  ⟨stCopy (copy0 true 32), copy0 true 32, by decide +kernel, by decide +kernel, by decide +kernel, rfl, rfl, by decide +kernel, by decide +kernel⟩
/-- A copy of a kind and policy, of 32 bytes at its second piece: between `0x18000` and `0x19000`, or local offset 0, with a barrier object at local
offset 32. -/
def copyK (kind policy : Nat) (bar : Bool) (src dst : Nat) : Copy :=
  { copy0 true 16 with rq := BitVec.ofNat 256 (src + dst * 2 ^ 64 + 32 * 2 ^ 128 + 32 * 2 ^ 160 + (if bar then 2 ^ 179 else 0) + kind * 2 ^ 180 + policy * 2 ^ 186) }
def stCopyL (c : Copy) (ch : List ChartE) (s : State) : State := { s.modTeam 0 (fun t => { t with lsize := 48 }) with copies := [c], chart := ch }
def parkOf (pasid : Nat) : ChartE := { loc := 7, set := 0, line := 0x18000 / 128, pasid := pasid, bear := 1, berth := 0, core := 7 }
/-- What `CopyEngine` asks of a copy that moves. -/
def Moving (s : State) (c : Copy) : Prop :=
  s.mayIssue c.core = true ∧ s.coreClock = true ∧ s.copies.find? (fun x => x.id == c.id) = some c ∧ c.moves = true
theorem moving_of {s : State} {c : Copy} (h : (s.mayIssue c.core && s.coreClock && decide (s.copies.find? (fun x => x.id == c.id) = some c) && c.moves) = true) :
    Moving s c := by
  simp only [Bool.and_eq_true, decide_eq_true_eq] at h
  exact ⟨h.1.1.1, h.1.1.2, h.1.2, h.2⟩
def sideB (s : State) (c : Copy) (va : DWord) (wr : Bool) (pa : Nat) : Bool :=
  decide (low57 va / 4096 ∉ c.bad) && (match s.atcOf (c.core / 40) c.pasid (low57 va) with
    | some e => (if wr then e.wr else e.rd) && decide (e.addr (low57 va) = pa)
    | none => false) && decide (s.kindOf pa ≠ .reserved) && (!wr || !(s.ctx c.pasid).sealed va) && decide (s.cut pa = none)
theorem side_of {s : State} {c : Copy} {va : DWord} {wr : Bool} {pa : Nat} (n : s.l1 = []) (h : sideB s c va wr pa = true) : CopySide s c va wr pa := by
  simp only [sideB, Bool.and_eq_true, Bool.or_eq_true, Bool.not_eq_true', decide_eq_true_eq] at h
  obtain ⟨⟨⟨⟨a, b⟩, k⟩, w⟩, q⟩ := h
  refine ⟨a, ?_, k, fun x => ?_, by rw [n]; exact nofun, q⟩
  · revert b
    cases s.atcOf (c.core / 40) c.pasid (low57 va) with
    | none => exact nofun
    | some e => exact fun b => ⟨e, rfl, by simpa using b⟩
  · exact w.resolve_left fun y => absurd (x.symm.trans y) nofun

def cIn : Copy := copyK 0 0 true 0x18000 0
theorem witness_CopyEngine_in : ∃ (s : State) (c : Copy) (pa : Nat), Moving s c ∧ rqKind c.rq = 0 ∧ rqBar c.rq = true ∧ rqPolicy c.rq ≠ 4 ∧ Settled s ∧
    (Tab.get? s.teams c.team).isSome = true ∧ CopySide s c (rqSrc c.rq + BitVec.ofNat 64 c.done) false pa ∧ s.refuses c.asker pa = none ∧
    (localSide (rqDst c.rq) + c.done + 16 ≤ rqBarrier c.rq) :=
  ⟨stCopyL cIn [] base, cIn, 0x18010, moving_of (by decide +kernel), by decide +kernel, by decide +kernel, by decide +kernel,
    settled_of rfl rfl, by decide +kernel, side_of rfl (by decide +kernel),
    by decide +kernel, by decide +kernel⟩
/-- The line read is parked for a bearing that names core 0 a reader. -/
def stCopyP : State := stCopyL cIn [parkOf 0] { base with mem := base.mem.setNum (base.bearAddr 0 1) 32 (2 ^ 255 + 1) }
theorem witness_CopyEngine_parked : ∃ (s : State) (c : Copy) (pa : Nat), Moving s c ∧ rqKind c.rq = 0 ∧ Settled s ∧
    (Tab.get? s.teams c.team).isSome = true ∧ CopySide s c (rqSrc c.rq + BitVec.ofNat 64 c.done) false pa ∧ s.refuses c.asker pa = none ∧
    (s.chartOf pa).isSome = true ∧ pa % 16 = 0 :=
  ⟨stCopyP, cIn, 0x18010, moving_of (by decide +kernel), by decide +kernel,
    settled_of rfl rfl, by decide +kernel, side_of rfl (by decide +kernel),
    by decide +kernel, by decide +kernel, by decide +kernel⟩
def cOut : Copy := copyK 1 0 false 0 0x18000
theorem witness_CopyEngine_out : ∃ (s : State) (c : Copy) (pa : Nat), Moving s c ∧ rqKind c.rq = 1 ∧
    CopySide s c (rqDst c.rq + BitVec.ofNat 64 c.done) true pa ∧ pa % 16 = 0 ∧ Settled s ∧ NoSpread s pa ∧ (s.chartOf pa).isSome = true :=
  ⟨stCopyL cOut [parkOf 9] base, cOut, 0x18010, moving_of (by decide +kernel), by decide +kernel, side_of rfl (by decide +kernel), by decide +kernel,
    settled_of rfl rfl, nofun, by decide +kernel⟩
def cAcross : Copy := copyK 2 0 false 0x18000 0x19000
theorem witness_CopyEngine_across : ∃ (s : State) (c : Copy) (pa pb : Nat), Moving s c ∧ rqKind c.rq = 2 ∧
    CopySide s c (rqSrc c.rq + BitVec.ofNat 64 c.done) false pa ∧ s.refuses c.asker pa = none ∧ (c.source s pa).2 = false ∧ pa % 16 = 0 ∧
    CopySide s c (rqDst c.rq + BitVec.ofNat 64 c.done) true pb ∧ pb % 16 = 0 ∧ Settled s ∧ NoSpread s pb :=
  ⟨stCopyL cAcross [] base, cAcross, 0x18010, 0x19010, moving_of (by decide +kernel), by decide +kernel, side_of rfl (by decide +kernel), by decide +kernel,
    by decide +kernel, by decide +kernel, side_of rfl (by decide +kernel), by decide +kernel,
    settled_of rfl rfl, nofun⟩
theorem witness_CopyEngine_refused : ∃ (s : State) (c : Copy) (pa pb : Nat), Moving s c ∧ rqKind c.rq = 2 ∧
    CopySide s c (rqSrc c.rq + BitVec.ofNat 64 c.done) false pa ∧ (s.refuses c.asker pa).isSome = true ∧
    CopySide s c (rqDst c.rq + BitVec.ofNat 64 c.done) true pb :=
  ⟨stCopyL cAcross [parkOf 9] base, cAcross, 0x18010, 0x19010, moving_of (by decide +kernel), by decide +kernel, side_of rfl (by decide +kernel), by decide +kernel,
    side_of rfl (by decide +kernel)⟩
theorem witness_CopyEngine_move : ∃ (s : State) (c : Copy) (pa : Nat), Moving s c ∧ rqKind c.rq = 0 ∧ rqPolicy c.rq = 4 ∧ rqBar c.rq = false ∧
    (Tab.get? s.teams c.team).isSome = true ∧ CopySide s c (rqSrc c.rq + BitVec.ofNat 64 c.done) false pa ∧ s.refuses c.asker pa = none ∧ s.chartOf pa = none :=
  ⟨stCopy (copy0 true 16), copy0 true 16, 0x18010, moving_of (by decide +kernel), by decide +kernel, by decide +kernel, by decide +kernel, by decide +kernel,
    side_of rfl (by decide +kernel), by decide +kernel, by decide +kernel⟩

def reqOf (k : ReqKind) : Req := { id := 62, op := 60, port := 0, core := 0, slice := 0, pa := 0x18000, kind := k }
def stReq (k : ReqKind) (o : Op) : State := { base with reqs := [reqOf k], ops := [o] }
def ldOp : Op := opOf (.ld ⟨h64, .w, .raw, false, 8, 4, (false, false), v1, 0, mf0⟩)
theorem witness_RequestsAreServed : ∃ s r o, FirstRequest s r o ∧ (∃ f, r.kind = .read f) ∧ r.pa % 32 = 0 ∧ Quiet (s.asSent r) r.pa ∧
    (s.asSent r).refuses (o.asker (s.asSent r)) r.pa = none ∧ (s.asSent r).chartOf r.pa = none ∧ ((s.asSent r).ctx o.pasid).sealed (o.vaOf r.pa) = false :=
  ⟨stReq (.read false) ldOp, reqOf (.read false), ldOp, by unfold FirstRequest; decide +kernel, ⟨_, rfl⟩, by decide +kernel,
    by unfold Quiet; decide +kernel, by decide +kernel, by decide +kernel, by decide +kernel⟩
/-- The line is parked for bearing 1 of another context at an L1. -/
def stParked : State := { stReq (.read false) ldOp with chart := [{ loc := 0, set := 0, line := 0x18000 / 128, pasid := 9, bear := 1, berth := 0, core := 7 }] }
theorem witness_RequestsAreServed_refused : ∃ s r o, FirstRequest s r o ∧ (∃ f, r.kind = .read f) ∧ r.pa % 32 = 0 ∧ Quiet (s.asSent r) r.pa ∧
    ((s.asSent r).refuses (o.asker (s.asSent r)) r.pa).isSome = true :=
  ⟨stParked, reqOf (.read false), ldOp, by unfold FirstRequest; decide +kernel, ⟨_, rfl⟩, by decide +kernel,
    by unfold Quiet; decide +kernel, by decide +kernel⟩
def lane0 (pa : Nat) (d : Nat) : LaneAcc := { lane := 0, va := BitVec.ofNat 64 pa, pa := pa, data := BitVec.ofNat 512 d }
def stOp : Op := opOf (.st ⟨h96, .w, .raw, false, 4, (false, false), v1, v1, 0, mf0⟩)
def stores : ReqKind := .write [lane0 0x1801C 0xAABBCCDD, { lane0 0x1801C 1 with lane := 63 }]
/-- The home slice holds the line. -/
def stStore : State :=
  let s := stReq stores stOp
  { s with l2 := [{ loc := s.home 0x18000, set := 0, way := 0, line := 0x18000 / 128 }] }
theorem witness_StoresAndAtomicsLand : ∃ s r o ls, FirstRequest s r o ∧ Quiet s r.pa ∧ s.chartOf r.pa = none ∧ r.kind = .write ls ∧ ls ≠ [] ∧
    InSector ls o.size r.pa ∧ o.bear = 0 ∧ (∀ l ∈ ls, (s.ctx o.pasid).sealed l.va = false) ∧ ¬(o.mtype = 2 ∧ remote r.pa = true) ∧
    (findLine s.l2 (s.home r.pa) r.pa).isSome = true ∧ s.asSent r = s :=
  ⟨stStore, reqOf stores, stOp, _, by unfold FirstRequest; decide +kernel, by unfold Quiet; decide +kernel, by decide +kernel, rfl, nofun,
    by unfold InSector; decide +kernel, rfl, by decide +kernel, by decide +kernel, by decide +kernel, rfl⟩
def atX : AtomI := ⟨h96, .add, .z32, 8, addr v1⟩
def atOp : Op := opOf (.atomI atX)
/-- An atomic maximum on host memory, over a path that carries a CAS only (R291): the word holds 7, the loop has read `g`. -/
def casOp : Op := opOf (.atomI ⟨h96, .max, .z32, 8, addr v1⟩)
def hostPa : Nat := 2 ^ 51 + 0x40
def casReq (g : Nat) : Req := { reqOf (.cas [lane0 hostPa 9] [] (some g) false) with pa := hostPa }
def stCas (g : Nat) : State := { base with reqs := [casReq g], ops := [casOp], hostPath := 0x10, mem := base.mem.setNum hostPa 4 7 }
theorem witness_RequestsAreServed_cas : ∃ s r o l rest old g b, FirstRequest s r o ∧ r.kind = .cas (l :: rest) old (some g) b ∧ (s.asSent r).cut r.pa = none ∧
    remote l.pa = true :=
  ⟨stCas 7, casReq 7, casOp, _, _, _, _, _, by unfold FirstRequest; decide +kernel, rfl, by decide +kernel, by decide +kernel⟩
/-- A CAS that finds the value read writes the result and answers the old value; one that finds another is a retry from it. -/
theorem test_cas_loop :
    let t := run (.sliceRequest 62) (stCas 7)
    let u := run (.sliceRequest 62) (stCas 5)
    t.mem.num hostPa 4 = 9 ∧ t.reps.map Rep.kind = [.old [lane0 hostPa 7] false] ∧ u.mem.num hostPa 4 = 7 ∧ (u.ctxs.map fun c => Tab.getD 0 c.cnt 6) = [1]
      ∧ u.reqs.map Req.kind = [.cas [lane0 hostPa 9] [] (some 7) false] := by decide +kernel
theorem test_emulates : (stCas 7).emulates casOp.instr hostPa = true ∧ (stCas 7).emulates (.atomI atX) 0x18000 = false
    ∧ ({ stCas 7 with hostPath := 0x11 } : State).emulates (.atomI atX) hostPa = false := by decide +kernel
def rep0 : Rep := { id := 63, op := 60, port := 0, core := 0, slice := 0, pa := 0x18000, kind := .data (List.replicate 32 7) true false }
def stRep : State := { base with reps := [rep0], ops := [ldOp], nextId := 100 }
theorem witness_RepliesFill : ∃ (s : State) (p : Rep) (o : Op), s.reps.find? (fun r => r.id == p.id) = some p ∧ s.reps.find? (fun q => q.port == p.port && q.slice == p.slice) = some p ∧
    p.id < s.nextId ∧ (s.ops.map Op.id).Nodup ∧ s.op? p.op = some o ∧ p.joined = [] ∧ o.dead = false ∧ o.nout = 1 ∧ o.phase = .sent ∧ o.xw = [] ∧ o.held = [] ∧ o.absent = [] ∧
    o.refused = [] ∧ o.late = [] ∧ o.aq = false ∧ o.wait = false ∧ (s.frag ⟨o.wave, s.ownerOf o⟩).wait = .none ∧
    (s.frag ⟨o.wave, s.ownerOf o⟩).st = .running ∧ (Tab.get? s.waves o.wave).isSome = true ∧ ∀ c d0 d1, p.kind ≠ .refused c d0 d1 :=
  ⟨stRep, rep0, ldOp, by decide +kernel, by decide +kernel, by decide +kernel, by decide +kernel, by decide +kernel, rfl, rfl, rfl, rfl, rfl, rfl, rfl, rfl, rfl, rfl, rfl,
    by decide +kernel, by decide +kernel, by decide +kernel, nofun⟩

/-- An object with one role of one wave, in the context of team 0. -/
def obj1 : Obj := { handle := 1, base := 0x10000, csize := 0x10000, top := 0x20000, dm := .k3, w32 := false, idem := false, cores := false, mode := 0
                    lsize := 0, nargs := 0, roles := [{ entry := 0, prod := 0, tiles := 0, sgran := 16, vgran := 32, waves := 1 }] }
def stHost (f : Part → Part) : State :=
  ({ base with ctxs := base.ctxs.map (fun c => { c with objs := [obj1] }), nextId := 100 } : State).modPart 0 f
def task0 : Task := { rq := BitVec.ofNat 256 (1 + 0x100010001 * 2 ^ 128), pasid := 0, depth := 1, k := 1, rootQ := some 0, res := false }
theorem witness_Intake : ∃ (s : State) (part : Nat) (k : Task), (∀ h ∈ s.heads part, Head.free s h.2.1 h.2.2) ∧ (s.part part).dispatch.length < 16 ∧
    (Tab.get? s.parts part).isSome = true ∧ nextTask (s.part part).tasks = some k :=
  ⟨stHost fun p => { p with tasks := [task0], dispatch := List.range 15 }, 0, task0, fun h m => absurd m (by
    rw [show (stHost fun p => { p with tasks := [task0], dispatch := List.range 15 }).heads 0 = [] from List.eq_nil_of_length_eq_zero (by decide +kernel)]; exact nofun),
    by decide +kernel, by decide +kernel, by decide +kernel⟩
/-- Queue 63 is enabled with one record, in DRAM at `0x18000`. -/
def lq0 : LQueue := { reg := 1, en := true, base := 0x18000, wr := 1, rd := 0, pasid := 0, size := 6 }
def stQueue (r : Nat) : State :=
  let s := stHost fun p => { p with queues := [(63, lq0)] }
  { s with mem := s.mem.setNum 0x18000 64 r }
def lr0 : Nat := 2 ^ 64 + 2 ^ 128 + 2 ^ 160 + 2 ^ 192
def stHead : State := stQueue lr0
theorem witness_Intake_launch : ∃ (s : State) (part : Nat), (∀ h ∈ s.heads part, Head.free s h.2.1 h.2.2) ∧ (s.part part).dispatch.length < 16 ∧
    (Tab.get? s.parts part).isSome = true ∧ (s.part part).tasks = [] ∧ ∃ q r, s.nextHead part = some (q, r) := by
  refine ⟨stHead, 0, fun h m => ?_, by decide +kernel, by decide +kernel, by decide +kernel, ?_⟩
  · have y : ((stHead.heads 0).all fun h => match h.2.2 with
      | .ready _ => true
      | _ => false) = true := by decide +kernel
    have z := List.all_eq_true.mp y h m
    revert z
    cases h.2.2 <;> simp [Head.free]
  · have y : (stHead.nextHead 0).isSome = true := by decide +kernel
    obtain ⟨x, hx⟩ := Option.isSome_iff_exists.mp y
    exact ⟨x.1, x.2, hx⟩
/-- A record of no teams is refused. -/
def stBad : State := stQueue (2 ^ 64)
theorem witness_Intake_refused : ∃ (s : State) (part q : Nat) (x : LQueue) (c : Nat) (g : DWord), s.heads part = [(q, x, .refused c g)] ∧
    (s.part part).ringFull = false := by
  have y : (match stBad.heads 0 with
      | [(_, _, .refused _ _)] => true
      | _ => false) = true := by decide +kernel
  revert y
  split
  · rename_i h
    exact fun _ => ⟨stBad, 0, _, _, _, _, h, by decide +kernel⟩
  · exact nofun
def launch0 : Launch := { id := 50, part := 0, pasid := 0, queue := some 63, obj := 1, gx := 1, gy := 1, gz := 1, args := 0, since := 0 }
def stLaunch : State := { stHost fun p => { p with dispatch := [50] } with launches := [launch0] }
theorem witness_Placement : ∃ (s : State) (part : Nat) (id c : Nat) (l : Launch), s.nextPlace part = some (.launch id c) ∧ s.launch? id = some l ∧
    FreshAll s ∧ l.isTask = false := by
  have y : (match stLaunch.nextPlace 0 with
      | some (.launch 50 _) => true
      | _ => false) = true := by decide +kernel
  revert y
  split
  · rename_i c h
    exact fun _ => ⟨stLaunch, 0, 50, c, launch0, h, by decide +kernel, by unfold FreshAll; decide +kernel, rfl⟩
  · exact nofun
theorem witness_DistributorTimers : ∃ (s : State) (part : Nat) (l : Launch),
    ((s.part part).dispatch.filterMap s.launch?).find? (fun l => !l.held && decide (l.since + 400000 ≤ s.clock)) = some l :=
  ⟨{ stLaunch with clock := 400000 }, 0, launch0, by decide +kernel⟩
/-- A saved team heads the re-admission queue while core 0 has been lost to its partition. -/
def stTick : State :=
  let s := stHost fun p => { p with readmit := [90], headAt := 0, entry := 2 ^ 127 + 2 ^ 105 }
  { s with clock := 400000, teams := s.teams ++ [(90, { id := 90, launch := 50, part := 0, pasid := 0, obj := 1, loc := .queued, waves := [] })] }
theorem witness_DistributorTimers_tick : ∃ (s : State) (part : Nat) (k : Team), (s.part part).readmit ≠ [] ∧ (s.part part).headAt + 400000 ≤ s.clock ∧
    (s.part part).sw = none ∧ (Tab.get? s.parts part).isSome = true ∧ (∀ k c, s.nextPlace part ≠ some (.again k c)) ∧
    (∀ c o, s.nextPlace part ≠ some (.swap c o)) ∧ s.quantumTeam part = some k ∧ (Tab.get? s.teams k.id).isSome = true := by
  have y : (stTick.nextPlace 0).isNone = true := by decide +kernel
  have y' := Option.isNone_iff_eq_none.mp y
  exact ⟨stTick, 0, _, by decide +kernel, by decide +kernel, by decide +kernel, by decide +kernel, fun k c => by rw [y']; exact nofun,
    fun c o => by rw [y']; exact nofun, rfl, by decide +kernel⟩
def stSwapped : State := base.modWave 0 fun w => { w with swapped := true }
theorem witness_DistributorTimers_return : ∃ (s u : State) (wave k : Nat), s.returnRoom wave = some u ∧ u.freeSlot (u.wave wave).core (u.wave wave).q = some k ∧
    let hs := u.slotMates (u.wave wave)
    (hs.map Wave.id).Nodup ∧ hs.length = 1 ∧ ∀ h ∈ hs, Tab.get? u.waves h.id = some h ∧ h.half ≤ 1 ∧ h.frags ≠ [] ∧ h.core = (u.wave wave).core ∧
      h.q = (u.wave wave).q ∧ h.swapped = true ∧ h.away = false :=
  ⟨stSwapped, stSwapped, 0, 0, by decide +kernel, by decide +kernel, by decide +kernel, by decide +kernel, by decide +kernel⟩
/-- Both halves of a slot are swapped out. -/
def stHalves : State :=
  let w := { base.wave 0 with swapped := true, w32 := true }
  { base.modTeam 0 (fun t => { t with waves := [0, 1] }) with waves := [(0, w), (1, { w with id := 1, half := 1 })] }
theorem witness_DistributorTimers_halves : ∃ (s u : State) (wave k : Nat), s.returnRoom wave = some u ∧ u.freeSlot (u.wave wave).core (u.wave wave).q = some k ∧
    let hs := u.slotMates (u.wave wave)
    (hs.map Wave.id).Nodup ∧ hs.length = 2 ∧ hs.map Wave.half = [0, 1] ∧ ∀ h ∈ hs, h.w32 = true ∧ Tab.get? u.waves h.id = some h ∧ h.half ≤ 1 ∧
      h.frags ≠ [] ∧ h.core = (u.wave wave).core ∧ h.q = (u.wave wave).q ∧ h.swapped = true ∧ h.away = false :=
  ⟨stHalves, stHalves, 0, 0, by decide +kernel, by decide +kernel, by decide +kernel, by decide +kernel, by decide +kernel, by decide +kernel⟩

theorem witness_WindowRegisters : ∃ (s : State) (part q : Nat), (Tab.get? s.parts part).isSome = true ∧ ((s.part part).queue q).reg.getLsbD 0 = true ∧
    ((s.part part).queue q).en = true := ⟨stHead, 0, 63, by decide +kernel, by decide +kernel, by decide +kernel⟩
theorem witness_WindowRegisters_invalid : ∃ (s : State) (part q : Nat), (Tab.get? s.parts part).isSome = true ∧ ((s.part part).queue q).reg.getLsbD 0 = false :=
  ⟨stHead, 0, 0, by decide +kernel, by decide +kernel⟩
/-- Queue 63 is disabled and its register valid; its descriptor, at `0x1A000`, holds a ring at `0x18000` with one record. -/
def stBell (en : Bool) (size : Nat) : State :=
  let s := stHost fun p => { p with queues := [(63, { reg := 0x1A001 })] }
  { s with mem := s.mem.setNum 0x1A000 64 (0x18000 * 2 ^ 448 + 2 ^ 384 + 60000 * 2 ^ 272 + (if en then 2 ^ 269 else 0) + size * 2 ^ 256) }
/-- What a doorbell asks of a descriptor that it enables (R349). -/
def GoodDesc (s : State) (part : Nat) (d : BitVec 512) : Prop :=
  canonical (dqBase d) = true ∧ (dqBase d).toNat % 64 = 0 ∧ 4 ≤ dqSize d ∧ 0 < dqWdog d ∧ dqWdog d ≤ 60000
    ∧ (∃ c ∈ s.ctxs, c.pasid = dqPasid d ∧ c.part = part) ∧ (dqWr d + 2 ^ 64 - dqRd d) % 2 ^ 64 ≤ 2 ^ dqSize d
def Bell (s : State) (part q : Nat) : Prop :=
  (Tab.get? s.parts part).isSome = true ∧ ((s.part part).queue q).reg.getLsbD 0 = true ∧ ((s.part part).queue q).en = false
theorem witness_WindowRegisters_enable : ∃ (s : State) (part q : Nat), Bell s part q ∧
    let a := ((s.part part).queue q).desc
    let d := BitVec.ofNat 512 (s.peekNum a 64)
    dqEn d = true ∧ GoodDesc s part d ∧ s.chartOf (a + 33) = none ∧ s.cut (a + 33) = none :=
  ⟨stBell true 4, 0, 63, by unfold Bell; decide +kernel, by decide +kernel, by unfold GoodDesc; decide +kernel, by decide +kernel, by decide +kernel⟩
theorem witness_WindowRegisters_refuse : ∃ (s : State) (part q : Nat), Bell s part q ∧ (s.part part).ringFull = false ∧
    let a := ((s.part part).queue q).desc
    let d := BitVec.ofNat 512 (s.peekNum a 64)
    dqEn d = true ∧ ¬GoodDesc s part d ∧ s.chartOf (a + 33) = none ∧ remote (a + 33) = false :=
  ⟨stBell true 3, 0, 63, by unfold Bell; decide +kernel, by decide +kernel, by decide +kernel, by unfold GoodDesc; decide +kernel, by decide +kernel, by decide +kernel⟩
theorem witness_WindowRegisters_stays : ∃ (s : State) (part q : Nat), Bell s part q ∧ dqEn (BitVec.ofNat 512 (s.peekNum ((s.part part).queue q).desc 64)) = false :=
  ⟨stBell false 4, 0, 63, by unfold Bell; decide +kernel, by decide +kernel⟩
theorem witness_WindowRegisters_unlisted : ∃ off, 64 ≤ off / 65536 ∨ (let o := off % 65536
    4096 ≤ o ∨ o % 8 ≠ 0 ∨ (0x200 ≤ o ∧ o ∉ [0x200, 0x208, 0x210, 0x220, 0x228, 0x238, 0x240, 0x248, 0x250] ∧ (o < 0x400 ∨ 0x600 ≤ o))) :=
  ⟨0x600, by decide +kernel⟩
theorem witness_VacatesAndDrains : ∃ (s : State) (part : Nat), (Tab.get? s.parts part).isSome = true ∧ (s.part part).vacBusy = true ∧
    (s.part part).vacWant = false ∧ ∀ e ∈ s.teams, e.2.part = part → e.2.loc = .displaced → (s.core e.2.core).vacating = false :=
  ⟨stHost fun p => { p with vacBusy := true }, 0, by decide +kernel, by decide +kernel, by decide +kernel, by decide +kernel⟩
theorem witness_VacatesAndDrains_order : ∃ (s : State) (part : Nat) (v : BitVec 64), (Tab.get? s.parts part).isSome = true ∧ (s.part part).vacBusy = false ∧
    (s.part part).sw = none ∧ ∃ c < 64, v.getLsbD c = true ∧ s.partOfCore c = some part := ⟨stHost id, 0, 1, by decide +kernel, by decide +kernel, by decide +kernel, 0, by decide +kernel⟩
/-- A queue whose watchdog of 4,000,000 clocks has run out while its launch is unfinished. -/
def stWatch : State := { stHost fun p => { p with queues := [(63, { lq0 with wdog := 1, timer := 4000000 })] } with launches := [launch0] }
theorem witness_VacatesAndDrains_watchdog : ∃ (s : State) (part : Nat), (Tab.get? s.parts part).isSome = true ∧ (s.part part).sw = none ∧ s.expired part ≠ [] :=
  ⟨stWatch, 0, by decide +kernel, by decide +kernel, by decide +kernel⟩

/-! The Sextant, the host and the machine -/

def sxW (s : State) : State := { s with sx := { s.sx with wr := 1 } }
def ops (w1 w2 w3 w4 : BitVec 64) : SxOps := ⟨w1, w2, w3, w4, 0, 0⟩
/-- Partition 0 with contexts 0, which a team uses, and 9, which nothing does; object 1 is loaded in 9. -/
def stSx : State := sxW { stHost id with ctxs := (stHost id).ctxs ++ [{ pasid := 9, part := 0, tenant := 0, desc := 0x8000, objs := [obj1] }] }
def stSx0 : State := sxW State.reset
theorem witness_SextantCommands : ∃ s : State, SxReady s := ⟨stSx, by unfold SxReady; decide +kernel⟩
theorem witness_SextantCommands_create : ∃ (s : State) (c : SxOps), SxReady s ∧ c.w1.toNat ≤ 63 ∧ (s.part c.w1.toNat).valid = true ∧
    s.ownClusters c.w1.toNat ≠ 0 ∧ c.w2.toNat ≤ 1 ∧ c.w3.toNat < 2 ^ 20 ∧ s.hasCtx c.w3.toNat = false ∧ inDram c.w4.toNat 16384 = true ∧
    c.w4.toNat % 16384 = 0 := ⟨stSx, ops 0 1 0xFFFFF 0xFFFFFFC000, by unfold SxReady; decide +kernel, by decide +kernel⟩
theorem witness_SextantCommands_twice : ∃ (s : State) (c : SxOps), SxReady s ∧ s.hasCtx c.w3.toNat = true :=
  ⟨stSx, ops 0 0 9 0, by unfold SxReady; decide +kernel, by decide +kernel⟩
theorem witness_SextantCommands_unknown : ∃ (s : State) (c : SxOps), SxReady s ∧ s.hasCtx c.w1.toNat = false :=
  ⟨stSx, ops 10 0 0 0, by unfold SxReady; decide +kernel, by decide +kernel⟩
theorem witness_SextantCommands_busy : ∃ (s : State) (c : SxOps), SxReady s ∧ s.hasCtx c.w1.toNat = true ∧ s.ctxBusy c.w1.toNat = true :=
  ⟨stSx, ops 0 0 0 0, by unfold SxReady; decide +kernel, by decide +kernel⟩
theorem witness_SextantCommands_destroy : ∃ (s : State) (c : SxOps), SxReady s ∧ s.hasCtx c.w1.toNat = true ∧ s.ctxBusy c.w1.toNat = false :=
  ⟨stSx, ops 9 0 0 0, by unfold SxReady; decide +kernel, by decide +kernel⟩
theorem witness_SextantCommands_unload : ∃ (s : State) (c : SxOps) (o : Obj), SxReady s ∧ (s.ctx c.w1.toNat).obj? c.w2.toNat = some o ∧
    (∀ l ∈ s.launches, ¬(l.pasid = c.w1.toNat ∧ l.obj = c.w2.toNat)) ∧ ∀ p ∈ s.parts, ∀ k ∈ p.2.tasks, ¬(k.pasid = c.w1.toNat ∧ tkCode k.rq = c.w2.toNat) :=
  ⟨stSx, ops 9 1 0 0, obj1, by unfold SxReady; decide +kernel, by decide +kernel, by decide +kernel, by decide +kernel⟩
theorem witness_SextantCommands_route : ∃ (s : State) (c : SxOps), SxReady s ∧ c.w1 ≠ 0 ∧ c.w1.toNat ≤ 255 ∧ c.w2.toNat / 2 ^ 56 % 16 ≤ 11 :=
  ⟨stSx, ops 255 0x8B000000000000FF 0 0, by unfold SxReady; decide +kernel, by decide +kernel⟩
theorem witness_SextantCommands_hostRoute : ∃ (s : State) (c : SxOps), SxReady s ∧ c.w1 = 0 := ⟨stSx, ops 0 127 0 0, by unfold SxReady; decide +kernel, rfl⟩
theorem witness_SextantCommands_configure : ∃ (s : State) (c : SxOps), SxReady s ∧ s.ctxs = [] ∧ c.w1.toNat ≤ 8 ∧ c.w2.toNat ≤ 8 ∧ c.w3.toNat ≤ 8 ∧
    c.w4.toNat ≤ 8 := ⟨stSx0, ops 8 8 8 8, by unfold SxReady; decide +kernel, by decide +kernel⟩
theorem witness_SextantCommands_power : ∃ (s : State) (c : SxOps), SxReady s ∧ c.w1.toNat ≤ 3 ∧ (c.w1 = 3 → s.ctxs = []) :=
  ⟨stSx0, ops 3 0 0 0, by unfold SxReady; decide +kernel, by decide +kernel⟩
theorem witness_SextantCommands_counts : ∃ (s : State) (c : SxOps), SxReady s ∧ c.w2.toNat ≤ 15 := ⟨stSx0, ops 0 15 0 0, by unfold SxReady; decide +kernel, by decide +kernel⟩

theorem witness_SextantTables : ∃ (s : State) (c : SxOps), SxReady s ∧ c.w1.toNat ≤ 63 ∧
    let old := s.part c.w1.toNat
    let p : Part := if old.valid then { old with entry := c.w3 ++ c.w2 }
      else { old with entry := c.w3 ++ c.w2, tick := s.clock, tenant := 0, consec := 0, aborts := 0, lost := 0, evLost := 0 }
    let u : State := { s with parts := Tab.set s.parts c.w1.toNat p }
    (∀ k ∈ (s.ancestors c.w1.toNat ++ s.family c.w1.toNat) ++ (u.ancestors c.w1.toNat ++ u.family c.w1.toNat), s.partUsed k = false) ∧
    ∀ x ∈ u.parts, x.1 = c.w1.toNat ∨ x.2.valid = true → partOk u.parts x.1 = true :=
  ⟨stSx0, ops 7 1 0x8000020000000000 0, by unfold SxReady; decide +kernel, by decide +kernel, by decide +kernel, by decide +kernel⟩
theorem witness_SextantTables_range : ∃ (s : State) (c : SxOps), SxReady s ∧ 63 < c.w1.toNat := ⟨stSx0, ops 64 0 0 0, by unfold SxReady; decide +kernel, by decide +kernel⟩
/-- The smallest object: a header, one role, a header section and a code section of 32 bytes. -/
def smallObj : Nat :=
  0x4F574B48 + 3 * 2 ^ 40 + 2 ^ 56 + 2 * 2 ^ 144 + 160 * 2 ^ 160 + 128 * 2 ^ 192 + 32 * 2 ^ 224
    + (2 ^ 71 + 2 ^ 76 + 2 ^ 82) * 2 ^ 1024 + (224 * 2 ^ 160 + 224 * 2 ^ 128) * 2 ^ 1280 + (224 * 2 ^ 192 + 32 * 2 ^ 160 + 32 * 2 ^ 128) * 2 ^ 1536
def stLoad : State := { stSx with ctxs := stSx.ctxs.map (fun c => { c with objs := [] }), mem := stSx.mem.setNum 0x40000 256 smallObj }
theorem witness_SextantTables_load : ∃ (s : State) (c : SxOps) (core : Nat) (i : Image), SxReady s ∧ s.power < 3 ∧ s.hasCtx c.w1.toNat = true ∧ canonical c.w4 = true ∧
    low57 c.w4 % 4096 = 0 ∧ sourceOk c.w2.toNat c.w3.toNat = true ∧ s.loadCore (s.ctx c.w1.toNat).part = some core ∧ s.engineFree core = true ∧
    readObject ((s.recallAll c.w2.toNat c.w3.toNat).peeks c.w2.toNat c.w3.toNat) = .ok i ∧ (s.ctx c.w1.toNat).imageFree (low57 c.w4) i.len = true ∧
    (∀ p ∈ imagePages (low57 c.w4) i.len, ∃ e, s.loadEntry (core / 40) c.w1.toNat (p * 4096) = some e ∧ s.kindOf (e.addr (p * 4096)) ≠ .reserved) ∧
    let at? (x : Nat) : Nat := ((s.loadEntry (core / 40) c.w1.toNat (low57 c.w4 + x)).map fun e => e.addr (low57 c.w4 + x)).getD 0
    Settled s ∧ (∀ e ∈ s.atc, 12 ≤ e.log ∧ e.pa % 4096 = 0) ∧ (∀ x < i.len, at? x < 2 ^ 40) ∧ ∀ x y, x < i.len → y < i.len → at? x = at? y → x = y := by
  have y : (match readObject ((stLoad.recallAll 0x40000 256).peeks 0x40000 256) with
    | .ok i => decide (i.len = 32)
    | .error _ => false) = true := by decide +kernel
  revert y
  split
  · rename_i i h
    refine fun y => ⟨stLoad, ops 0 0x40000 256 0x10000, 0, i, by unfold SxReady; decide +kernel, by decide +kernel, by decide +kernel, by decide +kernel, by decide +kernel,
      by decide +kernel, by decide +kernel, by decide +kernel, h, ?_, ?_, settled_of rfl rfl, by decide +kernel, ?_, ?_⟩ <;> rw [of_decide_eq_true y]
    · decide +kernel
    · intro p m
      rw [show p = 16 by simpa using show p ∈ [16] from m]
      exact ⟨_, rfl, by decide +kernel⟩
    · decide +kernel
    · intro a b ha hb
      revert b hb
      revert a ha
      decide +kernel
  · exact nofun
theorem witness_SextantTables_noContext : ∃ (s : State) (c : SxOps), SxReady s ∧ s.power < 3 ∧ s.hasCtx c.w1.toNat = false :=
  ⟨stSx0, ops 0 0 0 0, by unfold SxReady; decide +kernel, by decide +kernel, by decide +kernel⟩
theorem witness_Errors : ∃ (s : State) (pa : Nat), s.chartOf pa = none := ⟨base, 0, by decide +kernel⟩
theorem witness_OutsideAccesses : ∃ (s : State) (pa : Nat) (op : HostAtom), (∀ l ∈ s.l1, l.kind ≠ .update) ∧ NoSpread s pa ∧
    (∀ e, s.chartOf pa = some e → e.berth < 2 → (s.berthLine e).isSome = true) ∧ pa + atomBytes op ≤ 2 ^ 40 ∧ pa % atomBytes op = 0 ∧ s.poisoned pa = false :=
  ⟨base, 2 ^ 40 - 16, .cas .b128 0 1, nofun, nofun, fun e h => absurd h (by rw [show base.chartOf (2 ^ 40 - 16) = none by decide +kernel]; exact nofun), by decide +kernel,
    by decide +kernel, by decide +kernel⟩
/-- The line is parked at an L1, which holds it. -/
def stBerth (poison : BitVec 4) : State :=
  { base with chart := [parkOf 0], l1 := [{ loc := 7, set := 0, way := 0, line := 0x18000 / 128, kind := .parked, valid := BitVec.allOnes 128, poison := poison }] }
theorem berthed (p : BitVec 4) : ∀ e, (stBerth p).chartOf 0x18000 = some e → e.berth < 2 → ((stBerth p).berthLine e).isSome = true := by
  intro e h _
  obtain rfl : e = parkOf 0 := (Option.some.inj ((show (stBerth p).chartOf 0x18000 = some (parkOf 0) from rfl).symm.trans h)).symm
  rfl
theorem witness_OutsideAccesses_parkedAtomic : ∃ (s : State) (pa : Nat) (op : HostAtom), (∀ l ∈ s.l1, l.kind ≠ .update) ∧ NoSpread s pa ∧
    (∀ e, s.chartOf pa = some e → e.berth < 2 → (s.berthLine e).isSome = true) ∧ pa + atomBytes op ≤ 2 ^ 40 ∧ pa % atomBytes op = 0 ∧ s.poisoned pa = false ∧
    (s.chartOf pa).isSome = true :=
  ⟨stBerth 0, 0x18000, .fetchAdd false 1, by decide +kernel, nofun, berthed 0, by decide +kernel, by decide +kernel, by decide +kernel, by decide +kernel⟩
theorem witness_OutsideAccesses_poisoned : ∃ (s : State) (pa : Nat) (op : HostAtom), (∀ l ∈ s.l1, l.kind ≠ .update) ∧ NoSpread s pa ∧
    (∀ e, s.chartOf pa = some e → e.berth < 2 → (s.berthLine e).isSome = true) ∧ pa + atomBytes op ≤ 2 ^ 40 ∧ pa % atomBytes op = 0 ∧ s.poisoned pa = true :=
  ⟨stBerth 1, 0x18000, .fetchAdd false 1, by decide +kernel, nofun, berthed 1, by decide +kernel, by decide +kernel, by decide +kernel⟩
theorem witness_OutsideAccesses_write : ∃ (s : State) (pa : Nat) (bs : List Byte), (∀ l ∈ s.l1, l.kind ≠ .update) ∧ s.chartOf pa = none ∧
    pa + bs.length ≤ 2 ^ 40 ∧ pa / 128 = (pa + bs.length - 1) / 128 :=
  ⟨base, 2 ^ 40 - 128, List.replicate 128 1, by decide +kernel, by decide +kernel, by decide +kernel, by decide +kernel⟩
/-- Bytes over the end of a parked line. -/
theorem witness_OutsideAccesses_unparks : ∃ (s : State) (pa : Nat) (bs : List Byte), (∀ l ∈ s.l1, l.kind ≠ .update) ∧ pa + bs.length ≤ 2 ^ 40 ∧ Settled s ∧
    (∀ k < bs.length, NoSpread s (pa + k)) ∧ (s.chartOf pa).isSome = true ∧ pa / 128 ≠ (pa + bs.length - 1) / 128 :=
  ⟨{ base with chart := [parkOf 0] }, 0x1807F, [1, 2], by decide +kernel, by decide +kernel, settled_of rfl rfl, fun _ _ => nofun, by decide +kernel, by decide +kernel⟩
theorem witness_OutsideAccesses_misaligned : ∃ (s : State) (pa : Nat) (op : HostAtom), (∀ l ∈ s.l1, l.kind ≠ .update) ∧ pa + atomBytes op ≤ 2 ^ 40 ∧
    pa % atomBytes op ≠ 0 := ⟨base, 2 ^ 40 - 5, .fetchAdd false 1, by decide +kernel, by decide +kernel, by decide +kernel⟩
/-- A request for a page, a part of which, or of a larger mapping around it, has been invalidated since it was sent. -/
def ats0 (invs : List (Nat × Nat)) : AtsReq := { id := 80, die := 0, pasid := 0, page := 0x30, invs := invs }
def stAts (invs : List (Nat × Nat)) : State := { base with ats := [ats0 invs], pages := [⟨0, 0x30, true⟩] }
theorem witness_Translation : ∃ (s : State) (id : Nat) (a : AtsReq) (log : Nat), s.ats.find? (fun x => x.id == id) = some a ∧
    a.covered (.mapped 0 log true true) = false ∧ a.dist = false ∧ s.hasCtx a.pasid = true ∧ (∀ o ∈ s.ops, id ∉ o.xw) ∧
    (s.atc.filter fun x => x.die == a.die).length < 65536 :=
  ⟨stAts [(0x31000, 0x32000)], 80, ats0 [(0x31000, 0x32000)], 12, by decide +kernel, by decide +kernel, rfl, by decide +kernel, by decide +kernel, by decide +kernel⟩
theorem witness_Translation_stale : ∃ (s : State) (id : Nat) (a : AtsReq) (ans : AtsAnswer), s.ats.find? (fun x => x.id == id) = some a ∧
    s.hasCtx a.pasid = true ∧ a.covered ans = true :=
  ⟨stAts [(0x31000, 0x32000)], 80, ats0 [(0x31000, 0x32000)], .mapped 0 16 true true, by decide +kernel, by decide +kernel, by decide +kernel⟩
theorem witness_Translation_page : ∃ (s : State) (pasid page : Nat), ∃ p ∈ s.pages, p.pasid = pasid ∧ p.page = page ∧ p.sent = true :=
  ⟨stAts [], 0, 0x30, by decide +kernel⟩
theorem witness_Translation_invalidation : ∃ (s : State) (tag : Nat) (v : Inval), s.invals.find? (fun x => x.tag == tag) = some v ∧
    ∀ o ∈ s.ops, o.id ∈ v.ops → o.nout = 0 ∧ o.held = [] := ⟨{ base with invals := [⟨31, none, []⟩] }, 31, ⟨31, none, []⟩, by decide +kernel, by decide +kernel⟩

/-- A partition of two tenants with a budget of one unit of 4,000 clocks, at a clock. -/
def stSlice (sw : Option Switch) (clock : Nat) : State :=
  let s := stHost fun p => { p with entry := 2 ^ 127 + 2 ^ 105 + 2 ^ 32 + 1, sw := sw }
  { s with clock := clock, ctxs := s.ctxs ++ [{ pasid := 9, part := 0, tenant := 1, desc := 0x8000 }] }
def sw0 (d : DieSw) : Switch := { tick := 4000, dies := [(0, d)] }
theorem witness_TimeSlices : ∃ (s : State) (part : Nat), (Tab.get? s.parts part).isSome = true ∧ (s.part part).valid = true ∧ (s.part part).budget ≠ 0 ∧
    (s.part part).tick + (s.part part).budget * 4000 ≤ s.clock ∧ (s.part part).sw = none ∧ s.gang part ≠ [] ∧
    ∃ c ∈ s.ctxs, c.part = part ∧ c.tenant ≠ (s.part part).tenant :=
  ⟨stSlice none 4000, 0, by decide +kernel, by decide +kernel, by decide +kernel, by decide +kernel, by decide +kernel, by decide +kernel, by decide +kernel⟩
theorem witness_TimeSlices_halted : ∃ (s : State) (part die : Nat) (w : Switch), (Tab.get? s.parts part).isSome = true ∧ (s.part part).sw = some w ∧
    w.die? die = some .halting ∧ s.clock ≤ w.tick + 6400 ∧ s.dieQuiet part die = true :=
  ⟨stSlice (some (sw0 .halting)) 10400, 0, 0, sw0 .halting, by decide +kernel, by decide +kernel, by decide +kernel, by decide +kernel, by decide +kernel⟩
theorem witness_TimeSlices_exchanged : ∃ (s : State) (part die c : Nat) (w : Switch), (Tab.get? s.parts part).isSome = true ∧ (s.part part).sw = some w ∧
    w.die? die = some (.exchanging c) ∧ c + 1600 ≤ s.clock ∧ w.aborted = false ∧ (∀ d ∈ w.dies, d.1 = die ∨ d.2 = .exchanged) ∧ (w.dies.map Prod.fst).Nodup :=
  ⟨stSlice (some (sw0 (.exchanging 5000))) 6600, 0, 0, 5000, sw0 (.exchanging 5000), by decide +kernel, by decide +kernel, by decide +kernel, by decide +kernel, rfl,
    by decide +kernel, by decide +kernel⟩
theorem witness_TimeSlices_back : ∃ (s : State) (part die c : Nat) (w : Switch), (Tab.get? s.parts part).isSome = true ∧ (s.part part).sw = some w ∧
    w.die? die = some (.backing c) ∧ c ≤ s.clock :=
  ⟨stSlice (some (sw0 (.backing 6600))) 6600, 0, 0, 6600, sw0 (.backing 6600), by decide +kernel, by decide +kernel, by decide +kernel, by decide +kernel⟩
theorem witness_TimeSlices_abort : ∃ (s : State) (part : Nat) (w : Switch), (Tab.get? s.parts part).isSome = true ∧ (s.part part).sw = some w ∧
    w.aborted = false ∧ w.tick + 6400 ≤ s.clock ∧ ∃ d ∈ w.dies, d.2 = .halting :=
  ⟨stSlice (some (sw0 .halting)) 10400, 0, sw0 .halting, by decide +kernel, by decide +kernel, rfl, by decide +kernel, by decide +kernel⟩

theorem witness_FailedFetches : ∃ s : State, Issuing s ∧ (s.wave s.cur.wave).h = none ∧
    Handled s { w := s.wave s.cur.wave, f := (s.wave s.cur.wave).frag s.cur.entry, hm := false, part := 0, q := [] } 1 :=
  ⟨stVec id, issuing_of (by decide +kernel), by decide +kernel, by unfold Handled; decide +kernel⟩
/-- Vector 1 is its own source, read before any write of the region. -/
theorem witness_OperandTraps : ∃ (s : State) (u : Uses) (h : Hdr), (s.wave s.cur.wave).dm = .k3 ∧ (s.issOf h).hm = false ∧ (s.issOf h).w.prop = none ∧
    ∃ n ∈ u.dv, n ∈ u.srcs.flatMap SU.vecs ∧ ((s.issOf h).w.vreg n).wir = false :=
  ⟨stW (fun w => w.setV 1 {}), laneUses .vec false (.v 1 .none) [su false v1], h64, by decide +kernel, by decide +kernel, by decide +kernel, by decide +kernel⟩
def vecIn (x : VReg) (md : BitVec 32) : State := stW fun w => { w.setV 1 x with md := md }
theorem witness_OperandTraps_poison : ∃ (s : State) (u : Uses) (h : Hdr), Unheld s u h ∧ ViewsClean s u h ∧ (s.issOf h).part ≠ 0 ∧
    ∃ r ∈ u.srcs.flatMap (SU.regs (s.issOf h).w (s.issOf h).part), (s.issOf h).w.stateOf (s.issOf h).hm r = .poison :=
  ⟨vecIn { st := .poison, dead := 0 } 0, laneUses .vec false (.v 3 .none) [su false v1], h64, unheld_of (by decide +kernel), views_of (by decide +kernel), by decide +kernel, by decide +kernel⟩
theorem witness_OperandTraps_dead : ∃ (s : State) (u : Uses) (h : Hdr), Unheld s u h ∧ ViewsClean s u h ∧ (s.issOf h).part ≠ 0 ∧
    (∀ r ∈ u.srcs.flatMap (SU.regs (s.issOf h).w (s.issOf h).part), (s.issOf h).w.stateOf (s.issOf h).hm r ≠ .poison) ∧
    (s.issOf h).w.md.getLsbD 12 = true ∧
    ∃ x ∈ u.srcs, (s.issOf h).w.srcDead (s.issOf h).hm (s.issOf h).part x = true :=
  ⟨vecIn { dead := 0x8000000000000000 } 0x1000, laneUses .vec false (.v 3 .none) [su false v1], h64, unheld_of (by decide +kernel), views_of (by decide +kernel), by decide +kernel, by decide +kernel,
    by decide +kernel, by decide +kernel⟩
/-- Latch A is read where it is not valid. -/
theorem witness_OperandTraps_stale : ∃ (s : State) (u : Uses) (h : Hdr), Unheld s u h ∧ ViewsClean s u h ∧ (s.issOf h).part ≠ 0 ∧
    (∀ r ∈ u.srcs.flatMap (SU.regs (s.issOf h).w (s.issOf h).part), (s.issOf h).w.stateOf (s.issOf h).hm r ≠ .poison) ∧
    ((s.issOf h).w.md.getLsbD 12 = true → ∀ x ∈ u.srcs, (s.issOf h).w.srcDead (s.issOf h).hm (s.issOf h).part x = false) ∧
    ∃ x ∈ u.srcs, (s.issOf h).w.readsStale (s.issOf h).hm (s.issOf h).part x.x = true :=
  ⟨stW id, laneUses .vec false (.v 3 .none) [su false .la], h64, unheld_of (by decide +kernel), views_of (by decide +kernel), by decide +kernel, by decide +kernel, by decide +kernel, by decide +kernel⟩

/-! Clauses of their own -/

/-- A wave whose formats scale both sides. -/
def stScaled : State := stMx true 0 fun w => { w with frags := w.frags.map fun f => { f with fmt := 0x3022 } }
theorem witness_MatrixResults_scaled : ∃ s i m also, matrixSem s i = some (m, also) ∧ Meets i m s :=
  ⟨stScaled, .mxstep ⟨h96, false, 15, 0, false, some v1⟩, _, _, rfl, meets_of (by decide +kernel)
    ⟨by decide +kernel, _, _, rfl, rfl, Or.inr ⟨by decide +kernel, by decide +kernel, nofun⟩⟩⟩
/-- A dropped loop, whose misaligned address nothing reads. -/
def stDropped : State := stMx true 0 fun w => { setSc 4 1 w with mx := some { first := 0, n := 0, h := 1 } }
theorem witness_MatrixResults_dropped : ∃ s i m also, matrixSem s i = some (m, also) ∧ Meets i m s :=
  ⟨stDropped, .mxloop ⟨h64, true, sc4, sc4, none⟩, _, _, rfl, meets_of (by decide +kernel)
    ⟨by decide +kernel, Or.inl (by decide +kernel), _, _, rfl, rfl, Or.inl (by decide +kernel)⟩⟩

/-- A launch of a team on die 0, which has told it, and one on die 1, which has not. -/
def stGb2 : State :=
  let s := stGb true fun g => { g with teams := [0] }
  { s with teams := s.teams ++ [(1, { s.team 0 with id := 1, core := 40, gbSent := false })] }
theorem witness_GridBarrierSteps_notLast : ∃ (s : State) (launch die : Nat), die ∉ (s.gbar launch).dies ∧
    (∃ t ∈ s.teamsOf launch, t.onCore = true ∧ t.core / 40 = die) ∧
    (∀ t ∈ s.teamsOf launch, t.onCore = true → t.core / 40 = die → t.id ∈ (s.gbar launch).teams) ∧
    ¬ ∀ t ∈ s.teamsOf launch, t.id ∈ (s.gbar launch).teams ∧ (t.core / 40 = die ∨ t.core / 40 ∈ (s.gbar launch).dies) :=
  ⟨stGb2, 0, 0, by decide +kernel, by decide +kernel, by decide +kernel, by decide +kernel⟩
theorem witness_GridBarrierSteps_last : ∃ (s : State) (launch die : Nat), die ∉ (s.gbar launch).dies ∧
    (∃ t ∈ s.teamsOf launch, t.onCore = true ∧ t.core / 40 = die) ∧
    (∀ t ∈ s.teamsOf launch, t.id ∈ (s.gbar launch).teams ∧ (t.core / 40 = die ∨ t.core / 40 ∈ (s.gbar launch).dies)) ∧ (s.gbar launch).rels = [] :=
  ⟨stGb true fun g => { g with teams := [0] }, 0, 0, by decide +kernel, by decide +kernel, by decide +kernel, by decide +kernel⟩

/-- The line is parked at an L1 for a bearing that names core 0 a reader. -/
def stMember : State :=
  let s := stReq (.read false) ldOp
  { s with mem := s.mem.setNum (s.bearAddr 0 1) 32 (2 ^ 255 + 1)
           chart := [{ loc := 7, set := 0, line := 0x18000 / 128, pasid := 0, bear := 1, berth := 0, core := 7 }] }
theorem witness_RequestsAreServed_parked : ∃ s r o, FirstRequest s r o ∧ (∃ f, r.kind = .read f) ∧ r.pa % 32 = 0 ∧ Quiet (s.asSent r) r.pa ∧
    ((s.asSent r).chartOf r.pa).isSome = true ∧ (s.asSent r).refuses (o.asker (s.asSent r)) r.pa = none :=
  ⟨stMember, reqOf (.read false), ldOp, by unfold FirstRequest; decide +kernel, ⟨_, rfl⟩, by decide +kernel,
    by unfold Quiet; decide +kernel, by decide +kernel, by decide +kernel⟩

/-- A full ring. -/
def stFull (x : Option Switch) (qs : Tab LQueue) : State := stHost fun p => { p with evW := 2 ^ 20, evR := 0, sw := x, queues := qs }
theorem witness_VacatesAndDrains_full : ∃ (s : State) (part : Nat), (Tab.get? s.parts part).isSome = true ∧ (s.part part).sw = none ∧
    (s.part part).ringFull = true := ⟨stFull none [], 0, by decide +kernel, by decide +kernel, by decide +kernel⟩
theorem witness_VacatesAndDrains_room : ∃ (s : State) (part : Nat), (Tab.get? s.parts part).isSome = true ∧ (s.part part).sw = none ∧
    (s.part part).ringFull = false := ⟨stHost id, 0, by decide +kernel, by decide +kernel, by decide +kernel⟩
theorem witness_VacatesAndDrains_switch : ∃ (s : State) (part : Nat), (Tab.get? s.parts part).isSome = true ∧ (s.part part).sw.isSome = true ∧
    (s.part part).vacBusy = false := ⟨stFull (some (sw0 .halting)) [], 0, by decide +kernel, by decide +kernel, by decide +kernel⟩
theorem witness_VacatesAndDrains_marks : ∃ (s : State) (part q : Nat), (Tab.get? s.parts part).isSome = true ∧ (s.part part).sw = none ∧
    s.expired part ≠ [] ∧ s.ops = [] ∧ s.l1 = [] ∧ s.l2 = [] ∧ s.chart = [] ∧ q ∈ s.expired part ∧ remote (((s.part part).queue q).desc + 33) = false :=
  ⟨stWatch, 0, 63, by decide +kernel, by decide +kernel, by decide +kernel, by decide +kernel, by decide +kernel, by decide +kernel, by decide +kernel,
    by decide +kernel, by decide +kernel⟩
theorem witness_VacatesAndDrains_disabled : ∃ (s : State) (part q : Nat) (x : LQueue), (Tab.get? s.parts part).isSome = true ∧ (s.part part).sw = none ∧ s.ops = [] ∧
    s.l1 = [] ∧ s.l2 = [] ∧ s.chart = [] ∧ (q, x) ∈ (s.part part).queues ∧ x.reg.getLsbD 0 = true ∧ x.en = false ∧ remote (x.desc + 33) = false ∧
    ∀ c ∈ s.ctxs, ¬(c.desc + 0x2200 ≤ x.desc + 33 ∧ x.desc + 33 < c.desc + 0x2600) :=
  ⟨stBell true 4, 0, 63, { reg := 0x1A001 }, by decide +kernel, by decide +kernel, by decide +kernel, by decide +kernel, by decide +kernel, by decide +kernel,
    List.mem_singleton_self _, by decide +kernel, rfl, by decide +kernel, by decide +kernel⟩
theorem witness_VacatesAndDrains_late : ∃ (s : State) (part : Nat) (w : Switch), (Tab.get? s.parts part).isSome = true ∧ (s.part part).sw = some w ∧
    s.expired part ≠ [] ∧ ∃ q ∈ s.expired part, q ∉ (s.part part).drainWant.getD [] :=
  ⟨stWatch.modPart 0 fun p => { p with sw := some (sw0 .halting) }, 0, sw0 .halting, by decide +kernel, by decide +kernel, by decide +kernel, by decide +kernel⟩

theorem witness_Errors_clean : ∃ (s : State) (core pa : Nat) (l : Line), findLine s.l1 core pa = some l ∧ (l.kind = .ordinary ∨ l.kind = .sealed) :=
  ⟨{ base with l1 := [{ loc := 5, set := 0, way := 0, line := 0 }] }, 5, 127, _, rfl, by decide +kernel⟩
theorem witness_Errors_team : ∃ (s : State) (team : Nat) (tm : Team), Tab.get? s.teams team = some tm ∧
    (((s.ctx tm.pasid).obj? tm.obj).map Obj.idem).getD false = true ∧ tm.relaunch < 3 ∧ ∀ e ∈ s.teams, e.1 < s.nextId :=
  ⟨{ stHost id with ctxs := (stHost id).ctxs.map fun c => { c with objs := [{ obj1 with idem := true }] } }, 0, _, rfl, by decide +kernel, by decide +kernel,
    by decide +kernel⟩
theorem witness_Errors_kill : ∃ (s : State) (core k : Nat), (∀ e ∈ s.teams, e.1 < s.nextId) ∧ k ∈ s.teamsOn core ++ (s.core core).shadow ∧ k < s.nextId :=
  ⟨stHost id, 0, 0, by decide +kernel, by decide +kernel, by decide +kernel⟩

theorem witness_FailedFetches_wrap : ∃ (s : State) (pc : Nat), Stands s ∧ (s.wave s.cur.wave).h = none ∧ pc < 2 ^ 57 ∧
    ((s.wave s.cur.wave).frag s.cur.entry).pc = 2 ^ 57 + pc ∧
    Handled s { w := s.wave s.cur.wave, f := (s.wave s.cur.wave).frag s.cur.entry, hm := false, part := 0, q := [] } 1 :=
  ⟨stVec fun w => { w with frags := w.frags.map fun f => { f with pc := 2 ^ 57 + (2 ^ 57 - 8) } }, 2 ^ 57 - 8,
    ⟨by decide +kernel, by decide +kernel⟩, by decide +kernel, by decide, by decide +kernel, by unfold Handled; decide +kernel⟩
/-- A word that no format decodes, guarded by `p2`, which holds even lanes. -/
theorem witness_FailedFetches_guarded : ∃ (s : State), Stands s ∧ (s.wave s.cur.wave).h = none ∧
    Handled s { w := s.wave s.cur.wave, f := (s.wave s.cur.wave).frag s.cur.entry, hm := false, part := 0, q := [] } 7 ∧
    (guardOf (s.wave s.cur.wave).dm s.cur.word).1 = false ∧ (s.wave s.cur.wave).pred false (guardOf (s.wave s.cur.wave).dm s.cur.word).2.toNat = 0x5555555555555555 :=
  ⟨(withVec [7] stBra).issuing (stBra.wave 0) ((stBra.wave 0).frag 0) (.word 0x2FFC), ⟨by decide +kernel, by decide +kernel⟩, by decide +kernel,
    by unfold Handled; decide +kernel, by decide +kernel, by decide +kernel⟩

/-- An `ACCEPT` whose window register 248 is poisoned. -/
theorem witness_OperandTraps_view : ∃ (s : State) (u : Uses) (h : Hdr), Unlocked s u h ∧ u.win ≠ [] ∧ ∃ n ∈ u.win, ((s.issOf h).w.vreg n).st = .poison :=
  ⟨stW (·.setV 248 { st := .poison }), { ctl with win := [248] }, h64, unlocked_of (by decide +kernel), by decide +kernel, by decide +kernel⟩
/-- An empty queue 0, in a team where its producer is gone or is there. -/
def stEmptyQ (prod : List (Nat × Nat)) : State := stTW (fun t => { t with prod := prod }) id
def popU (e : Bool) : Uses := { srcs := [su false (.q 0 e)], dv := [3] }
theorem witness_OperandTraps_emptyTrap : ∃ (s : State) (u : Uses) (h : Hdr) (q : Nat), Unlocked s u h ∧ ViewsClean s u h ∧ (s.issOf h).part ≠ 0 ∧
    u.srcs.flatMap SU.queues = [q] ∧ (s.team (s.issOf h).w.team).queue q = [] ∧ ∃ x ∈ u.srcs, ∃ n, x.x = .q n true :=
  ⟨stEmptyQ [(0, 0)], popU true, h64, 0, unlocked_of (by decide +kernel), views_of (by decide +kernel), by decide +kernel, by decide +kernel, by decide +kernel,
    su false (.q 0 true), List.mem_singleton_self _, 0, rfl⟩
theorem witness_OperandTraps_gone : ∃ (s : State) (u : Uses) (h : Hdr) (q : Nat), Unlocked s u h ∧ ViewsClean s u h ∧ (s.issOf h).part ≠ 0 ∧
    u.srcs.flatMap SU.queues = [q] ∧ (s.team (s.issOf h).w.team).queue q = [] ∧ (∃ x ∈ u.srcs, ∃ n, x.x = .q n false) ∧
    s.prodGone (s.team (s.issOf h).w.team) q = true :=
  ⟨stEmptyQ [(0, 3)], popU false, h64, 0, unlocked_of (by decide +kernel), views_of (by decide +kernel), by decide +kernel, by decide +kernel, by decide +kernel,
    ⟨su false (.q 0 false), List.mem_singleton_self _, 0, rfl⟩, by decide +kernel⟩
theorem witness_OperandTraps_waits : ∃ (s : State) (u : Uses) (h : Hdr) (q : Nat), Unlocked s u h ∧ ViewsClean s u h ∧ (s.issOf h).part ≠ 0 ∧
    u.srcs.flatMap SU.queues = [q] ∧ (s.team (s.issOf h).w.team).queue q = [] ∧ (∃ x ∈ u.srcs, ∃ n, x.x = .q n false) ∧
    s.prodGone (s.team (s.issOf h).w.team) q = false :=
  ⟨stEmptyQ [(0, 0)], popU false, h64, 0, unlocked_of (by decide +kernel), views_of (by decide +kernel), by decide +kernel, by decide +kernel, by decide +kernel,
    ⟨su false (.q 0 false), List.mem_singleton_self _, 0, rfl⟩, by decide +kernel⟩
def pushU : Uses := { srcs := [su false v1], push := some 0 }
theorem witness_OperandTraps_role : ∃ (s : State) (u : Uses) (h : Hdr) (q : Nat), Unlocked s u h ∧ ViewsClean s u h ∧ (s.issOf h).part ≠ 0 ∧
    u.srcs.flatMap SU.queues = [] ∧ u.push = some q ∧ Tab.get? (s.team (s.issOf h).w.team).prod q ≠ some (s.issOf h).w.role :=
  ⟨stEmptyQ [(0, 3)], pushU, h64, 0, unlocked_of (by decide +kernel), views_of (by decide +kernel), by decide +kernel, by decide +kernel, rfl, by decide +kernel⟩
theorem witness_OperandTraps_full : ∃ (s : State) (u : Uses) (h : Hdr) (q : Nat), Unlocked s u h ∧ ViewsClean s u h ∧ (s.issOf h).part ≠ 0 ∧
    u.srcs.flatMap SU.queues = [] ∧ u.push = some q ∧ Tab.get? (s.team (s.issOf h).w.team).prod q = some (s.issOf h).w.role ∧
    8 ≤ ((s.team (s.issOf h).w.team).queue q).length :=
  ⟨stQ (List.replicate 8 []), pushU, h64, 0, unlocked_of (by decide +kernel), views_of (by decide +kernel), by decide +kernel, by decide +kernel, rfl,
    by decide +kernel, by decide +kernel⟩
/-- Slot 3 is a clean copy of vector 1 with no valid lane. -/
theorem witness_OperandTraps_refetch : ∃ (s : State) (u : Uses) (h : Hdr), Readable s u h ∧ ViewsClean s u h ∧ (s.issOf h).part ≠ 0 ∧
    (s.issOf h).f.refetch = false ∧ ∃ x ∈ u.srcs, (s.issOf h).w.refetches (s.issOf h).part x.x = true :=
  ⟨stW fun w => { setVec 1 (fun _ => 5) w with o := [(3, { st := .clean 1 })] }, laneUses .vec false (.v 3 .none) [su false (.o 3)], h64,
    readable_of (by decide +kernel), views_of (by decide +kernel), by decide +kernel, by decide +kernel, by decide +kernel⟩

/-- The state after reset is settled, and so is one whose L2 holds a clean line and a dirty one. -/
def stLines : State := { base with l2 := [{ loc := base.home 0x18000, set := 0, way := 0, line := 0x18000 / 128, valid := 1 },
  { loc := base.home 0x18080, set := 0, way := 0, line := 0x18080 / 128, valid := 1, dirty := 1, data := [(0, 7)] }] }
theorem witness_IssueEffects_settled : Settled stLines :=
  ⟨by decide +kernel, by decide +kernel, by decide +kernel, by decide +kernel, by decide +kernel⟩
theorem witness_RangeWaits_descriptor : ∃ i h u ok vas seals s, rangeSem i = some (h, u, ok, vas, seals) ∧ MeetsRange i h u ok vas s ∧
    let c := s.ctx (s.team (s.issQ u h).w.team).pasid
    Settled s ∧ (∀ l ∈ s.l2, l.kind = .sealed → l.loc ≠ s.home (l.line * 128)) ∧ c.desc % 16384 = 0 ∧
    seals s (s.issQ u h) ≠ c.seals ∧ inDram c.desc 16384 = true ∧ s.chart = [] :=
  ⟨.seal ⟨h64, s8, s9⟩, _, _, _, _, _, stRange, rfl, run_of (by decide +kernel)
    ⟨⟨by decide +kernel, by decide +kernel, by decide +kernel⟩, fresh_of (by decide +kernel), reaches_of (by decide +kernel), by decide +kernel⟩,
    settled_of rfl rfl, by decide +kernel, by decide +kernel, by decide +kernel,
    by decide +kernel, by decide +kernel⟩

theorem witness_DecodeEncodes : ∃ (i : Instr) (w : BitVec 128), i.isWord = true ∧ i.wf = true ∧ encode i = some w :=
  ⟨.iadd ⟨h96, .s32, .v 255 (.o 7), .v 1 true true, .wide 0x7FFFF⟩, _, by decide +kernel, by decide +kernel, rfl⟩
theorem witness_DecodedIsWellFormed : ∃ (w : BitVec 128) (i : Instr), decode Env.max w = .ok i := ⟨0xF004, .nop ⟨h64⟩, by decide +kernel⟩
/-- The state that stores a `NOP` where the machine fetches, after reset. -/
def stStep : State := State.reset.withFetchWord 64 0xF004
theorem witness_StepKeepsInv : ∃ s t : State, s.Inv ∧ step s = .next t := by
  have y : (match step stStep with
    | .next _ => true
    | _ => false) = true := by decide +kernel
  revert y
  split
  · rename_i t h
    exact fun _ => ⟨stStep, t, ⟨by decide +kernel, by decide +kernel⟩, h⟩
  · exact nofun
theorem witness_StepRunsDecoded : ∃ (s t : State) (r : FragRef) (b : BitVec 128) (i : Instr), s.tripped = false ∧ s.arrivals = [] ∧ s.moves = [.issue r] ∧
    s.fetch (s.wave r.wave) ((s.wave r.wave).frag r.entry) = .word b ∧ decode ((s.wave r.wave).env ((s.wave r.wave).frag r.entry)) b = .ok i ∧
    exec i (((s.slipped r).fetchFill (s.wave r.wave) ((s.wave r.wave).frag r.entry)).issuing (s.wave r.wave) ((s.wave r.wave).frag r.entry) (.word b)) = .next t := by
  have y : (match exec (.nop ⟨h64⟩) (((stStep.slipped ⟨0, 0⟩).fetchFill (stStep.wave 0) ((stStep.wave 0).frag 0)).issuing (stStep.wave 0)
      ((stStep.wave 0).frag 0) (.word 0xF004)) with
    | .next _ => true
    | _ => false) = true := by decide +kernel
  revert y
  split
  · rename_i t h
    exact fun _ => ⟨stStep, t, ⟨0, 0⟩, 0xF004, .nop ⟨h64⟩, by decide +kernel, by decide +kernel, by decide +kernel, by decide +kernel, by decide +kernel, h⟩
  · exact nofun
theorem witness_ShutDownStops : ∃ s : State, s.tripped = true ∧ s.arrivals = [] := ⟨{ State.reset with tripped := true }, rfl, rfl⟩
theorem witness_ShutDownStops_reset : ∃ (s : State) (rom : RomCheck) (l : List (Option Instr)), s.tripped = true ∧ s.arrivals = some (.coldReset rom) :: l :=
  ⟨{ State.reset with tripped := true, arrivals := [some (.coldReset ⟨true, true⟩)] }, _, _, rfl, rfl⟩

/-! ### One step each, with results from the manual's worked examples or its tables -/

/-- R215's example address: its stack, slice, L2 set without and with a tenant key, and L1 set. -/
theorem test_address_map : stackOf 0x1234567880 = 6 ∧ sliceOf 0x1234567880 = 25 ∧ setOf 0 0 0x1234567880 = 241 ∧ setOf 2 5 0x1234567880 = 497
    ∧ l1Set 0x1234567880 = 241 := by decide +kernel

def v32 (x : Word) : State := stW (setVec 1 fun _ => x)
/-- The conversion examples of chapter 5. -/
theorem test_cvt_bf16_tie_even : laneV (run (.cvtF ⟨h64, .f .f32, .bf16, .rn, .v 3 .none, v1⟩) (v32 0x3F808000)) 3 63 = 0x3F80 := by decide +kernel
theorem test_cvt_bf16_tie_odd : laneV (run (.cvtF ⟨h64, .f .f32, .bf16, .rn, .v 3 .none, v1⟩) (v32 0x3F818000)) 3 0 = 0x3F82 := by decide +kernel
theorem test_cvt_f16_zero_saturates :
    let t := run (.cvtF ⟨h64, .f .f32, .f16, .rz, .v 3 .none, v1⟩) (v32 0x4788B800)
    laneV t 3 0 = 0x7BFF ∧ (t.wave 0).flags = 1 := by decide +kernel
def toE4m3 (x : Word) : State := run (.cvtQ ⟨h64, .e4m3, 0, .v 3 .none, v1, .zero⟩) (v32 x)
theorem test_cvtq_e4m3 : laneV (toE4m3 0x43960000) 3 0 = 0x79 ∧ ((toE4m3 0x43960000).wave 0).flags = 0 := by decide +kernel
theorem test_cvtq_e4m3_saturates : laneV (toE4m3 0x43FA0000) 3 0 = 0x7E ∧ ((toE4m3 0x43FA0000).wave 0).flags = 1 ∧ laneV (toE4m3 0xBA83126F) 3 0 = 0x81 := by
  decide +kernel
/-- With `lcvt` set, a NaN converts to the legacy value. -/
theorem test_cvti_nan_legacy :
    let s := stW fun w => { setVec 1 (fun _ => 0x7FC00000) w with md := BitVec.ofNat 32 (2 ^ 8) }
    laneV (run (.cvtI ⟨h64, .f .f32, .s32, .rz, .v 3 .none, v1⟩) s) 3 0 = 0x80000000 := by decide +kernel

/-- R156's example: lanes 0 to 7 without lane 3, which keeps its old value. -/
def stScan : State := stW fun w =>
  { setVec 1 (fun l => [5, 1, 4, 2, 3, 0, 6, 7].getD l 0) (setVec 3 (fun _ => 99) w) with p := [(1, 0xF7)] }
theorem test_scanw_excl :
    let t := run (.scanw ⟨{ h64 with gp := 1 }, .addS32, true, .v 3 .none, v1⟩) stScan
    (List.range 8).map (laneV t 3) = [0, 5, 6, 99, 10, 13, 13, 19] := by decide +kernel
theorem test_redw_sum : scal (run (.redw ⟨{ h64 with gp := 1 }, .addS32, false, .s 3, v1⟩) stScan) 3 = 26 := by decide +kernel

/-- R105's example: element 0 of a group is -75, `0b10110101`; plane j holds its bit 7 - j. -/
theorem test_bppack : (List.range 8).map (laneV (run (.bppack ⟨h64, 3, .none, v1⟩) (stW (setVec 1 fun l => if l = 0 then 0xB5 else 0))) 3)
    = [1, 0, 1, 1, 0, 1, 0, 1] := by decide +kernel
theorem test_bpunpk : laneV (run (.bpunpk ⟨h64, 3, .none, v1⟩) (stW (setVec 1 fun l => [1, 0, 1, 1, 0, 1, 0, 1].getD l 0))) 3 0 = 0xB5 := by decide +kernel

/-- R157's example: the key `0x51` meets slice 20 of die 1. -/
theorem test_xchg_mailbox : (run (.xchg ⟨h64, 1, 3, .none, v1, sc4⟩) (stW (setSc 4 0x51))).mail.map Xch.box = [48 + 20] := by decide +kernel
/-- Its outcome for wave X: lanes 0 to 15 are the partner's, the others its own, and P[G] says which. -/
def mailB (id wave : Nat) (m : Mask) (x : Word) (dep : Bool) : Xch :=
  { id := id, wave := wave, pasid := 0, key := 0x51, vals := mkLanes fun _ => x, mask := m, d := 8, g := 2, box := 68, deposited := dep }
theorem test_xchg_arrival :
    let t := run (.xchgArrival 71) (stMail [mailB 70 0 (BitVec.allOnes 64) 5 true, mailB 71 1 0xFFFF 6 false])
    laneV t 8 15 = 6 ∧ laneV t 8 16 = 5 ∧ (t.wave 0).pred false 2 = 0xFFFF ∧ (t.wave 1).vlane 8 15 = 5 ∧ t.mail = [] := by decide +kernel

/-- The record for emulation at the end of chapter 17. -/
def stK1 : State :=
  let s := (withVec [7] base).modWave 0 fun w => { w with dm := .k1, frags := w.frags.map fun f => { f with pc := 0x10040 } }
  s.issuing (s.wave 0) ((s.wave 0).frag 0) (.word 0x0005007FC0203770)
theorem test_emulation_record :
    let t := run (.unimplementedOpcode .unimplemented) stK1
    [32, 33, 34, 35, 36].map (Tab.getD 0 (t.wave 0).trec) = [0x08000807, 0x10040, 0x10048, 0xFFFFFFFFFFFFFFFF, 0xFFFFFFFFFFFFFFFF] := by decide +kernel
theorem test_emulation_operands :
    let t := run (.unimplementedOpcode .unimplemented) stK1
    [38, 39, 40, 41, 42, 43, 44].map (Tab.getD 0 (t.wave 0).trec) = [0x0005007FC0203770, 0, 3, 1, 5, 0, 0x0001000600010001] := by decide +kernel

/-- R429's example: 23 stored bytes with the dictionary `NOP` expand to `NOP`, `IADD`, `NOP`, `END`; a bound of 24 ends the load with status 8. -/
def nopBytes : List Byte := [0x04, 0xF0, 0, 0, 0, 0, 0, 0]
def lzBytes : List Byte :=
  [0x05, 0x08, 0x00, 0x85, 0x08, 0xF1, 0x14, 0x20, 0x01, 0x19, 0x03, 0x00, 0x10, 0x00, 0x80, 0x24, 0xF0, 0, 0, 0, 0, 0, 0]
def lzOut (bound : Nat) : Except Nat (List Byte) :=
  Sect.expand (nopBytes ++ lzBytes) [{ off := 0, stored := 0, bound := 0, dict := 0, rsv := 0, lz := false, kind := 0 },
    { off := 0, stored := 8, bound := 8, dict := 0, rsv := 0, lz := false, kind := 2 }]
    { off := 8, stored := 23, bound := bound, dict := 1, rsv := 0, lz := true, kind := 0 }
theorem test_lz : lzOut 32 = .ok (nopBytes ++ [0x08, 0xF1, 0x14, 0x20, 0x01, 0x19, 0x03, 0] ++ nopBytes ++ [0x24, 0xF0, 0, 0, 0, 0, 0, 0]) ∧ lzOut 24 = .error 8 := by
  decide +kernel

/-- Step 1 of chapter 2's example: lanes 0 to 15 taken make entry 1, the others stay in entry 0. -/
theorem test_bra_split :
    let t := run (.bra ⟨{ h96 with gp := 2 }, 20⟩) (stW fun w => { w with p := [(2, 0xFFFF)] })
    (t.wave 0).frags.map (fun f => (f.entry, f.mask, f.pc)) = [(0, 0xFFFFFFFFFFFF0000, 0x10008), (1, 0xFFFF, 0x100A0)] := by decide +kernel

theorem test_iadd_wraps : laneV (run (.iadd ⟨h64, .s32, .v 3 .none, v1, .imm 1⟩) (v32 0xFFFFFFFF)) 3 0 = 0 := by decide +kernel
theorem test_iadd_pair : let t := run (.iadd ⟨h64, .z64, .v 6 .none, .v 4 false false, .imm 1⟩) (stW (setVec 4 (fun _ => 0xFFFFFFFF) ∘ setVec 5 fun _ => 7))
    laneV t 6 0 = 0 ∧ laneV t 7 0 = 8 := by decide +kernel
theorem test_iadd_unguarded_lane : let t := run (.iadd ⟨{ h64 with gp := 1 }, .s32, .v 3 .none, v1, .imm 1⟩) stScan
    laneV t 3 3 = 99 ∧ laneV t 3 4 = 4 := by decide +kernel
theorem test_iabs_most_negative : laneV (run (.iabs ⟨h64, .s32, .v 3 .none, v1⟩) (v32 0x80000000)) 3 0 = 0x80000000 := by decide +kernel
theorem test_shl_full_width : laneV (run (.shl ⟨h64, .s32, .v 3 .none, v1, .imm 32⟩) (v32 0xFFFFFFFF)) 3 0 = 0
    ∧ laneV (run (.sar ⟨h64, .s32, .v 3 .none, v1, .imm 32⟩) (v32 0x80000000)) 3 0 = 0xFFFFFFFF := by decide +kernel
theorem test_rot_modulo : laneV (run (.rot ⟨h64, .z32, .v 3 .none, v1, .imm 33⟩) (v32 0x80000001)) 3 0 = 3 := by decide +kernel
theorem test_bfe_signed : laneV (run (.bfe ⟨h96, .s32, .v 3 .none, v1, .wide 0x0404⟩) (v32 0xA5)) 3 0 = 0xFFFFFFFA := by decide +kernel
/-- 1 + 2^-24 is a tie: to even 1, upward the next number. -/
def tieS : State := stW (setVec 1 (fun _ => 0x3F800000) ∘ setVec 2 fun _ => 0x33800000)
theorem test_fadd_rounds : laneV (run (.fadd ⟨h64, .rn, .v 3 .none, v1, v2⟩) tieS) 3 0 = 0x3F800000
    ∧ laneV (run (.fadd ⟨h64, .ru, .v 3 .none, v1, v2⟩) tieS) 3 0 = 0x3F800001 := by decide +kernel
theorem test_vote_ballot : scal (run (.vote ⟨h64, .ballot 3, 1⟩) stScan) 3 = 0xF7 := by decide +kernel
theorem test_sadd : scal (run (.sadd ⟨h64, 3, sc4, .imm 0xFF⟩) (stW (setSc 4 1))) 3 = 0 := by decide +kernel
/-- Little-endian, and a lane outside the guard stores nothing. -/
theorem test_sts_bytes :
    let t := run (.sts ⟨{ h64 with gp := 1 }, .w, .raw, v3, v1, 0⟩) (stTW (fun t => { t with lsize := 256 }) fun w =>
      { setVec 1 (fun _ => 0xAABBCCDD) (setVec 3 (fun l => BitVec.ofNat 32 (4 * l)) w) with p := [(1, 2)] })
    (List.range 12).map (t.team 0).lmem.get = [0, 0, 0, 0, 0xDD, 0xCC, 0xBB, 0xAA, 0, 0, 0, 0] := by decide +kernel
theorem test_sts_out_of_bounds : ((run (.sts ⟨h64, .w, .raw, v3, v1, 0⟩) (issue0 (((withVec [27] base).modTeam 0 fun t => { t with lsize := 252 }).modWave 0
    (setVec 3 fun l => BitVec.ofNat 32 (4 * l))))).wave 0).h.map HCtx.cause = some 27 := by decide +kernel
/-- A lane's element lies at base + index times stride (R234). -/
theorem test_ld_addresses : ((run (.ld ⟨h64, .w, .raw, false, 8, 4, (false, false), v1, 4, mf0⟩) stG).ops.map fun o => (o.out.map LaneAcc.va).take 2)
    = [[0x18004, 0x18014]] := by decide +kernel
theorem test_qpush_order : ((run (.qpush ⟨h64, 0, v1, none⟩) (stQ [mkLanes fun _ => 9])).team 0).queue 0 |>.map (fun e => laneAt e 5) |> (· = [9, 5]) := by decide +kernel
theorem test_accept : let t := run (.accept ⟨h64, 2, v1⟩) (stW fun w =>
      { setVec 1 (fun l => if l = 0 then 1 else 0) (setVec 248 (fun _ => 5) w) with prop := some { base := 248, n := 8, sh := [(0, mkLanes fun _ => 3)], w := [(0, 3)] } })
    (t.wave 0).acc.toNat + (t.wave 0).rej.toNat = 64 ∧ (t.wave 0).prop = none := by decide +kernel
theorem test_brkpt_code : (Tab.getD 0 ((run (.brkpt ⟨h64, 7⟩) (stVec id)).wave 0).trec 32).toNat / 2 ^ 32 % 256 = 7 := by decide +kernel
theorem test_rds_lane : laneV (run (.rds ⟨h64, .v 3 .none, 0⟩) stR) 3 63 = 63 := by decide +kernel
/-- An instruction placed where the machine fetches is the first that runs after reset. -/
theorem test_step_runs : (nextOf (step (State.reset.withFetchWord 64 0xF004))).waves.map (fun e => e.2.frags.map Frag.pc) = [[0x10008]] := by decide +kernel
theorem test_write_reads_back : ((State.reset.mem.set 5 7).get 5, (State.reset.mem.set 5 7).get 6) = (7, 0) := by decide

/-- The list of R381, its entries 16 bytes apart from `0x200`: five ids, the last entry ends it. -/
theorem test_capability_walk : capWalk (Tab.get? (capWords (fun i => 0x200 + 16 * i) 0 capEntries)) 8 0x200 = [1, 2, 3, 4, 5] := by decide +kernel
/-- The header's fields of R397: the window base and size code, width, team wave number, tiles, granules, role, quarter, slot. -/
theorem test_image_header :
    let w : Wave := { id := 7, team := 0, num := 5, role := 2, q := 3, slot := 9, vN := 64, sN := 16, tN := 4, w32 := true, frags := [{ entry := 1 }]
                      prop := some { base := 8, n := 16, prim := [(1, .poison)] } }
    let h := (imageHeader [w]).toNat
    [h / 2 ^ 160, h / 2 ^ 120 % 256, h / 2 ^ 118 % 4, h / 2 ^ 99 % 32, h / 2 ^ 64 % 2 ^ 32, h / 2 ^ 59 % 32, h / 2 ^ 54 % 32, h / 2 ^ 48 % 64,
      h / 2 ^ 46 % 4, h / 2 ^ 44 % 4, h / 2 ^ 40 % 16] = [2, 8, 1, 5, 5, 4, 2, 8, 2, 3, 9] := by decide +kernel

/-! The ends of waits -/

/-- The fragment stands in this wait, with nothing of its machine in the way. -/
def AtWait (s : State) (w : Wave) (f : Frag) (x : Wait) : Prop :=
  Tab.get? s.waves 0 = some w ∧ w.frags.find? (fun g => g.entry == 0) = some f ∧ f.st = .waiting ∧ f.wait = x ∧ w.away = false ∧
    s.mayIssue w.core = true ∧ (∃ m, Tab.get? s.teams w.team = some m) ∧ ∃ c ∈ s.ctxs, c.pasid = (s.team w.team).pasid
def atWaitB (s : State) (x : Wait) : Bool :=
  let w := s.wave 0
  let f := w.frag 0
  decide (Tab.get? s.waves 0 = some w) && decide (w.frags.find? (fun g => g.entry == 0) = some f) && decide (f.st = .waiting ∧ f.wait = x) &&
    !w.away && s.mayIssue w.core && (Tab.get? s.teams w.team).isSome && decide (∃ c ∈ s.ctxs, c.pasid = (s.team w.team).pasid)
theorem at_wait {s : State} {x : Wait} (h : atWaitB s x = true) : AtWait s (s.wave 0) ((s.wave 0).frag 0) x := by
  simp only [atWaitB, Bool.and_eq_true, decide_eq_true_eq, Bool.not_eq_true', Option.isSome_iff_exists] at h
  obtain ⟨⟨⟨⟨⟨⟨a, b⟩, c⟩, d⟩, e⟩, f⟩, g⟩ := h
  exact ⟨a, b, c.1, c.2, d, e, f, g⟩
def stWait (x : Wait) : State := base.modWave 0 (waitingW x)
/-- The same with its team changed. -/
def stWaitT (x : Wait) (f : Team → Team) : State := (stWait x).modTeam 0 f
/-- The same with counter 63 of its context. -/
def stWaitL (x : Wait) (l : TL) : State := { stWait x with ctxs := (stWait x).ctxs.map fun c => { c with tl := [(63, l)] } }
def relW (k : Cont) : Wait := .rel .system 61 k
theorem witness_WaitsEnd_away : ∃ (s : State) (w : Wave) (f : Frag), Tab.get? s.waves 0 = some w ∧
    w.frags.find? (fun g => g.entry == 0) = some f ∧ f.st = .waiting ∧ w.away = true :=
  let s := (stWait .mxwait).modWave 0 fun w => { w with away := true }
  ⟨s, s.wave 0, (s.wave 0).frag 0, by decide +kernel, by decide +kernel, by decide +kernel, by decide +kernel⟩
theorem witness_WaitsEnd_outstanding : ∃ s w f, AtWait s w f (relW .bar) ∧ ∃ o ∈ s.ops, o.wave = 0 ∧ o.id < 61 :=
  ⟨{ stWait (relW .bar) with ops := [opOf (.nop ⟨h64⟩)] }, _, _, at_wait (by decide +kernel), by decide +kernel⟩
def conts : List Cont := [.fence true, .bar, .gbar, .cpy 3 63 0, .tladv 63 7, .spawn 3 0, .send 60]
theorem released_conts : ∀ k ∈ conts, atWaitB (stWait (relW k)) (relW k) = true ∧ ∀ o ∈ (stWait (relW k)).ops, o.wave = 0 → 61 ≤ o.id := by decide +kernel
theorem witness_WaitsEnd_released : ∀ k ∈ conts, ∃ s w f, AtWait s w f (relW k) ∧ ∀ o ∈ s.ops, o.wave = 0 → 61 ≤ o.id :=
  fun k h => ⟨stWait (relW k), _, _, at_wait (released_conts k h).1, (released_conts k h).2⟩
/-- An arrival at the object at offset 16, of which two are expected and one has come. -/
def stArrive (expected : Nat) : State := stWaitT (relW (.bara 3 16 0 [])) fun t => { t with lsize := 32, lmem := Memory.setNum [] 16 16 (1 + expected * 2 ^ 16) }
theorem witness_WaitsEnd_arrival : ∃ s w f, AtWait s w f (relW (.bara 3 16 0 [])) ∧ (∀ o ∈ s.ops, o.wave = 0 → 61 ≤ o.id) ∧
    boExpected (s.barObj 0 16) = 2 ∧ boArrived (s.barObj 0 16) = 1 ∧ boBytes (s.barObj 0 16) = 0 :=
  ⟨stArrive 2, _, _, at_wait (by decide +kernel), by decide +kernel, by decide +kernel, by decide +kernel, by decide +kernel⟩
theorem witness_WaitsEnd_arrivalTraps : ∃ s w f, AtWait s w f (relW (.bara 3 16 0 [])) ∧ (∀ o ∈ s.ops, o.wave = 0 → 61 ≤ o.id) ∧
    boExpected (s.barObj 0 16) ≤ boArrived (s.barObj 0 16) ∧ w.inHandler 0 = false :=
  ⟨stArrive 1, _, _, at_wait (by decide +kernel), by decide +kernel, by decide +kernel, by decide +kernel⟩
theorem witness_WaitsEnd_acquire : ∃ s w f, AtWait s w f (.acq .device 61) ∧ ∀ o ∈ s.ops, o.wave = 0 → o.id < 61 → storesOnly o.instr = true :=
  ⟨stWait (.acq .device 61), _, _, at_wait (by decide +kernel), by decide +kernel⟩
theorem witness_WaitsEnd_acquireWaits : ∃ s w f, AtWait s w f (.acq .device 61) ∧ ∃ o ∈ s.ops, o.wave = 0 ∧ o.id < 61 ∧ storesOnly o.instr = false :=
  ⟨{ stWait (.acq .device 61) with ops := [ldOp] }, _, _, at_wait (by decide +kernel), by decide +kernel⟩
theorem witness_WaitsEnd_phase : ∃ s w f, AtWait s w f (.barw 16 true) ∧ boPhase (s.barObj 0 16) = false :=
  ⟨stWait (.barw 16 true), _, _, at_wait (by decide +kernel), by decide +kernel⟩
theorem witness_WaitsEnd_phaseWaits : ∃ s w f, AtWait s w f (.barw 16 false) ∧ boPhase (s.barObj 0 16) = false :=
  ⟨stWait (.barw 16 false), _, _, at_wait (by decide +kernel), by decide +kernel⟩
def tlW : Wait := .tlwait .device 63 7 (List.replicate 15 0)
theorem witness_WaitsEnd_timelineWaits : ∃ s w f, AtWait s w f tlW ∧ ((s.ctx 0).tlc 63).v < 7 :=
  ⟨stWaitL tlW { v := 6, i := 7 }, _, _, at_wait (by decide +kernel), by decide +kernel⟩
theorem witness_WaitsEnd_timeline : ∃ s w f, AtWait s w f tlW ∧ 7 ≤ ((s.ctx 0).tlc 63).v ∧ (((s.acquire 0 w.core .device).ctx 0).tlc 63).e = 0 :=
  ⟨stWaitL tlW { v := 7, i := 7 }, _, _, at_wait (by decide +kernel), by decide +kernel, by decide +kernel⟩
/-- The copy of number 7 has failed. -/
theorem witness_WaitsEnd_copyError : ∃ s w f, AtWait s w f tlW ∧ 7 ≤ ((s.ctx 0).tlc 63).v ∧
    (((s.acquire 0 w.core .device).ctx 0).tlc 63).e = 7 ∧ 14 < (List.replicate 15 (0 : DWord)).length :=
  ⟨stWaitL tlW { v := 7, i := 7, e := 7, ecause := 3 }, _, _, at_wait (by decide +kernel), by decide +kernel,
    by decide +kernel, by decide⟩
def cqW : Wait := .cpyq 3 63 rq0
theorem witness_WaitsEnd_copyWaits : ∃ s w f, AtWait s w f cqW ∧ 64 ≤ (s.queued w.core).length :=
  ⟨{ stWait cqW with copies := List.replicate 64 (copy0 false 0) }, _, _, at_wait (by decide +kernel), by decide +kernel⟩
theorem witness_WaitsEnd_copy : ∃ s w f, AtWait s w f cqW ∧ (s.queued w.core).length = 63 :=
  ⟨{ stWait cqW with copies := List.replicate 63 (copy0 false 0) }, _, _, at_wait (by decide +kernel), by decide +kernel⟩
theorem witness_WaitsEnd_task : ∃ s w f, AtWait s w f (.spawn 3 task0.rq) ∧ (Tab.get? s.parts (s.team w.team).part).isSome = true ∧
    ¬(4088 ≤ ((s.part (s.team w.team).part).tasks.filter fun k => !k.res).length) :=
  ⟨stWait (.spawn 3 task0.rq), _, _, at_wait (by decide +kernel), by decide +kernel, by decide +kernel⟩
/-- The shared entries are in use, and the reserved one of depth 1. -/
theorem witness_WaitsEnd_taskWaits : ∃ s w f, AtWait s w f (.spawn 3 task0.rq) ∧ (Tab.get? s.parts (s.team w.team).part).isSome = true ∧
    4088 ≤ ((s.part (s.team w.team).part).tasks.filter fun k => !k.res).length ∧ ∃ k ∈ (s.part (s.team w.team).part).tasks, k.res = true ∧ k.depth = (s.team w.team).depth + 1 :=
  ⟨(stWait (.spawn 3 task0.rq)).modPart 0 fun p => { p with tasks := { task0 with res := true } :: List.replicate 4088 task0 }, _, _,
    at_wait (by decide +kernel), by decide +kernel, by decide +kernel, by decide +kernel⟩
theorem witness_WaitsEnd_matrix : ∃ s w f, AtWait s w f .mxwait ∧ w.owesMatrix = false := ⟨stWait .mxwait, _, _, at_wait (by decide +kernel), by decide +kernel⟩
theorem witness_WaitsEnd_matrixWaits : ∃ s w f, AtWait s w f .mxwait ∧ w.owesMatrix = true :=
  ⟨(stWait .mxwait).modWave 0 fun w => { w with mx := some { first := 0, pend := [.quad 0] } }, _, _, at_wait (by decide +kernel), by decide +kernel⟩
/-- Queue 0, of the wave's own role, with these entries. -/
def stWaitQ (x : Wait) (es : List Lanes) : State := stWaitT x fun t => { t with q := [(0, es)], prod := [(0, 0)] }
theorem witness_WaitsEnd_popWaits : ∃ s w f, AtWait s w f (.pop 0) ∧ (s.team w.team).queue 0 = [] ∧ s.prodGone (s.team w.team) 0 = false :=
  ⟨stWaitQ (.pop 0) [], _, _, at_wait (by decide +kernel), by decide +kernel, by decide +kernel⟩
theorem witness_WaitsEnd_pop : ∃ s w f, AtWait s w f (.pop 0) ∧ (s.team w.team).queue 0 ≠ [] :=
  ⟨stWaitQ (.pop 0) [[]], _, _, at_wait (by decide +kernel), by decide +kernel⟩
theorem witness_WaitsEnd_pushWaits : ∃ s w f, AtWait s w f (.push 0) ∧ ((s.team w.team).queue 0).length = 8 :=
  ⟨stWaitQ (.push 0) (List.replicate 8 []), _, _, at_wait (by decide +kernel), by decide +kernel⟩
theorem witness_WaitsEnd_push : ∃ s w f, AtWait s w f (.push 0) ∧ ((s.team w.team).queue 0).length = 7 :=
  ⟨stWaitQ (.push 0) (List.replicate 7 []), _, _, at_wait (by decide +kernel), by decide +kernel⟩
def stBar (l : List Nat) : State := stWaitT .bar fun t => { t with bar := l }
theorem witness_WaitsEnd_barrier : ∃ (s : State) (tm : Team) (v : Wave) (g : Frag), Tab.get? s.teams 0 = some tm ∧ tm.bar ≠ [] ∧
    (∀ n ∈ tm.waves, (s.wave n).live = true → n ∈ tm.bar) ∧ tm.waves.Nodup ∧ 0 ∈ tm.waves ∧ Tab.get? s.waves 0 = some v ∧ v.frags = [g] ∧ g.wait = .bar :=
  ⟨stBar [0], (stBar [0]).team 0, (stBar [0]).wave 0, ((stBar [0]).wave 0).frag 0, by decide +kernel, by decide +kernel, by decide +kernel, by decide +kernel,
    by decide +kernel, by decide +kernel, by decide +kernel, by decide +kernel⟩
theorem witness_WaitsEnd_barrierWaits : ∃ (s : State) (tm : Team), Tab.get? s.teams 0 = some tm ∧ tm.bar = [1] ∧ ∃ n ∈ tm.waves, (s.wave n).live = true ∧ n ∉ tm.bar :=
  ⟨stBar [1], (stBar [1]).team 0, by decide +kernel, by decide +kernel, by decide +kernel⟩

/-! Requests over lines -/

/-- What `RequestsAreServed` asks of a request over a line. -/
def AtSlice (s : State) (r : Req) (o : Op) : Prop :=
  FirstRequest s r o ∧ r.kind = .line ∧ Settled (s.asSent r) ∧ Quiet (s.asSent r) r.pa
theorem at_slice {s : State} {r : Req} {o : Op} (k : r.kind = .line) (n : (s.asSent r).l1 = [] ∧ (s.asSent r).l2 = [])
    (h : (decide (s.reqs.find? (fun q => q.id == r.id) = some r ∧ s.reaches r = true ∧ s.op? r.op = some o) && decide ((s.asSent r).cut r.pa = none)) = true) :
    AtSlice s r o := by
  simp only [Bool.and_eq_true, decide_eq_true_eq] at h
  exact ⟨h.1, k, settled_of n.1 n.2, by rw [n.1]; exact nofun, h.2⟩
def lineReq (pa : Nat) : Req := { reqOf .line with pa := pa }
/-- A bearing instruction at entry 1, which holds `e`, with its image or member. -/
def brOp (i : Instr) (m : Nat) : Op := { opOf i with lanes := [{ lane := 0, va := 1, data := BitVec.ofNat 512 m }] }
def brAt : Nat := base.bearAddr 0 1
def stEntry (e : Nat) (o : Op) : State := { base with mem := base.mem.setNum brAt 32 e, reqs := [lineReq brAt], ops := [o] }
/-- The condition of the bearing instructions that change an entry. -/
def AtEntry (s : State) (r : Req) (o : Op) : Prop :=
  r.pa = (s.asSent r).bearAddr o.pasid o.index ∧ o.index ≠ 0 ∧ r.pa % 32 = 0 ∧ remote r.pa = false ∧
    ∀ c, (s.asSent r).chartOf r.pa = some c → c.berth < 2 → ((s.asSent r).berthLine c).isSome = true
theorem at_entry {s : State} {r : Req} {o : Op}
    (h : (decide (r.pa = (s.asSent r).bearAddr o.pasid o.index ∧ o.index ≠ 0 ∧ r.pa % 32 = 0 ∧ remote r.pa = false) && decide ((s.asSent r).chartOf r.pa = none)) = true) :
    AtEntry s r o := by
  simp only [Bool.and_eq_true, decide_eq_true_eq] at h
  exact ⟨h.1.1, h.1.2.1, h.1.2.2.1, h.1.2.2.2, fun c e => by rw [h.2] at e; exact absurd e nofun⟩
def setOp : Op := brOp (.brset ⟨h64, .imm 1, 8, (false, false)⟩) (2 ^ 255 + 3)
theorem witness_RequestsAreServed_set : ∃ s r o, AtSlice s r o ∧ AtEntry s r o ∧ ∃ x, o.instr = .brset x :=
  ⟨stEntry 0 setOp, lineReq brAt, setOp, at_slice rfl (by decide +kernel) (by decide +kernel), at_entry (by decide +kernel), _, rfl⟩
def addOp (m : Nat) : Op := brOp (.bradd ⟨h64, .imm 1, sc4⟩) m
theorem witness_RequestsAreServed_add : ∃ s r o, AtSlice s r o ∧ AtEntry s r o ∧ (∃ x, o.instr = .bradd x) ∧
    let e := (s.asSent r).bearing o.pasid o.index
    bValid e = true ∧ bKind e = 0 ∧ o.image.toNat = 159 :=
  ⟨stEntry (2 ^ 255) (addOp 159), lineReq brAt, addOp 159, at_slice rfl (by decide +kernel) (by decide +kernel), at_entry (by decide +kernel), ⟨_, rfl⟩,
    by decide +kernel, by decide +kernel, by decide +kernel⟩
theorem witness_RequestsAreServed_addRefused : ∃ s r o, AtSlice s r o ∧ AtEntry s r o ∧ (∃ x, o.instr = .bradd x) ∧
    let e := (s.asSent r).bearing o.pasid o.index
    bKind e = 0 ∧ o.image.toNat = 160 :=
  ⟨stEntry (2 ^ 255) (addOp 160), lineReq brAt, addOp 160, at_slice rfl (by decide +kernel) (by decide +kernel), at_entry (by decide +kernel), ⟨_, rfl⟩,
    by decide +kernel, by decide +kernel⟩
/-- The range of teams 5 to 9. -/
def rangeE : Nat := 2 ^ 255 + 2 ^ 253 + 5 + 9 * 2 ^ 32
def delOp (m : Nat) : Op := brOp (.brdel ⟨h64, .imm 1, sc4⟩) m
theorem witness_RequestsAreServed_delete : ∃ s r o, AtSlice s r o ∧ AtEntry s r o ∧ (∃ x, o.instr = .brdel x) ∧
    let e := (s.asSent r).bearing o.pasid o.index
    bValid e = true ∧ bKind e = 1 ∧ bFirst e ≤ bLast e ∧ o.image.toNat = bLast e :=
  ⟨stEntry rangeE (delOp 9), lineReq brAt, delOp 9, at_slice rfl (by decide +kernel) (by decide +kernel), at_entry (by decide +kernel), ⟨_, rfl⟩,
    by decide +kernel, by decide +kernel, by decide +kernel, by decide +kernel⟩
theorem witness_RequestsAreServed_deleteRefused : ∃ s r o, AtSlice s r o ∧ AtEntry s r o ∧ (∃ x, o.instr = .brdel x) ∧
    let e := (s.asSent r).bearing o.pasid o.index
    bKind e = 1 ∧ bFirst e < o.image.toNat ∧ o.image.toNat < bLast e :=
  ⟨stEntry rangeE (delOp 8), lineReq brAt, delOp 8, at_slice rfl (by decide +kernel) (by decide +kernel), at_entry (by decide +kernel), ⟨_, rfl⟩,
    by decide +kernel, by decide +kernel, by decide +kernel⟩
def rdOp : Op := brOp (.brrd ⟨h64, 12, .imm 1⟩) 0
theorem witness_RequestsAreServed_entry : ∃ s r o, AtSlice s r o ∧ r.pa = (s.asSent r).bearAddr o.pasid o.index ∧ ∃ x, o.instr = .brrd x :=
  ⟨stEntry rangeE rdOp, lineReq brAt, rdOp, at_slice rfl (by decide +kernel) (by decide +kernel), by decide +kernel, _, rfl⟩
/-- A cached copy does not hold the changed entry, or all do. -/
def stTold (e : Nat) : State := { stEntry 3 setOp with reqs := [{ lineReq brAt with kind := .told }], bears := [{ at? := 0, pasid := 0, b := 1, e := BitVec.ofNat 256 e }] }
theorem witness_RequestsAreServed_told : ∃ s r o, FirstRequest s r o ∧ r.kind = .told ∧ (s.asSent r).staleBearings o.pasid o.index ≠ [] :=
  ⟨stTold 2, { lineReq brAt with kind := .told }, setOp, by unfold FirstRequest; decide +kernel, rfl, by decide +kernel⟩
theorem witness_RequestsAreServed_toldAll : ∃ s r o, FirstRequest s r o ∧ r.kind = .told ∧ (s.asSent r).staleBearings o.pasid o.index = [] :=
  ⟨stTold 3, { lineReq brAt with kind := .told }, setOp, by unfold FirstRequest; decide +kernel, rfl, by decide +kernel⟩
/-- An instruction at the line of `0x18000`, which is parked for bearing 1. -/
def stLineOp (o : Op) : State := { base with reqs := [lineReq 0x18000], ops := [o], chart := [parkOf 0] }
def unparkOp : Op := opOf (.unpark ⟨h96, false, 4, (false, false), .zero, .zero, 0⟩)
theorem witness_RequestsAreServed_unpark : ∃ s r o, AtSlice s r o ∧ (∃ x, o.instr = .unpark x) ∧ NoSpread (s.asSent r) r.pa ∧
    ∃ c, (s.asSent r).chartOf r.pa = some c ∧ c.pasid = o.pasid :=
  ⟨stLineOp unparkOp, lineReq 0x18000, unparkOp, at_slice rfl (by decide +kernel) (by decide +kernel), ⟨_, rfl⟩,
    by intro q m b d a x e; rw [List.mem_singleton.mp m] at e; exact absurd e nofun, parkOf 0, by decide +kernel, rfl⟩
def sealOp : Op := opOf (.seal ⟨h64, s8, s9⟩)
theorem witness_RequestsAreServed_seal : ∃ s r o, AtSlice s r o ∧ (∃ x, o.instr = .seal x) ∧
    (∀ k < 32, NoSpread (s.asSent r) (r.pa / 4096 * 4096 + 128 * k)) ∧ ((s.asSent r).chartOf (r.pa / 4096 * 4096)).isSome = true :=
  ⟨stLineOp sealOp, lineReq 0x18000, sealOp, at_slice rfl (by decide +kernel) (by decide +kernel), ⟨_, rfl⟩,
    fun _ _ => by intro q m b d a x e; rw [List.mem_singleton.mp m] at e; exact absurd e nofun, by decide +kernel⟩
/-- The home slice holds a dirty line. -/
def stDirty (o : Op) : State := { stLines with reqs := [lineReq 0x18080], ops := [o] }
def cinvOp : Op := opOf (.cinv ⟨h96, true, 4, (false, false), .zero, .zero, 0⟩)
theorem witness_RequestsAreServed_invalidate : ∃ s r o, AtSlice s r o ∧ (∃ x, o.instr = .cinv x ∧ x.lvl = true) ∧
    ∃ l ∈ (s.asSent r).l2, l.line = r.pa / 128 ∧ l.loc = (s.asSent r).home r.pa ∧ l.dirty ≠ 0 :=
  ⟨stDirty cinvOp, lineReq 0x18080, cinvOp, ⟨by unfold FirstRequest; decide +kernel, rfl, ⟨by decide +kernel, by decide +kernel, by decide +kernel, by decide +kernel, by decide +kernel⟩, by decide +kernel, by decide +kernel⟩, ⟨_, rfl, rfl⟩, by decide +kernel⟩
def cwbOp : Op := opOf (.cwb ⟨h96, false, 4, (false, false), .zero, .zero, 0⟩)
theorem witness_RequestsAreServed_writeBack : ∃ s r o, AtSlice s r o ∧ (∃ x, o.instr = .cwb x) ∧
    ∃ l ∈ (s.asSent r).l2, l.line = r.pa / 128 ∧ l.loc = (s.asSent r).home r.pa ∧ l.dirty ≠ 0 :=
  ⟨stDirty cwbOp, lineReq 0x18080, cwbOp, ⟨by unfold FirstRequest; decide +kernel, rfl, ⟨by decide +kernel, by decide +kernel, by decide +kernel, by decide +kernel, by decide +kernel⟩, by decide +kernel, by decide +kernel⟩, ⟨_, rfl⟩, by decide +kernel⟩

/-! Stores and atomics at the point of order -/

/-- What `StoresAndAtomicsLand` asks of every request. -/
def Lands (s : State) (r : Req) (o : Op) : Prop := FirstRequest s r o ∧ Quiet s r.pa ∧ s.asSent r = s
def landsB (s : State) (r : Req) (o : Op) : Bool :=
  decide (s.reqs.find? (fun q => q.id == r.id) = some r ∧ s.reaches r = true ∧ s.op? r.op = some o) && decide (s.cut r.pa = none)
    && s.l1.all fun l => decide (l.kind ≠ .update)
theorem lands_of {s : State} {r : Req} {o : Op} (h : landsB s r o = true) (e : s.asSent r = s) : Lands s r o := by
  simp only [landsB, Bool.and_eq_true, decide_eq_true_eq, List.all_eq_true] at h
  exact ⟨h.1.1, ⟨fun l m k => absurd k (h.2 l m), h.1.2⟩, e⟩
/-- What it asks of a store. -/
def Storing (s : State) (r : Req) (o : Op) (ls : List LaneAcc) : Prop :=
  Lands s r o ∧ r.kind = .write ls ∧ ls ≠ [] ∧ InSector ls o.size r.pa ∧ ∀ l ∈ ls, (s.ctx o.pasid).sealed l.va = false
theorem storing_of {s : State} {r : Req} {o : Op} {ls : List LaneAcc} (a : landsB s r o = true) (e : s.asSent r = s) (k : r.kind = .write ls)
    (h : decide (ls ≠ [] ∧ (0 < o.size ∧ ∀ l ∈ ls, l.pa / 32 = r.pa / 32 ∧ (l.pa + o.size - 1) / 32 = r.pa / 32) ∧ ∀ l ∈ ls, (s.ctx o.pasid).sealed l.va = false) = true) :
    Storing s r o ls := by
  simp only [decide_eq_true_eq] at h
  exact ⟨lands_of a e, k, h.1, h.2.1, h.2.2⟩
theorem no_spread {s : State} {pa : Nat} (h : (s.reqs.all fun r => match r.kind with
    | .spread _ _ _ _ => false
    | _ => true) = true) : NoSpread s pa := fun r m b d a x e => by simpa [e] using List.all_eq_true.mp h r m
def ls2 : List LaneAcc := [lane0 0x1801C 0xAABBCCDD, { lane0 0x1801C 1 with lane := 63 }]
/-- A store of bearing 0 to a line that nothing holds. -/
theorem witness_StoresAndAtomicsLand_unheld : ∃ s r o ls, Storing s r o ls ∧ o.bear = 0 ∧ Settled s ∧ NoSpread s r.pa :=
  ⟨stReq stores stOp, reqOf stores, stOp, ls2, storing_of (by decide +kernel) rfl rfl (by decide +kernel), rfl, settled_of rfl rfl, no_spread (by decide +kernel)⟩
/-- A store of bearing 1, whose entry is `e`, with this room for parked lines in the L1s. -/
def bearOp : Op := { stOp with bear := 1 }
def stBear (e ways : Nat) : State :=
  let s := (stReq stores bearOp).modPart 0 fun p => { p with entry := (p.entry &&& ~~~(7#128 <<< 94)) ||| BitVec.ofNat 128 (ways * 2 ^ 94) }
  { s with mem := s.mem.setNum (s.bearAddr 0 1) 32 e }
/-- A store that parks: its bearing names readers and the chart has room. -/
def Parking (s : State) (r : Req) (o : Op) : Prop :=
  ¬(o.bear = 0 ∨ remote r.pa = true ∨ o.mtype = 2 ∨ bValid (s.bearingAt (s.home r.pa / 48) o.pasid o.bear) = false ∨
    s.readerCores o.pasid (s.bearingAt (s.home r.pa / 48) o.pasid o.bear) = [] ∨ s.chartFull o.pasid r.pa = true) ∧
  Settled s ∧ NoSpread s r.pa ∧ ∀ c, s.chartOf r.pa = some c → c.berth < 2 → (s.berthLine c).isSome = true
def parkingB (s : State) (r : Req) (o : Op) : Bool :=
  decide (¬(o.bear = 0 ∨ remote r.pa = true ∨ o.mtype = 2 ∨ bValid (s.bearingAt (s.home r.pa / 48) o.pasid o.bear) = false ∨
    s.readerCores o.pasid (s.bearingAt (s.home r.pa / 48) o.pasid o.bear) = [] ∨ s.chartFull o.pasid r.pa = true)) &&
  (s.reqs.all fun r => match r.kind with
    | .spread _ _ _ _ => false
    | _ => true) &&
  match s.chartOf r.pa with
  | none => true
  | some c => (s.berthLine c).isSome
theorem parking_of {s : State} {r : Req} {o : Op} (n : Settled s) (h : parkingB s r o = true) : Parking s r o := by
  simp only [parkingB, Bool.and_eq_true, decide_eq_true_eq] at h
  refine ⟨h.1.1, n, no_spread h.1.2, fun c e _ => ?_⟩
  have y := h.2
  rw [e] at y; exact y
/-- The berth that the statement names. -/
def berthAt (s : State) (r : Req) (o : Op) : Berth := berthOf (s.readerCores o.pasid (s.bearingAt (s.home r.pa / 48) o.pasid o.bear))
def readers0 : Nat := 2 ^ 255 + 1
theorem witness_StoresAndAtomicsLand_parks : ∃ s r o ls, Storing s r o ls ∧ Parking s r o ∧ s.fullAt o.pasid r.pa (berthAt s r o) = [] ∧ berthAt s r o = .l1 0 :=
  ⟨stBear readers0 1, reqOf stores, bearOp, ls2, storing_of (by decide +kernel) rfl rfl (by decide +kernel), parking_of (settled_of rfl rfl) (by decide +kernel),
    by decide +kernel, by decide +kernel⟩
/-- No way is free at the L1 nor at the L2: under the default policy the line goes to the stack, under `FAULT` the store is refused. -/
theorem witness_StoresAndAtomicsLand_spills : ∃ s r o ls, Storing s r o ls ∧ Parking s r o ∧ s.inPlace (o.asker s) o.bear r.pa = false ∧
    bPolicy (s.bearingAt (s.home r.pa / 48) o.pasid o.bear) = 0 ∧ s.fullAt o.pasid r.pa (berthAt s r o) ≠ [] ∧
    s.fullAt o.pasid r.pa (berthAt s r o).outward ≠ [] :=
  ⟨stBear readers0 0, reqOf stores, bearOp, ls2, storing_of (by decide +kernel) rfl rfl (by decide +kernel), parking_of (settled_of rfl rfl) (by decide +kernel),
    by decide +kernel, by decide +kernel, by decide +kernel, by decide +kernel⟩
theorem witness_StoresAndAtomicsLand_fault : ∃ s r o ls, Storing s r o ls ∧ Parking s r o ∧ s.inPlace (o.asker s) o.bear r.pa = false ∧
    bPolicy (s.bearingAt (s.home r.pa / 48) o.pasid o.bear) = 2 ∧ s.fullAt o.pasid r.pa (berthAt s r o) ≠ [] :=
  ⟨stBear (readers0 + 2 ^ 252) 0, reqOf stores, bearOp, ls2, storing_of (by decide +kernel) rfl rfl (by decide +kernel),
    parking_of (settled_of rfl rfl) (by decide +kernel), by decide +kernel, by decide +kernel, by decide +kernel⟩
/-- A fan-out line, of readers on cores 0 and 1, with its copy on die 0. -/
def stFan (k : ReqKind) : State :=
  let s := stReq k bearOp
  { s with mem := s.mem.setNum (s.bearAddr 0 1) 32 (2 ^ 255 + 3), l2 := [{ loc := sliceOf 0x18000, set := 0, way := 0, line := 0x18000 / 128, kind := .parked }]
           chart := [{ loc := s.home 0x18000, set := 0, line := 0x18000 / 128, pasid := 0, bear := 1, berth := 1, dies := 1 }] }
theorem witness_StoresAndAtomicsLand_spreads : ∃ s r o ls, Storing s r o ls ∧ Parking s r o ∧ s.inPlace (o.asker s) o.bear r.pa = true ∧ s.fanOut r.pa ≠ [] :=
  ⟨stFan stores, reqOf stores, bearOp, ls2, storing_of (by decide +kernel) rfl rfl (by decide +kernel),
    parking_of ⟨by decide +kernel, by decide +kernel, by decide +kernel, by decide +kernel, by decide +kernel⟩ (by decide +kernel), by decide +kernel, by decide +kernel⟩
def spreadTo (ds : List Nat) (more : Bool) : ReqKind := .spread [(0x1801C, 5)] ds (if more then .old [lane0 0x1801C 5] false else .ack []) more
theorem witness_StoresAndAtomicsLand_copy : ∃ s r o bs ds ans more, Lands s r o ∧ r.kind = .spread bs ds ans more ∧ ds.length = 2 ∧ remote r.pa = false :=
  ⟨stFan (spreadTo [0, 1] false), reqOf (spreadTo [0, 1] false), bearOp, _, _, _, _, lands_of (by decide +kernel) rfl, rfl, rfl, by decide +kernel⟩
theorem witness_StoresAndAtomicsLand_lastCopy : ∃ s r o bs d ans, Lands s r o ∧ r.kind = .spread bs [d] ans false ∧ remote r.pa = false :=
  ⟨stFan (spreadTo [0] false), reqOf (spreadTo [0] false), bearOp, _, _, _, lands_of (by decide +kernel) rfl, rfl, by decide +kernel⟩
theorem witness_StoresAndAtomicsLand_lastCopyHalf : ∃ s r o bs d vals po, Lands s r o ∧ r.kind = .spread bs [d] (.old vals po) true ∧ remote r.pa = false :=
  ⟨stFan (spreadTo [0] true), reqOf (spreadTo [0] true), bearOp, _, _, _, _, lands_of (by decide +kernel) rfl, rfl, by decide +kernel⟩

/-- What `StoresAndAtomicsLand` asks of an atomic or reduction. -/
def Updating (s : State) (r : Req) (o : Op) (ls : List LaneAcc) (hi : Bool) : Prop :=
  Lands s r o ∧ (r.kind = .atom ls hi ∨ (r.kind = .red ls ∧ hi = false)) ∧ InSector ls o.size r.pa ∧ (∀ l ∈ ls, l.pa % o.size = 0) ∧
    (hi = true → o.late = []) ∧ (hi = false → ∀ l ∈ ls, (s.ctx o.pasid).sealed l.va = false) ∧
    ((∃ x, o.instr = .red x ∧ r.kind = .red ls) ∨ (globalAtomic o.instr = true ∧ r.kind = .atom ls hi ∧ s.refuses (o.asker s) r.pa = none)) ∧
    s.emulates o.instr r.pa = false ∧ s.fanOut r.pa = [] ∧ (s.chartOf r.pa = none ∨ Settled s) ∧
    (∀ c, s.chartOf r.pa = some c → c.berth < 2 → (s.berthLine c).isSome = true) ∧
    (∀ l ∈ s.l2, l.kind = .sealed → l.line = r.pa / 128 → l.loc ≠ s.home r.pa) ∧ ∀ l ∈ ls, remote l.pa = remote r.pa
def updatingB (s : State) (r : Req) (o : Op) (ls : List LaneAcc) (hi : Bool) : Bool :=
  landsB s r o && decide ((0 < o.size ∧ ∀ l ∈ ls, l.pa / 32 = r.pa / 32 ∧ (l.pa + o.size - 1) / 32 = r.pa / 32) ∧ (∀ l ∈ ls, l.pa % o.size = 0) ∧
    (hi = true → o.late = []) ∧ (hi = false → ∀ l ∈ ls, (s.ctx o.pasid).sealed l.va = false)) && !s.emulates o.instr r.pa &&
    decide (s.chartOf r.pa = none) && decide ((∀ l ∈ s.l2, l.kind ≠ .sealed) ∧ ∀ l ∈ ls, remote l.pa = remote r.pa)
theorem updating_of {s : State} {r : Req} {o : Op} {ls : List LaneAcc} {hi : Bool} (h : updatingB s r o ls hi = true) (e : s.asSent r = s)
    (k : (∃ x, o.instr = .red x ∧ r.kind = .red ls ∧ hi = false) ∨ (globalAtomic o.instr = true ∧ r.kind = .atom ls hi)) : Updating s r o ls hi := by
  simp only [updatingB, Bool.and_eq_true, decide_eq_true_eq, Bool.not_eq_true'] at h
  obtain ⟨⟨⟨⟨a, b⟩, c⟩, d⟩, f⟩ := h
  refine ⟨lands_of a e, ?_, b.1, b.2.1, b.2.2.1, b.2.2.2, ?_, c, by simp [State.fanOut, d], .inl d, fun c e => by rw [d] at e; exact absurd e nofun,
    fun l m k => absurd k (f.1 l m), f.2⟩
  · exact k.elim (fun ⟨_, _, x, y⟩ => .inr ⟨x, y⟩) (fun x => .inl x.2)
  · exact k.elim (fun ⟨x, a, b, _⟩ => .inl ⟨x, a, b⟩) fun x => .inr ⟨x.1, x.2, by simp [State.refuses, d]⟩
/-- Two lanes at one location and a third at another. -/
def ls3 : List LaneAcc := [lane0 0x1801C 5, { lane0 0x1801C 9 with lane := 3 }, { lane0 0x18018 7 with lane := 63 }]
theorem witness_StoresAndAtomicsLand_lanes : ∃ s r o ls g, Updating s r o ls false ∧ ls.length = 3 ∧ gaOf o.instr = some g ∧ o.size = g.n ∧
    (∀ x, o.instr ≠ .atomX2 x) ∧ (∀ x, o.instr ≠ .red x) ∧ s.poisoned r.pa = false ∧ remote r.pa = false :=
  ⟨stReq (.atom ls3 false) atOp, reqOf (.atom ls3 false), atOp, ls3, gaAtomI atX, updating_of (by decide +kernel) rfl (.inr ⟨rfl, rfl⟩), rfl, rfl, rfl,
    fun x => (nofun : Instr.atomI atX ≠ .atomX2 x), fun x => (nofun : Instr.atomI atX ≠ .red x),
    by decide +kernel, by decide +kernel⟩
def atomOps : List Instr := [.atomF ⟨h96, .add, false, 8, addr v1⟩, .atomCas ⟨h96, .b32, 8, addr (.v 16 false false)⟩]
theorem updating_ops : ∀ i ∈ atomOps, updatingB (stReq (.atom ls3 false) (opOf i)) (reqOf (.atom ls3 false)) (opOf i) ls3 false = true ∧ globalAtomic i = true ∧
    (∃ g ∈ (gaOf i).toList, g.n = 4) ∧ (stReq (.atom ls3 false) (opOf i)).poisoned 0x18000 = false := by decide +kernel
theorem witness_StoresAndAtomicsLand_others : ∀ i ∈ atomOps, ∃ s r o, o.instr = i ∧ Updating s r o ls3 false ∧ (∃ g ∈ (gaOf i).toList, g.n = o.size) ∧
    s.poisoned r.pa = false :=
  fun i h => ⟨stReq (.atom ls3 false) (opOf i), reqOf (.atom ls3 false), opOf i, rfl, updating_of (updating_ops i h).1 rfl (.inr ⟨(updating_ops i h).2.1, rfl⟩),
    (updating_ops i h).2.2.1, (updating_ops i h).2.2.2⟩
/-- An atomic on host memory, which the path performs natively. -/
def hostReq : Req := { reqOf (.atom [lane0 hostPa 9] false) with pa := hostPa, rt := 1 }
def hostSt : State := { base with reqs := [hostReq], ops := [atOp], hostPath := 1 }
theorem witness_StoresAndAtomicsLand_host : ∃ s r o ls, Updating s r o ls false ∧ remote r.pa = true ∧ (s.invalLine r.pa).poisoned r.pa = false :=
  ⟨hostSt, hostReq, atOp, _, updating_of (by decide +kernel) (by decide +kernel) (.inr ⟨rfl, rfl⟩), by decide +kernel, by decide +kernel⟩
/-- The two holds of `ATOM.X2`. -/
def x2Op : Op := opOf (.atomX2 ⟨h96, .add, false, 8, addr v1⟩)
theorem witness_StoresAndAtomicsLand_low : ∃ s r o x, Updating s r o ls3 false ∧ o.instr = .atomX2 x ∧ o.size = 4 ∧ s.poisoned r.pa = false :=
  ⟨stReq (.atom ls3 false) x2Op, reqOf (.atom ls3 false), x2Op, _, updating_of (by decide +kernel) rfl (.inr ⟨rfl, rfl⟩), rfl, rfl, by decide +kernel⟩
theorem witness_StoresAndAtomicsLand_high : ∃ s r o x, Updating s r o ls3 true ∧ o.instr = .atomX2 x ∧ o.size = 4 ∧ s.poisoned r.pa = false :=
  ⟨stReq (.atom ls3 true) x2Op, reqOf (.atom ls3 true), x2Op, _, updating_of (by decide +kernel) rfl (.inr ⟨rfl, rfl⟩), rfl, rfl, by decide +kernel⟩
theorem witness_StoresAndAtomicsLand_poisoned : ∃ s r o, Updating s r o ls3 false ∧ s.poisoned r.pa = true :=
  ⟨{ stReq (.atom ls3 false) atOp with poison := [0x18000 / 32] }, reqOf (.atom ls3 false), atOp, updating_of (by decide +kernel) rfl (.inr ⟨rfl, rfl⟩), by decide +kernel⟩
/-- A reduction joins an update-only line; under another policy it is performed at once. -/
def redOp : Op := opOf (.red ⟨h96, .int .add .z32, addr v1⟩)
theorem witness_StoresAndAtomicsLand_reduction : ∃ s r o x, Updating s r o ls3 false ∧ o.instr = .red x ∧ remote r.pa = false ∧ s.chartOf r.pa = none ∧
    o.pol = .normal ∧ o.mtype = 0 ∧ Settled s ∧ o.size = (if x.op.w64 then 8 else 4) ∧ findLine s.l1 o.core r.pa = none ∧ (s.updateLine o.core o.pasid r.pa).2 = true :=
  ⟨stReq (.red ls3) redOp, reqOf (.red ls3), redOp, _, updating_of (by decide +kernel) rfl (.inl ⟨_, rfl, rfl, rfl⟩), rfl, by decide +kernel, by decide +kernel, rfl, rfl,
    settled_of rfl rfl, by decide +kernel, by decide +kernel, by decide +kernel⟩
theorem witness_StoresAndAtomicsLand_atOnce : ∃ s r o x g, Updating s r o ls3 false ∧ o.instr = .red x ∧ gaOf o.instr = some g ∧ o.size = g.n ∧ o.mtype = 1 ∧
    s.poisoned r.pa = false :=
  ⟨stReq (.red ls3) { redOp with mtype := 1 }, reqOf (.red ls3), { redOp with mtype := 1 }, _, _, updating_of (by decide +kernel) rfl (.inl ⟨_, rfl, rfl, rfl⟩), rfl, rfl, rfl,
    rfl, by decide +kernel⟩

/-! Replies -/

/-- What `RepliesFill` asks. -/
def Fills (s : State) (p : Rep) (o : Op) : Prop :=
  s.reps.find? (fun r => r.id == p.id) = some p ∧ s.reps.find? (fun q => q.port == p.port && q.slice == p.slice) = some p ∧
    p.id < s.nextId ∧ (s.ops.map Op.id).Nodup ∧ s.op? p.op = some o ∧ p.joined = [] ∧ o.dead = false ∧ o.nout = 1 ∧ o.phase = .sent ∧ o.xw = [] ∧ o.held = [] ∧ o.absent = [] ∧
    o.refused = [] ∧ o.late = [] ∧ o.aq = false ∧ o.wait = false ∧ (s.frag ⟨o.wave, s.ownerOf o⟩).wait = .none ∧
    (s.frag ⟨o.wave, s.ownerOf o⟩).st = .running ∧ (Tab.get? s.waves o.wave).isSome = true ∧ ∀ c d0 d1, p.kind ≠ .refused c d0 d1
/-- The last reply of an operation. -/
def repOf (k : RepKind) : Rep := { id := 63, op := 60, port := 0, core := 0, slice := 0, pa := 0x18000, kind := k }
def stReply (k : RepKind) (o : Op) : State := { base with reps := [repOf k], ops := [o], nextId := 100 }
theorem fills_of {s : State} {p : Rep} {o : Op} (h : decide (s.reps.find? (fun r => r.id == p.id) = some p ∧ s.reps.find? (fun q => q.port == p.port && q.slice == p.slice) = some p ∧
    p.id < s.nextId ∧ (s.ops.map Op.id).Nodup ∧ s.op? p.op = some o ∧ p.joined = [] ∧ o.dead = false ∧ o.nout = 1 ∧ o.phase = .sent ∧ o.xw = [] ∧ o.held = [] ∧ o.absent = [] ∧
    o.refused = [] ∧ o.late = [] ∧ o.aq = false ∧ o.wait = false ∧ (s.frag ⟨o.wave, s.ownerOf o⟩).wait = .none ∧
    (s.frag ⟨o.wave, s.ownerOf o⟩).st = .running ∧ (Tab.get? s.waves o.wave).isSome = true) = true) (k : ∀ c d0 d1, p.kind ≠ .refused c d0 d1) : Fills s p o := by
  obtain ⟨a, b, c, d, e, f, g, h, i, j, l, m, n, q, r, t, u, v, w⟩ := decide_eq_true_eq.mp h
  exact ⟨a, b, c, d, e, f, g, h, i, j, l, m, n, q, r, t, u, v, w, k⟩
def ramp : List Byte := (List.range 32).map (BitVec.ofNat 8)
/-- Lanes 0 and 63 have loaded the last and the first words of the sector. -/
def loadOp : Op := { ldOp with out := [lane0 0x1801C 0, { lane0 0x18000 0 with lane := 63 }] }
theorem witness_RepliesFill_load : ∃ s p o x bs b g, Fills s p o ∧ o.instr = .ld x ∧ p.kind = .data bs b g ∧ b = false ∧ o.poison = false ∧ o.size = x.sz.bytes ∧
    (o.out.map LaneAcc.lane).Nodup ∧ ∀ l ∈ o.out, l.lane < 64 ∧ l.pa / 32 = p.pa / 32 ∧ (l.pa + o.size - 1) / 32 = p.pa / 32 :=
  ⟨stReply (.data ramp false false) loadOp, repOf (.data ramp false false), loadOp, _, _, _, _, fills_of (by decide +kernel) nofun, rfl, rfl, rfl, rfl, by decide +kernel,
    by decide +kernel, by decide +kernel⟩
/-- Two scalars, the second of them in this sector. -/
def ldscOp : Op := { opOf (.ldsc ⟨h64, 1, 8, 4, (false, false), .zero, 0, mf0⟩) with size := 16, out := [lane0 0x17FF8 7] }
theorem witness_RepliesFill_scalars : ∃ s p o x bs b g l, Fills s p o ∧ o.instr = .ldsc x ∧ p.kind = .data bs b g ∧ b = false ∧ o.poison = false ∧
    o.size = 8 * 2 ^ x.m.toNat ∧ o.out = [l] ∧ (l.pa + 8) / 32 = p.pa / 32 :=
  ⟨stReply (.data ramp false false) ldscOp, repOf (.data ramp false false), ldscOp, _, _, _, _, _, fills_of (by decide +kernel) nofun, rfl, rfl, rfl, rfl, by decide +kernel, rfl,
    by decide +kernel⟩
def oldOp : Op := { atOp with out := ls3 }
theorem witness_RepliesFill_atomic : ∃ s p o vals, Fills s p o ∧ p.kind = .old vals false ∧ o.poison = false ∧ (vals.map LaneAcc.lane).Nodup ∧
    ∀ v ∈ vals, v.lane < 64 ∧ ∃ l ∈ o.out, l.lane = v.lane :=
  ⟨stReply (.old ls3 false) oldOp, repOf (.old ls3 false), oldOp, _, fills_of (by decide +kernel) nofun, rfl, rfl, by decide +kernel, by decide +kernel⟩
def localOp (i : Instr) : Op := { opOf i with out := ls3 }
theorem witness_RepliesFill_local : ∃ s p o x, Fills s p o ∧ o.instr = .lds x ∧ p.kind = .done ∧ (o.out.map LaneAcc.lane).Nodup ∧ ∀ l ∈ o.out, l.lane < 64 :=
  ⟨stReply .done (localOp (.lds ⟨h64, .w, .raw, 8, v3, 0⟩)), repOf .done, localOp (.lds ⟨h64, .w, .raw, 8, v3, 0⟩), _, fills_of (by decide +kernel) nofun, rfl, rfl,
    by decide +kernel, by decide +kernel⟩
theorem witness_RepliesFill_localAtomic : ∃ s p o x, Fills s p o ∧ o.instr = .atoms x ∧ p.kind = .done ∧ (o.out.map LaneAcc.lane).Nodup ∧ ∀ l ∈ o.out, l.lane < 64 :=
  ⟨stReply .done (localOp (.atoms ⟨h96, .cas .z32, 8, v3, v1, some v2, 0⟩)), repOf .done, localOp (.atoms ⟨h96, .cas .z32, 8, v3, v1, some v2, 0⟩), _,
    fills_of (by decide +kernel) nofun, rfl, rfl, by decide +kernel, by decide +kernel⟩
theorem witness_RepliesFill_pop : ∃ s p o x, Fills s p o ∧ o.instr = .qpop x ∧ p.kind = .done ∧ (o.out.map LaneAcc.lane).Nodup ∧ ∀ l ∈ o.out, l.lane < 64 :=
  ⟨stReply .done (localOp (.qpop ⟨h64, 8, 0, false, none⟩)), repOf .done, localOp (.qpop ⟨h64, 8, 0, false, none⟩), _,
    fills_of (by decide +kernel) nofun, rfl, rfl, by decide +kernel, by decide +kernel⟩
theorem witness_RepliesFill_entry : ∃ s p o x vs, Fills s p o ∧ o.instr = .brrd x ∧ p.kind = .scal vs ∧ vs.length = (memDst o.instr).2.length :=
  ⟨stReply (.scal [1, 2, 3, 4]) rdOp, repOf (.scal [1, 2, 3, 4]), rdOp, _, _, fills_of (by decide +kernel) nofun, rfl, rfl, by decide +kernel⟩

/-! Answers of the host -/

/-- What `Translation` asks of an answer. -/
def Asked (s : State) (a : AtsReq) (ans : AtsAnswer) : Prop :=
  s.ats.find? (fun x => x.id == a.id) = some a ∧ a.covered ans = false ∧ s.hasCtx a.pasid = true ∧ (s.atc.filter fun x => x.die == a.die).length < 65536
/-- A load of lane 3 waits for the page of `0x30010`, or nothing does. -/
def xlOp (i : Instr) : Op := { opOf i with phase := .xlate, xw := [80], nout := 0, out := [{ lane := 3, va := 0x30010 }] }
def ldI : Instr := .ld ⟨h64, .w, .raw, false, 8, 4, (false, false), v1, 0, mf0⟩
def stXl (pri : Bool) (ops : List Op) : State := { (stWait (.xlate 60)) with ats := [ats0 []], pages := [], priOn := pri, ops := ops, atc := [] }
theorem waits_for : WaitsFor (stXl true [xlOp ldI]) (ats0 []) (xlOp ldI) ∧ WaitsFor (stXl false [xlOp ldI]) (ats0 []) (xlOp ldI) := by
  unfold WaitsFor; decide +kernel
def mapAns : AtsAnswer := .mapped 0x18000 12 true true
theorem witness_Translation_operation : ∃ s a o, Asked s a mapAns ∧ a.dist = false ∧ WaitsFor s a o ∧ s.atc = [] ∧
    (mappingEntry a 0x18000 12 true true).allows o.instr = true ∧ o.absent = [] ∧
    (∀ l ∈ o.out, s.kindOf ((mappingEntry a 0x18000 12 true true).addr (low57 l.va)) = .dram) ∧
    ∃ w f, Tab.get? s.waves o.wave = some w ∧ w.frags.find? (fun g => g.entry == o.entry) = some f ∧ f.st = .waiting ∧ f.wait = .xlate o.id :=
  ⟨stXl true [xlOp ldI], ats0 [], xlOp ldI, by unfold Asked; decide +kernel, rfl, waits_for.1, rfl, by decide +kernel, rfl, by decide +kernel,
    (stXl true []).wave 0, ((stXl true []).wave 0).frag 0, by decide +kernel, by decide +kernel, by decide +kernel, by decide +kernel⟩
theorem witness_Translation_lacks : ∃ s a o, Asked s a (.mapped 0x18000 12 false true) ∧ a.dist = false ∧ WaitsFor s a o ∧ s.atc = [] ∧
    (mappingEntry a 0x18000 12 false true).allows o.instr = false ∧ skipsAbsent o.instr = false :=
  ⟨stXl true [xlOp ldI], ats0 [], xlOp ldI, by unfold Asked; decide +kernel, rfl, waits_for.1, rfl, by decide +kernel, by decide +kernel⟩
theorem witness_Translation_absent : ∃ s a o, Asked s a .absent ∧ s.priOn = true ∧ WaitsFor s a o ∧ a.dist = false ∧ (∀ c ∈ s.copies, a.id ∉ c.wait) ∧ skipsAbsent o.instr = false :=
  ⟨stXl true [xlOp ldI], ats0 [], xlOp ldI, by unfold Asked; decide +kernel, rfl, waits_for.1, rfl, by decide +kernel, by decide +kernel⟩
theorem witness_Translation_priOff : ∃ s a o, Asked s a .absent ∧ s.priOn = false ∧ WaitsFor s a o ∧ a.dist = false ∧ (∀ c ∈ s.copies, a.id ∉ c.wait) ∧ skipsAbsent o.instr = false :=
  ⟨stXl false [xlOp ldI], ats0 [], xlOp ldI, by unfold Asked; decide +kernel, rfl, waits_for.2, rfl, by decide +kernel, by decide +kernel⟩
/-- A copy waits for the page, and what the distributor reads. -/
def cWait : Copy := { copy0 true 16 with wait := [80] }
def stCw (pri dist : Bool) : State :=
  { stXl pri [] with ats := [{ ats0 [] with dist := dist }], copies := [cWait], sx := { base.sx with want := [(0, 0x30)] } }
theorem witness_Translation_copy : ∀ pri ∈ [true, false], ∃ s a, Asked s a .absent ∧ s.priOn = pri ∧ a.dist = false ∧ (∀ o ∈ s.ops, a.id ∉ o.xw) ∧
    ∃ c ∈ s.copies, a.id ∈ c.wait ∧ c.pasid = a.pasid := fun pri h =>
  have y : ∀ b ∈ [true, false], ((stCw b false).ats.find? (fun x => x.id == 80) = some (ats0 []) ∧ (ats0 []).covered .absent = false ∧ (stCw b false).hasCtx 0 = true ∧
      ((stCw b false).atc.filter fun x => x.die == 0).length < 65536) ∧ (∀ o ∈ (stCw b false).ops, 80 ∉ o.xw) ∧ ∃ c ∈ (stCw b false).copies, 80 ∈ c.wait ∧ c.pasid = 0 := by decide +kernel
  ⟨stCw pri false, ats0 [], (y pri h).1, rfl, rfl, (y pri h).2.1, (y pri h).2.2⟩
def distA : AtsReq := { ats0 [] with dist := true }
theorem witness_Translation_distributor : ∃ s a, Asked s a .absent ∧ s.priOn = false ∧ a.dist = true ∧ (a.pasid, a.page) ∈ s.sx.want ∧ ∀ o ∈ s.ops, a.id ∉ o.xw :=
  ⟨stCw false true, distA, by unfold Asked; decide +kernel, rfl, rfl, by decide +kernel, by decide +kernel⟩
theorem witness_Translation_asksPage : ∃ s a, Asked s a (.mapped 0 12 false true) ∧ s.priOn = true ∧ a.dist = true ∧ (∀ o ∈ s.ops, a.id ∉ o.xw) ∧
    ∃ c ∈ s.copies, a.id ∈ c.wait :=
  ⟨stCw true true, distA, by unfold Asked; decide +kernel, rfl, rfl, by decide +kernel, by decide +kernel⟩
/-- A refused page: a lane and a copy wait for it. -/
def absOp : Op := { opOf ldI with nout := 0, absent := [{ lane := 3, va := 0x30010 }] }
def stPage : State := { base with pages := [⟨0, 0x30, true⟩], ops := [absOp], copies := [{ copy0 true 16 with pwait := [0x30] }] }
theorem witness_Translation_refused : ∃ (s : State) (pasid page : Nat), (∃ p ∈ s.pages, p.pasid = pasid ∧ p.page = page ∧ p.sent = true) ∧
    (∀ w ∈ s.waves, ∀ f ∈ w.2.frags, s.fetchMiss w.2 f ≠ some page) ∧ (∃ c ∈ s.copies, c.pasid = pasid ∧ page ∈ c.pwait) ∧
    ∃ o ∈ s.ops, o.pasid = pasid ∧ (s.wave o.wave).away = false ∧ o.phase = .sent ∧ o.dead = false ∧ o.refused = [] ∧ ∃ l ∈ o.absent, l.page = page :=
  ⟨stPage, 0, 0x30, by decide +kernel, by decide +kernel, by decide +kernel, by decide +kernel⟩
/-- The wave's next instruction is not translated. -/
def stFetch : State := { base with pages := [⟨0, 0x10, true⟩], atc := [] }
theorem witness_Translation_fetch : ∃ (s : State) (w : Wave) (f : Frag), (∃ p ∈ s.pages, p.pasid = 0 ∧ p.page = 0x10 ∧ p.sent = true) ∧
    s.waves = [(w.id, w)] ∧ w.frags = [f] ∧ (s.team w.team).pasid = 0 ∧ s.fetchMiss w f = some 0x10 ∧ w.inHandler f.entry = false :=
  ⟨stFetch, stFetch.wave 0, (stFetch.wave 0).frag 0, by decide +kernel, by decide +kernel, by decide +kernel, by decide +kernel, by decide +kernel, by decide +kernel⟩

/-! Held fragments, the end of a handler, and empty sources -/

/-- The other fragment is held at a lower hinge, so it goes on and this one is held; or at a higher one. -/
def stHeldAt (pc : Nat) : State := stW fun w => { w with frags := w.frags ++ [{ entry := 1, pc := pc, mask := 2, st := .held pc 1 }] }
theorem witness_HingeResults_lower : ∃ s, MeetsRun (.hinge ⟨h64, 1⟩) h64 ctl (fun _ k => k.f.stack = [] ∧ (k.w.frags.map Frag.entry).Nodup ∧
    ∃ g ∈ k.w.frags, g.entry ≠ 0 ∧ g.st = .held 0xFFF8 1 ∧ 0xFFF8 < k.f.pc) s := ⟨stHeldAt 0xFFF8, run_of (by decide +kernel) (by decide +kernel)⟩
theorem witness_HingeResults_higher : ∃ s, MeetsRun (.hinge ⟨h64, 1⟩) h64 ctl (fun _ k => k.f.stack = [] ∧ (k.w.frags.map Frag.entry).Nodup ∧
    ∃ g ∈ k.w.frags, g.entry ≠ 0 ∧ g.st = .held 0x10008 1 ∧ k.f.pc < 0x10008) s := ⟨stHeldAt 0x10008, run_of (by decide +kernel) (by decide +kernel)⟩
/-- The last lanes of a handler end, beside another fragment. -/
def hEnd : HCtx := hctx .t none
def stHEnd (stack : List Rec) : State := stW fun w =>
  { w with h := some hEnd, frags := w.frags.map (fun f => { f with stack := stack }) ++ [{ entry := 1, pc := 0x10000, mask := 2 }] }
theorem witness_EndResults_handler : ∃ c s, MeetsRun (.endFrag ⟨h64⟩) h64 ctl (fun _ k => k.hm = true ∧ k.w.h = some c ∧ MayEnd k) s ∧
    ∃ g ∈ (s.wave s.cur.wave).frags, g.entry ≠ s.cur.entry :=
  ⟨hEnd, stHEnd [], run_of (by decide +kernel) ⟨by decide +kernel, by decide +kernel, not_pending (by decide +kernel), by decide +kernel, by decide +kernel⟩, by decide +kernel⟩
theorem witness_EndResults_handlerRecord : ∃ c s, MeetsRun (.endFrag ⟨h64⟩) h64 ctl (fun _ k => k.hm = true ∧ k.w.h = some c ∧ MayEnd k ∧
    k.f.stack.length = c.stack.length + 1) s :=
  ⟨hEnd, stHEnd [{ mask := 2, pc := 0x10040 }], run_of (by decide +kernel) ⟨by decide +kernel, by decide +kernel,
    ⟨not_pending (by decide +kernel), by decide +kernel, by decide +kernel⟩, by decide +kernel⟩⟩
/-- Vector 1 is empty. -/
def stEmptyV : State := vecIn { st := .empty } 0
theorem witness_OperandTraps_empty : ∃ (s : State) (u : Uses) (h : Hdr), Unbarred s u h ∧ (s.issOf h).part ≠ 0 ∧
    ∃ x ∈ u.srcs, Src.empt x.x = true ∧ ∃ r ∈ SU.regs (s.issOf h).w (s.issOf h).part x, (s.issOf h).w.stateOf (s.issOf h).hm r = .empty :=
  ⟨stEmptyV, laneUses .vec false (.v 3 .none) [su false (.v 1 false true)], h64, unbarred_of (by decide +kernel), by decide +kernel, by decide +kernel⟩
theorem witness_OperandTraps_emptyWaits : ∃ (s : State) (u : Uses) (h : Hdr), Unbarred s u h ∧ (s.issOf h).part ≠ 0 ∧ (∀ x ∈ u.srcs, Src.empt x.x = false) ∧
    ∃ x ∈ u.srcs, ∃ r ∈ SU.regs (s.issOf h).w (s.issOf h).part x, (s.issOf h).w.stateOf (s.issOf h).hm r = .empty :=
  ⟨stEmptyV, laneUses .vec false (.v 3 .none) [su false v1], h64, unbarred_of (by decide +kernel), by decide +kernel, by decide +kernel, by decide +kernel⟩

end Sys2Proof.Tests
end

/-! SUPPORT. The start of a team on a core: what the distributor's records leave alone, that every wave it adds stands at its start, and that the
placement of a launch's next team gives a resident team of such waves. -/

namespace Sys2Proof.Machine

/-! ### Tables -/

theorem Tab.get?_concat {α : Type} (t : Tab α) (n x : Nat) (v : α) :
    Tab.get? (t ++ [(n, v)]) x = (Tab.get? t x).or (if n = x then some v else none) := by
  induction t with
  | nil => rfl
  | cons e t ih =>
    rw [List.cons_append, Tab.get?, Tab.get?, ih]
    split <;> rfl

theorem Tab.get?_eq_none_of_lt {α : Type} {t : Tab α} {n : Nat} (h : ∀ e ∈ t, e.1 < n) : Tab.get? t n = none := by
  cases hv : Tab.get? t n with
  | none => rfl
  | some v => exact absurd (h _ (Tab.mem_of_get? hv)) (Nat.lt_irrefl n)

/-! ### Records of lost links -/

/-- The distributor's records of lost links stand in the event log and nowhere else (R417). -/
theorem distLost_rest (s : State) (pasid : Nat) (va : DWord) (n : Nat) : ∃ g, s.distLost pasid va n = { s with log := g } := by
  refine List.foldlRecOn (motive := fun u : State => ∃ g, u = { s with log := g }) _ _ ⟨s.log, rfl⟩ ?_
  rintro _ ⟨g, rfl⟩ pa _
  split
  · exact ⟨_, rfl⟩
  · exact ⟨g, rfl⟩

@[simp] theorem distLost_clock (s : State) (pasid : Nat) (va : DWord) (n : Nat) : (s.distLost pasid va n).clock = s.clock := by
  obtain ⟨g, h⟩ := distLost_rest s pasid va n
  rw [h]
@[simp] theorem distLost_nextId (s : State) (pasid : Nat) (va : DWord) (n : Nat) : (s.distLost pasid va n).nextId = s.nextId := by
  obtain ⟨g, h⟩ := distLost_rest s pasid va n
  rw [h]
@[simp] theorem distLost_waves (s : State) (pasid : Nat) (va : DWord) (n : Nat) : (s.distLost pasid va n).waves = s.waves := by
  obtain ⟨g, h⟩ := distLost_rest s pasid va n
  rw [h]
@[simp] theorem distLost_launches (s : State) (pasid : Nat) (va : DWord) (n : Nat) : (s.distLost pasid va n).launches = s.launches := by
  obtain ⟨g, h⟩ := distLost_rest s pasid va n
  rw [h]

/-! ### The waves of a team that starts -/

theorem role_of_mem_waveRoles {o : Obj} {x : Nat × Role} (h : x ∈ o.waveRoles) : x.2 ∈ o.roles := by
  obtain ⟨r, hr, hx⟩ := List.mem_flatMap.mp h
  rw [(List.mem_replicate.mp hx).2]
  exact (List.of_mem_zip hr).2

/-- A wave of a team at its start on a core: one running fragment of every lane at its role's entry (R14, R21). -/
def Wave.StartsIn (v : Wave) (team core : Nat) (o : Obj) : Prop :=
  v.core = core ∧ v.team = team ∧ v.live = true ∧ ∃ r ∈ o.roles, ∃ f, v.frags = [f] ∧ f.pc = o.base + r.entry ∧
    f.mask = (if o.w32 then 0xFFFFFFFF else BitVec.allOnes 64) ∧ f.st = .running

theorem startWave_startsIn (t : Team) {o : Obj} (args : List Byte) (id num half core slot role : Nat) {r : Role} (hr : r ∈ o.roles) :
    (startWave t o args id num half core slot role r).StartsIn t.id core o :=
  ⟨rfl, rfl, rfl, r, hr, _, rfl, rfl, rfl, rfl⟩

/-- The team as it enters the table, before its waves. -/
def State.placed (s : State) (t : Team) (o : Obj) (core : Nat) : Team :=
  { t with core := core, loc := .resident, placed := s.clock, lsize := o.lsize, prod := o.producers, nroles := o.roles.length, cores := o.cores }

/-- One wave, or half-wave, starts in a slot of its quarter. -/
def State.startHalf (s : State) (t : Team) (o : Obj) (args : List Byte) (core slot : Nat) (w : Nat × Nat × Role) (half : Nat) : State :=
  let x := startWave t o args s.nextId w.1 half core slot w.2.1 w.2.2
  { s.fresh.2 with waves := s.waves ++ [(s.nextId, x)] }.modTeam t.id fun t => { t with waves := t.waves ++ [s.nextId] }

/-- A wave of the team, or its halves, start in the lowest free slot of their quarter (R21). -/
def State.startSlot (s : State) (t : Team) (o : Obj) (args : List Byte) (core : Nat) (w : Nat × Nat × Role) : State :=
  match s.freeSlot core (w.1 % 4) with
  | none => s
  | some k => (List.range (if o.w32 then 2 else 1)).foldl (fun s h => s.startHalf t o args core k w h) s

theorem startTeam_eq (s : State) (t : Team) (o : Obj) (core : Nat) (args : List Byte) :
    s.startTeam t o core args false = ((List.range o.waveRoles.length).zip o.waveRoles).foldl (fun u w => u.startSlot (s.placed t o core) o args core w)
      { s with teams := Tab.set s.teams t.id (s.placed t o core) } := rfl

/-- A team stands in the table as it was placed, but for its waves, each of which is at its start; identifiers from the next one on are unused. -/
structure Starting (t : Team) (o : Obj) (s : State) : Prop where
  unused : ∀ e ∈ s.waves, e.1 < s.nextId
  team : ∃ ws, Tab.get? s.teams t.id = some { t with waves := ws } ∧ ∀ w ∈ ws, ∃ v, Tab.get? s.waves w = some v ∧ v.StartsIn t.id t.core o

theorem Starting.startHalf {t : Team} {o : Obj} {s : State} (h : Starting t o s) (args : List Byte) (slot : Nat) {w : Nat × Nat × Role}
    (hw : w.2.2 ∈ o.roles) (half : Nat) : Starting t o (s.startHalf t o args t.core slot w half) := by
  obtain ⟨unused, ws, ht, hws⟩ := h
  refine ⟨fun e he => ?_, ws ++ [s.nextId], by simp [State.startHalf, State.modTeam, Tab.get?_mod, ht], fun i hi => ?_⟩
  · rcases List.mem_append.mp he with old | new
    · exact Nat.lt_succ_of_lt (unused e old)
    · rw [List.mem_singleton.mp new]
      exact Nat.lt_succ_self _
  · simp only [State.startHalf, State.modTeam_waves, Tab.get?_concat]
    rcases List.mem_append.mp hi with old | new
    · obtain ⟨v, hv, st⟩ := hws i old
      exact ⟨v, by rw [hv]; rfl, st⟩
    · rw [List.mem_singleton.mp new, Tab.get?_eq_none_of_lt unused, if_pos rfl]
      exact ⟨_, rfl, startWave_startsIn t args _ _ half t.core slot _ hw⟩

theorem Starting.startSlot {t : Team} {o : Obj} {s : State} (h : Starting t o s) (args : List Byte) {w : Nat × Nat × Role}
    (hw : w.2.2 ∈ o.roles) : Starting t o (s.startSlot t o args t.core w) := by
  unfold State.startSlot
  split
  · exact h
  · exact List.foldlRecOn _ _ h fun _ hu half _ => hu.startHalf args _ hw half

/-- A team without waves starts with its waves at their start (R21). -/
theorem startTeam_starting {s : State} (unused : ∀ e ∈ s.waves, e.1 < s.nextId) {t : Team} (empty : t.waves = []) (o : Obj) (core : Nat)
    (args : List Byte) : Starting (s.placed t o core) o (s.startTeam t o core args false) := by
  rw [startTeam_eq]
  refine List.foldlRecOn _ _ ⟨unused, [], ?_, nofun⟩ fun u hu w hw => hu.startSlot args (role_of_mem_waveRoles (List.of_mem_zip hw).2)
  rw [← empty]
  exact (Tab.get?_set ..).trans (if_pos rfl)

/-! ### A launch's next team -/

/-- The next team of a launch, as the distributor makes it (R17). -/
def State.nextTeam (s : State) (l : Launch) : Team :=
  { id := s.nextId, launch := l.id, part := l.part, pasid := l.pasid, obj := l.obj, tag := l.gtag, idx := l.next, gx := l.gx, gy := l.gy, gz := l.gz
    depth := l.depth, rootQ := l.queue, args := l.args }

theorem launch?_id {s : State} {id : Nat} {l : Launch} (h : s.launch? id = some l) : l.id = id := by
  simpa using List.find?_some h

/-- The launch's place in the dispatch queue changes neither teams nor waves. -/
theorem Starting.modLaunch {t : Team} {o : Obj} {s : State} (h : Starting t o s) (i : Nat) (f : Launch → Launch) : Starting t o (s.modLaunch i f) :=
  ⟨h.unused, h.team⟩
theorem Starting.modPart {t : Team} {o : Obj} {s : State} (h : Starting t o s) (i : Nat) (f : Part → Part) : Starting t o (s.modPart i f) :=
  ⟨h.unused, h.team⟩

/-- The placement of a launch's next team starts that team and its waves (R17, R21). -/
theorem placeNext_starting {s : State} (unused : ∀ e ∈ s.waves, e.1 < s.nextId) {l : Launch} (hl : s.launch? l.id = some l)
    (ht : l.isTask = false) (core : Nat) :
    Starting (s.placed (s.nextTeam l) (s.objOf l.pasid l.obj) core) (s.objOf l.pasid l.obj) (s.placeNext l core) := by
  have hn (u : State) (e : u.launches = s.launches) : ((u.launch? l.id).map Launch.next).getD 0 = l.next := by
    rw [State.launch?, e, ← State.launch?, hl]
    rfl
  have below : ∀ e ∈ (s.distLost l.pasid (BitVec.ofNat 64 l.args) (8 * (s.objOf l.pasid l.obj).nargs)).fresh.2.waves, e.1 < s.nextId + 1 := by
    simpa using fun i w h => Nat.lt_succ_of_lt (unused (i, w) h)
  have start (args : List Byte) := startTeam_starting
    (s := (s.distLost l.pasid (BitVec.ofNat 64 l.args) (8 * (s.objOf l.pasid l.obj).nargs)).fresh.2) (by simpa using below)
    (t := s.nextTeam l) rfl (s.objOf l.pasid l.obj) core args
  simp only [State.placed, State.fresh_clock, distLost_clock] at start
  simp only [State.placeNext, State.placed, ht, State.fresh_fst, distLost_nextId, hn, State.fresh_launches, distLost_launches]
  split
  · exact (start _).modLaunch ..
  · exact ((start _).modLaunch ..).modPart ..

/-! ### The distributor's choice -/

/-- The distributor's placement never faults and is never refused. -/
theorem execTeamPlacement_next (part : Nat) (s : State) : ∃ t, execTeamPlacement part s = .next t := by
  unfold execTeamPlacement
  split
  case h_3 | h_4 => split <;> exact ⟨_, rfl⟩
  all_goals exact ⟨_, rfl⟩

theorem execTeamPlacement_launch {part : Nat} {s : State} {id core : Nat} {l : Launch} (hx : s.nextPlace part = some (.launch id core))
    (hl : s.launch? id = some l) : execTeamPlacement part s = .next (s.placeNext l core) := by
  simp only [execTeamPlacement, hx, hl]

/-- Settles O40: a choice is carried out whatever it is, and `placeNext_starting` says what the placement of a launch's next team makes. -/
theorem placement : Obligations.Placement := by
  intro s part x hx _ _
  obtain ⟨t, ht⟩ := execTeamPlacement_next part s
  refine ⟨t, ht, fun id c l hc hl ⟨_, unused, _⟩ task => ?_⟩
  subst hc
  cases (execTeamPlacement_launch hx hl).symm.trans ht
  obtain ⟨_, ws, hteam, hws⟩ := placeNext_starting unused (launch?_id hl ▸ hl) task c
  exact ⟨_, hteam, rfl, rfl, rfl, rfl, rfl, rfl, rfl, hws⟩

end Sys2Proof.Machine

/-! SUPPORT. The checks before an instruction's effect, one stage after another (R87 to R95, R360 to R362): what each stage answers, and that an
instruction which nothing holds back passes them all. -/

namespace Sys2Proof.Machine

section
variable {s : State} {u : Uses} {h : Hdr}

/-! ### The stages -/

/-- Whether a register that an instruction reads, or one of its window, is in a state. -/
def anyIn (u : Uses) (i : Iss) (st : RegState) : Bool :=
  ((u.srcs.flatMap (SU.regs i.w i.part)).any fun r => i.w.stateOf i.hm r = st) || u.win.any fun n => (i.w.vreg n).st = st

/-- The checks of operands that are read: poisoned, dead where that traps, or stale (R87, R90, R95). -/
def readCheck (u : Uses) (i : Iss) : Pre :=
  if (u.srcs.flatMap (SU.regs i.w i.part)).any fun r => i.w.stateOf i.hm r = .poison then .trap 18
  else if i.w.md.getLsbD 12 && u.srcs.any (i.w.srcDead i.hm i.part) then .trap 16
  else if u.srcs.any fun x => i.w.readsStale i.hm i.part x.x then .trap 15
  else .go

/-- Before them the refetch of a slot (R89). -/
def refetchCheck (u : Uses) (i : Iss) : Pre :=
  if !i.f.refetch && u.srcs.any (fun x => i.w.refetches i.part x.x) then .refetch else readCheck u i

/-- Before it the role queues (R360 to R362). -/
def queueCheck (s : State) (u : Uses) (i : Iss) : Pre :=
  match queuePre s (s.team i.w.team) u.srcs with
  | some p => p
  | none => match pushPre (s.team i.w.team) i.w u.push with
    | some p => p
    | none => refetchCheck u i

/-- Before them the views that a closing instruction reads; with no lane taking part nothing more is read (R59, R200, R209). -/
def viewCheck (s : State) (u : Uses) (i : Iss) : Pre :=
  if !u.win.isEmpty && anyIn u i .poison then .trap 18 else if decide (i.part = 0) then .go else queueCheck s u i

/-- Before them the sources that are empty (R95). -/
def sourceCheck (s : State) (u : Uses) (i : Iss) : Pre :=
  if !decide (i.part = 0) && u.srcs.any (fun x => Src.empt x.x && (SU.regs i.w i.part x).any fun r => i.w.stateOf i.hm r = .empty) then .trap 17
  else if anyIn u i .empty then .stall else viewCheck s u i

/-! ### What lets an instruction pass a stage -/

/-- Captured operands leave a wave's decode mode as it is (R35). -/
theorem iss_dm (s : State) (h : Hdr) : (s.iss h).w.dm = (s.wave s.cur.wave).dm := by
  cases hc : ((s.wave s.cur.wave).frag s.cur.entry).capt <;> simp [State.iss, hc, Wave.under]

theorem idemFails_eq_false (c : Unbarred s u h) : idemFails (s.issOf h).w (s.issOf h).hm (s.issOf h).part u = false := by
  by_contra fails
  simp only [idemFails, Bool.not_eq_false, Bool.and_eq_true, decide_eq_true_eq, Bool.not_eq_true', List.any_eq_true, List.contains_eq_mem] at fails
  obtain ⟨⟨k3, user⟩, n, written, ⟨read, unwritten⟩, entered⟩ := fails
  rcases c.idem (iss_dm s h ▸ k3) user n written with unread | wir | ⟨p, open', window, clear⟩
  · exact unread read
  · simp [wir] at unwritten
  · rw [Option.mem_toList.mp open'] at entered
    simp [window, clear] at entered

/-- An instruction that no interlock but an empty source holds back comes to its sources. -/
theorem preCheck_of_unbarred (c : Unbarred s u h) : preCheck s u (s.issOf h) h.gp.toNat = sourceCheck s u (s.issOf h) := by
  have idem := idemFails_eq_false c
  obtain ⟨-, hold, first, preds, ⟨dv, ds⟩, ⟨filling, reading⟩, win⟩ := c
  have hold : (u.hold && !(decide ((s.issOf h).part = 0) && u.whole)) = false := by rcases hold with e | ⟨e, e'⟩ <;> simp [*]
  have first : (u.first.isSome && !(decide ((s.issOf h).part = 0) && u.whole)) = false := by rcases first with e | ⟨e, e'⟩ <;> simp [*]
  have preds : ((h.gp.toNat :: u.ps).any fun p => (s.issOf h).w.pBusy.contains (predKey (s.issOf h).hm p)) = false := by
    simpa only [List.any_eq_false, List.contains_iff_mem] using preds
  have dsts : (u.dv.any (fun n => ((s.issOf h).w.vreg n).st = .empty) || u.ds.any fun n => ((s.issOf h).w.sreg (s.issOf h).hm n).st = .empty) = false := by
    simpa using ⟨dv, ds⟩
  have tiles : ((u.tr ++ u.tw).any (fun t => (s.issOf h).w.tfill.contains t) || u.tw.any (s.stepReads (s.issOf h).w)) = false := by
    simp only [Bool.or_eq_false_iff, List.any_eq_false, List.contains_iff_mem]
    exact ⟨filling, by simpa using reading⟩
  have win : (u.win.any fun n => ((s.issOf h).w.vreg n).st = .empty) = false := by simpa using win
  iterate 7 refine (if_neg (Bool.eq_false_iff.mp (by assumption))).trans ?_
  rfl

theorem anyIn_eq_false {i : Iss} {st : RegState} : anyIn u i st = false ↔
    (∀ x ∈ u.srcs, ∀ r ∈ SU.regs i.w i.part x, i.w.stateOf i.hm r ≠ st) ∧ ∀ n ∈ u.win, (i.w.vreg n).st ≠ st := by
  simp only [anyIn, Bool.or_eq_false_iff, List.any_eq_false, List.mem_flatMap, decide_eq_true_eq]
  exact and_congr_left fun _ => ⟨fun a x hx r hr => a r ⟨x, hx, hr⟩, fun a r ⟨x, hx, hr⟩ => a x hx r hr⟩

/-- One that no empty source holds back comes to the views it reads. -/
theorem sourceCheck_of_unlocked (c : Unlocked s u h) : sourceCheck s u (s.issOf h) = viewCheck s u (s.issOf h) := by
  have full : anyIn u (s.issOf h) .empty = false := anyIn_eq_false.mpr ⟨c.srcs, c.win⟩
  have untrapped : (u.srcs.any fun x => Src.empt x.x && (SU.regs (s.issOf h).w (s.issOf h).part x).any fun r =>
      (s.issOf h).w.stateOf (s.issOf h).hm r = .empty) = false := by
    simp only [List.any_eq_false, Bool.and_eq_true, List.any_eq_true, decide_eq_true_eq]
    exact fun x hx ⟨_, r, hr, empty⟩ => c.srcs x hx r hr empty
  simp [sourceCheck, full, untrapped]

theorem viewCheck_of_clean (c : ViewsClean s u h) :
    viewCheck s u (s.issOf h) = if decide ((s.issOf h).part = 0) then .go else queueCheck s u (s.issOf h) := by
  by_cases closing : u.win = []
  · simp [viewCheck, closing]
  · obtain ⟨window, operand⟩ := c closing
    simp [viewCheck, anyIn_eq_false.mpr ⟨operand, window⟩]

theorem queuePre_eq_none {t : Team} {srcs : List SU} (nonempty : ∀ q ∈ srcs.flatMap SU.queues, t.queue q ≠ []) : queuePre s t srcs = none := by
  rw [queuePre, List.findSome?_eq_none_iff]
  intro x hx
  split
  case h_1 q e e' =>
    have := nonempty q.toNat (List.mem_flatMap.mpr ⟨x, hx, by simp [SU.queues, e']⟩)
    simp [this]
  case h_2 => rfl

theorem pushPre_eq_none {t : Team} {w : Wave} {q : Option Nat}
    (room : ∀ k ∈ q.toList, Tab.get? t.prod k = some w.role ∧ (t.queue k).length < 8) : pushPre t w q = none := by
  cases q with
  | none => rfl
  | some k =>
    obtain ⟨role, short⟩ := room k (by simp)
    simp [pushPre, role, short]

/-- One whose role queues have an entry, and room, comes to its refetch. -/
theorem queueCheck_of_readable (c : Readable s u h) (part : (s.issOf h).part ≠ 0) : queueCheck s u (s.issOf h) = refetchCheck u (s.issOf h) := by
  simp [queueCheck, queuePre_eq_none (c.pops part), pushPre_eq_none (c.push part)]

/-- One with no slot to refetch comes to the operands it reads. -/
theorem refetchCheck_of_unheld (c : Unheld s u h) (part : (s.issOf h).part ≠ 0) : refetchCheck u (s.issOf h) = readCheck u (s.issOf h) := by
  rcases c.fetched part with done | none'
  · simp [refetchCheck, done]
  · simp only [refetchCheck, List.any_eq_false.mpr fun x hx => Bool.eq_false_iff.mp (none' x hx)]
    simp

theorem readCheck_of_clear (c : Clear s u h) (part : (s.issOf h).part ≠ 0) : readCheck u (s.issOf h) = .go := by
  have clean : ((u.srcs.flatMap (SU.regs (s.issOf h).w (s.issOf h).part)).any fun r => (s.issOf h).w.stateOf (s.issOf h).hm r = .poison) = false := by
    simp only [List.any_eq_false, List.mem_flatMap, decide_eq_true_eq]
    exact fun r ⟨x, hx, hr⟩ => (c.clean part x hx).1 r hr
  have live : ((s.issOf h).w.md.getLsbD 12 && u.srcs.any ((s.issOf h).w.srcDead (s.issOf h).hm (s.issOf h).part)) = false := by
    simp only [Bool.and_eq_false_imp, List.any_eq_false, Bool.not_eq_true]
    exact fun traps x hx => (c.clean part x hx).2 traps
  have fresh : (u.srcs.any fun x => (s.issOf h).w.readsStale (s.issOf h).hm (s.issOf h).part x.x) = false := by
    simpa using c.fresh part
  rw [readCheck, clean, live, fresh]
  rfl

/-- What nothing holds back, and none of whose operands traps, goes on. -/
theorem preCheck_of_clear (c : Clear s u h) : preCheck s u (s.issOf h) h.gp.toNat = .go := by
  rw [preCheck_of_unbarred c.toUnbarred, sourceCheck_of_unlocked c.toUnlocked, viewCheck_of_clean c.views]
  split
  · rfl
  · rename_i acts
    have part : (s.issOf h).part ≠ 0 := by simpa using acts
    rw [queueCheck_of_readable c.toReadable part, refetchCheck_of_unheld c.toUnheld part, readCheck_of_clear c part]

end

end Sys2Proof.Machine

/-! SUPPORT. What an issue answers for each thing its checks can find (R35, R87 to R95, R360 to R362), and the settled statement. -/

namespace Sys2Proof.Machine

section
variable {s : State} {u : Uses} {h : Hdr} {body : Iss → State → Body}

/-! ### What an instruction that is held back or traps on its operands leaves -/

theorem issue_of_stall (hp : preCheck s u (s.issOf h) h.gp.toNat = .stall) : issue u h body s = .next { s with stalled := true } := by
  simp only [issue, hp]
theorem issue_of_refetch (hp : preCheck s u (s.issOf h) h.gp.toNat = .refetch) :
    issue u h body s = .next (s.modFrag s.curRef fun f => { f with refetch := true, wake := s.clockIn 4 }) := by
  simp only [issue, hp]
theorem issue_of_wait {x : Wait} (hp : preCheck s u (s.issOf h) h.gp.toNat = .wait x) : issue u h body s = .next (s.modFrag s.curRef fun f =>
    { f with st := .waiting, wait := x, since := s.clock, capt := some (s.issOf h).captured }) := by
  simp only [issue, hp]
/-- A trap on the operands is raised at the issue, which is counted (log entry 79). -/
theorem issue_of_trap {c : Nat} (hc : c ≠ 10) (hp : preCheck s u (s.issOf h) h.gp.toNat = .trap c) :
    issue u h body s = .next ((s.issued (s.issOf h) u).trap c (s.issOf h).part {}) := by
  simp only [issue, hp, hc, if_false]

/-! ### The checks in their order (log entry 60) -/

/-- A register that is read and written in one region fails the idempotence check where no proposal is open (R92). -/
theorem preCheck_of_rewrite (k3 : (s.wave s.cur.wave).dm = .k3) (user : (s.issOf h).hm = false) (closed : (s.issOf h).w.prop = none)
    (both : ∃ n ∈ u.dv, n ∈ u.srcs.flatMap SU.vecs ∧ ((s.issOf h).w.vreg n).wir = false) :
    preCheck s u (s.issOf h) h.gp.toNat = .trap 10 := by
  obtain ⟨n, written, read, first⟩ := both
  have fails : idemFails (s.issOf h).w (s.issOf h).hm (s.issOf h).part u = true := by
    simp only [idemFails, Bool.and_eq_true, decide_eq_true_eq, Bool.not_eq_true', List.any_eq_true, List.contains_iff_mem]
    exact ⟨⟨iss_dm s h ▸ k3, user⟩, n, written, ⟨read, first⟩, by simp [closed]⟩
  exact if_pos fails

/-- An empty source is one of the registers that an instruction waits for (R95). -/
theorem sourceCheck_of_empty_trap {i : Iss} (part : i.part ≠ 0)
    (empty : ∃ x ∈ u.srcs, Src.empt x.x = true ∧ ∃ r ∈ SU.regs i.w i.part x, i.w.stateOf i.hm r = .empty) : sourceCheck s u i = .trap 17 := by
  exact if_pos (by simpa using And.intro part empty)

theorem sourceCheck_of_empty {i : Iss}
    (untrapped : ∀ x ∈ u.srcs, Src.empt x.x = true → ¬∃ r ∈ SU.regs i.w i.part x, i.w.stateOf i.hm r = .empty)
    (empty : ∃ x ∈ u.srcs, ∃ r ∈ SU.regs i.w i.part x, i.w.stateOf i.hm r = .empty) : sourceCheck s u i = .stall := by
  have none' : (u.srcs.any fun x => Src.empt x.x && (SU.regs i.w i.part x).any fun r => i.w.stateOf i.hm r = .empty) = false := by
    simpa only [List.any_eq_false, Bool.and_eq_true, not_and, List.any_eq_true, decide_eq_true_eq] using untrapped
  have some' : anyIn u i .empty = true := by
    obtain ⟨x, hx, r, hr, e⟩ := empty
    by_contra full
    exact (anyIn_eq_false.mp (Bool.eq_false_iff.mpr full)).1 x hx r hr e
  simp [sourceCheck, none', some']

theorem viewCheck_of_poison {i : Iss} (closing : u.win ≠ [])
    (poison : (∃ n ∈ u.win, (i.w.vreg n).st = .poison) ∨ ∃ r ∈ u.srcs.flatMap (SU.regs i.w i.part), i.w.stateOf i.hm r = .poison) :
    viewCheck s u i = .trap 18 := by
  have some' : anyIn u i .poison = true := by
    simp only [anyIn, Bool.or_eq_true, List.any_eq_true, decide_eq_true_eq]
    exact poison.symm
  simp [viewCheck, closing, some']

/-- The check that the read of an empty queue makes (R360, R362). -/
def emptyQueuePre (s : State) (t : Team) (q : Nat) (trap : Bool) : Pre :=
  if trap then .trap 17 else if s.prodGone t q then .trap 47 else .wait (.pop q)

theorem queuePre_of_empty {t : Team} {srcs : List SU} {q : Nat} (only : srcs.flatMap SU.queues = [q]) (empty : t.queue q = []) {x : SU}
    (hx : x ∈ srcs) {n : BitVec 2} {e : Bool} (reads : x.x = .q n e) : queuePre s t srcs = some (emptyQueuePre s t q e) := by
  induction srcs with
  | nil => cases hx
  | cons y ys ih =>
    have names : SU.queues x = [n.toNat] := by simp [SU.queues, reads]
    rw [List.flatMap_cons] at only
    rcases List.mem_cons.mp hx with rfl | later
    · obtain ⟨rfl, -⟩ : n.toNat = q ∧ _ := by simpa [names] using only
      cases e <;> cases g : s.prodGone t n.toNat <;> simp [queuePre, reads, empty, emptyQueuePre, g]
    · have mine : n.toNat ∈ ys.flatMap SU.queues := List.mem_flatMap.mpr ⟨x, later, by simp [names]⟩
      cases hy : SU.queues y with
      | nil =>
        have skip : queuePre s t (y :: ys) = queuePre s t ys := by
          cases hyx : y.x <;> simp [SU.queues, hyx] at hy <;> simp [queuePre, hyx]
        rw [skip]
        exact ih (by simpa [hy] using only) later
      | cons k ks =>
        have none' : ys.flatMap SU.queues = [] := by
          have := congrArg List.length only
          simp only [hy, List.length_append, List.length_cons, List.length_nil] at this
          exact List.eq_nil_of_length_eq_zero (by omega)
        simp [none'] at mine

theorem queuePre_of_no_queue {t : Team} {srcs : List SU} (none' : srcs.flatMap SU.queues = []) : queuePre s t srcs = none :=
  queuePre_eq_none (by simp [none'])

theorem queueCheck_of_pop {i : Iss} {p : Pre} (hp : queuePre s (s.team i.w.team) u.srcs = some p) : queueCheck s u i = p := by
  simp only [queueCheck, hp]
theorem queueCheck_of_push {i : Iss} {p : Pre} (none' : u.srcs.flatMap SU.queues = []) (hp : pushPre (s.team i.w.team) i.w u.push = some p) :
    queueCheck s u i = p := by
  simp only [queueCheck, queuePre_of_no_queue none', hp]

theorem refetchCheck_of_refetches {i : Iss} (first : i.f.refetch = false) (some' : ∃ x ∈ u.srcs, i.w.refetches i.part x.x = true) :
    refetchCheck u i = .refetch := by
  exact if_pos (by simpa using And.intro first some')

theorem readCheck_of_poison {i : Iss} (poison : ∃ r ∈ u.srcs.flatMap (SU.regs i.w i.part), i.w.stateOf i.hm r = .poison) :
    readCheck u i = .trap 18 := if_pos (by simpa only [List.any_eq_true, decide_eq_true_eq] using poison)
theorem readCheck_of_dead {i : Iss} (clean : ∀ r ∈ u.srcs.flatMap (SU.regs i.w i.part), i.w.stateOf i.hm r ≠ .poison)
    (traps : i.w.md.getLsbD 12 = true) (dead : ∃ x ∈ u.srcs, i.w.srcDead i.hm i.part x = true) : readCheck u i = .trap 16 :=
  (if_neg (by simpa only [List.any_eq_true, decide_eq_true_eq, not_exists, not_and] using clean)).trans
    (if_pos (by simpa only [Bool.and_eq_true, List.any_eq_true] using And.intro traps dead))
theorem readCheck_of_stale {i : Iss} (clean : ∀ r ∈ u.srcs.flatMap (SU.regs i.w i.part), i.w.stateOf i.hm r ≠ .poison)
    (live : i.w.md.getLsbD 12 = true → ∀ x ∈ u.srcs, i.w.srcDead i.hm i.part x = false)
    (stale : ∃ x ∈ u.srcs, i.w.readsStale i.hm i.part x.x = true) : readCheck u i = .trap 15 :=
  (if_neg (by simpa only [List.any_eq_true, decide_eq_true_eq, not_exists, not_and] using clean)).trans <|
    (if_neg (by simpa only [Bool.and_eq_true, List.any_eq_true, not_and, not_exists, Bool.not_eq_true] using live)).trans
      (if_pos (by simpa only [List.any_eq_true] using stale))

/-! ### From a stage back to all checks -/

theorem preCheck_eq_viewCheck (c : Unlocked s u h) : preCheck s u (s.issOf h) h.gp.toNat = viewCheck s u (s.issOf h) :=
  (preCheck_of_unbarred c.toUnbarred).trans (sourceCheck_of_unlocked c)
theorem preCheck_eq_queueCheck (c : Unlocked s u h) (v : ViewsClean s u h) (part : (s.issOf h).part ≠ 0) :
    preCheck s u (s.issOf h) h.gp.toNat = queueCheck s u (s.issOf h) := by
  rw [preCheck_eq_viewCheck c, viewCheck_of_clean v, if_neg (by simpa using part)]
theorem preCheck_eq_refetchCheck (c : Readable s u h) (v : ViewsClean s u h) (part : (s.issOf h).part ≠ 0) :
    preCheck s u (s.issOf h) h.gp.toNat = refetchCheck u (s.issOf h) :=
  (preCheck_eq_queueCheck c.toUnlocked v part).trans (queueCheck_of_readable c part)
theorem preCheck_eq_readCheck (c : Unheld s u h) (v : ViewsClean s u h) (part : (s.issOf h).part ≠ 0) :
    preCheck s u (s.issOf h) h.gp.toNat = readCheck u (s.issOf h) :=
  (preCheck_eq_refetchCheck c.toReadable v part).trans (refetchCheck_of_unheld c part)

end

/-- Settles O53: each cause is what its stage of the checks answers, once the stages before it are passed. -/
theorem operandTraps : Obligations.OperandTraps := by
  intro s u h body
  refine ⟨fun k3 user closed both => ?_, fun c part => ⟨fun empty => ?_, fun untrapped empty => ?_⟩, fun c closing poison => ?_,
    fun c v part => ⟨fun q only empty x hx n e reads => ?_, fun none' q pushes => ⟨fun role => ?_, fun role full => ?_⟩⟩,
    fun c v part first some' => ?_, fun c v part => ⟨fun poison => ?_, fun clean traps dead => ?_, fun clean live stale => ?_⟩⟩
  · simp only [issue, preCheck_of_rewrite k3 user closed both, if_true]
  · exact issue_of_trap (by decide) ((preCheck_of_unbarred c).trans (sourceCheck_of_empty_trap part empty))
  · exact issue_of_stall ((preCheck_of_unbarred c).trans (sourceCheck_of_empty untrapped empty))
  · exact issue_of_trap (by decide) ((preCheck_eq_viewCheck c).trans (viewCheck_of_poison closing poison))
  · have hp := (preCheck_eq_queueCheck c v part).trans (queueCheck_of_pop (queuePre_of_empty (s := s) only empty hx reads))
    by_cases traps : e = true
    · simpa only [if_pos traps] using issue_of_trap (by decide) (hp.trans (if_pos traps))
    · by_cases gone : s.prodGone (s.team (s.issOf h).w.team) q = true
      · simpa only [if_neg traps, if_pos gone] using issue_of_trap (by decide) (hp.trans ((if_neg traps).trans (if_pos gone)))
      · simpa only [if_neg traps, if_neg gone] using issue_of_wait (hp.trans ((if_neg traps).trans (if_neg gone)))
  · exact issue_of_trap (by decide) ((preCheck_eq_queueCheck c v part).trans (queueCheck_of_push none' (by simp [pushPre, pushes, role])))
  · exact issue_of_wait ((preCheck_eq_queueCheck c v part).trans
      (queueCheck_of_push none' (by simp only [pushPre, pushes, role, full]; simp)))
  · exact issue_of_refetch ((preCheck_eq_refetchCheck c v part).trans (refetchCheck_of_refetches first some'))
  · exact issue_of_trap (by decide) ((preCheck_eq_readCheck c v part).trans (readCheck_of_poison poison))
  · exact issue_of_trap (by decide) ((preCheck_eq_readCheck c v part).trans (readCheck_of_dead clean traps dead))
  · exact issue_of_trap (by decide) ((preCheck_eq_readCheck c v part).trans (readCheck_of_stale clean live stale))

end Sys2Proof.Machine

/-! SUPPORT. A step with one move (R26, R27): the watchdog is among the moves when it is late, and an issue runs the decoded word. -/

namespace Sys2Proof.Machine

/-- A late watchdog's expiry is one of the device's moves (R365). -/
theorem watchdogExpiry_mem_moves {s : State} {p : Nat} (h : s.lateWatchdog = some p) : Move.event (.watchdogExpiry p) ∈ s.moves := by
  obtain ⟨e, found, rfl⟩ := Option.map_eq_some_iff.mp h
  have holds := List.find?_some found
  simp only [Bool.and_eq_true] at holds
  have event : Instr.watchdogExpiry e.1 ∈ s.events := by
    have part : Instr.watchdogExpiry e.1 ∈ s.parts.flatMap fun e => e.2.events e.1 :=
      List.mem_flatMap.mpr ⟨e, List.mem_of_find?_eq_some found, by simp [Part.events]⟩
    simp only [State.events, List.mem_append, part, or_true, true_or]
  exact List.mem_append_right _ (List.mem_map_of_mem (List.mem_filter.mpr ⟨event, holds.2⟩))

theorem lateWatchdog_of_moves_issue {s : State} {r : FragRef} (h : s.moves = [.issue r]) : s.lateWatchdog = none := by
  cases hw : s.lateWatchdog with
  | none => rfl
  | some p => simpa [h] using watchdogExpiry_mem_moves hw

theorem chooseOf_singleton {α : Type} (s : State) (a : α) : s.chooseOf [a] = some a := rfl

/-- With one move, the issue of a fragment whose PC holds a word that decodes, the turn is that instruction's (R26, R27). -/
theorem turn_of_moves_issue {s : State} {r : FragRef} {b : BitVec 128} {i : Instr} (on : s.tripped = false) (quiet : s.arrivals = [])
    (only : s.moves = [.issue r]) (fetched : s.fetch (s.wave r.wave) ((s.wave r.wave).frag r.entry) = .word b)
    (decoded : decode ((s.wave r.wave).env ((s.wave r.wave).frag r.entry)) b = .ok i) :
    s.turn = .run i (((s.slipped r).fetchFill (s.wave r.wave) ((s.wave r.wave).frag r.entry)).issuing (s.wave r.wave)
      ((s.wave r.wave).frag r.entry) (.word b)) := by
  have issued : s.nextInstr (s.wave r.wave) ((s.wave r.wave).frag r.entry) = some i := by
    simp only [State.nextInstr, fetched, Fetch.instr, decoded]
  simp [State.turn, State.ownTurn, State.issueFrag, on, quiet, only, lateWatchdog_of_moves_issue only, chooseOf_singleton, issued, fetched]

/-- Settles O59: with the issue as the only move the turn is the decoded instruction's, and a step ends as every step does. -/
theorem stepRunsDecoded : Obligations.StepRunsDecoded := by
  intro s t r b i on quiet only w f fetched decoded ran
  rw [step, turn_of_moves_issue on quiet only fetched decoded]
  simp only [w, f] at ran
  simp only [ran]

end Sys2Proof.Machine

/-! SUPPORT. Why O15 fails: it asks of a merge, as the model's own rule for it does not, that each fragment of the wave has an entry of its own. -/

namespace Sys2Proof.Machine

/-- A wave whose fragment 0 issues a `HINGE` while two fragments stand under one entry, 1: one held at that hinge, one at a lower PC. -/
def sharedEntry : State :=
  let frags : List Frag := [{ entry := 0, pc := 0x10000, mask := 1, born := 5 },
    { entry := 1, pc := 0x10000, mask := 2, st := .held 0x10000 1 }, { entry := 1, pc := 0xFFF8, mask := 4, st := .held 0xFFF8 1 }]
  let w : Wave := { id := 0, team := 0, num := 0, live := true, frags := frags }
  { State.reset with waves := [(0, w)] }.issuing w { entry := 0, pc := 0x10000, mask := 1, born := 5 } (.word 0)

def sharedEntryHinge : HCode := ⟨{ form := .f64, gneg := false, gp := 15 }, 1⟩

/-- A wave's fragments after an instruction that answers a next state. -/
def fragsAfter (wave : Nat) : Host.Outcome State Fault Refusal → List Frag
  | .next t => (t.wave wave).frags
  | _ => []

theorem sharedEntry_issuing : Issuing sharedEntry where
  wave := by decide +kernel
  runs := by decide +kernel
  room := by decide +kernel

theorem sharedEntry_clear : Clear sharedEntry ctl sharedEntryHinge.h where
  idem := by decide +kernel
  hold := by decide +kernel
  first := by decide +kernel
  preds := by decide +kernel
  dsts := by decide +kernel
  tiles := by decide +kernel
  win := by decide +kernel
  srcs := by decide +kernel
  pops := by decide +kernel
  push := by decide +kernel
  fetched := by decide +kernel
  views := fun closing => absurd rfl closing
  clean := by decide +kernel
  fresh := by decide +kernel

/-- The merged fragment takes entry 1 over from both fragments that had it; none is held any more. -/
theorem sharedEntry_frags_running : ∀ m ∈ fragsAfter 0 (exec (.hinge sharedEntryHinge) sharedEntry), m.st = .running := by decide +kernel

theorem sharedEntry_others_held : ∀ g ∈ (sharedEntry.issQ ctl sharedEntryHinge.h).w.frags.filter fun g => g.entry ≠ sharedEntry.cur.entry,
    g.st = .held 0x10000 1 ∨ g.st = .held 0xFFF8 1 := by decide +kernel

/-- Refutes O15: nothing says that the fragments' entries differ where two merge. Fragments 0 and 1 of `sharedEntry` merge at their hinge; the
statement has the merged one stay held, as a third fragment is held at a lower PC; but that one has entry 1 as well, so the merge has put the merged
fragment in its place, no lower PC is left, and what is there runs. -/
theorem not_hingeResults : ¬ Obligations.HingeResults := by
  intro all
  obtain ⟨t, ran, post⟩ := all sharedEntryHinge sharedEntry (by decide +kernel) sharedEntry_issuing (.inl (by decide +kernel)) sharedEntry_clear
    (by decide +kernel) trivial
  obtain ⟨-, merges, -⟩ := post
  obtain ⟨m, stands, -, held⟩ := merges _ rfl
  have runs : m.st = .running := sharedEntry_frags_running m (by rw [ran]; exact stands)
  have stays := held fun g hg => (sharedEntry_others_held g hg).elim (⟨_, _, ·⟩) (⟨_, _, ·⟩)
  rw [runs] at stays
  exact absurd stays (by decide +kernel)

end Sys2Proof.Machine

/-! SUPPORT. Why O27 fails: it has a withdrawn exchange's slot hold its values whatever lanes the mail names, also lanes that its half-wave does not
have. -/

namespace Sys2Proof.Machine

/-- Mail of lane 40, due to be withdrawn, for `v8` and its slot 0. -/
def strayMail : Xch :=
  { id := 70, wave := 0, pasid := 0, key := 5, vals := mkLanes fun _ => 1, mask := 1#64 <<< 40, d := 8, g := 2, box := 5, mir := .o 0, at? := some 0 }

/-- Its wave has 32 lanes, each with a kill of `v8` pending, and its fragment waits for the exchange to make a region entry. -/
def strayMailed : State :=
  let w : Wave := { id := 0, team := 0, num := 0, w32 := true, v := [(8, { dead := 0, kill := 0xFFFFFFFF })]
                    frags := [{ entry := 0, st := .waiting, wait := .op 70 }] }
  { State.reset with clock := 262144, mail := [strayMail], waves := [(0, w)] }

/-- A slot's value in a wave after an event that answers a next state. -/
def slotAfter (wave slot : Nat) : Host.Outcome State Fault Refusal → Lanes
  | .next t => ((t.wave wave).slotAt slot).val
  | _ => []

/-- The withdrawal writes lane 40 of the slot, and the region entry after it empties the slot, since `v8` is then dead in all 32 lanes (R89). -/
theorem strayMailed_slot_emptied : laneAt (slotAfter 0 0 (exec (.xchgWithdrawal 70) strayMailed)) 40 = 0 := by decide +kernel

theorem strayMailed_hasMail : HasMail strayMailed strayMail := ⟨List.mem_singleton.mpr rfl, fun _ h _ => List.mem_singleton.mp h, rfl⟩

/-- Refutes O27: nothing says that mail names only lanes its wave has. `strayMail` is withdrawn with 1 in lane 40, which the statement wants in the
mirror slot, but the region entry that the withdrawal makes finds `v8` dead in all 32 lanes and empties the slot. -/
theorem not_exchanges : ¬ Obligations.Exchanges := by
  rintro ⟨-, mail⟩
  obtain ⟨-, -, -, due⟩ := mail strayMailed strayMail strayMailed_hasMail
  obtain ⟨-, t, ran, ⟨lanes, -⟩, -⟩ := due 0 rfl (by decide)
  obtain ⟨-, -, (mirror : laneAt ((t.wave 0).slotAt 0).val 40 = 1)⟩ := lanes 40 (by decide) (by decide)
  have emptied := strayMailed_slot_emptied
  rw [show strayMail.id = 70 from rfl] at ran
  rw [ran, slotAfter, mirror] at emptied
  exact absurd emptied (by decide)

end Sys2Proof.Machine

/-! SUPPORT. The state on which an instruction that nothing holds back has its effect. -/

namespace Sys2Proof.Machine

section
variable {s : State} {u : Uses} {h : Hdr} {body : Iss → State → Body}

/-- The state in which the operands of an instruction have been read, its queue entry has been popped, and its fragment has moved on. -/
def State.afterIssue (s : State) (u : Uses) (h : Hdr) : State :=
  let popped : State := if (s.issOf h).part = 0 then s else (s.popQueue (s.issOf h).w u).2
  (popped.issued (s.issQ u h) u).modWave s.cur.wave fun w => (w.afterReads (s.issQ u h) u).modFrag s.cur.entry (Frag.passed s)

/-- An instruction that nothing holds back has its effect on the state after its reads, and ends. -/
theorem issue_of_clear (c : Clear s u h) (acts : ¬(u.whole = true ∧ (s.issOf h).part = 0)) {eff : State → State}
    (goes : body (s.issQ u h) s = .go eff) : issue u h body s = .next ((eff (s.afterIssue u h)).finish s.curRef (s.issQ u h) u) := by
  obtain ⟨t, ran⟩ := issue_next u h body s
  have sees : s.issQ u h = { s.issOf h with q := (if (s.issOf h).part = 0 then ([], s) else s.popQueue (s.issOf h).w u).1 } := by
    simp only [State.issQ]; split <;> rfl
  have popped : (if (s.issOf h).part = 0 then ([], s) else s.popQueue (s.issOf h).w u).2
      = if (s.issOf h).part = 0 then s else (s.popQueue (s.issOf h).w u).2 := by split <;> rfl
  have cases' := issue_cases ran
  simp only [preCheck_of_clear c, ← sees, popped, goes] at cases'
  rw [ran]
  rcases cases' with ⟨-, e | ⟨-, e⟩⟩ | ⟨e, -⟩ | ⟨_, e, -⟩ | ⟨_, e, -⟩ | ⟨-, whole, idle, -⟩ | ⟨_, _, -, e, -⟩ | ⟨eff', -, -, e, rfl⟩
  case inr.inr.inr.inr.inl => exact absurd ⟨whole, idle⟩ acts
  case inr.inr.inr.inr.inr.inr => cases e; rfl
  all_goals cases e

/-- A whole-fragment instruction with no lane taking part has no effect. -/
theorem issue_of_clear_idle (c : Clear s u h) (whole : u.whole = true) (idle : (s.issOf h).part = 0) :
    issue u h body s = .next (((s.issued (s.issOf h) u).modFrag s.curRef (Frag.passed s)).finish s.curRef (s.issOf h) u) := by
  simp only [issue, preCheck_of_clear c, whole, idle]
  rfl

/-- What uses no role queue sees its fragment and its wave as they stand. -/
theorem capt_eq_none (captured : s.CaptureOk u) (none' : usesQueue u = false) : ((s.wave s.cur.wave).frag s.cur.entry).capt = none :=
  captured.resolve_right (by simp [none'])

end

end Sys2Proof.Machine

/-! SUPPORT. What the reads of an instruction leave alone of its wave (R33, R90, R92, R94): its fragments but for a note of first reads, its handler,
and who the wave is. -/

namespace Sys2Proof.Machine

/-- A projection that every step of a fold keeps is kept by the fold. -/
theorem foldl_keeps {α β γ : Type} {p : β → γ} {f : β → α → β} (keeps : ∀ b a, p (f b a) = p b) (l : List α) (b : β) : p (l.foldl f b) = p b := by
  induction l generalizing b with
  | nil => rfl
  | cons a l ih => exact (ih _).trans (keeps b a)

/-- An entry of a table whose values have been changed, each by its key. -/
theorem Tab.get?_map {α β : Type} (g : Nat → α → β) (t : Tab α) (n : Nat) : Tab.get? (t.map fun e => (e.1, g e.1 e.2)) n = (Tab.get? t n).map (g n) := by
  induction t with
  | nil => rfl
  | cons e t ih =>
    simp only [List.map_cons, Tab.get?]
    split
    · next same => rw [← same]; rfl
    · exact ih

theorem Tab.getD_map {α : Type} {d : α} {g : Nat → α → α} (t : Tab α) (n : Nat) (keeps : g n d = d) :
    Tab.getD d (t.map fun e => (e.1, g e.1 e.2)) n = g n (Tab.getD d t n) := by
  rw [Tab.getD, Tab.get?_map, Tab.getD]
  cases Tab.get? t n
  · exact keeps.symm
  · rfl

/-- A projection of a wave that says nothing of its registers, its slots and the reads that are owed. -/
structure Wave.OffRegs {γ : Type} (p : Wave → γ) : Prop where
  setV : ∀ w n r, p (Wave.setV w n r) = p w
  setS : ∀ w hm n r, p (Wave.setS w hm n r) = p w
  slots : ∀ (w : Wave) o, p { w with o := o } = p w
  towed : ∀ (w : Wave) o, p { w with towed := o } = p w

section
variable {γ : Type} {p : Wave → γ} (off : Wave.OffRegs p)
include off

theorem Wave.OffRegs.markWir (w : Wave) (hm : Bool) (n : Nat) : p (w.markWir hm n) = p w := by
  unfold Wave.markWir
  split
  · rfl
  · exact off.setV ..

theorem Wave.OffRegs.markKills (w : Wave) (i : Iss) (srcs : List SU) : p (w.markKills i srcs) = p w := by
  refine foldl_keeps (fun w x => ?_) srcs w
  split
  · refine foldl_keeps (fun w r => ?_) _ w
    cases r with
    | v n => exact off.setV ..
    | s n => exact off.setS ..
  · rfl

theorem Wave.OffRegs.emptyV (w : Wave) (hm owes : Bool) (n : Nat) : p (w.emptyV hm owes n) = p w := (off.slots _ _).trans (off.setV ..)

theorem Wave.OffRegs.afterReads (w : Wave) (i : Iss) (u : Uses) : p (w.afterReads i u) = p (w.noteReads i u) := by
  have filled (w : Wave) : p (if u.vl && decide (i.part ≠ 0) then
      u.ds.foldl (fun w n => w.emptyS i.hm u.owes n) (u.dv.foldl (fun w n => w.emptyV i.hm u.owes n) w) else w) = p w := by
    split
    · exact (foldl_keeps (fun w n => off.setS w ..) u.ds _).trans (foldl_keeps (fun w n => off.emptyV w ..) u.dv w)
    · rfl
  have owed (w : Wave) (rs : List RR) : p (rs.foldl (fun w r => match r with
      | .v n => w.setV n { w.vreg n with owed := false }
      | .s n => w.setS i.hm n { w.sreg i.hm n with owed := false }) w) = p w := by
    refine foldl_keeps (fun w r => ?_) rs w
    cases r with
    | v n => exact off.setV ..
    | s n => exact off.setS ..
  unfold Wave.afterReads
  refine (filled _).trans ((foldl_keeps (fun w n => off.markWir w ..) u.dv _).trans ?_)
  by_cases act : i.part = 0
  · simp [act]
  · simp only [act, ne_eq, not_false_eq_true, decide_true, if_true]
    exact (off.towed _ _).trans ((off.markKills ..).trans (owed ..))

end

theorem Wave.offRegs_frags : Wave.OffRegs Wave.frags := ⟨fun _ _ _ => rfl, fun _ _ _ _ => by simp, fun _ _ => rfl, fun _ _ => rfl⟩
theorem Wave.offRegs_h : Wave.OffRegs Wave.h := ⟨fun _ _ _ => rfl, fun _ _ _ _ => by simp, fun _ _ => rfl, fun _ _ => rfl⟩

theorem Wave.afterReads_h (w : Wave) (i : Iss) (u : Uses) : (w.afterReads i u).h = w.h := by
  rw [Wave.offRegs_h.afterReads, Wave.noteReads]
  split <;> rfl

/-- The reads of an instruction change no fragment but to note what its own has read. -/
theorem Wave.afterReads_frags (w : Wave) (i : Iss) (u : Uses) : ∃ g : Frag → Frag, (∀ f, ∃ rv rs, g f = { f with readV := rv, readS := rs }) ∧
    (w.afterReads i u).frags = (w.modFrag i.f.entry g).frags := by
  rw [Wave.offRegs_frags.afterReads, Wave.noteReads]
  split
  · refine ⟨fun f => f, fun f => ⟨_, _, rfl⟩, ?_⟩
    simp only [Wave.modFrag, ite_self, List.map_id']
  · exact ⟨_, fun f => ⟨_, _, rfl⟩, rfl⟩

section
variable {s : State} {u : Uses} {h : Hdr}

theorem iss_f (s : State) (h : Hdr) : (s.iss h).f = (s.wave s.cur.wave).frag s.cur.entry := by
  cases hc : ((s.wave s.cur.wave).frag s.cur.entry).capt <;> simp [State.iss, hc]

theorem Wave.frag_entry {w : Wave} {e : Nat} (stands : ∃ f ∈ w.frags, f.entry = e) : (w.frag e).entry = e := by
  obtain ⟨f, hf, he⟩ := stands
  cases found : w.frags.find? fun f => f.entry == e with
  | none => exact absurd he (by simpa using List.find?_eq_none.mp found f hf)
  | some g => rw [Wave.frag, found]; simpa using List.find?_some found

/-- The queue that an instruction pops is its team's: no wave changes. -/
theorem popQueue_waves (s : State) (w : Wave) (u : Uses) : (s.popQueue w u).2.waves = s.waves := by
  rcases popQueue_cases s w u with ⟨e, -⟩ | ⟨_, _, _, -, -, e⟩ <;> rw [e]
  rfl

theorem afterIssue_wave (here : (Tab.get? s.waves s.cur.wave).isSome = true) : (s.afterIssue u h).wave s.cur.wave =
    ((s.wave s.cur.wave).afterReads (s.issQ u h) u).modFrag s.cur.entry (Frag.passed s) := by
  have waves : (if (s.issOf h).part = 0 then s else (s.popQueue (s.issOf h).w u).2).waves = s.waves := by
    split
    · rfl
    · exact popQueue_waves ..
  have same : (if (s.issOf h).part = 0 then s else (s.popQueue (s.issOf h).w u).2).wave s.cur.wave = s.wave s.cur.wave := by
    simp only [State.wave, waves]
  simp only [State.afterIssue]
  rw [State.wave_modWave _ _ _ _ (by rw [issued_waves, waves]; exact here), if_pos rfl, issued_wave, same]

/-- After the reads of an instruction its fragment has moved on and noted its first reads; other fragments are as they were. -/
theorem afterIssue_frags (stands : Stands s) : ∃ g : Frag → Frag, (∀ f, ∃ rv rs, g f = { Frag.passed s f with readV := rv, readS := rs }) ∧
    ((s.afterIssue u h).wave s.cur.wave).frags = ((s.wave s.cur.wave).modFrag s.cur.entry g).frags := by
  obtain ⟨here, -, -, mine⟩ := stands.wave
  obtain ⟨g, notes, frags⟩ := Wave.afterReads_frags (s.wave s.cur.wave) (s.issQ u h) u
  have entry : (s.issQ u h).f.entry = s.cur.entry := by
    rw [show (s.issQ u h).f = (s.iss h).f from rfl, iss_f, Wave.frag_entry mine]
  rw [entry] at frags
  have keeps (f : Frag) : (g f).entry = f.entry := by obtain ⟨rv, rs, e⟩ := notes f; rw [e]
  refine ⟨fun f => Frag.passed s (g f), fun f => ?_, ?_⟩
  · obtain ⟨rv, rs, e⟩ := notes f
    exact ⟨rv, rs, by simp only [e, Frag.passed]⟩
  · rw [afterIssue_wave here, Wave.modFrag, frags]
    simp only [Wave.modFrag, List.map_map]
    refine List.map_congr_left fun f _ => ?_
    by_cases e : f.entry = s.cur.entry <;> simp [e, keeps]

theorem afterIssue_h (here : (Tab.get? s.waves s.cur.wave).isSome = true) : ((s.afterIssue u h).wave s.cur.wave).h = (s.wave s.cur.wave).h := by
  rw [afterIssue_wave here]
  exact Wave.afterReads_h ..

theorem afterIssue_isSome : (Tab.get? (s.afterIssue u h).waves s.cur.wave).isSome = (Tab.get? s.waves s.cur.wave).isSome := by
  have waves : (if (s.issOf h).part = 0 then s else (s.popQueue (s.issOf h).w u).2).waves = s.waves := by
    split
    · rfl
    · exact popQueue_waves ..
  rw [State.afterIssue, State.modWave, Tab.get?_mod, if_pos rfl, Option.isSome_map, issued_waves, waves]

end

/-! ### A region entry in its two parts (R34) -/

/-- A fragment that makes a region entry: its restart point is where it stands. -/
def Frag.enters (ctr : Nat → DWord) (f : Frag) : Frag :=
  { f with rpc := f.pc, rmask := f.mask, rstack := f.stack, rctr := (lanesOf f.lanes).map fun i => (i, ctr i), readV := [], readS := [] }

/-- A wave one of whose fragments makes a region entry, but for what waits until the fragment is the wave's only one. -/
def Wave.entersRegion (w : Wave) (e : Nat) : Wave :=
  { w.dropLatches.modFrag e (Frag.enters w.ctr) with wpc := w.wpc + 1, mx := w.mx.map fun m => { m with recN := m.n } }

theorem Wave.regionEntry_eq (w : Wave) (e : Nat) : w.regionEntry e =
    if w.inHandler e = true then w else if w.frags.length ≤ 1 then (w.entersRegion e).settleRegion else w.entersRegion e := by
  have len : (w.entersRegion e).frags.length = w.frags.length := List.length_map _
  rw [← len]
  rfl

end Sys2Proof.Machine

/-! SUPPORT. The end of a fragment (R30, R40, R385): what the fragments of its wave and its handler are when the operations that it leaves have been
discarded, and the settled statement. -/

namespace Sys2Proof.Machine

/-! ### A wave's fragments and its handler -/

/-- What a handler keeps of its cause while the instructions of its wave end. -/
def HCtx.outline (h : HCtx) : Nat × Nat × Mask := (h.cause, h.entry, h.mask)

/-- A wave with the fragments, and but for an instruction kept in it the handler, of another. -/
structure Wave.SameFrags (v w : Wave) : Prop where
  frags : w.frags = v.frags
  outline : w.h.map HCtx.outline = v.h.map HCtx.outline

theorem Wave.SameFrags.refl (w : Wave) : w.SameFrags w := ⟨rfl, rfl⟩
theorem Wave.SameFrags.trans {u v w : Wave} (a : u.SameFrags v) (b : v.SameFrags w) : u.SameFrags w :=
  ⟨b.frags.trans a.frags, b.outline.trans a.outline⟩
theorem Wave.SameFrags.modFrag {v w : Wave} (a : v.SameFrags w) (e : Nat) (g : Frag → Frag) : (v.modFrag e g).SameFrags (w.modFrag e g) :=
  ⟨by simp only [Wave.modFrag, a.frags], a.outline⟩
theorem Wave.SameFrags.h_eq_none {v w : Wave} (a : v.SameFrags w) (none' : v.h = none) : w.h = none := by
  have := a.outline
  simpa [none'] using this

/-- A wave stands in the table, with the fragments and the handler of `v`. -/
structure State.Shows (s : State) (n : Nat) (v : Wave) : Prop where
  here : (Tab.get? s.waves n).isSome = true
  same : v.SameFrags (s.wave n)

theorem State.isSome_modWave (s : State) (i n : Nat) (f : Wave → Wave) :
    (Tab.get? (s.modWave i f).waves n).isSome = (Tab.get? s.waves n).isSome := by
  rw [State.modWave, Tab.get?_mod]
  split <;> simp

theorem State.wave_modWave_or (s : State) (i n : Nat) (f : Wave → Wave) :
    (s.modWave i f).wave n = s.wave n ∨ (s.modWave i f).wave n = f (s.wave n) := by
  by_cases here : (Tab.get? s.waves i).isSome = true
  · rw [State.wave_modWave s i n f here]
    split
    · exact .inr rfl
    · exact .inl rfl
  · refine .inl ?_
    have gone : Tab.get? s.waves i = none := by simpa using here
    have same : Tab.get? (s.modWave i f).waves n = Tab.get? s.waves n := by
      rw [State.modWave, Tab.get?_mod]
      split
      · next e => rw [← e, gone]; rfl
      · rfl
    simp only [State.wave, Tab.getD, same]

theorem State.Shows.modWave {s : State} {n : Nat} {v v' : Wave} (a : s.Shows n v) {f : Wave → Wave}
    (keeps : ∀ w, v.SameFrags w → v'.SameFrags (f w)) : (s.modWave n f).Shows n v' where
  here := (s.isSome_modWave n n f).trans a.here
  same := by rw [State.wave_modWave s n n f a.here, if_pos rfl]; exact keeps _ a.same

/-- A change of any wave that leaves fragments and handlers. -/
theorem State.Shows.modWave_any {s : State} {n i : Nat} {v : Wave} (a : s.Shows n v) {f : Wave → Wave} (keeps : ∀ w : Wave, w.SameFrags (f w)) :
    (s.modWave i f).Shows n v where
  here := (s.isSome_modWave i n f).trans a.here
  same := a.same.trans <| by
    rcases s.wave_modWave_or i n f with e | e <;> rw [e]
    · exact .refl _
    · exact keeps _

theorem State.Shows.of_waves {s t : State} {n : Nat} {v : Wave} (a : s.Shows n v) (waves : t.waves = s.waves) : t.Shows n v := by
  obtain ⟨here, same⟩ := a
  simp only [State.wave, ← waves] at here same
  exact ⟨here, same⟩

/-! ### Operations that end with a fragment -/

theorem Wave.setV_sameFrags (w : Wave) (n : Nat) (r : VReg) : w.SameFrags (w.setV n r) := ⟨rfl, rfl⟩
theorem Wave.setS_sameFrags (w : Wave) (hm : Bool) (n : Nat) (r : SReg) : w.SameFrags (w.setS hm n r) := ⟨by simp, by simp⟩

theorem Wave.fillAll_sameFrags (w : Wave) (hm : Bool) (vs ss : List Nat) : w.SameFrags (w.fillAll hm vs ss) := by
  have scalars (w : Wave) : w.SameFrags (ss.foldl (fun w n => w.setS hm n { w.sreg hm n with st := .full }) w) := by
    induction ss generalizing w with
    | nil => exact .refl w
    | cons n ss ih => exact (w.setS_sameFrags hm n _).trans (ih _)
  induction vs generalizing w with
  | nil => exact scalars w
  | cons n vs ih => exact (w.setV_sameFrags n _).trans (ih _)

theorem Wave.letGo_sameFrags (w : Wave) (id : Nat) : w.SameFrags (w.letGo id) where
  frags := rfl
  outline := by
    simp only [Wave.letGo, Option.map_map]
    congr 1
    funext h
    simp only [Function.comp]
    split <;> rfl

theorem State.Shows.abandon {s : State} {n : Nat} {v : Wave} (a : s.Shows n v) (id : Nat) : (s.abandon id).Shows n v := by
  unfold State.abandon
  split
  · exact a
  · exact (a.modWave_any fun w => (w.fillAll_sameFrags ..).trans (Wave.letGo_sameFrags _ id)).of_waves rfl

theorem State.Shows.discardOps {s : State} {n : Nat} {v : Wave} (a : s.Shows n v) (i : Nat) : (s.discardOps i).Shows n v := by
  have all (os : List Op) (t : State) (b : t.Shows n v) : (os.foldl (fun s o => s.abandon o.id) t).Shows n v := by
    induction os generalizing t with
    | nil => exact b
    | cons o os ih => exact ih _ (b.abandon o.id)
  exact all _ _ (a.of_waves rfl)

/-! ### Trap-pending fragments -/

/-- None of a wave's fragments is trap-pending. -/
def Wave.NonePending (w : Wave) : Prop := ∀ g ∈ w.frags, ∀ c, g.st ≠ .pending c

theorem Wave.NonePending.modFrag {w : Wave} (a : w.NonePending) (e : Nat) {g : Frag → Frag} (keeps : ∀ f, (g f).st = f.st) :
    (w.modFrag e g).NonePending := by
  intro x hx c
  obtain ⟨f, hf, rfl⟩ := List.mem_map.mp hx
  split
  · exact keeps f ▸ a f hf c
  · exact a f hf c

theorem State.nextPending_of_none {s : State} {n : Nat} (none' : (s.wave n).NonePending) : s.nextPending n = s := by
  simp only [State.nextPending]
  rw [List.filter_eq_nil_iff.mpr]
  · rfl
  · intro f hf
    split
    · next c e => exact absurd e (none' f hf c)
    · simp

theorem State.Shows.pendingEnters {s : State} {n : Nat} {v : Wave} (a : s.Shows n v) (none' : v.NonePending) : (s.pendingEnters n).Shows n v := by
  have stays : s.nextPending n = s := State.nextPending_of_none (by rw [Wave.NonePending, a.same.frags]; exact none')
  simp only [State.pendingEnters, stays]
  split
  · refine a.modWave fun w same => ⟨same.frags, ?_⟩
    rw [Option.map_map]
    exact same.outline
  · exact a

/-! ### The fragment that runs its top record, or is gone -/

/-- A wave in which no handler runs. -/
def Wave.unhandled (w : Wave) : Wave := { w with h := none }

/-- The depth of the stack that a handler has interrupted. -/
def Wave.userDepth (w : Wave) : Nat := (w.h.map fun h => h.stack.length).getD 0

/-- What shows of a wave whose fragment runs its top record (R30, R40). -/
def Wave.popped (w : Wave) (e : Nat) (t : Rec) (rest : List Rec) : Wave :=
  (if w.inHandler e = true then
    if w.userDepth ≤ rest.length then w.endInHandler e (w.frag e).mask else (w.endInHandler e (w.frag e).mask).unhandled
  else w).modFrag e fun f => f.popRecord t rest

/-- A wave without a fragment. -/
def Wave.dropFrag (w : Wave) (e : Nat) : Wave := { w with frags := w.frags.filter fun f => f.entry ≠ e }

theorem Wave.SameFrags.dropFrag {v w : Wave} (a : v.SameFrags w) (e : Nat) : (v.dropFrag e).SameFrags (w.dropFrag e) :=
  ⟨by simp only [Wave.dropFrag, a.frags], a.outline⟩

/-- What shows of a wave whose fragment is gone. -/
def Wave.without (w : Wave) (e : Nat) : Wave := (if w.inHandler e = true then w.unhandled else w).dropFrag e

theorem Wave.SameFrags.endInHandler {v w : Wave} (a : v.SameFrags w) (e : Nat) (m : Mask) : (v.endInHandler e m).SameFrags (w.endInHandler e m) where
  frags := by simp only [Wave.endInHandler, Wave.modFrag, a.frags]
  outline := by
    have cut (h : Option HCtx) : (h.map fun h => { h with mask := h.mask &&& ~~~m, stack := cutStack m h.stack }).map HCtx.outline
        = (h.map HCtx.outline).map fun o => (o.1, o.2.1, o.2.2 &&& ~~~m) := by cases h <;> rfl
    exact (cut w.h).trans ((congrArg _ a.outline).trans (cut v.h).symm)

theorem Frag.popRecord_st (f : Frag) (t : Rec) (rest : List Rec) : (f.popRecord t rest).st = f.st := by
  unfold Frag.popRecord; split <;> rfl

theorem Wave.NonePending.popped {w : Wave} (a : w.NonePending) (e : Nat) (t : Rec) (rest : List Rec) : (w.popped e t rest).NonePending := by
  have ended (m : Mask) : (w.endInHandler e m).NonePending := Wave.NonePending.modFrag (w := { w with h := _ }) a e fun _ => rfl
  refine Wave.NonePending.modFrag ?_ e fun f => Frag.popRecord_st f t rest
  split
  · split
    · exact ended _
    · exact ended _
  · exact a

theorem State.Shows.leaveHandler {s : State} {n : Nat} {v : Wave} (a : s.Shows n v) (op : Option Nat) :
    ((match op with
      | some o => s.abandon o
      | none => s).modWave n Wave.unhandled).Shows n v.unhandled := by
  refine State.Shows.modWave (v := v) ?_ fun w same => ⟨same.frags, rfl⟩
  split
  · exact a.abandon _
  · exact a

/-- With a record left, its lanes run. -/
theorem State.Shows.endFragment_cons {s : State} {r : FragRef} (here : (Tab.get? s.waves r.wave).isSome = true) (none' : (s.wave r.wave).NonePending)
    {t : Rec} {rest : List Rec} (stack : ((s.wave r.wave).frag r.entry).stack = t :: rest) :
    (s.endFragment r).Shows r.wave ((s.wave r.wave).popped r.entry t rest) := by
  have start : s.Shows r.wave (s.wave r.wave) := ⟨here, .refl _⟩
  have shown := none'.popped r.entry t rest
  simp only [State.endFragment, stack, Wave.popped] at shown ⊢
  refine ((State.Shows.modWave ?_ fun w same => same.modFrag r.entry _).discardOps r.wave).pendingEnters shown
  by_cases hm : (s.wave r.wave).inHandler r.entry = true
  · have ended := start.modWave fun w same => same.endInHandler r.entry ((s.wave r.wave).frag r.entry).mask
    obtain ⟨h, running⟩ : ∃ h, (s.wave r.wave).h = some h := by
      cases e : (s.wave r.wave).h with
      | none => simp [Wave.inHandler, e] at hm
      | some h => exact ⟨h, rfl⟩
    simp only [hm, if_true, running, Wave.userDepth, Option.map_some, Option.getD_some]
    split
    · exact ended
    · exact ended.leaveHandler _
  · simp only [hm, if_false, Bool.false_eq_true, ite_self]
    exact start

/-- With none left the fragment is gone, and the wave with its last one. -/
theorem State.Shows.endFragment_nil {s : State} {r : FragRef} (here : (Tab.get? s.waves r.wave).isSome = true) (none' : (s.wave r.wave).NonePending)
    (stack : ((s.wave r.wave).frag r.entry).stack = []) :
    ∃ t : State, t.Shows r.wave ((s.wave r.wave).without r.entry) ∧ s.endFragment r =
      if ((s.wave r.wave).without r.entry).frags = [] then t.retireWave r.wave else t.modWave r.wave Wave.releaseHeld := by
  have start : s.Shows r.wave (s.wave r.wave) := ⟨here, .refl _⟩
  have drop {v : Wave} {t : State} (a : t.Shows r.wave v) : ((t.modWave r.wave (Wave.dropFrag · r.entry)).discardOps r.wave).Shows r.wave
      (v.dropFrag r.entry) :=
    State.Shows.discardOps (a.modWave fun w same => same.dropFrag r.entry) r.wave
  have ends {t : State} (a : t.Shows r.wave ((s.wave r.wave).without r.entry)) : ∃ t' : State, t'.Shows r.wave ((s.wave r.wave).without r.entry) ∧
      (if (t.wave r.wave).frags.isEmpty = true then t.retireWave r.wave else (t.pendingEnters r.wave).modWave r.wave Wave.releaseHeld) =
        if ((s.wave r.wave).without r.entry).frags = [] then t'.retireWave r.wave else t'.modWave r.wave Wave.releaseHeld := by
    have rest : ((s.wave r.wave).without r.entry).NonePending := by
      intro g hg
      exact none' g (by unfold Wave.without at hg; split at hg <;> exact (List.mem_filter.mp hg).1)
    simp only [List.isEmpty_iff, a.same.frags]
    by_cases last : ((s.wave r.wave).without r.entry).frags = []
    · exact ⟨t, a, by rw [if_pos last, if_pos last]⟩
    · exact ⟨_, a.pendingEnters rest, by rw [if_neg last, if_neg last]⟩
  simp only [State.endFragment, stack]
  by_cases hm : (s.wave r.wave).inHandler r.entry = true
  · refine ends ?_
    simp only [Wave.without, hm, if_true]
    exact drop (start.leaveHandler _)
  · refine ends ?_
    simp only [Wave.without, hm, if_false, Bool.false_eq_true]
    exact drop start

/-! ### What a later region entry or release leaves of the fragments -/

/-- Where a fragment runs and with which lanes. -/
def Frag.runs (f : Frag) : Nat × Mask × List Rec × Nat := (f.entry, f.mask, f.stack, f.pc)

/-- Fragments that run where others do, under a handler of the same outline. -/
structure Wave.SameRuns (v w : Wave) : Prop where
  runs : w.frags.map Frag.runs = v.frags.map Frag.runs
  outline : w.h.map HCtx.outline = v.h.map HCtx.outline

theorem Wave.SameRuns.refl (w : Wave) : w.SameRuns w := ⟨rfl, rfl⟩
theorem Wave.SameRuns.trans {u v w : Wave} (a : u.SameRuns v) (b : v.SameRuns w) : u.SameRuns w :=
  ⟨b.runs.trans a.runs, b.outline.trans a.outline⟩
theorem Wave.SameFrags.sameRuns {v w : Wave} (a : v.SameFrags w) : v.SameRuns w := ⟨by rw [a.frags], a.outline⟩

theorem Wave.SameRuns.h_eq_none {v w : Wave} (a : v.SameRuns w) (none' : v.h = none) : w.h = none := by
  simpa [none'] using a.outline

/-- A fragment looked up by its entry runs as the other wave's does. -/
theorem Wave.SameRuns.frag {v w : Wave} (a : v.SameRuns w) (e : Nat) : (w.frag e).runs = (v.frag e).runs := by
  have look (x : Wave) : (x.frag e).runs = ((x.frags.map Frag.runs).find? fun r => r.1 == e).getD (Frag.runs { entry := e }) := by
    rw [List.find?_map, Wave.frag]
    cases found : x.frags.find? fun f => f.entry == e <;> simp [Function.comp_def, Frag.runs, found]
  rw [look, look, a.runs]

theorem Wave.SameRuns.mem_entry {v w : Wave} (a : v.SameRuns w) {f : Frag} (hf : f ∈ w.frags) : ∃ g ∈ v.frags, g.entry = f.entry := by
  have mem : f.runs ∈ v.frags.map Frag.runs := a.runs ▸ List.mem_map_of_mem hf
  obtain ⟨g, hg, same⟩ := List.mem_map.mp mem
  exact ⟨g, hg, congrArg Prod.fst same⟩

theorem Wave.modFrag_sameRuns (w : Wave) (e : Nat) {g : Frag → Frag} (keeps : ∀ f, (g f).runs = f.runs) : w.SameRuns (w.modFrag e g) where
  runs := by
    simp only [Wave.modFrag, List.map_map]
    refine List.map_congr_left fun f _ => ?_
    simp only [Function.comp]
    split
    · exact keeps f
    · rfl
  outline := rfl

theorem Wave.releaseHeld_sameRuns (w : Wave) : w.SameRuns w.releaseHeld := by
  simp only [Wave.releaseHeld]
  split
  · exact .refl w
  · refine ⟨?_, rfl⟩
    simp only [List.map_map]
    refine List.map_congr_left fun f _ => ?_
    simp only [Function.comp]
    split
    · split <;> rfl
    · rfl

theorem Wave.settleRegion_frags_h (w : Wave) : w.settleRegion.frags = w.frags ∧ w.settleRegion.h = w.h ∧ w.settleRegion.live = w.live := by
  have kills (w : Wave) (n : Nat) : ((w.applyKill n).frags, (w.applyKill n).h, (w.applyKill n).live) = (w.frags, w.h, w.live) := by
    simp only [Wave.applyKill]
    repeat' split
    all_goals rfl
  have all := foldl_keeps (p := fun w : Wave => (w.frags, w.h, w.live)) kills (w.v.map Prod.fst) w
  simp only [Prod.mk.injEq] at all
  exact all

theorem Wave.regionEntry_live (w : Wave) (e : Nat) : (w.regionEntry e).live = w.live := by
  rw [Wave.regionEntry_eq]
  split
  · rfl
  · split
    · exact (Wave.settleRegion_frags_h _).2.2
    · rfl

theorem Wave.regionEntry_sameRuns (w : Wave) (e : Nat) : w.SameRuns (w.regionEntry e) := by
  have noted : w.SameRuns (w.entersRegion e) := ⟨(w.modFrag_sameRuns e (g := Frag.enters w.ctr) fun _ => rfl).runs, rfl⟩
  rw [Wave.regionEntry_eq]
  split
  · exact .refl w
  · split
    · obtain ⟨frags, handler, -⟩ := (w.entersRegion e).settleRegion_frags_h
      exact ⟨frags ▸ noted.runs, handler ▸ noted.outline⟩
    · exact noted

theorem State.finish_sameRuns (s : State) (r : FragRef) (i : Iss) (u : Uses) (n : Nat) : (s.wave n).SameRuns ((s.finish r i u).wave n) := by
  rcases finish_cases s r i u with e | ⟨e, -⟩ <;> rw [e]
  · exact .refl _
  · rcases s.wave_modWave_or r.wave n fun w => w.regionEntry ((s.wave r.wave).heirOf r.entry i.f.mask) with e | e <;> rw [State.regionEntry, e]
    · exact .refl _
    · exact Wave.regionEntry_sameRuns ..

/-! ### The wave that retires with its last fragment -/

theorem Tab.get?_filter {α : Type} (p : Nat → Bool) (t : Tab α) (n : Nat) :
    Tab.get? (t.filter fun e => p e.1) n = if p n then Tab.get? t n else none := by
  induction t with
  | nil => cases p n <;> rfl
  | cons e t ih =>
    obtain ⟨k, v⟩ := e
    by_cases hk : p k = true
    · by_cases same : k = n
      · simp [Tab.get?, same, same ▸ hk]
      · simp only [Tab.get?, List.filter_cons, hk, if_true, same, if_false, ih]
    · by_cases same : k = n
      · simp [hk, ih, same ▸ hk]
      · simp only [Tab.get?, List.filter_cons, hk, ih, same, if_false, Bool.false_eq_true]

/-- A wave is over: it is not live, or not in its table. -/
def State.Over (s : State) (n : Nat) : Prop := (s.wave n).live = false ∨ Tab.get? s.waves n = none

theorem State.Over.retired {t : State} {n : Nat} (a : t.Over n) (team : Nat) : Retired t n team := a.elim .inl fun gone => .inr (.inr gone)

theorem State.Over.modWave {s : State} {n : Nat} (a : s.Over n) (i : Nat) {f : Wave → Wave} (keeps : ∀ w, (f w).live = w.live) : (s.modWave i f).Over n := by
  rcases a with dead | gone
  · left
    rcases s.wave_modWave_or i n f with e | e <;> simp [e, keeps, dead]
  · right
    rw [State.modWave, Tab.get?_mod, gone]
    split <;> rfl

theorem State.over_of_waves {s t : State} {n : Nat} (a : s.Over n) (waves : t.waves = s.waves) : t.Over n := by
  simpa only [State.Over, State.wave, waves] using a

theorem cancelCopies_waves (s : State) (p : Copy → Bool) : (s.cancelCopies p).waves = s.waves :=
  foldl_keeps (p := State.waves) (f := fun s (c : Copy) => s.modTL c.pasid c.c (TL.retire c.k)) (fun _ _ => rfl) _ _

theorem State.Over.freeTeam {s : State} {n : Nat} (a : s.Over n) (team : Nat) : (s.freeTeam team).Over n := by
  have left : Tab.get? (s.freeTeam team).waves n = if (s.team team).waves.contains n then none else Tab.get? s.waves n := by
    simp only [State.freeTeam, cancelCopies_waves]
    rw [Tab.get?_filter fun k => !(s.team team).waves.contains k]
    cases (s.team team).waves.contains n <;> rfl
  by_cases mine : (s.team team).waves.contains n = true
  · exact .inr (by rw [left, if_pos mine])
  · rw [if_neg mine] at left
    simpa only [State.Over, State.wave, Tab.getD, left] using a

theorem State.retireTeam_waves (s : State) (team : Nat) : (s.retireTeam team).waves = (s.freeTeam team).waves := by
  simp only [State.retireTeam, State.launchEnd, State.modLaunch]
  split <;> rfl

theorem State.retireWave_over (s : State) (n : Nat) : (s.retireWave n).Over n := by
  have dead : ((s.leaveQuad n).modWave n fun w => { w with live := false, frags := [], h := none, prop := none }).Over n := by
    rcases here : Tab.get? (s.leaveQuad n).waves n with - | w
    · exact .inr (by rw [State.modWave, Tab.get?_mod, if_pos rfl, here]; rfl)
    · exact .inl (by rw [State.wave_modWave _ _ _ _ (by simp [here]), if_pos rfl])
  simp only [State.retireWave]
  split
  · exact State.over_of_waves (dead.freeTeam _) (State.retireTeam_waves ..)
  · exact dead

theorem State.Over.finish {s : State} {n : Nat} (a : s.Over n) (r : FragRef) (i : Iss) (u : Uses) : (s.finish r i u).Over n := by
  rcases finish_cases s r i u with e | ⟨e, -⟩ <;> rw [e]
  · exact a
  · exact a.modWave _ fun w => w.regionEntry_live _

/-! ### What shows after the end -/

/-- A fragment whose entry no other one has is what its entry names. -/
theorem Wave.frag_of_mem {w : Wave} (apart : w.frags.Pairwise fun a b => a.entry ≠ b.entry) {f : Frag} (hf : f ∈ w.frags) : w.frag f.entry = f := by
  have found : w.frags.find? (fun g => g.entry == f.entry) = some f := by
    revert hf apart
    induction w.frags with
    | nil => intro _ hf; cases hf
    | cons g gs ih =>
      intro apart hf
      obtain ⟨first, later⟩ := List.pairwise_cons.mp apart
      rcases List.mem_cons.mp hf with rfl | hf
      · simp
      · have : (g.entry == f.entry) = false := by simpa using first f hf
        rw [List.find?_cons, this]
        exact ih later hf
  rw [Wave.frag, found, Option.getD_some]

theorem Wave.frag_of_frags {v w : Wave} (same : v.frags = w.frags) (e : Nat) : v.frag e = w.frag e := by rw [Wave.frag, Wave.frag, same]

theorem Wave.frag_without_ne (w : Wave) {e n : Nat} (other : n ≠ e) : (w.without e).frag n = w.frag n := by
  have look : (w.without e).frags = w.frags.filter fun f => f.entry ≠ e := by unfold Wave.without; split <;> rfl
  rw [Wave.frag, look, List.find?_filter, Wave.frag]
  congr 1
  congr 1
  funext f
  by_cases mine : f.entry = n
  · simp [mine, other]
  · simp [mine]

theorem Wave.without_h (w : Wave) (e : Nat) : (w.without e).h = if w.inHandler e = true then none else w.h := by
  unfold Wave.without; split <;> rfl

/-- The fragment that runs its top record, and its handler. -/
theorem Wave.popped_runs {w : Wave} {e : Nat} (stands : ∃ f ∈ w.frags, f.entry = e) (t : Rec) (rest : List Rec) :
    ((w.popped e t rest).frag e).runs = (Frag.popRecord { entry := e } t rest).runs := by
  have ended : ∃ f ∈ (w.endInHandler e (w.frag e).mask).frags, f.entry = e := by
    obtain ⟨f, hf, he⟩ := stands
    exact ⟨_, List.mem_map_of_mem hf, by simp [he]⟩
  have run (x : Wave) (stands : ∃ f ∈ x.frags, f.entry = e) :
      ((x.modFrag e fun f => f.popRecord t rest).frag e).runs = (Frag.popRecord { entry := e } t rest).runs := by
    rw [Wave.frag_modFrag_self x _ (fun f => by unfold Frag.popRecord; split <;> rfl) stands]
    have entry := Wave.frag_entry stands
    unfold Frag.popRecord
    split <;> simp [Frag.runs, entry]
  unfold Wave.popped
  refine run _ ?_
  split
  · split
    · exact ended
    · exact ended
  · exact stands

/-! ### `END` -/

/-- The state that `END` answers. -/
def State.ended (s : State) (x : H0) : State := ((s.afterIssue ctl x.h).endFragment s.curRef).finish s.curRef (s.issQ ctl x.h) ctl

theorem exec_endFrag {s : State} {x : H0} (c : Clear s ctl x.h) (part : (s.issQ ctl x.h).part ≠ 0) (owes : (s.issQ ctl x.h).w.owesMatrix = false) :
    exec (.endFrag x) s = .next (s.ended x) := by
  change execEndFrag x s = _
  unfold execEndFrag
  refine issue_of_clear (eff := fun t => t.endFragment s.curRef) c (fun idle => part idle.2) ?_
  simp only [owes, Bool.false_and, Bool.false_eq_true, if_false]

/-- The wave whose fragment is to end, after the issue: it shows the fragments that `END` met. -/
structure EndsOn (s : State) (k : Iss) (v : Wave) : Prop where
  frags : ∃ g : Frag → Frag, (∀ f, (g f).entry = f.entry ∧ (g f).mask = f.mask ∧ (g f).stack = f.stack ∧ (g f).st = f.st) ∧
    v.frags = (k.w.modFrag s.cur.entry g).frags
  h : v.h = k.w.h
  f : k.f = k.w.frag s.cur.entry
  hm : k.hm = k.w.inHandler s.cur.entry
  stands : ∃ f ∈ k.w.frags, f.entry = s.cur.entry

theorem endsOn_afterIssue {s : State} {x : H0} (issuing : Issuing s) (captured : s.CaptureOk ctl) :
    EndsOn s (s.issQ ctl x.h) ((s.afterIssue ctl x.h).wave s.cur.wave) := by
  obtain ⟨here, -, -, stands⟩ := issuing.wave
  have sees := iss_fresh x.h (capt_eq_none captured rfl)
  have w : (s.issQ ctl x.h).w = s.wave s.cur.wave := by simp only [State.issQ, sees]
  refine ⟨?_, ?_, ?_, ?_, w ▸ stands⟩
  · obtain ⟨g, notes, frags⟩ := afterIssue_frags (u := ctl) (h := x.h) issuing.toStands
    exact ⟨g, fun f => by obtain ⟨rv, rs, e⟩ := notes f; rw [e]; exact ⟨rfl, rfl, rfl, rfl⟩, w ▸ frags⟩
  · rw [w]; exact afterIssue_h here
  · simp only [State.issQ, sees]
  · simp only [State.issQ, sees]

section
variable {s : State} {k : Iss} {v : Wave} (a : EndsOn s k v)
include a

theorem EndsOn.frag : (v.frag s.cur.entry).stack = k.f.stack ∧ (v.frag s.cur.entry).mask = k.f.mask := by
  obtain ⟨g, keeps, frags⟩ := a.frags
  have look : v.frag s.cur.entry = g (k.w.frag s.cur.entry) :=
    (Wave.frag_of_frags frags _).trans (Wave.frag_modFrag_self k.w g (fun f => (keeps f).1) a.stands)
  obtain ⟨-, mask, stack, -⟩ := keeps (k.w.frag s.cur.entry)
  rw [look, a.f]
  exact ⟨stack, mask⟩

theorem EndsOn.frag_ne {n : Nat} (other : n ≠ s.cur.entry) : v.frag n = k.w.frag n := by
  obtain ⟨g, keeps, frags⟩ := a.frags
  exact (Wave.frag_of_frags frags _).trans (Wave.frag_modFrag_ne k.w g (fun f => (keeps f).1) other.symm)

theorem EndsOn.nonePending (none' : k.w.NonePending) : v.NonePending := by
  obtain ⟨g, keeps, frags⟩ := a.frags
  have kept := none'.modFrag s.cur.entry (g := g) fun f => (keeps f).2.2.2
  simpa only [Wave.NonePending, frags] using kept

theorem EndsOn.stands' : ∃ f ∈ v.frags, f.entry = s.cur.entry := by
  obtain ⟨g, keeps, frags⟩ := a.frags
  obtain ⟨f, hf, he⟩ := a.stands
  rw [frags]
  exact ⟨_, List.mem_map_of_mem hf, by simp [he, (keeps f).1]⟩

theorem EndsOn.inHandler : v.inHandler s.cur.entry = k.hm := by
  rw [a.hm, Wave.inHandler, Wave.inHandler, a.h]

/-- It is the wave's last fragment where no other entry is named. -/
theorem EndsOn.without_eq_nil : (v.without s.cur.entry).frags = [] ↔ (k.w.frags.all fun g => g.entry == s.cur.entry) = true := by
  obtain ⟨g, keeps, frags⟩ := a.frags
  have look : (v.without s.cur.entry).frags = v.frags.filter fun f => f.entry ≠ s.cur.entry := by unfold Wave.without; split <;> rfl
  rw [look, frags, List.filter_eq_nil_iff, List.all_eq_true]
  constructor
  · intro none' f hf
    have := none' _ (List.mem_map_of_mem hf)
    by_contra other
    have other' : f.entry ≠ s.cur.entry := by simpa using other
    simp [other'] at this
  · intro all f hf
    obtain ⟨f', hf', rfl⟩ := List.mem_map.mp hf
    have mine : f'.entry = s.cur.entry := by simpa using all f' hf'
    simp [mine, (keeps f').1]

end

section
variable {s : State} {x : H0} (issuing : Issuing s) (captured : s.CaptureOk ctl) (may : MayEnd (s.issQ ctl x.h))
include issuing captured may

theorem ended_cons {t : Rec} {rest : List Rec} (stack : (s.issQ ctl x.h).f.stack = t :: rest) :
    (((s.afterIssue ctl x.h).wave s.cur.wave).popped s.cur.entry t rest).SameRuns ((s.ended x).wave s.cur.wave) := by
  have on := endsOn_afterIssue (x := x) issuing captured
  have here : (Tab.get? (s.afterIssue ctl x.h).waves s.cur.wave).isSome = true := afterIssue_isSome.trans issuing.wave.1
  have shown := State.Shows.endFragment_cons (r := s.curRef) here (on.nonePending may.1) (on.frag.1.trans stack)
  exact shown.same.sameRuns.trans (State.finish_sameRuns ..)

theorem ended_last (stack : (s.issQ ctl x.h).f.stack = []) (last : ((s.issQ ctl x.h).w.frags.all fun g => g.entry == s.cur.entry) = true) :
    (s.ended x).Over s.cur.wave := by
  have on := endsOn_afterIssue (x := x) issuing captured
  have here : (Tab.get? (s.afterIssue ctl x.h).waves s.cur.wave).isSome = true := afterIssue_isSome.trans issuing.wave.1
  obtain ⟨t, -, e⟩ := State.Shows.endFragment_nil (r := ⟨s.cur.wave, s.cur.entry⟩) here (on.nonePending may.1) (on.frag.1.trans stack)
  rw [if_pos (on.without_eq_nil.mpr last)] at e
  rw [State.ended, State.curRef, e]
  exact (t.retireWave_over s.cur.wave).finish ..

theorem ended_beside (stack : (s.issQ ctl x.h).f.stack = []) (beside : ¬((s.issQ ctl x.h).w.frags.all fun g => g.entry == s.cur.entry) = true) :
    (((s.afterIssue ctl x.h).wave s.cur.wave).without s.cur.entry).SameRuns ((s.ended x).wave s.cur.wave) := by
  have on := endsOn_afterIssue (x := x) issuing captured
  have here : (Tab.get? (s.afterIssue ctl x.h).waves s.cur.wave).isSome = true := afterIssue_isSome.trans issuing.wave.1
  obtain ⟨t, shown, e⟩ := State.Shows.endFragment_nil (r := ⟨s.cur.wave, s.cur.entry⟩) here (on.nonePending may.1) (on.frag.1.trans stack)
  rw [if_neg (fun none' => beside (on.without_eq_nil.mp none'))] at e
  refine Wave.SameRuns.trans ?_ (State.finish_sameRuns _ s.curRef _ _ s.cur.wave)
  rw [State.curRef, e, State.wave_modWave t _ _ _ shown.here, if_pos rfl]
  exact shown.same.sameRuns.trans (Wave.releaseHeld_sameRuns _)

/-- What `END` makes of the fragment, in a handler or not. -/
theorem ended_post : endPost s (s.ended x) (s.issQ ctl x.h) := by
  have on := endsOn_afterIssue (x := x) issuing captured
  unfold endPost
  split
  · next t rest stack =>
    have runs := ((ended_cons issuing captured may stack).frag s.cur.entry).trans (Wave.popped_runs on.stands' t rest)
    simp only [Frag.runs, Prod.mk.injEq] at runs
    obtain ⟨-, mask, stack', pc⟩ := runs
    refine ⟨stack'.trans (by unfold Frag.popRecord; split <;> rfl), ?_⟩
    cases b : t.bound with
    | none => simpa only [Frag.popRecord, b] using And.intro pc mask
    | some b' => simpa only [Frag.popRecord, b] using And.intro pc mask
  · next stack =>
    split
    · next last => exact (ended_last issuing captured may stack last).retired _
    · next beside =>
      have runs := ended_beside issuing captured may stack beside
      refine ⟨fun g hg mine => ?_, fun g hg other => ?_⟩
      · obtain ⟨f, hf, same⟩ := runs.mem_entry hg
        have kept : f ∈ (((s.afterIssue ctl x.h).wave s.cur.wave).frags.filter fun f => f.entry ≠ s.cur.entry) := by
          unfold Wave.without at hf; split at hf <;> exact hf
        have : f.entry ≠ s.cur.entry := by simpa using (List.mem_filter.mp kept).2
        exact this (same.trans mine)
      · have mask := congrArg (fun r => r.2.1) (runs.frag g.entry)
        simp only [Frag.runs] at mask
        rw [mask, Wave.frag_without_ne _ other, on.frag_ne other, Wave.frag_of_mem may.2.2 hg]

/-- And of its handler. -/
theorem ended_handler {c : HCtx} (hm : (s.issQ ctl x.h).hm = true) (handler : (s.issQ ctl x.h).w.h = some c) :
    endHandlerPost c s (s.ended x) (s.issQ ctl x.h) := by
  have on := endsOn_afterIssue (x := x) issuing captured
  have inside := on.inHandler.trans hm
  have running := on.h.trans handler
  refine ⟨ended_post issuing captured may, fun _ => ?_, fun stack ⟨g, hg, other⟩ => ?_⟩
  · split
    · next t rest stack =>
      have outline := (ended_cons issuing captured may stack).outline
      simp only [Wave.popped, Wave.userDepth, inside, if_true, running, Option.map_some, Option.getD_some, on.frag.2] at outline
      split
      · next deep =>
        rw [if_pos deep] at outline
        simp only [Wave.modFrag, Wave.endInHandler, running, Option.map_some] at outline
        obtain ⟨h, found, same⟩ := Option.map_eq_some_iff.mp outline
        simp only [HCtx.outline, Prod.mk.injEq] at same
        exact ⟨h, found, same⟩
      · next deep =>
        rw [if_neg deep] at outline
        simpa [Wave.modFrag, Wave.unhandled] using outline
    · trivial
  · have beside : ¬((s.issQ ctl x.h).w.frags.all fun g => g.entry == s.cur.entry) = true := fun all => other (by
      simpa using List.all_eq_true.mp all g hg)
    refine (ended_beside issuing captured may stack beside).h_eq_none ?_
    rw [Wave.without_h, inside, if_pos rfl]

end

/-- Settles O16: what `ended_post` says of the fragment, and in handler mode `ended_handler` of the handler. -/
theorem endResults : Obligations.EndResults := by
  intro x
  refine ⟨fun s _ issuing captured clear part ⟨_, may⟩ => ?_, fun c s _ issuing captured clear part ⟨hm, handler, may⟩ => ?_⟩
  · exact ⟨_, exec_endFrag clear part may.2.1, ended_post issuing captured may⟩
  · exact ⟨_, exec_endFrag clear part may.2.1, ended_handler issuing captured may hm handler⟩

end Sys2Proof.Machine

/-! SUPPORT. The distributor's timers and the return of a swapped wave (R25, R354, R357, R373): that swapping candidates out moves no wave in or out of
a slot's image, that the entries counted for the slot are enough for its waves one after another, and the settled statement. -/

namespace Sys2Proof.Machine

/-! ### Merging a core's reductions changes no wave (R290, R327) -/

theorem State.logRec_rest (s : State) (source die detail : Nat) : ∃ g, s.logRec source die detail = { s with log := g } := ⟨_, rfl⟩
theorem State.logRec_waves (s : State) (source die detail : Nat) : (s.logRec source die detail).waves = s.waves := by
  obtain ⟨g, e⟩ := s.logRec_rest source die detail
  rw [e]
theorem logLink_waves (s : State) (port : Nat) : (s.logLink port).waves = s.waves := s.logRec_waves ..
theorem logPoison_waves (s : State) (pa : Nat) : (s.logPoison pa).waves = s.waves := s.logRec_waves ..
theorem writeBack_waves (s : State) (l : Line) : (s.writeBack l).waves = s.waves := by
  simp only [State.writeBack]
  split
  · rfl
  · split
    · exact logLink_waves ..
    · rfl
theorem l2Alloc_waves (s : State) (loc set pa : Nat) (kind : LineKind) : (s.l2Alloc loc set pa kind).waves = s.waves := by
  simp only [State.l2Alloc]
  split
  · rfl
  · split
    · rfl
    · next v _ => cases v with
      | none => rfl
      | some l => exact writeBack_waves s l
theorem setPoison_waves (s : State) (pa : Nat) (b : Bool) : (s.setPoison pa b).waves = s.waves := by
  simp only [State.setPoison]
  repeat' split
  all_goals rfl
theorem clearPoison_waves (s : State) (bs : List (Nat × Byte)) : (s.clearPoison bs).waves = s.waves :=
  foldl_keeps (p := State.waves) (f := fun s a => s.setPoison a false) (fun s a => setPoison_waves s a false) _ s
theorem putBytesAt_waves (s : State) (pa : Nat) (bs : List (Nat × Byte)) : (s.putBytesAt pa bs).waves = s.waves := by
  simp only [State.putBytesAt]
  repeat' split
  all_goals rfl
theorem pokes_waves (s : State) (pasid : Nat) (alloc : Bool) (pa : Nat) (bs : List (Nat × Byte)) : (s.pokes pasid alloc pa bs).waves = s.waves := by
  have written (s : State) : (match s.dropsAt pa with
      | some p => s.logLink p
      | none => (s.putBytesAt pa bs).clearPoison bs).waves = s.waves := by
    split
    · exact logLink_waves ..
    · exact (clearPoison_waves ..).trans (putBytesAt_waves ..)
  refine (written _).trans ?_
  split
  · exact l2Alloc_waves ..
  · rfl
theorem applyDelta_waves (s : State) (pasid pa : Nat) (op : RedOp) (x : DWord) : (s.applyDelta pasid pa op x).waves = s.waves := by
  simp only [State.applyDelta]
  generalize (if op.w64 = true then 8 else 4) = n
  split
  · rfl
  · exact pokes_waves ..
theorem mergeSectors_waves (s : State) (l : Line) (secs : List Nat) : (s.mergeSectors l secs).waves = s.waves := by
  simp only [State.mergeSectors]
  refine (foldl_keeps (p := State.waves) (fun s i => ?_) _ _).trans
    ((foldl_keeps (p := State.waves) (fun s e => ?_) _ _).trans (foldl_keeps (p := State.waves) (fun s i => ?_) _ s))
  · split
    · exact setPoison_waves ..
    · rfl
  · split
    · rfl
    · exact applyDelta_waves ..
  · split
    · exact logPoison_waves ..
    · rfl
theorem mergeLine_waves (s : State) (l : Line) : (s.mergeLine l).waves = s.waves := by
  simp only [State.mergeLine]
  refine Eq.trans ?_ (mergeSectors_waves s l (List.range 4))
  split <;> rfl
theorem mergeCore_waves (s : State) (core : Nat) : (s.mergeCore core).waves = s.waves :=
  foldl_keeps (p := State.waves) mergeLine_waves _ s

/-! ### What a wave takes of a slot -/

/-- A wave's team, its place and the room it needs in a slot. -/
def Wave.berth (w : Wave) : Bool × Nat × Nat × Nat × Nat × Nat × Nat × Nat :=
  (w.live, w.team, w.num, w.core, w.q, w.vN, w.tN, w.frags.length)

/-- A wave as a swap-out leaves it. -/
def Wave.swappedOut (w : Wave) : Wave := { w.saved [] [] with swapped := true }

/-- Two states whose waves take the same of their slots. -/
def State.SameBerths (s t : State) : Prop := t.waves.map (fun e => (e.1, e.2.berth)) = s.waves.map fun e => (e.1, e.2.berth)

theorem State.SameBerths.trans {s t u : State} (a : s.SameBerths t) (b : t.SameBerths u) : s.SameBerths u := Eq.trans b a
theorem State.sameBerths_of_waves {s t : State} (waves : t.waves = s.waves) : s.SameBerths t := by rw [State.SameBerths, waves]

theorem Tab.map_mod {α β : Type} {p : α → β} {f : α → α} (t : Tab α) (x : Nat) (keeps : ∀ v, Tab.get? t x = some v → p (f v) = p v) :
    (Tab.mod f t x).map (fun e => (e.1, p e.2)) = t.map fun e => (e.1, p e.2) := by
  induction t with
  | nil => rfl
  | cons e t ih =>
    obtain ⟨k, v⟩ := e
    by_cases mine : k = x
    · simp only [Tab.mod, if_pos mine, List.map_cons, keeps v (by simp [Tab.get?, mine])]
    · simp only [Tab.mod, if_neg mine, List.map_cons]
      rw [ih fun v hv => keeps v (by simpa [Tab.get?, mine] using hv)]

theorem State.sameBerths_modWave (s : State) (i : Nat) {f : Wave → Wave} (keeps : ∀ w, Tab.get? s.waves i = some w → (f w).berth = w.berth) :
    s.SameBerths (s.modWave i f) := Tab.map_mod s.waves i keeps

theorem State.SameBerths.wave {s t : State} (a : s.SameBerths t) (n : Nat) : (t.wave n).berth = (s.wave n).berth := by
  have look (x : State) : (x.wave n).berth = (Tab.get? (x.waves.map fun e => (e.1, e.2.berth)) n).getD ({ id := n, team := 0, num := 0 } : Wave).berth := by
    rw [Tab.get?_map fun _ => Wave.berth, State.wave, Tab.getD]
    cases Tab.get? x.waves n <;> rfl
  rw [look, look, a]

theorem State.SameBerths.slotMates {s t : State} (a : s.SameBerths t) {v w : Wave} (same : w.berth = v.berth) :
    (t.slotMates w).map Wave.berth = (s.slotMates v).map Wave.berth := by
  have look (x : State) (w : Wave) : (x.slotMates w).map Wave.berth =
      ((x.waves.map fun e => (e.1, e.2.berth)).map Prod.snd).filter fun b => b.1 && b.2.1 == w.berth.2.1 && b.2.2.1 == w.berth.2.2.1 := by
    rw [State.slotMates, List.map_map, show (Prod.snd ∘ fun e : Nat × Wave => (e.1, e.2.berth)) = Wave.berth ∘ Prod.snd from rfl, ← List.map_map,
      List.filter_map (f := Wave.berth)]
    rfl
  rw [look, look, a, same]

theorem State.SameBerths.swapOut (s : State) (hs : List Wave) : s.SameBerths (s.swapOut hs) := by
  have saved (ws : List Wave) (s : State) :
      s.SameBerths (ws.foldl (fun s w => s.modWave w.id Wave.swappedOut) s) := by
    induction ws generalizing s with
    | nil => exact rfl
    | cons w ws ih => exact (s.sameBerths_modWave (f := Wave.swappedOut) w.id fun _ _ => rfl).trans (ih _)
  cases hs with
  | nil => exact rfl
  | cons w ws =>
    refine (State.sameBerths_of_waves (mergeCore_waves s w.core)).trans ((saved (w :: ws) _).trans ?_)
    exact State.sameBerths_of_waves rfl

/-- The way back of a due wave leaves what the waves take of their slots, and ends with room for its slot. -/
theorem State.makeRoom_room {hs : List Wave} {cs : List (List Wave)} {s u : State} (found : State.makeRoom hs cs s = some u) :
    s.SameBerths u ∧ u.slotRoom hs = true := by
  induction cs generalizing s with
  | nil =>
    rw [State.makeRoom] at found
    split at found
    · next room => cases found; exact ⟨rfl, room⟩
    · cases found
  | cons c cs ih =>
    rw [State.makeRoom] at found
    split at found
    · next room => cases found; exact ⟨rfl, room⟩
    · obtain ⟨same, room⟩ := ih found
      refine ⟨State.SameBerths.trans ?_ same, room⟩
      split
      · exact .swapOut ..
      · exact rfl

/-! ### The entries that a slot's waves take (R29, R373) -/

/-- The entries of a quarter that every wave may take. -/
def sharedEntries : List Nat := (List.range 32).map (32 + ·)

/-- Those of a list of entries that are not used. -/
def unused (used es : List Nat) : List Nat := es.filter fun e => !used.contains e
/-- Those of them that are free in a quarter. -/
def State.freeOf (s : State) (core q : Nat) (es : List Nat) : List Nat := unused (s.entriesUsed core q) es

/-- The entries that a wave may take before the shared ones. -/
def State.ownEntries (s : State) (slot : Nat) (w : Wave) : List Nat :=
  if !w.w32 then [2 * slot, 2 * slot + 1] else (2 * slot + w.half) :: (if (s.slotMates w).length = 1 then [2 * slot + 1 - w.half] else [])

theorem State.entriesFor_eq (s : State) (core q slot : Nat) (w : Wave) (n : Nat) : s.entriesFor core q slot w n =
    if n ≤ (s.freeOf core q (s.ownEntries slot w ++ sharedEntries)).length then
      some ((s.freeOf core q (s.ownEntries slot w ++ sharedEntries)).take n) else none := rfl

theorem State.slotRoom_cons {s : State} {w : Wave} {ws : List Wave} (room : s.slotRoom (w :: ws) = true) {k : Nat}
    (free : s.freeSlot w.core w.q = some k) :
    ((w :: ws).map fun w => w.frags.length).sum ≤ (s.freeOf w.core w.q ([2 * k, 2 * k + 1] ++ sharedEntries)).length := by
  simp only [State.slotRoom, free, Bool.and_eq_true, decide_eq_true_eq] at room
  exact room.2

/-- The room for a due wave's slot, in the state in which it returns. -/
theorem returnRoom_free {s u : State} {n k : Nat} (back : s.returnRoom n = some u) (free : u.freeSlot (u.wave n).core (u.wave n).q = some k)
    (place : ∀ h ∈ u.slotMates (u.wave n), h.core = (u.wave n).core ∧ h.q = (u.wave n).q) :
    ((u.slotMates (u.wave n)).map fun w => w.frags.length).sum ≤
      (u.freeOf (u.wave n).core (u.wave n).q ([2 * k, 2 * k + 1] ++ sharedEntries)).length := by
  simp only [State.returnRoom] at back
  split at back
  · cases back
  · obtain ⟨same, room⟩ := State.makeRoom_room back
    have berths := same.slotMates (same.wave n)
    cases before : s.slotMates (s.wave n) with
    | nil => rw [before] at room; cases room
    | cons w ws =>
      rw [before] at room berths
      cases after : u.slotMates (u.wave n) with
      | nil => rw [after] at berths; cases berths
      | cons w' ws' =>
        obtain ⟨core, q⟩ := place w' (by simp [after])
        rw [after] at berths
        have lens := congrArg (List.map fun b => b.2.2.2.2.2.2.2) berths
        simp only [List.map_map] at lens
        have lens' : (w' :: ws').map (fun w => w.frags.length) = (w :: ws).map fun w => w.frags.length := lens
        obtain ⟨same', -⟩ := List.cons.inj berths
        simp only [Wave.berth, Prod.mk.injEq] at same'
        obtain ⟨-, -, -, core', q', -⟩ := same'
        rw [lens', ← core, ← q, core', q']
        exact State.slotRoom_cons room (by rw [← core', ← q', core, q]; exact free)

/-! ### A saved wave takes its slot -/

/-- What a wave that takes slot `k` of a core with the entries `es` has become. -/
structure Seated (core k : Nat) (es : List Nat) (h x : Wave) : Prop where
  rest : x = { h with core := core, slot := k, swapped := false, away := false, frags := x.frags, h := x.h }
  frags : (x.frags.map fun f => { f with entry := 0 }) = h.frags.map fun f => { f with entry := 0 }
  entries : ∀ f ∈ x.frags, f.entry ∈ es

/-- The fragments of a wave in their creation order. -/
def Wave.byAge (w : Wave) : List Frag := w.frags.insertionSort fun a b => a.born ≤ b.born

/-- The new entry of fragments in order, for an entry. -/
def newEntry (fs : List Frag) (es : List Nat) (e : Nat) : Nat :=
  match ((fs.map Frag.entry).zip es).find? (fun x => x.1 == e) with
  | some x => x.2
  | none => e

/-- A wave whose fragments, and whose handler, have other entries. -/
def Wave.renamed (new : Nat → Nat) (w : Wave) : Wave :=
  { w with frags := w.frags.map fun f => { f with entry := new f.entry }, h := w.h.map fun h => { h with entry := new h.entry } }

/-- A wave that has taken slot `k` of a core. -/
def Wave.inSlot (core k : Nat) (w : Wave) : Wave := { w with core := core, slot := k, swapped := false, away := false }

theorem newEntry_mem {fs : List Frag} {es : List Nat} (len : es.length = fs.length) {e : Nat} (known : ∃ f ∈ fs, f.entry = e) : newEntry fs es e ∈ es := by
  unfold newEntry
  split
  · next x found => exact (List.of_mem_zip (List.mem_of_find?_eq_some found)).2
  · next none' =>
    obtain ⟨f, hf, rfl⟩ := known
    have mem : f.entry ∈ ((fs.map Frag.entry).zip es).map Prod.fst := by
      rw [List.map_fst_zip (by simp [len])]
      exact List.mem_map_of_mem hf
    obtain ⟨x, hx, e⟩ := List.mem_map.mp mem
    exact absurd (List.find?_eq_none.mp none' x hx) (by simp [e])

theorem entriesFor_length {s : State} {core q slot n : Nat} {w : Wave} {es : List Nat} (found : s.entriesFor core q slot w n = some es) :
    es.length = n := by
  rw [State.entriesFor_eq] at found
  split at found
  · cases found
    rw [List.length_take]
    omega
  · cases found

theorem Tab.mod_mod {α : Type} (f g : α → α) (t : Tab α) (x : Nat) : Tab.mod f (Tab.mod g t x) x = Tab.mod (f ∘ g) t x := by
  induction t with
  | nil => rfl
  | cons e t ih =>
    obtain ⟨k, v⟩ := e
    by_cases mine : k = x
    · simp only [Tab.mod, if_pos mine, Function.comp]
    · simp only [Tab.mod, if_neg mine, ih]

theorem seat_waves {s : State} {id core k : Nat} {h : Wave} (here : Tab.get? s.waves id = some h) {es : List Nat}
    (found : s.entriesFor core h.q k h h.frags.length = some es) :
    (s.seat id core k).waves = Tab.mod (Wave.inSlot core k ∘ Wave.renamed (newEntry h.byAge es)) s.waves id := by
  have wave : s.wave id = h := by rw [State.wave, Tab.getD, here]
  simp only [State.seat, wave, found, State.rename]
  exact Tab.mod_mod ..

theorem seated_inSlot {s : State} {core k : Nat} {h : Wave} {es : List Nat} (found : s.entriesFor core h.q k h h.frags.length = some es) :
    Seated core k es h ((h.renamed (newEntry h.byAge es)).inSlot core k) := by
  refine ⟨rfl, ?_, fun f hf => ?_⟩
  · simp only [Wave.inSlot, Wave.renamed, List.map_map]
    rfl
  · obtain ⟨g, hg, rfl⟩ := List.mem_map.mp hf
    have len : es.length = h.byAge.length := (entriesFor_length found).trans (List.length_insertionSort ..).symm
    exact newEntry_mem len ⟨g, (List.mem_insertionSort _).mpr hg, rfl⟩

theorem seat_get? {s : State} {id core k : Nat} {h : Wave} (here : Tab.get? s.waves id = some h) {es : List Nat}
    (found : s.entriesFor core h.q k h h.frags.length = some es) :
    Tab.get? (s.seat id core k).waves id = some ((h.renamed (newEntry h.byAge es)).inSlot core k) := by
  rw [seat_waves here found, Tab.get?_mod, if_pos rfl, here]
  rfl

/-- Other waves stay, each under its key. -/
theorem seat_get?_ne (s : State) {id n : Nat} (core k : Nat) (other : id ≠ n) : Tab.get? (s.seat id core k).waves n = Tab.get? s.waves n := by
  simp only [State.seat]
  split
  · rfl
  · simp only [State.rename, State.modWave, Tab.get?_mod, if_neg other]

theorem seat_rest (s : State) (id core k : Nat) : (s.seat id core k).mem = s.mem ∧ (s.seat id core k).nextId = s.nextId := by
  simp only [State.seat]
  split <;> exact ⟨rfl, rfl⟩

/-- A wave that is seated at its own core takes of its slot what it took before. -/
theorem seat_sameBerths (s : State) {id core k : Nat} {h : Wave} (here : Tab.get? s.waves id = some h) (at' : h.core = core) :
    s.SameBerths (s.seat id core k) := by
  cases found : s.entriesFor core h.q k h h.frags.length with
  | none =>
    have wave : s.wave id = h := by rw [State.wave, Tab.getD, here]
    simp only [State.seat, wave, found]
    exact rfl
  | some es =>
    rw [State.SameBerths, seat_waves here found]
    refine Tab.map_mod (p := Wave.berth) _ id fun w hw => ?_
    cases here.symm.trans hw
    simp only [Function.comp, Wave.berth, Wave.inSlot, Wave.renamed, at', List.length_map]

theorem Tab.mem_mod {α : Type} {f : α → α} {t : Tab α} {x : Nat} {e : Nat × α} (he : e ∈ Tab.mod f t x) : e ∈ t ∨ ∃ v, Tab.get? t x = some v ∧ e = (x, f v) := by
  induction t with
  | nil => cases he
  | cons c t ih =>
    obtain ⟨k, v⟩ := c
    by_cases mine : k = x
    · rw [Tab.mod, if_pos mine] at he
      rcases List.mem_cons.mp he with rfl | he
      · exact .inr ⟨v, by simp [Tab.get?, mine], by rw [mine]⟩
      · exact .inl (List.mem_cons_of_mem _ he)
    · rw [Tab.mod, if_neg mine] at he
      rcases List.mem_cons.mp he with rfl | he
      · exact .inl (List.mem_cons_self ..)
      · rcases ih he with later | ⟨w, hw, rfl⟩
        · exact .inl (List.mem_cons_of_mem _ later)
        · exact .inr ⟨w, by simpa [Tab.get?, mine] using hw, rfl⟩

/-- The entries used after a seat are those used before, and those it has given. -/
theorem entriesUsed_seat {s : State} {id core k : Nat} {h : Wave} (here : Tab.get? s.waves id = some h) {es : List Nat}
    (found : s.entriesFor core h.q k h h.frags.length = some es) {c q e : Nat} (used : e ∈ (s.seat id core k).entriesUsed c q) :
    e ∈ s.entriesUsed c q ∨ e ∈ es := by
  obtain ⟨x, hx, hf⟩ := List.mem_flatMap.mp used
  obtain ⟨mem, stands⟩ := List.mem_filter.mp hx
  rw [seat_waves here found] at mem
  rcases Tab.mem_mod mem with before | ⟨v, hv, rfl⟩
  · exact .inl (List.mem_flatMap.mpr ⟨x, List.mem_filter.mpr ⟨before, stands⟩, hf⟩)
  · cases here.symm.trans hv
    obtain ⟨f, hg, rfl⟩ := List.mem_map.mp hf
    exact .inr ((seated_inSlot found).entries f hg)

/-! ### The entries are enough for two half-waves, one after the other -/

theorem mem_unused {used es : List Nat} {e : Nat} : e ∈ unused used es ↔ e ∈ es ∧ e ∉ used := by
  simp [unused]

theorem unused_append (used es fs : List Nat) : unused used (es ++ fs) = unused used es ++ unused used fs := List.filter_append ..

theorem nodup_sharedEntries : sharedEntries.Nodup := by decide

theorem le_of_mem_sharedEntries {e : Nat} (h : e ∈ sharedEntries) : 32 ≤ e := by
  obtain ⟨k, -, rfl⟩ := List.mem_map.mp h
  omega

/-- A wave that takes entries leaves to another, with a reserved entry of its own, all that it has not taken. -/
theorem unused_after {used used' : List Nat} {a b n : Nat} (takes : 1 ≤ n) (apart : a ≠ b) (ha : a < 32) (hb : b < 32)
    (grown : ∀ e ∈ used', e ∈ used ∨ e ∈ (unused used ([a] ++ sharedEntries)).take n) :
    (unused used [b]).length + ((unused used ([a] ++ sharedEntries)).length - n) ≤ (unused used' ([b] ++ sharedEntries)).length := by
  have own {c : Nat} (hc : c < 32) : c ∉ sharedEntries := fun mem => absurd (le_of_mem_sharedEntries mem) (by omega)
  have nodup : (unused used ([a] ++ sharedEntries)).Nodup := (List.nodup_cons.mpr ⟨own ha, nodup_sharedEntries⟩).filter _
  generalize taken : unused used ([a] ++ sharedEntries) = l at nodup grown ⊢
  have later : ∀ e ∈ l.drop n, e ∈ sharedEntries ∧ e ∉ used' := by
    intro e he
    have kept := List.disjoint_of_nodup_append ((List.take_append_drop n l).symm ▸ nodup : (l.take n ++ l.drop n).Nodup)
    obtain ⟨mem, free⟩ := mem_unused.mp (taken ▸ List.mem_of_mem_drop he)
    refine ⟨(List.mem_cons.mp mem).resolve_left fun first => ?_, fun now => ?_⟩
    · subst first
      refine kept ?_ he
      obtain ⟨m, rfl⟩ := Nat.exists_eq_add_of_le' takes
      rw [← taken, unused, List.singleton_append, List.filter_cons, if_pos (by simpa using free)]
      exact List.mem_cons_self ..
    · exact (grown e now).elim free fun mine => kept mine he
  have sub : (unused used [b] ++ l.drop n).Subperm (unused used' ([b] ++ sharedEntries)) := by
    refine List.Nodup.subperm ?_ fun e he => mem_unused.mpr ?_
    · refine ((List.nodup_singleton b).filter _).append (nodup.sublist (List.drop_sublist n l)) fun e first he => ?_
      have : e = b := by simpa using (mem_unused.mp first).1
      exact own hb (this ▸ (later e he).1)
    · rcases List.mem_append.mp he with first | he
      · obtain ⟨mem, free⟩ := mem_unused.mp first
        have : e = b := by simpa using mem
        subst this
        refine ⟨by simp, fun now => (grown e now).elim free fun mine => ?_⟩
        have := (mem_unused.mp (taken ▸ List.mem_of_mem_take mine : e ∈ unused used ([a] ++ sharedEntries))).1
        exact (List.mem_cons.mp this).elim (fun same => apart same.symm) (own hb)
      · exact ⟨List.mem_append_right _ (later e he).1, (later e he).2⟩
  have := sub.length_le
  rwa [List.length_append, List.length_drop] at this

/-! ### The waves of a slot return -/

/-- Each wave of a slot takes it. -/
def State.seatAll (s : State) (hs : List Wave) (core k : Nat) : State := hs.foldl (fun s h => s.seat h.id core k) s

theorem seatAll_rest (s : State) (hs : List Wave) (core k : Nat) : ((s.seatAll hs core k).mem, (s.seatAll hs core k).nextId) = (s.mem, s.nextId) :=
  foldl_keeps (p := fun s : State => (s.mem, s.nextId)) (fun s h => by
    obtain ⟨mem, id⟩ := seat_rest s h.id core k
    rw [mem, id]) hs s

theorem entriesFor_of_room {s : State} {core k : Nat} {h : Wave}
    (room : h.frags.length ≤ (s.freeOf core h.q (s.ownEntries k h ++ sharedEntries)).length) :
    s.entriesFor core h.q k h h.frags.length = some ((s.freeOf core h.q (s.ownEntries k h ++ sharedEntries)).take h.frags.length) := by
  rw [State.entriesFor_eq, if_pos room]

/-- The only wave of a slot has both reserved entries. -/
theorem ownEntries_alone {s : State} {h : Wave} (alone : (s.slotMates h).length = 1) (half : h.half ≤ 1) (k : Nat) :
    (s.ownEntries k h).Perm [2 * k, 2 * k + 1] := by
  unfold State.ownEntries
  split
  · exact .refl _
  · obtain e | e : h.half = 0 ∨ h.half = 1 := by omega
    · rw [e]; exact .refl _
    · rw [e]; exact .swap ..

theorem ownEntries_half {s : State} {h : Wave} (two : (s.slotMates h).length = 2) (w32 : h.w32 = true) (k : Nat) :
    s.ownEntries k h = [2 * k + h.half] := by
  simp [State.ownEntries, two, w32]

/-- What is known of a wave that returns to a core and quarter. -/
structure Returning (s : State) (core q : Nat) (h : Wave) : Prop where
  here  : Tab.get? s.waves h.id = some h
  half  : h.half ≤ 1
  frags : h.frags ≠ []
  core  : h.core = core
  q     : h.q = q
  away  : h.away = false

/-- A wave that stands again in a slot with its saved state. -/
def Restored (t : State) (k : Nat) (h : Wave) : Prop :=
  let x := t.wave h.id
  x = { h with swapped := false, slot := k, frags := x.frags, h := x.h } ∧
    (x.frags.map fun f => { f with entry := 0 }) = h.frags.map fun f => { f with entry := 0 }

theorem Seated.restored {s t : State} {core q k : Nat} {es : List Nat} {h x : Wave} (a : Seated core k es h x) (r : Returning s core q h)
    (stands : Tab.get? t.waves h.id = some x) : Restored t k h := by
  have wave : t.wave h.id = x := by rw [State.wave, Tab.getD, stands]
  obtain ⟨rest, frags, -⟩ := a
  rw [← r.core] at rest
  have away : ({ h with away := false } : Wave) = h := by rw [← r.away]
  rw [Restored, wave]
  refine ⟨rest.trans ?_, frags⟩
  conv_rhs => rw [← away]

theorem seat_alone {s : State} {core q k : Nat} {h : Wave} (r : Returning s core q h) (alone : (s.slotMates h).length = 1)
    (room : h.frags.length ≤ (s.freeOf core q ([2 * k, 2 * k + 1] ++ sharedEntries)).length) : Restored (s.seat h.id core k) k h := by
  have perm := ((ownEntries_alone alone r.half k).append_right sharedEntries).filter fun e => !(s.entriesUsed core q).contains e
  have found := entriesFor_of_room (s := s) (core := core) (k := k) (h := h) (by
    rw [r.q]; exact room.trans_eq perm.length_eq.symm)
  exact (seated_inSlot found).restored r (seat_get? r.here found)

theorem seat_both {s : State} {core q k : Nat} {h₁ h₂ : Wave} (r₁ : Returning s core q h₁) (r₂ : Returning s core q h₂) (apart : h₁.id ≠ h₂.id)
    (slot : k < 16) (w₁ : h₁.w32 = true) (w₂ : h₂.w32 = true) (two₁ : (s.slotMates h₁).length = 2) (two₂ : (s.slotMates h₂).length = 2)
    (halves : h₁.half ≠ h₂.half)
    (room : h₁.frags.length + h₂.frags.length ≤ (s.freeOf core q ([2 * k, 2 * k + 1] ++ sharedEntries)).length) :
    Restored ((s.seat h₁.id core k).seat h₂.id core k) k h₁ ∧ Restored ((s.seat h₁.id core k).seat h₂.id core k) k h₂ := by
  have split : (s.freeOf core q ([2 * k, 2 * k + 1] ++ sharedEntries)).length =
      (s.freeOf core q [2 * k + h₂.half]).length + (s.freeOf core q ([2 * k + h₁.half] ++ sharedEntries)).length := by
    have perm : ([2 * k, 2 * k + 1] : List Nat).Perm ([2 * k + h₂.half] ++ [2 * k + h₁.half]) := by
      have := r₁.half
      have := r₂.half
      obtain ⟨e₁, e₂⟩ | ⟨e₁, e₂⟩ : (h₁.half = 0 ∧ h₂.half = 1) ∨ (h₁.half = 1 ∧ h₂.half = 0) := by omega
      · rw [e₁, e₂]; exact .swap ..
      · rw [e₁, e₂]; exact .refl _
    have same := ((perm.append_right sharedEntries).filter fun e => !(s.entriesUsed core q).contains e).length_eq
    rw [List.append_assoc] at same
    exact same.trans ((congrArg List.length (unused_append ..)).trans List.length_append)
  have some₁ : 1 ≤ h₁.frags.length := List.length_pos_iff.mpr r₁.frags
  have some₂ : 1 ≤ h₂.frags.length := List.length_pos_iff.mpr r₂.frags
  have one : (s.freeOf core q [2 * k + h₂.half]).length ≤ 1 := List.length_filter_le ..
  have found₁ := entriesFor_of_room (s := s) (core := core) (k := k) (h := h₁) (by
    rw [r₁.q, ownEntries_half two₁ w₁]
    omega)
  have here₂ : Tab.get? (s.seat h₁.id core k).waves h₂.id = some h₂ := (seat_get?_ne s core k apart).trans r₂.here
  have mates : ((s.seat h₁.id core k).slotMates h₂).length = 2 := by
    have := congrArg List.length ((seat_sameBerths (k := k) s r₁.here r₁.core).slotMates (v := h₂) (w := h₂) rfl)
    simpa [two₂] using this
  have after := unused_after (used := s.entriesUsed core q) (used' := (s.seat h₁.id core k).entriesUsed core q) (a := 2 * k + h₁.half)
    (b := 2 * k + h₂.half) some₁ (by omega) (by have := r₁.half; omega) (by have := r₂.half; omega) fun e used => by
      have := entriesUsed_seat r₁.here found₁ used
      rwa [r₁.q, ownEntries_half two₁ w₁] at this
  have found₂ := entriesFor_of_room (s := s.seat h₁.id core k) (core := core) (k := k) (h := h₂) (by
    rw [r₂.q, ownEntries_half mates w₂]
    simp only [State.freeOf] at split room ⊢
    omega)
  refine ⟨(seated_inSlot found₁).restored r₁ ?_, (seated_inSlot found₂).restored r₂ (seat_get? here₂ found₂)⟩
  rw [seat_get?_ne _ core k apart.symm]
  exact seat_get? r₁.here found₁

/-! ### The three events -/

theorem launch?_mem {s : State} {id : Nat} {l : Launch} (h : s.launch? id = some l) : l ∈ s.launches := List.mem_of_find?_eq_some h

/-- An entry that has waited its time is held (R354). -/
theorem dispatchHold_held {s : State} {part : Nat} {l : Launch}
    (waited : ((s.part part).dispatch.filterMap s.launch?).find? (fun l => !l.held && decide (l.since + 400000 ≤ s.clock)) = some l) :
    ∃ t, exec (.dispatchHold part) s = .next t ∧ { l with held := true } ∈ t.launches := by
  obtain ⟨id, -, found⟩ := List.mem_filterMap.mp (List.mem_of_find?_eq_some waited)
  refine ⟨s.modLaunch l.id fun l => { l with held := true }, ?_, List.mem_map.mpr ⟨l, launch?_mem found, if_pos rfl⟩⟩
  change execDispatchHold part s = _
  rw [execDispatchHold, show Config.quantum = 400000 from rfl, waited]

theorem quantumTeam_modPart (s : State) (part : Nat) {f : Part → Part} (keeps : (f (s.part part)).readmit = (s.part part).readmit) :
    (s.modPart part f).quantumTeam part = s.quantumTeam part := by
  rw [State.quantumTeam, State.quantumTeam, State.part_modPart, if_pos rfl, keeps]
  rfl

/-- A part's entry after a quantum tick. -/
def Part.ticked (p : Part) : Part := { p with headAt := p.headAt + Config.quantum }

/-- A due quantum tick moves the head's time on and displaces its team (R357). -/
theorem quantumTick_displaces {s : State} {part : Nat} (waiting : (s.part part).readmit ≠ []) (waited : (s.part part).headAt + 400000 ≤ s.clock)
    (still : (s.part part).sw = none) (again : ∀ k c, s.nextPlace part ≠ some (.again k c)) (swap : ∀ c o, s.nextPlace part ≠ some (.swap c o)) :
    ∃ t, exec (.quantumTick part) s = .next t ∧ (t.part part).headAt = (s.part part).headAt + 400000 ∧
      ∀ k, s.quantumTeam part = some k → (Tab.get? s.teams k.id).isSome = true → (t.team k.id).loc = .displaced := by
  have due : s.quantumDue part = true := by
    simp only [State.quantumDue, show Config.quantum = 400000 from rfl, Bool.and_eq_true, decide_eq_true_eq, Bool.not_eq_true', List.isEmpty_eq_false_iff,
      still, Option.isNone_none, and_true]
    exact ⟨waiting, waited⟩
  have head : (s.modPart part Part.ticked).part part = (s.part part).ticked := by rw [State.part_modPart, if_pos rfl]
  have run : exec (.quantumTick part) s = .next (match s.quantumTeam part with
      | some t => (s.modPart part Part.ticked).modTeam t.id fun t => { t with loc := .displaced }
      | none => s.modPart part Part.ticked) := by
    change execQuantumTick part s = _
    simp only [execQuantumTick, due, Bool.not_true, Bool.false_eq_true, if_false]
    rw [quantumTeam_modPart s part rfl]
    cases s.quantumTeam part <;> rfl
  refine ⟨_, run, ?_, fun k team here => ?_⟩
  · split
    · exact congrArg Part.headAt head
    · exact congrArg Part.headAt head
  · rw [team]
    exact congrArg Team.loc ((State.team_modTeam _ k.id k.id _ here).trans (if_pos rfl))

theorem freeSlot_lt {s : State} {core q k : Nat} (free : s.freeSlot core q = some k) : k < 16 := by
  rw [State.freeSlot] at free
  exact List.mem_range.mp (List.mem_of_find?_eq_some free)

/-- The state in which a due wave's slot stands again. -/
def State.returned (u : State) (wave k : Nat) : State :=
  (u.dropL1 (u.wave wave).core).seatAll (u.slotMates (u.wave wave)) (u.wave wave).core k

theorem exec_swapReturn {s u : State} {wave k : Nat} (back : s.returnRoom wave = some u)
    (free : u.freeSlot (u.wave wave).core (u.wave wave).q = some k) :
    ∃ t, exec (.swapReturn wave) s = .next t ∧ t.mem = u.mem ∧ t.nextId = u.nextId ∧ t.waves = (u.returned wave k).waves := by
  have rest := seatAll_rest (u.dropL1 (u.wave wave).core) (u.slotMates (u.wave wave)) (u.wave wave).core k
  obtain ⟨mem, id⟩ := Prod.mk.inj rest
  have run : ∃ still : Bool, exec (.swapReturn wave) s = .next (if still = true then u.returned wave k else
      (u.returned wave k).modTeam (u.wave wave).team fun t => { t with loc := .resident }) := by
    change ∃ still : Bool, execSwapReturn wave s = _
    simp only [execSwapReturn, back, free]
    exact ⟨_, rfl⟩
  obtain ⟨still, run⟩ := run
  refine ⟨_, run, ?_⟩
  split
  · exact ⟨mem, id, rfl⟩
  · exact ⟨mem, id, rfl⟩

/-- Every wave of the slot stands in it with its saved state (R25). -/
theorem returned_restored {s u : State} {wave k : Nat} (back : s.returnRoom wave = some u)
    (free : u.freeSlot (u.wave wave).core (u.wave wave).q = some k) (apart : ((u.slotMates (u.wave wave)).map Wave.id).Nodup)
    (halves : (u.slotMates (u.wave wave)).length = 1 ∨ ((u.slotMates (u.wave wave)).length = 2 ∧
      ((u.slotMates (u.wave wave)).map Wave.half = [0, 1] ∨ (u.slotMates (u.wave wave)).map Wave.half = [1, 0]) ∧
      ∀ h ∈ u.slotMates (u.wave wave), h.w32 = true))
    (each : ∀ h ∈ u.slotMates (u.wave wave), Returning u (u.wave wave).core (u.wave wave).q h) :
    ∀ h ∈ u.slotMates (u.wave wave), Restored (u.returned wave k) k h := by
  have slot : k < 16 := freeSlot_lt free
  have room : ((u.slotMates (u.wave wave)).map fun w => w.frags.length).sum ≤
      ((u.dropL1 (u.wave wave).core).freeOf (u.wave wave).core (u.wave wave).q ([2 * k, 2 * k + 1] ++ sharedEntries)).length :=
    returnRoom_free back free fun h hh => ⟨(each h hh).core, (each h hh).q⟩
  have mates : ∀ h ∈ u.slotMates (u.wave wave), (u.dropL1 (u.wave wave).core).slotMates h = u.slotMates (u.wave wave) := by
    intro h hh
    have same := (List.mem_filter.mp hh).2
    simp only [Bool.and_eq_true, beq_iff_eq] at same
    obtain ⟨⟨-, team⟩, num⟩ := same
    simp only [State.slotMates, team, num]
    rfl
  have arrives {h : Wave} (hh : h ∈ u.slotMates (u.wave wave)) : Returning (u.dropL1 (u.wave wave).core) (u.wave wave).core (u.wave wave).q h := by
    obtain ⟨here, half, frags, core, q, away⟩ := each h hh
    exact ⟨here, half, frags, core, q, away⟩
  unfold State.returned
  generalize u.slotMates (u.wave wave) = hs at *
  rcases halves with one | ⟨two, order, w32⟩
  · obtain ⟨h, rfl⟩ := List.length_eq_one_iff.mp one
    intro h' hh
    cases List.mem_singleton.mp hh
    have mine := mates h hh
    refine seat_alone (arrives hh) (by rw [mine]; rfl) ?_
    simpa using room
  · obtain ⟨h₁, h₂, rfl⟩ := List.length_eq_two.mp two
    have m₁ : h₁ ∈ [h₁, h₂] := by simp
    have m₂ : h₂ ∈ [h₁, h₂] := by simp
    have ids : h₁.id ≠ h₂.id := by simpa using apart
    have half : h₁.half ≠ h₂.half := by
      rcases order with e | e <;> simp only [List.map_cons, List.map_nil, List.cons.injEq, and_true] at e <;> omega
    have both := seat_both (arrives m₁) (arrives m₂) ids slot (w32 h₁ m₁) (w32 h₂ m₂) (by rw [mates h₁ m₁]; rfl) (by rw [mates h₂ m₂]; rfl) half
      (by simpa using room)
    intro h hh
    rcases List.mem_cons.mp hh with rfl | hh
    · exact both.1
    · cases List.mem_singleton.mp hh
      exact both.2

/-- Settles O41: a held entry, a quantum tick, and the waves of a slot that return, whose entries the room counted for the slot are enough for. -/
theorem distributorTimers : Obligations.DistributorTimers := by
  intro s
  refine ⟨fun part l waited => dispatchHold_held waited,
    fun part waiting waited still _ again swap => quantumTick_displaces waiting waited still again swap, fun wave u k back free => ?_⟩
  obtain ⟨t, run, mem, id, waves⟩ := exec_swapReturn back free
  refine ⟨t, run, mem, id, fun apart halves each h hh => ?_⟩
  have restored := returned_restored back free apart halves (fun h hh => by
    obtain ⟨here, half, frags, core, q, -, away⟩ := each h hh
    exact ⟨here, half, frags, core, q, away⟩) h hh
  simp only [Restored, State.wave, ← waves] at restored
  exact restored

end Sys2Proof.Machine

/-! SUPPORT. What stands in a wave while its instruction reads its operands and a region entry is made (R34, R90, R92, R94): registers but for the kills
that were pending or are marked, slots, the fragments' lanes, and all the rest. -/

namespace Sys2Proof.Machine

/-- A wave without what the reads of an instruction and a region entry change. -/
def Wave.still (w : Wave) : Wave :=
  { w with
    v := [], s := [], hs := [], la := { w.la with valid := 0 }, lb := { w.lb with valid := 0 }, o := [], towed := []
    wpc := 0, prop := w.prop.map fun p => { base := p.base, n := p.n }, mx := w.mx.map fun m => { m with recN := 0 }, frags := [] }

/-- A fragment without its restart point and the reads that it notes for one (R33, R34). -/
def Frag.bare (f : Frag) : Frag := { f with rpc := 0, rmask := 0, rstack := [], rctr := [], readV := [], readS := [] }

/-- What stands in a wave `w` that is to be `v` after an instruction of its fragment `e` that marks `mv` and `ms`: kills that are pending in it were so
in `v` or are marked, and what has been killed was. -/
structure Wave.Stays (v w : Wave) (hm : Bool) (e : Nat) (mv ms : List Nat) : Prop where
  still   : w.still = v.still
  vec     : ∀ n l, w.vlane n l = v.vlane n l ∨ (w.vlane n l = 0 ∧ (n ∈ mv ∨ (v.vreg n).kill.getLsbD l = true))
  killV   : ∀ n l, (w.vreg n).kill.getLsbD l = true → n ∈ mv ∨ (v.vreg n).kill.getLsbD l = true
  scal    : ∀ b n, ((w.sFile b n).val = (v.sFile b n).val ∧ (w.sFile b n).dead = (v.sFile b n).dead)
      ∨ ((w.sFile b n).dead = true ∧ ((n ∈ ms ∧ sHome hm n = b) ∨ (v.sFile b n).kill = true))
  killS   : ∀ b n, (w.sFile b n).kill = true → (n ∈ ms ∧ sHome hm n = b) ∨ (v.sFile b n).kill = true
  slot    : ∀ k, (w.slotAt k).val = (v.slotAt k).val ∨ w.slotAt k = {}
  entries : w.frags.map Frag.entry = v.frags.map Frag.entry
  frag    : ∀ f, f ≠ e → w.frag f = v.frag f
  own     : (w.frag e).bare = (v.frag e).bare

theorem Wave.Stays.refl (w : Wave) (hm : Bool) (e : Nat) (mv ms : List Nat) : w.Stays w hm e mv ms :=
  ⟨rfl, fun _ _ => .inl rfl, fun _ _ => .inr, fun _ _ => .inl ⟨rfl, rfl⟩, fun _ _ => .inr, fun _ => .inl rfl, rfl, fun _ _ => rfl, rfl⟩

/-! ### Fragments -/

theorem Wave.modFrag_entries (w : Wave) (e : Nat) {g : Frag → Frag} (keeps : ∀ f, (g f).entry = f.entry) :
    (w.modFrag e g).frags.map Frag.entry = w.frags.map Frag.entry := by
  rw [Wave.modFrag, List.map_map]
  refine List.map_congr_left fun f _ => ?_
  dsimp only [Function.comp]
  split
  · exact keeps f
  · rfl

theorem Wave.stands_iff {v w : Wave} (same : w.frags.map Frag.entry = v.frags.map Frag.entry) (e : Nat) :
    (∃ f ∈ w.frags, f.entry = e) ↔ ∃ f ∈ v.frags, f.entry = e := by
  rw [← List.mem_map, ← List.mem_map, same]

/-- What a change of a fragment keeps of it, it keeps of a fragment that does not stand too. -/
theorem Wave.frag_modFrag_of {γ : Type} (w : Wave) (e : Nat) {g : Frag → Frag} (keeps : ∀ f, (g f).entry = f.entry) {p : Frag → γ}
    (same : ∀ f, p (g f) = p f) : p ((w.modFrag e g).frag e) = p (w.frag e) := by
  by_cases stands : ∃ f ∈ w.frags, f.entry = e
  · rw [Wave.frag_modFrag_self w g keeps stands, same]
  · have gone (w : Wave) (none' : ¬∃ f ∈ w.frags, f.entry = e) : w.frag e = { entry := e } := by
      rw [Wave.frag, List.find?_eq_none.mpr fun f hf => by simpa using fun he => none' ⟨f, hf, he⟩]
      rfl
    rw [gone w stands, gone _ fun there => stands ((Wave.stands_iff (Wave.modFrag_entries w e keeps) e).mp there)]

/-! ### Registers -/

/-- A register written with the lanes it has keeps the lanes that the wave reads. -/
theorem Wave.vlane_setV (w : Wave) (n : Nat) {r : VReg} (val : r.val = (w.vreg n).val) (dead : r.dead = (w.vreg n).dead) (m l : Nat) :
    (w.setV n r).vlane m l = w.vlane m l := by
  have same : ((w.setV n r).vreg m).val = (w.vreg m).val ∧ ((w.setV n r).vreg m).dead = (w.vreg m).dead := by
    rw [Wave.vreg_setV]
    split
    · next e => exact e ▸ ⟨val, dead⟩
    · exact ⟨rfl, rfl⟩
  simp only [Wave.vlane, same.1, same.2]
  rfl

theorem Wave.sFile_setS (w : Wave) (hm : Bool) (n : Nat) (r : SReg) (b : Bool) (m : Nat) :
    (w.setS hm n r).sFile b m = if n = m ∧ sHome hm n = b then r else w.sFile b m := by
  unfold Wave.setS Wave.sFile sHome
  by_cases home : (hm && decide (120 ≤ n)) = true
  · rw [if_pos home, home]
    cases b
    · simp
    · simp [Tab.getD_set]
  · rw [if_neg home, Bool.eq_false_iff.mpr home]
    cases b
    · simp [Tab.getD_set]
    · simp

theorem Wave.sreg_eq_sFile (w : Wave) (hm : Bool) (n : Nat) : w.sreg hm n = w.sFile (sHome hm n) n := rfl

section
variable {v w : Wave} {hm : Bool} {e : Nat} {mv ms : List Nat} (a : v.Stays w hm e mv ms)
include a

theorem Wave.Stays.setV (n : Nat) {r : VReg} (val : r.val = (w.vreg n).val) (dead : r.dead = (w.vreg n).dead)
    (kill : ∀ l, r.kill.getLsbD l = true → n ∈ mv ∨ (w.vreg n).kill.getLsbD l = true) : v.Stays (w.setV n r) hm e mv ms :=
  { a with
    vec := fun m l => by rw [Wave.vlane_setV w n val dead]; exact a.vec m l
    killV := fun m l => by
      rw [Wave.vreg_setV]
      split
      · next same => subst same; exact fun k => (kill l k).elim .inl (a.killV n l)
      · exact a.killV m l }

theorem Wave.Stays.setS (n : Nat) {r : SReg} (val : r.val = (w.sreg hm n).val) (dead : r.dead = (w.sreg hm n).dead)
    (kill : r.kill = true → n ∈ ms ∨ (w.sreg hm n).kill = true) : v.Stays (w.setS hm n r) hm e mv ms where
  still := by
    refine Eq.trans ?_ a.still
    unfold Wave.setS
    split <;> rfl
  vec m l := by rw [show (w.setS hm n r).vlane m l = w.vlane m l by simp [Wave.vlane]]; exact a.vec m l
  killV m l := by rw [Wave.vreg_setS]; exact a.killV m l
  scal b m := by
    rw [Wave.sFile_setS]
    split
    · next same =>
      obtain ⟨rfl, rfl⟩ := same
      rw [val, dead]
      exact a.scal _ n
    · exact a.scal b m
  killS b m := by
    rw [Wave.sFile_setS]
    split
    · next same =>
      obtain ⟨rfl, rfl⟩ := same
      exact fun k => (kill k).elim (fun marked => .inl ⟨marked, rfl⟩) (a.killS _ n)
    · exact a.killS b m
  slot k := by rw [show (w.setS hm n r).slotAt k = w.slotAt k by simp [Wave.slotAt]]; exact a.slot k
  entries := by rw [Wave.setS_frags]; exact a.entries
  frag f other := by rw [Wave.frag_setS]; exact a.frag f other
  own := by rw [Wave.frag_setS]; exact a.own

/-- A change of slots that keeps each one's value or empties it. -/
theorem Wave.Stays.slots {o : Tab Slot} (keeps : ∀ k, (Tab.getD {} o k).val = (w.slotAt k).val ∧ (w.slotAt k = {} → Tab.getD {} o k = {})
    ∨ Tab.getD {} o k = {}) : v.Stays { w with o := o } hm e mv ms :=
  { a with
    slot := fun k => by
      rcases keeps k with ⟨val, empty⟩ | empty
      · exact (a.slot k).imp (fun same => val.trans same) empty
      · exact .inr empty }

theorem Wave.Stays.towed (o : List Nat) : v.Stays { w with towed := o } hm e mv ms := { a with }
theorem Wave.Stays.wpc (n : DWord) : v.Stays { w with wpc := n } hm e mv ms := { a with }

/-- A change of the fragment's restart point and of the reads that it notes. -/
theorem Wave.Stays.modBare {g : Frag → Frag} (keeps : ∀ f, (g f).entry = f.entry) (bare : ∀ f, (g f).bare = f.bare) : v.Stays (w.modFrag e g) hm e mv ms :=
  { a with
    entries := (Wave.modFrag_entries w e keeps).trans a.entries
    frag := fun f other => (Wave.frag_modFrag_ne w g keeps other.symm).trans (a.frag f other)
    own := (Wave.frag_modFrag_of w e keeps (p := Frag.bare) bare).trans a.own }

/-- The same change of the fragment in both. -/
theorem Wave.Stays.modFrag {g : Frag → Frag} (keeps : ∀ f, (g f).entry = f.entry) (bare : ∀ f, (g f).bare = g f.bare)
    (stands : ∃ f ∈ v.frags, f.entry = e) : (v.modFrag e g).Stays (w.modFrag e g) hm e mv ms :=
  { a with
    entries := (Wave.modFrag_entries w e keeps).trans (a.entries.trans (Wave.modFrag_entries v e keeps).symm)
    frag := fun f other => by rw [Wave.frag_modFrag_ne w g keeps other.symm, Wave.frag_modFrag_ne v g keeps other.symm]; exact a.frag f other
    own := by
      rw [Wave.frag_modFrag_self w g keeps ((Wave.stands_iff a.entries e).mpr stands), Wave.frag_modFrag_self v g keeps stands, bare, bare, a.own] }

end

/-! ### Slots -/

/-- A value of a table after a change of those that a condition names. -/
theorem Tab.getD_map_if {α : Type} {d : α} (t : Tab α) (c : Nat → α → Prop) [inst : ∀ k x, Decidable (c k x)] (g : α → α) (n : Nat) (keeps : g d = d) :
    Tab.getD d (t.map fun e => if c e.1 e.2 then (e.1, g e.2) else e) n = if c n (Tab.getD d t n) then g (Tab.getD d t n) else Tab.getD d t n := by
  have each : (t.map fun e => if c e.1 e.2 then (e.1, g e.2) else e) = t.map fun e => (e.1, if c e.1 e.2 then g e.2 else e.2) :=
    List.map_congr_left fun e _ => by split <;> rfl
  rw [each]
  exact Tab.getD_map (g := fun k x => if c k x then g x else x) t n (by simp [keeps])

section
variable {v w : Wave} {hm : Bool} {e : Nat} {mv ms : List Nat} (a : v.Stays w hm e mv ms)
include a

/-- Slots that a condition names lose their valid lanes; no value changes. -/
theorem Wave.Stays.clearSlots (c : Nat → Slot → Prop) [∀ k x, Decidable (c k x)] :
    v.Stays { w with o := w.o.map fun (e : Nat × Slot) => if c e.1 e.2 then (e.1, { e.2 with valid := 0 }) else e } hm e mv ms :=
  a.slots fun k => by
    rw [Tab.getD_map_if w.o c (fun x => { x with valid := 0 }) k rfl]
    left
    split
    · exact ⟨rfl, fun empty => by rw [show Tab.getD {} w.o k = {} from empty]⟩
    · exact ⟨rfl, fun empty => empty⟩

/-- Slots that a condition names are emptied. -/
theorem Wave.Stays.emptySlots (c : Nat → Slot → Prop) [∀ k x, Decidable (c k x)] :
    v.Stays { w with o := w.o.map fun (e : Nat × Slot) => if c e.1 e.2 then (e.1, {}) else e } hm e mv ms :=
  a.slots fun k => by
    rw [Tab.getD_map_if w.o c (fun _ => {}) k rfl]
    split
    · exact .inr rfl
    · exact .inl ⟨rfl, fun empty => empty⟩

theorem Wave.Stays.dirtySlots (n : Nat) (keep : Option Nat) : v.Stays (w.dirtySlots n keep) hm e mv ms :=
  a.clearSlots fun k x => x.st = .clean n ∧ keep ≠ some k

/-! ### The reads of an instruction -/

theorem Wave.Stays.markWir (n : Nat) : v.Stays (w.markWir hm n) hm e mv ms := by
  unfold Wave.markWir
  split
  · exact a
  · exact a.setV n rfl rfl fun _ => .inr

theorem Wave.Stays.noOwed (r : RR) : v.Stays (match r with
    | .v n => w.setV n { w.vreg n with owed := false }
    | .s n => w.setS hm n { w.sreg hm n with owed := false }) hm e mv ms := by
  cases r with
  | v n => exact a.setV n rfl rfl fun _ => .inr
  | s n => exact a.setS n rfl rfl .inr

theorem Wave.Stays.emptyV (owes : Bool) (n : Nat) : v.Stays (w.emptyV hm owes n) hm e mv ms :=
  (a.setV n (r := { w.vreg n with st := .empty, owed := owes, wir := (w.vreg n).wir || !hm }) rfl rfl fun _ => .inr).dirtySlots n none
theorem Wave.Stays.emptyS (owes : Bool) (n : Nat) : v.Stays (w.emptyS hm owes n) hm e mv ms := a.setS n rfl rfl .inr

theorem Wave.Stays.markV (n : Nat) (m : Mask) (marked : n ∈ mv) : v.Stays (w.killV n m) hm e mv ms :=
  a.setV n rfl rfl fun _ _ => .inl marked
theorem Wave.Stays.markS (n : Nat) (marked : n ∈ ms) : v.Stays (w.killS hm n) hm e mv ms := a.setS n rfl rfl fun _ => .inl marked

end

end Sys2Proof.Machine

/-! SUPPORT. What an instruction's reads, and the region entry after it, leave standing in its wave (R34, R90, R92, R94). -/

namespace Sys2Proof.Machine

/-- The registers that an instruction marks dead. -/
def RR.marked (u : Uses) : RR → Prop
  | .v n => n ∈ markedV u
  | .s n => n ∈ markedS u

theorem RR.marked_of_mem {u : Uses} {w : Wave} {part : Mask} {x : SU} (hx : x ∈ u.srcs) (dead : Src.deadMark x.x = true) {r : RR}
    (hr : r ∈ SU.regs w part x) : r.marked u := by
  obtain ⟨src, kv, ks⟩ := x
  cases src with
  | v n d e =>
    obtain rfl : d = true := dead
    obtain ⟨k, hk, rfl⟩ := List.mem_map.mp hr
    exact List.mem_flatMap.mpr ⟨_, hx, List.mem_map.mpr ⟨k, hk, rfl⟩⟩
  | s n d e =>
    obtain rfl : d = true := dead
    obtain ⟨k, hk, rfl⟩ := List.mem_map.mp hr
    exact List.mem_flatMap.mpr ⟨_, hx, List.mem_map.mpr ⟨k, hk, rfl⟩⟩
  | _ => cases dead

theorem Wave.Stays.foldl {α : Type} {v : Wave} {hm : Bool} {e : Nat} {mv ms : List Nat} {f : Wave → α → Wave} (l : List α)
    (keeps : ∀ x ∈ l, ∀ w, v.Stays w hm e mv ms → v.Stays (f w x) hm e mv ms) {w : Wave} (a : v.Stays w hm e mv ms) : v.Stays (l.foldl f w) hm e mv ms := by
  induction l generalizing w with
  | nil => exact a
  | cons x l ih => exact ih (fun y hy => keeps y (.tail x hy)) (keeps x (.head l) w a)

/-- What an instruction marks dead, when a lane takes part, is in `mv` and `ms`. -/
def Iss.Covers (i : Iss) (u : Uses) (mv ms : List Nat) : Prop := i.part ≠ 0 → (∀ n ∈ markedV u, n ∈ mv) ∧ ∀ n ∈ markedS u, n ∈ ms

section
variable {v w : Wave} {e : Nat} {i : Iss} {u : Uses} {mv ms : List Nat} (a : v.Stays w i.hm e mv ms)
include a

theorem Wave.Stays.markKills (part : i.part ≠ 0) (covers : i.Covers u mv ms) : v.Stays (w.markKills i u.srcs) i.hm e mv ms := by
  refine Wave.Stays.foldl u.srcs (fun x hx w a => ?_) a
  split
  · next dead =>
    refine Wave.Stays.foldl _ (fun r hr w a => ?_) a
    have marked := RR.marked_of_mem hx dead hr
    cases r with
    | v n => exact a.markV n _ ((covers part).1 n marked)
    | s n => exact a.markS n ((covers part).2 n marked)
  · exact a

theorem Wave.Stays.noteReads (entry : i.f.entry = e) : v.Stays (w.noteReads i u) i.hm e mv ms := by
  rw [Wave.noteReads]
  split
  · exact a
  · rw [entry]
    exact a.modBare (fun _ => rfl) fun _ => rfl

theorem Wave.Stays.afterReads (entry : i.f.entry = e) (covers : i.Covers u mv ms) : v.Stays (w.afterReads i u) i.hm e mv ms := by
  unfold Wave.afterReads
  have wirs {w : Wave} (a : v.Stays w i.hm e mv ms) := Wave.Stays.foldl u.dv (fun n _ _ a => a.markWir n) a
  by_cases act : i.part = 0
  · simp only [act, ne_eq, not_true_eq_false, decide_false, Bool.and_false, Bool.false_eq_true, if_false]
    exact wirs (a.noteReads (u := u) entry)
  · simp only [act, ne_eq, not_false_eq_true, decide_true, Bool.and_true, if_true]
    have read (o : List Nat) := wirs (((Wave.Stays.foldl (u.srcs.flatMap (SU.regs i.w i.part)) (fun r _ _ a => a.noOwed r)
      (a.noteReads (u := u) entry)).markKills act covers).towed o)
    split
    · exact Wave.Stays.foldl u.ds (fun n _ _ a => a.emptyS _ n) (Wave.Stays.foldl u.dv (fun n _ _ a => a.emptyV _ n) (read _))
    · exact read _

end

/-! ### A region entry (R34, R90) -/

/-- The shadow of register `n` is not written in the lanes of `k` any more. -/
def Proposal.unwrite (p : Proposal) (n : Nat) (k : Mask) : Proposal :=
  if p.inWin n then { p with w := Tab.set p.w (n - p.base) (p.wbits (n - p.base) &&& ~~~k) } else p

theorem Proposal.unwrite_rest (p : Proposal) (n : Nat) (k : Mask) : ∃ x, p.unwrite n k = { p with w := x } := by
  unfold Proposal.unwrite
  split
  · exact ⟨_, rfl⟩
  · exact ⟨p.w, rfl⟩

theorem Proposal.written_unwrite (p : Proposal) (n : Nat) (k : Mask) {m : Nat} (win : p.inWin m = true) (l : Nat) :
    ((p.unwrite n k).wbits (m - p.base)).getLsbD l = ((p.wbits (m - p.base)).getLsbD l && !(decide (n = m) && k.getLsbD l)) := by
  obtain ⟨low, -⟩ : p.base ≤ m ∧ m < p.base + p.n := by simpa [Proposal.inWin] using win
  unfold Proposal.unwrite
  split
  · next mine =>
    obtain ⟨low', -⟩ : p.base ≤ n ∧ n < p.base + p.n := by simpa [Proposal.inWin] using mine
    have same : n - p.base = m - p.base ↔ n = m := by omega
    simp only [Proposal.wbits, Tab.getD_set, same]
    by_cases e : n = m
    · subst e
      simp only [if_true, decide_true, Bool.true_and, BitVec.getLsbD_and, BitVec.getLsbD_not]
      cases h : (Tab.getD 0 p.w (n - p.base)).getLsbD l
      · rfl
      · simp only [BitVec.lt_of_getLsbD h, decide_true, Bool.true_and]
    · simp [e]
  · next other =>
    have e : n ≠ m := by rintro rfl; exact other win
    simp [e]

/-- A wave whose register `n` has taken its pending kills: it is dead in their lanes, and its shadow is written there no more. -/
def Wave.killed (w : Wave) (n : Nat) (st : RegState) (owed : Bool) : Wave :=
  let r := w.vreg n
  { w.setV n { r with dead := r.dead ||| r.kill, kill := 0, st := st, owed := owed } with prop := w.prop.map fun p => p.unwrite n r.kill }

theorem Wave.killed_vreg (w : Wave) (n : Nat) (st : RegState) (owed : Bool) (m : Nat) : (w.killed n st owed).vreg m =
    if n = m then { w.vreg n with dead := (w.vreg n).dead ||| (w.vreg n).kill, kill := 0, st := st, owed := owed } else w.vreg m :=
  Wave.vreg_setV ..

/-- A lane reads as before, or 0 where a kill was pending. -/
theorem Wave.vlane_killed (w : Wave) (n : Nat) (st : RegState) (owed : Bool) (m l : Nat) : (w.killed n st owed).vlane m l = w.vlane m l
    ∨ ((w.killed n st owed).vlane m l = 0 ∧ (w.vreg m).kill.getLsbD l = true) := by
  have prop : (w.killed n st owed).prop = w.prop.map fun p => p.unwrite n (w.vreg n).kill := rfl
  have val : ((w.killed n st owed).vreg m).val = (w.vreg m).val := by rw [Wave.killed_vreg]; split <;> simp_all
  have dead : ((w.killed n st owed).vreg m).dead.getLsbD l = ((w.vreg m).dead.getLsbD l || (decide (n = m) && (w.vreg n).kill.getLsbD l)) := by
    rw [Wave.killed_vreg]
    split <;> simp_all
  have same (k : (decide (n = m) && (w.vreg n).kill.getLsbD l) = true) : (w.vreg m).kill.getLsbD l = true := by
    simp only [Bool.and_eq_true, decide_eq_true_eq] at k
    exact k.1 ▸ k.2
  simp only [Wave.vlane, prop, val, dead]
  cases hp : w.prop with
  | none =>
    cases k : (decide (n = m) && (w.vreg n).kill.getLsbD l)
    · exact .inl (by simp)
    · exact .inr ⟨by simp, same k⟩
  | some p =>
    obtain ⟨x, e⟩ := p.unwrite_rest n (w.vreg n).kill
    have win : (p.unwrite n (w.vreg n).kill).inWin m = p.inWin m := by rw [e]; rfl
    have shad : (p.unwrite n (w.vreg n).kill).shad = p.shad := by rw [e]; rfl
    have base : (p.unwrite n (w.vreg n).kill).base = p.base := by rw [e]
    simp only [Option.map_some, win, shad, base]
    by_cases mine : p.inWin m = true
    · rw [p.written_unwrite n _ mine]
      cases k : (decide (n = m) && (w.vreg n).kill.getLsbD l)
      · exact .inl (by simp)
      · exact .inr ⟨by simp, same k⟩
    · cases k : (decide (n = m) && (w.vreg n).kill.getLsbD l)
      · exact .inl (by simp [mine])
      · exact .inr ⟨by simp [mine], same k⟩

/-- What the pending kills of one register make of a wave (R89, R90). -/
theorem Wave.applyKill_cases (w : Wave) (n : Nat) : w.applyKill n = w ∨ ∃ st owed, w.applyKill n = w.killed n st owed ∨
    w.applyKill n = { w.killed n st owed with o := w.o.map fun (e : Nat × Slot) => if e.2.st = .clean n then (e.1, {}) else e } := by
  by_cases none' : (w.vreg n).kill = 0
  · exact .inl (by simp [Wave.applyKill, none'])
  · right
    obtain ⟨x, p, rfl⟩ : ∃ (x : Wave) (p : Option Proposal), w = { x with prop := p } := ⟨w, w.prop, rfl⟩
    simp only [Wave.applyKill, none', if_false, Wave.killed]
    cases p with
    | none =>
      dsimp only [Option.map_none]
      split
      · exact ⟨_, _, .inr rfl⟩
      · exact ⟨_, _, .inl rfl⟩
    | some p =>
      dsimp only [Option.map_some, Proposal.unwrite]
      by_cases win : p.inWin n = true
      · simp only [win, if_true]
        split
        · exact ⟨_, _, .inr rfl⟩
        · exact ⟨_, _, .inl rfl⟩
      · simp only [win, Bool.false_eq_true, if_false]
        split
        · exact ⟨_, _, .inr rfl⟩
        · exact ⟨_, _, .inl rfl⟩

section
variable {v w : Wave} {hm : Bool} {e : Nat} {mv ms : List Nat} (a : v.Stays w hm e mv ms)
include a

theorem Wave.Stays.killed (n : Nat) (st : RegState) (owed : Bool) : v.Stays (w.killed n st owed) hm e mv ms :=
  { a with
    still := by
      refine Eq.trans ?_ a.still
      simp only [Wave.still, Wave.killed, Wave.setV, Option.map_map]
      congr 1
      refine congrArg (Option.map · w.prop) (funext fun p => ?_)
      obtain ⟨x, e⟩ := p.unwrite_rest n (w.vreg n).kill
      simp only [Function.comp, e]
    vec := fun m l => by
      rcases w.vlane_killed n st owed m l with same | ⟨zero, k⟩
      · rw [same]; exact a.vec m l
      · exact .inr ⟨zero, a.killV m l k⟩
    killV := fun m l => by
      rw [Wave.killed_vreg]
      split
      · simp
      · exact a.killV m l }

theorem Wave.Stays.applyKill (n : Nat) : v.Stays (w.applyKill n) hm e mv ms := by
  rcases w.applyKill_cases n with same | ⟨st, owed, same | same⟩
  · rw [same]; exact a
  · rw [same]; exact a.killed n st owed
  · rw [same]; exact (a.killed n st owed).emptySlots fun _ x => x.st = .clean n

/-- The written-in-region bits are cleared. -/
theorem Wave.Stays.clearWir : v.Stays { w with v := w.v.map fun (e : Nat × VReg) => (e.1, { e.2 with wir := false }) } hm e mv ms := by
  have reg (n : Nat) : Wave.vreg { w with v := w.v.map fun (e : Nat × VReg) => (e.1, { e.2 with wir := false }) } n = { w.vreg n with wir := false } :=
    Tab.getD_map (d := ({} : VReg)) (g := fun _ (x : VReg) => { x with wir := false }) w.v n rfl
  exact { a with
    vec := fun n l => by
      rw [show Wave.vlane { w with v := _ } n l = w.vlane n l by simp only [Wave.vlane, reg]]
      exact a.vec n l
    killV := fun n l => by rw [reg]; exact a.killV n l }

/-- The pending kills of scalars take effect. -/
theorem Wave.Stays.killScalars : v.Stays { w with
    s := w.s.map fun (e : Nat × SReg) => (e.1, Wave.applyKillS e.2), hs := w.hs.map fun (e : Nat × SReg) => (e.1, Wave.applyKillS e.2) } hm e mv ms := by
  have reg (b : Bool) (n : Nat) : Wave.sFile { w with
      s := w.s.map fun (e : Nat × SReg) => (e.1, Wave.applyKillS e.2), hs := w.hs.map fun (e : Nat × SReg) => (e.1, Wave.applyKillS e.2) } b n
      = Wave.applyKillS (w.sFile b n) := by
    cases b
    · exact Tab.getD_map (g := fun _ x => Wave.applyKillS x) w.s n rfl
    · exact Tab.getD_map (g := fun _ x => Wave.applyKillS x) w.hs n rfl
  exact { a with
    scal := fun b n => by
      rw [reg, Wave.applyKillS]
      split
      · next k => exact .inr ⟨rfl, a.killS b n k⟩
      · exact a.scal b n
    killS := fun b n => by
      rw [reg, Wave.applyKillS]
      split
      · simp
      · exact a.killS b n }

/-- The part of a proposal that is written counts as written in an earlier region. -/
theorem Wave.Stays.earlier : v.Stays { w with prop := w.prop.map fun p => { p with e := p.w } } hm e mv ms := by
  have lane (n l : Nat) : Wave.vlane { w with prop := w.prop.map fun p => { p with e := p.w } } n l = w.vlane n l := by
    simp only [Wave.vlane]
    cases w.prop <;> rfl
  exact { a with
    still := by
      refine Eq.trans ?_ a.still
      simp only [Wave.still, Option.map_map]
      rfl
    vec := fun n l => by rw [lane]; exact a.vec n l }

theorem Wave.Stays.settleRegion : v.Stays w.settleRegion hm e mv ms :=
  (Wave.Stays.foldl (w.v.map Prod.fst) (fun n _ _ a => a.applyKill n) a).clearWir.killScalars.earlier

theorem Wave.Stays.dropLatches : v.Stays w.dropLatches hm e mv ms :=
  { a.clearSlots fun _ x => x.st = .eph with }

theorem Wave.Stays.recN : v.Stays { w with mx := w.mx.map fun m => { m with recN := m.n } } hm e mv ms :=
  { a with
    still := by
      refine Eq.trans ?_ a.still
      simp only [Wave.still, Option.map_map]
      rfl }

theorem Wave.Stays.entersRegion : v.Stays (w.entersRegion e) hm e mv ms :=
  ((a.dropLatches.modBare (g := Frag.enters w.ctr) (fun _ => rfl) fun _ => rfl).wpc (w.wpc + 1)).recN

theorem Wave.Stays.regionEntry : v.Stays (w.regionEntry e) hm e mv ms := by
  rw [Wave.regionEntry_eq]
  split
  · exact a
  · split
    · exact a.entersRegion.settleRegion
    · exact a.entersRegion

end

end Sys2Proof.Machine

/-! SUPPORT. What an instruction makes of its wave on purpose, and the frame of a wave that has settled there. -/

namespace Sys2Proof.Machine

/-! ### What an instruction makes of its wave -/

/-- A wave `v'` is the wave `v` with what an instruction of its fragment `e` makes of it on purpose: its fragment waits, tiles fill, and `$flags.sat` is set. -/
structure Wave.Aims (v v' : Wave) (e : Nat) (x : Writes) : Prop where
  same  : v' = { v with frags := v'.frags, t := v'.t, tfill := v'.tfill, towed := v'.towed, flags := v'.flags }
  tile  : ∀ n, n ∉ x.tiles → v'.tile n = v.tile n ∧ (n ∈ v'.tfill ↔ n ∈ v.tfill)
  flags : v'.flags = if x.sat then v.flags ||| 1 else v.flags
  frag  : ∀ f, f ≠ e → v'.frag f = v.frag f
  own   : (v'.frag e).mask = (v.frag e).mask ∧ (v'.frag e).stack = (v.frag e).stack ∧ (v'.frag e).late = (v.frag e).late
      ∧ (v'.frag e).prior = (v.frag e).prior ∧ (v'.frag e).hinged = (v.frag e).hinged ∧ (v'.frag e).fmt = (v.frag e).fmt
  waits : x.own = false → (v'.frag e).st = (v.frag e).st ∧ (v'.frag e).wait = (v.frag e).wait ∧ (v'.frag e).wake = (v.frag e).wake
  whole : x.split = false

theorem Member.eq_map_recN {x y : Option Member} (same : (x.map fun m => { m with recN := 0 }) = y.map fun m => { m with recN := 0 }) :
    x = y.map fun m => { m with recN := (x.map Member.recN).getD 0 } := by
  cases x with
  | none => rw [Option.map_eq_none_iff.mp same.symm]; rfl
  | some x =>
    cases y with
    | none => cases same
    | some y => exact congrArg (Option.map fun m : Member => { m with recN := x.recN }) same

/-- What an instruction writes at most, or leaves, in its wave. -/
theorem WaveFrame.of_stays {v v' w : Wave} {i : Iss} {e : Nat} {x : Writes} (aims : v.Aims v' e x) (a : v'.Stays w i.hm e x.mv x.ms) : WaveFrame v w i e x := by
  have rest : ({ w.still with t := [], tfill := [], flags := 0 } : Wave) = { v.still with t := [], tfill := [], flags := 0 } := by
    refine (congrArg (fun z : Wave => ({ z with t := [], tfill := [], flags := 0 } : Wave)) a.still).trans ?_
    rw [aims.same]
    rfl
  have read {γ : Type} (p : Wave → γ) := congrArg p rest
  have frag {γ : Type} (p : Frag → γ) : p (w.frag e).bare = p (v'.frag e).bare := congrArg p a.own
  have vreg : v'.vreg = v.vreg := by rw [aims.same]; rfl
  have vlane : v'.vlane = v.vlane := by rw [aims.same]; rfl
  have sFile : v'.sFile = v.sFile := by rw [aims.same]; rfl
  have slotAt : v'.slotAt = v.slotAt := by rw [aims.same]; rfl
  have kept {γ : Type} (p : Wave → γ) : p w.still = p v'.still := congrArg p a.still
  have t : w.t = v'.t := kept Wave.t
  have tfill : w.tfill = v'.tfill := kept Wave.tfill
  have flags : w.flags = v'.flags := kept Wave.flags
  obtain ⟨mask, stack, late, prior, hinged, fmt⟩ := aims.own
  have latch (b hm : Bool) : (w.latch hm b).val = (v.latch hm b).val := by
    cases hm <;> cases b
    · exact read fun z => z.la.val
    · exact read fun z => z.lb.val
    · exact read fun z => z.hla.val
    · exact read fun z => z.hlb.val
  have mx : (w.mx.map fun m => { m with recN := 0 }) = v.mx.map fun m => { m with recN := 0 } := read Wave.mx
  exact {
    vec := fun n l _ _ => by rw [← vlane, ← vreg]; exact a.vec n l
    scal := fun b n _ => by rw [← sFile]; exact a.scal b n
    pred := fun n l _ => congrArg (fun m : Mask => m.getLsbD l) (read fun z => z.pred i.hm n)
    pred14 := by
      cases i.hm
      · exact read Wave.hp14
      · exact read fun z => Tab.getD 0 z.p 14
    latch := fun b _ => latch b i.hm
    latchO := fun b => latch b !i.hm
    slot := fun k _ => by rw [← slotAt]; exact a.slot k
    tile := fun n hn => by
      rw [Wave.tile, t, tfill]
      exact aims.tile n hn
    pend := fun p _ => by rw [show w.pBusy = v.pBusy from read Wave.pBusy]
    ctr := fun l _ => congrArg (fun c => Tab.getD 0 c l) (read Wave.rngctr)
    mx := fun _ => Member.eq_map_recN mx
    prop := fun _ => by
      have := congrArg (Option.map fun p : Proposal => (p.base, p.n)) (read Wave.prop)
      simpa [Wave.still, Function.comp_def] using this
    frag := fun _ f other => (a.frag f other).trans (aims.frag f other)
    own := fun _ => ⟨(frag Frag.mask).trans mask, (frag Frag.stack).trans stack, (frag Frag.late).trans late, (frag Frag.prior).trans prior,
      (frag Frag.hinged).trans hinged, fun _ => (frag Frag.fmt).trans fmt, fun stays => by
        obtain ⟨st, wait, wake⟩ := aims.waits stays
        exact ⟨(frag Frag.st).trans st, (frag Frag.wait).trans wait, (frag Frag.wake).trans wake⟩⟩
    flags := fun _ => flags.trans aims.flags
    sregs := ⟨fun _ => read Wave.md, fun _ => read Wave.acc, fun _ => read Wave.rej, fun _ => read Wave.keyLo, fun _ => read Wave.keyHi,
      fun n _ => congrArg (fun c => Tab.getD 0 c n) (read Wave.trec)⟩
    rest := by
      rw [aims.whole]
      exact congrArg (fun z : Wave => { z with
        v := w.v, s := w.s, hs := w.hs, p := w.p, hp14 := w.hp14, la := w.la, lb := w.lb, hla := w.hla, hlb := w.hlb
        o := w.o, t := w.t, tfill := w.tfill, pBusy := w.pBusy, prop := w.prop, mx := w.mx, wpc := w.wpc, frags := w.frags, towed := w.towed, flags := w.flags
        rngctr := w.rngctr, md := w.md, acc := w.acc, rej := w.rej, keyLo := w.keyLo, keyHi := w.keyHi, trec := w.trec }) rest }

end Sys2Proof.Machine

/-! SUPPORT. What the reads and the end of an instruction leave standing in the device around its wave. -/

namespace Sys2Proof.Machine

/-! ### What an instruction makes of the device -/

/-- A state `b` is the state `a`, but for what the issue of an instruction with what it sees `i` makes of it beside its effect: the reads of its operands, a
region entry, its count and the time that its quarter is busy. -/
structure State.Settles (a b : State) (i : Iss) (mv ms : List Nat) : Prop where
  heres  : (Tab.get? a.waves a.cur.wave).isSome = true ∧ (Tab.get? b.waves a.cur.wave).isSome = true
  stands : ∃ f ∈ (a.wave a.cur.wave).frags, f.entry = a.cur.entry
  wave   : (a.wave a.cur.wave).Stays (b.wave a.cur.wave) i.hm a.cur.entry mv ms
  waves  : ∀ n, n ≠ a.cur.wave → b.wave n = a.wave n
  cnt    : ∀ k, k ∉ [qKey i.w.core i.w.q 0, qKey i.w.core i.w.q 2] → Tab.getD 0 b.cnt k = Tab.getD 0 a.cnt k
  busy   : ∀ k, k ≠ i.w.core * 4 + i.w.q → Tab.getD 0 b.busy k = Tab.getD 0 a.busy k
  rest   : b = { a with waves := b.waves, cnt := b.cnt, busy := b.busy }

section
variable {a b : State} {i : Iss} {mv ms : List Nat} (st : a.Settles b i mv ms)
include st

theorem State.Settles.cur : b.cur = a.cur := (congrArg State.cur st.rest :)

/-- An effect on anything but waves and counts. -/
theorem State.Settles.change {g : State → State} (apart : ∀ (s : State) w c y, g { s with waves := w, cnt := c, busy := y } =
    { g s with waves := w, cnt := c, busy := y }) (cur : (g a).cur = a.cur) : (g a).Settles (g b) i mv ms := by
  have own (s : State) : g s = { g s with waves := s.waves, cnt := s.cnt, busy := s.busy } := apart s s.waves s.cnt s.busy
  have waves (s : State) : (g s).waves = s.waves := (congrArg State.waves (own s) :)
  have wave (s : State) (n : Nat) : (g s).wave n = s.wave n := by simp only [State.wave, waves]
  exact {
    heres := by rw [cur, waves, waves]; exact st.heres
    stands := by rw [cur, wave]; exact st.stands
    wave := by rw [cur, wave, wave]; exact st.wave
    waves := by rw [cur]; intro n other; rw [wave, wave]; exact st.waves n other
    cnt := by rw [(congrArg State.cnt (own a) :), (congrArg State.cnt (own b) :)]; exact st.cnt
    busy := by rw [(congrArg State.busy (own a) :), (congrArg State.busy (own b) :)]; exact st.busy
    rest := by
      have := apart a b.waves b.cnt b.busy
      rw [← st.rest] at this
      rw [this] }

/-- An effect on the wave whose fragment issues. -/
theorem State.Settles.modWave {f : Wave → Wave} (keeps : ∀ v w, (∃ f ∈ v.frags, f.entry = a.cur.entry) → v.Stays w i.hm a.cur.entry mv ms →
    (f v).Stays (f w) i.hm a.cur.entry mv ms) (entries : ∀ w, (f w).frags.map Frag.entry = w.frags.map Frag.entry) :
    (a.modWave a.cur.wave f).Settles (b.modWave a.cur.wave f) i mv ms := by
  obtain ⟨ha, hb⟩ := st.heres
  have wave {s : State} (here : (Tab.get? s.waves a.cur.wave).isSome = true) (n : Nat) :
      (s.modWave a.cur.wave f).wave n = if a.cur.wave = n then f (s.wave n) else s.wave n := State.wave_modWave s _ n f here
  exact {
    heres := ⟨(a.isSome_modWave ..).trans ha, (b.isSome_modWave ..).trans hb⟩
    stands := by
      rw [State.modWave_cur, wave ha, if_pos rfl]
      exact (Wave.stands_iff (entries _) _).mpr st.stands
    wave := by
      rw [State.modWave_cur, wave ha, wave hb, if_pos rfl, if_pos rfl]
      exact keeps _ _ st.stands st.wave
    waves := fun n other => by
      rw [State.modWave_cur] at other
      rw [wave ha, wave hb, if_neg other.symm, if_neg other.symm]
      exact st.waves n other
    cnt := st.cnt
    busy := st.busy
    rest := by rw [st.rest]; rfl }

theorem State.Settles.modFrag {g : Frag → Frag} (keeps : ∀ f, (g f).entry = f.entry) (bare : ∀ f, (g f).bare = g f.bare) :
    (a.modFrag a.curRef g).Settles (b.modFrag a.curRef g) i mv ms :=
  st.modWave (f := fun w => w.modFrag a.cur.entry g) (fun _ _ stands a => a.modFrag keeps bare stands) fun w => Wave.modFrag_entries w _ keeps

theorem State.Settles.count (k n : Nat) : (a.count k n).Settles (b.count k n) i mv ms := by
  have same {a b : Tab Nat} {x : Nat} (h : Tab.getD 0 b x = Tab.getD 0 a x) : Tab.getD 0 (Tab.add b k n) x = Tab.getD 0 (Tab.add a k n) x := by
    unfold Tab.add
    split
    · exact h
    · rw [Tab.getD_set, Tab.getD_set]
      split
      · next e => rw [e, h]
      · exact h
  exact { heres := st.heres, stands := st.stands, wave := st.wave, waves := st.waves, busy := st.busy
          cnt := fun x hx => same (st.cnt x hx)
          rest := by rw [st.rest]; rfl }

/-- The region entry that an instruction's end may make. -/
theorem State.Settles.finish (u : Uses) : a.Settles (b.finish a.curRef i u) i mv ms := by
  rcases finish_cases b a.curRef i u with same | ⟨enters, -⟩
  · rw [same]; exact st
  · rw [enters, show (b.wave a.curRef.wave).heirOf a.curRef.entry i.f.mask = a.cur.entry from
      Wave.heirOf_self _ ((Wave.stands_iff st.wave.entries _).mpr st.stands)]
    have wave (n : Nat) : (b.regionEntry ⟨a.cur.wave, a.cur.entry⟩).wave n = if a.cur.wave = n then (b.wave n).regionEntry a.cur.entry else b.wave n :=
      State.wave_modWave b _ n _ st.heres.2
    exact { heres := ⟨st.heres.1, (b.isSome_modWave ..).trans st.heres.2⟩, stands := st.stands
            wave := by
              show Wave.Stays _ ((b.regionEntry ⟨a.cur.wave, a.cur.entry⟩).wave a.cur.wave) _ _ _ _
              rw [wave, if_pos rfl]
              exact st.wave.regionEntry
            waves := fun n other => (wave n).trans ((if_neg other.symm).trans (st.waves n other))
            cnt := st.cnt
            busy := st.busy
            rest := congrArg (fun z : State => { z with waves := (b.regionEntry ⟨a.cur.wave, a.cur.entry⟩).waves }) st.rest }

end

end Sys2Proof.Machine

/-! SUPPORT. The reads of an instruction and its issue settle, and what it makes of the device on purpose gives the frame. -/

namespace Sys2Proof.Machine

theorem Tab.getD_add_ne (t : Tab Nat) (m : Nat) {k n : Nat} (other : k ≠ n) : Tab.getD 0 (Tab.add t k m) n = Tab.getD 0 t n := by
  unfold Tab.add
  split
  · rfl
  · rw [Tab.getD_set, if_neg other]

theorem State.modWave_modWave (s : State) (n : Nat) (f g : Wave → Wave) : (s.modWave n f).modWave n g = s.modWave n (g ∘ f) := by
  simp only [State.modWave, Tab.mod_mod]

section
variable {s : State} {u : Uses} {h : Hdr}

/-- The state in which the queue entry of an instruction has been popped and its fragment has moved on. -/
def State.passedOn (s : State) (u : Uses) (h : Hdr) : State :=
  (if (s.issOf h).part = 0 then s else (s.popQueue (s.issOf h).w u).2).modFrag s.curRef (Frag.passed s)

theorem popped_rest (s : State) (u : Uses) (h : Hdr) : (if (s.issOf h).part = 0 then s else (s.popQueue (s.issOf h).w u).2) =
    { s with teams := (if (s.issOf h).part = 0 then s else (s.popQueue (s.issOf h).w u).2).teams } := by
  split
  · rfl
  · rcases popQueue_cases s (s.issOf h).w u with ⟨e, -⟩ | ⟨_, _, _, -, -, e⟩ <;> rw [e]
    rfl

theorem issued_cnt (s : State) (i : Iss) (u : Uses) {k : Nat} (other : k ∉ [qKey i.w.core i.w.q 0, qKey i.w.core i.w.q 2]) :
    Tab.getD 0 (s.issued i u).cnt k = Tab.getD 0 s.cnt k := by
  simp only [List.mem_cons, List.not_mem_nil, or_false, not_or] at other
  rw [show (s.issued i u).cnt = Tab.add (Tab.add s.cnt (qKey i.w.core i.w.q 0) 1) (qKey i.w.core i.w.q 2) (occupancy i u).2 from rfl,
    Tab.getD_add_ne _ _ (Ne.symm other.2), Tab.getD_add_ne _ _ (Ne.symm other.1)]

theorem issued_busy (s : State) (i : Iss) (u : Uses) {k : Nat} (other : k ≠ i.w.core * 4 + i.w.q) :
    Tab.getD 0 (s.issued i u).busy k = Tab.getD 0 s.busy k := by
  rw [show (s.issued i u).busy = Tab.set s.busy (i.w.core * 4 + i.w.q) (s.clockIn (occupancy i u).1) from rfl, Tab.getD_set, if_neg (Ne.symm other)]

/-- The reads of an instruction and its count settle where it stood. -/
theorem reads_settle {s : State} {i : Iss} {u : Uses} {mv ms : List Nat} (covers : i.Covers u mv ms) (here : (Tab.get? s.waves s.cur.wave).isSome = true)
    (mine : ∃ f ∈ (s.wave s.cur.wave).frags, f.entry = s.cur.entry) (entry : i.f.entry = s.cur.entry) :
    s.Settles ((s.issued i u).modWave s.cur.wave fun w => w.afterReads i u) i mv ms := by
  have wave (n : Nat) : ((s.issued i u).modWave s.cur.wave fun w => w.afterReads i u).wave n
      = if s.cur.wave = n then (s.wave n).afterReads i u else s.wave n := State.wave_modWave (s.issued i u) _ n _ here
  exact {
    heres := ⟨here, (State.isSome_modWave ..).trans here⟩
    stands := mine
    wave := by
      rw [wave, if_pos rfl]
      exact (Wave.Stays.refl ..).afterReads entry covers
    waves := fun n other => (wave n).trans (if_neg other.symm)
    cnt := fun k other => issued_cnt s i u other
    busy := fun k other => by rw [State.modWave_busy]; exact issued_busy s i u other
    rest := by
      have issued := issued_rest s i u
      generalize s.issued i u = p at issued ⊢
      exact congrArg (fun z : State => { z with waves := (p.modWave s.cur.wave fun w => w.afterReads i u).waves }) issued }

/-- An instruction's reads and its count, and no more, make the difference. -/
theorem afterIssue_settles (stands : Stands s) {mv ms : List Nat} (covers : (s.issQ u h).Covers u mv ms) :
    (s.passedOn u h).Settles (s.afterIssue u h) (s.issQ u h) mv ms := by
  obtain ⟨here, -, -, mine⟩ := stands.wave
  have entry : (s.issQ u h).f.entry = s.cur.entry := by
    rw [show (s.issQ u h).f = (s.iss h).f from rfl, iss_f, Wave.frag_entry mine]
  have popped := popped_rest s u h
  simp only [State.passedOn, State.afterIssue]
  generalize (if (s.issOf h).part = 0 then s else (s.popQueue (s.issOf h).w u).2) = p at popped ⊢
  have cur : p.cur = s.cur := (congrArg State.cur popped :)
  have waves : p.waves = s.waves := (congrArg State.waves popped :)
  have wave : p.wave s.cur.wave = s.wave s.cur.wave := by simp only [State.wave, waves]
  have after := (reads_settle (s := p) covers (by rw [cur, waves]; exact here) (by rw [cur, wave]; exact mine) (entry.trans (by rw [cur]))).modFrag
    (g := Frag.passed s) (fun _ => rfl) fun _ => rfl
  rw [State.modFrag, State.modFrag, State.curRef, cur, State.modWave_modWave] at after
  exact after

theorem State.Settles.team {a b : State} {i : Iss} {mv ms : List Nat} (st : a.Settles b i mv ms) (n : Nat) : b.team n = a.team n := by
  rw [st.rest]
  rfl

/-! ### What the effect of an instruction is -/

/-- A state `a` is the state `s` with what an instruction that writes `x` makes of it on purpose; its wave is `w` then. -/
structure State.Aims (s a : State) (i : Iss) (x : Writes) (w : Wave) : Prop where
  cur    : a.cur = s.cur
  here   : (Tab.get? a.waves s.cur.wave).isSome = true
  wave   : a.wave s.cur.wave = w
  waves  : ∀ n, n ≠ s.cur.wave → a.wave n = s.wave n
  teams  : ∀ n, a.team n = { s.team n with q := (a.team n).q, lmem := (a.team n).lmem }
  queue  : ∀ n k, (a.team n).queue k = if n = i.w.team ∧ x.pop = some k then ((s.team n).queue k).tail else (s.team n).queue k
  local' : ∀ n a', (n = i.w.team → x.loc a' = false) → (a.team n).lmem.get a' = (s.team n).lmem.get a'
  cnt    : ∀ k, k ≠ cKey i.w.core 2 → Tab.getD 0 a.cnt k = Tab.getD 0 s.cnt k
  rest   : a = { s with
      waves := a.waves, teams := a.teams, cnt := a.cnt, free := a.free, reps := if x.out then a.reps else s.reps, ops := if x.out then a.ops else s.ops
      nextId := if x.out then a.nextId else s.nextId }

/-- An instruction that aims at a state, and whose issue settles there, leaves the rest alone. -/
theorem Frame.of_aims {s a t : State} {i : Iss} {x : Writes} {w : Wave} (aims : s.Aims a i x w) (own : (s.wave s.cur.wave).Aims w s.cur.entry x)
    (st : a.Settles t i x.mv x.ms) : Frame s t i x where
  wave := by
    have := st.wave
    rw [aims.cur, aims.wave] at this
    exact .of_stays own this
  waves n other := (st.waves n (by rw [aims.cur]; exact other)).trans (aims.waves n other)
  teams n := by
    rw [st.team]
    refine (aims.teams n).trans ?_
    rw [aims.teams n]
  queue n k _ := by rw [st.team]; exact aims.queue n k
  local' n b far := by rw [st.team]; exact aims.local' n b far
  quads n _ := by rw [st.team]; exact (congrArg Team.quads (aims.teams n) :)
  cnt k other _ := by
    simp only [List.mem_cons, List.not_mem_nil, or_false, not_or] at other
    exact (st.cnt k (by simp [other])).trans (aims.cnt k other.2.2.2.2)
  busy k other := (st.busy k other).trans (congrArg (fun c : Tab Nat => Tab.getD 0 c k) (congrArg State.busy aims.rest :))
  bytes b := by rw [(congrArg State.mem st.rest :), (congrArg State.mem aims.rest :)]
  rest := by
    have same {γ : Type} (p : State → γ) : p t = p { a with waves := t.waves, cnt := t.cnt, busy := t.busy } := congrArg p st.rest
    have kept {γ : Type} (p : State → γ) := congrArg p aims.rest
    have mail : t.mail = s.mail := (same State.mail).trans (kept State.mail)
    have reqs : t.reqs = s.reqs := (same State.reqs).trans (kept State.reqs)
    have ats : t.ats = s.ats := (same State.ats).trans (kept State.ats)
    have pages : t.pages = s.pages := (same State.pages).trans (kept State.pages)
    have outbox : t.outbox = s.outbox := (same State.outbox).trans (kept State.outbox)
    have l1 : t.l1 = s.l1 := (same State.l1).trans (kept State.l1)
    have log : t.log = s.log := (same State.log).trans (kept State.log)
    have bears : t.bears = s.bears := (same State.bears).trans (kept State.bears)
    have reps : t.reps = a.reps := same State.reps
    have ops : t.ops = a.ops := same State.ops
    have nextId : t.nextId = a.nextId := same State.nextId
    have free : t.free = a.free := same State.free
    have teams : t.teams = a.teams := same State.teams
    simp only [mail, reqs, ats, pages, outbox, l1, log, bears, reps, ops, nextId, free, teams, ite_self]
    exact st.rest.trans (congrArg (fun z : State => { z with waves := t.waves, cnt := t.cnt, busy := t.busy }) aims.rest)

/-! ### Effects, one after another -/

section
variable {a : State} {i : Iss} {x : Writes} {w : Wave}

theorem State.team_modTeam_or (s : State) (i n : Nat) (f : Team → Team) :
    (s.modTeam i f).team n = s.team n ∨ (n = i ∧ (s.modTeam i f).team n = f (s.team n)) := by
  by_cases here : (Tab.get? s.teams i).isSome = true
  · rw [State.team_modTeam s i n f here]
    split
    · next same => exact .inr ⟨same.symm, rfl⟩
    · exact .inl rfl
  · refine .inl ?_
    have gone : Tab.get? s.teams i = none := by simpa using here
    have same : Tab.get? (s.modTeam i f).teams n = Tab.get? s.teams n := by
      rw [State.modTeam, Tab.get?_mod]
      split
      · next e => rw [← e, gone]; rfl
      · rfl
    simp only [State.team, Tab.getD, same]

/-- Nothing has been done yet. -/
theorem State.Aims.refl (here : (Tab.get? s.waves s.cur.wave).isSome = true) (pop : ∀ k, x.pop = some k → (s.team i.w.team).queue k = []) :
    s.Aims s i x (s.wave s.cur.wave) where
  cur := rfl
  here := here
  wave := rfl
  waves _ _ := rfl
  teams _ := rfl
  queue n k := by
    split
    · next same => rw [same.1, pop k same.2]; rfl
    · rfl
  local' _ _ _ := rfl
  cnt _ _ := rfl
  rest := by simp only [ite_self]

theorem popQueue_aims (here : (Tab.get? s.waves s.cur.wave).isSome = true) (pop : x.pop = popped u) :
    s.Aims (s.popQueue i.w u).2 i x (s.wave s.cur.wave) := by
  simp only [State.popQueue]
  split
  · next q some' =>
    have some' : x.pop = some q := pop.trans some'
    split
    · next e r entries =>
      have stands : (Tab.get? s.teams i.w.team).isSome = true := by
        by_contra gone
        rw [State.team, Tab.getD, show Tab.get? s.teams i.w.team = none by simpa using gone] at entries
        cases entries
      have team (n : Nat) := s.team_modTeam i.w.team n (fun t => { t with q := Tab.set t.q q r }) stands
      exact {
        cur := rfl, here := here, wave := rfl
        waves := fun _ _ => rfl
        teams := fun n => by rw [team]; split <;> rfl
        queue := fun n k => by
          rw [team, some']
          split
          · next same =>
            subst same
            rw [Team.queue, Tab.getD_set]
            by_cases k' : q = k
            · subst k'
              simp [entries]
            · simp [k', Team.queue]
          · next other => rw [if_neg fun both => other both.1.symm]
        local' := fun n b _ => by rw [team]; split <;> rfl
        cnt := fun _ _ => rfl
        rest := by simp only [State.modTeam, ite_self] }
    · next empty =>
      refine .refl here fun k named => ?_
      rw [some'] at named
      exact Option.some.inj named ▸ empty
  · next none' => exact .refl here fun k named => by rw [pop.trans none'] at named; cases named

variable (aims : s.Aims a i x w)
include aims

theorem State.Aims.modWave (f : Wave → Wave) : s.Aims (a.modWave s.cur.wave f) i x (f w) :=
  { aims with
    here := (State.isSome_modWave ..).trans aims.here
    wave := by rw [State.wave_modWave _ _ _ _ aims.here, if_pos rfl, aims.wave]
    waves := fun n other => by rw [State.wave_modWave_ne _ _ other.symm]; exact aims.waves n other
    rest := congrArg (fun z : State => { z with waves := (a.modWave s.cur.wave f).waves }) aims.rest }

theorem State.Aims.modFrag (g : Frag → Frag) : s.Aims (a.modFrag s.curRef g) i x (w.modFrag s.cur.entry g) := aims.modWave _

theorem State.Aims.free (n : Nat) : s.Aims { a with free := n } i x w :=
  { aims with rest := congrArg (fun z : State => { z with free := n }) aims.rest }

theorem State.Aims.countLocal (n : Nat) : s.Aims (a.countLocal i.w.core n) i x w :=
  { aims with
    cnt := fun k other => (Tab.getD_add_ne _ _ other.symm).trans (aims.cnt k other)
    rest := congrArg (fun z : State => { z with cnt := (a.countLocal i.w.core n).cnt }) aims.rest }

theorem State.Aims.sends (out : x.out = true) (ops : List Op) (reps : List Rep) (n : Nat) : s.Aims { a with ops := ops, reps := reps, nextId := n } i x w :=
  { aims with
    rest := by
      rw [out]
      refine (congrArg (fun z : State => { z with ops := ops, reps := reps, nextId := n }) aims.rest).trans ?_
      rfl }

theorem State.Aims.setLmem (f : Memory → Memory)
    (far : ∀ b, x.loc b = false → (f (a.team i.w.team).lmem).get b = (a.team i.w.team).lmem.get b) : s.Aims (a.setLmem i.w.team f) i x w := by
  have team (n : Nat) := a.team_modTeam_or i.w.team n fun t => { t with lmem := f t.lmem }
  exact {
    cur := aims.cur, here := aims.here, wave := aims.wave, waves := aims.waves, cnt := aims.cnt
    teams := fun n => by
      rcases team n with same | ⟨-, wrote⟩
      · rw [State.setLmem, same]; exact aims.teams n
      · have := aims.teams n
        rw [State.setLmem, wrote]
        exact congrArg (fun t : Team => { t with lmem := f (a.team n).lmem }) this
    queue := fun n k => by
      rcases team n with same | ⟨-, wrote⟩
      · rw [State.setLmem, same]; exact aims.queue n k
      · rw [State.setLmem, wrote]; exact aims.queue n k
    local' := fun n b near => by
      rcases team n with same | ⟨own, wrote⟩
      · rw [State.setLmem, same]; exact aims.local' n b near
      · subst own
        rw [State.setLmem, wrote]; exact (far b (near rfl)).trans (aims.local' _ b near)
    rest := congrArg (fun z : State => { z with teams := (a.setLmem i.w.team f).teams }) aims.rest }

end

/-- With its queue entry popped and its fragment past it, an instruction has no other effect yet. -/
theorem passedOn_aims (stands : Stands s) (pop : x.pop = if (s.issQ u h).part = 0 then none else popped u) :
    s.Aims (s.passedOn u h) (s.issQ u h) x ((s.wave s.cur.wave).modFrag s.cur.entry (Frag.passed s)) := by
  obtain ⟨here, -, -, -⟩ := stands.wave
  have popped : s.Aims (if (s.issOf h).part = 0 then s else (s.popQueue (s.issOf h).w u).2) (s.issQ u h) x (s.wave s.cur.wave) := by
    rw [show (s.issQ u h).part = (s.issOf h).part from rfl] at pop
    split at pop
    · next idle => rw [if_pos idle]; exact .refl here fun k some' => by rw [pop] at some'; cases some'
    · next acts => rw [if_neg acts]; exact popQueue_aims (i := s.issQ u h) here pop
  exact popped.modWave fun w => w.modFrag s.cur.entry (Frag.passed s)

end

end Sys2Proof.Machine

/-! SUPPORT. The course of an instruction: from its reads to its effect, step by step, beside the state it aims at. -/

namespace Sys2Proof.Machine

/-! ### A fragment that waits -/

/-- A fragment without its state and its place: what no instruction but a split changes of it, and none that does not write its format. -/
def Frag.kept (f : Frag) : Frag := { f.bare with pc := 0, st := .running, slip := 0, wake := 0, wait := .none, since := 0, refetch := false, capt := none }

/-- A fragment's state and its wait. -/
def Frag.waits (f : Frag) : FragSt × Wait × Nat := (f.st, f.wait, f.wake)

theorem Wave.Aims.refl (w : Wave) {e : Nat} {x : Writes} (sat : x.sat = false) (whole : x.split = false) : w.Aims w e x where
  same := rfl
  tile _ _ := ⟨rfl, .rfl⟩
  flags := by rw [sat]; rfl
  frag _ _ := rfl
  own := ⟨rfl, rfl, rfl, rfl, rfl, rfl⟩
  waits _ := ⟨rfl, rfl, rfl⟩
  whole := whole

theorem Wave.Aims.modFrag {v w : Wave} {e : Nat} {x : Writes} (a : v.Aims w e x) {g : Frag → Frag} (keeps : ∀ f, (g f).kept = f.kept)
    (waits : x.own = false → ∀ f, (g f).waits = f.waits) : v.Aims (w.modFrag e g) e x := by
  have entry (f : Frag) : (g f).entry = f.entry := (congrArg Frag.entry (keeps f) :)
  have own : ((w.modFrag e g).frag e).kept = (w.frag e).kept := Wave.frag_modFrag_of w e entry keeps
  have part {γ : Type} (p : Frag → γ) : p ((w.modFrag e g).frag e).kept = p (w.frag e).kept := congrArg p own
  obtain ⟨mask, stack, late, prior, hinged, fmt⟩ := a.own
  exact { a with
    same := congrArg (fun z : Wave => { z with frags := (w.modFrag e g).frags }) a.same
    frag := fun f other => (Wave.frag_modFrag_ne w g entry other.symm).trans (a.frag f other)
    own := ⟨(part Frag.mask).trans mask, (part Frag.stack).trans stack, (part Frag.late).trans late, (part Frag.prior).trans prior,
      (part Frag.hinged).trans hinged, (part Frag.fmt).trans fmt⟩
    waits := fun stays => by
      have same := Wave.frag_modFrag_of w e entry (p := Frag.waits) (waits stays)
      obtain ⟨st, wait, wake⟩ := a.waits stays
      exact ⟨(congrArg Prod.fst same).trans st, (congrArg (fun p => p.2.1) same).trans wait, (congrArg (fun p => p.2.2) same).trans wake⟩ }

theorem Wave.Aims.passed (s : State) (w : Wave) {e : Nat} {x : Writes} (sat : x.sat = false) (whole : x.split = false) :
    w.Aims (w.modFrag e (Frag.passed s)) e x :=
  (Wave.Aims.refl w sat whole).modFrag (fun _ => rfl) fun _ _ => rfl

/-! ### The course of an instruction -/

/-- An instruction that writes `x` aims at the state `a` with the wave `w`, and has come to the state `b` that settles there. -/
structure State.Course (s a b : State) (i : Iss) (x : Writes) (w : Wave) : Prop where
  aims    : s.Aims a i x w
  settles : a.Settles b i x.mv x.ms

section
variable {s a b : State} {i : Iss} {x : Writes} {w : Wave} (c : s.Course a b i x w)
include c

theorem State.Course.cur : b.cur = s.cur := c.settles.cur.trans c.aims.cur
theorem State.Course.curRef : a.curRef = s.curRef := by rw [State.curRef, c.aims.cur]; rfl
theorem State.Course.here : (Tab.get? b.waves s.cur.wave).isSome = true := c.aims.cur ▸ c.settles.heres.2

theorem State.Course.stays : w.Stays (b.wave s.cur.wave) i.hm s.cur.entry x.mv x.ms := by
  have := c.settles.wave
  rwa [c.aims.cur, c.aims.wave] at this

theorem State.Course.stands : ∃ f ∈ w.frags, f.entry = s.cur.entry := by
  have := c.settles.stands
  rwa [c.aims.cur, c.aims.wave] at this

theorem State.Course.frame (own : (s.wave s.cur.wave).Aims w s.cur.entry x) : Frame s b i x := .of_aims c.aims own c.settles

/-- The fragment is what the instruction makes of it, but for its restart point and what it notes of its reads. -/
theorem State.Course.own : ((b.wave s.cur.wave).frag s.cur.entry).bare = (w.frag s.cur.entry).bare := c.stays.own

theorem State.Course.modFrag {g : Frag → Frag} (keeps : ∀ f, (g f).entry = f.entry) (bare : ∀ f, (g f).bare = g f.bare) :
    s.Course (a.modFrag s.curRef g) (b.modFrag s.curRef g) i x (w.modFrag s.cur.entry g) where
  aims := c.aims.modFrag g
  settles := by
    have := c.settles.modFrag keeps bare
    rwa [c.curRef] at this

/-- Another change of the wave, which keeps what may be marked. -/
theorem State.Course.modWave {f : Wave → Wave} (keeps : ∀ v w, v.Stays w i.hm s.cur.entry x.mv x.ms → (f v).Stays (f w) i.hm s.cur.entry x.mv x.ms)
    (entries : ∀ w, (f w).frags.map Frag.entry = w.frags.map Frag.entry) : s.Course (a.modWave s.cur.wave f) (b.modWave s.cur.wave f) i x (f w) where
  aims := c.aims.modWave f
  settles := by
    have := c.settles.modWave (f := f) (fun v w _ st => by rw [c.aims.cur] at st ⊢; exact keeps v w st) entries
    rwa [c.aims.cur] at this

theorem State.Course.countLocal (n : Nat) : s.Course (a.countLocal i.w.core n) (b.countLocal i.w.core n) i x w :=
  ⟨c.aims.countLocal n, c.settles.count _ n⟩

theorem State.Course.addFree (n : Nat) : s.Course { a with free := a.free + n } { b with free := b.free + n } i x w :=
  ⟨c.aims.free _, c.settles.change (g := fun z => { z with free := z.free + n }) (fun _ _ _ _ => rfl) rfl⟩

theorem State.Course.setLmem {f : Memory → Memory} (far : ∀ b, x.loc b = false → (f (a.team i.w.team).lmem).get b = (a.team i.w.team).lmem.get b) :
    s.Course (a.setLmem i.w.team f) (b.setLmem i.w.team f) i x w :=
  ⟨c.aims.setLmem f far, c.settles.change (g := fun z => z.setLmem i.w.team f) (fun _ _ _ _ => rfl) rfl⟩

theorem State.Course.finish (u : Uses) : s.Course a (b.finish s.curRef i u) i x w := by
  refine ⟨c.aims, ?_⟩
  have := c.settles.finish u
  rwa [c.curRef] at this

end

section
variable {s : State} {u : Uses} {h : Hdr} {x : Writes}

theorem issQ_f (s : State) (u : Uses) (h : Hdr) : (s.issQ u h).f = (s.wave s.cur.wave).frag s.cur.entry := iss_f s h

/-- The operands have been read. -/
theorem afterIssue_course (stands : Stands s) (covers : (s.issQ u h).Covers u x.mv x.ms)
    (pop : x.pop = if (s.issQ u h).part = 0 then none else popped u) :
    s.Course (s.passedOn u h) (s.afterIssue u h) (s.issQ u h) x ((s.wave s.cur.wave).modFrag s.cur.entry (Frag.passed s)) :=
  ⟨passedOn_aims stands pop, afterIssue_settles stands covers⟩

theorem issQ_of_idle (idle : (s.issOf h).part = 0) : s.issQ u h = s.issOf h := by
  have empty : (s.issOf h).q = [] := by
    unfold State.issOf State.iss
    dsimp only
    split <;> rfl
  rw [State.issQ, if_pos idle, ← empty]

/-- With no lane taking part nothing is read. -/
theorem idle_course (stands : Stands s) (idle : (s.issOf h).part = 0) (pop : x.pop = none) : s.Course (s.passedOn u h)
    ((s.issued (s.issOf h) u).modFrag s.curRef (Frag.passed s)) (s.issOf h) x ((s.wave s.cur.wave).modFrag s.cur.entry (Frag.passed s)) := by
  obtain ⟨here, -, -, mine⟩ := stands.wave
  have same : s.passedOn u h = s.modFrag s.curRef (Frag.passed s) := by rw [State.passedOn, if_pos idle]
  have settles : s.Settles (s.issued (s.issOf h) u) (s.issOf h) x.mv x.ms :=
    { heres := ⟨here, here⟩, stands := mine, wave := .refl .., waves := fun _ _ => rfl
      cnt := fun k other => issued_cnt s _ u other
      busy := fun k other => issued_busy s _ u other
      rest := issued_rest s _ u }
  rw [same]
  exact ⟨(State.Aims.refl here fun k named => by rw [pop] at named; cases named).modFrag _, settles.modFrag (fun _ => rfl) fun _ => rfl⟩

end

/-! ### The end of an instruction (R33) -/

/-- An instruction of lanes makes its region entry unless its fragment waits. -/
theorem finish_of_acts {t : State} {r : FragRef} {i : Iss} {u : Uses} (acts : i.part ≠ 0) (stands : ∃ f ∈ (t.wave r.wave).frags, f.entry = r.entry)
    (dm : (t.wave r.wave).dm = i.w.dm) :
    t.finish r i u = if i.owesEntry u && !((t.wave r.wave).frag r.entry).busy then t.regionEntry r else t := by
  simp only [State.finish, Wave.heirOf_self _ stands, dm, Iss.owesEntry, acts, ne_eq, not_false_eq_true, decide_true, Bool.true_or, Bool.and_true, Bool.true_and]
  rw [← Bool.or_assoc u.entry, Bool.and_comm (!i.hm)]

end Sys2Proof.Machine

/-! SUPPORT. An instruction completes when its effect's course is known, and an instruction whose fragment waits. -/

namespace Sys2Proof.Machine

/-! ### Instructions without a result in a destination -/

/-- What the effect of an instruction leads to, when a lane takes part. -/
structure Sem.Acts (m : Sem) (u : Uses) (also : State → State → Iss → Prop) (s : State) (eff : State → State) (a : State) (w : Wave) : Prop where
  course : s.Course a (eff (s.afterIssue u m.h)) (s.issQ m.u m.h) (m.writes (s.issQ m.u m.h)) w
  own    : (s.wave s.cur.wave).Aims w s.cur.entry (m.writes (s.issQ m.u m.h))
  pc     : (w.frag s.cur.entry).pc = nextPc ((s.wave s.cur.wave).frag s.cur.entry).pc s.cur.step
  also'  : also s ((eff (s.afterIssue u m.h)).finish s.curRef (s.issQ m.u m.h) u) (s.issQ m.u m.h)

section
variable {m : Sem} {i : Instr} {also : State → State → Iss → Prop} {s : State} {u : Uses} {body : Iss → State → Body}

/-- The fragment has moved on. -/
theorem State.Course.pc {a b : State} {k : Iss} {x : Writes} {w : Wave} (c : s.Course a b k x w) (issuing : Issuing s)
    (pc : (w.frag s.cur.entry).pc = nextPc ((s.wave s.cur.wave).frag s.cur.entry).pc s.cur.step) :
    ((b.wave s.cur.wave).frag s.cur.entry).pc = ((s.wave s.cur.wave).frag s.cur.entry).pc + s.cur.step := by
  have same : ((b.wave s.cur.wave).frag s.cur.entry).pc = (w.frag s.cur.entry).pc := (congrArg Frag.pc c.own :)
  rw [same, pc, nextPc_of_lt issuing.room]

/-- Such an instruction completes if its effect leads where it aims; `u` is what the model takes it to use. -/
theorem Sem.completesAt_of (none' : m.d = none ∧ m.sd = none ∧ m.pd = none)
    (runs : exec i s = issue u m.h body s) (srcs : u.srcs = m.u.srcs) (clear : Clear s m.u m.h → Clear s u m.h)
    (idle : (s.issQ m.u m.h).part = 0 → u.whole = true ∨ body (s.issQ m.u m.h) s = .go id)
    (acts : i.wf = true → Issuing s → s.CaptureOk m.u → Clear s m.u m.h → (s.issQ m.u m.h).part ≠ 0 → m.ok s (s.issQ m.u m.h) →
      ∃ eff, body (s.issQ m.u m.h) s = .go eff ∧ ∃ a w, m.Acts u also s eff a w) : m.CompletesAt i also s := by
  intro wf issuing captured clear' k ok
  obtain ⟨noD, noSd, noPd⟩ := none'
  have stands := issuing.toStands
  obtain ⟨here, -, -, mine⟩ := stands.wave
  have sees : s.issQ u m.h = k := by simp only [k, State.issQ, State.popQueue, srcs]
  have passed : (((s.wave s.cur.wave).modFrag s.cur.entry (Frag.passed s)).frag s.cur.entry).pc =
      nextPc ((s.wave s.cur.wave).frag s.cur.entry).pc s.cur.step := by
    rw [Wave.frag_modFrag_self _ (Frag.passed s) (fun _ => rfl) mine]
    rfl
  have pc : k.f.pc = ((s.wave s.cur.wave).frag s.cur.entry).pc := congrArg Frag.pc (issQ_f s m.u m.h)
  -- once the course of the instruction is known, the statement is what it says
  have closes {t a : State} {w : Wave} (ran : exec i s = .next t) (c : s.Course a t k (m.writes k) w) (own : (s.wave s.cur.wave).Aims w s.cur.entry (m.writes k))
      (moved : (w.frag s.cur.entry).pc = nextPc ((s.wave s.cur.wave).frag s.cur.entry).pc s.cur.step) (holds : k.part ≠ 0 → also s t k) :
      ∃ t, exec i s = .next t
        ∧ (∀ d, m.d = some d → if m.w64 then Holds64 t k d (m.val s k) else Holds s t k d fun l => (m.val s k l).setWidth 32)
        ∧ (∀ n, m.sd = some n → k.part ≠ 0 → (t.wave s.cur.wave).sval k.hm n.toNat = m.sval s k)
        ∧ (∀ p, m.pd = some p → k.part ≠ 0 → p = 15 ∨
            ∀ l, (m.plan k).getLsbD l = true → ((t.wave s.cur.wave).pred k.hm p.toNat).getLsbD l = m.pval s k l)
        ∧ (k.part ≠ 0 → also s t k)
        ∧ ((m.writes k).split = false → ((t.wave s.cur.wave).frag s.cur.entry).pc = k.f.pc + s.cur.step)
        ∧ Frame s t k (m.writes k) := by
    refine ⟨t, ran, fun d some' => ?_, fun n some' => ?_, fun p some' => ?_, holds, fun _ => ?_, c.frame own⟩
    · rw [noD] at some'; cases some'
    · rw [noSd] at some'; cases some'
    · rw [noPd] at some'; cases some'
    · rw [pc]; exact c.pc issuing moved
  by_cases act : k.part = 0
  · have nothing : m.writes k = {} := by rw [Sem.writes, if_pos act]
    have idle' : (s.issOf m.h).part = 0 := act
    cases whole : u.whole with
    | true => 
      have c := (idle_course (u := u) (x := m.writes k) stands idle' (by rw [nothing])).finish u
      rw [← issQ_of_idle (u := m.u) idle'] at c
      exact closes (runs.trans (by rw [issue_of_clear_idle (clear clear') whole idle', ← issQ_of_idle (u := m.u) idle'])) c
        (.passed s _ (by rw [nothing]) (by rw [nothing])) passed fun part => absurd act part
    | false =>
      have goes := (idle act).resolve_left (by rw [whole]; decide)
      have c := (afterIssue_course (u := u) (h := m.h) (x := m.writes k) stands (fun part => absurd act (sees ▸ part))
        (by rw [nothing, sees, if_pos act])).finish u
      rw [sees] at c
      have ran := issue_of_clear (clear clear') (fun both => by rw [whole] at both; exact absurd both.1 (by decide)) (by rw [sees]; exact goes)
      rw [sees] at ran
      exact closes (runs.trans ran) c (.passed s _ (by rw [nothing]) (by rw [nothing])) passed fun part => absurd act part
  · obtain ⟨eff, goes, a, w, acts⟩ := acts wf issuing captured clear' act ok
    have ran := issue_of_clear (clear clear') (fun both => act both.2) (by rw [sees]; exact goes)
    rw [sees] at ran
    exact closes (runs.trans ran) (acts.course.finish u) acts.own acts.pc fun _ => acts.also'

/-- What an instruction with a lane that takes part writes. -/
theorem Sem.writes_of_acts {k : Iss} (act : k.part ≠ 0) : (m.writes k).sat = m.sat k ∧ (m.writes k).split = (m.more k).split
    ∧ (m.writes k).own = (m.more k).own ∧ (m.writes k).out = (m.more k).out ∧ (m.writes k).loc = (m.more k).loc ∧ (m.writes k).tiles = (m.more k).tiles := by
  rw [Sem.writes, if_neg act]
  exact ⟨rfl, rfl, rfl, rfl, rfl, rfl⟩

/-- The operands have been read: no more has been done yet. -/
theorem Sem.course_read (stands : Stands s) (srcs : u.srcs = m.u.srcs) (act : (s.issQ m.u m.h).part ≠ 0) (pop : (m.more (s.issQ m.u m.h)).pop = none) :
    s.Course (s.passedOn u m.h) (s.afterIssue u m.h) (s.issQ m.u m.h) (m.writes (s.issQ m.u m.h))
      ((s.wave s.cur.wave).modFrag s.cur.entry (Frag.passed s)) := by
  have sees : s.issQ u m.h = s.issQ m.u m.h := by simp only [State.issQ, State.popQueue, srcs]
  have marks : markedV u = markedV m.u ∧ markedS u = markedS m.u ∧ popped u = popped m.u := by simp only [markedV, markedS, popped, srcs, and_self]
  obtain ⟨vs, ss, q⟩ := marks
  have writes : m.writes (s.issQ m.u m.h) = _ := if_neg act
  have c := afterIssue_course (u := u) (h := m.h) (x := m.writes (s.issQ m.u m.h)) stands
    (fun _ => by
      rw [writes, vs, ss]
      exact ⟨fun n => List.mem_append_left _, fun n => List.mem_append_left _⟩)
    (by rw [writes, sees, if_neg act, q]; dsimp only; rw [pop, Option.or_none])
  rwa [sees] at c

theorem afterIssue_rest (s : State) (u : Uses) (h : Hdr) : (s.afterIssue u h).nextId = s.nextId ∧
    (s.afterIssue u h).clock = s.clock ∧ (s.afterIssue u h).curRef = s.curRef := by
  have popped := popped_rest s u h
  simp only [State.afterIssue, State.modWave_nextId, State.modWave_clock, State.curRef, State.modWave_cur]
  generalize (if (s.issOf h).part = 0 then s else (s.popQueue (s.issOf h).w u).2) = p at popped ⊢
  have issued := issued_rest p (s.issQ u h) u
  generalize p.issued (s.issQ u h) u = q at issued ⊢
  have both {γ : Type} (p : State → γ) := congrArg p popped
  have cur : q.cur = s.cur := (congrArg State.cur issued :).trans (both State.cur)
  exact ⟨(congrArg State.nextId issued :).trans (both State.nextId), (congrArg State.clock issued :).trans (both State.clock), by rw [cur]⟩

/-- An instruction whose fragment waits: it aims at a state in which `g` has been done to its fragment. -/
theorem Sem.acts_of_wait (issuing : Issuing s) (srcs : u.srcs = m.u.srcs) (act : (s.issQ m.u m.h).part ≠ 0)
    (more : m.more (s.issQ m.u m.h) = { own := true }) (sat : m.sat (s.issQ m.u m.h) = false) {eff : State → State} {g : Frag → Frag}
    (does : eff (s.afterIssue u m.h) = (s.afterIssue u m.h).modFrag s.curRef g) (kept : ∀ f, (g f).kept = f.kept) (pc : ∀ f, (g f).pc = f.pc)
    (bare : ∀ f, (g f).bare = g f.bare)
    (also' : ∀ t, t = (eff (s.afterIssue u m.h)).finish s.curRef (s.issQ m.u m.h) u →
      (s.ownFrag t).bare = (g (Frag.passed s (s.issQ m.u m.h).f)).bare → also s t (s.issQ m.u m.h)) : ∃ a w, m.Acts u also s eff a w := by
  have entry (f : Frag) : (g f).entry = f.entry := (congrArg Frag.entry (kept f) :)
  obtain ⟨-, -, -, mine⟩ := issuing.wave
  have writes : m.writes (s.issQ m.u m.h) = _ := if_neg act
  have c := (m.course_read (u := u) issuing.toStands srcs act (by rw [more])).modFrag entry bare
  rw [← does] at c
  have at' : (((s.wave s.cur.wave).modFrag s.cur.entry (Frag.passed s)).modFrag s.cur.entry g).frag s.cur.entry =
      g (Frag.passed s ((s.wave s.cur.wave).frag s.cur.entry)) := by
    rw [Wave.frag_modFrag_self _ g entry ((Wave.stands_iff (Wave.modFrag_entries _ _ (g := Frag.passed s) fun _ => rfl) _).mpr mine),
      Wave.frag_modFrag_self _ (Frag.passed s) (fun _ => rfl) mine]
  refine ⟨_, _, c, ?_, ?_, also' _ rfl ?_⟩
  · have own : (m.writes (s.issQ m.u m.h)).own = true := by rw [writes, more]
    have passed : (s.wave s.cur.wave).Aims ((s.wave s.cur.wave).modFrag s.cur.entry (Frag.passed s)) s.cur.entry (m.writes (s.issQ m.u m.h)) :=
      .passed s _ (by rw [writes]; exact sat) (by rw [writes, more])
    exact passed.modFrag kept fun stays => by rw [own] at stays; cases stays
  · rw [at', pc]; rfl
  · rw [issQ_f, ← at']; exact (c.finish u).own

end

end Sys2Proof.Machine

/-! SUPPORT. The end of an instruction whose fragment waits or makes a region entry (R33, R34), and destinations that are empty then (R94). -/

namespace Sys2Proof.Machine

section
variable {s : State} {u : Uses} {h : Hdr}

/-- What an instruction sees of its wave beside its operands is the wave's, captured or not. -/
theorem issQ_w (s : State) (u : Uses) (h : Hdr) : (s.issQ u h).w.id = (s.wave s.cur.wave).id ∧ (s.issQ u h).w.team = (s.wave s.cur.wave).team ∧
    (s.issQ u h).w.dm = (s.wave s.cur.wave).dm := by
  rw [show (s.issQ u h).w = (s.iss h).w from rfl, State.iss]
  split
  · simp [Wave.under]
  · exact ⟨rfl, rfl, rfl⟩

theorem issQ_hm (s : State) (u : Uses) (h : Hdr) : (s.issQ u h).hm = (s.wave s.cur.wave).inHandler s.cur.entry := by
  rw [show (s.issQ u h).hm = (s.iss h).hm from rfl, State.iss]
  split <;> rfl

end

/-! ### Empty destinations -/

theorem Wave.emptyV_st (w : Wave) (hm owes : Bool) (n m : Nat) : ((w.emptyV hm owes n).vreg m).st = if n = m then .empty else (w.vreg m).st := by
  rw [show (w.emptyV hm owes n).vreg m = (w.setV n { w.vreg n with st := .empty, owed := owes, wir := (w.vreg n).wir || !hm }).vreg m from rfl, Wave.vreg_setV]
  split <;> rfl

theorem Wave.emptyS_st (w : Wave) (hm owes : Bool) (n m : Nat) : ((w.emptyS hm owes n).sreg hm m).st = if n = m then .empty else (w.sreg hm m).st := by
  rw [Wave.emptyS, Wave.sreg_eq_sFile, Wave.sFile_setS]
  by_cases same : n = m
  · subst same
    rw [if_pos ⟨rfl, rfl⟩, if_pos rfl]
  · rw [if_neg fun both => same both.1, if_neg same, Wave.sreg_eq_sFile]

/-- Registers that a fold empties one by one are empty. -/
theorem foldl_empties {β : Type} {f : β → Nat → β} {p : β → Nat → RegState} (each : ∀ b n m, p (f b n) m = if n = m then .empty else p b m) (l : List Nat) (b : β)
    {m : Nat} (hm : m ∈ l ∨ p b m = .empty) : p (l.foldl f b) m = .empty := by
  induction l generalizing b with
  | nil => exact hm.resolve_left List.not_mem_nil
  | cons n l ih =>
    refine ih _ ?_
    rw [each]
    rcases hm with mem | empty
    · rcases List.mem_cons.mp mem with rfl | mem
      · exact .inr (if_pos rfl)
      · exact .inl mem
    · right
      split
      · rfl
      · exact empty

/-- The destinations of a variable-latency instruction are empty after its reads (R94). -/
theorem Wave.afterReads_empties (w : Wave) {i : Iss} {u : Uses} (vl : u.vl = true) (act : i.part ≠ 0) :
    (∀ n ∈ u.dv, ((w.afterReads i u).vreg n).st = .empty) ∧ ∀ n ∈ u.ds, ((w.afterReads i u).sreg i.hm n).st = .empty := by
  unfold Wave.afterReads
  simp only [act, vl, ne_eq, not_false_eq_true, decide_true, Bool.and_true, if_true]
  constructor
  · intro n hn
    rw [foldl_keeps (p := fun w : Wave => w.vreg n) (fun w m => by rw [Wave.emptyS, Wave.vreg_setS])]
    exact foldl_empties (p := fun (w : Wave) m => (w.vreg m).st) (fun w n m => w.emptyV_st i.hm u.owes n m) u.dv _ (.inl hn)
  · intro n hn
    exact foldl_empties (p := fun (w : Wave) m => (w.sreg i.hm m).st) (fun w n m => w.emptyS_st i.hm u.owes n m) u.ds _ (.inl hn)

/-- A wave's registers. -/
def Wave.files (w : Wave) : Tab VReg × Tab SReg × Tab SReg := (w.v, w.s, w.hs)

section
variable {s : State} {u : Uses} {h : Hdr}

theorem State.modFrag_files (s : State) (r : FragRef) (g : Frag → Frag) (n : Nat) : ((s.modFrag r g).wave n).files = (s.wave n).files := by
  rcases s.wave_modWave_or r.wave n fun w => w.modFrag r.entry g with same | same
  · rw [State.modFrag, same]
  · rw [State.modFrag, same]; rfl

/-- The destinations that stand empty when a wave's registers are as the reads have left them. -/
theorem awaits_of_files {t : State} (here : (Tab.get? s.waves s.cur.wave).isSome = true) (vl : u.vl = true) (act : (s.issQ u h).part ≠ 0)
    (same : (t.wave s.cur.wave).files = ((s.afterIssue u h).wave s.cur.wave).files) :
    (∀ n ∈ u.dv, Awaits (t.wave s.cur.wave) n) ∧ ∀ n ∈ u.ds, AwaitsS (t.wave s.cur.wave) (s.issQ u h).hm n := by
  obtain ⟨vs, ss⟩ := (s.wave s.cur.wave).afterReads_empties vl act
  have same : (t.wave s.cur.wave).files = ((s.wave s.cur.wave).afterReads (s.issQ u h) u).files := by
    rw [same, afterIssue_wave here]
    rfl
  simp only [Wave.files, Prod.mk.injEq] at same
  obtain ⟨v, sc, hs⟩ := same
  refine ⟨fun n hn => .inl ?_, fun n hn => .inl ?_⟩
  · rw [Wave.vreg, v]; exact vs n hn
  · rw [Wave.sreg, sc, hs]; exact ss n hn

end

/-! ### The end of an instruction -/

section
variable {s a b : State} {u : Uses} {h : Hdr} {x : Writes} {w : Wave} (c : s.Course a b (s.issQ u h) x w)
include c

theorem State.Course.stands' : ∃ f ∈ (b.wave s.cur.wave).frags, f.entry = s.cur.entry := (Wave.stands_iff c.stays.entries _).mpr c.stands

theorem State.Course.finish_eq (u' : Uses) (own : (s.wave s.cur.wave).Aims w s.cur.entry x) (act : (s.issQ u h).part ≠ 0) :
    b.finish s.curRef (s.issQ u h) u' = if (s.issQ u h).owesEntry u' && !(w.frag s.cur.entry).busy then b.regionEntry s.curRef else b := by
  have dm : (b.wave s.cur.wave).dm = (s.issQ u h).w.dm := by
    rw [(issQ_w s u h).2.2]
    exact (congrArg (fun z : Wave => z.dm) c.stays.still :).trans (congrArg Wave.dm own.same :)
  have busy : ((b.wave s.cur.wave).frag s.cur.entry).busy = (w.frag s.cur.entry).busy := (congrArg Frag.busy c.own :)
  rw [finish_of_acts act c.stands' dm]
  show (if (s.issQ u h).owesEntry u' && !((b.wave s.cur.wave).frag s.cur.entry).busy then _ else _) = _
  rw [busy]

end

theorem Wave.offRegs_wpc : Wave.OffRegs Wave.wpc := ⟨fun _ _ _ => rfl, fun _ _ _ _ => by simp, fun _ _ => rfl, fun _ _ => rfl⟩

theorem Wave.settleRegion_wpc (w : Wave) : w.settleRegion.wpc = w.wpc := by
  have kills (w : Wave) (n : Nat) : (w.applyKill n).wpc = w.wpc := by
    rcases w.applyKill_cases n with same | ⟨_, _, same | same⟩ <;> rw [same] <;> rfl
  exact foldl_keeps (p := Wave.wpc) kills (w.v.map Prod.fst) w

/-- A region entry outside handler mode counts, and its fragment's restart point is where it stands (R34). -/
theorem Wave.regionEntry_of_user {w : Wave} {e : Nat} (user : w.inHandler e = false) (stands : ∃ f ∈ w.frags, f.entry = e) :
    (w.regionEntry e).wpc = w.wpc + 1 ∧ (w.regionEntry e).frag e = Frag.enters w.ctr (w.frag e) := by
  have entered : (w.entersRegion e).wpc = w.wpc + 1 ∧ (w.entersRegion e).frag e = Frag.enters w.ctr (w.frag e) :=
    ⟨rfl, Wave.frag_modFrag_self w.dropLatches (Frag.enters w.ctr) (fun _ => rfl) stands⟩
  rw [Wave.regionEntry_eq, if_neg (by simp [user])]
  split
  · rw [Wave.settleRegion_wpc, Wave.frag, (w.entersRegion e).settleRegion_frags_h.1]
    exact entered
  · exact entered

end Sys2Proof.Machine

/-! SUPPORT. Instructions that start a wait (R33, R65, R130, R183, R318, R335, R341, R345, R369, R408), and the settled statement. -/

namespace Sys2Proof.Machine

section
variable {m : Sem} {i : Instr} {also : State → State → Iss → Prop} {s : State} {body : Iss → State → Body}

/-- An instruction that does `g` to its fragment, and no more, completes. -/
theorem Sem.completesAt_wait (none' : m.d = none ∧ m.sd = none ∧ m.pd = none) (runs : exec i s = issue m.u m.h body s) (whole : m.u.whole = true)
    (more : ∀ k, m.more k = { own := true }) (sat : ∀ k, m.sat k = false)
    (goes : ∀ k, k = s.issQ m.u m.h → Issuing s → k.part ≠ 0 → m.ok s k → ∃ eff g,
      body k s = .go eff ∧ eff (s.afterIssue m.u m.h) = (s.afterIssue m.u m.h).modFrag s.curRef g
        ∧ (∀ f, (g f).kept = f.kept) ∧ (∀ f, (g f).pc = f.pc) ∧ (∀ f, (g f).bare = g f.bare)
        ∧ ∀ t, t = (eff (s.afterIssue m.u m.h)).finish s.curRef k m.u → (s.ownFrag t).bare = (g (Frag.passed s k.f)).bare → also s t k) :
    m.CompletesAt i also s := by
  refine Sem.completesAt_of none' runs rfl (fun c => c) (fun _ => .inl whole) fun _ issuing _ _ act ok => ?_
  obtain ⟨eff, g, goes, does, kept, pc, bare, also'⟩ := goes _ rfl issuing act ok
  exact ⟨eff, goes, Sem.acts_of_wait issuing rfl act (more _) (sat _) does kept pc bare also'⟩

/-- An instruction that makes its fragment wait, for what its operands and the next identifier say, completes. -/
theorem Sem.completesAt_waitCur (none' : m.d = none ∧ m.sd = none ∧ m.pd = none) (runs : exec i s = issue m.u m.h body s) (whole : m.u.whole = true)
    (more : ∀ k, m.more k = { own := true }) (sat : ∀ k, m.sat k = false)
    (goes : ∀ k, k = s.issQ m.u m.h → Issuing s → k.part ≠ 0 → m.ok s k → ∃ c : Nat → Wait, body k s = .go (fun t => t.waitCur (c t.nextId)) ∧
      ∀ t, t = ((s.afterIssue m.u m.h).waitCur (c s.nextId)).finish s.curRef k m.u → (s.ownFrag t).st = .waiting → (s.ownFrag t).wait = c s.nextId → also s t k) :
    m.CompletesAt i also s := by
  refine Sem.completesAt_wait none' runs whole more sat fun k hk issuing act ok => ?_
  obtain ⟨c, goes, also'⟩ := goes k hk issuing act ok
  obtain ⟨nextId, clock, cur⟩ := afterIssue_rest s m.u m.h
  refine ⟨_, Frag.waitFor (c s.nextId) s.clock, goes, ?_, fun _ => rfl, fun _ => rfl, fun _ => rfl, fun t ends own => ?_⟩
  · rw [State.waitCur, nextId, clock, cur]
  · exact also' t (by rw [ends, nextId]) (congrArg Frag.st own :) (congrArg Frag.wait own :)

/-- An instruction with no effect beside its region entry completes. -/
theorem Sem.completesAt_of_none (none' : m.d = none ∧ m.sd = none ∧ m.pd = none) (runs : exec i s = issue m.u m.h body s) (whole : m.u.whole = true)
    (sat : ∀ k, m.sat k = false) (more : ∀ k, (m.more k).split = false ∧ (m.more k).pop = none)
    (goes : ∀ k, k = s.issQ m.u m.h → s.CaptureOk m.u → Issuing s → Clear s m.u m.h → k.part ≠ 0 → m.ok s k → body k s = .go (fun t => t) ∧
      ∀ t, t = (s.afterIssue m.u m.h).finish s.curRef k m.u → (s.ownFrag t).bare = (Frag.passed s k.f).bare → also s t k) :
    m.CompletesAt i also s := by
  refine Sem.completesAt_of none' runs rfl (fun c => c) (fun _ => .inl whole) fun _ issuing captured clear act ok => ?_
  obtain ⟨goes, also'⟩ := goes _ rfl captured issuing clear act ok
  obtain ⟨-, -, -, mine⟩ := issuing.wave
  have writes : m.writes (s.issQ m.u m.h) = _ := if_neg act
  have c := m.course_read issuing.toStands rfl act (more _).2
  have at' := Wave.frag_modFrag_self _ (Frag.passed s) (fun _ => rfl) mine
  refine ⟨_, goes, _, _, c, ?_, ?_, also' _ rfl ?_⟩
  · exact .passed s _ (by rw [writes]; exact sat _) (by rw [writes]; exact (more _).1)
  · rw [at']; rfl
  · rw [issQ_f, ← at']; exact (c.finish m.u).own

end

theorem boAddr_eq_none {o size : Nat} (aligned : o % 16 = 0) (inside : o + 16 ≤ size) : boAddr o size = none := by
  rw [boAddr, if_neg (by simp [aligned]), if_neg (by omega)]

theorem State.modFrag_id (s : State) (r : FragRef) : s.modFrag r (fun f => f) = s := by
  have same (t : Tab Wave) : Tab.mod (fun w => w.modFrag r.entry fun f => f) t r.wave = t := by
    induction t with
    | nil => rfl
    | cons e t ih =>
      simp only [Tab.mod, Wave.modFrag, ite_self, List.map_id'] at ih ⊢
      split
      · rfl
      · rw [ih]
  rw [State.modFrag, State.modWave, same]

/-- `WPT`, outside handler mode, makes a region entry (R33, R34). -/
theorem wpt_enters {s : State} {u : Uses} {h : Hdr} (issuing : Issuing s) (captured : s.CaptureOk u) (queues : usesQueue u = false) (entry : u.entry = true)
    (act : (s.issQ u h).part ≠ 0) (user : (s.issQ u h).hm = false) {t : State} (ends : t = (s.afterIssue u h).finish s.curRef (s.issQ u h) u) :
    (t.wave s.cur.wave).wpc = (s.issQ u h).w.wpc + 1 ∧ (s.ownFrag t).rpc = (s.issQ u h).f.pc + s.cur.step ∧ (s.ownFrag t).rmask = (s.issQ u h).f.mask
      ∧ (s.ownFrag t).rstack = (s.issQ u h).f.stack := by
  obtain ⟨here, -, -, mine⟩ := issuing.wave
  obtain ⟨running, free⟩ := issuing.runs
  have c := afterIssue_course (u := u) (h := h) (x := { mv := markedV u, ms := markedS u, pop := popped u }) issuing.toStands
    (fun _ => ⟨fun _ hn => hn, fun _ hn => hn⟩) (if_neg act).symm
  have at' := Wave.frag_modFrag_self _ (Frag.passed s) (fun _ => rfl) mine
  have goesOn : (((s.wave s.cur.wave).modFrag s.cur.entry (Frag.passed s)).frag s.cur.entry).busy = false := by
    rw [at']
    show ((s.wave s.cur.wave).frag s.cur.entry).busy = false
    simp only [Frag.busy, running, free, Bool.or_self]
  have owes : (s.issQ u h).owesEntry u = true := by simpa [Iss.owesEntry, user, entry] using act
  have wave : (t.wave s.cur.wave) = ((s.afterIssue u h).wave s.cur.wave).regionEntry s.cur.entry := by
    rw [ends, c.finish_eq u (.passed s _ rfl rfl) act, owes, goesOn]
    exact (State.wave_modWave _ _ _ _ c.here).trans (if_pos rfl)
  have outside : ((s.afterIssue u h).wave s.cur.wave).inHandler s.cur.entry = false := by
    rw [Wave.inHandler, afterIssue_h here]
    exact (issQ_hm s u h).symm.trans user
  obtain ⟨counts, enters⟩ := Wave.regionEntry_of_user outside c.stands'
  have own : (((s.afterIssue u h).wave s.cur.wave).frag s.cur.entry).bare = (Frag.passed s (s.issQ u h).f).bare := by
    rw [issQ_f, ← at']
    exact c.own
  have plain : (s.issQ u h).w = s.wave s.cur.wave := by
    rw [show (s.issQ u h).w = (s.iss h).w from rfl, State.iss, capt_eq_none captured queues]
  have pc : nextPc (s.issQ u h).f.pc s.cur.step = (s.issQ u h).f.pc + s.cur.step := by
    rw [issQ_f]
    exact nextPc_of_lt issuing.room
  have before : ((s.afterIssue u h).wave s.cur.wave).wpc = (s.wave s.cur.wave).wpc := by
    rw [afterIssue_wave here]
    exact (Wave.offRegs_wpc.afterReads ..).trans (by rw [Wave.noteReads]; split <;> rfl)
  rw [State.ownFrag, wave, enters, counts, before, plain]
  exact ⟨rfl, (congrArg Frag.pc own :).trans pc, (congrArg Frag.mask own :), (congrArg Frag.stack own :)⟩

/-- The destinations of a variable-latency instruction stand empty while its fragment waits. -/
theorem waitCur_awaits {s : State} {u : Uses} {h : Hdr} {c : Wait} (issuing : Issuing s) (vl : u.vl = true) (act : (s.issQ u h).part ≠ 0)
    (busy : ∀ f, (Frag.waitFor c s.clock f).busy = true) {t : State} (ends : t = ((s.afterIssue u h).waitCur c).finish s.curRef (s.issQ u h) u) :
    ∀ n ∈ u.ds, AwaitsS (t.wave s.cur.wave) (s.issQ u h).hm n := by
  obtain ⟨here, -, -, mine⟩ := issuing.wave
  obtain ⟨-, clock, cur⟩ := afterIssue_rest s u h
  rw [State.waitCur, clock, cur] at ends
  have read := afterIssue_course (u := u) (h := h) (x := { mv := markedV u, ms := markedS u, pop := popped u, own := true }) issuing.toStands
    (fun _ => ⟨fun _ hn => hn, fun _ hn => hn⟩) (if_neg act).symm
  have own : (s.wave s.cur.wave).Aims (((s.wave s.cur.wave).modFrag s.cur.entry (Frag.passed s)).modFrag s.cur.entry (Frag.waitFor c s.clock)) s.cur.entry
      { mv := markedV u, ms := markedS u, pop := popped u, own := true } :=
    (Wave.Aims.passed s _ rfl rfl).modFrag (g := Frag.waitFor c s.clock) (fun _ => rfl) fun stays => nomatch stays
  have waits : ((((s.wave s.cur.wave).modFrag s.cur.entry (Frag.passed s)).modFrag s.cur.entry (Frag.waitFor c s.clock)).frag s.cur.entry).busy = true := by
    rw [Wave.frag_modFrag_self _ (Frag.waitFor c s.clock) (fun _ => rfl) ((Wave.stands_iff (Wave.modFrag_entries _ _ (g := Frag.passed s) fun _ => rfl) _).mpr mine)]
    exact busy _
  have stays := (read.modFrag (g := Frag.waitFor c s.clock) (fun _ => rfl) fun _ => rfl).finish_eq u own act
  rw [waits, Bool.not_true, Bool.and_false, if_neg Bool.false_ne_true, ← ends] at stays
  exact (awaits_of_files here vl act (by rw [stays, State.modFrag_files])).2

/-- Settles O13: each of these instructions does one thing to its fragment, and its end makes the region entry where the fragment does not wait. -/
theorem waitsStart : Obligations.WaitsStart := by
  unfold Obligations.WaitsStart
  intro s i m also sem
  cases i <;> cases sem
  case nop x =>
    refine Sem.completesAt_of_none ⟨rfl, rfl, rfl⟩ (show exec (.nop x) s = execNop x s from rfl) rfl (fun _ => rfl) (fun _ => ⟨rfl, rfl⟩) ?_
    exact fun k _ _ _ _ _ _ => ⟨rfl, fun _ _ _ => trivial⟩
  case wpt x =>
    refine Sem.completesAt_of_none ⟨rfl, rfl, rfl⟩ (show exec (.wpt x) s = execWpt x s from rfl) rfl (fun _ => rfl) (fun _ => ⟨rfl, rfl⟩) ?_
    rintro k rfl captured issuing - act -
    refine ⟨rfl, fun t ends _ => ?_⟩
    by_cases handler : (s.issQ { ctl with entry := true } x.h).hm = true
    · exact .inl handler
    · exact .inr (wpt_enters issuing captured rfl rfl act (by simpa using handler) ends)
  case yield x =>
    refine Sem.completesAt_wait ⟨rfl, rfl, rfl⟩ (show exec (.yield x) s = execYield x s from rfl) rfl (fun _ => rfl) (fun _ => rfl) ?_
    exact fun k _ _ _ _ => ⟨_, _, rfl, rfl, fun _ => rfl, fun _ => rfl, fun _ => rfl, fun t _ own =>
      ⟨(congrArg Frag.st own :), (congrArg Frag.wait own :), (congrArg Frag.wake own :), (congrArg Frag.slip own :)⟩⟩
  case sleep x =>
    refine Sem.completesAt_wait ⟨rfl, rfl, rfl⟩ (show exec (.sleep x) s = execSleep x s from rfl) rfl (fun _ => rfl) (fun _ => rfl) ?_
    exact fun k _ _ _ _ => ⟨_, _, rfl, rfl, fun _ => rfl, fun _ => rfl, fun _ => rfl, fun t _ own =>
      ⟨(congrArg Frag.st own :), (congrArg Frag.wait own :), (congrArg Frag.wake own :)⟩⟩
  case mxwait x =>
    refine Sem.completesAt_wait ⟨rfl, rfl, rfl⟩ (show exec (.mxwait x) s = execMxwait x s from rfl) rfl (fun _ => rfl) (fun _ => rfl) ?_
    intro k _ _ _ _
    by_cases owes : k.w.owesMatrix = true
    · refine ⟨_, _, if_pos owes, rfl, fun _ => rfl, fun _ => rfl, fun _ => rfl, fun t _ own => ?_⟩
      dsimp only
      rw [if_pos owes]
      exact ⟨(congrArg Frag.st own :), (congrArg Frag.wait own :)⟩
    · refine ⟨_, fun f => f, if_neg owes, (State.modFrag_id ..).symm, fun _ => rfl, fun _ => rfl, fun _ => rfl, fun t _ own => ?_⟩
      dsimp only
      rw [if_neg owes]
      exact ⟨(congrArg Frag.st own :), (congrArg Frag.wait own :)⟩
  case fence x =>
    refine Sem.completesAt_waitCur ⟨rfl, rfl, rfl⟩ (show exec (.fence x) s = execFence x s from rfl) rfl (fun _ => rfl) (fun _ => rfl) ?_
    exact fun k _ _ _ _ => ⟨fun n => match x.kind with
      | .acq => .acq x.scope n
      | .rel => .rel x.scope n (.fence false)
      | .ar => .rel x.scope n (.fence true), rfl, fun t _ st wait => ⟨st, wait⟩⟩
  case bar x =>
    refine Sem.completesAt_waitCur ⟨rfl, rfl, rfl⟩ (show exec (.bar x) s = execBar x s from rfl) rfl (fun _ => rfl) (fun _ => rfl) ?_
    exact fun k _ _ _ _ => ⟨fun n => .rel .team n .bar, rfl, fun t _ st wait => ⟨st, wait⟩⟩
  case bara x =>
    refine Sem.completesAt_waitCur ⟨rfl, rfl, rfl⟩ (show exec (.bara x) s = execBara x s from rfl) rfl (fun _ => rfl) (fun _ => rfl) ?_
    exact fun k _ _ _ ok => ⟨fun n => .rel .team n (.bara x.d (k.s64 x.a).toNat (match x.tx with
      | some b => (k.s64 b).toNat % 2 ^ 32
      | none => 0) (s.trapNow 41 k.part {}).trec), by dsimp only; rw [boAddr_eq_none ok.1 ok.2] <;> rfl, fun t _ st wait => ⟨st, _, wait⟩⟩
  case barw x =>
    refine Sem.completesAt_waitCur ⟨rfl, rfl, rfl⟩ (show exec (.barw x) s = execBarw x s from rfl) rfl (fun _ => rfl) (fun _ => rfl) ?_
    rintro k - - - ⟨aligned, inside, free, quiet⟩
    exact ⟨fun _ => .barw (k.s64 x.a).toNat ((k.s64 x.b).getLsbD 0), by dsimp only; rw [boAddr_eq_none aligned inside, free, quiet]; rfl, fun t _ st wait => ⟨st, wait⟩⟩
  case gbar x =>
    refine Sem.completesAt_waitCur ⟨rfl, rfl, rfl⟩ (show exec (.gbar x) s = execGbar x s from rfl) rfl (fun _ => rfl) (fun _ => rfl) ?_
    exact fun k _ _ _ _ => ⟨fun n => .rel .device n .gbar, rfl, fun t _ st wait => ⟨st, wait⟩⟩
  case cpy x =>
    refine Sem.completesAt_waitCur ⟨rfl, rfl, rfl⟩ (show exec (.cpy x) s = execCpy x s from rfl) rfl (fun _ => rfl) (fun _ => rfl) ?_
    rintro k hk issuing act ⟨aligned, inside, few, good, free, quiet⟩
    refine ⟨fun n => .rel x.scope n (.cpy x.d (k.s64 x.b).toNat (BitVec.ofNat 256 ((s.lmem k.w.team).num (k.s64 x.a).toNat 32))), ?_, fun t ends st wait =>
      ⟨st, wait, ?_⟩⟩
    · dsimp only
      rw [if_neg (by simp [aligned]), if_neg (by omega), if_neg (by omega), free, quiet, good]
      rfl
    · subst hk
      exact waitCur_awaits issuing rfl act (fun _ => rfl) ends _ (.head _)
  case tlwait x =>
    refine Sem.completesAt_waitCur ⟨rfl, rfl, rfl⟩ (show exec (.tlwait x) s = execTlwait x s from rfl) rfl (fun _ => rfl) (fun _ => rfl) ?_
    exact fun k _ _ _ ok => ⟨fun _ => .tlwait x.scope (k.s64 x.a).toNat (k.s64 x.b).toNat (s.trapNow 45 k.part {}).trec,
      if_neg (Nat.not_lt.mpr ok), fun t _ st wait => ⟨st, _, wait⟩⟩
  case tladv x =>
    refine Sem.completesAt_waitCur ⟨rfl, rfl, rfl⟩ (show exec (.tladv x) s = execTladv x s from rfl) rfl (fun _ => rfl) (fun _ => rfl) ?_
    exact fun k _ _ _ ok => ⟨fun n => .rel x.scope n (.tladv (k.s64 x.a).toNat (k.s64 x.b).toNat),
      if_neg (Nat.not_lt.mpr ok), fun t _ st wait => ⟨st, wait⟩⟩
  case spawn x =>
    refine Sem.completesAt_waitCur ⟨rfl, rfl, rfl⟩ (show exec (.spawn x) s = execSpawn x s from rfl) rfl (fun _ => rfl) (fun _ => rfl) ?_
    rintro k hk - - ⟨task, shallow⟩
    have team : s.curTeam = s.team k.w.team := by rw [hk, (issQ_w ..).2.1]; rfl
    refine ⟨fun n => .rel .device n (.spawn x.d (recOf k x.r)), ?_, fun t _ st wait => ⟨st, wait⟩⟩
    dsimp only
    rw [team, task, if_neg Bool.false_ne_true, if_neg shallow]

end Sys2Proof.Machine

/-! SUPPORT. What stands in local memory after bytes have been written one by one, words in turn, and the lines of a tile (R249 to R251, R292, R298, R307). -/

namespace Sys2Proof.Machine

/-! ### Bytes written in turn -/

theorem get_putBytes_out (m : Memory) (bs : List (Nat × Byte)) {b : Nat} (out : ∀ e ∈ bs, e.1 ≠ b) : (putBytes m bs).get b = m.get b := by
  induction bs generalizing m with
  | nil => rfl
  | cons e bs ih =>
    refine (ih (m.set e.1 e.2) fun e he => out e (.tail _ he)).trans ?_
    rw [Memory.get_set, if_neg (out e (.head _))]

/-- A byte that is written holds what one of its writes puts there (R307). -/
theorem get_putBytes_in (m : Memory) (bs : List (Nat × Byte)) {b : Nat} (written : ∃ e ∈ bs, e.1 = b) : ∃ e ∈ bs, e.1 = b ∧ (putBytes m bs).get b = e.2 := by
  induction bs generalizing m with
  | nil => simp at written
  | cons e bs ih =>
    by_cases later : ∃ e ∈ bs, e.1 = b
    · obtain ⟨f, hf, at', holds⟩ := ih (m.set e.1 e.2) later
      exact ⟨f, .tail _ hf, at', holds⟩
    · have here : e.1 = b := by
        obtain ⟨f, hf, at'⟩ := written
        rcases List.mem_cons.mp hf with rfl | hf
        · exact at'
        · exact absurd ⟨f, hf, at'⟩ later
      refine ⟨e, .head _, here, (get_putBytes_out (m.set e.1 e.2) bs fun f hf at' => later ⟨f, hf, at'⟩).trans ?_⟩
      rw [Memory.get_set, if_pos here]

theorem mem_addrs {a : Nat} {bs : List Byte} {e : Nat × Byte} : e ∈ addrs a bs ↔ ∃ j < bs.length, e = (a + j, bs.getD j 0) := by
  induction bs generalizing a with
  | nil => simp [addrs]
  | cons b bs ih =>
    rw [addrs, List.mem_cons, ih]
    constructor
    · rintro (rfl | ⟨j, hj, rfl⟩)
      · exact ⟨0, by simp, rfl⟩
      · exact ⟨j + 1, by simpa using hj, by simp [Nat.add_assoc, Nat.add_comm 1]⟩
    · rintro ⟨j, hj, rfl⟩
      cases j with
      | zero => exact .inl rfl
      | succ j => exact .inr ⟨j, by simpa using hj, by simp [Nat.add_assoc, Nat.add_comm 1]⟩

theorem leBytes_getD {n x j : Nat} (inside : j < n) : (leBytes n x).getD j 0 = BitVec.ofNat 8 (x / 256 ^ j) := by
  induction n generalizing x j with
  | zero => omega
  | succ n ih =>
    cases j with
    | zero => simp [leBytes]
    | succ j => rw [leBytes, List.getD_cons_succ, ih (by omega), Nat.div_div_eq_div_mul, pow_succ']

theorem mem_writeOrder {s : State} {ls : List (Nat × List (Nat × Byte))} {e : Nat × List (Nat × Byte)} : e ∈ s.writeOrder ls ↔ e ∈ ls := by
  rw [State.writeOrder]
  split
  · exact (List.perm_insertionSort _ ls).mem_iff
  · rfl

/-! ### Words updated in turn -/

theorem num_setNum_ne (m : Memory) {p q n : Nat} (x : Nat) (apart : p + n ≤ q ∨ q + n ≤ p) : (m.setNum q n x).num p n = m.num p n := by
  have same : (m.setNum q n x).bytes p n = m.bytes p n := by
    refine List.map_congr_left fun i hi => ?_
    rw [List.mem_range] at hi
    rw [Memory.setNum, Memory.get_setBytes_out _ _ (by rw [leBytes_length]; omega)]
  rw [Memory.num, Memory.num, same]

theorem num_lt (m : Memory) (p n : Nat) : m.num p n < 256 ^ n := by
  have := leNat_lt (m.bytes p n)
  rwa [Memory.bytes_length] at this

/-- Different multiples of `n` are `n` apart. -/
theorem apart_of_aligned {p q n : Nat} (hp : p % n = 0) (hq : q % n = 0) (other : p ≠ q) : p + n ≤ q ∨ q + n ≤ p := by
  obtain ⟨a, rfl⟩ := Nat.dvd_of_mod_eq_zero hp
  obtain ⟨b, rfl⟩ := Nat.dvd_of_mod_eq_zero hq
  rcases Nat.lt_trichotomy a b with less | rfl | more
  · exact .inl (by nlinarith)
  · exact absurd rfl other
  · exact .inr (by nlinarith)

/-! ### The swizzle of a tile (R250) -/

theorem tileSwz_lt (sw : Bool) {x : Nat} (inside : x < 2048) : tileSwz sw x < 2048 := by
  cases sw with
  | false => exact inside
  | true => exact Nat.xor_lt_two_pow (n := 11) inside (by omega)

/-- The swizzle is its own inverse: it changes bits 3 to 5 only, by bits 8 to 10. -/
theorem tileSwz_tileSwz (sw : Bool) (x : Nat) : tileSwz sw (tileSwz sw x) = x := by
  cases sw with
  | false => rfl
  | true =>
    have high : (x ^^^ x / 256 % 8 * 8) / 256 = x / 256 := by
      have low : x / 2 ^ 8 % 8 * 8 / 2 ^ 8 = 0 := by omega
      rw [show (256 : Nat) = 2 ^ 8 from rfl, Nat.xor_div_two_pow, low, Nat.xor_zero]
    show (x ^^^ x / 256 % 8 * 8) ^^^ (x ^^^ x / 256 % 8 * 8) / 256 % 8 * 8 = x
    rw [high, Nat.xor_assoc, Nat.xor_self, Nat.xor_zero]

theorem tileSwz_inj {sw : Bool} {x y : Nat} (same : tileSwz sw x = tileSwz sw y) : x = y := by
  rw [← tileSwz_tileSwz sw x, same, tileSwz_tileSwz]

end Sys2Proof.Machine

/-! SUPPORT. The effects of the local unit's instructions on their course: a reply is set out, and the fragment waits where its load makes a region entry
(R33, R94, R249). -/

namespace Sys2Proof.Machine

/-- The same instruction, whatever obligation it makes and however it counts. -/
theorem Clear.owes {s : State} {u : Uses} {h : Hdr} (c : Clear s u h) (owes atom : Bool) : Clear s { u with owes := owes, atom := atom } h :=
  { idem := c.idem, hold := c.hold, first := c.first, preds := c.preds, dsts := c.dsts, tiles := c.tiles, win := c.win, srcs := c.srcs, pops := c.pops
    push := c.push, fetched := c.fetched, views := c.views, clean := c.clean, fresh := c.fresh }

/-- The fragment that an instruction sees is the one being issued. -/
theorem issQ_ref {s : State} (stands : Stands s) (u : Uses) (h : Hdr) : (⟨(s.issQ u h).w.id, (s.issQ u h).f.entry⟩ : FragRef) = s.curRef := by
  obtain ⟨-, name, -, mine⟩ := stands.wave
  rw [(issQ_w s u h).1, issQ_f, name, Wave.frag_entry mine]
  rfl

/-- What a local operation does to the fragment: it waits, if the load makes a region entry. -/
def Frag.awaits (wait : Bool) (k : Wait) (since : Nat) (f : Frag) : Frag := if wait then f.waitFor k since else f

theorem Frag.awaits_kept (wait : Bool) (k : Wait) (since : Nat) (f : Frag) : (f.awaits wait k since).kept = f.kept := by cases wait <;> rfl
theorem Frag.awaits_entry (wait : Bool) (k : Wait) (since : Nat) (f : Frag) : (f.awaits wait k since).entry = f.entry := by cases wait <;> rfl
theorem Frag.awaits_pc (wait : Bool) (k : Wait) (since : Nat) (f : Frag) : (f.awaits wait k since).pc = f.pc := by cases wait <;> rfl
theorem Frag.awaits_bare (wait : Bool) (k : Wait) (since : Nat) (f : Frag) : (f.awaits wait k since).bare = f.bare.awaits wait k since := by cases wait <;> rfl

theorem State.awaitIf_eq (s : State) (wait : Bool) (r : FragRef) (k : Wait) : s.awaitIf wait r k = s.modFrag r (Frag.awaits wait k s.clock) := by
  cases wait
  · exact (s.modFrag_id r).symm
  · rfl

/-- A local operation and its reply are set out. -/
def State.localSend (t : State) (i : Iss) (instr : Instr) (lanes : List LaneAcc) (wait : Bool) : State :=
  { t with
    ops := t.ops ++ [{ id := t.nextId, wave := i.w.id, entry := i.f.entry, core := i.w.core, instr := instr, size := 0, pasid := (t.team i.w.team).pasid
                       lanes := lanes, out := lanes, hm := i.hm, wait := wait, nout := 1 }]
    reps := t.reps ++ [{ id := t.nextId + 1, op := t.nextId, port := i.w.core / 8, core := i.w.core, slice := 2000 + i.w.core, pa := 0, kind := .done }]
    nextId := t.nextId + 2 }

theorem State.localReply_eq (t : State) (i : Iss) (instr : Instr) (lanes : List LaneAcc) (wait : Bool) : t.localReply i instr lanes wait =
    (t.localSend i instr lanes wait).modFrag ⟨i.w.id, i.f.entry⟩ (Frag.awaits wait (.op t.nextId) t.clock) :=
  (t.localSend i instr lanes wait).awaitIf_eq wait ⟨i.w.id, i.f.entry⟩ (.op t.nextId)

section
variable {s a b : State} {i : Iss} {x : Writes} {w : Wave} (c : s.Course a b i x w)
include c

theorem State.Course.nextId : b.nextId = a.nextId := (congrArg State.nextId c.settles.rest :)
theorem State.Course.clock : b.clock = s.clock := (congrArg State.clock c.settles.rest :).trans (congrArg State.clock c.aims.rest :)
theorem State.Course.clock' : a.clock = s.clock := (congrArg State.clock c.aims.rest :)

theorem State.Course.awaits (wait : Bool) (k : Wait) : s.Course (a.modFrag s.curRef (Frag.awaits wait k s.clock)) (b.modFrag s.curRef (Frag.awaits wait k s.clock)) i x
    (w.modFrag s.cur.entry (Frag.awaits wait k s.clock)) :=
  c.modFrag (Frag.awaits_entry wait k s.clock) (Frag.awaits_bare wait k s.clock)

theorem State.Course.localSend (out : x.out = true) (instr : Instr) (lanes : List LaneAcc) (wait : Bool) :
    s.Course (a.localSend i instr lanes wait) (b.localSend i instr lanes wait) i x w :=
  ⟨c.aims.sends out _ _ _, c.settles.change (g := fun z => z.localSend i instr lanes wait) (fun _ _ _ _ => rfl) rfl⟩

end

section
variable {s a b t : State} {u : Uses} {h : Hdr} {x : Writes} {w : Wave} {instr : Instr} {lanes : List LaneAcc} {wait : Bool} {n : Nat}

theorem State.Course.localReply (c : s.Course a b (s.issQ u h) x w) (stands : Stands s) (nextId : a.nextId = s.nextId) (out : x.out = true) (instr : Instr)
    (lanes : List LaneAcc) (wait : Bool) : s.Course (a.localReply (s.issQ u h) instr lanes wait) (b.localReply (s.issQ u h) instr lanes wait) (s.issQ u h) x
      (w.modFrag s.cur.entry (Frag.awaits wait (.op s.nextId) s.clock)) := by
  rw [State.localReply_eq, State.localReply_eq, issQ_ref stands, c.nextId, nextId, c.clock, c.clock']
  exact (c.localSend out instr lanes wait).awaits wait (.op s.nextId)

/-- A local operation that has been set out is there with its reply at the end. -/
theorem State.Course.sent (c : s.Course ((a.localReply (s.issQ u h) instr lanes wait).countLocal (s.issQ u h).w.core n) t (s.issQ u h) x w) (stands : Stands s)
    (nextId : a.nextId = s.nextId) : (∃ o ∈ t.ops, o.id = s.nextId ∧ o.wave = s.cur.wave ∧ o.instr = instr ∧ o.nout = 1 ∧ o.out = lanes)
      ∧ ∃ r ∈ t.reps, r.op = s.nextId ∧ r.kind = .done := by
  have at' := State.localReply_eq a (s.issQ u h) instr lanes wait
  have ops : t.ops = (a.localSend (s.issQ u h) instr lanes wait).ops :=
    (congrArg State.ops c.settles.rest :).trans (congrArg State.ops at' :)
  have reps : t.reps = (a.localSend (s.issQ u h) instr lanes wait).reps :=
    (congrArg State.reps c.settles.rest :).trans (congrArg State.reps at' :)
  obtain ⟨-, name, -, -⟩ := stands.wave
  rw [ops, reps]
  refine ⟨⟨_, List.mem_append_right _ (.head _), nextId, (issQ_w s u h).1.trans name, rfl, rfl, rfl⟩, _, List.mem_append_right _ (.head _), nextId, rfl⟩

theorem State.Course.replies (c : s.Course ((a.localReply (s.issQ u h) instr lanes wait).countLocal (s.issQ u h).w.core n) t (s.issQ u h) x w) (stands : Stands s)
    (nextId : a.nextId = s.nextId) {vals : Nat → Nat}
    (values : lanes.map (fun l => (l.lane, l.data.toNat)) = (lanesOf (s.issQ u h).part).map fun l => (l, vals l)) : Replies s t (s.issQ u h) instr vals := by
  obtain ⟨⟨o, ho, id, wave, kind, out, data⟩, reply⟩ := c.sent stands nextId
  exact ⟨⟨o, ho, id, wave, kind, out, data ▸ values⟩, reply⟩

/-- Local memory is not touched by a reply that is set out. -/
theorem State.Course.lmem_of_reply {i : Iss} {m : Nat} (c : s.Course ((a.localReply i instr lanes wait).countLocal m n) t i x w) (team : Nat) :
    t.team team = a.team team := by
  rw [c.settles.team, State.localReply_eq]
  rfl

/-- The fragment waits for its operation, or for its tile, exactly where its load owes a region entry. -/
theorem awaitsEntry_of_own {k : Wait} (issuing : Issuing s)
    (own : (s.ownFrag t).bare = (Frag.awaits ((s.issQ u h).owesEntry u) k s.clock (Frag.passed s (s.issQ u h).f)).bare) : AwaitsEntry s t (s.issQ u h) u k := by
  obtain ⟨running, free⟩ := issuing.runs
  rw [AwaitsEntry]
  cases owes : (s.issQ u h).owesEntry u with
  | true =>
    rw [owes] at own
    exact ⟨(congrArg Frag.st own :), (congrArg Frag.wait own :)⟩
  | false =>
    rw [owes, issQ_f] at own
    exact ⟨(congrArg Frag.st own :).trans running, (congrArg Frag.wait own :).trans free⟩

/-- A fragment that has moved on and then waits, if its load makes it wait. -/
theorem frag_passed_awaits (stands : Stands s) (wait : Bool) (k : Wait) :
    (((s.wave s.cur.wave).modFrag s.cur.entry (Frag.passed s)).modFrag s.cur.entry (Frag.awaits wait k s.clock)).frag s.cur.entry =
      Frag.awaits wait k s.clock (Frag.passed s (s.issQ u h).f) := by
  obtain ⟨-, -, -, mine⟩ := stands.wave
  rw [issQ_f, Wave.frag_modFrag_self _ (Frag.awaits wait k s.clock) (Frag.awaits_entry wait k s.clock)
      ((Wave.stands_iff (Wave.modFrag_entries _ _ (g := Frag.passed s) fun _ => rfl) _).mpr mine),
    Wave.frag_modFrag_self _ (Frag.passed s) (fun _ => rfl) mine]

theorem passedOn_lmem (s : State) (u : Uses) (h : Hdr) (n : Nat) : ((s.passedOn u h).team n).lmem = (s.team n).lmem := by
  show ((if (s.issOf h).part = 0 then s else (s.popQueue (s.issOf h).w u).2).team n).lmem = _
  split
  · rfl
  · rcases popQueue_cases s (s.issOf h).w u with ⟨same, -⟩ | ⟨q, e, r, -, -, popped⟩
    · rw [same]
    · rw [popped]
      rcases s.team_modTeam_or (s.issOf h).w.team n fun t => { t with q := Tab.set t.q q r } with same | ⟨-, same⟩ <;> rw [same]

theorem passedOn_nextId (s : State) (u : Uses) (h : Hdr) : (s.passedOn u h).nextId = s.nextId := by
  rw [State.passedOn, State.modFrag, State.modWave_nextId, popped_rest]

end

end Sys2Proof.Machine

/-! SUPPORT. The local unit's instructions (R217, R249 to R252, R297, R298, R307), and the settled statement. -/

namespace Sys2Proof.Machine

/-- An access of the local unit that nothing holds back or stops has its effect. -/
theorem localBody_go {n : Nat} {a : Src} {off : BitVec 32} {store : Bool} {eff : Iss → State → State → State} {i : Iss} {s : State} (act : i.part ≠ 0)
    (ok : LocalOk s i a off n store) : localBody n a off store eff i s = .go fun t => (eff i s t).countLocal i.w.core (localExtra i n a off) := by
  obtain ⟨-, free, lanes, quiet⟩ := ok
  have good : localBad i (s.team i.w.team).lsize n a off = none := by
    have lane {l : Nat} (hl : l ∈ lanesOf i.part) := lanes l ((mem_lanesOf ..).mp hl)
    have inside : (lanesOf i.part).any (fun l => decide (localAt i a off l < 0) || decide (((s.team i.w.team).lsize : Int) < localAt i a off l + n)) = false := by
      rw [List.any_eq_false]
      intro l hl
      obtain ⟨low, high, -⟩ := lane hl
      simpa using ⟨low, high⟩
    have aligned : (lanesOf i.part).any (fun l => decide (localAt i a off l % n ≠ 0)) = false := by
      rw [List.any_eq_false]
      intro l hl
      have mult : localAt i a off l % n = 0 := (lane hl).2.2
      simpa using mult
    rw [localBad, inside, aligned]
    rfl
  rw [localBody, if_neg act, free, good]
  dsimp only
  rw [quiet]
  rfl

theorem localBody_idle {n : Nat} {a : Src} {off : BitVec 32} {store : Bool} {eff : Iss → State → State → State} {i : Iss} {s : State} (idle : i.part = 0) :
    localBody n a off store eff i s = .go id := if_pos idle

section
variable {m : Sem} {also : State → State → Iss → Prop} {s a b : State} {u : Uses}

/-- An instruction whose reply is set out, after an effect that leads from the reads to `b`. -/
theorem Sem.acts_of_reply (issuing : Issuing s) (srcs : u.srcs = m.u.srcs) (vl : u.vl = true) (act : (s.issQ m.u m.h).part ≠ 0)
    (out : (m.more (s.issQ m.u m.h)).out = true ∧ (m.more (s.issQ m.u m.h)).own = true ∧ (m.more (s.issQ m.u m.h)).split = false)
    (sat : m.sat (s.issQ m.u m.h) = false)
    (c : s.Course a b (s.issQ m.u m.h) (m.writes (s.issQ m.u m.h)) ((s.wave s.cur.wave).modFrag s.cur.entry (Frag.passed s)))
    (nextId : a.nextId = s.nextId) (waves : b.waves = (s.afterIssue u m.h).waves) {instr : Instr} {lanes : List LaneAcc} {wait : Bool} {n : Nat}
    (waits : wait = true ∨ wait = (s.issQ m.u m.h).owesEntry u) {eff : State → State}
    (does : eff (s.afterIssue u m.h) = (b.localReply (s.issQ m.u m.h) instr lanes wait).countLocal (s.issQ m.u m.h).w.core n)
    (also' : ∀ t, s.Course ((a.localReply (s.issQ m.u m.h) instr lanes wait).countLocal (s.issQ m.u m.h).w.core n) t (s.issQ m.u m.h) (m.writes (s.issQ m.u m.h))
        (((s.wave s.cur.wave).modFrag s.cur.entry (Frag.passed s)).modFrag s.cur.entry (Frag.awaits wait (.op s.nextId) s.clock)) →
      (s.ownFrag t).bare = (Frag.awaits wait (.op s.nextId) s.clock (Frag.passed s (s.issQ m.u m.h).f)).bare →
      (∀ n ∈ u.dv, Awaits (t.wave s.cur.wave) n) → also s t (s.issQ m.u m.h)) : ∃ a w, m.Acts u also s eff a w := by
  obtain ⟨here, -, -, -⟩ := issuing.wave
  obtain ⟨sends, own, whole⟩ := out
  have writes : m.writes (s.issQ m.u m.h) = _ := if_neg act
  have sees : s.issQ u m.h = s.issQ m.u m.h := by simp only [State.issQ, State.popQueue, srcs]
  have c' := (c.localReply issuing.toStands nextId (by rw [writes]; exact sends) instr lanes wait).countLocal n
  have at' := frag_passed_awaits (u := m.u) (h := m.h) issuing.toStands wait (.op s.nextId)
  have aims : (s.wave s.cur.wave).Aims (((s.wave s.cur.wave).modFrag s.cur.entry (Frag.passed s)).modFrag s.cur.entry
      (Frag.awaits wait (.op s.nextId) s.clock)) s.cur.entry (m.writes (s.issQ m.u m.h)) :=
    (Wave.Aims.passed s _ (by rw [writes]; exact sat) (by rw [writes]; exact whole)).modFrag (Frag.awaits_kept wait (.op s.nextId) s.clock) fun stays => by
      rw [writes] at stays
      rw [own] at stays
      cases stays
  have ended := c'.finish_eq u aims act
  have noEntry : ((s.issQ m.u m.h).owesEntry u && !(Frag.awaits wait (.op s.nextId) s.clock (Frag.passed s (s.issQ m.u m.h).f)).busy) = false := by
    cases wait with
    | true => exact Bool.and_false _
    | false => rw [← waits.resolve_left Bool.false_ne_true]; rfl
  rw [at', noEntry, if_neg Bool.false_ne_true, ← does] at ended
  rw [← does] at c'
  refine ⟨_, _, c', aims, ?_, also' _ (c'.finish u) ?_ ?_⟩
  · rw [at', Frag.awaits_pc, issQ_f]; rfl
  · rw [← at']; exact (c'.finish u).own
  · refine (awaits_of_files (u := u) (h := m.h) here vl (sees ▸ act) ?_).1
    rw [ended, does, State.localReply_eq]
    show ((State.modFrag _ _ _).wave _).files = _
    rw [State.modFrag_files]
    simp only [State.wave, State.localSend, waves]

end

/-- A lane's bytes of local memory fit a lane's data. -/
theorem toNat_num (m : Memory) (p : Nat) {n : Nat} (small : n ≤ 16) : (BitVec.ofNat 512 (m.num p n)).toNat = m.num p n := by
  have low := num_lt m p n
  have high : 256 ^ n ≤ 256 ^ 16 := Nat.pow_le_pow_right (by decide) small
  rw [BitVec.toNat_ofNat, Nat.mod_eq_of_lt (by omega)]

/-- The writes of an `STS`, a list for each lane. -/
def stsWrites (x : Sts) (i : Iss) : List (Nat × List (Nat × Byte)) :=
  (lanesOf i.part).map fun l => (l, addrs (localAt i x.a x.off l).toNat (leBytes x.sz.bytes (storeNum i x.conv x.sz.bytes x.b l).1))

/-- A byte that an `STS` writes is a lane's, and is that lane's byte of its data. -/
theorem mem_stsWrites {x : Sts} {i : Iss} {s : State} {e : Nat × Byte} (low : ∀ l, i.part.getLsbD l = true → 0 ≤ localOff i x.a x.off l) :
    e ∈ (s.writeOrder (stsWrites x i)).flatMap Prod.snd ↔ ∃ l, inLane i x.a x.off x.sz.bytes l e.1 = true ∧
      e.2 = BitVec.ofNat 8 ((storeNum i x.conv x.sz.bytes x.b l).1 / 256 ^ (e.1 - (localOff i x.a x.off l).toNat)) := by
  have at' (l : Nat) : localAt i x.a x.off l = localOff i x.a x.off l := rfl
  simp only [List.mem_flatMap, mem_writeOrder, stsWrites, List.mem_map, mem_lanesOf, at']
  constructor
  · rintro ⟨-, ⟨l, set, rfl⟩, he⟩
    obtain ⟨j, hj, rfl⟩ := mem_addrs.mp he
    rw [leBytes_length] at hj
    have := low l set
    refine ⟨l, ?_, ?_⟩
    · simp only [inLane, set, Bool.true_and, Bool.and_eq_true, decide_eq_true_eq]
      omega
    · rw [leBytes_getD hj, Nat.add_sub_cancel_left]
  · rintro ⟨l, inside, holds⟩
    simp only [inLane, Bool.and_eq_true, decide_eq_true_eq] at inside
    obtain ⟨⟨set, first⟩, last⟩ := inside
    have := low l set
    refine ⟨_, ⟨l, set, rfl⟩, mem_addrs.mpr ⟨e.1 - (localOff i x.a x.off l).toNat, ?_, ?_⟩⟩
    · rw [leBytes_length]; omega
    · rw [leBytes_getD (by omega), ← holds, Nat.add_sub_cancel' (by omega)]

/-- A team whose local memory has a size stands in the tables: a write of its local memory is one. -/
theorem setLmem_lmem {a : State} {n : Nat} (sized : 0 < (a.team n).lsize) (f : Memory → Memory) : ((a.setLmem n f).team n).lmem = f (a.team n).lmem := by
  have here : (Tab.get? a.teams n).isSome = true := by
    by_contra gone
    rw [State.team, Tab.getD, show Tab.get? a.teams n = none by simpa using gone] at sized
    exact absurd sized (Nat.lt_irrefl 0)
  rw [State.setLmem, State.team_modTeam _ _ _ _ here, if_pos rfl]

section
variable {s a b : State} {i : Iss} {x : Writes} {w : Wave} (c : s.Course a b i x w)
include c

theorem State.Course.setSat (set : Bool) : s.Course (a.setSat s.cur.wave set) (b.setSat s.cur.wave set) i x (w.setSat set) := by
  cases set with
  | false => exact c
  | true =>
    exact c.modWave (f := fun w => w.setSat true) (fun v w st => { st with still := congrArg (fun z : Wave => { z with flags := z.flags ||| 1 }) st.still })
      fun _ => rfl

end

theorem Wave.Aims.setSat {v w : Wave} {e : Nat} {x : Writes} (a : v.Aims w e { x with sat := false }) {set : Bool} (sat : x.sat = set) :
    v.Aims (w.setSat set) e x := by
  have flags : w.flags = v.flags := a.flags
  cases set with
  | false => exact { same := a.same, tile := a.tile, frag := a.frag, own := a.own, waits := a.waits, whole := a.whole, flags := by rw [sat]; exact flags }
  | true =>
    exact { tile := a.tile, frag := a.frag, own := a.own, waits := a.waits, whole := a.whole
            same := congrArg (fun z : Wave => { z with flags := w.flags ||| 1 }) a.same
            flags := by rw [sat, ← flags]; rfl }

theorem Wave.Aims.passed_setSat (s : State) (w : Wave) {e : Nat} {x : Writes} {set : Bool} (whole : x.split = false) (sat : x.sat = set) :
    w.Aims ((w.modFrag e (Frag.passed s)).setSat set) e x :=
  Wave.Aims.setSat (.passed s w (x := { x with sat := false }) rfl whole) sat

theorem inLanes_eq_true {i : Iss} {a : Src} {off : BitVec 32} {n b : Nat} : inLanes i a off n b = true ↔ ∃ l, inLane i a off n l b = true := by
  rw [inLanes, List.any_eq_true]
  constructor
  · rintro ⟨l, -, hl⟩
    exact ⟨l, hl⟩
  · rintro ⟨l, hl⟩
    have set : i.part.getLsbD l = true := by
      simp only [inLane, Bool.and_eq_true] at hl
      exact hl.1.1
    exact ⟨l, List.mem_range.mpr (BitVec.lt_of_getLsbD set), hl⟩

/-- The effect of an `STS`. -/
def stsEff (x : Sts) (s : State) (i : Iss) (t : State) : State :=
  let t := t.setLmem i.w.team fun m => putBytes m ((s.writeOrder (stsWrites x i)).flatMap Prod.snd)
  { t.setSat i.w.id (storeSat x.conv x.sz.bytes x.b i) with free := t.free + 64 }

theorem stsEff_course {s a b : State} {u : Uses} {h : Hdr} {wr : Writes} {w : Wave} {x : Sts} (c : s.Course a b (s.issQ u h) wr w) (stands : Stands s)
    (low : ∀ l, (s.issQ u h).part.getLsbD l = true → 0 ≤ localOff (s.issQ u h) x.a x.off l) (loc : wr.loc = inLanes (s.issQ u h) x.a x.off x.sz.bytes) :
    s.Course (stsEff x s (s.issQ u h) a) (stsEff x s (s.issQ u h) b) (s.issQ u h) wr (w.setSat (storeSat x.conv x.sz.bytes x.b (s.issQ u h))) := by
  obtain ⟨-, name, -, -⟩ := stands.wave
  have wrote := c.setLmem (f := fun m => putBytes m ((s.writeOrder (stsWrites x (s.issQ u h))).flatMap Prod.snd)) fun b' out =>
    get_putBytes_out _ _ fun e he at' => by
      obtain ⟨l, inside, -⟩ := (mem_stsWrites low).mp he
      rw [at'] at inside
      rw [loc, inLanes_eq_true.mpr ⟨l, inside⟩] at out
      cases out
  have sat := (wrote.setSat (storeSat x.conv x.sz.bytes x.b (s.issQ u h))).addFree 64
  have free (t : State) (set : Bool) : (t.setSat s.cur.wave set).free = t.free := by cases set <;> rfl
  rw [free, free] at sat
  unfold stsEff
  dsimp only
  rw [(issQ_w s u h).1, name]
  exact sat

theorem Wave.frag_setSat (w : Wave) (set : Bool) (e : Nat) : (w.setSat set).frag e = w.frag e := by cases set <;> rfl

/-- Every byte that a lane of an `STS` touches holds in the end what one of them stores there (R307). -/
theorem sts_lands {x : Sts} {s a t : State} {i : Iss} {wr : Writes} {w : Wave} {n : Nat} (c : s.Course ((stsEff x s i a).countLocal i.w.core n) t i wr w)
    (sized : 0 < (a.team i.w.team).lsize) (low : ∀ l, i.part.getLsbD l = true → 0 ≤ localOff i x.a x.off l) {b : Nat}
    (inside : inLanes i x.a x.off x.sz.bytes b = true) : ∃ l, inLane i x.a x.off x.sz.bytes l b = true ∧
      (t.team i.w.team).lmem.get b = BitVec.ofNat 8 ((storeNum i x.conv x.sz.bytes x.b l).1 / 256 ^ (b - (localOff i x.a x.off l).toNat)) := by
  obtain ⟨l, lane⟩ := inLanes_eq_true.mp inside
  have written : ∃ e ∈ (s.writeOrder (stsWrites x i)).flatMap Prod.snd, e.1 = b :=
    ⟨(b, BitVec.ofNat 8 ((storeNum i x.conv x.sz.bytes x.b l).1 / 256 ^ (b - (localOff i x.a x.off l).toNat))), (mem_stsWrites low).mpr ⟨l, lane, rfl⟩, rfl⟩
  obtain ⟨e, he, rfl, holds⟩ := get_putBytes_in (a.team i.w.team).lmem _ written
  obtain ⟨l', lane', byte⟩ := (mem_stsWrites low).mp he
  have lmem : (t.team i.w.team).lmem = putBytes (a.team i.w.team).lmem ((s.writeOrder (stsWrites x i)).flatMap Prod.snd) := by
    rw [c.settles.team, ← setLmem_lmem sized fun m => putBytes m ((s.writeOrder (stsWrites x i)).flatMap Prod.snd)]
    unfold stsEff
    cases storeSat x.conv x.sz.bytes x.b i <;> rfl
  exact ⟨l', lane', by rw [lmem, holds, byte]⟩

/-- An access of the local unit lies in a local memory with a size. -/
theorem LocalOk.sized {s : State} {i : Iss} {a : Src} {off : BitVec 32} {n : Nat} {store : Bool} (ok : LocalOk s i a off n store) (act : i.part ≠ 0)
    (some' : 0 < n) : 0 < (s.team i.w.team).lsize := by
  obtain ⟨l, set⟩ : ∃ l, i.part.getLsbD l = true := by
    by_contra none'
    exact act (BitVec.eq_of_getLsbD_eq fun l _ => by simpa using fun set => none' ⟨l, set⟩)
  obtain ⟨low, high, -⟩ := ok.2.2.1 l set
  omega

/-! ### Atomics (R292, R298) -/

/-- What an `ATOMS` uses. -/
def atomsUses (x : Atoms) : Uses :=
  { srcs := [su false x.a, su x.op.w64 x.b] ++ (x.c.toList.map fun c => su x.op.w64 c), dv := regsFrom x.d ((if x.op.w64 then 8 else 4) / 4), vl := true
    atom := true, cls := .mem }

/-- A lane of an `ATOMS`: its word takes the operation's result, and the value before it goes to the lane. -/
def atomsStep (x : Atoms) (i : Iss) (a : Memory × List LaneAcc) (l : Nat) : Memory × List LaneAcc :=
  let n := if x.op.w64 then 8 else 4
  let v (a : Src) (l : Nat) : Nat := if x.op.w64 then (i.v64 a l).toNat else (i.v32 a l).toNat
  let p := (localAt i x.a x.off l).toNat
  let old := a.1.num p n
  (a.1.setNum p n (localApply x.op old (v x.b l) ((x.c.map fun c => v c l).getD 0)), a.2 ++ [{ lane := l, va := 0, data := BitVec.ofNat 512 old }])

theorem atomsLanes_eq (x : Atoms) (i : Iss) (m : Memory) : atomsLanes x i m = (lanesOf i.part).foldl (atomsStep x i) (m, []) := rfl

section
variable {x : Atoms} {i : Iss}

/-- The bytes of no lane's word are as they were. -/
theorem atoms_get_out {b : Nat} (ls : List Nat) (a : Memory × List LaneAcc)
    (out : ∀ l ∈ ls, b < (localAt i x.a x.off l).toNat ∨ (localAt i x.a x.off l).toNat + (if x.op.w64 then 8 else 4) ≤ b) :
    (ls.foldl (atomsStep x i) a).1.get b = a.1.get b := by
  induction ls generalizing a with
  | nil => rfl
  | cons l ls ih =>
    refine (ih _ fun k hk => out k (.tail _ hk)).trans ?_
    exact Memory.get_setBytes_out _ _ (by rw [leBytes_length]; exact out l (.head _))

theorem atoms_num_out {p : Nat} (ls : List Nat) (a : Memory × List LaneAcc)
    (apart : ∀ l ∈ ls, p + (if x.op.w64 then 8 else 4) ≤ (localAt i x.a x.off l).toNat ∨ (localAt i x.a x.off l).toNat + (if x.op.w64 then 8 else 4) ≤ p) :
    (ls.foldl (atomsStep x i) a).1.num p (if x.op.w64 then 8 else 4) = a.1.num p (if x.op.w64 then 8 else 4) := by
  induction ls generalizing a with
  | nil => rfl
  | cons l ls ih =>
    refine (ih _ fun k hk => apart k (.tail _ hk)).trans ?_
    exact num_setNum_ne _ _ (apart l (.head _))

theorem atoms_keeps {y : LaneAcc} (ls : List Nat) (a : Memory × List LaneAcc) (hy : y ∈ a.2) : y ∈ (ls.foldl (atomsStep x i) a).2 := by
  induction ls generalizing a with
  | nil => exact hy
  | cons l ls ih => exact ih _ (List.mem_append_left _ hy)

/-- A lane whose word no other lane's touches takes it as it was, and leaves the operation's result in it. -/
theorem atoms_lane {l : Nat} {ls : List Nat} (hl : l ∈ ls) (once : ls.Nodup) (m : Memory)
    (apart : ∀ k ∈ ls, k ≠ l → (localAt i x.a x.off l).toNat + (if x.op.w64 then 8 else 4) ≤ (localAt i x.a x.off k).toNat
      ∨ (localAt i x.a x.off k).toNat + (if x.op.w64 then 8 else 4) ≤ (localAt i x.a x.off l).toNat) :
    let n := if x.op.w64 then 8 else 4
    let v (a : Src) (l : Nat) : Nat := if x.op.w64 then (i.v64 a l).toNat else (i.v32 a l).toNat
    let p := (localAt i x.a x.off l).toNat
    (ls.foldl (atomsStep x i) (m, [])).1.num p n = localApply x.op (m.num p n) (v x.b l) ((x.c.map fun c => v c l).getD 0) % 256 ^ n
      ∧ ∃ y ∈ (ls.foldl (atomsStep x i) (m, [])).2, y.lane = l ∧ y.data = BitVec.ofNat 512 (m.num p n) := by
  intro n v p
  obtain ⟨before, after, rfl⟩ := List.append_of_mem hl
  have other {k : Nat} (hk : k ∈ before ∨ k ∈ after) : k ≠ l := by
    rintro rfl
    obtain ⟨-, later, differ⟩ := List.nodup_append.mp once
    rcases hk with hk | hk
    · exact differ _ hk _ (.head _) rfl
    · exact (List.nodup_cons.mp later).1 hk
  have first : (before.foldl (atomsStep x i) (m, [])).1.num p n = m.num p n :=
    atoms_num_out before (m, []) fun k hk => apart k (List.mem_append_left _ hk) (other (.inl hk))
  rw [List.foldl_append, List.foldl_cons]
  constructor
  · refine (atoms_num_out after _ fun k hk => apart k (List.mem_append_right _ (.tail _ hk)) (other (.inr hk))).trans ?_
    show ((before.foldl (atomsStep x i) (m, [])).1.setNum p n _).num p n = _
    rw [Memory.num_setNum, first]
  · have goes := atoms_keeps (x := x) (i := i) (y := { lane := l, va := 0, data := BitVec.ofNat 512 ((before.foldl (atomsStep x i) (m, [])).1.num p n) }) after
      (atomsStep x i (before.foldl (atomsStep x i) (m, [])) l) (List.mem_append_right _ (.head _))
    exact ⟨_, goes, rfl, congrArg (BitVec.ofNat 512) first⟩

end

theorem lanesOf_nodup (m : Mask) : (lanesOf m).Nodup := List.nodup_range.filter _

/-- Two accesses at different aligned places in local memory are apart. -/
theorem apart_of_offsets {a b : Int} {n : Nat} (ha : 0 ≤ a) (hb : 0 ≤ b) (alignA : a % n = 0) (alignB : b % n = 0) (other : a ≠ b) :
    a.toNat + n ≤ b.toNat ∨ b.toNat + n ≤ a.toNat := by
  obtain ⟨p, rfl⟩ := Int.eq_ofNat_of_zero_le ha
  obtain ⟨q, rfl⟩ := Int.eq_ofNat_of_zero_le hb
  exact apart_of_aligned (by exact_mod_cast alignA) (by exact_mod_cast alignB) fun same => other (congrArg _ same)

/-- A lane of an `ATOMS` whose word no other lane touches (R298). -/
theorem atoms_alone {x : Atoms} {s : State} {i : Iss} (ok : LocalOk s i x.a x.off (if x.op.w64 then 8 else 4) true) {l : Nat} (set : i.part.getLsbD l = true)
    (alone : ∀ k, k ≠ l → i.part.getLsbD k = true → localOff i x.a x.off k ≠ localOff i x.a x.off l) (m : Memory) :
    let n := if x.op.w64 then 8 else 4
    let v (a : Src) (l : Nat) : Nat := if x.op.w64 then (i.v64 a l).toNat else (i.v32 a l).toNat
    let p := (localOff i x.a x.off l).toNat
    (atomsLanes x i m).1.num p n = localApply x.op (m.num p n) (v x.b l) ((x.c.map fun c => v c l).getD 0) % 2 ^ (8 * n)
      ∧ ∃ y ∈ (atomsLanes x i m).2, y.lane = l ∧ y.data.toNat = m.num p n := by
  intro n v p
  obtain ⟨-, -, lanes, -⟩ := ok
  obtain ⟨low, -, align⟩ := lanes l set
  obtain ⟨result, y, hy, lane, old⟩ := atoms_lane (x := x) (i := i) ((mem_lanesOf ..).mpr set) (lanesOf_nodup _) m fun k hk other => by
    have set' := (mem_lanesOf ..).mp hk
    obtain ⟨low', -, align'⟩ := lanes k set'
    exact apart_of_offsets low low' align align' (alone k other set').symm
  rw [atomsLanes_eq]
  refine ⟨?_, y, hy, lane, ?_⟩
  · rw [pow_mul]
    exact result
  · rw [old]
    exact toNat_num m p (show n ≤ 16 by unfold n; split <;> decide)

/-- No byte of local memory outside the lanes' words is changed (R298). -/
theorem atomsLanes_out {x : Atoms} {s : State} {i : Iss} (ok : LocalOk s i x.a x.off (if x.op.w64 then 8 else 4) true) (m : Memory) {b : Nat}
    (out : inLanes i x.a x.off (if x.op.w64 then 8 else 4) b = false) : (atomsLanes x i m).1.get b = m.get b := by
  rw [atomsLanes_eq]
  refine atoms_get_out _ _ fun l hl => ?_
  have set := (mem_lanesOf ..).mp hl
  obtain ⟨low, -, -⟩ := ok.2.2.1 l set
  by_contra inside
  have lane : inLane i x.a x.off (if x.op.w64 then 8 else 4) l b = true := by
    have low : 0 ≤ localAt i x.a x.off l := low
    simp only [inLane, set, Bool.true_and, Bool.and_eq_true, decide_eq_true_eq]
    show localAt i x.a x.off l ≤ b ∧ (b : Int) < localAt i x.a x.off l + _
    omega
  rw [inLanes_eq_true.mpr ⟨l, lane⟩] at out
  cases out

/-! ### Tiles (R250 to R252) -/

/-- An access of a tile that nothing holds back or stops has its effect. -/
theorem tileBody_go {s : State} {i : Iss} {x : TileMem} {store : Bool} (ok : localSem.TileOk s i x store) (eff : State → State) :
    (if s.memHeld i then Body.stall
      else match tileBad x.sw (i.s64 x.a).toNat (s.team i.w.team).lsize with
        | some c => .trap c {}
        | none => if s.localBusy i.w store [((i.s64 x.a).toNat, 2048)] then .stall else .go eff) = .go eff := by
  obtain ⟨free, align, inside, quiet⟩ := ok
  have good : tileBad x.sw (i.s64 x.a).toNat (s.team i.w.team).lsize = none := by
    rw [tileBad, if_neg (not_not.mpr align), if_neg (Nat.not_lt.mpr inside)]
  rw [free, good, quiet]
  rfl

/-- The place in its image that a byte of a tile comes from, transposed or not (R251). -/
def tileAt (tr : Bool) (b : Nat) : Nat := if tr then 64 * (b / 2 % 32) + 2 * (b / 64) + b % 2 else b

theorem tileAt_lt (tr : Bool) {b : Nat} (inside : b < 2048) : tileAt tr b < 2048 := by
  cases tr with
  | false => exact inside
  | true =>
    show 64 * (b / 2 % 32) + 2 * (b / 64) + b % 2 < 2048
    omega

/-- Of the first numbers' values as an array, and as a memory's bytes, one is found at its number. -/
theorem getD_map_range {α : Type} (f : Nat → α) {n j : Nat} (inside : j < n) {d : α} : ((List.range n).map f).toArray.getD j d = f j := by simp [inside]

theorem get_ofBytes_map_range (f : Nat → Byte) {n j : Nat} (inside : j < n) : (Memory.ofBytes 0 ((List.range n).map f)).get j = f j := by
  simp [Memory.get_ofBytes, inside]

/-- The tile of an image: each byte comes from its place there. -/
theorem get_tileOf (tr sw : Bool) (m : Memory) (base : Nat) {b : Nat} (inside : b < 2048) :
    (tileOf tr sw m base).get b = m.get (base + tileSwz sw (tileAt tr b)) := by
  rw [tileOf, get_ofBytes_map_range _ inside, ← getD_map_range (fun x => m.get (base + tileSwz sw x)) (tileAt_lt tr inside) (d := 0)]
  cases tr <;> simp only [tileAt, Bool.false_eq_true, if_false, if_true]

/-- Writes at a tile's places, in turn. -/
theorem foldl_set_eq_putBytes (m : Memory) (n : Nat) (p : Nat → Nat) (v : Nat → Byte) :
    (List.range n).foldl (fun m k => m.set (p k) (v k)) m = putBytes m ((List.range n).map fun k => (p k, v k)) := by
  rw [putBytes, List.foldl_map]

/-- What an `STT` leaves in local memory. -/
def sttMem (x : TileMem) (i : Iss) (m : Memory) : Memory :=
  (List.range 2048).foldl (fun m k => m.set ((i.s64 x.a).toNat + tileSwz x.sw k) ((i.w.tile x.t.toNat).get k)) m

theorem sttMem_out {x : TileMem} {i : Iss} (m : Memory) {b : Nat} (out : b < (i.s64 x.a).toNat ∨ (i.s64 x.a).toNat + 2048 ≤ b) :
    (sttMem x i m).get b = m.get b := by
  rw [sttMem, foldl_set_eq_putBytes]
  refine get_putBytes_out _ _ fun e he => ?_
  obtain ⟨k, hk, rfl⟩ := List.mem_map.mp he
  have := tileSwz_lt x.sw (List.mem_range.mp hk)
  show (i.s64 x.a).toNat + tileSwz x.sw k ≠ b
  omega

theorem sttMem_in {x : TileMem} {i : Iss} (m : Memory) {b : Nat} (inside : b < 2048) :
    (sttMem x i m).get ((i.s64 x.a).toNat + tileSwz x.sw b) = (i.w.tile x.t.toNat).get b := by
  rw [sttMem, foldl_set_eq_putBytes]
  obtain ⟨e, he, at', holds⟩ := get_putBytes_in m _ ⟨_, List.mem_map_of_mem (List.mem_range.mpr inside), rfl⟩
  obtain ⟨k, -, rfl⟩ := List.mem_map.mp he
  rw [holds, tileSwz_inj (Nat.add_left_cancel at')]

theorem stt_lands {x : TileMem} {s a t : State} {i : Iss} {wr : Writes} {w : Wave} {n : Nat}
    (c : s.Course ((a.setLmem i.w.team (sttMem x i)).countLocal i.w.core n) t i wr w) (sized : 0 < (a.team i.w.team).lsize) {b : Nat} (inside : b < 2048) :
    (t.team i.w.team).lmem.get ((i.s64 x.a).toNat + tileSwz x.sw b) = (i.w.tile x.t.toNat).get b := by
  rw [c.settles.team]
  show ((a.setLmem i.w.team (sttMem x i)).team i.w.team).lmem.get _ = _
  rw [setLmem_lmem sized, sttMem_in _ inside]

/-- A tile that starts to fill (R252). -/
def Wave.fill (w : Wave) (n : Nat) (m : Memory) : Wave := { w with t := Tab.set w.t n m, tfill := w.tfill ++ [n], towed := w.towed ++ [n] }

theorem Wave.Stays.fill {v w : Wave} {hm : Bool} {e : Nat} {mv ms : List Nat} (st : v.Stays w hm e mv ms) (n : Nat) (m : Memory) :
    (v.fill n m).Stays (w.fill n m) hm e mv ms :=
  { st with still := congrArg (fun z : Wave => { z with t := Tab.set z.t n m, tfill := z.tfill ++ [n] }) st.still }

theorem Wave.tile_fill (w : Wave) (n : Nat) (m : Memory) (k : Nat) : (w.fill n m).tile k = if n = k then m else w.tile k := Tab.getD_set _ _ _ _ _

theorem Wave.Aims.fill {v w : Wave} {e : Nat} {x : Writes} (a : v.Aims w e x) {n : Nat} (m : Memory) (writes : n ∈ x.tiles) : v.Aims (w.fill n m) e x :=
  { flags := a.flags, frag := a.frag, own := a.own, waits := a.waits, whole := a.whole
    same := congrArg (fun z : Wave => z.fill n m) a.same
    tile := fun k out => by
      have other : k ≠ n := fun same => out (same ▸ writes)
      obtain ⟨same, fills⟩ := a.tile k out
      rw [Wave.tile_fill, if_neg other.symm]
      refine ⟨same, ?_⟩
      show k ∈ w.tfill ++ [n] ↔ _
      rw [List.mem_append, List.mem_singleton, or_iff_left other, fills] }

/-- The effect of an `LDT` or `LDTT`. -/
def tileEff (tr : Bool) (x : TileMem) (s : State) (i : Iss) (t : State) : State :=
  ((t.modWave i.w.id fun w => w.fill x.t.toNat (tileOf tr x.sw (s.lmem i.w.team) (i.s64 x.a).toNat)).countLocal i.w.core
    (tileExtra tr x.sw (i.s64 x.a).toNat)).awaitIf (i.owesEntry (tileUses x)) ⟨i.w.id, i.f.entry⟩ (.tile x.t.toNat)

theorem tileEff_course {tr : Bool} {x : TileMem} {s a b : State} {u : Uses} {h : Hdr} {wr : Writes} {w : Wave} (c : s.Course a b (s.issQ u h) wr w)
    (stands : Stands s) : s.Course (tileEff tr x s (s.issQ u h) a) (tileEff tr x s (s.issQ u h) b) (s.issQ u h) wr
      ((w.fill x.t.toNat (tileOf tr x.sw (s.lmem (s.issQ u h).w.team) ((s.issQ u h).s64 x.a).toNat)).modFrag s.cur.entry
        (Frag.awaits ((s.issQ u h).owesEntry (tileUses x)) (.tile x.t.toNat) s.clock)) := by
  obtain ⟨-, name, -, -⟩ := stands.wave
  have filled := (c.modWave (f := fun w => w.fill x.t.toNat (tileOf tr x.sw (s.lmem (s.issQ u h).w.team) ((s.issQ u h).s64 x.a).toNat))
    (fun _ _ st => st.fill ..) fun _ => rfl).countLocal (tileExtra tr x.sw ((s.issQ u h).s64 x.a).toNat)
  unfold tileEff
  rw [State.awaitIf_eq, State.awaitIf_eq, issQ_ref stands, (issQ_w s u h).1, name, filled.clock, filled.clock']
  exact filled.awaits _ _

/-- A tile that fills stands so in the end, whatever the region entry drops. -/
theorem Wave.Stays.filled {v w : Wave} {hm : Bool} {e n : Nat} {m : Memory} {mv ms : List Nat} {g : Frag → Frag} (st : ((v.fill n m).modFrag e g).Stays w hm e mv ms) :
    n ∈ w.tfill ∧ w.tile n = m := by
  have t : w.t = Tab.set v.t n m := (congrArg Wave.t st.still :)
  have tfill : w.tfill = v.tfill ++ [n] := (congrArg Wave.tfill st.still :)
  rw [tfill, Wave.tile, t]
  exact ⟨List.mem_append_right _ (.head _), Tab.getD_set_self ..⟩

/-- What an `LDT` or `LDTT` says of its fragment and of its tile in the end. -/
def TileLoads (tr : Bool) (x : TileMem) (s t : State) (i : Iss) : Prop :=
  AwaitsEntry s t i (tileUses x) (.tile x.t.toNat) ∧ x.t.toNat ∈ (t.wave s.cur.wave).tfill ∧ ∀ b < 2048,
    ((t.wave s.cur.wave).tile x.t.toNat).get b = (s.team i.w.team).lmem.get ((i.s64 x.a).toNat + tileSwz x.sw (tileAt tr b))

/-- What an `LDT` or `LDTT` writes, and when it may go on. -/
def tileSem (x : TileMem) : Sem :=
  { h := x.h, u := tileUses x, ok := fun s i => localSem.TileOk s i x false, more := fun _ => { tiles := [x.t.toNat], own := true } }

theorem tileLoad_completes {tr : Bool} {x : TileMem} {instr : Instr} {s : State} {also : State → State → Iss → Prop} (runs : exec instr s = tileLoad tr x s)
    (has : ∀ t k, TileLoads tr x s t k → also s t k) : (tileSem x).CompletesAt instr also s := by
  refine Sem.completesAt_of (m := tileSem x) (u := tileUses x) ⟨rfl, rfl, rfl⟩ runs rfl (fun c => c) (fun _ => .inl rfl) ?_
  intro _ issuing _ _ act ok
  have stands := issuing.toStands
  obtain ⟨-, name, -, -⟩ := stands.wave
  have read := (tileSem x).course_read (u := tileUses x) stands rfl act rfl
  obtain ⟨sat, whole, own, -, -, tiles⟩ := (tileSem x).writes_of_acts act
  have course := tileEff_course (tr := tr) (x := x) read stands
  have at' := frag_passed_awaits (u := tileUses x) (h := x.h) stands ((s.issQ (tileUses x) x.h).owesEntry (tileUses x)) (.tile x.t.toNat)
  refine ⟨_, tileBody_go ok _, _, _, course, ?_, ?_, has _ _ ⟨?_, ?_, ?_⟩⟩
  · exact ((Wave.Aims.passed s _ sat whole).fill _ (by rw [tiles]; exact .head _)).modFrag (Frag.awaits_kept _ _ _) fun stays => by
      rw [own] at stays
      cases stays
  · exact (congrArg Frag.pc at').trans (by rw [Frag.awaits_pc, issQ_f]; rfl)
  · exact awaitsEntry_of_own issuing ((course.finish _).own.trans (congrArg Frag.bare at'))
  · exact (course.finish _).stays.filled.1
  · intro b inside
    exact (congrArg (fun m : Memory => m.get b) (course.finish _).stays.filled.2).trans (get_tileOf _ _ _ _ inside)

/-- Settles O22: each instruction comes from its reads to its effect step by step, local memory changes where a lane's word or the tile's lines are, and
what has been set out or fills stands so after a region entry too. -/
theorem localResults : Obligations.LocalResults := by
  unfold Obligations.LocalResults Sem.CompletesWith
  intro i m also sem s
  cases i <;> cases sem
  case lds x =>
    refine Sem.completesAt_of (u := ldsUses x) ⟨rfl, rfl, rfl⟩ (show exec (.lds x) s = execLds x s from rfl) rfl (fun c => c.owes true false)
      (fun idle => .inr (localBody_idle idle)) ?_
    intro _ issuing _ _ act ok
    refine ⟨_, localBody_go act ok, ?_⟩
    have read := Sem.course_read (m := _) (u := ldsUses x) issuing.toStands rfl act rfl
    apply Sem.acts_of_reply (u := ldsUses x) issuing rfl rfl act ⟨rfl, rfl, rfl⟩ rfl read (passedOn_nextId ..) rfl
    case does => exact rfl
    case waits => exact .inr rfl
    intro t c own awaits
    refine ⟨c.replies issuing.toStands (passedOn_nextId ..) ?_, awaits, awaitsEntry_of_own issuing own⟩
    rw [List.map_map]
    exact List.map_congr_left fun l _ => congrArg (Prod.mk l) (toNat_num _ _ (by cases x.sz <;> decide))
  case sts x =>
    refine Sem.completesAt_of (u := { srcs := [su false x.a, dataSU x.sz x.b], cls := .mem }) ⟨rfl, rfl, rfl⟩ (show exec (.sts x) s = execSts x s from rfl) rfl
      (fun c => c) (fun idle => .inr (localBody_idle idle)) ?_
    intro _ issuing _ _ act ok
    have read := Sem.course_read (m := _) (u := { srcs := [su false x.a, dataSU x.sz x.b], cls := .mem }) issuing.toStands rfl act rfl
    have low := fun l set => (ok.2.2.1 l set).1
    obtain ⟨sat, whole, -, -, loc, -⟩ := Sem.writes_of_acts (m := _) act
    have course := (stsEff_course (x := x) read issuing.toStands low loc).countLocal
    refine ⟨_, localBody_go act ok, _, _, course _, .passed_setSat s _ whole sat, ?_, fun b inside => ?_⟩
    · rw [Wave.frag_setSat, Wave.frag_modFrag_self _ (Frag.passed s) (fun _ => rfl) issuing.wave.2.2.2]
      rfl
    · refine sts_lands ((course _).finish _) ?_ low inside
      rw [read.aims.teams]
      exact ok.sized act (by cases x.sz <;> decide)
  case atoms x =>
    refine Sem.completesAt_of (u := atomsUses x)
      ⟨rfl, rfl, rfl⟩ (show exec (.atoms x) s = execAtoms x s from rfl) rfl (fun c => c.owes false true) (fun idle => .inr (localBody_idle idle)) ?_
    intro _ issuing _ _ act ok
    refine ⟨_, localBody_go act ok, ?_⟩
    have read := Sem.course_read (m := _) (u := atomsUses x) issuing.toStands rfl act rfl
    obtain ⟨-, -, -, -, loc, -⟩ := Sem.writes_of_acts (m := _) act
    have course := read.setLmem (f := fun _ => (atomsLanes x _ (s.lmem _)).1) fun b out => by
      rw [loc] at out
      rw [passedOn_lmem]
      exact atomsLanes_out ok _ out
    apply Sem.acts_of_reply (u := atomsUses x) issuing rfl rfl act ⟨rfl, rfl, rfl⟩ rfl course (passedOn_nextId ..) rfl
    case does => exact rfl
    case waits => exact .inl rfl
    intro t c own awaits
    refine ⟨(congrArg Frag.st own :), (congrArg Frag.wait own :), awaits, fun l set alone => ?_⟩
    obtain ⟨result, y, hy, lane, old⟩ := atoms_alone ok set alone (s.lmem _)
    have lmem := (congrArg Team.lmem (c.lmem_of_reply _)).trans (setLmem_lmem ?_ _)
    · rw [lmem]
      obtain ⟨⟨o, ho, id, -, -, -, out⟩, -⟩ := c.sent issuing.toStands (passedOn_nextId ..)
      exact ⟨result, o, ho, id, y, out ▸ hy, lane, old⟩
    · rw [read.aims.teams]
      exact ok.sized act (by split <;> decide)
  case ldt x => exact tileLoad_completes (tr := false) rfl fun t k loads => loads
  case ldtt x =>
    refine tileLoad_completes (tr := true) rfl fun t k ⟨waits, fills, holds⟩ => ⟨waits, fills, fun r hr c hc e he => ?_⟩
    have place : tileAt true (64 * r + 2 * c + e) = 64 * c + 2 * r + e := by
      show 64 * ((64 * r + 2 * c + e) / 2 % 32) + 2 * ((64 * r + 2 * c + e) / 64) + (64 * r + 2 * c + e) % 2 = _
      omega
    rw [holds _ (by omega), place]
    rfl
  case stt x =>
    refine Sem.completesAt_of (u := { ctl with srcs := [⟨x.a, 1, 1⟩], tr := [x.t.toNat] }) ⟨rfl, rfl, rfl⟩ (show exec (.stt x) s = execStt x s from rfl) rfl
      (fun c => c) (fun _ => .inl rfl) ?_
    intro _ issuing _ _ act ok
    have read := Sem.course_read (m := _) (u := { ctl with srcs := [⟨x.a, 1, 1⟩], tr := [x.t.toNat] }) issuing.toStands rfl act rfl
    obtain ⟨sat, whole, -, -, loc, -⟩ := Sem.writes_of_acts (m := _) act
    have course := (read.setLmem (f := sttMem x _) fun b out => sttMem_out _ (by
      rw [loc] at out
      simp only [Bool.and_eq_false_iff, decide_eq_false_iff_not, not_le, not_lt] at out
      exact out)).countLocal
    refine ⟨_, tileBody_go ok _, _, _, course _, .passed s _ sat whole, ?_, fun b inside => ?_⟩
    · rw [Wave.frag_modFrag_self _ (Frag.passed s) (fun _ => rfl) issuing.wave.2.2.2]
      rfl
    · refine stt_lands ((course _).finish _) ?_ inside
      rw [read.aims.teams]
      exact Nat.lt_of_lt_of_le (by omega) ok.2.2.1

end Sys2Proof.Machine

/-! SUPPORT. What an instruction that its checks let go has passed, one stage after another (R87 to R95, R158, R164, R252, R360), and the settled
statement. -/

namespace Sys2Proof.Machine

section
variable {s : State} {u : Uses} {h : Hdr}

/-- A check that answers go has not found what it looks for, and those behind it answer go. -/
theorem passed_of_go {c : Prop} [Decidable c] {found rest : Pre} (go : (if c then found else rest) = .go) (stops : found ≠ .go) : ¬c ∧ rest = .go := by
  by_cases hc : c
  · exact absurd ((if_pos hc).symm.trans go) stops
  · exact ⟨hc, (if_neg hc).symm.trans go⟩

/-! ### What passing a stage says -/

/-- An instruction that passes the idempotence check reads no register that it is the first of its region to write, but outside a proposal's
shadow (R92, R202). -/
theorem unread_of_not_idemFails (passes : ¬idemFails (s.issOf h).w (s.issOf h).hm (s.issOf h).part u = true)
    (k3 : (s.wave s.cur.wave).dm = .k3) (user : (s.issOf h).hm = false) {n : Nat} (written : n ∈ u.dv) :
    n ∉ u.srcs.flatMap SU.vecs ∨ ((s.issOf h).w.vreg n).wir = true ∨
      ∃ p ∈ (s.issOf h).w.prop.toList, p.inWin n = true ∧ p.ebits (n - p.base) &&& (s.issOf h).part = 0 := by
  by_contra both
  obtain ⟨read, first, unshadowed⟩ : n ∈ u.srcs.flatMap SU.vecs ∧ ((s.issOf h).w.vreg n).wir = false ∧
      ¬∃ p ∈ (s.issOf h).w.prop.toList, p.inWin n = true ∧ p.ebits (n - p.base) &&& (s.issOf h).part = 0 := by
    simpa only [not_or, not_not, Bool.not_eq_true] using both
  refine passes ?_
  simp only [idemFails, Bool.and_eq_true, decide_eq_true_eq, Bool.not_eq_true', List.any_eq_true, List.contains_iff_mem]
  refine ⟨⟨iss_dm s h ▸ k3, user⟩, n, written, ⟨read, first⟩, ?_⟩
  split
  · next p open' => simpa [open'] using unshadowed
  · rfl

/-- What comes to its sources has met no interlock but theirs. -/
theorem unbarred_of_go (go : preCheck s u (s.issOf h) h.gp.toNat = .go) : Unbarred s u h ∧ sourceCheck s u (s.issOf h) = .go := by
  obtain ⟨idem, go⟩ := passed_of_go go nofun
  obtain ⟨hold, go⟩ := passed_of_go go nofun
  obtain ⟨first, go⟩ := passed_of_go go nofun
  obtain ⟨preds, go⟩ := passed_of_go go nofun
  obtain ⟨dsts, go⟩ := passed_of_go go nofun
  obtain ⟨tiles, go⟩ := passed_of_go go nofun
  obtain ⟨win, go⟩ := passed_of_go go nofun
  refine ⟨{ idem := fun k3 user n written => unread_of_not_idemFails idem k3 user written, hold := ?_, first := ?_, preds := ?_, dsts := ?_,
            tiles := ?_, win := ?_ }, go⟩
  · simpa [or_iff_not_imp_left] using hold
  · simpa [or_iff_not_imp_left, Option.isSome_iff_ne_none] using first
  · simpa only [List.any_eq_true, List.contains_iff_mem, not_exists, not_and] using preds
  · simpa using dsts
  · simpa only [Bool.or_eq_true, List.any_eq_true, List.contains_iff_mem, not_or, not_exists, not_and, Bool.not_eq_true] using tiles
  · simpa using win

/-- What comes to the views it reads has no empty source. -/
theorem sources_of_go {i : Iss} (go : sourceCheck s u i = .go) :
    (∀ x ∈ u.srcs, ∀ r ∈ SU.regs i.w i.part x, i.w.stateOf i.hm r ≠ .empty) ∧ viewCheck s u i = .go := by
  obtain ⟨-, go⟩ := passed_of_go go nofun
  obtain ⟨full, go⟩ := passed_of_go go nofun
  exact ⟨(anyIn_eq_false.mp (Bool.eq_false_iff.mpr full)).1, go⟩

/-- What comes past them reads no poisoned view; with a lane taking part it comes to its role queues (R59). -/
theorem views_of_go (go : viewCheck s u (s.issOf h) = .go) : ViewsClean s u h ∧ ((s.issOf h).part ≠ 0 → queueCheck s u (s.issOf h) = .go) := by
  obtain ⟨clean, go⟩ := passed_of_go go nofun
  refine ⟨fun closing => ?_, fun part => (if_neg (by simpa using part)).symm.trans go⟩
  have unpoisoned : anyIn u (s.issOf h) .poison = false := by simpa [closing] using clean
  exact (anyIn_eq_false.mp unpoisoned).symm

/-- A role queue that is read, and holds nothing back, has an entry (R360, R362). -/
theorem nonempty_of_queuePre {t : Team} {srcs : List SU} (passes : queuePre s t srcs = none) : ∀ q ∈ srcs.flatMap SU.queues, t.queue q ≠ [] := by
  intro q hq empty
  obtain ⟨x, hx, hq⟩ := List.mem_flatMap.mp hq
  have pass := List.findSome?_eq_none_iff.mp passes x hx
  unfold SU.queues at hq
  split at hq
  · next n e reads =>
    rw [List.mem_singleton.mp hq] at empty
    simp only [reads, empty] at pass
    cases e <;> cases g : s.prodGone t n.toNat <;> simp [g] at pass
  · cases hq

/-- A role queue that is pushed to, and holds nothing back, has the wave's role for its producer, and room (R360). -/
theorem room_of_pushPre {t : Team} {w : Wave} {q : Option Nat} (passes : pushPre t w q = none) :
    ∀ k ∈ q.toList, Tab.get? t.prod k = some w.role ∧ (t.queue k).length < 8 := by
  intro k hk
  rw [Option.mem_toList.mp hk] at passes
  by_cases role : Tab.get? t.prod k = some w.role
  · by_cases full : 8 ≤ (t.queue k).length
    · simp [pushPre, role, full] at passes
    · exact ⟨role, Nat.lt_of_not_le full⟩
  · simp [pushPre, role] at passes

/-- A queue's own check never lets an instruction go: it finds a fault or nothing. -/
theorem queuePre_ne_go (t : Team) (srcs : List SU) : queuePre s t srcs ≠ some .go := by
  intro go
  obtain ⟨x, -, found⟩ := List.exists_of_findSome?_eq_some go
  split at found
  · split at found
    · cases found
    · split at found
      · cases found
      · split at found <;> cases found
  · cases found

theorem pushPre_ne_go (t : Team) (w : Wave) (q : Option Nat) : pushPre t w q ≠ some .go := by
  intro go
  unfold pushPre at go
  split at go
  · split at go
    · cases go
    · split at go <;> cases go
  · cases go

/-- What comes past its role queues finds an entry and room there. -/
theorem queues_of_go {i : Iss} (go : queueCheck s u i = .go) :
    (∀ q ∈ u.srcs.flatMap SU.queues, (s.team i.w.team).queue q ≠ []) ∧
    (∀ k ∈ u.push.toList, Tab.get? (s.team i.w.team).prod k = some i.w.role ∧ ((s.team i.w.team).queue k).length < 8) ∧ refetchCheck u i = .go := by
  cases pops : queuePre s (s.team i.w.team) u.srcs with
  | some p =>
    rw [queueCheck_of_pop pops] at go
    exact absurd (go ▸ pops) (queuePre_ne_go _ _)
  | none =>
    cases room : pushPre (s.team i.w.team) i.w u.push with
    | some p =>
      simp only [queueCheck, pops, room] at go
      exact absurd (go ▸ room) (pushPre_ne_go _ _ _)
    | none =>
      simp only [queueCheck, pops, room] at go
      exact ⟨nonempty_of_queuePre pops, room_of_pushPre room, go⟩

/-- What comes past its refetch has made it, or has no slot to refetch (R89). -/
theorem fetched_of_go {i : Iss} (go : refetchCheck u i = .go) :
    (i.f.refetch = true ∨ ∀ x ∈ u.srcs, i.w.refetches i.part x.x = false) ∧ readCheck u i = .go := by
  obtain ⟨done, go⟩ := passed_of_go go nofun
  exact ⟨by simpa [or_iff_not_imp_left] using done, go⟩

/-- What reads its operands meets none that is poisoned, dead where that traps, or stale. -/
theorem reads_of_go {i : Iss} (go : readCheck u i = .go) :
    (∀ x ∈ u.srcs, (∀ r ∈ SU.regs i.w i.part x, i.w.stateOf i.hm r ≠ .poison) ∧ (i.w.md.getLsbD 12 = true → i.w.srcDead i.hm i.part x = false)) ∧
    ∀ x ∈ u.srcs, i.w.readsStale i.hm i.part x.x = false := by
  obtain ⟨clean, go⟩ := passed_of_go go nofun
  obtain ⟨live, go⟩ := passed_of_go go nofun
  obtain ⟨fresh, -⟩ := passed_of_go go nofun
  simp only [List.any_eq_true, List.mem_flatMap, decide_eq_true_eq, not_exists, not_and, Bool.and_eq_true, Bool.not_eq_true] at clean live fresh
  exact ⟨fun x hx => ⟨fun r hr => clean r ⟨x, hx, hr⟩, fun traps => live traps x hx⟩, fresh⟩

/-- What its checks let go has nothing that holds it back. -/
theorem clear_of_go (go : preCheck s u (s.issOf h) h.gp.toNat = .go) : Clear s u h := by
  obtain ⟨unbarred, go⟩ := unbarred_of_go go
  obtain ⟨full, go⟩ := sources_of_go go
  obtain ⟨views, acts⟩ := views_of_go go
  have asked part := queues_of_go (acts part)
  have fetched part := fetched_of_go (asked part).2.2
  have reads part := reads_of_go (fetched part).2
  exact { unbarred with
    srcs := full, pops := fun part => (asked part).1, push := fun part => (asked part).2.1, fetched := fun part => (fetched part).1
    views := views, clean := fun part => (reads part).1, fresh := fun part => (reads part).2 }

end

/-- Settles O52: what is clear passes every check, and each check that is passed gives the conditions it looks at. -/
theorem readyIffClear : Obligations.ReadyIffClear := fun _ _ _ => ⟨clear_of_go, preCheck_of_clear⟩

end Sys2Proof.Machine

/-! SUPPORT. Why O38 fails: it has the destinations of whatever operation an atomic's answer reaches hold the old values as they come, also those of
a load, which keeps of a value what its size and conversion make of it (R243). -/

namespace Sys2Proof.Machine

/-- An old value of lane 0 that is wider than a byte. -/
def wideOld : LaneAcc := { lane := 0, va := 0x18000, pa := 0x18000, data := 0x100 }

/-- A load of a byte by lane 0 into `v8`, which awaits its one reply. -/
def byteLoad : Op :=
  { id := 60, wave := 0, entry := 0, core := 0, size := 1, pasid := 0, lanes := [wideOld], out := [wideOld], nout := 1
    instr := .ld ⟨{ form := .f64, gneg := false, gp := 15 }, .b, .raw, false, 8, 4, (false, false), .v 1 false false, 0, MemF.dflt⟩ }

/-- An atomic's answer under the load's identifier. -/
def oldReply : Rep := { id := 63, op := 60, port := 0, core := 0, slice := 0, pa := 0x18000, kind := .old [wideOld] false }

def loadAnsweredOld : State :=
  let w : Wave := { id := 0, team := 0, num := 0, live := true, frags := [{ entry := 0, mask := 1 }] }
  { State.reset with waves := [(0, w)], ops := [byteLoad], reps := [oldReply], nextId := 100 }

/-- A lane of a vector register in a wave after an event that answers a next state. -/
def vlaneAfter (wave n l : Nat) : Host.Outcome State Fault Refusal → Word
  | .next t => (t.wave wave).vlane n l
  | _ => 0

/-- The load keeps the low byte of what it is brought. -/
theorem loadAnsweredOld_keeps_byte : vlaneAfter 0 8 0 (exec (.memoryReply 63) loadAnsweredOld) = 0 := by decide +kernel

/-- Refutes O38: nothing says that a reply is of the kind that its operation asks for, of a load its sector's bytes. An atomic's answer with the old
value `0x100` reaches `byteLoad`; the statement wants that value in `v8`, where the load writes its low byte, 0. -/
theorem not_repliesFill : ¬ Obligations.RepliesFill := by
  intro all
  obtain ⟨t, ran, -, fills⟩ := all loadAnsweredOld oldReply (by decide +kernel) (by decide +kernel) (by decide +kernel) (by decide +kernel)
  obtain ⟨delivered, -⟩ := fills byteLoad (by decide +kernel) rfl rfl rfl rfl rfl rfl rfl rfl rfl rfl rfl (by decide +kernel) (by decide +kernel)
    (by decide +kernel) nofun
  have brought : (t.wave 0).vlane 8 0 = BitVec.ofNat 32 (wideOld.data.toNat / 2 ^ (32 * 0)) :=
    delivered rfl (by decide) wideOld (.head _) (by decide) ⟨wideOld, .head _, rfl⟩ 0 (by decide)
  have kept := loadAnsweredOld_keeps_byte
  rw [show oldReply.id = 63 from rfl] at ran
  rw [ran, vlaneAfter, brought] at kept
  exact absurd kept (by decide +kernel)

end Sys2Proof.Machine

/-! SUPPORT. What a wait that ends leaves as it is: of the state all but the waves, and of each wave all but what a region entry may change (R33, R34);
then the completions of drains and tile fills (R112, R186, R252). -/

namespace Sys2Proof.Machine

/-! ### A fragment goes on -/

theorem Wave.regionEntry_still (w : Wave) (e : Nat) : (w.regionEntry e).still = w.still :=
  (Wave.Stays.refl w false e [] []).regionEntry.still

/-- `t` is `s` but for the waves, and each wave is itself but for its fragments and what a region entry may change. -/
structure State.SameStill (s t : State) : Prop where
  rest : t = { s with waves := t.waves }
  still : ∀ n, (t.wave n).still = (s.wave n).still

theorem State.SameStill.refl (s : State) : s.SameStill s := ⟨rfl, fun _ => rfl⟩

section
variable {s t : State} (a : s.SameStill t)
include a

theorem State.SameStill.modWave (i : Nat) {f : Wave → Wave} (keeps : ∀ w, (f w).still = w.still) : s.SameStill (t.modWave i f) where
  rest := congrArg (fun z : State => { z with waves := (t.modWave i f).waves }) a.rest
  still n := by
    refine Eq.trans ?_ (a.still n)
    rcases t.wave_modWave_or i n f with same | changed
    · rw [same]
    · rw [changed, keeps]

theorem State.SameStill.modFrag (r : FragRef) (g : Frag → Frag) : s.SameStill (t.modFrag r g) := a.modWave _ fun _ => rfl

theorem State.SameStill.regionEntry (r : FragRef) : s.SameStill (t.regionEntry r) := a.modWave _ fun w => w.regionEntry_still _

theorem State.SameStill.goOnOrPark (r : FragRef) (id : Nat) : s.SameStill (t.goOnOrPark r id) := by
  unfold State.goOnOrPark
  split
  · exact a.modFrag ..
  · exact a.modFrag ..

theorem State.SameStill.opOver (o : Op) : s.SameStill (t.opOver o) := by
  simp only [State.opOver]
  split_ifs
  · exact a
  · exact (a.modFrag ..).regionEntry _
  · exact a.modFrag ..
  · exact a.goOnOrPark ..
  · exact a.modFrag ..
  · exact a

theorem State.SameStill.waitEnds (n : Nat) (k : Wait) : s.SameStill (t.waitEnds n k) := by
  unfold State.waitEnds
  split
  · exact (a.modFrag ..).regionEntry _
  · exact a

theorem State.SameStill.team_eq (n : Nat) : t.team n = s.team n := (congrArg (fun z : State => z.team n) a.rest :)

theorem State.SameStill.ops_eq : t.ops = s.ops := (congrArg State.ops a.rest :)

end

/-! ### A filling tile -/

/-- A tile that fills is ready, and what its event changes besides is the wait that it ends (R252). -/
theorem tileFillCompletion_of_filling {s : State} {n tile : Nat} (filling : tile ∈ (s.wave n).tfill) : ∃ t,
    exec (.tileFillCompletion n tile) s = .next t ∧ (s.modWave n fun w => { w with tfill := w.tfill.erase tile }).SameStill t :=
  ⟨_, if_pos (List.contains_iff_mem.mpr filling), (State.SameStill.refl _).waitEnds ..⟩

/-! ### A drain -/

theorem State.setSat_ops (s : State) (n : Nat) (b : Bool) : (s.setSat n b).ops = s.ops := by cases b <;> rfl

theorem State.team_setSat (s : State) (n : Nat) (b : Bool) (m : Nat) : (s.setSat n b).team m = s.team m := by cases b <;> rfl

theorem State.wave_setSat {s : State} {n : Nat} (here : (Tab.get? s.waves n).isSome = true) (b : Bool) :
    (s.setSat n b).wave n = (s.wave n).setSat b := by
  cases b with
  | false => rfl
  | true => exact (s.wave_modWave n n _ here).trans (if_pos rfl)

/-- Bytes written at places of their own stand there afterwards. -/
theorem get_putBytes_of_nodup (m : Memory) {bs : List (Nat × Byte)} (apart : (bs.map Prod.fst).Nodup) {b : Nat × Byte} (hb : b ∈ bs) :
    (putBytes m bs).get b.1 = b.2 := by
  obtain ⟨e, he, place, holds⟩ := get_putBytes_in m bs ⟨b, hb, rfl⟩
  rw [holds, List.inj_on_of_nodup_map apart he hb place]

/-- The state in which a drain has written its bytes and set the flag of a saturated element, and is no operation of the device any more. -/
def State.drained (s : State) (n : Nat) (o : Op) : State :=
  ((s.setLmem (s.wave n).team fun m => putBytes m o.lbytes).setSat n (decide (o.fail = 1))).dropOp o.id

/-- A wave's oldest drain, which no copy holds back, completes, and what its event changes besides is the wait that it ends (R112, R186, R221). -/
theorem adrainCompletion_of_clear {s : State} {n : Nat} {o : Op} (oldest : s.ops.find? (fun o => o.wave == n && isDrain o) = some o)
    (alive : o.dead = false) (here : (Tab.get? s.waves n).isSome = true)
    (clear : s.clash (s.wave n).team true (o.lbytes.map fun b => (b.1, 1)) = false) :
    ∃ t, exec (.adrainCompletion n) s = .next t ∧ (s.drained n o).SameStill t := by
  refine ⟨(s.drained n o).opOver o, ?_, (State.SameStill.refl _).opOver o⟩
  show execAdrainCompletion n s = _
  simp only [execAdrainCompletion, oldest, alive, Option.isNone_eq_false_iff.mpr here, clear, Bool.or_self, Bool.false_eq_true, if_false]
  rfl

section
variable (s : State) (n : Nat) (o : Op)

theorem State.drained_ops : (s.drained n o).ops = s.ops.filter fun x => x.id ≠ o.id :=
  congrArg (List.filter fun x : Op => x.id ≠ o.id) (State.setSat_ops ..)

theorem State.drained_lmem (stands : (Tab.get? s.teams (s.wave n).team).isSome = true) :
    ((s.drained n o).team (s.wave n).team).lmem = putBytes (s.team (s.wave n).team).lmem o.lbytes := by
  show ((State.setSat _ n _).team _).lmem = _
  rw [State.team_setSat, State.setLmem, State.team_modTeam _ _ _ _ stands, if_pos rfl]

theorem State.drained_flags (here : (Tab.get? s.waves n).isSome = true) :
    ((s.drained n o).wave n).flags = if o.fail = 1 then (s.wave n).flags ||| 1 else (s.wave n).flags := by
  show ((State.setSat (s.setLmem ..) n _).wave n).flags = _
  rw [State.wave_setSat (s := s.setLmem ..) here]
  by_cases sat : o.fail = 1 <;> simp [Wave.setSat, sat, State.setLmem]

end

/-- Settles O32: a completion is its effect and the end of a wait, which leaves tiles, flags, operations and local memory alone. -/
theorem localCompletions : Obligations.LocalCompletions := by
  unfold Obligations.LocalCompletions
  constructor
  · intro s n tile here filling
    obtain ⟨t, ran, kept⟩ := tileFillCompletion_of_filling filling
    have still := kept.still n
    rw [State.wave_modWave s n n _ here, if_pos rfl] at still
    exact ⟨t, ran, (congrArg Wave.tfill still :), kept.rest, (congrArg Wave.t still :)⟩
  · intro s n w o here oldest alive stands clear
    obtain rfl : s.wave n = w := by rw [State.wave, Tab.getD, here]
    have present : (Tab.get? s.waves n).isSome = true := Option.isSome_of_eq_some here
    obtain ⟨t, ran, kept⟩ := adrainCompletion_of_clear oldest alive present clear
    have lmem : (t.team (s.wave n).team).lmem = putBytes (s.team (s.wave n).team).lmem o.lbytes := by
      rw [kept.team_eq, State.drained_lmem s n o stands]
    refine ⟨t, ran, kept.ops_eq.trans (s.drained_ops n o), fun a out => ?_, fun apart b hb => ?_, ?_⟩
    · rw [lmem, get_putBytes_out _ _ out]
    · rw [lmem, get_putBytes_of_nodup _ apart hb]
    · exact (congrArg Wave.flags (kept.still n) :).trans (s.drained_flags n o present)

end Sys2Proof.Machine

/-! SUPPORT. Why O1 to O7, O9 and O10 fail: each has a destination keep its lanes outside the mask, also those that no wave has, which a register's list
may hold and a write cuts off. -/

namespace Sys2Proof.Machine

/-- A wave of 64 lanes with a 65th value, 1, in `v1`; all its lanes take part in the instruction that it issues. -/
def overlong : State :=
  let f : Frag := { entry := 0, pc := 0x10000, mask := BitVec.allOnes 64 }
  let w : Wave := { id := 0, team := 0, num := 0, live := true, frags := [f], v := [(1, { val := List.replicate 64 0 ++ [1], dead := 0 })] }
  { State.reset with waves := [(0, w)] }.issuing w f (.word 0)

/-- The header of an instruction without a guard. -/
def plainHdr : Hdr := { form := .f64, gneg := false, gp := 15 }

theorem overlong_issuing : Issuing overlong where
  wave := by decide +kernel
  runs := by decide +kernel
  room := by decide +kernel

theorem overlong_lane64 : (overlong.wave 0).vlane 1 64 = 1 := by decide +kernel

/-- Whether the checks before an instruction let it go. -/
def Pre.isGo : Pre → Bool
  | .go => true
  | _ => false

theorem Pre.isGo_iff (p : Pre) : p.isGo = true ↔ p = .go := by cases p <;> simp [Pre.isGo]

/-- `overlong` issues the instruction, which may kill no lane of `v1` nor write all of them, and reads 0 in lane 64 of `v1` afterwards. -/
def CutsLane64 (m : Sem) (i : Instr) : Prop :=
  let k := overlong.issQ m.u m.h
  i.wf = true ∧ (preCheck overlong m.u (overlong.issOf m.h) m.h.gp.toNat).isGo = true ∧ 1 ∉ (m.writes k).all ∧ 1 ∉ (m.writes k).mv ∧
    vlaneAfter 0 1 64 (exec i overlong) = 0

/-- That is not framed: lane 64 is in no mask, so it takes no part, and no kill of it is pending. -/
theorem CutsLane64.not_completesWith {m : Sem} {i : Instr} {also : State → State → Iss → Prop} (cuts : CutsLane64 m i)
    (ok : m.ok overlong (overlong.issQ m.u m.h)) : ¬ m.CompletesWith i also := by
  obtain ⟨wf, go, once, unmarked, cut⟩ := cuts
  intro completes
  obtain ⟨t, ran, -, -, -, -, -, frame⟩ :=
    completes overlong wf overlong_issuing (.inl (by decide +kernel)) (clear_of_go ((Pre.isGo_iff _).mp go)) ok
  rw [ran, vlaneAfter] at cut
  obtain kept | ⟨-, marked | killed⟩ := frame.wave.vec 1 64 once fun _ => BitVec.getLsbD_of_ge _ _ le_rfl
  · rw [show overlong.cur.wave = 0 from rfl, overlong_lane64, cut] at kept
    exact absurd kept (by decide)
  · exact unmarked marked
  · rw [BitVec.getLsbD_of_ge _ _ le_rfl] at killed
    cases killed

/-- Refutes O1: `mov v1, 0` cuts off lane 64 of `v1`, which takes no part and is to read as before. -/
theorem not_integerResults : ¬ Obligations.IntegerResults := fun all =>
  CutsLane64.not_completesWith (by unfold CutsLane64; decide +kernel) trivial (all (.mov ⟨plainHdr, .z32, .v 1 .none, .zero⟩) _ rfl)

/-- Refutes O2: `shl v1, 0, 0` cuts off lane 64 of `v1`, which takes no part and is to read as before. -/
theorem not_shiftResults : ¬ Obligations.ShiftResults := fun all =>
  CutsLane64.not_completesWith (by unfold CutsLane64; decide +kernel) trivial (all (.shl ⟨plainHdr, .z32, .v 1 .none, .zero, .zero⟩) _ rfl)

/-- Refutes O3: `bfe v1, 0, 0` cuts off lane 64 of `v1`, which takes no part and is to read as before. -/
theorem not_fieldResults : ¬ Obligations.FieldResults := fun all =>
  CutsLane64.not_completesWith (by unfold CutsLane64; decide +kernel) trivial (all (.bfe ⟨plainHdr, .z32, .v 1 .none, .zero, .zero⟩) _ rfl)

/-- Refutes O4: `fadd v1, 0, 0` cuts off lane 64 of `v1`, which takes no part and is to read as before. -/
theorem not_floatResults : ¬ Obligations.FloatResults := fun all =>
  CutsLane64.not_completesWith (by unfold CutsLane64; decide +kernel) trivial (all (.fadd ⟨plainHdr, .rn, .v 1 .none, .zero, .zero⟩) _ rfl)

/-- Refutes O5: `unpk v1, 0` cuts off lane 64 of `v1`, which takes no part and is to read as before. -/
theorem not_conversionResults : ¬ Obligations.ConversionResults := fun all =>
  CutsLane64.not_completesWith (by unfold CutsLane64; decide +kernel) trivial (all (.unpk ⟨plainHdr, .z8, 0, .v 1 .none, .zero⟩) _ rfl)

/-- Refutes O6: `bcast v1, 0, 0` cuts off lane 64 of `v1`, which takes no part and is to read as before. -/
theorem not_laneMoveResults : ¬ Obligations.LaneMoveResults := fun all =>
  CutsLane64.not_completesWith (by unfold CutsLane64; decide +kernel) trivial (all (.bcast ⟨plainHdr, .v 1 .none, .zero, .zero⟩) _ rfl)

/-- Refutes O7: `pmov v1, p0` cuts off lane 64 of `v1`, which takes no part and is to read as before. -/
theorem not_predicateResults : ¬ Obligations.PredicateResults := fun all =>
  CutsLane64.not_completesWith (by unfold CutsLane64; decide +kernel) trivial (all (.pmov ⟨plainHdr, .vp (.v 1 .none) 0⟩) _ rfl)

/-- Refutes O9: `scanw.or v1, 0` cuts off lane 64 of `v1`, which takes no part and is to read as before. -/
theorem not_readoutResults : ¬ Obligations.ReadoutResults := fun all =>
  CutsLane64.not_completesWith (by unfold CutsLane64; decide +kernel) trivial (all (.scanw ⟨plainHdr, .or, false, .v 1 .none, .zero⟩) _ rfl)

/-- Refutes O10: `rng v1` cuts off lane 64 of `v1`, which takes no part and is to read as before. -/
theorem not_specialWrites : ¬ Obligations.SpecialWrites := fun all =>
  CutsLane64.not_completesWith (by unfold CutsLane64; decide +kernel) trivial (all (.rng ⟨plainHdr, false, 1, .none⟩) _ _ rfl)

end Sys2Proof.Machine

/-! SUPPORT. What counts an issue or keeps a quarter busy is not seen by a recall (R290), nor so by the read of a trap vector (R378); then `BRKPT` and
`TRAP`. -/

namespace Sys2Proof.Machine

/-- The state with other counts and busy times. -/
def State.tally (s : State) (c b : Tab Nat) : State := { s with cnt := c, busy := b }

section
variable (s : State) (c b : Tab Nat)

theorem issued_tally (i : Iss) (u : Uses) : ∃ c b, s.issued i u = s.tally c b := ⟨_, _, rfl⟩

theorem foldl_tally {α : Type} {g : State → α → State} (keeps : ∀ s x, g (State.tally s c b) x = (g s x).tally c b) (l : List α) :
    l.foldl g (s.tally c b) = (l.foldl g s).tally c b := List.foldl_hom (fun s => State.tally s c b) (H := keeps)

theorem logRec_tally (source die detail : Nat) : (s.tally c b).logRec source die detail = (s.logRec source die detail).tally c b := by
  have appended (l : List LogRec) : ({ s.tally c b with log := l } : State) = ({ s with log := l } : State).tally c b := rfl
  unfold State.logRec
  rw [show (s.tally c b).log = s.log from rfl, show (s.tally c b).clock = s.clock from rfl]
  exact appended _

theorem setPoison_tally (pa : Nat) (p : Bool) : (s.tally c b).setPoison pa p = (s.setPoison pa p).tally c b := by
  simp only [State.setPoison, show (s.tally c b).chartOf pa = s.chartOf pa from rfl]
  split
  · split
    · rfl
    · split <;> rfl
  · simp only [show findLine (s.tally c b).l2 ((s.tally c b).home pa) pa = findLine s.l2 (s.home pa) pa from rfl]
    split
    · split <;> rfl
    · rfl

theorem clearPoison_tally (bs : List (Nat × Byte)) : (s.tally c b).clearPoison bs = (s.clearPoison bs).tally c b :=
  foldl_tally s c b (fun s a => setPoison_tally s c b a false) _

theorem putBytesAt_tally (pa : Nat) (bs : List (Nat × Byte)) : (s.tally c b).putBytesAt pa bs = (s.putBytesAt pa bs).tally c b := by
  simp only [State.putBytesAt, show (s.tally c b).chartOf pa = s.chartOf pa from rfl]
  split
  · split
    · rfl
    · split <;> rfl
  · simp only [show findLine (s.tally c b).l2 ((s.tally c b).home pa) pa = findLine s.l2 (s.home pa) pa from rfl]
    split <;> rfl

theorem writeBack_tally (l : Line) : (s.tally c b).writeBack l = (s.writeBack l).tally c b := by
  simp only [State.writeBack, show (s.tally c b).cut (l.line * 128) = s.cut (l.line * 128) from rfl]
  split
  · rfl
  · split
    · exact logRec_tally s c b 4 _ _
    · simp only [State.tally]

theorem wayFor_tally : (s.tally c b).wayFor = s.wayFor := rfl

theorem l2Alloc_tally (loc set pa : Nat) (kind : LineKind) : (s.tally c b).l2Alloc loc set pa kind = (s.l2Alloc loc set pa kind).tally c b := by
  unfold State.l2Alloc
  rw [show (s.tally c b).l2 = s.l2 from rfl, show (s.tally c b).l2park = s.l2park from rfl, wayFor_tally]
  cases findLine s.l2 loc pa with
  | some l => rfl
  | none =>
    cases s.wayFor s.l2 loc set (Tab.getD 0 s.l2park (loc / 48)) 16 l2MayGo with
    | none => rfl
    | some way =>
      obtain ⟨w, - | l⟩ := way
      · rfl
      · simp only [writeBack_tally]
        rfl

theorem pokes_tally (pasid : Nat) (alloc : Bool) (pa : Nat) (bs : List (Nat × Byte)) :
    (s.tally c b).pokes pasid alloc pa bs = (s.pokes pasid alloc pa bs).tally c b := by
  have allocated : (if (alloc && ((s.tally c b).chartOf pa).isNone) = true
      then (s.tally c b).l2Alloc ((s.tally c b).home pa) ((s.tally c b).setFor pasid pa) pa .ordinary else s.tally c b)
      = (if (alloc && (s.chartOf pa).isNone) = true then s.l2Alloc (s.home pa) (s.setFor pasid pa) pa .ordinary else s).tally c b := by
    rw [l2Alloc_tally]
    exact (apply_ite (fun s => State.tally s c b) _ _ _).symm
  simp only [State.pokes, allocated]
  generalize (if (alloc && (s.chartOf pa).isNone) = true then s.l2Alloc (s.home pa) (s.setFor pasid pa) pa .ordinary else s) = s
  simp only [show (s.tally c b).dropsAt pa = s.dropsAt pa from rfl, putBytesAt_tally, clearPoison_tally]
  split
  · exact logRec_tally s c b 4 _ _
  · rfl

theorem applyDelta_tally (pasid pa : Nat) (op : RedOp) (x : DWord) :
    (s.tally c b).applyDelta pasid pa op x = (s.applyDelta pasid pa op x).tally c b := by
  unfold State.applyDelta
  rw [show (s.tally c b).poisoned pa = s.poisoned pa from rfl, show (s.tally c b).peekNum pa = s.peekNum pa from rfl]
  dsimp only
  rw [pokes_tally]
  split <;> rfl

theorem mergeSectors_tally (l : Line) (secs : List Nat) : (s.tally c b).mergeSectors l secs = (s.mergeSectors l secs).tally c b := by
  unfold State.mergeSectors
  dsimp only
  rw [foldl_tally, foldl_tally, foldl_tally]
  · intro s i
    rw [setPoison_tally]
    split <;> rfl
  · intro s e
    rw [applyDelta_tally]
    split <;> rfl
  · intro s i
    rw [show (s.tally c b).poisoned = s.poisoned from rfl]
    split
    · exact logRec_tally s c b 3 _ _
    · rfl

theorem mergeLine_tally (l : Line) : (s.tally c b).mergeLine l = (s.mergeLine l).tally c b := by
  have cleared (s : State) (pa : Nat) :
      (if ((s.tally c b).updateCores pa).isEmpty then
        { s.tally c b with l2 := modLine (s.tally c b).l2 ((s.tally c b).home pa) pa fun (l : Line) => { l with pend := false } } else s.tally c b)
      = State.tally (if (s.updateCores pa).isEmpty then
        { s with l2 := modLine s.l2 (s.home pa) pa fun (l : Line) => { l with pend := false } } else s) c b := by
    rw [show (s.tally c b).updateCores pa = s.updateCores pa from rfl]
    split <;> rfl
  unfold State.mergeLine
  rw [mergeSectors_tally]
  exact cleared { s.mergeSectors l (List.range 4) with l1 := dropLine (s.mergeSectors l (List.range 4)).l1 l.loc (l.line * 128) } _

theorem recall_tally (pa : Nat) : (s.tally c b).recall pa = (s.recall pa).tally c b :=
  foldl_tally s c b (fun s l => mergeLine_tally s c b l) _

/-- A cause's vector is read as it is whatever the counts are. -/
theorem vector_tally (pasid cause : Nat) : (s.tally c b).vector pasid cause = s.vector pasid cause := by
  simp only [State.vector, show (s.tally c b).ctx pasid = s.ctx pasid from rfl, recall_tally]
  rfl

end

section
variable {s : State} {u : Uses} {h : Hdr} {body : Iss → State → Body}

/-- An instruction that nothing holds back, and that raises a cause at its issue, traps there. -/
theorem issue_of_clear_trap (c : Clear s u h) (acts : (s.issQ u h).part ≠ 0) {cause : Nat} {info : Info}
    (raises : body (s.issQ u h) s = .trap cause info) :
    issue u h body s = .next ((s.issued (s.issQ u h) u).trap cause (s.issQ u h).part info) := by
  have part : (s.iss h).part ≠ 0 := acts
  have sees : s.issQ u h = { s.iss h with q := (s.popQueue (s.iss h).w u).1 } := by simp only [State.issQ, State.issOf, if_neg part]
  rw [sees] at raises ⊢
  simp only [issue, preCheck_of_clear c, part, decide_false, Bool.and_false, Bool.false_eq_true, if_false, raises]

/-- A cause whose vector names a handler enters it. -/
theorem raise_of_handled {r : FragRef} {t : Trap} {v : DWord} (vec : s.vector (s.team (s.wave r.wave).team).pasid t.cause = v)
    (idle : (s.wave r.wave).h = none) (handled : v.getLsbD 0 = true ∧ v.toNat / 2 ^ 57 = 0 ∧ v.toNat / 2 % 4 = 0) :
    s.raise r t = s.enterHandler r t (v.toNat / 8 % 2 ^ 54 * 8) := by
  obtain ⟨valid, unreserved, aligned⟩ := handled
  simp only [State.raise, idle, vec, valid, unreserved, aligned]
  rfl

end

theorem lengthField_lt (m : DecodeMode) (w : BitVec 128) : lengthField m w < 16 := by
  unfold lengthField
  split
  · omega
  · split <;> omega

theorem modeCode_lt (m : DecodeMode) : modeCode m < 4 := by cases m <;> decide
theorem TClass.code_lt (c : TClass) : c.code < 4 := by cases c <;> decide

/-- The cause and the code of a record whose fields hold what they name (R387). -/
theorem trapRecord_head {w : Wave} {f : Frag} {dm : DecodeMode} {word : BitVec 128} {step pc cause : Nat} {part : Mask} {i : Info}
    (steps : step ≤ 16) (entry : f.entry < 64) (half : w.half < 4) (causes : cause < 256) (codes : i.code < 256) :
    ((trapRecord w f dm word step pc cause part i).getD 0 0).toNat % 2 ^ 8 = cause ∧
      ((trapRecord w f dm word step pc cause part i).getD 0 0).toNat / 2 ^ 32 % 2 ^ 8 = i.code := by
  have length : (if i.known then lengthField dm word else 0) < 16 := by
    split
    · exact lengthField_lt dm word
    · omega
  have mode := modeCode_lt dm
  have cls := (causeClass cause).code_lt
  simp only [trapRecord, List.getD_cons_zero, BitVec.toNat_ofNat]
  generalize (if i.known then lengthField dm word else 0) = len at *
  omega

/-- A fragment that enters a handler at `pc`, to issue at the clock `wake`. -/
def Frag.handling (pc wake : Nat) (f : Frag) : Frag :=
  { f with pc := pc, st := .running, wait := .none, wake := wake, refetch := false, capt := none }

/-- What entering a handler leaves of the wave: its context, its record's registers, and the fragment at the vector's PC (R383, R385, R387). -/
theorem enterHandler_wave {s : State} {r : FragRef} (present : (Tab.get? s.waves r.wave).isSome = true) (t : Trap) (pc : Nat) :
    ∃ lo hi, (s.enterHandler r t pc).wave r.wave =
      { s.wave r.wave with
        h := some { entry := r.entry, cause := t.cause, cls := t.cls, pc := ((s.wave r.wave).frag r.entry).pc
                    mask := ((s.wave r.wave).frag r.entry).mask, stack := ((s.wave r.wave).frag r.entry).stack
                    st := ((s.wave r.wave).frag r.entry).st, wait := ((s.wave r.wave).frag r.entry).wait, op := t.op, cap := t.cap
                    lo := lo, hi := hi, since := s.clock + 1 }
        hla := {}, hlb := {}, trec := (List.range t.trec.length).map fun i => (32 + i, t.trec.getD i 0)
        frags := ((s.wave r.wave).modFrag r.entry (Frag.handling pc (s.clockIn 40))).frags } :=
  ⟨_, _, (State.wave_modWave s _ _ _ present).trans (if_pos rfl)⟩

/-- A cause that the issuing instruction raises outside handler mode, with a handler, enters it with its record. -/
theorem trap_enters {s : State} {k : Iss} {cause : Nat} {part : Mask} {info : Info} (stands : Stands s) (sees : k.w = s.wave s.cur.wave)
    (own : k.f = (s.wave s.cur.wave).frag s.cur.entry) (idle : k.w.h = none) (handled : Handled s k cause) (recordable : Recordable s k)
    (causes : cause < 256) (codes : info.code < 256) (lanes : info.lanes = none) :
    EntersHandler s (s.trap cause part info) k cause part ∧
      (Tab.getD 0 ((s.trap cause part info).wave s.cur.wave).trec 32).toNat / 2 ^ 32 % 2 ^ 8 = info.code := by
  obtain ⟨steps, entry, half⟩ := recordable
  obtain ⟨present, -, -, mine⟩ := stands.wave
  rw [sees] at idle half
  have enters : s.trap cause part info = s.enterHandler s.curRef (s.trapNow cause part info) _ :=
    raise_of_handled (by rw [show s.curRef.wave = s.cur.wave from rfl, ← sees]; rfl) idle handled
  obtain ⟨lo, hi, now⟩ := enterHandler_wave (r := s.curRef) present (s.trapNow cause part info)
    ((s.vector (s.team k.w.team).pasid cause).toNat / 8 % 2 ^ 54 * 8)
  obtain ⟨head, code⟩ := trapRecord_head (w := s.wave s.cur.wave) (f := (s.wave s.cur.wave).frag s.cur.entry)
    (dm := (s.wave s.cur.wave).mode ((s.wave s.cur.wave).frag s.cur.entry).entry) (word := s.cur.word) (part := part) (i := info)
    (pc := ((s.wave s.cur.wave).frag s.cur.entry).pc) steps ((Wave.frag_entry mine).trans_lt entry) half causes codes
  have frag := Wave.frag_modFrag_self (s.wave s.cur.wave)
    (Frag.handling ((s.vector (s.team k.w.team).pasid cause).toNat / 8 % 2 ^ 54 * 8) (s.clockIn 40)) (fun _ => rfl) mine
  have all : part = info.lanes.getD part := by rw [lanes]; rfl
  rw [enters, EntersHandler, EntersHandlerAt]
  rw [show s.curRef.wave = s.cur.wave from rfl] at now
  dsimp only
  rw [now, own]
  refine ⟨⟨⟨_, rfl, rfl, rfl, rfl, rfl, rfl, rfl⟩, (congrArg Frag.pc frag :), (congrArg Frag.st frag :), (congrArg Frag.wake frag :), (congrArg Frag.mask frag :),
    rfl, rfl, head, rfl, rfl, all.symm, ⟨rfl, rfl, rfl, rfl, rfl, rfl, rfl, rfl⟩, fun n other => ?_, rfl⟩, code⟩
  exact enterHandler_wave_ne s _ _ (Ne.symm other)

/-- An instruction that only raises a cause enters its handler, with its code in the record. -/
theorem runs_of_trap {i : Instr} {h : Hdr} {cause : Nat} {code : BitVec 8} (causes : cause < 256)
    (execs : ∀ s, exec i s = issue ctl h (fun _ _ => .trap cause { code := code.toNat }) s) :
    Runs i h ctl (fun s k => k.w.h = none ∧ Handled s k cause ∧ Recordable s k)
      (fun s t k => TrapsAtIssue ctl s t k cause k.part ∧ ((Tab.getD 0 (t.wave s.cur.wave).trec 32).toNat / 2 ^ 32) % 2 ^ 8 = code.toNat) := by
  intro s _ issuing captured clear
  dsimp only
  rintro acts ⟨idle, handled, recordable⟩
  have sees : (s.issQ ctl h).w = s.wave s.cur.wave := congrArg Iss.w (iss_fresh h (capt_eq_none captured rfl))
  obtain ⟨counts, times, counted⟩ := issued_tally s (s.issQ ctl h) ctl
  have handled : Handled (s.tally counts times) (s.issQ ctl h) cause := by
    rw [Handled, vector_tally]
    exact handled
  refine ⟨_, (execs s).trans (issue_of_clear_trap clear acts rfl), ?_⟩
  unfold TrapsAtIssue
  rw [counted]
  exact trap_enters (s := s.tally counts times) ⟨issuing.wave, issuing.runs⟩ sees (issQ_f s ctl h) idle handled recordable causes code.isLt rfl

/-- Settles O17: each only raises its cause, with its code. -/
theorem softwareTraps : Obligations.SoftwareTraps := fun _ =>
  ⟨runs_of_trap (by decide) fun _ => rfl, runs_of_trap (by decide) fun _ => rfl⟩

end Sys2Proof.Machine

/-! SUPPORT. An instruction that writes registers of its wave on purpose: the frame of what it writes, and then of its end (R33, R34, R90). -/

namespace Sys2Proof.Machine

/-! ### The frame of a wave that was written and has then settled -/

/-- What an instruction writes, and what then settles there, is framed together where the write has left no kill that was not pending or marked. -/
theorem WaveFrame.settled {v v' w : Wave} {i : Iss} {e : Nat} {x : Writes} (frame : WaveFrame v v' i e x)
    (killV : ∀ n l, (v'.vreg n).kill.getLsbD l = true → n ∈ x.mv ∨ (v.vreg n).kill.getLsbD l = true)
    (killS : ∀ b n, (v'.sFile b n).kill = true → (n ∈ x.ms ∧ sHome i.hm n = b) ∨ (v.sFile b n).kill = true)
    (slots : ∀ k, k ∉ x.o → (v'.slotAt k).val = (v.slotAt k).val) (whole : x.split = false) (a : v'.Stays w i.hm e x.mv x.ms) : WaveFrame v w i e x := by
  have settles : WaveFrame v' w i e { mv := x.mv, ms := x.ms } := .of_stays (.refl v' rfl rfl) a
  obtain ⟨mask, stack, late, prior, hinged, fmt, st⟩ := settles.own rfl
  obtain ⟨md, acc, rej, keyLo, keyHi, trec⟩ := settles.sregs
  exact {
    vec := fun n l once lanes => by
      rcases settles.vec n l (List.not_mem_nil) (fun h => nomatch h) with same | ⟨zero, killed⟩
      · rw [same]; exact frame.vec n l once lanes
      · exact .inr ⟨zero, killed.elim .inl (killV n l)⟩
    scal := fun b n other => by
      rcases settles.scal b n (fun h => nomatch h.1) with ⟨val, dead⟩ | ⟨dead, killed⟩
      · rw [val, dead]; exact frame.scal b n other
      · exact .inr ⟨dead, killed.elim .inl (killS b n)⟩
    pred := fun n l lanes => (settles.pred n l fun h => nomatch h).trans (frame.pred n l lanes)
    pred14 := by
      have before := frame.pred14
      have after := settles.pred14
      split at before
      · next hm => rw [if_pos hm] at after ⊢; exact after.trans before
      · next hm => rw [if_neg hm] at after ⊢; exact after.trans before
    latch := fun b stays => (settles.latch b (by cases b <;> rfl)).trans (frame.latch b stays)
    latchO := fun b => (settles.latchO b).trans (frame.latchO b)
    slot := fun k other =>
       (settles.slot k List.not_mem_nil).imp (·.trans (slots k other)) id
    tile := fun n other => by
      obtain ⟨tile, fill⟩ := settles.tile n List.not_mem_nil
      obtain ⟨tile', fill'⟩ := frame.tile n other
      exact ⟨tile.trans tile', fill.trans fill'⟩
    pend := fun p other => (settles.pend p List.not_mem_nil).trans (frame.pend p other)
    ctr := fun l other => (settles.ctr l (by simp)).trans (frame.ctr l other)
    mx := fun stays => by
      refine (settles.mx rfl).trans ?_
      rw [frame.mx stays]
      cases v.mx <;> rfl
    prop := fun stays => (settles.prop rfl).trans (frame.prop stays)
    frag := fun whole f other => (settles.frag rfl f other).trans (frame.frag whole f other)
    own := fun whole => by
      obtain ⟨mask', stack', late', prior', hinged', fmt', st'⟩ := frame.own whole
      refine ⟨mask.trans mask', stack.trans stack', late.trans late', prior.trans prior', hinged.trans hinged',
        fun other => (fmt List.not_mem_nil).trans (fmt' other), fun stays => ?_⟩
      obtain ⟨st, wait, wake⟩ := st rfl
      obtain ⟨st', wait', wake'⟩ := st' stays
      exact ⟨st.trans st', wait.trans wait', wake.trans wake'⟩
    flags := fun other => (settles.flags List.not_mem_nil).trans (frame.flags other)
    sregs := by
      obtain ⟨md', acc', rej', keyLo', keyHi', trec'⟩ := frame.sregs
      exact ⟨fun o => (md List.not_mem_nil).trans (md' o), fun o => (acc List.not_mem_nil).trans (acc' o), fun o => (rej List.not_mem_nil).trans (rej' o),
        fun o => (keyLo List.not_mem_nil).trans (keyLo' o), fun o => (keyHi List.not_mem_nil).trans (keyHi' o),
        fun n o => (trec n List.not_mem_nil).trans (trec' n o)⟩
    rest := by
      have before := frame.rest
      rw [whole] at before ⊢
      exact settles.rest.trans (congrArg (fun z : Wave => { z with
        v := w.v, s := w.s, hs := w.hs, p := w.p, hp14 := w.hp14, la := w.la, lb := w.lb, hla := w.hla, hlb := w.hlb
        o := w.o, t := w.t, tfill := w.tfill, pBusy := w.pBusy, prop := w.prop, mx := w.mx, wpc := w.wpc, frags := w.frags, towed := w.towed, flags := w.flags
        rngctr := w.rngctr, md := w.md, acc := w.acc, rej := w.rej, keyLo := w.keyLo, keyHi := w.keyHi, trec := w.trec }) before) }

/-- An instruction that aims at a state, whatever it writes of its wave, leaves the rest alone. -/
theorem Frame.of_wave {s a t : State} {i : Iss} {x : Writes} {w : Wave} (stands : Stands s) (aims : s.Aims a i x w) (st : a.Settles t i x.mv x.ms)
    (sat : x.sat = false) (whole : x.split = false) (wave : WaveFrame (s.wave s.cur.wave) (t.wave s.cur.wave) i s.cur.entry x) : Frame s t i x := by
  obtain ⟨present, -, -, mine⟩ := stands.wave
  have cur : a.cur = s.cur := aims.cur
  -- the same, but for the waves, which are as they were
  have aims' : s.Aims { a with waves := s.waves } i x (s.wave s.cur.wave) :=
    { aims with
      here := present
      wave := rfl, waves := fun _ _ => rfl
      rest := congrArg (fun z : State => { z with waves := s.waves }) aims.rest }
  have st' : State.Settles { a with waves := s.waves } { t with waves := s.waves } i x.mv x.ms :=
    { heres := by rw [cur]; exact ⟨present, present⟩
      stands := by rw [cur]; exact mine
      wave := .refl .., waves := fun _ _ => rfl, cnt := st.cnt, busy := st.busy
      rest := congrArg (fun z : State => { z with waves := s.waves }) st.rest }
  have frame := Frame.of_aims aims' (.refl _ sat whole) st'
  exact { frame with
    wave := wave
    waves := fun n other => (st.waves n (by rw [cur]; exact other)).trans (aims.waves n other)
    rest := congrArg (fun z : State => { z with waves := t.waves }) frame.rest }

/-! ### A scalar that is written -/

theorem Wave.setS_rest (w : Wave) (hm : Bool) (n : Nat) (r : SReg) : ∃ s hs, w.setS hm n r = { w with s := s, hs := hs } := by
  unfold Wave.setS
  split
  · exact ⟨w.s, _, rfl⟩
  · exact ⟨_, w.hs, rfl⟩

/-- The same scalar written in both is one that stays. -/
theorem Wave.Stays.writeS {v w : Wave} {hm : Bool} {e : Nat} {mv ms : List Nat} (a : v.Stays w hm e mv ms) (n : Nat) (x : DWord) :
    (v.writeS hm n x).Stays (w.writeS hm n x) hm e mv ms where
  still := by
    obtain ⟨_, _, ev⟩ := v.setS_rest hm n { val := x, dead := false }
    obtain ⟨_, _, ew⟩ := w.setS_rest hm n { val := x, dead := false }
    rw [Wave.writeS, Wave.writeS, ev, ew]
    exact a.still
  vec m l := by simpa [Wave.writeS, Wave.vlane] using a.vec m l
  killV m l := by simpa [Wave.writeS] using a.killV m l
  scal b m := by
    rw [Wave.writeS, Wave.writeS, Wave.sFile_setS, Wave.sFile_setS]
    split
    · exact .inl ⟨rfl, rfl⟩
    · exact a.scal b m
  killS b m := by
    rw [Wave.writeS, Wave.writeS, Wave.sFile_setS, Wave.sFile_setS]
    split
    · exact .inr
    · exact a.killS b m
  slot k := by simpa [Wave.writeS, Wave.slotAt] using a.slot k
  entries := by simpa [Wave.writeS] using a.entries
  frag f other := by simpa [Wave.writeS] using a.frag f other
  own := by simpa [Wave.writeS] using a.own

theorem Wave.sFile_writeS_self (w : Wave) (hm : Bool) (n : Nat) (x : DWord) : (w.writeS hm n x).sFile (sHome hm n) n = { val := x, dead := false } :=
  (Wave.sFile_setS ..).trans (if_pos ⟨rfl, rfl⟩)

theorem WaveFrame.writeS {v w : Wave} {i : Iss} {e : Nat} {x : Writes} (frame : WaveFrame v w i e x) {n : Nat} (mine : n ∈ x.ds) (y : DWord) :
    WaveFrame v (w.writeS i.hm n y) i e x := by
  have scal := frame.scal
  have file := w.sFile_setS i.hm n { val := y, dead := false }
  rw [Wave.writeS]
  obtain ⟨s, hs, written⟩ := w.setS_rest i.hm n { val := y, dead := false }
  rw [written] at file ⊢
  exact { frame with
    scal := fun b m other => by
      rw [file, if_neg]
      · exact scal b m other
      · rintro ⟨rfl, home⟩
        exact other ⟨mine, home⟩
    rest := congrArg (fun z : Wave => { z with s := s, hs := hs }) frame.rest }

/-! ### Instructions that write their wave -/

section
variable {s a b : State} {i : Iss} {x : Writes} {w : Wave} (c : s.Course a b i x w)
include c

/-- The end of an instruction kills nothing but what was pending when its effect had been. -/
theorem State.Course.ends (u : Uses) :
    (b.wave s.cur.wave).Stays ((b.finish s.curRef i u).wave s.cur.wave) i.hm s.cur.entry [] [] := by
  have cur : b.cur = s.cur := c.cur
  have st : b.Settles b i [] [] :=
    { heres := by rw [cur]; exact ⟨c.here, c.here⟩
      stands := by rw [cur]; exact (Wave.stands_iff c.stays.entries _).mpr c.stands
      wave := .refl .., waves := fun _ _ => rfl, cnt := fun _ _ => rfl, busy := fun _ _ => rfl, rest := rfl }
  have := (st.finish u).wave
  rwa [State.curRef, cur] at this

/-- A wave that was written as `w` is framed at the instruction's end, too. -/
theorem State.Course.frame_of_written (stands : Stands s) (written : WaveFrame (s.wave s.cur.wave) w i s.cur.entry x)
    (killV : ∀ n l, (w.vreg n).kill.getLsbD l = true → n ∈ x.mv ∨ ((s.wave s.cur.wave).vreg n).kill.getLsbD l = true)
    (killS : ∀ b n, (w.sFile b n).kill = true → (n ∈ x.ms ∧ sHome i.hm n = b) ∨ ((s.wave s.cur.wave).sFile b n).kill = true)
    (slots : ∀ k, k ∉ x.o → (w.slotAt k).val = ((s.wave s.cur.wave).slotAt k).val) (sat : x.sat = false) (whole : x.split = false) : Frame s b i x :=
  .of_wave stands c.aims c.settles sat whole (written.settled killV killS slots whole c.stays)

end

section
variable {m : Sem} {i : Instr} {also : State → State → Iss → Prop} {s : State} {body : Iss → State → Body}

/-- An instruction with a scalar result, or none in a destination, completes if it does so where a lane takes part. -/
theorem Sem.completesAt_of_acting (none' : m.d = none ∧ m.pd = none) (runs : exec i s = issue m.u m.h body s)
    (idle : (s.issQ m.u m.h).part = 0 → m.u.whole = true ∨ body (s.issQ m.u m.h) s = .go id)
    (acts : Issuing s → s.CaptureOk m.u → Clear s m.u m.h → (s.issQ m.u m.h).part ≠ 0 → m.ok s (s.issQ m.u m.h) →
      ∃ eff, body (s.issQ m.u m.h) s = .go eff ∧ ∀ t, t = (eff (s.afterIssue m.u m.h)).finish s.curRef (s.issQ m.u m.h) m.u →
        (∀ n, m.sd = some n → (t.wave s.cur.wave).sval (s.issQ m.u m.h).hm n.toNat = m.sval s (s.issQ m.u m.h))
          ∧ also s t (s.issQ m.u m.h) ∧ (s.ownFrag t).pc = (s.issQ m.u m.h).f.pc + s.cur.step
          ∧ Frame s t (s.issQ m.u m.h) (m.writes (s.issQ m.u m.h))) : m.CompletesAt i also s := by
  intro wf issuing captured clear k ok
  obtain ⟨noD, noPd⟩ := none'
  by_cases act : k.part = 0
  · -- with no lane taking part there is no result to stand anywhere
    let m' : Sem := { m with sd := none, ok := fun _ k => k.part = 0 }
    have completes : m'.CompletesAt i also s := Sem.completesAt_of ⟨noD, rfl, noPd⟩ runs rfl (fun c => c) idle
      fun _ _ _ _ act' act => absurd act act'
    obtain ⟨t, ran, d, -, p, holds, pc, frame⟩ := completes wf issuing captured clear act
    exact ⟨t, ran, d, fun _ _ part => absurd act part, p, holds, pc, frame⟩
  · obtain ⟨eff, goes, post⟩ := acts issuing captured clear act ok
    obtain ⟨scalar, holds, pc, frame⟩ := post _ rfl
    refine ⟨_, runs.trans (issue_of_clear clear (fun both => act both.2) goes), fun d some' => ?_, fun n some' _ => scalar n some', fun p some' => ?_,
      fun _ => holds, fun _ => pc, frame⟩
    · rw [noD] at some'; cases some'
    · rw [noPd] at some'; cases some'

end

/-! ### Scalar instructions (R147) -/

/-- An instruction that writes its scalar once, and does no more, completes. -/
theorem Sem.completes_of_writeS {m : Sem} {i : Instr} {d : BitVec 7} (none' : m.d = none ∧ m.pd = none) (sd : m.sd = some d) (mine : d.toNat ∈ m.u.ds)
    (whole : m.u.whole = true) (more : ∀ k, m.more k = {}) (sat : ∀ k, m.sat k = false)
    (runs : ∀ s, exec i s = issue m.u m.h (fun k s => .go fun t => t.modWave k.w.id fun w => w.writeS k.hm d.toNat (m.sval s k)) s) :
    m.Completes i := by
  intro s
  refine Sem.completesAt_of_acting none' (runs s) (fun _ => .inl whole) fun issuing captured clear act _ => ⟨_, rfl, ?_⟩
  rintro _ rfl
  generalize hk : s.issQ m.u m.h = k at act ⊢
  obtain ⟨-, name, -, stands⟩ := issuing.wave
  have writes : m.writes k = _ := if_neg act
  have own : k.w.id = s.cur.wave := by rw [← hk]; exact (issQ_w s m.u m.h).1.trans name
  have pcs : k.f.pc = ((s.wave s.cur.wave).frag s.cur.entry).pc := by rw [← hk, issQ_f]
  have read := m.course_read issuing.toStands rfl (hk ▸ act) (by rw [more])
  rw [hk] at read
  have c := read.modWave (f := fun w => w.writeS k.hm d.toNat (m.sval s k)) (fun _ _ a => a.writeS _ _) fun w => by simp [Wave.writeS]
  rw [own]
  have ended := c.finish m.u
  have passed : WaveFrame (s.wave s.cur.wave) ((s.wave s.cur.wave).modFrag s.cur.entry (Frag.passed s)) k s.cur.entry (m.writes k) :=
    .of_stays (.passed s _ (by rw [writes]; exact sat k) (by rw [writes, more])) (.refl ..)
  have file (b : Bool) (n : Nat) : (((s.wave s.cur.wave).modFrag s.cur.entry (Frag.passed s)).writeS k.hm d.toNat (m.sval s k)).sFile b n = _ :=
    Wave.sFile_setS ..
  refine ⟨fun n some' => ?_, trivial, ?_, ended.frame_of_written issuing.toStands (passed.writeS (by rw [writes]; exact mine) _) ?_ ?_ ?_ ?_ ?_⟩
  · obtain rfl : d = n := Option.some.inj (sd.symm.trans some')
    have kept := (c.ends m.u).scal (sHome k.hm d.toNat) d.toNat
    rw [State.wave_modWave _ _ _ _ read.here, if_pos rfl, Wave.sFile_writeS_self] at kept
    obtain ⟨val, dead⟩ := kept.resolve_right (by simp)
    rw [Wave.sval, Wave.sreg_eq_sFile, dead, val]
    rfl
  · rw [pcs]
    refine ended.pc issuing ?_
    rw [Wave.writeS, Wave.frag_setS, Wave.frag_modFrag_self _ (Frag.passed s) (fun _ => rfl) stands]
    rfl
  · intro n l killed
    rw [Wave.writeS, Wave.vreg_setS] at killed
    exact .inr killed
  · intro b n killed
    rw [file] at killed
    split at killed
    · cases killed
    · exact .inr killed
  · intro n _
    simp [Wave.writeS, Wave.slotAt, Wave.modFrag]
  · rw [writes]; exact sat k
  · rw [writes, more]

theorem semS1_completes {i : Instr} (x : S1) {f : DWord → DWord} (runs : ∀ s, exec i s = sc1 x f s) : (semS1 x.h x.d x.a f).Completes i :=
  Sem.completes_of_writeS ⟨rfl, rfl⟩ rfl (.head _) rfl (fun _ => rfl) (fun _ => rfl) runs

theorem semS2_completes {i : Instr} (x : S2) {f : DWord → DWord → DWord} (runs : ∀ s, exec i s = sc2 x f s) : (semS2 x.h x.d x.a x.b f).Completes i :=
  Sem.completes_of_writeS ⟨rfl, rfl⟩ rfl (.head _) rfl (fun _ => rfl) (fun _ => rfl) runs

theorem and_low32 (a : DWord) : a &&& 0xFFFFFFFF = (a.setWidth 32).setWidth 64 := by
  apply BitVec.eq_of_toNat_eq
  rw [BitVec.toNat_and, BitVec.toNat_setWidth, BitVec.toNat_setWidth, show (0xFFFFFFFF : DWord).toNat = 2 ^ 32 - 1 from rfl,
    Nat.and_two_pow_sub_one_eq_mod]
  omega

/-- An arithmetic shift by the width or more leaves the sign in every bit. -/
theorem sshiftRight_of_le (a : DWord) {n : Nat} (wide : 64 ≤ n) : a.sshiftRight n = if a.msb then BitVec.allOnes 64 else 0 := by
  ext k hk
  rw [BitVec.getElem_sshiftRight, dif_neg (by omega)]
  cases a.msb
  · simp
  · rw [if_pos rfl, BitVec.getElem_allOnes]

/-- Settles O8: each writes its scalar once, and does no more. -/
theorem scalarResults : Obligations.ScalarResults := by
  intro i m sem
  cases i <;> cases sem
  case smov x => exact semS1_completes x fun _ => rfl
  case smovi x =>
    refine semS1_completes ⟨x.h, x.d, x.a⟩ fun s => (show exec (.smovi x) s = execSmovi x s from rfl).trans ?_
    simp only [execSmovi, and_low32]
  case sadd x => exact semS2_completes x fun _ => rfl
  case ssub x => exact semS2_completes x fun _ => rfl
  case smul x => exact semS2_completes x fun _ => rfl
  case sand x => exact semS2_completes x fun _ => rfl
  case sor x => exact semS2_completes x fun _ => rfl
  case sxor x => exact semS2_completes x fun _ => rfl
  case sshl x => exact semS2_completes x fun _ => rfl
  case sshr x =>
    refine semS2_completes ⟨x.h, x.d, x.a, x.b⟩ fun s => (show exec (.sshr x) s = execSshr x s from rfl).trans ?_
    refine congrArg (fun f => sc2 ⟨x.h, x.d, x.a, x.b⟩ f s) (funext fun a => funext fun b => ?_)
    by_cases wide : 64 ≤ b.toNat
    · simp only [Nat.min_eq_right wide, sshiftRight_of_le a le_rfl, ge_iff_le, wide, if_true]
    · simp only [Nat.min_eq_left (Nat.le_of_not_le wide), ge_iff_le, wide, if_false]

end Sys2Proof.Machine

/-! SUPPORT. Marks of registers, slots and tiles (R160, R162, R184), and the settled statement. -/

namespace Sys2Proof.Machine

/-! ### A tile that is written -/

/-- A wave whose tile `n` is `g` of what it was. -/
def Wave.modTile (w : Wave) (n : Nat) (g : Memory → Memory) : Wave := { w with t := Tab.set w.t n (g (w.tile n)) }

theorem Wave.tile_modTile (w : Wave) (n : Nat) (g : Memory → Memory) (k : Nat) : (w.modTile n g).tile k = if n = k then g (w.tile n) else w.tile k :=
  Tab.getD_set ..

theorem Wave.Stays.modTile {v w : Wave} {hm : Bool} {e : Nat} {mv ms : List Nat} (st : v.Stays w hm e mv ms) (n : Nat) (g : Memory → Memory) :
    (v.modTile n g).Stays (w.modTile n g) hm e mv ms :=
  { st with still := congrArg (fun z : Wave => z.modTile n g) st.still }

theorem Wave.Aims.modTile {v w : Wave} {e : Nat} {x : Writes} (a : v.Aims w e x) {n : Nat} {g : Memory → Memory}
    (writes : n ∈ x.tiles ∨ g (w.tile n) = w.tile n) : v.Aims (w.modTile n g) e x :=
  { a with
    same := congrArg (fun z : Wave => { z with t := (w.modTile n g).t }) a.same
    tile := fun k out => by
      obtain ⟨same, fills⟩ := a.tile k out
      refine ⟨?_, fills⟩
      rw [Wave.tile_modTile]
      split
      · next here =>
        subst here
        exact (writes.resolve_left out).trans same
      · exact same }

/-- The bytes of an image after the words of lanes have been put in it, from `off` on. -/
theorem get_imgPut (m : Memory) (off : Nat) (mask : Mask) (v : Lanes) (b : Nat) : (imgPut m off mask v).get b =
    if off ≤ b ∧ (b - off) / 4 < 64 ∧ mask.getLsbD ((b - off) / 4) = true then (laneAt v ((b - off) / 4)).extractLsb' (8 * ((b - off) % 4)) 8
    else m.get b := by
  have from' (ls : List Nat) (m : Memory) : (ls.foldl (fun m l => m.setNum (off + 4 * l) 4 (laneAt v l).toNat) m).get b =
      if off ≤ b ∧ (b - off) / 4 ∈ ls then (laneAt v ((b - off) / 4)).extractLsb' (8 * ((b - off) % 4)) 8 else m.get b := by
    induction ls generalizing m with
    | nil => simp
    | cons l ls ih =>
      rw [List.foldl_cons, ih, Memory.setNum, Memory.get_setBytes, leBytes_length]
      by_cases later : off ≤ b ∧ (b - off) / 4 ∈ ls
      · rw [if_pos later, if_pos ⟨later.1, .tail _ later.2⟩]
      · rw [if_neg later]
        by_cases here : off + 4 * l ≤ b ∧ b < off + 4 * l + 4
        · obtain rfl : (b - off) / 4 = l := by omega
          rw [if_pos here, if_pos ⟨by omega, .head _⟩, leBytes_getD (by omega), show b - (off + 4 * ((b - off) / 4)) = (b - off) % 4 by omega]
          apply BitVec.eq_of_toNat_eq
          rw [BitVec.toNat_ofNat, BitVec.extractLsb'_toNat, Nat.shiftRight_eq_div_pow, show (256 : Nat) = 2 ^ 8 from rfl, ← Nat.pow_mul]
        · rw [if_neg here, if_neg]
          rintro ⟨low, mem⟩
          rcases List.mem_cons.mp mem with same | mem
          · omega
          · exact later ⟨low, mem⟩
  rw [imgPut, from']
  refine if_congr (and_congr_right fun _ => ?_) rfl rfl
  rw [mem_lanesOf]
  exact ⟨fun set => ⟨BitVec.lt_of_getLsbD set, set⟩, And.right⟩

section
variable {m : Sem} {i : Instr} {also : State → State → Iss → Prop} {s : State} {body : Iss → State → Body}

/-- The operands have been read, if a lane takes part; no more has been done yet. -/
theorem Sem.course_issued (stands : Stands s) (pop : (m.more (s.issQ m.u m.h)).pop = none) :
    s.Course (s.passedOn m.u m.h) (s.afterIssue m.u m.h) (s.issQ m.u m.h) (m.writes (s.issQ m.u m.h))
      ((s.wave s.cur.wave).modFrag s.cur.entry (Frag.passed s)) := by
  by_cases act : (s.issQ m.u m.h).part = 0
  · exact afterIssue_course stands (fun part => absurd act part) (by rw [Sem.writes, if_pos act, if_pos act])
  · exact m.course_read stands rfl act pop

theorem frag_passed (stands : Stands s) : ((s.wave s.cur.wave).modFrag s.cur.entry (Frag.passed s)).frag s.cur.entry =
    Frag.passed s ((s.wave s.cur.wave).frag s.cur.entry) :=
  Wave.frag_modFrag_self _ (Frag.passed s) (fun _ => rfl) stands.wave.2.2.2

/-- An instruction without a result in a destination completes if its effect leads where it aims, also that of an instruction of lanes in which none
takes part. -/
theorem Sem.completesAt_of_effect (none' : m.d = none ∧ m.sd = none ∧ m.pd = none) (runs : exec i s = issue m.u m.h body s)
    (effect : Issuing s → s.CaptureOk m.u → Clear s m.u m.h → m.ok s (s.issQ m.u m.h) → ¬(m.u.whole = true ∧ (s.issQ m.u m.h).part = 0) →
      ∃ eff a w, body (s.issQ m.u m.h) s = .go eff ∧ s.Course a (eff (s.afterIssue m.u m.h)) (s.issQ m.u m.h) (m.writes (s.issQ m.u m.h)) w ∧
        (s.wave s.cur.wave).Aims w s.cur.entry (m.writes (s.issQ m.u m.h)) ∧
        (w.frag s.cur.entry).pc = nextPc ((s.wave s.cur.wave).frag s.cur.entry).pc s.cur.step ∧
        ∀ t, t = (eff (s.afterIssue m.u m.h)).finish s.curRef (s.issQ m.u m.h) m.u → (s.issQ m.u m.h).part ≠ 0 → also s t (s.issQ m.u m.h)) :
    m.CompletesAt i also s := by
  intro wf issuing captured clear k ok
  by_cases idle : m.u.whole = true ∧ k.part = 0
  · let m' : Sem := { m with ok := fun _ k => k.part = 0 }
    have completes : m'.CompletesAt i also s := Sem.completesAt_of none' runs rfl (fun c => c) (fun _ => .inl idle.1)
      fun _ _ _ _ act' act => absurd act act'
    exact completes wf issuing captured clear idle.2
  · obtain ⟨noD, noSd, noPd⟩ := none'
    obtain ⟨eff, a, w, goes, c, aims, moved, also'⟩ := effect issuing captured clear ok idle
    refine ⟨_, runs.trans (issue_of_clear clear idle goes), fun d some' => ?_, fun n some' => ?_, fun p some' => ?_, also' _ rfl, fun _ => ?_,
      (c.finish m.u).frame aims⟩
    · rw [noD] at some'; cases some'
    · rw [noSd] at some'; cases some'
    · rw [noPd] at some'; cases some'
    · rw [show k.f = _ from issQ_f s m.u m.h]; exact (c.finish m.u).pc issuing moved

theorem issQ_t (s : State) (u : Uses) (h : Hdr) : (s.issQ u h).w.t = (s.wave s.cur.wave).t := by
  rw [show (s.issQ u h).w = (s.iss h).w from rfl, State.iss]
  split
  · simp [Wave.under]
  · rfl

/-- An instruction that changes one tile, and does no more, completes. -/
theorem Sem.completesAt_of_tile {n : Nat} {g : Iss → Memory → Memory} (none' : m.d = none ∧ m.sd = none ∧ m.pd = none)
    (runs : exec i s = issue m.u m.h (fun k _ => .go fun t => t.modWave k.w.id fun w => w.modTile n (g k)) s)
    (more : ∀ k, m.more k = { tiles := [n] }) (sat : ∀ k, m.sat k = false) (idle : m.u.whole = true ∨ ∀ k, k.part = 0 → ∀ m, g k m = m)
    (also' : ∀ t, (t.wave s.cur.wave).tile n = g (s.issQ m.u m.h) ((s.issQ m.u m.h).w.tile n) → also s t (s.issQ m.u m.h)) :
    m.CompletesAt i also s := by
  refine Sem.completesAt_of_effect none' runs fun issuing _ _ _ acts => ?_
  generalize hk : s.issQ m.u m.h = k at acts also' ⊢
  obtain ⟨-, name, -, -⟩ := issuing.wave
  have own : k.w.id = s.cur.wave := by rw [← hk]; exact (issQ_w s m.u m.h).1.trans name
  have read := m.course_issued issuing.toStands (by rw [more])
  rw [hk] at read
  have c := read.modWave (f := fun w => w.modTile n (g k)) (fun _ _ st => st.modTile n _) fun _ => rfl
  refine ⟨_, _, _, rfl, by rw [own]; exact c, Wave.Aims.modTile (.passed s _ ?_ ?_) ?_, ?_, ?_⟩
  · rw [Sem.writes]; split
    · rfl
    · exact sat k
  · rw [Sem.writes, more]; split <;> rfl
  · by_cases act : k.part = 0
    · exact .inr (idle.resolve_left (fun whole => acts ⟨whole, act⟩) k act _)
    · rw [Sem.writes, if_neg act, more]; exact .inl (.head _)
  · show (((s.wave s.cur.wave).modFrag s.cur.entry (Frag.passed s)).frag s.cur.entry).pc = _
    rw [frag_passed issuing.toStands]
    rfl
  · rintro t rfl -
    refine also' _ ?_
    rw [own]
    have stays := (c.finish m.u).stays
    have tile : ((((s.afterIssue m.u m.h).modWave s.cur.wave fun w => w.modTile n (g k)).finish s.curRef k m.u).wave s.cur.wave).tile n =
        (((s.wave s.cur.wave).modFrag s.cur.entry (Frag.passed s)).modTile n (g k)).tile n := (congrArg (fun z : Wave => z.tile n) stays.still :)
    rw [tile, Wave.tile_modTile, if_pos rfl, show k.w.tile n = (s.wave s.cur.wave).tile n from by rw [← hk]; exact congrArg (Tab.getD [] · n) (issQ_t s m.u m.h)]
    rfl

end

/-! ### States of registers (R160) -/

/-- A wave in which the named registers have a state. -/
def Wave.markSt (w : Wave) (hm : Bool) (vs ss : List Nat) (st : RegState) : Wave :=
  ss.foldl (fun w n => w.setS hm n { w.sreg hm n with st := st }) (vs.foldl (fun w n => w.setV n { w.vreg n with st := st }) w)

theorem Wave.Stays.markSt {v w : Wave} {hm : Bool} {e : Nat} {mv ms : List Nat} (a : v.Stays w hm e mv ms) (vs ss : List Nat) (st : RegState) :
    v.Stays (w.markSt hm vs ss st) hm e mv ms :=
  Wave.Stays.foldl ss (fun n _ w a => a.setS n (r := { w.sreg hm n with st := st }) rfl rfl .inr)
    (Wave.Stays.foldl vs (fun n _ w a => a.setV n (r := { w.vreg n with st := st }) rfl rfl fun _ => .inr) a)

theorem Wave.vreg_markSt (w : Wave) (hm : Bool) (vs ss : List Nat) (st : RegState) (n : Nat) :
    (w.markSt hm vs ss st).vreg n = if n ∈ vs then { w.vreg n with st := st } else w.vreg n := by
  rw [Wave.markSt, foldl_keeps (p := fun w : Wave => w.vreg n) (fun w m => by simp)]
  induction vs generalizing w with
  | nil => rfl
  | cons m vs ih =>
    rw [List.foldl_cons, ih, Wave.vreg_setV]
    by_cases here : m = n
    · subst here; simp
    · simp [here, Ne.symm here]

theorem Wave.sreg_markSt (w : Wave) (hm : Bool) (vs : List Nat) {ss : List Nat} (st : RegState) {n : Nat} (mine : n ∈ ss) :
    ((w.markSt hm vs ss st).sreg hm n).st = st := by
  rw [Wave.markSt]
  generalize vs.foldl (fun w n => w.setV n { w.vreg n with st := st }) w = w
  have kept (ss : List Nat) (w : Wave) (done : (w.sreg hm n).st = st) :
      ((ss.foldl (fun w n => w.setS hm n { w.sreg hm n with st := st }) w).sreg hm n).st = st := by
    induction ss generalizing w with
    | nil => exact done
    | cons m ss ih =>
      refine ih _ ?_
      rw [Wave.sreg_eq_sFile, Wave.sFile_setS]
      split
      · rfl
      · exact done
  obtain ⟨before, after, rfl⟩ := List.append_of_mem mine
  rw [List.foldl_append, List.foldl_cons]
  exact kept after _ (by rw [Wave.sreg_setS_self])

/-- Without sources an instruction changes no register's value by its reads. -/
theorem Wave.afterReads_val (w : Wave) (i : Iss) {u : Uses} (srcs : u.srcs = []) (vl : u.vl = false) (n : Nat) :
    ((w.afterReads i u).vreg n).val = (w.vreg n).val := by
  have wir (w : Wave) (m : Nat) : ((w.markWir i.hm m).vreg n).val = (w.vreg n).val := by
    unfold Wave.markWir
    split
    · rfl
    · rw [Wave.vreg_setV]
      split
      · next same => rw [same]
      · rfl
  unfold Wave.afterReads
  simp only [srcs, vl, List.flatMap_nil, List.foldl_nil, Wave.markKills, ite_self, Bool.false_and, Bool.false_eq_true, if_false]
  rw [foldl_keeps (p := fun w : Wave => (w.vreg n).val) wir]
  split
  · show ((w.noteReads i u).vreg n).val = _
    unfold Wave.noteReads
    split <;> rfl
  · unfold Wave.noteReads
    split <;> rfl

/-- A change of the wave that keeps what stands in it. -/
theorem State.Course.stir {s a b : State} {i : Iss} {x : Writes} {w : Wave} (c : s.Course a b i x w) {f : Wave → Wave}
    (keeps : ∀ v, w.Stays v i.hm s.cur.entry x.mv x.ms → w.Stays (f v) i.hm s.cur.entry x.mv x.ms) : s.Course a (b.modWave s.cur.wave f) i x w := by
  have cur := c.aims.cur
  have wave (n : Nat) : (b.modWave s.cur.wave f).wave n = if s.cur.wave = n then f (b.wave n) else b.wave n := State.wave_modWave b _ n f c.here
  have st := c.settles
  refine ⟨c.aims, { heres := ⟨st.heres.1, ?_⟩, stands := st.stands, wave := ?_, waves := fun n other => ?_, cnt := st.cnt, busy := st.busy, rest := ?_ }⟩
  · rw [cur]; exact (State.isSome_modWave ..).trans c.here
  · rw [cur, c.aims.wave, wave, if_pos rfl]; exact keeps _ c.stays
  · rw [cur] at other
    rw [wave, if_neg (Ne.symm other)]
    exact st.waves n (by rw [cur]; exact other)
  · exact congrArg (fun z : State => { z with waves := (b.modWave s.cur.wave f).waves }) st.rest

/-- In K3 code or in a handler an instruction that consumes nothing makes no region entry of its own accord (R33, R69, R361). -/
theorem owesEntry_of_plain {k : Iss} {u : Uses} (entry : u.entry = false) (srcs : u.srcs = []) (tr : u.tr = []) (push : u.push = none)
    (stays : k.w.dm = .k3 ∨ k.hm = true) : k.owesEntry u = false := by
  have plain : (u.entry || consumes k u || usesQueue u) = false := by simp [entry, consumes, usesQueue, srcs, tr, push]
  rw [Iss.owesEntry, plain, Bool.false_or]
  rcases stays with k3 | handler
  · rw [decide_eq_false (not_not.mpr k3), Bool.and_false]
  · rw [handler]; rfl

/-- An instruction that only sets the states of registers completes, in K3 code or in a handler, where no region entry comes after it. -/
theorem Sem.completesAt_of_markSt {m : Sem} {i : Instr} {s : State} {st : RegState} (none' : m.d = none ∧ m.sd = none ∧ m.pd = none)
    (uses : m.u = { ctl with dv := m.u.dv, ds := m.u.ds }) (more : ∀ k, m.more k = {}) (sat : ∀ k, m.sat k = false)
    (ok : ∀ k, m.ok s k → k.w.dm = .k3 ∨ k.hm = true)
    (runs : exec i s = issue m.u m.h (fun k _ => .go fun t => t.modWave k.w.id fun w => w.markSt k.hm m.u.dv m.u.ds st) s) :
    m.CompletesAt i (fun s t k => (∀ n ∈ m.u.dv, ((t.wave s.cur.wave).vreg n).st = st ∧ ((t.wave s.cur.wave).vreg n).val = (k.w.vreg n).val)
      ∧ ∀ n ∈ m.u.ds, ((t.wave s.cur.wave).sreg k.hm n).st = st) s := by
  refine Sem.completesAt_of_effect none' runs fun issuing captured _ pre acts => ?_
  have srcs : m.u.srcs = [] := (congrArg Uses.srcs uses :)
  have sees : (s.issQ m.u m.h).w = s.wave s.cur.wave :=
    congrArg Iss.w (iss_fresh m.h (capt_eq_none captured (by rw [uses]; rfl)))
  have ended : (s.issQ m.u m.h).owesEntry m.u = false :=
    owesEntry_of_plain (congrArg Uses.entry uses :) srcs (congrArg Uses.tr uses :) (congrArg Uses.push uses :) (ok _ pre)
  generalize hk : s.issQ m.u m.h = k at *
  obtain ⟨here, name, -, -⟩ := issuing.wave
  have own : k.w.id = s.cur.wave := by rw [sees, name]
  have read := m.course_issued issuing.toStands (by rw [more])
  rw [hk] at read
  have c := read.stir (f := fun w => w.markSt k.hm m.u.dv m.u.ds st) fun _ a => a.markSt ..
  have aims : (s.wave s.cur.wave).Aims ((s.wave s.cur.wave).modFrag s.cur.entry (Frag.passed s)) s.cur.entry (m.writes k) := by
    refine .passed s _ ?_ ?_
    · rw [Sem.writes]
      split
      · rfl
      · exact sat k
    · rw [Sem.writes, more]
      split <;> rfl
  refine ⟨_, _, _, rfl, by rw [own]; exact c, aims, by rw [frag_passed issuing.toStands]; rfl, ?_⟩
  rintro t rfl act
  have ends := State.Course.finish_eq (u := m.u) (h := m.h) (by rw [hk]; exact c) m.u aims (by rw [hk]; exact act)
  rw [hk, ended, Bool.false_and, if_neg Bool.false_ne_true] at ends
  rw [own, ends, State.wave_modWave _ _ _ _ read.here, if_pos rfl]
  refine ⟨fun n mine => ?_, fun n mine => Wave.sreg_markSt _ _ _ _ mine⟩
  rw [Wave.vreg_markSt, if_pos mine]
  refine ⟨rfl, ?_⟩
  rw [afterIssue_wave here, sees]
  exact Wave.afterReads_val _ _ srcs (congrArg Uses.vl uses :) n

/-! ### A slot that is filled (R162) -/

theorem Wave.Stays.setSlot {v w : Wave} {hm : Bool} {e : Nat} {mv ms : List Nat} (a : v.Stays w hm e mv ms) (k : Nat) (x : Slot) :
    (v.setSlot k x).Stays (w.setSlot k x) hm e mv ms :=
  { a with
    still := a.still
    slot := fun j => by
      rw [Wave.slotAt_setSlot, Wave.slotAt_setSlot]
      split
      · exact .inl rfl
      · exact a.slot j }

theorem WaveFrame.setSlot {v w : Wave} {i : Iss} {e : Nat} {x : Writes} (frame : WaveFrame v w i e x) {k : Nat} (mine : k ∈ x.o) (y : Slot) :
    WaveFrame v (w.setSlot k y) i e x :=
  { frame with
    slot := fun j other => by
      rw [Wave.slotAt_setSlot, if_neg (fun same : k = j => other (same ▸ mine))]
      exact frame.slot j other
    rest := congrArg (fun z : Wave => { z with o := (w.setSlot k y).o }) frame.rest }

/-- A slot is as it was, or empty where a kill of register `n` was pending. -/
def Wave.SlotKept (v w : Wave) (k n : Nat) : Prop :=
  (w.slotAt k = v.slotAt k ∨ (w.slotAt k = {} ∧ (v.vreg n).kill ≠ 0)) ∧ ((w.vreg n).kill ≠ 0 → (v.vreg n).kill ≠ 0)

theorem Wave.SlotKept.applyKill {v w : Wave} {k n : Nat} (kept : v.SlotKept w k n) (clean : (v.slotAt k).st = .clean n) (m : Nat) :
    v.SlotKept (w.applyKill m) k n := by
  obtain ⟨slot, kill⟩ := kept
  by_cases none' : (w.vreg m).kill = 0
  · rw [show w.applyKill m = w by simp [Wave.applyKill, none']]
    exact ⟨slot, kill⟩
  have killed (st : RegState) (owed : Bool) : ((w.killed m st owed).vreg n).kill ≠ 0 → (v.vreg n).kill ≠ 0 := by
    rw [Wave.killed_vreg]
    split
    · simp
    · exact kill
  rcases w.applyKill_cases m with same | ⟨st, owed, same | same⟩
  · rw [same]; exact ⟨slot, kill⟩
  · rw [same]; exact ⟨slot, killed st owed⟩
  · rw [same]
    refine ⟨?_, killed st owed⟩
    have at' : Wave.slotAt { w.killed m st owed with o := w.o.map fun (e : Nat × Slot) => if e.2.st = .clean m then (e.1, {}) else e } k =
        if (w.slotAt k).st = .clean m then {} else w.slotAt k := Tab.getD_map_if w.o (fun _ x => x.st = .clean m) (fun _ => {}) k rfl
    rw [at']
    split
    · next emptied =>
      refine .inr ⟨rfl, ?_⟩
      rcases slot with same | ⟨-, pending⟩
      · rw [same, clean] at emptied
        obtain rfl : n = m := by simpa using emptied
        exact kill none'
      · exact pending
    · exact slot

/-- A region entry leaves a clean slot as it is, or empties it where a kill of its register was pending (R34, R89). -/
theorem Wave.SlotKept.regionEntry {w : Wave} {k n : Nat} (clean : (w.slotAt k).st = .clean n) (e : Nat) : w.SlotKept (w.regionEntry e) k n := by
  have enters : w.SlotKept (w.entersRegion e) k n := by
    have at' : (w.entersRegion e).slotAt k = _ := Tab.getD_map_if w.o (fun _ x => x.st = .eph) (fun x => { x with valid := 0 }) k rfl
    rw [show Tab.getD {} w.o k = w.slotAt k from rfl, clean, if_neg (by simp)] at at'
    exact ⟨.inl at', fun pending => pending⟩
  rw [Wave.regionEntry_eq]
  split
  · exact ⟨.inl rfl, fun pending => pending⟩
  · split
    · have settled (ns : List Nat) {w' : Wave} (kept : w.SlotKept w' k n) : w.SlotKept (ns.foldl Wave.applyKill w') k n := by
        induction ns generalizing w' with
        | nil => exact kept
        | cons m ns ih => exact ih (kept.applyKill clean m)
      obtain ⟨slot, kill⟩ := settled ((w.entersRegion e).v.map Prod.fst) enters
      refine ⟨slot, fun pending => kill fun none' => pending ?_⟩
      exact (congrArg VReg.kill (Tab.getD_map (d := ({} : VReg)) (g := fun _ (x : VReg) => { x with wir := false })
        (((w.entersRegion e).v.map Prod.fst).foldl Wave.applyKill (w.entersRegion e)).v n rfl)).trans none'
    · exact enters

/-- The end of an instruction leaves a clean slot as it is, or empties it where a kill of its register was pending. -/
theorem State.Course.slotKept {s a b : State} {i : Iss} {x : Writes} {w : Wave} (c : s.Course a b i x w) (u : Uses) {k n : Nat}
    (clean : ((b.wave s.cur.wave).slotAt k).st = .clean n) :
    (b.wave s.cur.wave).SlotKept ((b.finish s.curRef i u).wave s.cur.wave) k n := by
  rcases finish_cases b s.curRef i u with same | ⟨enters, -⟩
  · rw [same]; exact ⟨.inl rfl, fun pending => pending⟩
  · rw [enters, show (b.wave s.curRef.wave).heirOf s.curRef.entry i.f.mask = s.cur.entry from
      Wave.heirOf_self _ ((Wave.stands_iff c.stays.entries _).mpr c.stands),
      show (b.regionEntry ⟨s.curRef.wave, s.cur.entry⟩).wave s.cur.wave = _ from (State.wave_modWave _ _ _ _ c.here).trans (if_pos rfl)]
    exact .regionEntry clean _

theorem exists_getLsbD {n : Nat} {m : BitVec n} (some' : m ≠ 0) : ∃ l, m.getLsbD l = true := by
  by_contra none'
  exact some' (BitVec.eq_of_getLsbD_eq fun l _ => by simpa using fun set => none' ⟨l, set⟩)

/-- An instruction that fills a slot clean, and does no more, completes: the slot is filled, or emptied by a kill of its register. -/
theorem Sem.completesAt_of_slot {m : Sem} {i : Instr} {also : State → State → Iss → Prop} {s : State} {j n : Nat} {val : Iss → Lanes}
    (none' : m.d = none ∧ m.sd = none ∧ m.pd = none) (more : ∀ k, m.more k = { o := [j] }) (sat : ∀ k, m.sat k = false)
    (runs : exec i s = issue m.u m.h (fun k _ => .go fun t => if k.part = 0 then t else t.modWave k.w.id fun w =>
      w.writeSlot j (.clean n) k.part (val k)) s)
    (also' : ∀ t, s.CaptureOk m.u → ((t.wave s.cur.wave).slotAt j =
          { st := .clean n, val := mergeLanes (s.issQ m.u m.h).part (val (s.issQ m.u m.h)) [], valid := (s.issQ m.u m.h).part } ∨
        ((t.wave s.cur.wave).slotAt j = {} ∧ (n ∈ markedV m.u ∨ ((s.wave s.cur.wave).vreg n).kill ≠ 0))) → also s t (s.issQ m.u m.h)) :
    m.CompletesAt i also s := by
  obtain ⟨noD, noSd, noPd⟩ := none'
  refine Sem.completesAt_of_acting ⟨noD, noPd⟩ runs (fun idle => .inr ?_) fun issuing captured _ act _ => ?_
  · simp only [idle, if_true]
    rfl
  simp only [act, if_false]
  refine ⟨_, rfl, ?_⟩
  rintro _ rfl
  generalize hk : s.issQ m.u m.h = k at act also' ⊢
  obtain ⟨-, name, -, stands⟩ := issuing.wave
  have writes : m.writes k = _ := if_neg act
  have own : k.w.id = s.cur.wave := by rw [← hk]; exact (issQ_w s m.u m.h).1.trans name
  have pcs : k.f.pc = ((s.wave s.cur.wave).frag s.cur.entry).pc := by rw [← hk, issQ_f]
  have read := m.course_read issuing.toStands rfl (hk ▸ act) (by rw [more])
  rw [hk] at read
  have c := read.modWave (f := fun w => w.writeSlot j (.clean n) k.part (val k)) (fun _ _ a => a.setSlot _ _) fun _ => rfl
  rw [own]
  have ended := c.finish m.u
  have filled : (((s.afterIssue m.u m.h).modWave s.cur.wave fun w => w.writeSlot j (.clean n) k.part (val k)).wave s.cur.wave).slotAt j =
      { st := .clean n, val := mergeLanes k.part (val k) [], valid := k.part } := by
    rw [State.wave_modWave _ _ _ _ read.here, if_pos rfl]
    exact (Wave.slotAt_setSlot ..).trans (if_pos rfl)
  have passed : WaveFrame (s.wave s.cur.wave) ((s.wave s.cur.wave).modFrag s.cur.entry (Frag.passed s)) k s.cur.entry (m.writes k) :=
    .of_stays (.passed s _ (by rw [writes]; exact sat k) (by rw [writes, more])) (.refl ..)
  refine ⟨fun n some' => ?_, also' _ captured ?_, ?_, ended.frame_of_written issuing.toStands (passed.setSlot ?_ _) (fun _ _ => .inr) (fun _ _ => .inr) ?_ ?_ ?_⟩
  · rw [noSd] at some'; cases some'
  · obtain ⟨slot, -⟩ := c.slotKept m.u (k := j) (n := n) (by rw [filled])
    rw [filled] at slot
    refine slot.imp id fun ⟨empty, pending⟩ => ⟨empty, ?_⟩
    obtain ⟨l, hl⟩ : ∃ l, (((_ : State).wave s.cur.wave).vreg n).kill.getLsbD l = true := exists_getLsbD pending
    refine (c.stays.killV n l hl).imp (fun marked => ?_) fun killed none' => ?_
    · rw [writes, more] at marked
      simpa using marked
    · rw [show ((((s.wave s.cur.wave).modFrag s.cur.entry (Frag.passed s)).writeSlot j (.clean n) k.part (val k)).vreg n).kill = 0 from none'] at killed
      simp at killed
  · rw [pcs]
    refine ended.pc issuing ?_
    show (((s.wave s.cur.wave).modFrag s.cur.entry (Frag.passed s)).frag s.cur.entry).pc = _
    rw [frag_passed issuing.toStands]
    rfl
  · rw [writes, more]; exact List.mem_append_right _ (.head _)
  · intro l other
    rw [writes, more] at other
    rw [Wave.writeSlot, Wave.slotAt_setSlot, if_neg (fun same : j = l => other (List.mem_append_right _ (same ▸ .head _)))]
    rfl
  · rw [writes]; exact sat k
  · rw [writes, more]

/-- Settles O11: `FEMARK` sets states, `OCLD` fills its slot, and `TZERO` and `TMOV` change one tile; none does more. -/
theorem markResults : Obligations.MarkResults := by
  intro i m also sem s
  cases i
  case femark x =>
    cases sem
    exact Sem.completesAt_of_markSt ⟨rfl, rfl, rfl⟩ rfl (fun _ => rfl) (fun _ => rfl) (fun _ ok => ok) rfl
  case tzero x =>
    cases sem
    exact Sem.completesAt_of_tile (n := x.t.toNat) (g := fun k m => []) ⟨rfl, rfl, rfl⟩ rfl (fun _ => rfl) (fun _ => rfl) (.inl rfl)
      fun t tile b => by rw [tile]; rfl
  case tmov x =>
    obtain ⟨h, part, op⟩ := x
    cases op with
    | fromTile => cases sem
    | intoTile n a =>
      cases sem
      refine Sem.completesAt_of_tile (n := n.toNat) (g := fun k m => imgPut m (256 * part.toNat) k.part (mkLanes (k.v32 a))) ⟨rfl, rfl, rfl⟩ rfl
        (fun _ => rfl) (fun _ => rfl) (.inr fun k idle m => ?_) fun t tile b => ?_
      · rw [imgPut, (lanesOf_eq_nil _).mpr idle]
        rfl
      · rw [tile, get_imgPut]
        exact ite_congr rfl (fun put => by rw [laneAt_mkLanes _ put.2.1]) fun _ => rfl
  case ocld x =>
    cases source : x.a with
    | v n dead empt =>
      simp only [markSem, source] at sem
      cases sem
      refine Sem.completesAt_of_slot (j := x.k.toNat) (n := n.toNat) (val := fun k => mkLanes (k.v32 (.v n dead empt))) ⟨rfl, rfl, rfl⟩ (fun _ => rfl)
        (fun _ => rfl) ?_ ?_
      · show execOcld x s = _
        simp only [execOcld, source]
      · rintro t captured (filled | ⟨empty, killed⟩)
        · refine .inl ⟨by rw [filled], fun l part => ?_⟩
          rw [filled, laneAt_mergeLanes _ _ _ (BitVec.lt_of_getLsbD part), if_pos part, laneAt_mkLanes _ (BitVec.lt_of_getLsbD part)]
          rfl
        · refine .inr ⟨empty, killed.imp (fun marked => ?_) fun pending => ?_⟩
          · cases dead with
            | true => rfl
            | false => cases marked
          · rw [show (s.issQ _ x.h).w = s.wave s.cur.wave from congrArg Iss.w (iss_fresh x.h (capt_eq_none captured rfl))]
            exact pending
    | _ => simp [markSem, source] at sem
  all_goals cases sem

end Sys2Proof.Machine

/-! SUPPORT. What a release and an acquire leave alone (R223, R227, R314): all that says nothing of the memory, its caches and the log. -/

namespace Sys2Proof.Machine

/-- A projection of the state that says nothing of the memory, its caches, the requests for it, the log and the free counter. -/
def State.OffMemory {γ : Type} (p : State → γ) : Prop := ∀ (s : State) m po lg a b rq rp fr,
  p { s with mem := m, poison := po, log := lg, l1 := a, l2 := b, reqs := rq, reps := rp, free := fr } = p s

theorem State.offMemory_waves : State.OffMemory State.waves := fun _ _ _ _ _ _ _ _ _ => rfl
theorem State.offMemory_teams : State.OffMemory State.teams := fun _ _ _ _ _ _ _ _ _ => rfl
theorem State.offMemory_ctxs : State.OffMemory State.ctxs := fun _ _ _ _ _ _ _ _ _ => rfl

section
variable {γ : Type} {p : State → γ} (off : State.OffMemory p) (s : State)
include off

/-! ### Bytes at their points of order -/

theorem State.OffMemory.logRec (source die detail : Nat) : p (s.logRec source die detail) = p s := off s _ _ _ _ _ _ _ _

theorem State.OffMemory.writeBack (l : Line) : p (s.writeBack l) = p s := by
  simp only [State.writeBack]
  split
  · rfl
  · split
    · exact off.logRec ..
    · exact off s _ _ _ _ _ _ _ _

theorem State.OffMemory.l2Alloc (loc set pa : Nat) (kind : LineKind) : p (s.l2Alloc loc set pa kind) = p s := by
  simp only [State.l2Alloc]
  split
  · rfl
  · split
    · rfl
    · next v _ => cases v with
      | none => exact off s _ _ _ _ _ _ _ _
      | some l => exact (off (s.writeBack l) _ _ _ _ _ _ _ _).trans (off.writeBack ..)

theorem State.OffMemory.setPoison (pa : Nat) (b : Bool) : p (s.setPoison pa b) = p s := by
  simp only [State.setPoison]
  repeat' split
  all_goals exact off s _ _ _ _ _ _ _ _

theorem State.OffMemory.clearPoison (bs : List (Nat × Byte)) : p (s.clearPoison bs) = p s :=
  foldl_keeps (f := fun s a => s.setPoison a false) (fun s a => off.setPoison s a false) _ s

theorem State.OffMemory.putBytesAt (pa : Nat) (bs : List (Nat × Byte)) : p (s.putBytesAt pa bs) = p s := by
  simp only [State.putBytesAt]
  repeat' split
  all_goals exact off s _ _ _ _ _ _ _ _

theorem State.OffMemory.pokes (pasid : Nat) (alloc : Bool) (pa : Nat) (bs : List (Nat × Byte)) : p (s.pokes pasid alloc pa bs) = p s := by
  have allocated : p (if alloc && (s.chartOf pa).isNone then s.l2Alloc (s.home pa) (s.setFor pasid pa) pa .ordinary else s) = p s := by
    split
    · exact off.l2Alloc ..
    · rfl
  unfold State.pokes
  refine Eq.trans ?_ allocated
  dsimp only
  split
  · exact off.logRec ..
  · exact (off.clearPoison ..).trans (off.putBytesAt ..)

/-! ### Update-only lines -/

theorem State.OffMemory.applyDelta (pasid pa : Nat) (op : RedOp) (x : DWord) : p (s.applyDelta pasid pa op x) = p s := by
  unfold State.applyDelta
  dsimp only
  split
  · rfl
  · exact off.pokes ..

theorem State.OffMemory.mergeSectors (l : Line) (secs : List Nat) : p (s.mergeSectors l secs) = p s := by
  simp only [State.mergeSectors]
  refine (foldl_keeps (fun s i => ?_) _ _).trans ((foldl_keeps (fun s e => ?_) _ _).trans (foldl_keeps (fun s i => ?_) _ s))
  · split
    · exact off.setPoison ..
    · rfl
  · split
    · rfl
    · exact off.applyDelta ..
  · split
    · exact off.logRec ..
    · rfl

theorem State.OffMemory.mergeLine (l : Line) : p (s.mergeLine l) = p s := by
  simp only [State.mergeLine]
  refine Eq.trans ?_ (off.mergeSectors s l (List.range 4))
  split <;> exact off (s.mergeSectors l (List.range 4)) _ _ _ _ _ _ _ _

theorem State.OffMemory.mergeCore (core : Nat) : p (s.mergeCore core) = p s := foldl_keeps off.mergeLine _ s

/-! ### Lines of remote memory -/

theorem State.OffMemory.flushLine (pa : Nat) : p (s.flushLine pa) = p s := by
  unfold State.flushLine
  split
  · split
    · rfl
    · exact (off (s.writeBack _) _ _ _ _ _ _ _ _).trans (off.writeBack ..)
  · rfl

theorem State.OffMemory.cleanLine (pa : Nat) : p (s.cleanLine pa) = p s := by
  unfold State.cleanLine
  split
  · split
    · rfl
    · exact (off (s.writeBack _) _ _ _ _ _ _ _ _).trans (off.writeBack ..)
  · rfl

theorem State.OffMemory.invalLine (pa : Nat) : p (s.invalLine pa) = p s := by
  unfold State.invalLine
  split
  · split
    · exact off.flushLine ..
    · exact (off (s.writeBack _) _ _ _ _ _ _ _ _).trans (off.writeBack ..)
  · rfl

theorem State.OffMemory.cleanRemote (sc : Scope) (who : Nat) : p (s.cleanRemote sc who) = p s := foldl_keeps (fun s _ => off.cleanLine s _) _ s

theorem State.OffMemory.dropRemote (sc : Scope) (pasid : Nat) : p (s.dropRemote sc pasid) = p s :=
  foldl_keeps (fun s _ => off.invalLine s _) _ s

/-! ### Releases and acquires -/

theorem State.OffMemory.release (wave core : Nat) (sc : Scope) : p (s.release wave core sc) = p s := by
  unfold State.release
  refine (off.cleanRemote ..).trans ?_
  split
  · exact off.mergeCore ..
  · rfl

theorem State.OffMemory.acquire (pasid core : Nat) (sc : Scope) : p (s.acquire pasid core sc) = p s := by
  unfold State.acquire
  split
  · rfl
  · exact (off.dropRemote ..).trans (off s _ _ _ _ _ _ _ _)

end

/-- An acquire that reaches no further than the core does nothing. -/
theorem acquire_team (s : State) (pasid core : Nat) : s.acquire pasid core .team = s := if_pos (by decide)

end Sys2Proof.Machine

/-! SUPPORT. How a waiting fragment goes on (R33, R35), and what a wait finds in the tables. -/

namespace Sys2Proof.Machine

/-! ### A wave whose fragment goes on -/

/-- A wave whose fragment `e` goes on from a wait. -/
def Wave.over (w : Wave) (e : Nat) : Wave := (w.modFrag e Frag.goOn).regionEntry e

theorem Wave.regionEntry_of_handler {w : Wave} {e : Nat} (handler : w.inHandler e = true) : w.regionEntry e = w := by
  rw [Wave.regionEntry_eq, if_pos handler]

/-- The fragments of a wave that are not the entering one stand after a region entry. -/
theorem Wave.mem_regionEntry {w : Wave} {e : Nat} {h : Frag} (hh : h ∈ w.frags) (other : h.entry ≠ e) : h ∈ (w.regionEntry e).frags := by
  have kept : h ∈ (w.entersRegion e).frags := List.mem_map.mpr ⟨h, hh, if_neg other⟩
  rw [Wave.regionEntry_eq]
  split
  · exact hh
  · split
    · rwa [(w.entersRegion e).settleRegion_frags_h.1]
    · exact kept

theorem Wave.applyKill_sregs (w : Wave) (n : Nat) : ((w.applyKill n).s, (w.applyKill n).hs) = (w.s, w.hs) := by
  rcases w.applyKill_cases n with same | ⟨_, _, same | same⟩ <;> rw [same] <;> rfl

/-- A region entry leaves a scalar alone of which no kill is pending (R34, R90). -/
theorem Wave.sreg_regionEntry {w : Wave} {hm : Bool} {n : Nat} (e : Nat) (unmarked : (w.sreg hm n).kill = false) :
    (w.regionEntry e).sreg hm n = w.sreg hm n := by
  have settled : (w.entersRegion e).settleRegion.sreg hm n = Wave.applyKillS (w.sreg hm n) := by
    have files := foldl_keeps (p := fun w : Wave => (w.s, w.hs)) Wave.applyKill_sregs ((w.entersRegion e).v.map Prod.fst) (w.entersRegion e)
    simp only [Prod.mk.injEq] at files
    obtain ⟨s, hs⟩ := files
    simp only [Wave.sreg, Wave.settleRegion, s, hs]
    split
    · exact Tab.getD_map (g := fun _ x => Wave.applyKillS x) w.hs n rfl
    · exact Tab.getD_map (g := fun _ x => Wave.applyKillS x) w.s n rfl
  rw [Wave.regionEntry_eq]
  split
  · rfl
  · split
    · rw [settled, Wave.applyKillS, unmarked]
      rfl
    · rfl

/-- A scalar of which no kill is pending stands as its fragment goes on. -/
theorem Wave.sreg_over {w : Wave} {hm : Bool} {n : Nat} (e : Nat) (unmarked : (w.sreg hm n).kill = false) : (w.over e).sreg hm n = w.sreg hm n :=
  Wave.sreg_regionEntry e unmarked

theorem Wave.setS_frags_h (w : Wave) (hm : Bool) (n : Nat) (r : SReg) :
    (w.setS hm n r).frags = w.frags ∧ (w.setS hm n r).h = w.h ∧ (w.setS hm n r).wpc = w.wpc := by
  unfold Wave.setS
  split <;> exact ⟨rfl, rfl, rfl⟩

theorem Wave.frag_of_find {w : Wave} {e : Nat} {f : Frag} (found : w.frags.find? (fun g => g.entry == e) = some f) :
    (∃ g ∈ w.frags, g.entry = e) ∧ w.frag e = f :=
  ⟨⟨f, List.mem_of_find?_eq_some found, by simpa using List.find?_some found⟩, by rw [Wave.frag, found]; rfl⟩

/-- The first fragment at an entry, changed, is the first one there. -/
theorem Wave.find_modFrag {w : Wave} {e : Nat} {f : Frag} (found : w.frags.find? (fun g => g.entry == e) = some f) (g : Frag → Frag)
    (keeps : ∀ f, (g f).entry = f.entry) : (w.modFrag e g).frags.find? (fun g => g.entry == e) = some (g f) := by
  have same : (fun g : Frag => g.entry == e) ∘ (fun f => if f.entry = e then g f else f) = fun g => g.entry == e := by
    funext f
    dsimp only [Function.comp]
    split
    · rw [keeps]
    · rfl
  rw [Wave.modFrag, List.find?_map, same, found]
  exact congrArg some (if_pos (by simpa using List.find?_some found))

theorem Wave.frag_over {w : Wave} {e : Nat} (stands : ∃ f ∈ w.frags, f.entry = e) : ((w.over e).frag e).bare = (Frag.goOn (w.frag e)).bare := by
  have own := Wave.frag_modFrag_self w Frag.goOn (fun _ => rfl) stands
  rw [Wave.over, ← own]
  exact (Wave.Stays.refl (w.modFrag e Frag.goOn) false e [] []).regionEntry.own

/-- What stands at `r` after its fragment has gone on, in a wave that has the fragments, the handler and the entry count of `w`. -/
theorem goesOn_of_over {t : State} {r : FragRef} {v w : Wave} {f : Frag} (found : w.frags.find? (fun g => g.entry == r.entry) = some f)
    (own : t.wave r.wave = v.over r.entry) (frags : v.frags = w.frags) (h : v.h = w.h) (wpc : v.wpc = w.wpc) : GoesOn t r w f := by
  obtain ⟨stands, isF⟩ := Wave.frag_of_find (frags ▸ found : v.frags.find? (fun g => g.entry == r.entry) = some f)
  have here : (v.modFrag r.entry Frag.goOn).frag r.entry = Frag.goOn f := isF ▸ Wave.frag_modFrag_self v Frag.goOn (fun _ => rfl) stands
  have others : ∀ g ∈ w.frags, g.entry ≠ r.entry → g ∈ (t.wave r.wave).frags := fun g hg other => by
    rw [own]
    exact Wave.mem_regionEntry (List.mem_map.mpr ⟨g, frags ▸ hg, if_neg other⟩) other
  have bare : ((t.wave r.wave).frag r.entry).bare = (Frag.goOn f).bare := by rw [own, Wave.frag_over stands, isF]
  have inH : (v.modFrag r.entry Frag.goOn).inHandler r.entry = w.inHandler r.entry := by simp only [Wave.inHandler, Wave.modFrag, h]
  refine ⟨(congrArg Frag.st bare :), (congrArg Frag.wait bare :), (congrArg Frag.pc bare :), (congrArg Frag.mask bare :), (congrArg Frag.stack bare :),
    fun user => ?_, fun handler => ?_, others⟩
  · have standsOn := (Wave.stands_iff (Wave.modFrag_entries v r.entry (g := Frag.goOn) fun _ => rfl) r.entry).mpr stands
    obtain ⟨counts, enters⟩ := Wave.regionEntry_of_user (inH.trans user) standsOn
    rw [here] at enters
    rw [own, Wave.over, enters, counts]
    exact ⟨congrArg (· + 1) wpc, rfl, rfl, rfl⟩
  · rw [own, Wave.over, Wave.regionEntry_of_handler (inH.trans handler)]
    exact wpc

/-! ### A fragment of the state goes on -/

theorem State.waitOver_eq (s : State) (r : FragRef) : s.waitOver r = s.modWave r.wave fun w => w.over r.entry :=
  s.modWave_modWave r.wave _ _

theorem State.wave_of_get? {s : State} {n : Nat} {w : Wave} (here : Tab.get? s.waves n = some w) : s.wave n = w := by rw [State.wave, Tab.getD, here]

theorem State.wave_modWave_self {s : State} {n : Nat} {w : Wave} (here : Tab.get? s.waves n = some w) (f : Wave → Wave) : (s.modWave n f).wave n = f w := by
  rw [State.wave_modWave s n n f (Option.isSome_of_eq_some here), if_pos rfl, State.wave_of_get? here]

theorem State.wave_modFrag_self {s : State} {r : FragRef} {w : Wave} {f : Frag} (here : Tab.get? s.waves r.wave = some w)
    (found : w.frags.find? (fun g => g.entry == r.entry) = some f) (g : Frag → Frag) (keeps : ∀ f, (g f).entry = f.entry) :
    ((s.modFrag r g).wave r.wave).frag r.entry = g f := by
  obtain ⟨stands, isF⟩ := Wave.frag_of_find found
  rw [State.modFrag, State.wave_modWave_self here, Wave.frag_modFrag_self w g keeps stands, isF]

/-- The end of a wait lets the fragment go on and changes nothing but its wave. -/
theorem goesOn_waitOver {u : State} {r : FragRef} {w : Wave} {f : Frag} (here : Tab.get? u.waves r.wave = some w)
    (found : w.frags.find? (fun g => g.entry == r.entry) = some f) :
    GoesOn (u.waitOver r) r w f ∧ u.waitOver r = { u with waves := (u.waitOver r).waves } :=
  ⟨goesOn_of_over found (by rw [State.waitOver_eq, State.wave_modWave_self here]) rfl rfl rfl, rfl⟩

/-- A wait ends with a scalar written: the fragment goes on, and the scalar reads as written. -/
theorem goesOn_writeS {u : State} {r : FragRef} {w : Wave} {f : Frag} (here : Tab.get? u.waves r.wave = some w)
    (found : w.frags.find? (fun g => g.entry == r.entry) = some f) (hm : Bool) (d : Nat) {x : SReg} (unmarked : x.kill = false) {g : Wave → Wave}
    (writes : g w = w.setS hm d x) {v : State} (waves : v.waves = (u.modWave r.wave g).waves) :
    GoesOn (v.waitOver r) r w f ∧ ((v.waitOver r).wave r.wave).sreg hm d = x := by
  have stands : Tab.get? v.waves r.wave = some (w.setS hm d x) := by
    rw [waves, State.modWave, Tab.get?_mod, if_pos rfl, here, ← writes]
    rfl
  have own : (v.waitOver r).wave r.wave = (w.setS hm d x).over r.entry := by rw [State.waitOver_eq, State.wave_modWave_self stands]
  obtain ⟨frags, h, wpc⟩ := w.setS_frags_h hm d x
  refine ⟨goesOn_of_over found own frags h wpc, ?_⟩
  rw [own, Wave.sreg_over _ (by rwa [Wave.sreg_setS_self]), Wave.sreg_setS_self]

end Sys2Proof.Machine

/-! SUPPORT. What each wait does when it ends (R130, R183, R314, R319 to R321, R339, R341, R345, R360, R369, R408), and the settled statement. -/

namespace Sys2Proof.Machine

/-- A waiting fragment of a wave that is not away, on a core that a switch leaves free. -/
structure State.Standing (s : State) (r : FragRef) (w : Wave) (f : Frag) (k : Wait) : Prop where
  here  : Tab.get? s.waves r.wave = some w
  found : w.frags.find? (fun g => g.entry == r.entry) = some f
  waits : f.st = .waiting
  wait  : f.wait = k
  home  : w.away = false
  on    : s.mayIssue w.core = true

/-- What is made of a wait of kind `k` of a fragment of `w` that a step is followed by. -/
def State.waitStep (s : State) (r : FragRef) (w : Wave) : Wait → State
  | .rel sc n c => if s.relDone r.wave n then (s.release r.wave w.core sc).released r sc c else s
  | .acq sc n => if s.acqDone r.wave n then s.acquired r sc else s
  | .barw o tok => if boPhase (s.barObj w.team o) = tok then s else s.acquired r .team
  | .tlwait sc c n rec => if n ≤ ((s.ctx (s.team w.team).pasid).tlc c).v then s.tlOver r sc c n rec else s
  | .cpyq d c rq => s.acceptCopy r d.toNat c rq
  | .spawn d rq => s.enqueueTask r d.toNat rq
  | .mxwait => if w.owesMatrix then s else s.waitOver r
  | .pop q => if !((s.team w.team).queue q).isEmpty || s.prodGone (s.team w.team) q then s.modFrag r Frag.goOn else s
  | .push q => if ((s.team w.team).queue q).length < 8 then s.modFrag r Frag.goOn else s
  | _ => s

section
variable {s : State} {r : FragRef} {w : Wave} {f : Frag}

theorem settleWait_of_held (here : Tab.get? s.waves r.wave = some w) (held : w.away = true ∨ s.mayIssue w.core = false) : s.settleWait r = s := by
  rw [State.settleWait, State.wave_of_get? here]
  exact if_pos (by rcases held with away | off <;> simp only [*, Bool.true_or, Bool.or_true, Bool.not_false])

theorem State.Standing.settleWait {k : Wait} (a : s.Standing r w f k) : s.settleWait r = s.waitStep r w k := by
  have goes : (w.away || f.st != .waiting || !s.mayIssue w.core) = false := by simp [a.waits, a.home, a.on]
  rw [State.settleWait, State.wave_of_get? a.here, (Wave.frag_of_find a.found).2]
  rw [goes, a.wait]
  cases k <;> rfl

/-! ### Clocks that have passed (R130) -/

theorem wakeUp_of_passed (here : Tab.get? s.waves r.wave = some w) (found : w.frags.find? (fun g => g.entry == r.entry) = some f)
    (waits : f.st = .waiting) (passed : f.wake ≤ s.clock) {k : Wait} (wait : f.wait = k) :
    ((s.wakeUp r k).wave r.wave).frag r.entry = { f with st := .running, wait := .none } ∧ s.wakeUp r k = { s with waves := (s.wakeUp r k).waves } ∧
      ∀ n, n ≠ r.wave → (s.wakeUp r k).wave n = s.wave n := by
  have own : s.frag r = f := by rw [State.frag, State.wave_of_get? here, (Wave.frag_of_find found).2]
  have woken : s.wakeUp r k = s.modFrag r Frag.goOn := by
    simp only [State.wakeUp, own]
    exact if_pos ⟨waits, wait, passed⟩
  rw [woken]
  exact ⟨State.wave_modFrag_self here found Frag.goOn fun _ => rfl, rfl, fun n other => State.wave_modWave_ne _ _ other.symm⟩

/-! ### Fences and acquires (R314, R318) -/

theorem relDone_iff (s : State) (wave n : Nat) : s.relDone wave n = true ↔ ∀ o ∈ s.ops, o.wave = wave → n ≤ o.id := by
  simp only [State.relDone, List.all_eq_true, Bool.or_eq_true, bne_iff_ne, decide_eq_true_eq, imp_iff_not_or]

theorem acqDone_iff (s : State) (wave n : Nat) : s.acqDone wave n = true ↔ ∀ o ∈ s.ops, o.wave = wave → o.id < n → storesOnly o.instr = true := by
  simp only [State.acqDone, List.all_eq_true, Bool.or_eq_true, bne_iff_ne, decide_eq_true_eq, imp_iff_not_or, not_lt, or_assoc]

theorem goesOn_acquired (here : Tab.get? s.waves r.wave = some w) (found : w.frags.find? (fun g => g.entry == r.entry) = some f) (sc : Scope) :
    GoesOn (s.acquired r sc) r w f ∧ s.acquired r sc = { s.acquire (s.team w.team).pasid w.core sc with waves := (s.acquired r sc).waves } := by
  rw [State.acquired, State.wave_of_get? here]
  exact goesOn_waitOver (by rwa [State.offMemory_waves.acquire]) found

/-! ### Arrivals at the hardware barrier and the grid barrier (R319, R335) -/

theorem State.team_modTeam_self {n : Nat} (stands : (Tab.get? s.teams n).isSome = true) (g : Team → Team) : (s.modTeam n g).team n = g (s.team n) := by
  rw [State.team_modTeam _ _ _ _ stands, if_pos rfl]

theorem arrive_recorded (here : Tab.get? s.waves r.wave = some w) (found : w.frags.find? (fun g => g.entry == r.entry) = some f)
    (stands : (Tab.get? s.teams w.team).isSome = true) :
    ((s.arrive r).wave r.wave).frag r.entry = { f with wait := .bar } ∧ ((s.arrive r).team w.team).bar = (s.team w.team).bar ++ [r.wave]
      ∧ s.arrive r = { s with waves := (s.arrive r).waves, teams := (s.arrive r).teams } := by
  refine ⟨State.wave_modFrag_self here found (fun f => { f with wait := .bar }) fun _ => rfl, ?_, rfl⟩
  rw [State.arrive, State.wave_of_get? here, State.team_modTeam_self (s := s.modFrag ..) stands]
  rfl

theorem gbArrive_recorded (here : Tab.get? s.waves r.wave = some w) (found : w.frags.find? (fun g => g.entry == r.entry) = some f)
    (stands : (Tab.get? s.teams w.team).isSome = true) :
    ((s.gbArrive r).wave r.wave).frag r.entry = { f with wait := .gbar } ∧ ((s.gbArrive r).team w.team).gb = (s.team w.team).gb ++ [r.wave]
      ∧ s.gbArrive r = { s with waves := (s.gbArrive r).waves, teams := (s.gbArrive r).teams } := by
  refine ⟨State.wave_modFrag_self here found (fun f => { f with wait := .gbar }) fun _ => rfl, ?_, rfl⟩
  rw [State.gbArrive, State.wave_of_get? here, State.team_modTeam_self (s := s.modFrag ..) stands]
  rfl

/-! ### Barrier objects (R219, R320) -/

theorem State.waitOver_team (s : State) (r : FragRef) (n : Nat) : (s.waitOver r).team n = s.team n := rfl
theorem State.waitOver_barObj (s : State) (r : FragRef) (n o : Nat) : (s.waitOver r).barObj n o = s.barObj n o := by
  rw [State.barObj, State.lmem, State.waitOver_team, State.barObj, State.lmem]

theorem boBad_iff (b : BitVec 128) (tx : Nat) : boBad b tx = true ↔ boExpected b = 0 ∨ boExpected b ≤ boArrived b ∨ 2 ^ 32 ≤ boBytes b + tx := by
  simp only [boBad, Bool.or_eq_true, decide_eq_true_eq, or_assoc]

theorem setBarObj_kept (stands : (Tab.get? s.teams n).isSome = true) (o : Nat) (b : BitVec 128) :
    (s.setBarObj n o b).barObj n o = b ∧ ∀ a, a < o ∨ o + 16 ≤ a → ((s.setBarObj n o b).team n).lmem.get a = (s.team n).lmem.get a := by
  have lmem : ((s.setBarObj n o b).team n).lmem = (s.team n).lmem.setNum o 16 b.toNat := by
    rw [State.setBarObj, State.setLmem, State.team_modTeam_self stands]
  refine ⟨?_, fun a out => ?_⟩
  · rw [State.barObj, State.lmem, lmem, Memory.num_setNum, Nat.mod_eq_of_lt (by have := b.isLt; norm_num at this ⊢; exact this), BitVec.ofNat_toNat,
      BitVec.setWidth_eq]
  · rw [lmem, Memory.setNum, Memory.get_setBytes_out _ _ (by rw [leBytes_length]; exact out)]

/-- An arrival that cannot be taken is a cause that comes about in this clock. -/
theorem baraUpdate_of_bad (here : Tab.get? s.waves r.wave = some w) (found : w.frags.find? (fun g => g.entry == r.entry) = some f)
    {d o tx : Nat} {trec : List DWord} (bad : boBad (s.barObj w.team o) tx = true) (user : w.inHandler r.entry = false) :
    ∃ x, ((s.baraUpdate r d o tx trec).wave r.wave).frag r.entry = { Frag.goOn f with st := .pending x } ∧ x.cause = 41
      ∧ s.baraUpdate r d o tx trec = { s with waves := (s.baraUpdate r d o tx trec).waves } := by
  have on : Tab.get? (s.modFrag r Frag.goOn).waves r.wave = some (w.modFrag r.entry Frag.goOn) := by
    rw [State.modFrag, State.modWave, Tab.get?_mod, if_pos rfl, here]; rfl
  have foundOn : (w.modFrag r.entry Frag.goOn).frags.find? (fun g => g.entry == r.entry) = some (Frag.goOn f) :=
    Wave.find_modFrag found _ fun _ => rfl
  have does : s.baraUpdate r d o tx trec =
      ((s.modFrag r Frag.goOn).modFrag r fun f => { f with st := .pending { cause := 41, cls := causeClass 41, trec := trec } }) := by
    simp only [State.baraUpdate, State.wave_of_get? here, bad, if_true, State.raiseSoon, State.wave_of_get? on]
    exact if_neg (by simpa [Wave.inHandler] using user)
  rw [does]
  exact ⟨_, State.wave_modFrag_self on foundOn _ fun _ => rfl, rfl, rfl⟩

theorem State.waitOver_rest (s : State) (r : FragRef) : ∃ ws, s.waitOver r = { s with waves := ws } := ⟨_, rfl⟩
theorem State.setBarObj_rest (s : State) (n o : Nat) (b : BitVec 128) : ∃ ts, s.setBarObj n o b = { s with teams := ts } := ⟨_, rfl⟩

/-- An arrival that is taken writes the phase before it, and changes its object alone. -/
theorem baraUpdate_of_taken (here : Tab.get? s.waves r.wave = some w) (found : w.frags.find? (fun g => g.entry == r.entry) = some f)
    (stands : (Tab.get? s.teams w.team).isSome = true) {d o tx : Nat} {trec : List DWord} (taken : boBad (s.barObj w.team o) tx = false) :
      GoesOn (s.baraUpdate r d o tx trec) r w f
      ∧ ((s.baraUpdate r d o tx trec).wave r.wave).sval (w.inHandler r.entry) d = (if boPhase (s.barObj w.team o) then 1 else 0)
      ∧ (s.baraUpdate r d o tx trec).barObj w.team o = boFlip (s.barObj w.team o) (boArrived (s.barObj w.team o) + 1) (boBytes (s.barObj w.team o) + tx)
      ∧ (∀ a, a < o ∨ o + 16 ≤ a → ((s.baraUpdate r d o tx trec).team w.team).lmem.get a = (s.team w.team).lmem.get a)
      ∧ s.baraUpdate r d o tx trec = { s with waves := (s.baraUpdate r d o tx trec).waves, teams := (s.baraUpdate r d o tx trec).teams } := by
  have does : s.baraUpdate r d o tx trec = ((s.modWave r.wave fun w => w.writeS (w.inHandler r.entry) d
      (if boPhase (s.barObj (s.wave r.wave).team o) then 1 else 0)).setBarObj (s.wave r.wave).team o
      (boFlip (s.barObj (s.wave r.wave).team o) (boArrived (s.barObj (s.wave r.wave).team o) + 1) (boBytes (s.barObj (s.wave r.wave).team o) + tx))).waitOver r :=
    by rw [State.baraUpdate, State.wave_of_get? here, taken]; rfl
  rw [does, State.wave_of_get? here]
  generalize boFlip (s.barObj w.team o) _ _ = b
  generalize (if boPhase (s.barObj w.team o) then 1 else 0 : DWord) = x
  obtain ⟨goes, written⟩ := goesOn_writeS here found (w.inHandler r.entry) d (x := { val := x, dead := false }) rfl
    (g := fun w => w.writeS (w.inHandler r.entry) d x) rfl (v := (s.modWave r.wave _).setBarObj w.team o b) rfl
  obtain ⟨obj, others⟩ := setBarObj_kept (s := s.modWave r.wave fun w => w.writeS (w.inHandler r.entry) d x) stands o b
  refine ⟨goes, ?_, ?_, ?_, ?_⟩
  · rw [Wave.sval, written]; rfl
  · rw [State.waitOver_barObj]; exact obj
  · intro a out; rw [State.waitOver_team]; exact others a out
  · obtain ⟨ts, teams⟩ := (s.modWave r.wave fun w => w.writeS (w.inHandler r.entry) d x).setBarObj_rest w.team o b
    obtain ⟨ws, waves⟩ := State.waitOver_rest { s.modWave r.wave _ with teams := ts } r
    rw [teams, waves]
    rfl

/-! ### Timeline counters (R339, R345, R408) -/

theorem ctx_modTL (s : State) {pasid : Nat} (known : ∃ c ∈ s.ctxs, c.pasid = pasid) (k : Nat) (g : TL → TL) :
    ((s.modTL pasid k g).ctx pasid).tlc k = g ((s.ctx pasid).tlc k) := by
  obtain ⟨c, found⟩ : ∃ c, s.ctxs.find? (fun c => c.pasid == pasid) = some c := Option.isSome_iff_exists.mp (by simpa [List.find?_isSome] using known)
  have after : (s.modTL pasid k g).ctxs.find? (fun c => c.pasid == pasid) = some { c with tl := Tab.set c.tl k (g (c.tlc k)) } := by
    have keeps : (fun c : Ctx => c.pasid == pasid) ∘ (fun c => if c.pasid = pasid then { c with tl := Tab.set c.tl k (g (c.tlc k)) } else c)
        = fun c => c.pasid == pasid := by
      funext c
      dsimp only [Function.comp]
      split <;> rfl
    rw [State.modTL, State.modCtx, List.find?_map, keeps, found]
    exact congrArg some (if_pos (by simpa using List.find?_some found))
  rw [State.ctx, after, State.ctx, found]
  exact Tab.getD_set_self ..

theorem TL.settle_spec (n : Nat) (t : TL) : (t.settle n).i = t.i ∧ t.v ≤ (t.settle n).v ∧ (t.v + 1 ∉ t.done → (t.settle n).v = t.v) := by
  induction n generalizing t with
  | zero => exact ⟨rfl, le_rfl, fun _ => rfl⟩
  | succ n ih =>
    rw [TL.settle]
    split
    · next next' =>
      obtain ⟨i, v, -⟩ := ih { t with v := t.v + 1, done := t.done.filter (· ≠ t.v + 1) }
      exact ⟨i, Nat.le_of_succ_le v, fun gap => absurd (by simpa using next') gap⟩
    · exact ⟨rfl, le_rfl, fun _ => rfl⟩

/-- An advance takes the maximum into I and V, and V on to the first number that has not retired. -/
theorem TL.advance_spec (n : Nat) (t : TL) : (t.advance n).i = max t.i n ∧ max t.v n ≤ (t.advance n).v
    ∧ (max t.v n + 1 ∉ t.done → (t.advance n).v = max t.v n) := by
  obtain ⟨i, v, still⟩ := TL.settle_spec (t.done.filter (max t.v n < ·)).length
    { t with v := max t.v n, i := max t.i n, done := t.done.filter (max t.v n < ·) }
  exact ⟨i, v, fun gap => still fun there => gap (List.mem_of_mem_filter there)⟩

theorem tlAdvanced_goesOn (here : Tab.get? s.waves r.wave = some w) (found : w.frags.find? (fun g => g.entry == r.entry) = some f)
    (known : ∃ c ∈ s.ctxs, c.pasid = (s.team w.team).pasid) (c n : Nat) :
    let old := (s.ctx (s.team w.team).pasid).tlc c
    let t := s.tlAdvanced r c n
    GoesOn t r w f ∧ (t.ctx (s.team w.team).pasid).tlc c = old.advance n ∧ t = { s with waves := t.waves, ctxs := t.ctxs } := by
  intro old t
  have does : t = (s.modTL (s.team w.team).pasid c (TL.advance n)).waitOver r := by
    simp only [t, State.tlAdvanced, State.wave_of_get? here]
  rw [does]
  exact ⟨(goesOn_waitOver (u := s.modTL ..) here found).1, ctx_modTL s known c _, rfl⟩

theorem Wave.over_stands {v : Wave} {e : Nat} (stands : ∃ g ∈ v.frags, g.entry = e) : ∃ g ∈ (v.over e).frags, g.entry = e := by
  have entered := (Wave.Stays.refl (v.modFrag e Frag.goOn) false e [] []).regionEntry.entries
  exact (Wave.stands_iff (entered.trans (Wave.modFrag_entries v e (g := Frag.goOn) fun _ => rfl)) e).mpr stands

theorem State.rest_modFrag {a u : State} (rest : u = { a with waves := u.waves }) (r : FragRef) (g : Frag → Frag) :
    u.modFrag r g = { a with waves := (u.modFrag r g).waves } := congrArg (fun z : State => { z with waves := (u.modFrag r g).waves }) rest

/-- A fragment that goes on does so too with causes to be raised before its next issue. -/
theorem goesOn_late {u : State} {v : Wave} (goes : GoesOn u r w f) (here : Tab.get? u.waves r.wave = some v) (stands : ∃ g ∈ v.frags, g.entry = r.entry)
    (x : List Trap) : GoesOn (u.modFrag r fun f => { f with late := f.late ++ x }) r w f
      ∧ (((u.modFrag r fun f => { f with late := f.late ++ x }).wave r.wave).frag r.entry).late = ((u.wave r.wave).frag r.entry).late ++ x := by
  have wave : (u.modFrag r fun f => { f with late := f.late ++ x }).wave r.wave = v.modFrag r.entry fun f => { f with late := f.late ++ x } :=
    State.wave_modWave_self here _
  have frag : (v.modFrag r.entry fun f => { f with late := f.late ++ x }).frag r.entry = { v.frag r.entry with late := (v.frag r.entry).late ++ x } :=
    Wave.frag_modFrag_self v _ (fun _ => rfl) stands
  simp only [GoesOn, State.wave_of_get? here] at goes
  simp only [GoesOn, State.wave_of_get? here, wave, frag]
  obtain ⟨st, wait, pc, mask, stack, user, handler, others⟩ := goes
  exact ⟨⟨st, wait, pc, mask, stack, user, handler, fun h hh other => List.mem_map.mpr ⟨h, others h hh other, if_neg other⟩⟩, trivial⟩

/-- A `TLWAIT` ends with its acquire and, where an operation it waited for failed, the cause of a copy error. -/
theorem tlOver_goesOn (here : Tab.get? s.waves r.wave = some w) (found : w.frags.find? (fun g => g.entry == r.entry) = some f)
    (sc : Scope) (c n : Nat) (rec : List DWord) :
    GoesOn (s.tlOver r sc c n rec) r w f
      ∧ s.tlOver r sc c n rec = { s.acquire (s.team w.team).pasid w.core sc with waves := (s.tlOver r sc c n rec).waves }
      ∧ let y := ((s.acquire (s.team w.team).pasid w.core sc).ctx (s.team w.team).pasid).tlc c
        if y.e = 0 ∨ n < y.e then (((s.tlOver r sc c n rec).wave r.wave).frag r.entry).late = f.late
        else ∃ z, (((s.tlOver r sc c n rec).wave r.wave).frag r.entry).late = f.late ++ [z] ∧ z.cause = 45 ∧ z.cls = .a ∧
          (14 < rec.length → z.trec.getD 13 0 = BitVec.ofNat 64 (c + y.ecause * 2 ^ 8) ∧ z.trec.getD 14 0 = BitVec.ofNat 64 y.e) := by
  obtain ⟨goes, rest⟩ := goesOn_acquired here found sc
  have own : Tab.get? (s.acquired r sc).waves r.wave = some (w.over r.entry) := by
    rw [State.acquired, State.waitOver_eq, State.modWave, Tab.get?_mod, if_pos rfl, State.offMemory_waves.acquire, here]
    rfl
  obtain ⟨stands, isF⟩ := Wave.frag_of_find found
  have late : (((s.acquired r sc).wave r.wave).frag r.entry).late = f.late := by
    rw [State.wave_of_get? own, ← isF]
    exact (congrArg Frag.late (Wave.frag_over stands) :)
  have ctx : (s.acquire (s.team w.team).pasid w.core sc).ctx (s.team w.team).pasid = s.ctx (s.team w.team).pasid := by
    rw [State.ctx, State.offMemory_ctxs.acquire]
    rfl
  simp only [ctx, State.tlOver, State.wave_of_get? here]
  split
  · exact ⟨goes, rest, late⟩
  · obtain ⟨goes', late'⟩ := goesOn_late goes own (Wave.over_stands stands) [_]
    refine ⟨goes', State.rest_modFrag rest r _, _, late'.trans (by rw [late]), rfl, rfl, fun long => ⟨?_, ?_⟩⟩
    · simp [List.getD, show 13 < rec.length by omega]
    · simp [List.getD, long]

/-! ### Queues of copies and tasks (R339, R341, R359, R369) -/

theorem State.modTL_rest (s : State) (pasid k : Nat) (g : TL → TL) : ∃ cs, s.modTL pasid k g = { s with ctxs := cs } := ⟨_, rfl⟩
theorem State.modWave_rest (s : State) (n : Nat) (g : Wave → Wave) : ∃ ws, s.modWave n g = { s with waves := ws } := ⟨_, rfl⟩

/-- The number that a context's counter gives next. -/
def State.nextNum (s : State) (w : Wave) (c : Nat) : Nat := ((s.ctx (s.team w.team).pasid).tlc c).i + 1

/-- The entry of a core's queue that a wave's copy request becomes. -/
def State.copyEntry (s : State) (w : Wave) (c : Nat) (rq : BitVec 256) : Copy :=
  let tm := s.team w.team
  { id := s.nextId, core := w.core, team := tm.id, pasid := tm.pasid, rq := rq, c := c, k := s.nextNum w c, gtag := tm.tag, tidx := tm.idx }

/-- A scalar that an arriving number fills. -/
def Wave.fillS (w : Wave) (e d k : Nat) : Wave :=
  w.setS (w.inHandler e) d { w.sreg (w.inHandler e) d with val := BitVec.ofNat 64 k, dead := false, kill := false, st := .full }

/-- The state with an entry more in a core's queue. -/
def State.putCopy (s : State) (y : Copy) : State := { s with copies := s.copies ++ [y], nextId := s.nextId + 1 }

theorem acceptCopy_eq (here : Tab.get? s.waves r.wave = some w) (room : (s.queued w.core).length < 64) (d c : Nat) (rq : BitVec 256) :
    s.acceptCopy r d c rq = (((s.putCopy (s.copyEntry w c rq)).modTL (s.team w.team).pasid c TL.take).modWave r.wave fun v =>
      v.fillS r.entry d (s.nextNum w c)).waitOver r := by
  rw [State.acceptCopy, State.wave_of_get? here, if_neg (by rw [Config.copyQueue]; omega)]
  rfl

theorem acceptCopy_of_full (here : Tab.get? s.waves r.wave = some w) (full : 64 ≤ (s.queued w.core).length) (d c : Nat) (rq : BitVec 256) :
    s.acceptCopy r d c rq = s := by
  rw [State.acceptCopy, State.wave_of_get? here]
  exact if_pos full

/-- A request takes the next number of its counter, which goes to the scalar and with it into the queue. -/
theorem acceptCopy_of_room (here : Tab.get? s.waves r.wave = some w) (found : w.frags.find? (fun g => g.entry == r.entry) = some f)
    (known : ∃ c ∈ s.ctxs, c.pasid = (s.team w.team).pasid) (room : (s.queued w.core).length < 64) (d c : Nat) (rq : BitVec 256) :
    let t := s.acceptCopy r d c rq
    GoesOn t r w f ∧ (t.wave r.wave).sval (w.inHandler r.entry) d = BitVec.ofNat 64 (s.nextNum w c)
      ∧ ((t.wave r.wave).sreg (w.inHandler r.entry) d).st = .full ∧ ((t.ctx (s.team w.team).pasid).tlc c).i = s.nextNum w c
      ∧ t.copies = s.copies ++ [s.copyEntry w c rq] ∧ t = { s with waves := t.waves, ctxs := t.ctxs, copies := t.copies, nextId := t.nextId } := by
  intro t
  obtain ⟨goes, filled⟩ := goesOn_writeS (u := (s.putCopy (s.copyEntry w c rq)).modTL (s.team w.team).pasid c TL.take) here found (w.inHandler r.entry) d
    rfl (g := fun v => v.fillS r.entry d (s.nextNum w c)) rfl rfl
  have num := congrArg TL.i (ctx_modTL (s.putCopy (s.copyEntry w c rq)) known c TL.take)
  simp only [t, acceptCopy_eq here room]
  refine ⟨goes, by rw [Wave.sval, filled]; rfl, by rw [filled], num, rfl, ?_⟩
  obtain ⟨cs, ctxs⟩ := (s.putCopy (s.copyEntry w c rq)).modTL_rest (s.team w.team).pasid c TL.take
  obtain ⟨ws, waves⟩ := State.modWave_rest { s.putCopy (s.copyEntry w c rq) with ctxs := cs } r.wave fun v => v.fillS r.entry d (s.nextNum w c)
  obtain ⟨ws', waves'⟩ := State.waitOver_rest { s.putCopy (s.copyEntry w c rq) with ctxs := cs, waves := ws } r
  rw [ctxs, waves, waves']
  rfl

theorem taskEntry_eq_none (p : Part) (depth : Nat) : p.taskEntry depth = none ↔
    4088 ≤ (p.tasks.filter fun k => !k.res).length ∧ ∃ k ∈ p.tasks, k.res = true ∧ k.depth = depth := by
  unfold Part.taskEntry
  split
  · next room => simp; omega
  · next full =>
    simp only [List.any_eq_true, Bool.and_eq_true, beq_iff_eq]
    split
    · next taken => simp [taken]; omega
    · next free => simp [free]

/-- The entry of the task queue that a wave's task becomes. -/
def State.taskOf (s : State) (w : Wave) (rq : BitVec 256) (res : Bool) : Task :=
  let tm := s.team w.team
  { rq := rq, pasid := tm.pasid, depth := tm.depth + 1, k := if tkTl rq then s.nextNum w (tkCtr rq) else 0, rootQ := tm.rootQ, res := res }

/-- The state in which a task that asks for a number of its counter has taken it. -/
def State.takeNum (s : State) (w : Wave) (rq : BitVec 256) : State := if tkTl rq then s.modTL (s.team w.team).pasid (tkCtr rq) TL.take else s

theorem State.takeNum_rest (s : State) (w : Wave) (rq : BitVec 256) : ∃ cs, s.takeNum w rq = { s with ctxs := cs } := by
  unfold State.takeNum
  split
  · exact s.modTL_rest ..
  · exact ⟨s.ctxs, rfl⟩

theorem State.takeNum_tlc (s : State) {w : Wave} (known : ∃ c ∈ s.ctxs, c.pasid = (s.team w.team).pasid) {rq : BitVec 256} (asks : tkTl rq = true) :
    (((s.takeNum w rq).ctx (s.team w.team).pasid).tlc (tkCtr rq)).i = s.nextNum w (tkCtr rq) := by
  rw [State.takeNum, if_pos asks, ctx_modTL s known]
  rfl

theorem State.modPart_rest (s : State) (n : Nat) (g : Part → Part) : ∃ ps, s.modPart n g = { s with parts := ps } := ⟨_, rfl⟩

theorem enqueueTask_of_full (here : Tab.get? s.waves r.wave = some w) (d : Nat) (rq : BitVec 256)
    (full : (s.part (s.team w.team).part).taskEntry ((s.team w.team).depth + 1) = none) : s.enqueueTask r d rq = s := by
  rw [State.enqueueTask, State.wave_of_get? here, full]

theorem enqueueTask_eq (here : Tab.get? s.waves r.wave = some w) (d : Nat) (rq : BitVec 256) {res : Bool}
    (entry : (s.part (s.team w.team).part).taskEntry ((s.team w.team).depth + 1) = some res) :
    s.enqueueTask r d rq = (((s.takeNum w rq).modPart (s.team w.team).part fun p => { p with tasks := p.tasks ++ [s.taskOf w rq res] }).modWave r.wave fun v =>
      v.writeS (v.inHandler r.entry) d (BitVec.ofNat 64 (s.taskOf w rq res).k)).waitOver r := by
  rw [State.enqueueTask, State.wave_of_get? here, entry]
  rfl

/-- A task enters the queue with the number it asks for, which goes to the scalar. -/
theorem enqueueTask_of_entry (here : Tab.get? s.waves r.wave = some w) (found : w.frags.find? (fun g => g.entry == r.entry) = some f)
    (known : ∃ c ∈ s.ctxs, c.pasid = (s.team w.team).pasid) (d : Nat) (rq : BitVec 256) {res : Bool}
    (entry : (s.part (s.team w.team).part).taskEntry ((s.team w.team).depth + 1) = some res) :
    let t := s.enqueueTask r d rq
    GoesOn t r w f ∧ (t.wave r.wave).sval (w.inHandler r.entry) d = BitVec.ofNat 64 (s.taskOf w rq res).k
      ∧ (tkTl rq = true → ((t.ctx (s.team w.team).pasid).tlc (tkCtr rq)).i = (s.taskOf w rq res).k)
      ∧ (t.part (s.team w.team).part).tasks = (s.part (s.team w.team).part).tasks ++ [s.taskOf w rq res]
      ∧ t = { s with waves := t.waves, ctxs := t.ctxs, parts := t.parts } := by
  intro t
  obtain ⟨cs, ctxs⟩ := s.takeNum_rest w rq
  have num (asks : tkTl rq = true) := s.takeNum_tlc known asks
  have k (asks : tkTl rq = true) : (s.taskOf w rq res).k = s.nextNum w (tkCtr rq) := if_pos asks
  obtain ⟨goes, filled⟩ := goesOn_writeS (u := ({ s with ctxs := cs } : State).modPart (s.team w.team).part fun p =>
    { p with tasks := p.tasks ++ [s.taskOf w rq res] }) here found (w.inHandler r.entry) d
    (x := { val := BitVec.ofNat 64 (s.taskOf w rq res).k, dead := false }) rfl
    (g := fun v => v.writeS (v.inHandler r.entry) d (BitVec.ofNat 64 (s.taskOf w rq res).k)) rfl rfl
  simp only [t, enqueueTask_eq here d rq entry]
  rw [ctxs] at num ⊢
  refine ⟨goes, by rw [Wave.sval, filled]; rfl, fun asks => (num asks).trans (k asks).symm, ?_, ?_⟩
  · exact congrArg Part.tasks (Tab.getD_set_self ..)
  · obtain ⟨ps, parts⟩ := State.modPart_rest { s with ctxs := cs } (s.team w.team).part fun p => { p with tasks := p.tasks ++ [s.taskOf w rq res] }
    obtain ⟨ws, waves⟩ := State.modWave_rest { s with ctxs := cs, parts := ps } r.wave fun v =>
      v.writeS (v.inHandler r.entry) d (BitVec.ofNat 64 (s.taskOf w rq res).k)
    obtain ⟨ws', waves'⟩ := State.waitOver_rest { s with ctxs := cs, parts := ps, waves := ws } r
    rw [parts, waves, waves']

/-! ### The hardware barrier (R319) -/

theorem allIn_iff (s : State) (t : Team) (arrived : List Nat) :
    s.allIn t arrived = true ↔ arrived ≠ [] ∧ ∀ n ∈ t.waves, (s.wave n).live = true → n ∈ arrived := by
  simp only [State.allIn, State.agents, Bool.and_eq_true, Bool.not_eq_true', List.isEmpty_eq_false_iff, List.all_eq_true, List.mem_filter,
    List.contains_iff_mem, and_imp]

theorem foldl_waitOver_rest (rs : List FragRef) (s : State) : rs.foldl State.waitOver s = { s with waves := (rs.foldl State.waitOver s).waves } := by
  induction rs generalizing s with
  | nil => rfl
  | cons r rs ih => exact (ih (s.waitOver r)).trans rfl

/-- The fragments of other waves that go on leave a wave alone. -/
theorem foldl_waitOver_ne {n : Nat} (rs : List FragRef) (s : State) (others : ∀ r ∈ rs, r.wave ≠ n) :
    Tab.get? (rs.foldl State.waitOver s).waves n = Tab.get? s.waves n := by
  induction rs generalizing s with
  | nil => rfl
  | cons r rs ih =>
    have here := others r (.head _)
    rw [List.foldl_cons, ih _ fun x hx => others x (.tail _ hx), State.waitOver_eq, State.modWave, Tab.get?_mod, if_neg here]

/-- Of waves that are listed once, one with a single fragment goes on where the fragment waits, and stands otherwise. -/
theorem foldl_waitOver_waiters {p : Wait → Bool} {n : Nat} {v : Wave} {g : Frag} (ns : List Nat) (s : State) (once : ns.Nodup) (hn : n ∈ ns)
    (here : Tab.get? s.waves n = some v) (single : v.frags = [g]) :
    Tab.get? ((s.waiters ns p).foldl State.waitOver s).waves n = some (if p g.wait then v.over g.entry else v) := by
  obtain ⟨front, back, rfl⟩ := List.append_of_mem hn
  have mine : s.waiters [n] p = if p g.wait then [⟨n, g.entry⟩] else [] := by
    simp only [State.waiters, List.flatMap_cons, List.flatMap_nil, State.wave_of_get? here, single, List.filter_cons, List.filter_nil, List.append_nil]
    split <;> rfl
  have split' : s.waiters (front ++ n :: back) p = s.waiters front p ++ (s.waiters [n] p ++ s.waiters back p) := by
    simp only [State.waiters, List.flatMap_append, List.flatMap_cons, List.flatMap_nil, List.append_nil]
  have other (ms : List Nat) (out : n ∉ ms) : ∀ r ∈ s.waiters ms p, r.wave ≠ n := by
    intro r hr
    obtain ⟨m, hm, hr⟩ := List.mem_flatMap.mp hr
    obtain ⟨f, -, rfl⟩ := List.mem_map.mp hr
    rintro rfl
    exact out hm
  obtain ⟨-, tail, apart⟩ := List.nodup_append.mp once
  have outFront : n ∉ front := fun hf => apart n hf n (.head _) rfl
  rw [split', List.foldl_append, List.foldl_append, foldl_waitOver_ne _ _ (other back (List.nodup_cons.mp tail).1), mine]
  have before := foldl_waitOver_ne (s.waiters front p) s (other front outFront)
  split
  · rw [List.foldl_cons, List.foldl_nil, State.waitOver_eq, State.modWave, Tab.get?_mod, if_pos rfl, before, here]
    rfl
  · rw [List.foldl_nil, before, here]

/-- A barrier at which not every live agent has arrived stands. -/
theorem barRelease_of_missing {team : Nat}
    (missing : (s.team team).bar = [] ∨ ∃ n ∈ (s.team team).waves, (s.wave n).live = true ∧ n ∉ (s.team team).bar) :
    s.barRelease team = s := by
  have out : s.allIn (s.team team) (s.team team).bar = false := by
    rw [← Bool.not_eq_true, allIn_iff]
    rintro ⟨some', all⟩
    obtain none' | ⟨n, hn, live, gone⟩ := missing
    · exact some' none'
    · exact gone (all n hn live)
  rw [State.barRelease, out]
  rfl

/-- The state in which a barrier's arrivals are forgotten. -/
def State.clearBar (s : State) (team : Nat) : State := s.modTeam team fun t => { t with bar := [] }

theorem barRelease_eq {team : Nat} (some' : (s.team team).bar ≠ []) (all : ∀ n ∈ (s.team team).waves, (s.wave n).live = true → n ∈ (s.team team).bar) :
    s.barRelease team = ((s.clearBar team).waiters (s.team team).waves fun k => k == .bar).foldl State.waitOver (s.clearBar team) := by
  rw [State.barRelease, (allIn_iff s _ _).mpr ⟨some', all⟩]
  rfl

/-- A barrier at which every live agent has arrived lets those of them that wait go on. -/
theorem barRelease_of_all {team : Nat} (stands : (Tab.get? s.teams team).isSome = true) (some' : (s.team team).bar ≠ [])
    (all : ∀ n ∈ (s.team team).waves, (s.wave n).live = true → n ∈ (s.team team).bar) :
    ((s.barRelease team).team team).bar = []
      ∧ s.barRelease team = { s with waves := (s.barRelease team).waves, teams := (s.barRelease team).teams }
      ∧ ((s.team team).waves.Nodup → ∀ n ∈ (s.team team).waves, ∀ v g, Tab.get? s.waves n = some v → v.frags = [g] →
        if g.wait = .bar then GoesOn (s.barRelease team) ⟨n, g.entry⟩ v g else (s.barRelease team).wave n = v) := by
  have rest := foldl_waitOver_rest ((s.clearBar team).waiters (s.team team).waves fun k => k == .bar) (s.clearBar team)
  rw [← barRelease_eq some' all] at rest
  refine ⟨?_, ?_, fun once n hn v g here single => ?_⟩
  · have same : (s.barRelease team).team team = (s.clearBar team).team team := (congrArg (fun z : State => z.team team) rest :)
    rw [same, State.clearBar, State.team_modTeam_self stands]
  · have teams : (s.barRelease team).teams = (s.clearBar team).teams := (congrArg State.teams rest :)
    rw [teams]
    exact rest
  · have got := foldl_waitOver_waiters (p := fun k => k == .bar) (s.team team).waves (s.clearBar team) once hn here single
    rw [← barRelease_eq some' all] at got
    by_cases waits : g.wait = .bar
    · rw [if_pos waits]
      rw [if_pos (beq_iff_eq.mpr waits)] at got
      exact goesOn_of_over (by rw [single]; simp) (State.wave_of_get? got) rfl rfl rfl
    · rw [if_neg waits]
      rw [if_neg (by simpa using waits)] at got
      exact State.wave_of_get? got

/-! ### The statement -/

/-- A fragment that waits for a role queue issues again. -/
theorem queue_reissues (here : Tab.get? s.waves r.wave = some w) (found : w.frags.find? (fun g => g.entry == r.entry) = some f) :
    ((s.modFrag r Frag.goOn).wave r.wave).frag r.entry = { f with st := .running, wait := .none }
      ∧ s.modFrag r Frag.goOn = { s with waves := (s.modFrag r Frag.goOn).waves } :=
  ⟨State.wave_modFrag_self here found Frag.goOn fun _ => rfl, rfl⟩

end

/-- Settles O14: by the kind of the wait, after its release or without one. -/
theorem waitsEnd : Obligations.WaitsEnd := by
  unfold Obligations.WaitsEnd
  intro s r w f here found waits
  have wave := State.wave_of_get? here
  refine ⟨fun passed => ⟨fun wait => ⟨_, rfl, wakeUp_of_passed here found waits passed wait⟩,
      fun wait => ⟨_, rfl, wakeUp_of_passed here found waits passed wait⟩⟩,
    settleWait_of_held here, fun home on stands known => ?_, fun team tm stands => ?_⟩
  · have a {k : Wait} (wait : f.wait = k) : s.Standing r w f k := ⟨here, found, waits, wait, home, on⟩
    have stands' : (Tab.get? s.teams w.team).isSome = true := Option.isSome_iff_exists.mpr stands
    refine ⟨fun sc n k wait => ⟨fun ⟨o, ho, mine, before⟩ => ?_, fun done => ?_⟩,
      fun sc n wait => ⟨fun ⟨o, ho, mine, before, loads⟩ => ?_, fun done => ?_⟩,
      fun o tok wait => ⟨fun same => ?_, fun flipped => ?_⟩, fun sc c n rec wait => ⟨fun early => ?_, fun reached => ?_⟩,
      fun d c rq wait => ⟨fun full => ?_, fun free => ?_⟩, fun d rq wait _ => ⟨fun full => ?_, fun free => ?_⟩,
      fun wait => ⟨fun owes => ?_, fun free => ?_⟩,
      fun q wait => ?_, fun q wait => ?_⟩
    all_goals rw [(a wait).settleWait]
    · exact if_neg fun done => absurd ((relDone_iff ..).mp done o ho mine) (Nat.not_le.mpr before)
    · rw [show s.waitStep r w (.rel sc n k) = (s.release r.wave w.core sc).released r sc k from if_pos ((relDone_iff ..).mpr done)]
      have waves := State.offMemory_waves.release s r.wave w.core sc
      have teams := State.offMemory_teams.release s r.wave w.core sc
      have ctxs := State.offMemory_ctxs.release s r.wave w.core sc
      generalize s.release r.wave w.core sc = u at waves teams ctxs ⊢
      have here' : Tab.get? u.waves r.wave = some w := waves ▸ here
      have team : u.team w.team = s.team w.team := by rw [State.team, teams, State.team]
      rw [← teams] at stands'
      rw [← ctxs] at known
      rw [← team] at known ⊢
      cases k with
      | fence acq => cases acq with
        | false => exact goesOn_waitOver here' found
        | true => exact goesOn_acquired here' found sc
      | bar => exact arrive_recorded here' found stands'
      | gbar => exact gbArrive_recorded here' found stands'
      | bara d o tx rec =>
        dsimp only
        split
        · next bad =>
          intro user
          obtain ⟨x, own, cause, rest⟩ := baraUpdate_of_bad here' found ((boBad_iff ..).mpr bad) user
          exact ⟨x, congrArg Frag.st own, cause, rest⟩
        · next taken => exact baraUpdate_of_taken here' found stands' (Bool.eq_false_iff.mpr fun bad => taken ((boBad_iff ..).mp bad))
      | cpy d c rq => exact ⟨State.wave_modFrag_self here' found (fun f => { f with wait := .cpyq d c rq }) fun _ => rfl, rfl⟩
      | tladv c n =>
        obtain ⟨goes, advanced, rest⟩ := tlAdvanced_goesOn here' found known c n
        obtain ⟨i, v, gap⟩ := TL.advance_spec n ((u.ctx (u.team w.team).pasid).tlc c)
        rw [← advanced] at i v gap
        exact ⟨goes, i, v, gap, rest⟩
      | spawn d rq => exact ⟨State.wave_modFrag_self here' found (fun f => { f with wait := .spawn d rq }) fun _ => rfl, rfl⟩
      | send id => rfl
    · refine if_neg fun done => ?_
      rw [(acqDone_iff ..).mp done o ho mine before] at loads
      exact Bool.noConfusion loads
    · rw [show s.waitStep r w (.acq sc n) = s.acquired r sc from if_pos ((acqDone_iff ..).mpr done)]
      exact goesOn_acquired here found sc
    · exact if_pos same
    · rw [show s.waitStep r w (.barw o tok) = s.acquired r .team from if_neg flipped]
      obtain ⟨goes, rest⟩ := goesOn_acquired here found .team
      rw [acquire_team] at rest
      exact ⟨goes, rest⟩
    · exact if_neg (Nat.not_le.mpr early)
    · rw [show s.waitStep r w (.tlwait sc c n rec) = s.tlOver r sc c n rec from if_pos reached]
      exact tlOver_goesOn here found sc c n rec
    · exact acceptCopy_of_full here full d.toNat c rq
    · obtain ⟨goes, scalar, filled, num, copies, rest⟩ := acceptCopy_of_room here found known free d.toNat c rq
      exact ⟨goes, scalar, filled, num, ⟨_, copies, rfl, rfl, rfl, rfl, rfl, rfl, rfl, rfl⟩, rest⟩
    · exact enqueueTask_of_full here d.toNat rq ((taskEntry_eq_none ..).mpr full)
    · obtain ⟨res, entry⟩ := Option.ne_none_iff_exists'.mp fun none' => free ((taskEntry_eq_none ..).mp none')
      obtain ⟨goes, scalar, num, tasks, rest⟩ := enqueueTask_of_entry here found known d.toNat rq entry
      exact ⟨goes, scalar, num, ⟨_, tasks, rfl, rfl, rfl, rfl, rfl⟩, rest⟩
    · exact if_pos owes
    · rw [show s.waitStep r w .mxwait = s.waitOver r from if_neg (by simp [free])]
      exact goesOn_waitOver here found
    · split
      · next stays => exact if_neg (by simp [stays])
      · next comes =>
        rw [show s.waitStep r w (.pop q) = s.modFrag r Frag.goOn from if_pos (by simpa [imp_iff_not_or, List.isEmpty_iff] using comes)]
        exact queue_reissues here found
    · split
      · next full => exact if_neg (Nat.not_lt.mpr full)
      · next room =>
        rw [show s.waitStep r w (.push q) = s.modFrag r Frag.goOn from if_pos (Nat.not_le.mp room)]
        exact queue_reissues here found
  · obtain rfl : s.team team = tm := by rw [State.team, Tab.getD, stands]
    exact ⟨barRelease_of_missing, barRelease_of_all (Option.isSome_of_eq_some stands)⟩

end Sys2Proof.Machine

/-! SUPPORT. The fragments of a wave while lanes leave one of them (R29, R30), and the frame of a wave whose fragments change (R127). -/

namespace Sys2Proof.Machine

/-! ### The frame of a wave with other fragments -/

/-- A wave with other fragments, and another count of those it has had. -/
def Wave.withFrags (w : Wave) (fs : List Frag) (n : Nat) : Wave := { w with frags := fs, born := n }

theorem Wave.Stays.withFrags {v w : Wave} {hm : Bool} {e : Nat} {mv ms : List Nat} (a : v.Stays w hm e mv ms) (fs : List Frag) (n : Nat) :
    (v.withFrags fs n).Stays (w.withFrags fs n) hm e mv ms :=
  { a with
    still := congrArg (fun z : Wave => z.withFrags [] n) a.still
    entries := rfl, frag := fun _ _ => rfl, own := rfl }

/-- What is framed but for the fragments is framed by an instruction that may split. -/
theorem WaveFrame.split {v w : Wave} {i : Iss} {e : Nat} {x : Writes} {fs : List Frag} {n : Nat} (frame : WaveFrame (v.withFrags fs n) w i e x)
    (whole : x.split = false) : WaveFrame v w i e { x with split := true } :=
  { frame with
    frag := nofun
    own := nofun
    rest := by
      have before := frame.rest
      rw [whole] at before
      have born : w.born = n := (congrArg Wave.born before :)
      exact congrArg (fun z : Wave => { z with born := w.born }) before }

/-! ### Fragments that a leaving group makes -/

/-- The fragments of the wave `w` when those lanes of the fragment `e` have left that `gone` names: `e` was `f` in the wave `v`, and its lanes go on at
the PCs that `next` gives. -/
structure Wave.Parted (v w : Wave) (f : Frag) (e : Nat) (next : Nat → Nat) (gone : Nat → Prop) : Prop where
  stands : ∃ g ∈ w.frags, g.entry = e
  others : ∀ g ∈ v.frags, g.entry ≠ e → g ∈ w.frags
  own    : (w.frag e).st = f.st ∧ (w.frag e).wait = f.wait ∧ (w.frag e).fmt = f.fmt
  stack  : ∃ rs, (w.frag e).stack = rs ++ f.stack ∧ ∀ r ∈ rs, r.bound = none ∧ r.arrived = 0 ∧
      ∀ l, r.mask.getLsbD l = true → f.mask.getLsbD l = true ∧ r.pc = next l
  new    : ∀ g ∈ w.frags, g ∈ v.frags ∨ g.entry = e ∨ (g.stack = [] ∧ g.st = .running ∧ g.wait = .none ∧ g.fmt = f.fmt ∧
      ∀ l, g.mask.getLsbD l = true → f.mask.getLsbD l = true ∧ g.pc = next l)
  placed : ∀ l, gone l → (∃ g ∈ w.frags, g.entry ≠ e ∧ g.pc = next l ∧ g.mask.getLsbD l = true) ∨
      ∃ r ∈ (w.frag e).stack, r.bound = none ∧ r.pc = next l ∧ r.mask.getLsbD l = true

/-- A change of a fragment that leaves its place in the table, its state, its wait, its format and its records. -/
structure Frag.Keeps (g : Frag → Frag) : Prop where
  entry : ∀ f, (g f).entry = f.entry
  st    : ∀ f, (g f).st = f.st
  wait  : ∀ f, (g f).wait = f.wait
  fmt   : ∀ f, (g f).fmt = f.fmt
  stack : ∀ f, (g f).stack = f.stack

theorem Frag.keeps_of {g : Frag → Frag}
    (same : ∀ f, ((g f).entry, (g f).st, (g f).wait, (g f).fmt, (g f).stack) = (f.entry, f.st, f.wait, f.fmt, f.stack)) :
    Frag.Keeps g := by
  simp only [Prod.mk.injEq] at same
  exact ⟨fun f => (same f).1, fun f => (same f).2.1, fun f => (same f).2.2.1, fun f => (same f).2.2.2.1, fun f => (same f).2.2.2.2⟩

/-- A fragment whose restart point lets lanes go (R30). -/
def Frag.sheds (m : Mask) (f : Frag) : Frag :=
  { f with rmask := f.rmask &&& ~~~m, rstack := cutStack m f.rstack, rctr := f.rctr.filter fun c => !m.getLsbD c.1 }

theorem Frag.sheds_keeps (m : Mask) : Frag.Keeps (Frag.sheds m) := Frag.keeps_of fun _ => rfl

/-- Lanes that go on at one PC. -/
def Group (f : Frag) (next : Nat → Nat) (pc : Nat) (m : Mask) : Prop := ∀ l, m.getLsbD l = true → f.mask.getLsbD l = true ∧ pc = next l

section
variable {v w : Wave} {f : Frag} {e : Nat} {next : Nat → Nat} {gone : Nat → Prop}

theorem Wave.Parted.of_frags (a : v.Parted w f e next gone) {z : Wave} (same : z.frags = w.frags) : v.Parted z f e next gone := by
  obtain ⟨stands, others, own, stack, new, placed⟩ := a
  rw [← same] at stands others new placed
  rw [← Wave.frag_of_frags same] at own stack placed
  exact ⟨stands, others, own, stack, new, placed⟩

/-- No lane has left yet. -/
theorem Wave.Parted.start (stands : ∃ g ∈ v.frags, g.entry = e) {g : Frag → Frag} (keeps : Frag.Keeps g) :
    v.Parted (v.modFrag e g) (v.frag e) e next fun _ => False := by
  have own := Wave.frag_modFrag_self v g keeps.entry stands
  refine ⟨(Wave.stands_iff (Wave.modFrag_entries v e keeps.entry) e).mpr stands,
    fun h hh other => List.mem_map.mpr ⟨h, hh, if_neg other⟩, ?_, ⟨[], ?_, nofun⟩,
    fun h hh => ?_, nofun⟩
  · rw [own]; exact ⟨keeps.st _, keeps.wait _, keeps.fmt _⟩
  · rw [own]; exact keeps.stack _
  · obtain ⟨h', hh', rfl⟩ := List.mem_map.mp hh
    by_cases mine : h'.entry = e
    · rw [if_pos mine]; exact .inr (.inl ((keeps.entry h').trans mine))
    · rw [if_neg mine]; exact .inl hh'

/-- The fragment changes, but for its state and its records. -/
theorem Wave.Parted.modFrag (a : v.Parted w f e next gone) {g : Frag → Frag} (keeps : Frag.Keeps g) : v.Parted (w.modFrag e g) f e next gone := by
  have own := Wave.frag_modFrag_self w g keeps.entry a.stands
  refine ⟨(Wave.stands_iff (Wave.modFrag_entries w e keeps.entry) e).mpr a.stands,
    fun h hh other => List.mem_map.mpr ⟨h, a.others h hh other, if_neg other⟩,
    ?_, ?_, fun h hh => ?_, fun l hl => ?_⟩
  · rw [own, keeps.st, keeps.wait, keeps.fmt]; exact a.own
  · rw [own, keeps.stack]; exact a.stack
  · obtain ⟨h', hh', rfl⟩ := List.mem_map.mp hh
    by_cases mine : h'.entry = e
    · rw [if_pos mine]; exact .inr (.inl ((keeps.entry h').trans mine))
    · rw [if_neg mine]; exact a.new h' hh'
  · rw [own, keeps.stack]
    refine (a.placed l hl).imp_left ?_
    rintro ⟨h, hh, other, at'⟩
    exact ⟨h, List.mem_map.mpr ⟨h, hh, if_neg other⟩, other, at'⟩

/-- A group of lanes leaves as a new fragment. -/
theorem Wave.Parted.splitOff (a : v.Parted w f e next gone) {e' pc : Nat} {m : Mask} (free : e' ≠ e) (wake : Nat) (group : Group f next pc m) :
    v.Parted (w.splitOff e e' pc m wake) f e next fun l => gone l ∨ m.getLsbD l = true := by
  have b := a.modFrag (Frag.sheds_keeps m)
  obtain ⟨new, frags, entry, stack, st, wait, fmt, mask, at'⟩ : ∃ new : Frag,
      (w.splitOff e e' pc m wake).frags = (w.modFrag e (Frag.sheds m)).frags ++ [new]
      ∧ new.entry = e' ∧ new.stack = [] ∧ new.st = .running ∧ new.wait = .none ∧ new.fmt = (w.frag e).fmt ∧ new.mask = m ∧ new.pc = pc :=
    ⟨_, rfl, rfl, rfl, rfl, rfl, rfl, rfl, rfl⟩
  have here {h : Frag} (hh : h ∈ (w.modFrag e (Frag.sheds m)).frags) : h ∈ (w.splitOff e e' pc m wake).frags := by
    rw [frags]; exact List.mem_append_left _ hh
  have last : new ∈ (w.splitOff e e' pc m wake).frags := by rw [frags]; exact List.mem_append_right _ (.head _)
  have own : (w.splitOff e e' pc m wake).frag e = (w.modFrag e (Frag.sheds m)).frag e := by
    obtain ⟨x, found⟩ : ∃ x, (w.modFrag e (Frag.sheds m)).frags.find? (fun f => f.entry == e) = some x :=
      Option.isSome_iff_exists.mp (by simpa [List.find?_isSome] using b.stands)
    rw [Wave.frag, frags, List.find?_append, found, Wave.frag, found]
    rfl
  obtain ⟨x, hx, at''⟩ := b.stands
  refine ⟨⟨x, here hx, at''⟩, fun h hh other => here (b.others h hh other), own ▸ b.own, own ▸ b.stack, fun h hh => ?_, fun l hl => ?_⟩
  · rw [frags] at hh
    rcases List.mem_append.mp hh with old | hh
    · exact b.new h old
    · obtain rfl := List.mem_singleton.mp hh
      exact .inr (.inr ⟨stack, st, wait, fmt.trans a.own.2.2, fun l hl => at' ▸ group l (mask ▸ hl)⟩)
  · rw [own]
    rcases hl with hl | hl
    · refine (b.placed l hl).imp_left ?_
      rintro ⟨h, hh, rest⟩
      exact ⟨h, here hh, rest⟩
    · exact .inl ⟨new, last, entry ▸ free, at'.trans (group l hl).2, mask ▸ hl⟩

/-- A group of lanes leaves as a deferred record. -/
theorem Wave.Parted.defer (a : v.Parted w f e next gone) {pc : Nat} {m : Mask} (group : Group f next pc m) :
    v.Parted (w.defer e pc m) f e next fun l => gone l ∨ m.getLsbD l = true := by
  have own : (w.defer e pc m).frag e = { w.frag e with stack := { mask := m, pc := pc } :: (w.frag e).stack } :=
    Wave.frag_modFrag_self w (fun f => { f with stack := { mask := m, pc := pc } :: f.stack }) (fun _ => rfl) a.stands
  obtain ⟨rs, stack, recs⟩ := a.stack
  refine ⟨(Wave.stands_iff (Wave.modFrag_entries w e (g := fun f => { f with stack := { mask := m, pc := pc } :: f.stack }) fun _ => rfl) e).mpr a.stands,
    fun h hh other => List.mem_map.mpr ⟨h, a.others h hh other, if_neg other⟩, by rw [own]; exact a.own,
    ⟨{ mask := m, pc := pc } :: rs, by rw [own, stack]; rfl, ?_⟩, fun h hh => ?_, fun l hl => ?_⟩
  · rintro r (_ | ⟨_, hr⟩)
    · exact ⟨rfl, rfl, group⟩
    · exact recs r hr
  · obtain ⟨h', hh', rfl⟩ := List.mem_map.mp hh
    by_cases mine : h'.entry = e
    · rw [if_pos mine]; exact .inr (.inl mine)
    · rw [if_neg mine]; exact a.new h' hh'
  · rw [own]
    rcases hl with hl | hl
    · rcases a.placed l hl with ⟨h, hh, other, at'⟩ | ⟨r, hr, at'⟩
      · exact .inl ⟨h, List.mem_map.mpr ⟨h, hh, if_neg other⟩, other, at'⟩
      · exact .inr ⟨r, .tail _ hr, at'⟩
    · exact .inr ⟨_, .head _, rfl, (group l hl).2, hl⟩

/-- A region entry leaves the fragments where they go on. -/
theorem Wave.Parted.regionEntry (a : v.Parted w f e next gone) : v.Parted (w.regionEntry e) f e next gone := by
  have entered : v.Parted (w.entersRegion e) f e next gone := by
    refine Wave.Parted.of_frags (w := w.modFrag e (Frag.enters w.ctr)) (a.modFrag ?_) rfl
    exact Frag.keeps_of fun _ => rfl
  rw [Wave.regionEntry_eq]
  split
  · exact a
  · split
    · exact entered.of_frags (w.entersRegion e).settleRegion_frags_h.1
    · exact entered

/-- When the fragment holds the lanes that stay, every lane goes on where it is to go. -/
theorem Wave.Parted.done {k : Iss} (a : v.Parted w k.f e next gone) (group : Group k.f next (w.frag e).pc (w.frag e).mask)
    (all : ∀ l, k.f.mask.getLsbD l = true → (w.frag e).mask.getLsbD l = true ∨ gone l) :
    SplitFrame v w k e next ∧ ∀ l, k.f.mask.getLsbD l = true → LaneAtPc w l (next l) := by
  obtain ⟨x, hx, at'⟩ := a.stands
  refine ⟨⟨a.others, a.own, group, a.stack, a.new⟩, fun l hl => ?_⟩
  have mine : w.frag e ∈ w.frags := by
    cases found : w.frags.find? fun f => f.entry == e with
    | none => exact absurd at' (by simpa using List.find?_eq_none.mp found x hx)
    | some g => rw [Wave.frag, found]; exact List.mem_of_find?_eq_some found
  rcases all l hl with stays | left
  · exact ⟨_, mine, .inl ⟨(group l stays).2, stays⟩⟩
  · rcases a.placed l left with ⟨g, hg, -, at'⟩ | ⟨r, hr, at'⟩
    · exact ⟨g, hg, .inl at'⟩
    · exact ⟨_, mine, .inr ⟨r, hr, at'⟩⟩

end

end Sys2Proof.Machine

/-! SUPPORT. The lanes of a fragment go apart (R29 to R31, R127): what the state keeps, and where the lanes are afterwards. -/

namespace Sys2Proof.Machine

/-! ### A state whose wave `n` gets other fragments -/

/-- A state `z` is the state `b`, but for the fragments of the wave `n` and the counts that a quarter keeps of branches and splits. -/
structure State.Splits (b z : State) (n core q : Nat) : Prop where
  here  : (Tab.get? z.waves n).isSome = true
  wave  : ∃ fs k, z.wave n = (b.wave n).withFrags fs k
  waves : ∀ m, m ≠ n → z.wave m = b.wave m
  cnt   : ∀ key, (∀ c, 4 ≤ c → c < 8 → key ≠ qKey core q c) → Tab.getD 0 z.cnt key = Tab.getD 0 b.cnt key
  rest  : z = { b with waves := z.waves, cnt := z.cnt }

theorem State.Splits.refl {b : State} {n : Nat} (here : (Tab.get? b.waves n).isSome = true) (core q : Nat) : b.Splits b n core q :=
  ⟨here, ⟨_, _, rfl⟩, fun _ _ => rfl, fun _ _ => rfl, rfl⟩

section
variable {b z : State} {n core q : Nat} (p : b.Splits z n core q)
include p

theorem State.Splits.modWave {f : Wave → Wave} (keeps : ∀ w : Wave, ∃ fs k, f w = w.withFrags fs k) : b.Splits (z.modWave n f) n core q where
  here := (State.isSome_modWave ..).trans p.here
  wave := by
    obtain ⟨fs, k, same⟩ := p.wave
    obtain ⟨fs', k', changed⟩ := keeps (z.wave n)
    refine ⟨fs', k', ?_⟩
    rw [State.wave_modWave _ _ _ _ p.here, if_pos rfl, changed, same]
    rfl
  waves m other := (State.wave_modWave_ne _ _ other.symm).trans (p.waves m other)
  cnt := p.cnt
  rest := congrArg (fun s : State => { s with waves := (z.modWave n f).waves }) p.rest

theorem State.Splits.modFrag (e : Nat) (g : Frag → Frag) : b.Splits (z.modFrag ⟨n, e⟩ g) n core q := p.modWave fun _ => ⟨_, _, rfl⟩

theorem State.Splits.count {c : Nat} (low : 4 ≤ c) (high : c < 8) (k : Nat) : b.Splits (z.count (qKey core q c) k) n core q where
  here := p.here
  wave := p.wave
  waves := p.waves
  cnt key other := (Tab.getD_add_ne _ _ (other c low high).symm).trans (p.cnt key other)
  rest := congrArg (fun s : State => { s with cnt := (z.count (qKey core q c) k).cnt }) p.rest

end

/-! ### A group of lanes leaves -/

theorem Tab.mem_of_getD {α : Type} {d : α} {t : Tab α} {n : Nat} (here : (Tab.get? t n).isSome = true) : (n, Tab.getD d t n) ∈ t := by
  obtain ⟨x, found⟩ := Option.isSome_iff_exists.mp here
  rw [Tab.getD, found]
  exact Tab.mem_of_get? found

/-- The entry that a new fragment takes is none that its wave's fragments have (R29). -/
theorem freeEntry_fresh {z : State} {n e : Nat} (here : (Tab.get? z.waves n).isSome = true) (home : (z.wave n).here = true)
    (free : z.freeEntry (z.wave n) = some e) {f : Frag} (hf : f ∈ (z.wave n).frags) : e ≠ f.entry := by
  rintro rfl
  have unused := List.find?_some free
  have listed : (n, z.wave n) ∈ z.waves := Tab.mem_of_getD here
  have used : f.entry ∈ z.entriesUsed (z.wave n).core (z.wave n).q :=
    List.mem_flatMap.mpr ⟨_, List.mem_filter.mpr ⟨listed, by simp [home]⟩, List.mem_map.mpr ⟨f, hf, rfl⟩⟩
  rw [List.contains_iff_mem.mpr used] at unused
  cases unused

/-- A wave in a quarter. -/
def Wave.HomeAt (w : Wave) (core q : Nat) : Prop := w.here = true ∧ w.core = core ∧ w.q = q

section
variable {b z : State} {n core q e : Nat} {v : Wave} {f : Frag} {next : Nat → Nat} {gone : Nat → Prop}

theorem State.Splits.home (p : b.Splits z n core q) (home : (b.wave n).HomeAt core q) : (z.wave n).HomeAt core q := by
  obtain ⟨fs, k, same⟩ := p.wave
  rw [same]
  exact home

theorem State.Splits.leave (p : b.Splits z n core q) (home : (b.wave n).HomeAt core q) (a : v.Parted (z.wave n) f e next gone) {pc : Nat} {m : Mask}
    (group : Group f next pc m) (hm : Bool) (wake : Nat) : b.Splits (z.leave ⟨n, e⟩ hm pc m wake) n core q
      ∧ v.Parted ((z.leave ⟨n, e⟩ hm pc m wake).wave n) f e next fun l => gone l ∨ m.getLsbD l = true := by
  obtain ⟨here, hcore, hq⟩ := p.home home
  unfold State.leave
  dsimp only
  split
  · next e' free =>
    have free : z.freeEntry (z.wave n) = some e' := by
      cases hm
      · exact free
      · cases free
    obtain ⟨x, hx, mine⟩ := a.stands
    refine ⟨p.modWave fun w => ⟨_, _, rfl⟩, ?_⟩
    rw [State.wave_modWave _ _ _ _ p.here, if_pos rfl]
    exact (a.modFrag (g := fun f => { f with prior := z.inOrder ⟨n, e⟩ }) (Frag.keeps_of fun _ => rfl)).splitOff
      (mine ▸ freeEntry_fresh p.here here free hx) wake group
  · have deferred := p.modWave (f := fun w => w.defer e pc m) fun w => ⟨_, _, rfl⟩
    have parted : v.Parted ((z.modWave n fun w => w.defer e pc m).wave n) f e next fun l => gone l ∨ m.getLsbD l = true := by
      rw [State.wave_modWave _ _ _ _ p.here, if_pos rfl]
      exact a.defer group
    rw [hcore, hq]
    split
    · exact ⟨deferred, parted⟩
    · exact ⟨deferred.count (by decide) (by decide) 1, parted⟩

/-- All the groups leave, one after another. -/
theorem State.Splits.leaves (groups : List (Nat × Mask)) (p : b.Splits z n core q) (home : (b.wave n).HomeAt core q)
    (a : v.Parted (z.wave n) f e next gone) (good : ∀ g ∈ groups, Group f next g.1 g.2) (hm : Bool) (wake : Nat) :
    b.Splits (groups.foldl (fun s g => s.leave ⟨n, e⟩ hm g.1 g.2 wake) z) n core q
      ∧ v.Parted ((groups.foldl (fun s g => s.leave ⟨n, e⟩ hm g.1 g.2 wake) z).wave n) f e next
        fun l => gone l ∨ ∃ g ∈ groups, g.2.getLsbD l = true := by
  induction groups generalizing z gone with
  | nil => exact ⟨p, by simpa using a⟩
  | cons g gs ih =>
    obtain ⟨p', a'⟩ := p.leave home a (good g (.head _)) hm wake
    obtain ⟨p'', a''⟩ := ih p' a' fun x hx => good x (.tail _ hx)
    refine ⟨p'', ?_⟩
    simpa [or_assoc] using a''

/-- Where a fragment goes on, with the lanes that it holds. -/
def Frag.goesTo (pc : Nat) (m : Mask) (wake : Nat) (f : Frag) : Frag := { f with pc := pc, mask := m, wake := wake }

theorem State.Splits.own (p : b.Splits z n core q) (a : v.Parted (z.wave n) f e next gone) {g : Frag → Frag} (keeps : Frag.Keeps g) :
    b.Splits (z.modFrag ⟨n, e⟩ g) n core q ∧ v.Parted ((z.modFrag ⟨n, e⟩ g).wave n) f e next gone
      ∧ ((z.modFrag ⟨n, e⟩ g).wave n).frag e = g ((z.wave n).frag e) := by
  have wave : (z.modFrag ⟨n, e⟩ g).wave n = (z.wave n).modFrag e g := (State.wave_modWave _ _ _ _ p.here).trans (if_pos rfl)
  rw [wave]
  exact ⟨p.modFrag e g, a.modFrag keeps, Wave.frag_modFrag_self _ g keeps.entry a.stands⟩

end

/-! ### A split -/

/-- What a branch comes to before its end: the state `z`, with every lane of the fragment where it goes on. -/
structure State.Parts (b z : State) (v : Wave) (k : Iss) (n e : Nat) (next : Nat → Nat) (gone : Nat → Prop) : Prop where
  splits : b.Splits z n k.w.core k.w.q
  parted : v.Parted (z.wave n) k.f e next gone
  stay   : Group k.f next ((z.wave n).frag e).pc ((z.wave n).frag e).mask
  all    : ∀ l, k.f.mask.getLsbD l = true → ((z.wave n).frag e).mask.getLsbD l = true ∨ gone l

section
variable {b z : State} {v : Wave} {k : Iss} {n e : Nat} {next : Nat → Nat} {gone : Nat → Prop} (p : b.Parts z v k n e next gone)
include p

theorem State.Parts.count {c : Nat} (low : 4 ≤ c) (high : c < 8) (x : Nat) : b.Parts (z.count (qKey k.w.core k.w.q c) x) v k n e next gone :=
  ⟨p.splits.count low high x, p.parted, p.stay, p.all⟩

/-- Causes that are to be raised before the next issue change nothing of where the lanes are. -/
theorem State.Parts.late (x : List Trap) : b.Parts (z.modFrag ⟨n, e⟩ fun f => { f with late := f.late ++ x }) v k n e next gone := by
  obtain ⟨splits, parted, own⟩ := p.splits.own p.parted (g := fun f => { f with late := f.late ++ x })
    (Frag.keeps_of fun _ => rfl)
  exact ⟨splits, parted, by rw [own]; exact p.stay, by rw [own]; exact p.all⟩

end

section
variable {b z s0 : State} {k : Iss} {v : Wave} {next : Nat → Nat} {n e : Nat}

/-- The fragment goes on at one PC with the lanes that stay. -/
theorem State.Splits.goesTo {gone : Nat → Prop} (p : b.Splits z n k.w.core k.w.q) (a : v.Parted (z.wave n) k.f e next gone) {pc : Nat} {stay : Mask}
    (stays : Group k.f next pc stay) (all : ∀ l, k.f.mask.getLsbD l = true → stay.getLsbD l = true ∨ gone l) (wake : Nat) :
    b.Parts (z.modFrag ⟨n, e⟩ (Frag.goesTo pc stay wake)) v k n e next gone := by
  obtain ⟨splits, parted, own⟩ := p.own a (g := Frag.goesTo pc stay wake) (Frag.keeps_of fun _ => rfl)
  exact ⟨splits, parted, by rw [own]; exact stays, by rw [own]; exact all⟩

/-- Lanes that stay go on at their PC, the others leave in their groups. -/
theorem State.Splits.diverge (cur : s0.curRef = ⟨n, e⟩) (p : b.Splits z n k.w.core k.w.q) (home : (b.wave n).HomeAt k.w.core k.w.q)
    (a : v.Parted (z.wave n) k.f e next fun _ => False) {pc : Nat} {stay : Mask} {groups : List (Nat × Mask)} (stays : Group k.f next pc stay)
    (good : ∀ g ∈ groups, Group k.f next g.1 g.2)
    (all : ∀ l, k.f.mask.getLsbD l = true → stay.getLsbD l = true ∨ ∃ g ∈ groups, g.2.getLsbD l = true)
    (wake : Nat) : ∃ gone, b.Parts (z.diverge s0 k pc stay groups wake) v k n e next gone := by
  obtain ⟨left, parted⟩ := p.leaves groups home a good k.hm wake
  have moved := left.goesTo parted stays (fun l hl => (all l hl).imp_right .inr) wake
  generalize hy : (groups.foldl (fun s g => s.leave ⟨n, e⟩ k.hm g.1 g.2 wake) z).modFrag ⟨n, e⟩ (Frag.goesTo pc stay wake) = y at moved
  have counted : b.Parts (if groups.isEmpty then y else y.count (qKey k.w.core k.w.q 7) 1) v k n e next
      fun l => False ∨ ∃ g ∈ groups, g.2.getLsbD l = true := by
    split
    · exact moved
    · exact moved.count (by decide) (by decide) 1
  refine ⟨fun l => False ∨ ∃ g ∈ groups, g.2.getLsbD l = true, ?_⟩
  rw [← hy] at counted
  unfold State.diverge
  rw [cur]
  dsimp only
  split
  · exact counted
  · exact counted.late _

end

end Sys2Proof.Machine

/-! SUPPORT. The end and the frame of a branch (R29, R33, R127, R128). -/

namespace Sys2Proof.Machine

/-! ### What is around the wave -/

section
variable {s a b t : State} {i : Iss} {x : Writes} {w : Wave}

/-- An instruction leaves alone what is around its wave, whatever it writes there. -/
theorem State.Course.frame_around (c : s.Course a b i x w) (stands : Stands s) (sat : x.sat = false) (whole : x.split = false) :
    Frame s { b with waves := s.waves } i x := by
  obtain ⟨present, -, -, mine⟩ := stands.wave
  have cur : a.cur = s.cur := c.aims.cur
  refine Frame.of_aims (a := { a with waves := s.waves }) (w := s.wave s.cur.wave) ?_ (.refl _ sat whole) ?_
  · exact { c.aims with
      here := present
      wave := rfl, waves := fun _ _ => rfl
      rest := congrArg (fun z : State => { z with waves := s.waves }) c.aims.rest }
  · exact
      { heres := by rw [cur]; exact ⟨present, present⟩
        stands := by rw [cur]; exact mine
        wave := .refl .., waves := fun _ _ => rfl, cnt := c.settles.cnt, busy := c.settles.busy
        rest := congrArg (fun z : State => { z with waves := s.waves }) c.settles.rest }

/-- An instruction that splits leaves alone what is around its wave but for the counts of branches and splits. -/
theorem Frame.split (frame : Frame s { b with waves := s.waves } i x) (whole : x.split = false) (rest : t = { b with waves := t.waves, cnt := t.cnt })
    (cnt : ∀ key, (∀ c, 4 ≤ c → c < 8 → key ≠ qKey i.w.core i.w.q c) → Tab.getD 0 t.cnt key = Tab.getD 0 b.cnt key)
    (waves : ∀ n, n ≠ s.cur.wave → t.wave n = s.wave n)
    (wave : WaveFrame (s.wave s.cur.wave) (t.wave s.cur.wave) i s.cur.entry { x with split := true }) : Frame s t i { x with split := true } := by
  have team (n : Nat) : t.team n = b.team n := (congrArg (fun z : State => z.team n) rest :)
  exact {
    wave := wave
    waves := waves
    teams := fun n => by rw [team]; exact frame.teams n
    queue := fun n k far => by rw [team]; exact frame.queue n k far
    local' := fun n a' far => by rw [team]; exact frame.local' n a' far
    quads := fun n far => by rw [team]; exact frame.quads n far
    cnt := fun key other apart => (cnt key (apart rfl)).trans (frame.cnt key other fun split => by rw [whole] at split; cases split)
    busy := fun key other => (congrArg (fun z : State => Tab.getD 0 z.busy key) rest :).trans (frame.busy key other)
    bytes := fun a' => (congrArg (fun z : State => z.mem.get a') rest :).trans (frame.bytes a')
    rest := by
      have kept {γ : Type} (p : State → γ) := congrArg p rest
      rw [kept State.teams, kept State.free, kept State.mail, kept State.reqs, kept State.reps, kept State.ops, kept State.nextId, kept State.ats,
        kept State.pages, kept State.outbox, kept State.l1, kept State.log, kept State.bears, kept State.busy]
      exact rest.trans (congrArg (fun z : State => { z with waves := t.waves, cnt := t.cnt }) frame.rest) }

end

/-! ### The end of a branch -/

/-- The end of an instruction makes a region entry of its fragment, or nothing. -/
theorem finish_wave {z : State} {r : FragRef} {i : Iss} {u : Uses} (here : (Tab.get? z.waves r.wave).isSome = true)
    (stands : ∃ f ∈ (z.wave r.wave).frags, f.entry = r.entry) :
    ((z.finish r i u).wave r.wave = z.wave r.wave ∨ (z.finish r i u).wave r.wave = (z.wave r.wave).regionEntry r.entry)
      ∧ (∀ n, n ≠ r.wave → (z.finish r i u).wave n = z.wave n) ∧ z.finish r i u = { z with waves := (z.finish r i u).waves } := by
  rcases finish_cases z r i u with same | ⟨enters, -⟩
  · rw [same]; exact ⟨.inl rfl, fun _ _ => rfl, rfl⟩
  · rw [enters, Wave.heirOf_self _ stands]
    exact ⟨.inr ((State.wave_modWave _ _ _ _ here).trans (if_pos rfl)), fun n other => State.wave_modWave_ne _ _ other.symm, rfl⟩

/-- A wave `w` is `v` with what a branch writes of it beside its fragments. -/
structure Wave.Links (v w : Wave) (i : Iss) (e : Nat) (x : Writes) : Prop where
  frame : ∀ fs n, WaveFrame (v.withFrags fs n) (w.withFrags fs n) i e x
  killV : ∀ n l, (w.vreg n).kill.getLsbD l = true → n ∈ x.mv ∨ (v.vreg n).kill.getLsbD l = true
  killS : ∀ b n, (w.sFile b n).kill = true → (n ∈ x.ms ∧ sHome i.hm n = b) ∨ (v.sFile b n).kill = true
  slots : ∀ k, k ∉ x.o → (w.slotAt k).val = (v.slotAt k).val

section
variable {v : Wave} {i : Iss} {e : Nat} {x : Writes}

theorem Wave.Links.modFrag (sat : x.sat = false) (whole : x.split = false) (g : Frag → Frag) : v.Links (v.modFrag e g) i e x where
  frame fs n := WaveFrame.of_stays (Wave.Aims.refl (v.withFrags fs n) sat whole) (.refl ..)
  killV _ _ := .inr
  killS _ _ := .inr
  slots _ _ := rfl

theorem Wave.Links.writeS {w : Wave} (a : v.Links w i e x) {n : Nat} (mine : n ∈ x.ds) (y : DWord) : v.Links (w.writeS i.hm n y) i e x where
  frame fs k := by
    have moved : (w.writeS i.hm n y).withFrags fs k = (w.withFrags fs k).writeS i.hm n y := by
      unfold Wave.writeS Wave.setS
      split <;> rfl
    rw [moved]
    exact (a.frame fs k).writeS mine y
  killV m l := by
    rw [Wave.writeS, Wave.vreg_setS]
    exact a.killV m l
  killS b m := by
    rw [Wave.writeS, Wave.sFile_setS]
    split
    · exact nofun
    · exact a.killS b m
  slots k other := by
    rw [Wave.writeS, show (w.setS i.hm n _).slotAt k = w.slotAt k by simp [Wave.slotAt]]
    exact a.slots k other

end

section
variable {s a b z : State} {k : Iss} {x : Writes} {w : Wave} {next : Nat → Nat} {gone : Nat → Prop}

/-- What a branch leads to whose lanes have gone apart, once it has ended. -/
theorem State.Course.splits (c : s.Course a b k x w) (stands : Stands s) (links : (s.wave s.cur.wave).Links w k s.cur.entry x) (sat : x.sat = false)
    (whole : x.split = false) (parts : b.Parts z (s.wave s.cur.wave) k s.cur.wave s.cur.entry next gone) (u : Uses) :
    let t := z.finish s.curRef k u
    (∀ l, k.f.mask.getLsbD l = true → LaneAtPc (t.wave s.cur.wave) l (next l))
      ∧ (∀ hm n, ((b.wave s.cur.wave).sFile hm n).kill = false → ((t.wave s.cur.wave).sFile hm n).val = ((b.wave s.cur.wave).sFile hm n).val
        ∧ ((t.wave s.cur.wave).sFile hm n).dead = ((b.wave s.cur.wave).sFile hm n).dead)
      ∧ SplitFrame (s.wave s.cur.wave) (t.wave s.cur.wave) k s.cur.entry next ∧ Frame s t k { x with split := true } := by
  intro t
  obtain ⟨ends, others, rest⟩ := finish_wave (r := s.curRef) (i := k) (u := u) parts.splits.here parts.parted.stands
  obtain ⟨fs, n, reframed⟩ := parts.splits.wave
  -- the end of the branch kills nothing but what is pending, and moves no lane
  have ending : (z.wave s.cur.wave).Stays (t.wave s.cur.wave) k.hm s.cur.entry [] [] := by
    rcases ends with same | enters
    · rw [show t.wave s.cur.wave = _ from same]; exact .refl ..
    · rw [show t.wave s.cur.wave = _ from enters]; exact (Wave.Stays.refl ..).regionEntry
  have parted : (s.wave s.cur.wave).Parted (t.wave s.cur.wave) k.f s.cur.entry next gone := by
    rcases ends with same | enters
    · rw [show t.wave s.cur.wave = _ from same]; exact parts.parted
    · rw [show t.wave s.cur.wave = _ from enters]; exact parts.parted.regionEntry
  have stays : (w.withFrags fs n).Stays (t.wave s.cur.wave) k.hm s.cur.entry x.mv x.ms := by
    have read := c.stays.withFrags fs n
    rw [← reframed] at read
    rcases ends with same | enters
    · rw [show t.wave s.cur.wave = _ from same]; exact read
    · rw [show t.wave s.cur.wave = _ from enters]; exact read.regionEntry
  have pc : ((t.wave s.cur.wave).frag s.cur.entry).pc = ((z.wave s.cur.wave).frag s.cur.entry).pc := (congrArg Frag.pc ending.own :)
  have mask : ((t.wave s.cur.wave).frag s.cur.entry).mask = ((z.wave s.cur.wave).frag s.cur.entry).mask := (congrArg Frag.mask ending.own :)
  obtain ⟨split, lanes⟩ := parted.done (pc ▸ mask ▸ parts.stay) (mask ▸ parts.all)
  have wave := ((links.frame fs n).settled links.killV links.killS links.slots whole stays).split whole
  refine ⟨lanes, fun hm m alive => ?_, split, (c.frame_around stands sat whole).split whole ?_ ?_ ?_ wave⟩
  · have file : (z.wave s.cur.wave).sFile hm m = (b.wave s.cur.wave).sFile hm m := by rw [reframed]; rfl
    have kept := ending.scal hm m
    rw [file] at kept
    exact kept.resolve_right (by simp [alive])
  · rw [show t.cnt = z.cnt from (congrArg State.cnt rest :)]
    exact rest.trans (congrArg (fun y : State => { y with waves := t.waves }) parts.splits.rest)
  · intro key apart
    exact (congrArg (fun y : State => Tab.getD 0 y.cnt key) rest :).trans (parts.splits.cnt key apart)
  · intro m other
    calc t.wave m = z.wave m := others m other
      _ = b.wave m := parts.splits.waves m other
      _ = a.wave m := c.settles.waves m (by rw [c.aims.cur]; exact other)
      _ = s.wave m := c.aims.waves m other

end

end Sys2Proof.Machine

/-! SUPPORT. Where the lanes of a branch go (R29, R52, R127): its groups, and what its body makes of them. -/

namespace Sys2Proof.Machine

/-! ### Groups of lanes -/

/-- A lane joins the group of its PC. -/
def groupStep (pcOf : Nat → Nat) (gs : List (Nat × Mask)) (l : Nat) : List (Nat × Mask) :=
  if gs.any fun g => g.1 == pcOf l then gs.map fun g => if g.1 = pcOf l then (g.1, g.2 ||| (1#64 <<< l)) else g
  else gs ++ [(pcOf l, 1#64 <<< l)]

/-- Groups that hold the lanes `ls`, each at its own PC. -/
structure Grouped (pcOf : Nat → Nat) (ls : List Nat) (gs : List (Nat × Mask)) : Prop where
  apart : (gs.map Prod.fst).Nodup
  lanes : ∀ g ∈ gs, ∀ l, g.2.getLsbD l = true → l ∈ ls ∧ g.1 = pcOf l
  all   : ∀ l ∈ ls, ∃ g ∈ gs, g.2.getLsbD l = true
  some' : ∀ g ∈ gs, ∃ l, g.2.getLsbD l = true

theorem getLsbD_oneLane {l : Nat} (hl : l < 64) (j : Nat) : (1#64 <<< l).getLsbD j = decide (j = l) := by
  simp only [BitVec.getLsbD_shiftLeft, BitVec.getLsbD_one]
  by_cases same : j = l
  · subst same
    simp [hl]
  · by_cases low : j < l
    · simp [low, same]
    · simp [same]; omega

section
variable {pcOf : Nat → Nat} {ls : List Nat} {gs : List (Nat × Mask)} (a : Grouped pcOf ls gs) {l : Nat} (hl : l < 64)
include a hl

/-- A lane joins the group that stands at its PC. -/
theorem Grouped.join (there : ∃ g ∈ gs, g.1 = pcOf l) :
    Grouped pcOf (ls ++ [l]) (gs.map fun g => if g.1 = pcOf l then (g.1, g.2 ||| (1#64 <<< l)) else g) := by
  have one := getLsbD_oneLane hl
  have kept {g : Nat × Mask} {j : Nat} (hj : g.2.getLsbD j = true) : (if g.1 = pcOf l then (g.1, g.2 ||| (1#64 <<< l)) else g).2.getLsbD j = true := by
    split <;> simp [hj]
  refine ⟨?_, fun g hg j hj => ?_, fun j hj => ?_, fun g hg => ?_⟩
  · have keys : (gs.map fun g => if g.1 = pcOf l then (g.1, g.2 ||| (1#64 <<< l)) else g).map Prod.fst = gs.map Prod.fst := by
      rw [List.map_map]
      refine List.map_congr_left fun g _ => ?_
      dsimp only [Function.comp]
      split <;> rfl
    rw [keys]
    exact a.apart
  · obtain ⟨g, member, rfl⟩ := List.mem_map.mp hg
    split at hj
    · next mine =>
      rw [if_pos mine]
      rw [BitVec.getLsbD_or, one, Bool.or_eq_true, decide_eq_true_eq] at hj
      rcases hj with hj | rfl
      · exact ⟨List.mem_append_left _ (a.lanes g member j hj).1, (a.lanes g member j hj).2⟩
      · exact ⟨List.mem_append_right _ (.head _), mine⟩
    · next other =>
      rw [if_neg other]
      exact ⟨List.mem_append_left _ (a.lanes g member j hj).1, (a.lanes g member j hj).2⟩
  · rcases List.mem_append.mp hj with hj | hj
    · obtain ⟨g, hg, at'⟩ := a.all j hj
      exact ⟨_, List.mem_map.mpr ⟨g, hg, rfl⟩, kept at'⟩
    · obtain rfl := List.mem_singleton.mp hj
      obtain ⟨h, hh, at'⟩ := there
      exact ⟨_, List.mem_map.mpr ⟨h, hh, rfl⟩, by rw [if_pos at', BitVec.getLsbD_or, one]; simp⟩
  · obtain ⟨g, member, rfl⟩ := List.mem_map.mp hg
    obtain ⟨j, hj⟩ := a.some' g member
    exact ⟨j, kept hj⟩

/-- A lane is the first of its group. -/
theorem Grouped.begin (none' : ∀ g ∈ gs, g.1 ≠ pcOf l) : Grouped pcOf (ls ++ [l]) (gs ++ [(pcOf l, 1#64 <<< l)]) := by
  have one := getLsbD_oneLane hl
  refine ⟨?_, fun g hg j hj => ?_, fun j hj => ?_, fun g hg => ?_⟩
  · rw [List.map_append, List.nodup_append]
    refine ⟨a.apart, List.nodup_singleton _, ?_⟩
    rintro _ hx _ hy rfl
    obtain ⟨g, hg, rfl⟩ := List.mem_map.mp hx
    exact none' g hg (List.mem_singleton.mp hy)
  · rcases List.mem_append.mp hg with hg | hg
    · exact ⟨List.mem_append_left _ (a.lanes g hg j hj).1, (a.lanes g hg j hj).2⟩
    · obtain rfl := List.mem_singleton.mp hg
      rw [one, decide_eq_true_eq] at hj
      exact hj ▸ ⟨List.mem_append_right _ (.head _), rfl⟩
  · rcases List.mem_append.mp hj with hj | hj
    · obtain ⟨g, hg, at'⟩ := a.all j hj
      exact ⟨g, List.mem_append_left _ hg, at'⟩
    · obtain rfl := List.mem_singleton.mp hj
      exact ⟨_, List.mem_append_right _ (.head _), by rw [one]; simp⟩
  · rcases List.mem_append.mp hg with hg | hg
    · exact a.some' g hg
    · obtain rfl := List.mem_singleton.mp hg
      exact ⟨l, by rw [one]; simp⟩

theorem Grouped.step : Grouped pcOf (ls ++ [l]) (groupStep pcOf gs l) := by
  unfold groupStep
  split
  · next there => exact a.join hl (by simpa using there)
  · next none' => exact a.begin hl fun g hg at' => none' (List.any_eq_true.mpr ⟨g, hg, by simpa using at'⟩)

end

/-- The groups of a mask's lanes. -/
theorem groups_grouped (pcOf : Nat → Nat) (m : Mask) : Grouped pcOf (lanesOf m) (groups pcOf m) := by
  have fold (ls done : List Nat) (gs : List (Nat × Mask)) (low : ∀ l ∈ ls, l < 64) (a : Grouped pcOf done gs) :
      Grouped pcOf (done ++ ls) (ls.foldl (groupStep pcOf) gs) := by
    induction ls generalizing done gs with
    | nil => simpa using a
    | cons l ls ih =>
      have := ih (done ++ [l]) (groupStep pcOf gs l) (fun x hx => low x (.tail _ hx)) (a.step (low l (.head _)))
      simpa using this
  have := fold (lanesOf m) [] [] (fun l hl => List.mem_range.mp (List.mem_filter.mp hl).1) ⟨List.nodup_nil, nofun, nofun, nofun⟩
  exact this

theorem popMask_pos {m : Mask} {l : Nat} (hl : m.getLsbD l = true) : 0 < popMask m :=
  List.length_pos_of_mem ((mem_lanesOf m l).mpr hl)

theorem largest_mem {gs : List (Nat × Mask)} (some' : ∀ g ∈ gs, ∃ l, g.2.getLsbD l = true) (ne : gs ≠ []) : largest gs ∈ gs := by
  have fold (gs : List (Nat × Mask)) (b : Nat × Mask) : gs.foldl (fun b g => if popMask b.2 < popMask g.2 then g else b) b = b ∨
      gs.foldl (fun b g => if popMask b.2 < popMask g.2 then g else b) b ∈ gs := by
    induction gs generalizing b with
    | nil => exact .inl rfl
    | cons g gs ih =>
      rw [List.foldl_cons]
      rcases ih (if popMask b.2 < popMask g.2 then g else b) with same | mem
      · rw [same]
        split
        · exact .inr (.head _)
        · exact .inl rfl
      · exact .inr (.tail _ mem)
  cases gs with
  | nil => exact absurd rfl ne
  | cons g gs =>
    obtain ⟨l, hl⟩ := some' g (.head _)
    have first : largest (g :: gs) = gs.foldl (fun b g => if popMask b.2 < popMask g.2 then g else b) g := by
      rw [largest, List.foldl_cons, if_pos]
      exact (show popMask (0 : Mask) = 0 by decide) ▸ popMask_pos hl
    rw [first]
    rcases fold gs g with same | mem
    · rw [same]; exact .head _
    · exact .tail _ mem

/-- There are no more groups than PCs. -/
theorem Grouped.length_le {pcOf : Nat → Nat} {ls : List Nat} {gs : List (Nat × Mask)} (a : Grouped pcOf ls gs) :
    gs.length ≤ ((ls.map pcOf).dedup).length := by
  rw [← List.length_map (f := Prod.fst) (as := gs)]
  refine (List.subperm_of_subset a.apart fun p hp => ?_).length_le
  obtain ⟨g, hg, rfl⟩ := List.mem_map.mp hp
  obtain ⟨l, hl⟩ := a.some' g hg
  obtain ⟨mem, at'⟩ := a.lanes g hg l hl
  exact List.mem_dedup.mpr (List.mem_map.mpr ⟨l, mem, at'.symm⟩)

theorem defers_mono (s : State) (w : Wave) (hm : Bool) {m n : Nat} (le : m ≤ n) : s.defers w hm m ≤ s.defers w hm n := by
  unfold State.defers
  split
  · exact le
  · exact Nat.sub_le_sub_right le _

end Sys2Proof.Machine

/-! SUPPORT. What the body of a branch makes of its lanes (R29, R52, R127, R128), and the settled statement. -/

namespace Sys2Proof.Machine

/-- A state in which no lane of a branch has gone anywhere yet: its fragment has all of them. -/
structure State.Forks (b z : State) (v : Wave) (k : Iss) (n e : Nat) (next : Nat → Nat) : Prop where
  splits : b.Splits z n k.w.core k.w.q
  parted : v.Parted (z.wave n) k.f e next fun _ => False
  mask   : ((z.wave n).frag e).mask = k.f.mask
  home   : (b.wave n).HomeAt k.w.core k.w.q

section
variable {b z s : State} {v : Wave} {k : Iss} {next : Nat → Nat}

theorem State.Forks.count {n e c : Nat} (a : b.Forks z v k n e next) (low : 4 ≤ c) (high : c < 8) (x : Nat) :
    b.Forks (z.count (qKey k.w.core k.w.q c) x) v k n e next := ⟨a.splits.count low high x, a.parted, a.mask, a.home⟩

/-- The count of branches or returns is taken, or not. -/
theorem State.Forks.counted {n e c : Nat} (a : b.Forks z v k n e next) (low : 4 ≤ c) (high : c < 8) (p : Prop) [Decidable p] :
    b.Forks (if p then z else z.count (qKey k.w.core k.w.q c) 1) v k n e next := by
  split
  · exact a
  · exact a.count low high 1

/-- The whole fragment goes on at one PC. -/
theorem State.Forks.moves {n e : Nat} (a : b.Forks z v k n e next) {pc : Nat} (all : Group k.f next pc k.f.mask) (wake : Frag → Nat) :
    b.Parts (z.modFrag ⟨n, e⟩ fun f => { f with pc := pc, wake := wake f }) v k n e next fun _ => False := by
  obtain ⟨splits, parted, own⟩ := a.splits.own a.parted (g := fun f => { f with pc := pc, wake := wake f })
    (Frag.keeps_of fun _ => rfl)
  have mask : (((z.modFrag ⟨n, e⟩ fun f => { f with pc := pc, wake := wake f }).wave n).frag e).mask = k.f.mask := by rw [own]; exact a.mask
  exact ⟨splits, parted, by rw [mask, own]; exact all, fun l hl => .inl (by rw [mask]; exact hl)⟩

theorem State.Forks.diverge (a : b.Forks z v k s.cur.wave s.cur.entry next) {pc : Nat} {stay : Mask} {groups : List (Nat × Mask)}
    (stays : Group k.f next pc stay)
    (good : ∀ g ∈ groups, Group k.f next g.1 g.2)
    (all : ∀ l, k.f.mask.getLsbD l = true → stay.getLsbD l = true ∨ ∃ g ∈ groups, g.2.getLsbD l = true)
    (wake : Nat) : ∃ gone, b.Parts (z.diverge s k pc stay groups wake) v k s.cur.wave s.cur.entry next gone :=
  a.splits.diverge rfl a.home a.parted stays good all wake

end

/-! ### Branches to one target -/

section
variable {s : State} {k : Iss} {t : Nat}

/-- Where the lanes of a branch go: those that take part to `dest`, the others on. -/
def nextOf (s : State) (k : Iss) (dest : Nat → Nat) (l : Nat) : Nat := if k.part.getLsbD l then dest l else k.f.pc + s.cur.step

/-- What a branch's body makes of a state: in a state where no lane has moved yet it leaves every lane where it goes. -/
def Body.Moves (body : Body) (link : State → State) (s : State) (k : Iss) (next : Nat → Nat) : Prop :=
  ∃ eff, body = .go eff ∧ ∀ (b : State) (v : Wave), (link b).Forks (link b) v k s.cur.wave s.cur.entry next →
    ∃ gone, (link b).Parts (eff b) v k s.cur.wave s.cur.entry next gone

/-- A branch to one target moves every lane, if its records have room. -/
theorem branchBody_moves (link : State → State) (off : BitVec 32) (room : k.f.pc + s.cur.step < 2 ^ 57)
    (inside : ∀ l, k.part.getLsbD l = true → k.f.mask.getLsbD l = true)
    (target : relTarget k.f.pc off = some t) (act : k.part ≠ 0)
    (records : k.f.stack.length + s.defers k.w k.hm ((((lanesOf k.f.mask).map (nextOf s k fun _ => t)).dedup).length - 1) ≤ 8) :
    (branchBody link off k s).Moves link s k (nextOf s k fun _ => t) := by
  have nxt : nextPc k.f.pc s.cur.step = k.f.pc + s.cur.step := nextPc_of_lt room
  have mem (l : Nat) : (k.f.mask &&& ~~~k.part).getLsbD l = true ↔ k.f.mask.getLsbD l = true ∧ k.part.getLsbD l = false := by
    rw [BitVec.getLsbD_and, BitVec.getLsbD_not, Bool.and_eq_true]
    refine and_congr_right fun hl => ?_
    simp [BitVec.lt_of_getLsbD hl]
  have taken : Group k.f (nextOf s k fun _ => t) t k.part := fun l hl => ⟨inside l hl, by rw [nextOf, if_pos hl]⟩
  have left : Group k.f (nextOf s k fun _ => t) (k.f.pc + s.cur.step) (k.f.mask &&& ~~~k.part) := fun l hl => by
    obtain ⟨active, out⟩ := (mem l).mp hl
    exact ⟨active, by rw [nextOf, if_neg (by simp [out])]⟩
  have all (l : Nat) (hl : k.f.mask.getLsbD l = true) : k.part.getLsbD l = true ∨ (k.f.mask &&& ~~~k.part).getLsbD l = true := by
    cases part : k.part.getLsbD l
    · exact .inr ((mem l).mpr ⟨hl, part⟩)
    · exact .inl rfl
  unfold branchBody
  rw [target, nxt]
  dsimp only
  split
  · next together =>
    have together' : k.f.mask &&& ~~~k.part = 0 ∨ t = k.f.pc + s.cur.step := by simpa using together
    refine ⟨_, rfl, fun b v forks => ⟨_, (forks.counted (c := 5) (by decide) (by decide) _).moves (fun l hl => ⟨hl, ?_⟩) _⟩⟩
    rcases all l hl with part | rest
    · exact (taken l part).2
    · rcases together' with none' | same
      · rw [none'] at rest
        simp at rest
      · exact same.trans (left l rest).2
  · next apart =>
    have stay (b z : State) (v : Wave) (forks : b.Forks z v k s.cur.wave s.cur.entry (nextOf s k fun _ => t)) (wake : Nat) :=
      forks.diverge taken (groups := [(k.f.pc + s.cur.step, k.f.mask &&& ~~~k.part)]) (by simpa using left) (fun l hl => (all l hl).imp_right fun rest =>
        ⟨_, .head _, rest⟩) wake
    have go (b z : State) (v : Wave) (forks : b.Forks z v k s.cur.wave s.cur.entry (nextOf s k fun _ => t)) (wake : Nat) :=
      forks.diverge left (groups := [(t, k.part)]) (by simpa using taken) (fun l hl => (all l hl).symm.imp_right fun part => ⟨_, .head _, part⟩) wake
    split
    · refine ⟨_, rfl, fun b v forks => ?_⟩
      have counted := forks.counted (c := 5) (by decide) (by decide) (t = k.f.pc + s.cur.step)
      split
      · exact stay _ _ v counted _
      · exact go _ _ v counted _
    · next defers =>
      rw [if_neg]
      · exact ⟨_, rfl, fun b v forks => stay _ _ v (forks.counted (c := 5) (by decide) (by decide) (t = k.f.pc + s.cur.step)) _⟩
      · -- the lanes go on at two PCs, so that one record is accounted for
        obtain ⟨some', other⟩ : k.f.mask &&& ~~~k.part ≠ 0 ∧ t ≠ k.f.pc + s.cur.step := by simpa using apart
        obtain ⟨l, part⟩ := exists_getLsbD act
        obtain ⟨l', rest⟩ := exists_getLsbD some'
        have reached {l : Nat} {pc : Nat} {m : Mask} (group : Group k.f (nextOf s k fun _ => t) pc m) (hl : m.getLsbD l = true) :
            pc ∈ ((lanesOf k.f.mask).map (nextOf s k fun _ => t)).dedup := by
          obtain ⟨active, at'⟩ := group l hl
          exact List.mem_dedup.mpr (List.mem_map.mpr ⟨l, (mem_lanesOf ..).mpr active, at'.symm⟩)
        have two : 2 ≤ (((lanesOf k.f.mask).map (nextOf s k fun _ => t)).dedup).length :=
          (List.subperm_of_subset (l₁ := [t, k.f.pc + s.cur.step]) (by simpa using other) fun p hp => by
            rcases List.mem_cons.mp hp with rfl | hp
            · exact reached taken part
            · exact List.mem_singleton.mp hp ▸ reached left rest).length_le
        have one := defers_mono s k.w k.hm (show 1 ≤ (((lanesOf k.f.mask).map (nextOf s k fun _ => t)).dedup).length - 1 by omega)
        omega

/-- The lanes of a branch that can be made, in their groups: the largest stays, the others leave. -/
def splitBody (ctr : Nat) (link : State → State) (k : Iss) (s : State) (gs : List (Nat × Mask)) : Body :=
  let others := gs.filter fun g => g.1 ≠ (largest gs).1
  let straight := gs.all fun g => g.1 == k.f.pc + s.cur.step
  if 8 < k.f.stack.length + s.defers k.w k.hm others.length then .trap 11 {}
  else .go fun z => (if straight then link z else (link z).count (qKey k.w.core k.w.q ctr) 1).diverge s k (largest gs).1 (largest gs).2 others
    (if straight then k.f.wake else z.clockIn 4)

theorem indirectBody_eq (ctr : Nat) (link : State → State) {a : Src} (room : k.f.pc + s.cur.step < 2 ^ 57)
    (targets : ∀ l, k.part.getLsbD l = true → badTarget (k.v64 a l) = none) :
    indirectBody ctr link a k s = splitBody ctr link k s (groups (nextOf s k fun l => low57 (k.v64 a l)) k.f.mask) := by
  have none' : (lanesOf k.part).filterMap (fun l => badTarget (k.v64 a l)) = [] :=
    List.filterMap_eq_nil_iff.mpr fun l hl => targets l ((mem_lanesOf ..).mp hl)
  unfold indirectBody
  rw [none', nextPc_of_lt room]
  rfl

/-- A branch to targets of the lanes' own moves every lane, if its records have room. -/
theorem indirectBody_moves {ctr : Nat} (low : 4 ≤ ctr) (high : ctr < 8) (link : State → State) (a : Src) (room : k.f.pc + s.cur.step < 2 ^ 57)
    (inside : ∀ l, k.part.getLsbD l = true → k.f.mask.getLsbD l = true) (targets : ∀ l, k.part.getLsbD l = true → badTarget (k.v64 a l) = none)
    (act : k.part ≠ 0)
    (records : k.f.stack.length + s.defers k.w k.hm ((((lanesOf k.f.mask).map (nextOf s k fun l => low57 (k.v64 a l))).dedup).length - 1) ≤ 8) :
    (indirectBody ctr link a k s).Moves link s k (nextOf s k fun l => low57 (k.v64 a l)) := by
  have grouped := groups_grouped (nextOf s k fun l => low57 (k.v64 a l)) k.f.mask
  rw [indirectBody_eq ctr link room targets]
  generalize groups (nextOf s k fun l => low57 (k.v64 a l)) k.f.mask = gs at grouped ⊢
  have keep : largest gs ∈ gs := by
    obtain ⟨l, hl⟩ := exists_getLsbD act
    obtain ⟨g, hg, -⟩ := grouped.all l ((mem_lanesOf ..).mpr (inside l hl))
    exact largest_mem grouped.some' (List.ne_nil_of_mem hg)
  have group (g : Nat × Mask) (hg : g ∈ gs) : Group k.f (nextOf s k fun l => low57 (k.v64 a l)) g.1 g.2 := fun l hl => by
    obtain ⟨active, at'⟩ := grouped.lanes g hg l hl
    exact ⟨(mem_lanesOf ..).mp active, at'⟩
  have fewer : (gs.filter fun g => g.1 ≠ (largest gs).1).length < gs.length := List.length_filter_lt_length_iff_exists.mpr ⟨_, keep, by simp⟩
  have fit := grouped.length_le
  rw [splitBody, if_neg]
  · refine ⟨_, rfl, fun b v forks => ?_⟩
    refine (forks.counted (c := ctr) low high (gs.all (fun g => g.1 == k.f.pc + s.cur.step) = true)).diverge (group _ keep)
      (fun g hg => group g (List.mem_of_mem_filter hg)) (fun l hl => ?_) _
    obtain ⟨g, hg, mine⟩ := grouped.all l ((mem_lanesOf ..).mpr hl)
    by_cases same : g.1 = (largest gs).1
    · exact .inl (List.inj_on_of_nodup_map grouped.apart hg keep same ▸ mine)
    · exact .inr ⟨g, List.mem_filter.mpr ⟨hg, by simpa using same⟩, mine⟩
  · have leaving := defers_mono s k.w k.hm (show (gs.filter fun g => g.1 ≠ (largest gs).1).length
      ≤ (((lanesOf k.f.mask).map (nextOf s k fun l => low57 (k.v64 a l))).dedup).length - 1 by omega)
    omega

end

/-! ### The statement -/

/-- What a branch does before any lane moves. -/
def Branch.links (b : Branch) (k : Iss) : State → State := match b.link with
  | none => id
  | some d => Sys2Proof.Machine.link k d

/-- What a branch writes of its wave beside its fragments. -/
def Branch.writes (b : Branch) : Writes := { ds := b.u.ds, mv := markedV b.u, ms := markedS b.u }

section
variable {b : Branch} {s : State} {k : Iss}

/-- After its operands have been read a branch has its return pointer linked, if it links one. -/
theorem Branch.course_linked (named : ∀ d, b.link = some d → d.toNat ∈ b.u.ds) (noPop : popped b.u = none) (issuing : Issuing s)
    (hk : s.issQ b.u b.h = k) :
    ∃ a w, s.Course a (b.links k (s.afterIssue b.u b.h)) k b.writes w
      ∧ (s.wave s.cur.wave).Links w k s.cur.entry b.writes
      ∧ ((b.links k (s.afterIssue b.u b.h)).wave s.cur.wave).frags = ((s.afterIssue b.u b.h).wave s.cur.wave).frags
      ∧ ∀ d, b.link = some d → ((b.links k (s.afterIssue b.u b.h)).wave s.cur.wave).sFile (sHome k.hm d.toNat) d.toNat =
        { val := toPtr (k.f.pc + s.cur.step), dead := false } := by
  obtain ⟨-, name, -, -⟩ := issuing.wave
  have own : k.w.id = s.cur.wave := by rw [← hk]; exact (issQ_w s b.u b.h).1.trans name
  have room : k.f.pc + s.cur.step < 2 ^ 57 := by rw [← hk, issQ_f]; exact issuing.room
  have read := afterIssue_course (u := b.u) (h := b.h) (x := b.writes) issuing.toStands (fun _ => ⟨fun _ hn => hn, fun _ hn => hn⟩)
    (by rw [noPop, ite_self]; rfl)
  rw [hk] at read
  have passed : (s.wave s.cur.wave).Links ((s.wave s.cur.wave).modFrag s.cur.entry (Frag.passed s)) k s.cur.entry b.writes := .modFrag rfl rfl _
  cases linked : b.link with
  | none =>
    have same : b.links k = id := by rw [Branch.links, linked]
    rw [same]
    exact ⟨_, _, read, passed, rfl, nofun⟩
  | some d =>
    have does : b.links k (s.afterIssue b.u b.h) =
        (s.afterIssue b.u b.h).modWave s.cur.wave fun w => w.writeS k.hm d.toNat (toPtr (k.f.pc + s.cur.step)) := by
      rw [Branch.links, linked]
      dsimp only [Sys2Proof.Machine.link]
      rw [own, read.cur, nextPtr, Nat.min_eq_left room.le]
    have wave : (b.links k (s.afterIssue b.u b.h)).wave s.cur.wave =
        ((s.afterIssue b.u b.h).wave s.cur.wave).writeS k.hm d.toNat (toPtr (k.f.pc + s.cur.step)) := by
      rw [does, State.wave_modWave _ _ _ _ read.here, if_pos rfl]
    rw [wave, does]
    refine ⟨_, _, read.modWave (f := fun w => w.writeS k.hm d.toNat (toPtr (k.f.pc + s.cur.step))) (fun _ _ a => a.writeS _ _) fun w => by simp [Wave.writeS],
      passed.writeS (named d linked) _, (Wave.setS_frags_h ..).1, fun d' some' => ?_⟩
    obtain rfl := Option.some.inj some'
    exact Wave.sFile_writeS_self ..

/-- Such a branch completes if its body moves its lanes where they are to go. -/
theorem Branch.completes_of {i : Instr} {body : Iss → State → Body} (whole : b.u.whole = true) (noQueue : usesQueue b.u = false) (noPop : popped b.u = none)
    (named : ∀ d, b.link = some d → d.toNat ∈ b.u.ds) (runs : ∀ s, exec i s = issue b.u b.h body s)
    (moves : ∀ s k, k.f.pc + s.cur.step < 2 ^ 57 → (∀ l, k.part.getLsbD l = true → k.f.mask.getLsbD l = true) → k.part ≠ 0 → b.ok s k →
      (body k s).Moves (b.links k) s k (b.next s k)) : b.Completes i := by
  intro s _ issuing captured clear
  have fresh := iss_fresh b.h (capt_eq_none captured noQueue)
  have stands := issuing.toStands
  obtain ⟨here, -, home, mine⟩ := issuing.wave
  have room : (s.issQ b.u b.h).f.pc + s.cur.step < 2 ^ 57 := by rw [issQ_f]; exact issuing.room
  have wave : (s.issQ b.u b.h).w = s.wave s.cur.wave := (congrArg Iss.w fresh :)
  have inside (l : Nat) (hl : (s.issQ b.u b.h).part.getLsbD l = true) : (s.issQ b.u b.h).f.mask.getLsbD l = true := by
    rw [show (s.issQ b.u b.h).part = _ from (congrArg Iss.part fresh :), partOf, BitVec.getLsbD_and, BitVec.getLsbD_and, Bool.and_eq_true,
      Bool.and_eq_true] at hl
    rw [issQ_f]
    exact hl.1.1
  have frag := issQ_f s b.u b.h
  refine ⟨fun idle => ?_, fun ok act => ?_⟩
  · have idle' : (s.issOf b.h).part = 0 := idle
    have c := (idle_course (u := b.u) (x := {}) stands idle' rfl).finish b.u
    rw [← issQ_of_idle (u := b.u) idle'] at c
    have passed := Wave.frag_modFrag_self (s.wave s.cur.wave) (Frag.passed s) (fun _ => rfl) mine
    refine ⟨_, (runs s).trans ((issue_of_clear_idle clear whole idle').trans (by rw [← issQ_of_idle (u := b.u) idle'])), ?_,
      c.frame (.passed s _ rfl rfl)⟩
    rw [frag]
    exact c.pc issuing (by rw [passed]; rfl)
  · obtain ⟨eff, goes, moves⟩ := moves s _ room inside act ok
    refine ⟨_, (runs s).trans (issue_of_clear clear (fun both => act both.2) goes), ?_⟩
    generalize hk : s.issQ b.u b.h = k at *
    obtain ⟨a, w, c, links, frags, scalar⟩ := Branch.course_linked (s := s) named noPop issuing hk
    have forks : (b.links k (s.afterIssue b.u b.h)).Forks (b.links k (s.afterIssue b.u b.h)) (s.wave s.cur.wave) k s.cur.wave s.cur.entry (b.next s k) := by
      obtain ⟨g, notes, read⟩ := afterIssue_frags (u := b.u) (h := b.h) stands
      have keeps : Frag.Keeps g := Frag.keeps_of fun f => by
        obtain ⟨rv, rs, e⟩ := notes f
        rw [e]
        rfl
      have parted := (Wave.Parted.start (next := b.next s k) mine keeps).of_frags (frags.trans read)
      rw [← frag] at parted
      have linked := (links.frame [] 0).rest
      refine ⟨.refl c.here .., parted, ?_, ?_⟩
      · rw [Wave.frag_of_frags (frags.trans read), Wave.frag_modFrag_self _ g keeps.entry mine, frag]
        obtain ⟨rv, rs, e⟩ := notes ((s.wave s.cur.wave).frag s.cur.entry)
        rw [e]
        rfl
      · rw [wave]
        exact ⟨((congrArg Wave.here c.stays.still :).trans (congrArg Wave.here linked :)).trans home,
          (congrArg Wave.core c.stays.still :).trans (congrArg Wave.core linked :), (congrArg Wave.q c.stays.still :).trans (congrArg Wave.q linked :)⟩
    obtain ⟨gone, parts⟩ := moves _ _ forks
    obtain ⟨lanes, file, split, frame⟩ := c.splits stands links rfl rfl parts b.u
    refine ⟨lanes, fun d some' => ?_, wave ▸ split, frame⟩
    obtain ⟨val, dead⟩ := file (sHome k.hm d.toNat) d.toNat (by rw [scalar d some'])
    rw [Wave.sval, Wave.sreg_eq_sFile, dead, val, scalar d some']
    rfl

end

/-- A lane goes on where the branch has its target. -/
theorem Branch.next_eq {b : Branch} {s : State} {k : Iss} {dest : Nat → Nat} (targets : ∀ l, k.part.getLsbD l = true → b.dest k l = some (dest l)) :
    b.next s k = nextOf s k dest := by
  funext l
  unfold Branch.next nextOf
  split
  · next part => rw [targets l part]; rfl
  · rfl

/-- `BRA` and `CALL` complete. -/
theorem Branch.completes_of_relative {b : Branch} {i : Instr} {off : BitVec 32} (whole : b.u.whole = true) (srcs : b.u.srcs = []) (push : usesQueue b.u = false)
    (named : ∀ d, b.link = some d → d.toNat ∈ b.u.ds) (dest : ∀ k l, b.dest k l = relTarget k.f.pc off)
    (runs : ∀ s, exec i s = issue b.u b.h (fun k => branchBody (b.links k) off k) s) : b.Completes i := by
  refine Branch.completes_of whole push (by rw [popped, srcs]; rfl) named runs fun s k room inside act ⟨defined, records⟩ => ?_
  obtain ⟨l, part⟩ := exists_getLsbD act
  obtain ⟨t, target⟩ := Option.isSome_iff_exists.mp ((dest k l).symm ▸ defined l part)
  have next : b.next s k = nextOf s k fun _ => t := Branch.next_eq fun l _ => (dest k l).trans target
  rw [next] at records ⊢
  exact branchBody_moves _ off room inside target act records

/-- `BRX`, `CALLX` and `RET` complete. -/
theorem Branch.completes_of_indirect {b : Branch} {i : Instr} {a : Src} {ctr : Nat} (low : 4 ≤ ctr) (high : ctr < 8) (whole : b.u.whole = true)
    (queue : usesQueue b.u = false) (noPop : popped b.u = none) (named : ∀ d, b.link = some d → d.toNat ∈ b.u.ds)
    (dest : ∀ k l, b.dest k l = if (badTarget (k.v64 a l)).isSome then none else some (low57 (k.v64 a l)))
    (runs : ∀ s, exec i s = issue b.u b.h (fun k => indirectBody ctr (b.links k) a k) s) : b.Completes i := by
  refine Branch.completes_of whole queue noPop named runs fun s k room inside act ⟨defined, records⟩ => ?_
  have targets (l : Nat) (part : k.part.getLsbD l = true) : badTarget (k.v64 a l) = none := by
    have isTarget := defined l part
    rw [dest] at isTarget
    cases bad : badTarget (k.v64 a l) with
    | none => rfl
    | some c => rw [bad] at isTarget; cases isTarget
  have next : b.next s k = nextOf s k fun l => low57 (k.v64 a l) := Branch.next_eq fun l part => by rw [dest, targets l part]; rfl
  rw [next] at records ⊢
  exact indirectBody_moves low high _ a room inside targets act records

theorem HA.isTarget_of_wf {x : HA} {f96 f128 : Bool} (wf : x.wf f96 f128 Src.isTarget = true) : x.a.isTarget = true := by
  simp only [HA.wf, Bool.and_eq_true] at wf
  exact wf.1.2

/-- A target operand is no role queue. -/
theorem isTarget_noQueue {a : Src} (target : a.isTarget = true) (ds : List Nat) :
    usesQueue { ctl with srcs := [⟨a, 2, 1⟩], ds := ds } = false ∧ popped { ctl with srcs := [⟨a, 2, 1⟩], ds := ds } = none := by
  cases a with
  | v => exact ⟨rfl, rfl⟩
  | s => exact ⟨rfl, rfl⟩
  | _ => cases target

/-- Settles O12: a branch with one target splits its lanes in two at most, one with targets of the lanes' own into the groups of their PCs. -/
theorem branchResults : Obligations.BranchResults := by
  unfold Obligations.BranchResults
  intro i b some'
  cases i with
  | bra x =>
    obtain rfl := Option.some.inj some'
    exact Branch.completes_of_relative rfl rfl rfl nofun (fun _ _ => rfl) fun _ => rfl
  | call x =>
    obtain rfl := Option.some.inj some'
    exact Branch.completes_of_relative rfl rfl rfl (fun d some' => Option.some.inj some' ▸ .head _) (fun _ _ => rfl) fun _ => rfl
  | brx x =>
    obtain rfl := Option.some.inj some'
    intro s wf
    obtain ⟨queue, noPop⟩ := isTarget_noQueue (HA.isTarget_of_wf wf) []
    exact Branch.completes_of_indirect (by decide) (by decide) rfl queue noPop (by nofun) (fun _ _ => rfl) (fun _ => rfl) s wf
  | callx x =>
    obtain rfl := Option.some.inj some'
    intro s wf
    have target : x.a.isTarget = true := (Bool.and_eq_true_iff.mp wf).2
    obtain ⟨queue, noPop⟩ := isTarget_noQueue target [x.d.toNat]
    exact Branch.completes_of_indirect (by decide) (by decide) rfl queue noPop (fun d some' => Option.some.inj some' ▸ .head _)
      (fun _ _ => rfl) (fun _ => rfl) s wf
  | ret x =>
    obtain rfl := Option.some.inj some'
    intro s wf
    obtain ⟨queue, noPop⟩ := isTarget_noQueue (HA.isTarget_of_wf wf) []
    exact Branch.completes_of_indirect (by decide) (by decide) rfl queue noPop (by nofun) (fun _ _ => rfl) (fun _ => rfl) s wf
  | _ => cases some'

end Sys2Proof.Machine
